-- ==== Sys2Proof/Word.lean ====
section
/-! DEFINITION. The word types of the Ralano package and their plainest arithmetic. -/

namespace Sys2Proof

/-- A byte of any store. -/
abbrev Byte := BitVec 8
/-- The 32-bit word of a register, an accumulator tile or a uniform register (R23). -/
abbrev Word := BitVec 32
/-- A 64-bit value: an even/odd register pair, an instruction word, a latch (R10, R149, R152). -/
abbrev DWord := BitVec 64
/-- A physical address of the flat 52-bit space, computed exactly (R15, R47). -/
abbrev Addr := Nat
/-- A finite table from numbers to values. -/
abbrev Tbl (α : Type) := List (Nat × α)

/-- `a / b` rounded up, for b at least 1. -/
def ceilDiv (a b : Nat) : Nat := (a + b - 1) / b

end Sys2Proof
end

