-- ==== Sys2Proof/Syntax.lean ====
section
/-! DEFINITION. The syntax of the machine's steps: operands as the assembler names them (R150–R154, R169), one operand record for
each shape of instruction, what outside parties supply to events, and the one inductive Instr. No raw encoding is held here:
Sys2Proof.Decode turns words into these values and back. -/

namespace Sys2Proof

/-! ## Operands -/

/-- Binding-time mark (R156). -/
inductive BT where
  | dyn | fold | ctl
  deriving DecidableEq, Repr

/-- A guard (R150): p = 0 without neg is unguarded; p = 0 with neg is the reserved code. -/
structure Guard where
  neg : Bool := false
  p   : BitVec 3 := 0
  deriving DecidableEq, Repr

/-- What every instruction word carries beside its own fields: binding time, guard, and the literal word that follows it (0 when
no operand names one, R153). -/
structure Ctl where
  bt  : BT := .dyn
  g   : Guard := {}
  lit : DWord := 0
  deriving DecidableEq, Repr

/-- A destination of class V: a register, or with WBS a latch (R151, R152). -/
inductive VDst where
  | v (n : BitVec 8)
  | b (n : BitVec 2)
  deriving DecidableEq, Repr

/-- A source of class V: register, latch, broadcast uniform register or the literal (R151). -/
inductive VSrc where
  | v (n : BitVec 8)
  | b (n : BitVec 2)
  | s (n : BitVec 6)
  | lit
  deriving DecidableEq, Repr

/-- A source of class S (R151). -/
inductive SSrc where
  | s (n : BitVec 6)
  | lit
  deriving DecidableEq, Repr

/-- Operand B of the integer forms: a V source, or the 7-bit short immediate (R182). -/
inductive BSrc where
  | src (x : VSrc)
  | imm (i : BitVec 7)
  deriving DecidableEq, Repr

/-- Rounding modes (R28, R199). -/
inductive RM where
  | rn | rz | ru | rd
  deriving DecidableEq, Repr

/-- Scopes (R122, R226). -/
inductive Scope where
  | lane | convoy | core | quad | die | pkg | pod
  deriving DecidableEq, Repr

/-- Engine classes, in the order of the wait codes 0b001 to 0b110 (R78, R145). -/
inductive Cls where
  | ecp | egs | emx | ecl | enm | eat
  deriving DecidableEq, Repr

/-- Relations of icmp (R182). -/
inductive ICC where
  | eq | ne | lt | le | gt | ge
  deriving DecidableEq, Repr

/-- Relations of fcmp (R193). -/
inductive FCC where
  | eq | ne | lt | le | gt | ge | un | ord
  deriving DecidableEq, Repr

/-- The ten valid (FROM, TO) pairs of cvt (R200). -/
inductive CvtPair where
  | bf16_f32 | f16_f32 | f32_bf16 | f32_f16 | f32_s32 | f32_u32 | f32_s64 | s32_f32 | u32_f32 | s64_f32
  deriving DecidableEq, Repr

/-- Element formats of dqnt, the quantise forms and the down-converter (R203, R39). -/
inductive QFmt where
  | e4m3 | e5m2 | e2m1 | i8 | t2
  deriving DecidableEq, Repr

/-- Operations of red and scan (R211). -/
inductive RedFn where
  | fadd | iadd | fmin | fmax | smin | smax | umin | umax | and | or | xor
  deriving DecidableEq, Repr

/-- Modes of shfl (R207). -/
inductive ShflMode where
  | at | rot | swap | rev
  deriving DecidableEq, Repr

/-- Parts of ballot (R208). -/
inductive Part where
  | whole | below | above
  deriving DecidableEq, Repr

/-- Modes of vote (R209). -/
inductive VoteMode where
  | none | some | every | same | most
  | quorum (s : SSrc)
  deriving DecidableEq, Repr

/-- Access sizes (R216). -/
inductive Sz where
  | b8 | b16 | b32 | b64 | b128
  deriving DecidableEq, Repr

/-- The base of a local access (R216): a capability register (per lane or uniform), a tile, the window. -/
inductive Space where
  | k (n : BitVec 6)
  | ks (n : BitVec 4)
  | tile (t : BitVec 4)
  | win
  deriving DecidableEq, Repr

/-- An address operand (R216, R217): base, offset register (none with NR = 1), displacement in units of the access size. -/
structure AddrOp where
  space : Space
  off   : Option VSrc := none
  disp  : BitVec 4 := 0
  deriving DecidableEq, Repr

/-- Local and engine atomic operations (R223, R263). -/
inductive AtomFn where
  | add | min | max | and | or | xor | xch | cas
  deriving DecidableEq, Repr

/-- Fields of cget (R235). -/
inductive CField where
  | kind | sealed | otype | colour | gen | perms | e | m | base | len | tag | top
  deriving DecidableEq, Repr

/-- Element sizes of gather and scatter (R254). -/
inductive Esz where
  | e4 | e8 | e16 | e32 | e64 | e128
  deriving DecidableEq, Repr

/-- Matrix forms (R256, R257); bf16 carries the H modifier. -/
inductive MxFmt where
  | e4m3 | e5m2 | e2m1 | bf16 | f16 | i8 | t8
  deriving DecidableEq, Repr

/-- Formats of ast (R260). -/
inductive AstFmt where
  | f32 | q (f : QFmt)
  deriving DecidableEq, Repr

/-- Operations of clx (R261). -/
inductive ClxFn where
  | sum | max | min | bcast | allgather
  deriving DecidableEq, Repr

/-- Operations of nmc (R262). -/
inductive NmcFn where
  | fade | fadd | fmulc | iaddc | iadd | fill
  deriving DecidableEq, Repr

/-- Conditions of wsig (R265). -/
inductive WCC where
  | eq | ne | ge | lt
  deriving DecidableEq, Repr

/-- Operations of lnest (R279). -/
inductive LnFn where
  | copy | add | sub | mul | min | max | mac | accadd | accmax | accmin
  deriving DecidableEq, Repr

/-- Element formats of lnest (R279). -/
inductive LnTy where
  | f32 | i32 | bf16 | f16
  deriving DecidableEq, Repr

/-! ## One record for each shape of instruction -/

/-- Two-operand integer forms (R181). -/
structure IBin where
  c : Ctl
  d : VDst
  a : VSrc
  b : BSrc
  sat : Bool := false
  u : Bool := false
  deriving DecidableEq, Repr

/-- imad (R184). -/
structure IMad where
  c : Ctl
  d : VDst
  a : VSrc
  b : BSrc
  e : VSrc
  sat : Bool := false
  u : Bool := false
  deriving DecidableEq, Repr

/-- One-operand integer forms (R186). -/
structure IUn where
  c : Ctl
  d : VDst
  a : VSrc
  sat : Bool := false
  deriving DecidableEq, Repr

/-- bfx and bfi (R187). -/
structure IBf where
  c : Ctl
  d : VDst
  a : VSrc
  pos : VSrc
  wid : VSrc
  u : Bool := false
  deriving DecidableEq, Repr

/-- sel (R188). -/
structure ISel where
  c : Ctl
  d : VDst
  a : VSrc
  b : VSrc
  p : BitVec 3
  deriving DecidableEq, Repr

/-- icmp (R189). -/
structure ICmp where
  c : Ctl
  p : BitVec 3
  a : VSrc
  b : BSrc
  cc : ICC
  u : Bool := false
  deriving DecidableEq, Repr

/-- movi (R188): IMM21, or the literal when it is 0x10_0000. -/
structure IMovi where
  c : Ctl
  d : VDst
  imm : BitVec 21
  deriving DecidableEq, Repr

/-- Two-operand FP32 forms and fscale (R190). -/
structure FBin where
  c : Ctl
  d : VDst
  a : VSrc
  b : VSrc
  deriving DecidableEq, Repr

/-- ffma (R190). -/
structure FTri where
  c : Ctl
  d : VDst
  a : VSrc
  b : VSrc
  e : VSrc
  deriving DecidableEq, Repr

/-- fcmp (R193). -/
structure FCmp where
  c : Ctl
  p : BitVec 3
  a : VSrc
  b : VSrc
  cc : FCC
  deriving DecidableEq, Repr

/-- One-operand FP32 forms (R190). -/
structure FUn where
  c : Ctl
  d : VDst
  a : VSrc
  deriving DecidableEq, Repr

/-- hadd2 and hmul2 (R198); f16 is H. -/
structure HBin where
  c : Ctl
  d : VDst
  a : VSrc
  b : VSrc
  f16 : Bool
  deriving DecidableEq, Repr

/-- hfma2 (R198). -/
structure HTri where
  c : Ctl
  d : VDst
  a : VSrc
  b : VSrc
  e : VSrc
  f16 : Bool
  deriving DecidableEq, Repr

/-- cvt (R200). -/
structure CvtOp where
  c : Ctl
  d : VDst
  a : VSrc
  pair : CvtPair
  hi : Bool := false
  rm : RM := .rn
  deriving DecidableEq, Repr

/-- The quantise forms (R202). -/
structure QntOp where
  c : Ctl
  d : VDst
  a : VSrc
  scale : VSrc
  pos : BitVec 4
  rm : RM := .rn
  deriving DecidableEq, Repr

/-- dqnt (R203). -/
structure DqntOp where
  c : Ctl
  d : VDst
  a : VSrc
  scale : VSrc
  pos : BitVec 4
  fmt : QFmt
  deriving DecidableEq, Repr

/-- sacc (R204); i32 is PT. -/
structure SaccOp where
  c : Ctl
  ad : BitVec 4
  ap : BitVec 4
  scale : SSrc
  i32 : Bool
  deriving DecidableEq, Repr

/-- sacc.v (R204): vectors at ks + o + 16 × off. -/
structure SaccVOp where
  c : Ctl
  ad : BitVec 4
  ap : BitVec 4
  ks : BitVec 4
  o : SSrc
  off : BitVec 8
  i32 : Bool
  deriving DecidableEq, Repr

/-- shfl (R207). -/
structure ShflOp where
  c : Ctl
  d : VDst
  a : VSrc
  b : VSrc
  mode : ShflMode
  grp : BitVec 3
  deriving DecidableEq, Repr

/-- ballot (R208). -/
structure BallotOp where
  c : Ctl
  d : VDst
  p : BitVec 3
  part : Part
  deriving DecidableEq, Repr

/-- vote (R209). -/
structure VoteOp where
  c : Ctl
  q : BitVec 2
  p : BitVec 3
  mode : VoteMode
  deriving DecidableEq, Repr

/-- bcast (R210): a fixed position, or the first active one. -/
structure BcastOp where
  c : Ctl
  sd : BitVec 6
  a : VSrc
  first : Bool
  pos : BitVec 9
  deriving DecidableEq, Repr

/-- red and scan (R211); excl only on scan. -/
structure RedOp where
  c : Ctl
  d : VDst
  a : VSrc
  fn : RedFn
  excl : Bool := false
  deriving DecidableEq, Repr

/-- cmpst (R213). -/
structure CmpstOp where
  c : Ctl
  sd : BitVec 6
  a : VSrc
  ks : BitVec 4
  so : SSrc
  off : BitVec 12
  deriving DecidableEq, Repr

/-- expld (R214). -/
structure ExpldOp where
  c : Ctl
  d : VDst
  ks : BitVec 4
  so : SSrc
  off : BitVec 12
  deriving DecidableEq, Repr

/-- ld (R219). -/
structure LdOp where
  c : Ctl
  d : VDst
  sz : Sz
  sx : Bool := false
  addr : AddrOp
  deriving DecidableEq, Repr

/-- st (R220). -/
structure StOp where
  c : Ctl
  a : VSrc
  sz : Sz
  addr : AddrOp
  deriving DecidableEq, Repr

/-- ldk (R221); ud is UD, uniform destination. -/
structure LdkOp where
  c : Ctl
  ud : Bool
  d : BitVec 6
  addr : AddrOp
  deriving DecidableEq, Repr

/-- stk (R222); us is US, uniform source. -/
structure StkOp where
  c : Ctl
  us : Bool
  a : BitVec 6
  addr : AddrOp
  deriving DecidableEq, Repr

/-- The local atomics (R223); u only on amin and amax. -/
structure AtomOp where
  c : Ctl
  d : VDst
  a : VSrc
  w64 : Bool
  u : Bool := false
  addr : AddrOp
  deriving DecidableEq, Repr

/-- fence (R227). -/
structure FenceOp where
  c : Ctl
  scope : Scope
  deriving DecidableEq, Repr

/-- csub (R230); uf: uniform form, ua: SRCA of class KS in the per-lane form. -/
structure CsubOp where
  c : Ctl
  uf : Bool
  ua : Bool
  d : BitVec 6
  a : BitVec 6
  off : VSrc
  len : VSrc
  exact : Bool
  deriving DecidableEq, Repr

/-- cperm and cbale (R231, R233). -/
structure CapVOp where
  c : Ctl
  uf : Bool
  ua : Bool
  d : BitVec 6
  a : BitVec 6
  x : VSrc
  deriving DecidableEq, Repr

/-- cseal (R232). -/
structure CsealOp where
  c : Ctl
  uf : Bool
  ua : Bool
  ub : Bool
  d : BitVec 6
  a : BitVec 6
  s : BitVec 6
  t : VSrc
  deriving DecidableEq, Repr

/-- cunseal (R232). -/
structure CunsealOp where
  c : Ctl
  uf : Bool
  ua : Bool
  ub : Bool
  d : BitVec 6
  a : BitVec 6
  s : BitVec 6
  deriving DecidableEq, Repr

/-- ctest (R234). -/
structure CtestOp where
  c : Ctl
  uf : Bool
  ua : Bool
  d : BitVec 3
  a : BitVec 6
  live : Bool
  deriving DecidableEq, Repr

/-- Destination of cget: a V destination, or an s register in the uniform form. -/
inductive CgetDst where
  | lane (d : VDst)
  | uni (s : BitVec 6)
  deriving DecidableEq, Repr

/-- cget (R235). -/
structure CgetOp where
  c : Ctl
  ua : Bool
  d : CgetDst
  a : BitVec 6
  field : CField
  deriving DecidableEq, Repr

/-- cnull (R236). -/
structure CnullOp where
  c : Ctl
  uf : Bool
  d : BitVec 6
  deriving DecidableEq, Repr

/-- cdeleg (R237). -/
structure CdelegOp where
  c : Ctl
  uf : Bool
  ua : Bool
  d : BitVec 6
  kb : BitVec 6
  ksrc : BitVec 6
  kdst : BitVec 6
  blk : BitVec 4
  xq : BitVec 6
  deriving DecidableEq, Repr

/-- cpy, direct form (R250); p names the parameter group. -/
structure CpyOp where
  c : Ctl
  kd : BitVec 4
  ka : BitVec 4
  p : BitVec 6
  deriving DecidableEq, Repr

/-- cpy.cmd (R248); loc is the local capability when LOC = 1. -/
structure CpyCmdOp where
  c : Ctl
  kc : BitVec 4
  loc : Option (BitVec 4)
  deriving DecidableEq, Repr

/-- gat and sct (R250, R255). -/
structure GsOp where
  c : Ctl
  kd : BitVec 4
  ka : BitVec 4
  idx : VSrc
  p : BitVec 6
  esz : Esz
  deriving DecidableEq, Repr

/-- mma forms (R256); f16 is H, only on mma.bf16. -/
structure MmaOp where
  c : Ctl
  ad : BitVec 4
  ka : BitVec 4
  kb : BitVec 4
  p : BitVec 6
  f16 : Bool := false
  deriving DecidableEq, Repr

/-- mmac forms (R256). -/
structure MmacOp where
  c : Ctl
  ad : BitVec 4
  as : BitVec 4
  kb : BitVec 4
  p : BitVec 6
  f16 : Bool := false
  deriving DecidableEq, Repr

/-- aclr (R260). -/
structure AclrOp where
  c : Ctl
  ad : BitVec 4
  deriving DecidableEq, Repr

/-- ald (R260). -/
structure AldOp where
  c : Ctl
  ad : BitVec 4
  ka : BitVec 4
  p : BitVec 6
  deriving DecidableEq, Repr

/-- ast (R260). -/
structure AstOp where
  c : Ctl
  kd : BitVec 4
  as : BitVec 4
  p : BitVec 6
  fmt : AstFmt
  deriving DecidableEq, Repr

/-- clx (R261); i32 is TYPE. -/
structure ClxOp where
  c : Ctl
  kd : BitVec 4
  ka : BitVec 4
  p : BitVec 6
  fn : ClxFn
  i32 : Bool
  deriving DecidableEq, Repr

/-- nmc (R262). -/
structure NmcOp where
  c : Ctl
  kt : BitVec 4
  kg : BitVec 4
  p : BitVec 6
  fn : NmcFn
  deriving DecidableEq, Repr

/-- gatm (R263). -/
structure GatmOp where
  c : Ctl
  d : VDst
  k : BitVec 4
  o : VSrc
  a : VSrc
  fn : AtomFn
  w64 : Bool
  u : Bool := false
  deriving DecidableEq, Repr

/-- sig (R264); rel carries the scope of a release. -/
structure SigOp where
  c : Ctl
  k : BitVec 4
  o : SSrc
  v : SSrc
  add : Bool
  rel : Option Scope
  deriving DecidableEq, Repr

/-- wsig (R265); acq carries the scope of an acquire; tmo is TMO. -/
structure WsigOp where
  c : Ctl
  q : BitVec 2
  k : BitVec 4
  o : SSrc
  v : SSrc
  cc : WCC
  acq : Option Scope
  tmo : BitVec 4
  deriving DecidableEq, Repr

/-- waitc (R266); no class is CLS 0b000. -/
structure WaitcOp where
  c : Ctl
  cls : Option Cls
  thr : BitVec 6
  deriving DecidableEq, Repr

/-- revoke (R267); sg names the signal word of .sig. -/
structure RevokeOp where
  c : Ctl
  sd : BitVec 6
  k : BitVec 4
  sg : Option (BitVec 4 × SSrc)
  deriving DecidableEq, Repr

/-- stage (R252). -/
structure StageOp where
  c : Ctl
  k : BitVec 4
  i : SSrc
  back : Bool
  deriving DecidableEq, Repr

/-- wb (R253). -/
structure WbOp where
  c : Ctl
  k : BitVec 4
  p : BitVec 6
  inv : Bool
  deriving DecidableEq, Repr

/-- bra (R269): cond is (NEG, Q) when QEN = 1. -/
structure BraOp where
  c : Ctl
  cond : Option (Bool × BitVec 2)
  imm : BitVec 21
  deriving DecidableEq, Repr

/-- brc and call (R269). -/
structure BrOp where
  c : Ctl
  imm : BitVec 21
  deriving DecidableEq, Repr

/-- brx and calli (R269). -/
structure BrxOp where
  c : Ctl
  uf : Bool
  k : BitVec 6
  o : VSrc
  deriving DecidableEq, Repr

/-- spawn (R271). -/
structure SpawnOp where
  c : Ctl
  a : VSrc
  sz8 : BitVec 5
  imm : BitVec 21
  deriving DecidableEq, Repr

/-- region (R270). -/
structure RegionOp where
  c : Ctl
  d : VDst
  deriving DecidableEq, Repr

/-- bar (R272). -/
structure BarOp where
  c : Ctl
  scope : Scope
  slot : BitVec 4
  deriving DecidableEq, Repr

/-- grow and shrink (R273). -/
structure GrowOp where
  c : Ctl
  n : BitVec 8
  deriving DecidableEq, Repr

/-- trap (R270). -/
structure TrapOp where
  c : Ctl
  code : BitVec 12
  deriving DecidableEq, Repr

/-- qpush (R276); n1 is n − 1. -/
structure QpushOp where
  c : Ctl
  q : BitVec 2
  kq : BitVec 4
  kr : BitVec 4
  so : SSrc
  n1 : BitVec 2
  nb : Bool
  deriving DecidableEq, Repr

/-- qpop (R276). -/
structure QpopOp where
  c : Ctl
  q : BitVec 2
  kq : BitVec 4
  kr : BitVec 4
  so : SSrc
  nb : Bool
  deriving DecidableEq, Repr

/-- qslots (R276). -/
structure QslotsOp where
  c : Ctl
  sd : BitVec 6
  kq : BitVec 4
  deriving DecidableEq, Repr

/-- launch (R276). -/
structure LaunchOp where
  c : Ctl
  kq : BitVec 4
  kr : BitVec 4
  so : SSrc
  deriving DecidableEq, Repr

/-- One level of a loop nest (R162): extent minus 1 and the three strides in elements. -/
structure LnLevel where
  ext : BitVec 8
  sd : BitVec 10
  sa : BitVec 10
  sb : BitVec 10
  deriving DecidableEq, Repr

/-- lnest (R161, R162): `levels` holds NLEV levels, innermost first. -/
structure LnestOp where
  bt : BT
  fn : LnFn
  ty : LnTy
  kd : BitVec 4
  od : BitVec 6
  ka : BitVec 4
  oa : BitVec 6
  kb : BitVec 4
  ob : BitVec 6
  levels : List LnLevel
  deriving DecidableEq, Repr

/-- rep (R158). -/
structure RepOp where
  bt : BT
  cnt : BitVec 6
  std : BitVec 5
  sta : BitVec 5
  stb : BitVec 5
  stc : BitVec 5
  deriving DecidableEq, Repr

/-- sysrd (R282). -/
structure SysrdOp where
  c : Ctl
  d : VDst
  num : BitVec 12
  deriving DecidableEq, Repr

/-- syswr (R282). -/
structure SyswrOp where
  c : Ctl
  a : VSrc
  num : BitVec 12
  deriving DecidableEq, Repr

/-! ## What outside parties supply to events -/

/-- The key of a serai (R83): package SP number, workgroup, entry address. -/
structure SeraiKey where
  spn : Nat
  wg : Nat
  entry : Nat
  deriving DecidableEq, Repr

/-- A 128-byte line that fails from this step on: its first address, whether the MAC fails (else the ECC) (R434), and whether the
error strikes the line's copy in the memory-side cache (R435). -/
structure LineFail where
  line : Nat
  mac : Bool
  msc : Bool := false
  deriving DecidableEq, Repr

/-- A stream of messages (R458): the package at the other end, and the colour. -/
structure PeerStream where
  peer : Nat
  colour : Nat
  deriving DecidableEq, Repr

/-- What an answer brings with it: its stream, and its sequence number there (R458). -/
structure Arrival where
  on : PeerStream
  seq : Nat
  deriving DecidableEq, Repr

/-- A recall as it arrives at a Route port (R71): owner package, owner colour, the range of each entry of the pass, and its sequence
number (R458). -/
structure RecallMsg where
  port : Nat
  owner : Nat
  colour : Nat
  ranges : List (Nat × Nat)
  seq : Nat
  deriving DecidableEq, Repr

/-- A bale as it arrives (R63): port, sending package, the colour of the transfer that carries it, its bits, and the place it is carried
to: an offset of what a capability names here, or of the local capability of the remote command `cmd` of this package (R64); and its
sequence number (R458). -/
structure BaleMsg where
  port : Nat
  peer : Nat
  colour : Nat
  bits : BitVec 128
  base : Nat
  len : Nat
  perms : BitVec 16
  off : Nat
  cmd : Option Nat := none
  seq : Nat
  deriving DecidableEq, Repr

/-- A forwarded remote command (R64): port, sending package, sender's colour, the CMD capability's BASE on this package, the
length of the local end at the peer (0 for none), the peer's name for the command, and the message's sequence number (R458). -/
structure RemoteCmdMsg where
  port : Nat
  peer : Nat
  colour : Nat
  block : Nat
  localLen : Nat
  cmd : Nat := 0
  seq : Nat
  deriving DecidableEq, Repr

/-- A forwarded access through a remote DATA or QUEUE capability (R65), or through the local capability of a remote command (R64):
`update` is the near-memory update of a line, with its operand words, `claim` the bytes that the command is to use there, which are
checked before any of them moves, and `done` the STATUS with which the command ends. -/
inductive RemoteAcc where
  | read (off n : Nat)
  | write (off : Nat) (bytes : List Byte)
  | atomic (off : Nat) (fn : AtomFn) (w64 u : Bool) (a b : DWord)
  | qpush (slots : List (BitVec 128 × Bool)) (nb : Bool)
  | qpop (nb : Bool)
  | qslots
  | update (off : Nat) (fn : NmcFn) (alpha beta : Word) (g : List Word)
  | claim (write : Bool) (perms : BitVec 16) (runs : List (Nat × Nat))
  | done (status : Nat)
  deriving DecidableEq, Repr

/-- A forwarded access as it arrives: port, sending package, sender's colour, the capability's BASE, length and PERMS; or of the remote
command `cmd` of this package, whose local capability it goes through (R64); and its sequence number (R458). -/
structure RemoteAccMsg where
  port : Nat
  peer : Nat
  colour : Nat
  base : Nat
  len : Nat
  perms : BitVec 16
  acc : RemoteAcc
  cmd : Option Nat := none
  seq : Nat
  deriving DecidableEq, Repr

/-- The acknowledgement of a forwarded queue instruction (R65, R277): a refusal cause (0 for none), the outcome, the count of
qslots, the record of qpop. -/
structure QueueAck where
  cause : Nat
  ok : Bool
  val : Word
  slots : List (BitVec 128 × Bool)
  deriving DecidableEq, Repr

/-- That acknowledgement as it arrives, with its place in its stream (R458). -/
structure QueueAckMsg where
  ack : QueueAck
  at_ : Arrival
  deriving DecidableEq, Repr

/-- The acknowledgement of a cancellation (R431): the command that it ends, and its place in its stream (R458). -/
structure CancelAck where
  cmd : Nat
  at_ : Arrival
  deriving DecidableEq, Repr

/-- A contribution of a peer to a `.pod` collective slot (R261, R301), with its sequence number (R458). -/
structure PodClxMsg where
  peer : Nat
  colour : Nat
  join : Nat
  rank : Nat
  fn : ClxFn
  i32 : Bool
  data : List Byte
  seq : Nat
  deriving DecidableEq, Repr

/-- What a detection circuit tells of an error (R392, R394): the item of the core that it struck, by a number (log entry 81), and
the SOURCE of its record, and whether its code corrected it. -/
structure ErrorMsg where
  item : Nat
  source : BitVec 8
  corrected : Bool := false
  deriving DecidableEq, Repr

/-- What a peer's port presents when a link is trained (R364): its device identity certificate chain, its training nonce, its
signature of ours, and the pair key it sends, sealed, when its package number is the lower one. -/
structure TrainMsg where
  chain : List Byte
  nonce : BitVec 512
  signature : BitVec 4096
  sealedKey : BitVec 4096
  deriving DecidableEq, Repr

/-- A BAR2 access (R352): aperture, offset, the bytes of a write, or the length of a read. -/
structure ApMsg where
  ap : Nat
  off : Nat
  write : Option (List Byte)
  n : Nat
  deriving DecidableEq, Repr

/-- A world request (R315): the 512-bit record, and for one popped from a service queue the colour of that world (R318). -/
structure WReq where
  bits : BitVec 512
  svc : Option Nat
  deriving DecidableEq, Repr

/-- A firmware image (R367): the fields of its header, its body, the public key under which it is signed, and the signature. -/
structure BootImage where
  version : BitVec 32
  svn : BitVec 32
  length : BitVec 64
  hash : BitVec 512
  body : List Byte
  key : List Byte
  signature : BitVec 4096
  deriving DecidableEq, Repr

/-- What a boot finds and what firmware and the pod configuration fix at it (R366, R116, R354, R362, R462): the package number, the bank
sets that hold firmware memory, the place of the firmware request queue in the first of them, the hypervisor's world, whether the identity
fuses can be read, the image slots (none: unreadable), whether firmware memory and the die links pass, the cores and the
pseudo-channels (stack and number) that fail their test. -/
structure BootCfg where
  pkg : BitVec 10
  fwSets : List Nat
  fwq : Nat
  hyp : Nat
  hypRanges : List (Nat × Nat × Bool)
  hypCtab : Nat
  fuses : Bool := true
  slots : List (Option BootImage) := []
  memory : Bool := true
  links : Bool := true
  cores : List Nat := []
  channels : List (Nat × Nat) := []
  deriving DecidableEq, Repr

/-! ## The steps of the machine -/

/-- One constructor for each row of the opcode table: the 175 instructions of groups 0 to 7 (R165, R166), then the events of
the package, each one whole step. An event names what it acts on and carries what the outside supplies. -/
inductive Instr where
  /-- R183. Adds two 32-bit integer operands in each active lane, wrapping or saturating. -/
  | iadd (o : IBin)
  /-- R183. Adds two 64-bit register-pair operands in each active lane, wrapping or saturating. -/
  | iadd64 (o : IBin)
  /-- R183. Subtracts two 32-bit integer operands in each active lane. -/
  | isub (o : IBin)
  /-- R183. Subtracts two 64-bit integer operands in each active lane. -/
  | isub64 (o : IBin)
  /-- R183. Multiplies two 32-bit integers and keeps the low bits, or saturates. -/
  | imul (o : IBin)
  /-- R183. Multiplies two 64-bit integers and keeps the low bits, or saturates. -/
  | imul64 (o : IBin)
  /-- R183. Writes the high half of the exact 64-bit product of two 32-bit integers. -/
  | imulh (o : IBin)
  /-- R183. Writes the high half of the exact 128-bit product of two 64-bit integers. -/
  | imulh64 (o : IBin)
  /-- R184. Computes a times b plus c on 32-bit integers, wrapping or saturating. -/
  | imad (o : IMad)
  /-- R184. Computes a times b plus c on 64-bit integers, wrapping or saturating. -/
  | imad64 (o : IMad)
  /-- R185. Divides two 32-bit integers, truncating toward zero, with fixed results for division by zero and overflow. -/
  | idiv (o : IBin)
  /-- R185. Divides two 64-bit integers, truncating toward zero, with fixed special cases. -/
  | idiv64 (o : IBin)
  /-- R185. Writes the 32-bit remainder, which carries the sign of the dividend. -/
  | irem (o : IBin)
  /-- R185. Writes the 64-bit remainder, which carries the sign of the dividend. -/
  | irem64 (o : IBin)
  /-- R186. Writes the 32-bit absolute value, optionally saturated. -/
  | iabs (o : IUn)
  /-- R186. Writes the 64-bit absolute value, optionally saturated. -/
  | iabs64 (o : IUn)
  /-- R186. Writes the 32-bit negation, optionally saturated. -/
  | ineg (o : IUn)
  /-- R186. Writes the 64-bit negation, optionally saturated. -/
  | ineg64 (o : IUn)
  /-- R183. Writes the lesser of two 32-bit integers, compared signed or unsigned. -/
  | imin (o : IBin)
  /-- R183. Writes the lesser of two 64-bit integers, compared signed or unsigned. -/
  | imin64 (o : IBin)
  /-- R183. Writes the greater of two 32-bit integers, compared signed or unsigned. -/
  | imax (o : IBin)
  /-- R183. Writes the greater of two 64-bit integers, compared signed or unsigned. -/
  | imax64 (o : IBin)
  /-- R183. Writes the bitwise AND of two 32-bit operands. -/
  | andOp (o : IBin)
  /-- R183. Writes the bitwise AND of two 64-bit operands. -/
  | andOp64 (o : IBin)
  /-- R183. Writes the bitwise OR of two 32-bit operands. -/
  | orOp (o : IBin)
  /-- R183. Writes the bitwise OR of two 64-bit operands. -/
  | orOp64 (o : IBin)
  /-- R183. Writes the bitwise exclusive OR of two 32-bit operands. -/
  | xorOp (o : IBin)
  /-- R183. Writes the bitwise exclusive OR of two 64-bit operands. -/
  | xorOp64 (o : IBin)
  /-- R183. Writes a AND NOT b on 32-bit operands. -/
  | andn (o : IBin)
  /-- R183. Writes a AND NOT b on 64-bit operands. -/
  | andn64 (o : IBin)
  /-- R186. Writes the bitwise complement of a 32-bit operand. -/
  | notOp (o : IUn)
  /-- R186. Writes the bitwise complement of a 64-bit operand. -/
  | notOp64 (o : IUn)
  /-- R183. Shifts a 32-bit operand left by the amount modulo 32. -/
  | shl (o : IBin)
  /-- R183. Shifts a 64-bit operand left by the amount modulo 64. -/
  | shl64 (o : IBin)
  /-- R183. Shifts a 32-bit operand right, shifting in zeros. -/
  | shr (o : IBin)
  /-- R183. Shifts a 64-bit operand right, shifting in zeros. -/
  | shr64 (o : IBin)
  /-- R183. Shifts a 32-bit operand right, shifting in copies of the sign bit. -/
  | sar (o : IBin)
  /-- R183. Shifts a 64-bit operand right, shifting in copies of the sign bit. -/
  | sar64 (o : IBin)
  /-- R183. Rotates a 32-bit operand left. -/
  | rol (o : IBin)
  /-- R183. Rotates a 64-bit operand left. -/
  | rol64 (o : IBin)
  /-- R186. Counts the one bits of a 32-bit operand. -/
  | popc (o : IUn)
  /-- R186. Counts the one bits of a 64-bit operand into a 32-bit register. -/
  | popc64 (o : IUn)
  /-- R186. Counts the leading zero bits of a 32-bit operand. -/
  | clz (o : IUn)
  /-- R186. Counts the leading zero bits of a 64-bit operand. -/
  | clz64 (o : IUn)
  /-- R186. Counts the trailing zero bits of a 32-bit operand. -/
  | ctz (o : IUn)
  /-- R186. Counts the trailing zero bits of a 64-bit operand. -/
  | ctz64 (o : IUn)
  /-- R186. Reverses the bit order of a 32-bit operand. -/
  | brev (o : IUn)
  /-- R186. Reverses the bit order of a 64-bit operand. -/
  | brev64 (o : IUn)
  /-- R187. Extracts a bit field from a 32-bit operand, sign- or zero-extended. -/
  | bfx (o : IBf)
  /-- R187. Extracts a bit field from a 64-bit operand, sign- or zero-extended. -/
  | bfx64 (o : IBf)
  /-- R187. Inserts a bit field into a 32-bit destination. -/
  | bfi (o : IBf)
  /-- R187. Inserts a bit field into a 64-bit destination. -/
  | bfi64 (o : IBf)
  /-- R188. Selects one of two 32-bit sources by a per-lane predicate. -/
  | selOp (o : ISel)
  /-- R188. Selects one of two 64-bit sources by a per-lane predicate. -/
  | selOp64 (o : ISel)
  /-- R189. Compares two 32-bit integers and writes a per-lane predicate. -/
  | icmp (o : ICmp)
  /-- R189. Compares two 64-bit integers and writes a per-lane predicate. -/
  | icmp64 (o : ICmp)
  /-- R188. Copies a 32-bit source into the destination. -/
  | movOp (o : IUn)
  /-- R188. Copies a 64-bit source into the destination pair. -/
  | movOp64 (o : IUn)
  /-- R188. Writes a sign-extended 21-bit immediate or a literal into a 32-bit register. -/
  | movi (o : IMovi)
  /-- R188. Writes a sign-extended immediate or a 64-bit literal into a register pair. -/
  | movi64 (o : IMovi)
  /-- R191. Adds two FP32 values with one rounding to nearest even. -/
  | fadd (o : FBin)
  /-- R191. Subtracts two FP32 values with one rounding. -/
  | fsub (o : FBin)
  /-- R191. Multiplies two FP32 values with one rounding. -/
  | fmul (o : FBin)
  /-- R191. Computes a times b plus c in FP32 with a single rounding. -/
  | ffma (o : FTri)
  /-- R192. Returns the lesser FP32 operand, with NaN-avoiding semantics. -/
  | fmin (o : FBin)
  /-- R192. Returns the greater FP32 operand, with NaN-avoiding semantics. -/
  | fmax (o : FBin)
  /-- R193. Compares two FP32 values and writes a per-lane predicate. -/
  | fcmp (o : FCmp)
  /-- R194. Writes a one-hot mask that classifies an FP32 value. -/
  | fclass (o : FUn)
  /-- R195. Rounds an FP32 value to an integer toward minus infinity. -/
  | ffloor (o : FUn)
  /-- R195. Rounds an FP32 value to an integer toward plus infinity. -/
  | fceil (o : FUn)
  /-- R195. Rounds an FP32 value to an integer toward zero. -/
  | ftrunc (o : FUn)
  /-- R195. Rounds an FP32 value to the nearest integer, ties to even. -/
  | frint (o : FUn)
  /-- R196. Multiplies an FP32 value by two to a clamped integer power, rounding once. -/
  | fscale (o : FBin)
  /-- R197. Writes the correctly rounded reciprocal. -/
  | frcp (o : FUn)
  /-- R197. Writes the correctly rounded reciprocal square root. -/
  | frsq (o : FUn)
  /-- R197. Writes the correctly rounded square root. -/
  | fsqrt (o : FUn)
  /-- R197. Writes the correctly rounded power of two. -/
  | fex2 (o : FUn)
  /-- R197. Writes the correctly rounded base-2 logarithm. -/
  | flg2 (o : FUn)
  /-- R197. Writes the correctly rounded sine of an argument in radians. -/
  | fsin (o : FUn)
  /-- R197. Writes the correctly rounded cosine of an argument in radians. -/
  | fcos (o : FUn)
  /-- R197. Writes the correctly rounded hyperbolic tangent. -/
  | ftanh (o : FUn)
  /-- R198. Adds two packed BF16 or FP16 pairs element-wise. -/
  | hadd2 (o : HBin)
  /-- R198. Multiplies two packed BF16 or FP16 pairs element-wise. -/
  | hmul2 (o : HBin)
  /-- R198. Computes a packed fused multiply-add on BF16 or FP16 pairs. -/
  | hfma2 (o : HTri)
  /-- R201. Converts between FP32, BF16, FP16 and integer formats under a rounding mode. -/
  | cvt (o : CvtOp)
  /-- R202. Scales an FP32 value and quantises it to E4M3 at a packed element position. -/
  | qntE4m3 (o : QntOp)
  /-- R202. Scales an FP32 value and quantises it to E5M2 at a packed element position. -/
  | qntE5m2 (o : QntOp)
  /-- R202. Scales an FP32 value and quantises it to E2M1 under round to nearest even. -/
  | qntE2m1 (o : QntOp)
  /-- R202. Scales an FP32 value and quantises it to INT8. -/
  | qntI8 (o : QntOp)
  /-- R202. Scales an FP32 value and quantises it to a ternary code. -/
  | qntT2 (o : QntOp)
  /-- R203. Widens a packed low-precision element, scales it and rounds to FP32. -/
  | dqnt (o : DqntOp)
  /-- R204. Issues a matrix-class command that folds a tile scaled by a uniform scale into a destination tile. -/
  | sacc (o : SaccOp)
  /-- R204. Issues a matrix-class command that folds a tile scaled by row and column vectors into a destination tile. -/
  | saccV (o : SaccVOp)
  /-- R207. Reads a value from another convoy position within a lane group. -/
  | shfl (o : ShflOp)
  /-- R208. Writes a mask of active octet positions whose predicate is 1. -/
  | ballot (o : BallotOp)
  /-- R209. Tests the count of active lanes with a predicate set and writes a uniform predicate. -/
  | vote (o : VoteOp)
  /-- R210. Writes one position's value into a uniform register. -/
  | bcast (o : BcastOp)
  /-- R212. Reduces each group of 64 positions by a fixed tree and writes the result to its active lanes. -/
  | red (o : RedOp)
  /-- R212. Computes fixed-order prefix results over each group of 64 positions. -/
  | scan (o : RedOp)
  /-- R213. Stores the active lanes' values contiguously in position order and writes the count. -/
  | cmpst (o : CmpstOp)
  /-- R214. Loads contiguous words into the active lanes in position order. -/
  | expld (o : ExpldOp)
  /-- R219. Loads bytes from scratchpad, a tile or the fibre's window into registers. -/
  | ld (o : LdOp)
  /-- R220. Stores register bytes to scratchpad, a tile or the fibre's window, clearing tags. -/
  | st (o : StOp)
  /-- R221. Loads a 16-byte granule with its tag into a capability register. -/
  | ldk (o : LdkOp)
  /-- R222. Stores a capability register with its tag into a scratchpad granule. -/
  | stk (o : StkOp)
  /-- R224. Atomically adds to a scratchpad word per lane and returns the old value. -/
  | aadd (o : AtomOp)
  /-- R224. Atomically takes the minimum at a scratchpad word per lane. -/
  | amin (o : AtomOp)
  /-- R224. Atomically takes the maximum at a scratchpad word per lane. -/
  | amax (o : AtomOp)
  /-- R224. Atomically ANDs into a scratchpad word per lane. -/
  | aand (o : AtomOp)
  /-- R224. Atomically ORs into a scratchpad word per lane. -/
  | aor (o : AtomOp)
  /-- R224. Atomically exclusive-ORs into a scratchpad word per lane. -/
  | axor (o : AtomOp)
  /-- R224. Atomically exchanges a scratchpad word per lane. -/
  | axch (o : AtomOp)
  /-- R224. Atomically compares and swaps a scratchpad word per lane. -/
  | acas (o : AtomOp)
  /-- R227. Performs the release and acquire of a fence at a scope for each active fibre. -/
  | fenceOp (o : FenceOp)
  /-- R230. Derives a narrower canonical capability from a source capability. -/
  | csub (o : CsubOp)
  /-- R231. Derives a capability with permissions masked. -/
  | cperm (o : CapVOp)
  /-- R232. Seals a capability with a program-defined object type. -/
  | cseal (o : CsealOp)
  /-- R232. Unseals a capability sealed with a program-defined object type. -/
  | cunseal (o : CunsealOp)
  /-- R233. Seals an exportable capability as a bale for a peer package. -/
  | cbale (o : CapVOp)
  /-- R234. Writes whether a capability is tagged, or live for the world. -/
  | ctest (o : CtestOp)
  /-- R235. Writes one field of a capability to a register. -/
  | cget (o : CgetOp)
  /-- R236. Writes an untagged all-zero capability. -/
  | cnull (o : CnullOp)
  /-- R237. Writes a command block and returns a sealed CMD capability for it. -/
  | cdeleg (o : CdelegOp)
  /-- R251. Issues a copy command moving bytes from a source to a destination capability. -/
  | cpy (o : CpyOp)
  /-- R248. Issues a local or remote command capability to the engines. -/
  | cpyCmd (o : CpyCmdOp)
  /-- R255. Issues a gather command moving one indexed element per active lane. -/
  | gat (o : GsOp)
  /-- R255. Issues a scatter command moving one element per active lane to an indexed place. -/
  | sct (o : GsOp)
  /-- R258. Issues an E4M3 matrix product from scratchpad into a tile. -/
  | mmaE4m3 (o : MmaOp)
  /-- R258. Issues an E5M2 matrix product from scratchpad into a tile. -/
  | mmaE5m2 (o : MmaOp)
  /-- R258. Issues an E2M1 matrix product from scratchpad into a tile. -/
  | mmaE2m1 (o : MmaOp)
  /-- R258. Issues a BF16 or FP16 matrix product from scratchpad into a tile. -/
  | mmaBf16 (o : MmaOp)
  /-- R258. Issues an INT8 matrix product from scratchpad into an INT32 tile. -/
  | mmaI8 (o : MmaOp)
  /-- R258. Issues a ternary-by-INT8 product on the sign-select array into an INT32 tile. -/
  | mmaT8 (o : MmaOp)
  /-- R258. Issues a chained E4M3 matrix product with A from a tile through the down-converter. -/
  | mmacE4m3 (o : MmacOp)
  /-- R258. Issues a chained E5M2 matrix product with A from a tile. -/
  | mmacE5m2 (o : MmacOp)
  /-- R258. Issues a chained E2M1 matrix product with A from a tile. -/
  | mmacE2m1 (o : MmacOp)
  /-- R258. Issues a chained BF16 or FP16 matrix product with A from a tile. -/
  | mmacBf16 (o : MmacOp)
  /-- R258. Issues a chained INT8 matrix product with A from a tile. -/
  | mmacI8 (o : MmacOp)
  /-- R258. Issues a chained ternary-by-INT8 product with A from a tile. -/
  | mmacT8 (o : MmacOp)
  /-- R260. Issues a matrix-class command that clears a tile. -/
  | aclr (o : AclrOp)
  /-- R260. Issues a matrix-class command that loads a tile from scratchpad. -/
  | ald (o : AldOp)
  /-- R260. Issues a matrix-class command that stores a tile to scratchpad, optionally converted. -/
  | ast (o : AstOp)
  /-- R261. Contributes to a collective slot phase and receives the combined result. -/
  | clx (o : ClxOp)
  /-- R262. Issues a near-memory command that updates an HBM range in place on the base dies. -/
  | nmc (o : NmcOp)
  /-- R263. Issues one engine atomic per active lane and returns old values. -/
  | gatm (o : GatmOp)
  /-- R264. Issues a signal write or atomic add, optionally as a release. -/
  | sig (o : SigOp)
  /-- R265. Holds the convoy until a word meets a condition or a timeout, optionally acquiring. -/
  | wsig (o : WsigOp)
  /-- R266. Holds the convoy until an engine counter is at most a threshold. -/
  | waitc (o : WaitcOp)
  /-- R267. Enters a range into the revocation set and returns its pass number. -/
  | revoke (o : RevokeOp)
  /-- R252. Carries out one region-list entry, or writes it back with .back. -/
  | stage (o : StageOp)
  /-- R253. Writes back, and optionally invalidates, dirty MSC lines of a range. -/
  | wb (o : WbOp)
  /-- R269. Transfers the whole convoy to a target, optionally on a uniform predicate. -/
  | bra (o : BraOp)
  /-- R269. Sends active lanes to the target and others to fall-through, splitting by slice. -/
  | brc (o : BrOp)
  /-- R269. Branches each lane to a CODE capability plus offset. -/
  | brx (o : BrxOp)
  /-- R269. Branches guarded lanes to a target and pushes their return addresses. -/
  | callOp (o : BrOp)
  /-- R269. Calls through a per-lane or uniform CODE capability. -/
  | calli (o : BrxOp)
  /-- R269. Pops each active lane's return stack and branches to the popped address. -/
  | ret (c : Ctl)
  /-- R270. Writes the fibre's region entry count to a register. -/
  | regionOp (o : RegionOp)
  /-- R96. Stops the convoy for a pending yield request, otherwise has no effect. -/
  | yieldOp (c : Ctl)
  /-- R85. Places every fibre of the convoy in the serai of the next clause. -/
  | fuse (c : Ctl)
  /-- R271. Creates one fibre per active lane at a target with a new window. -/
  | spawn (o : SpawnOp)
  /-- R76. Ends the fibres of the active lanes and frees their windows. -/
  | endOp (c : Ctl)
  /-- R91. Arrives at a barrier of the given scope and waits for its completion. -/
  | bar (o : BarOp)
  /-- R101. Requests more window rows for each active fibre. -/
  | grow (o : GrowOp)
  /-- R101. Frees the top rows of each active fibre's window. -/
  | shrink (o : GrowOp)
  /-- R278. Pushes a four-slot waybill record into a queue with release. -/
  | launchOp (o : LaunchOp)
  /-- R277. Reserves queue slots, copies a record in and publishes it with a release. -/
  | qpush (o : QpushOp)
  /-- R278. Reserves and acquires the next queue record, copies it out and releases its slots. -/
  | qpop (o : QpopOp)
  /-- R278. Writes the number of free slots of a queue. -/
  | qslots (o : QslotsOp)
  /-- R163. Applies an element-wise or reduction operation over a loop nest of scratchpad elements. -/
  | lnest (o : LnestOp)
  /-- R159. Issues the next instruction a counted number of times with stepped register fields. -/
  | repOp (o : RepOp)
  /-- R270. Does nothing. -/
  | nopOp (c : Ctl)
  /-- R270. Raises the software trap with a code when some lane is active. -/
  | trapOp (o : TrapOp)
  /-- R282. Reads a system register into each active lane. -/
  | sysrd (o : SysrdOp)
  /-- R282. Writes a system register from the lowest active lane. -/
  | syswr (o : SyswrOp)
  /-- R164. A word with an unassigned opcode reaches issue and raises ILLEGAL 0x010. -/
  | unassignedOpcodeIssue (w : DWord)
  /-- R146. A convoy at a clause whose wait conditions and engine-block room now hold begins the clause. -/
  | clauseWaitMet (c : Nat)
  /-- R83. A serai whose occupied slices reach its size hint launches a convoy. -/
  | seraiLaunchFull (k : SeraiKey)
  /-- R83. A serai launches a convoy when T core cycles have passed since its oldest arrival. -/
  | seraiTimer (k : SeraiKey)
  /-- R83. A serai launches when no convoy of the workgroup on the SP can run. -/
  | seraiLaunchDrained (k : SeraiKey)
  /-- R83. The oldest serai launches and closes to make room for a 65th. -/
  | seraiLaunchCapacity (spn : Nat)
  /-- R304. A convoy ready without issuing for 1,024 core cycles becomes aged. -/
  | convoyAged (c : Nat)
  /-- R78. An issue held because a counter would exceed 63 proceeds after a completion. -/
  | issueCounterRoom (c : Nat)
  /-- R108. A local access held by an overlapping scoreboard entry is performed once the entry is released. -/
  | localAccessResume (c : Nat)
  /-- R249. The engine block accepts a waiting command into a free slot and scoreboard entries. -/
  | engineAccept (c : Nat)
  /-- R243. An engine begins a command after its ORDERED and scoreboard holds end, checking every capability. -/
  | commandBegin (k : Nat)
  /-- R247. A command waiting on a block in progress takes it once STATUS leaves 0x0001. -/
  | blockTakeRetry (k : Nat)
  /-- R128. A copy command completes when all its accesses are performed and decrements ecp. -/
  | copyComplete (k : Nat) (fails : List LineFail)
  /-- R128. A gather or scatter command completes and decrements egs. -/
  | gatherScatterComplete (k : Nat) (fails : List LineFail)
  /-- R258. A matrix-class command writes DONE and completes, decrementing emx. -/
  | matrixComplete (k : Nat)
  /-- R261. A collective contribution completes and the phase flips when all destinations are written. -/
  | collectiveComplete (k : Nat)
  /-- R137. A near-memory command completes when its lines are in HBM and out of the MSC. -/
  | nearMemoryComplete (k : Nat) (fails : List LineFail)
  /-- R128. An atomic or signal command completes once performed and its value returned. -/
  | atomicSignalComplete (k : Nat)
  /-- R265. A waiting wsig rereads its word and ends the wait when the condition holds. -/
  | wsigReread (c : Nat)
  /-- R265. A wsig wait ends with q cleared after 2^(K+9) core cycles. -/
  | wsigTimeout (c : Nat)
  /-- R266. A convoy held in waitc continues once its counter meets the threshold. -/
  | waitcRelease (c : Nat)
  /-- R135. A fence's covered writes are performed and later accesses may proceed. -/
  | fenceDone (c : Nat)
  /-- R277. A blocking qpush waiting for room retries its reservation. -/
  | qpushRetry (c : Nat)
  /-- R278. A blocking qpop waiting for a record retries its reservation. -/
  | qpopRetry (c : Nat)
  /-- R306. The scheduler grants the oldest queued grow requests whose rows are free. -/
  | growGrant (core : Nat)
  /-- R307. When all convoys of a core wait for rows, the youngest workgroup is evicted. -/
  | growDeadlockEvict (core : Nat)
  /-- R414. A push waiting for a return frame for YDEADL cycles raises STACK. -/
  | returnFrameTimeout (c : Nat)
  /-- R386. After a REPLAY trap's wait, the convoy re-executes its region. -/
  | replayWaitExpiry (c : Nat)
  /-- R288. A home die's scheduler takes the head waybill of a bound queue. -/
  | waybillPop (die : Nat)
  /-- R294. A specialisation that finishes in budget is entered in both caches. -/
  | anvilSpecialiseDone (l : Nat) (die : Nat)
  /-- R294. Specialisation is abandoned at the end of its budget and a negative entry placed. -/
  | anvilBudgetExpiry (l : Nat) (die : Nat)
  /-- R297. The scheduler places a workgroup on SPs of a core when resources allow. -/
  | placement (l : Nat)
  /-- R106. Every region-list entry has completed and fibres may enter serais. -/
  | stagingComplete (w : Nat)
  /-- R76. A workgroup whose fibres ended and commands completed starts its write-back. -/
  | workgroupComplete (w : Nat)
  /-- R303. Write-back finishes and the launch completion word is written when all workgroups are done. -/
  | wbackComplete (w : Nat)
  /-- R302. A launch's deadline expires and unplaced workgroups take priority CEIL. -/
  | deadlineExpiry (l : Nat)
  /-- R298. The scheduler raises a yield request on a lower-priority workgroup of the world. -/
  | yieldRequest (l : Nat)
  /-- R309. At YDEADL, convoys not yet stopped are cut back. -/
  | yieldDeadlineExpiry (w : Nat)
  /-- R310. A workgroup's image is written to spawn memory and its SPs are released. -/
  | workgroupSaveDone (w : Nat)
  /-- R299. A removed workgroup's image is restored and its convoys resume. -/
  | workgroupRestore (w : Nat)
  /-- R312. A workgroup resident long enough on a hot core has target SPs claimed and is saved. -/
  | migrationStart (w : Nat)
  /-- R312. The scheduler retries a migration claim at least once every 2^21 cycles. -/
  | migrationRetry (w : Nat)
  /-- R312. Bank contents are moved, the image restored and fibres resume on the target. -/
  | migrationComplete (w : Nat)
  /-- R390. A logged write waiting YDEADL cycles on a full undo log raises LOGFULL. -/
  | logfullExpiry (c : Nat)
  /-- R393, R394. An uncorrectable error in an array row, bank or other item of a core rolls back the world's SPs there. -/
  | softError (spn : Nat) (e : ErrorMsg)
  /-- R394. A permanently failing core is replaced by the die's spare. -/
  | hardFailure (core : Nat)
  /-- R396. A failing pseudo-channel is copied to a spare of its stack. -/
  | pseudoChannelSpare (stack : Nat) (ch : Nat) (unreadable : List Nat)
  /-- R267. A pass begins its sweep 1,024 core cycles after its first entry. -/
  | sweepBeginTimer (n : Nat)
  /-- R69. A die's sweep engine finishes clearing the tags caught by a pass. -/
  | sweepEngineFinish (die : Nat) (n : Nat)
  /-- R70. A pass closes, SWEEPDONE advances and its entries leave the set. -/
  | passClose
  /-- R71. A peer's port receives a recall and opens a recall pass. -/
  | recallReceive (m : RecallMsg)
  /-- R372. The owner's port receives a recall acknowledgement released at .pod. -/
  | recallAckReceive (m : Arrival) (n : Nat)
  /-- R430. Every 2^24 cycles a pass stays open, a PASSOPEN record is written. -/
  | passOpenTimer (n : Nat)
  /-- R63. A Route port accepts or refuses an arriving bale by its colour-translation table. -/
  | baleReceive (m : BaleMsg)
  /-- R64. A port receives a forwarded remote command, translates its colour and runs the block. -/
  | remoteCommandReceive (m : RemoteCmdMsg)
  /-- R65. A port receives a forwarded remote data or queue access and checks it for the owner. -/
  | remoteAccessReceive (m : RemoteAccMsg)
  /-- R329. A peer's port invalidates translations for a departed colour and acknowledges. -/
  | departureNoticeReceive (port : Nat) (x : PeerStream) (seq : Nat)
  /-- R457. A flit failing its GCM tag is dropped and resent from the replay buffer. -/
  | flitTagFail (port : Nat) (colour : Nat)
  /-- R364. Two Route ports verify identities and agree a pair key. -/
  | linkTraining (port peer : Nat) (m : TrainMsg)
  /-- R458. A port whose retrain does not complete in 2^26 port cycles is down and its traffic rerouted. -/
  | retrainTimeout (port : Nat)
  /-- R459. With no port to a package up for 2^26 port cycles, the package becomes unreachable. -/
  | unreachableTimeout (peer : Nat)
  /-- R363. A changed Route mask takes effect for a colour once its old-port flits are acknowledged. -/
  | routemSwitch (peer : Nat) (colour : Nat)
  /-- R117. A bank set idle for its level's count enters power-down. -/
  | bankSetIdleP1 (g : Nat)
  /-- R117. A bank set idle for its level's longer count enters retention. -/
  | bankSetIdleP2 (g : Nat)
  /-- R118. A waking bank set reaches P0 and waiting accesses proceed. -/
  | bankSetWakeDone (g : Nat)
  /-- R120. The MSC writes back a pool line dirty for 65,536 memory-controller cycles. -/
  | poolDirtyTimeout (line : Nat)
  /-- R356. A CXL port answers a back-invalidate snoop by writing back and invalidating the line. -/
  | backInvalidateSnoop (line : Nat)
  /-- R334. The activation-count period ends and throttles are lifted. -/
  | throttlePeriodEnd (die : Nat)
  /-- R324. A marked page is zero-filled under the writer's key, unmarked, and the held write performed. -/
  | pageZeroFillDone (page : Nat)
  /-- R324. The background scrub overwrites a marked page's stored bits with zeros. -/
  | scrubPage (page : Nat)
  /-- R140. The PCIe port performs a received host write at .pkg scope in arrival order. -/
  | hostWriteReceive (off : Nat) (bytes : List Byte)
  /-- R140. The PCIe port performs a host read after earlier host writes. -/
  | hostReadReceive (off : Nat) (n : Nat)
  /-- R353. A BAR2 access is checked and performed on behalf of the aperture's colour. -/
  | apertureAccess (m : ApMsg)
  /-- R338. A host read of a counter group is returned or withheld with DENIED counted and an event pushed. -/
  | counterRead (vd : Nat) (group : Nat) (n : Nat)
  /-- R351. A write to a register that has no row of its own updates its writable fields. -/
  | registerWrite (off : Nat) (val : DWord)
  /-- R355. A write of a binding's EN as 1 tags QCAP and CTAB when they pass the checks. -/
  | bindRequest (i : Nat)
  /-- R361. Starts an extent-cache invalidation and sets BUSY. -/
  | extinvWrite (val : DWord)
  /-- R361. BUSY clears once every access using a named entry is performed. -/
  | extinvDone
  /-- R113. A write to a VD's way-mask register governs later fills. -/
  | mscMaskWrite (num : Nat) (val : Word)
  /-- R113. Reclaims a VD's lines outside its masks in every slice. -/
  | mscreclWrite (val : Word)
  /-- R113. BUSY clears when every slice has finished the reclaim. -/
  | mscreclDone
  /-- R114. A monitor begins counting lines and hits of a VD in a slice. -/
  | mscMonitorEnable (m : Nat) (val : Word)
  /-- R119. Clearing ALLOC puts a bank set off; setting it wakes the set with its pages cleared. -/
  | pmapAllocWrite (g : Nat) (val : Word)
  /-- R347. Stops every convoy of an SP at its next clause boundary with a HALT trap. -/
  | dbgctlHalt (spn : Nat)
  /-- R347. Lets one convoy of a halted SP issue one instruction, then halts again. -/
  | dbgctlStep (spn : Nat)
  /-- R347. Lets a halted SP continue at its trap points. -/
  | dbgctlRun (spn : Nat)
  /-- R317. Creates a world, its key, capability table and measurement. -/
  | formReq (r : WReq)
  /-- R316. Gives unowned SPs to a world. -/
  | grantReq (r : WReq)
  /-- R320. Quenches named banks and fences them to an SP of the world. -/
  | fenceRequest (r : WReq)
  /-- R311. Ends a world's time on SPs by rollback, quenches and frees them. -/
  | releaseReq (r : WReq)
  /-- R326. Rolls back a world, completes its writes, writes the dirty-extent report and STOPPED. -/
  | stopReq (r : WReq)
  /-- R328. Stops a world, recalls remote capabilities and advances its generation. -/
  | resetReq (r : WReq)
  /-- R329. Stops a world, quenches it, erases its key and frees its colour. -/
  | departReq (r : WReq)
  /-- R331. Writes colour-translation and reservation entries of Route ports. -/
  | routeReq (r : WReq)
  /-- R340. Verifies a debug token and applies it to standard worlds. -/
  | unlockReq (r : WReq)
  /-- R316. Withdraws an accepted debug token. -/
  | relockReq (r : WReq)
  /-- R344. Writes a signed attestation report of a world. -/
  | attestReq (r : WReq)
  /-- R316. Writes a fresh nonce from the management controller. -/
  | nonceReq (r : WReq)
  /-- R347. Copies an SP's plaintext or sealed image into a host buffer. -/
  | imageReq (r : WReq)
  /-- R370. Sets the package to service or test mode. -/
  | modeReq (r : WReq)
  /-- R343. A protected world grants debug consent within a scope. -/
  | consentReq (r : WReq)
  /-- R343. A protected world ends its debug consent. -/
  | withdrawReq (r : WReq)
  /-- R366. Starts boot through its phases to open the host port in service mode. -/
  | coldReset (b : BootCfg)
  /-- R471. Firmware changes a die's core clock at a cycle boundary. -/
  | clockChange (die : Nat) (mhz : Nat)
  /-- R463. A die at its junction limit makes firmware stop every world and power down. -/
  | thermalStop (die : Nat)
  /-- R463. A world's thermal stop not finished within 2^24 cycles is cut off. -/
  | stopTimeout (colour : Nat)
  /-- R319. An SP with no ready convoy for 4,096 cycles is clock-gated. -/
  | spClockGate (spn : Nat)
  /-- R319. An SP without a resident workgroup for 2^20 cycles enters retention. -/
  | spRetention (spn : Nat)
  /-- R461. The host link goes down and host reads and writes fail as lost lines. -/
  | pcieLinkDown
  /-- R461. The host link returns and waiting queue pops proceed. -/
  | pcieLinkUp
  /-- R277. The acknowledgement of a forwarded qpush, qpop, qslots or launch on a remote queue arrives, and the waiting convoy takes its result. -/
  | forwardedQueueAckReceive (c : Nat) (a : QueueAckMsg)
  /-- R329. A peer's acknowledgement of a departure notice arrives at the owner's port, and DEPART may proceed. -/
  | departureNoticeAckReceive (x : PeerStream) (seq : Nat)
  /-- R431. A forwarded cancellation of a remote command reaches package q, whose engine stops at its next boundary and writes RESUME and STATUS 0x0004. -/
  | remoteCancelReceive (m : RemoteCmdMsg)
  /-- R431. q's acknowledgement of a cancellation arrives, and the local counter increment of the cancelled remote command is removed. -/
  | remoteCancelAckReceive (m : CancelAck)
  /-- R91. An arrival at a .pod barrier slot comes in over a Route port from another package and counts toward P. -/
  | podBarrierArrivalReceive (x : PeerStream) (seq : Nat) (join : Nat)
  /-- R301. A contribution to a .pod collective slot arrives over a Route port from another package and joins the phase. -/
  | podCollectiveContributionReceive (m : PodClxMsg)
  deriving DecidableEq, Repr

end Sys2Proof
end

