-- ==== Sys2Proof/WellFormed.lean ====
section
/-! DEFINITION. Well-formed instructions: the conditions on a word that its operand types do not already carry, each with the sub-cause
of R398 that the issue stage reports for it. The decoder reports the lowest; WellFormed asks that there be none. -/

namespace Sys2Proof

/-! ## Operands -/

/-- Sub-cause `n` when `bad` holds. -/
def viol (bad : Bool) (n : Nat) : List Nat := if bad then [n] else []

/-- The reserved guard code 0b1000 (R150). -/
def Ctl.viol (c : Ctl) : List Nat := Sys2Proof.viol (c.g.neg && c.g.p == 0) 0x013

/-- A convoy-wide instruction: any guard other than 0b0000 (R285, R398). -/
def Ctl.wide (c : Ctl) : List Nat := c.viol ++ Sys2Proof.viol (c.g.neg || c.g.p != 0) 0x01A

/-- A 64-bit destination: an odd register (R154). -/
def VDst.odd : VDst → Bool
  | .v n => n.getLsbD 0
  | .b _ => false

/-- A 64-bit source: an odd register (R154). -/
def VSrc.odd : VSrc → Bool
  | .v n => n.getLsbD 0
  | .s n => n.getLsbD 0
  | .b _ => false
  | .lit => false

def BSrc.odd : BSrc → Bool
  | .src x => x.odd
  | .imm _ => false

/-- Whether a field names the literal word (R153). -/
def VSrc.isLit : VSrc → Bool
  | .lit => true
  | .v _ => false
  | .b _ => false
  | .s _ => false

def SSrc.isLit : SSrc → Bool
  | .lit => true
  | .s _ => false

def BSrc.isLit : BSrc → Bool
  | .src x => x.isLit
  | .imm _ => false

/-- A source of a uniform form: an s register or the literal (R228). -/
def VSrc.uni : VSrc → Bool
  | .s _ => true
  | .lit => true
  | .v _ => false
  | .b _ => false

/-- The sub-cause of an odd pair (R398). -/
def oddPair (b : Bool) : List Nat := viol b 0x015

def AddrOp.isLit (a : AddrOp) : Bool := match a.off with
  | some x => x.isLit
  | none => false

def AddrOp.isSpad (a : AddrOp) : Bool := match a.space with
  | .k _ => true
  | .ks _ => true
  | .tile _ => false
  | .win => false

/-- A parameter group must start at a multiple of 8 (R242, R285). -/
def paramGroup (p : BitVec 6) : List Nat := viol (p.toNat % 8 != 0) 0x013

/-- A capability register of class KS (R151). -/
def ksClass (n : BitVec 6) : List Nat := viol (n.toNat ≥ 16) 0x014

/-! ## Shapes. `w` is the `.64` form. -/

def IBin.viol (o : IBin) (w sat u shift : Bool) : List Nat :=
  o.c.viol ++ Sys2Proof.viol ((o.sat && !sat) || (o.u && !u)) 0x013
    ++ oddPair (w && (o.d.odd || o.a.odd || (!shift && o.b.odd)))
def IBin.lits (o : IBin) : Bool := o.a.isLit || o.b.isLit

def IMad.viol (o : IMad) (w : Bool) : List Nat := o.c.viol ++ oddPair (w && (o.d.odd || o.a.odd || o.b.odd || o.e.odd))
def IMad.lits (o : IMad) : Bool := o.a.isLit || o.b.isLit || o.e.isLit

def IUn.viol (o : IUn) (w sat narrow : Bool) : List Nat :=
  o.c.viol ++ Sys2Proof.viol (o.sat && !sat) 0x013 ++ oddPair (w && ((!narrow && o.d.odd) || o.a.odd))
def IUn.lits (o : IUn) : Bool := o.a.isLit

def IBf.viol (o : IBf) (w u : Bool) : List Nat :=
  o.c.viol ++ Sys2Proof.viol (o.u && !u) 0x013 ++ oddPair (w && (o.d.odd || o.a.odd))
def IBf.lits (o : IBf) : Bool := o.a.isLit || o.pos.isLit || o.wid.isLit

def ISel.viol (o : ISel) (w : Bool) : List Nat := o.c.viol ++ oddPair (w && (o.d.odd || o.a.odd || o.b.odd))
def ISel.lits (o : ISel) : Bool := o.a.isLit || o.b.isLit

def ICmp.viol (o : ICmp) (w : Bool) : List Nat := o.c.viol ++ oddPair (w && (o.a.odd || o.b.odd))
def ICmp.lits (o : ICmp) : Bool := o.a.isLit || o.b.isLit

def IMovi.viol (o : IMovi) (w : Bool) : List Nat := o.c.viol ++ oddPair (w && o.d.odd)
/-- IMM21 = 0x10_0000 names the literal (R153). -/
def immLit (imm : BitVec 21) : Bool := imm == 0x100000
def IMovi.lits (o : IMovi) : Bool := immLit o.imm

def FBin.lits (o : FBin) : Bool := o.a.isLit || o.b.isLit
def FTri.lits (o : FTri) : Bool := o.a.isLit || o.b.isLit || o.e.isLit
def FCmp.lits (o : FCmp) : Bool := o.a.isLit || o.b.isLit
def FUn.lits (o : FUn) : Bool := o.a.isLit
def HBin.lits (o : HBin) : Bool := o.a.isLit || o.b.isLit
def HTri.lits (o : HTri) : Bool := o.a.isLit || o.b.isLit || o.e.isLit

/-- The pairs with a 16-bit side (R200). -/
def CvtPair.half : CvtPair → Bool
  | .bf16_f32 | .f16_f32 | .f32_bf16 | .f32_f16 => true
  | .f32_s32 | .f32_u32 | .f32_s64 | .s32_f32 | .u32_f32 | .s64_f32 => false

/-- The two widening pairs (R200). -/
def CvtPair.widens : CvtPair → Bool
  | .bf16_f32 | .f16_f32 => true
  | .f32_bf16 | .f32_f16 | .f32_s32 | .f32_u32 | .f32_s64 | .s32_f32 | .u32_f32 | .s64_f32 => false

def CvtOp.viol (o : CvtOp) : List Nat :=
  o.c.viol ++ Sys2Proof.viol ((o.hi && !o.pair.half) || (o.pair.widens && o.rm != .rn)) 0x013
    ++ oddPair ((o.pair == .f32_s64 && o.d.odd) || (o.pair == .s64_f32 && o.a.odd))
def CvtOp.lits (o : CvtOp) : Bool := o.a.isLit

/-- Elements of a format in one register (R202). -/
def QFmt.count : QFmt → Nat
  | .e4m3 | .e5m2 | .i8 => 4
  | .e2m1 => 8
  | .t2 => 16

def QntOp.viol (o : QntOp) (f : QFmt) : List Nat :=
  o.c.viol ++ Sys2Proof.viol (o.pos.toNat ≥ f.count || ((f == .e2m1 || f == .t2) && o.rm != .rn)) 0x013
def QntOp.lits (o : QntOp) : Bool := o.a.isLit || o.scale.isLit

def DqntOp.viol (o : DqntOp) : List Nat := o.c.viol ++ Sys2Proof.viol (o.pos.toNat ≥ o.fmt.count) 0x013
def DqntOp.lits (o : DqntOp) : Bool := o.a.isLit || o.scale.isLit

def SaccOp.lits (o : SaccOp) : Bool := o.scale.isLit
def SaccVOp.lits (o : SaccVOp) : Bool := o.o.isLit
def ShflOp.lits (o : ShflOp) : Bool := o.a.isLit || o.b.isLit
def VoteOp.lits (o : VoteOp) : Bool := match o.mode with
  | .quorum s => s.isLit
  | .none | .some | .every | .same | .most => false
def BcastOp.viol (o : BcastOp) : List Nat := o.c.viol ++ Sys2Proof.viol (o.first && o.pos != 0) 0x013
def BcastOp.lits (o : BcastOp) : Bool := o.a.isLit
def RedOp.viol (o : RedOp) (scan : Bool) : List Nat := o.c.viol ++ Sys2Proof.viol (o.excl && !scan) 0x013
def RedOp.lits (o : RedOp) : Bool := o.a.isLit
def CmpstOp.viol (o : CmpstOp) : List Nat := o.c.viol ++ Sys2Proof.viol (o.off.toNat % 4 != 0) 0x013
def CmpstOp.lits (o : CmpstOp) : Bool := o.a.isLit || o.so.isLit
def ExpldOp.viol (o : ExpldOp) : List Nat := o.c.viol ++ Sys2Proof.viol (o.off.toNat % 4 != 0) 0x013
def ExpldOp.lits (o : ExpldOp) : Bool := o.so.isLit

/-- A destination quad: a latch (R405), or a register not a multiple of 4 (R398). -/
def VDst.quadViol : VDst → List Nat
  | .v n => Sys2Proof.viol (n.toNat % 4 != 0) 0x015
  | .b _ => [0x017]

/-- A source quad (R220, R405). -/
def VSrc.quadViol : VSrc → List Nat
  | .v n => Sys2Proof.viol (n.toNat % 4 != 0) 0x015
  | .b _ => [0x017]
  | .s _ => [0x014]
  | .lit => [0x014]

def LdOp.viol (o : LdOp) : List Nat :=
  o.c.viol
    ++ Sys2Proof.viol ((o.sx && o.sz != .b8 && o.sz != .b16) || ((o.sz == .b8 || o.sz == .b16) && !o.addr.isSpad)) 0x013
    ++ oddPair (o.sz == .b64 && o.d.odd) ++ (if o.sz == .b128 then o.d.quadViol else [])
def LdOp.lits (o : LdOp) : Bool := o.addr.isLit

def StOp.viol (o : StOp) : List Nat :=
  o.c.viol ++ Sys2Proof.viol ((o.sz == .b8 || o.sz == .b16) && !o.addr.isSpad) 0x013
    ++ oddPair (o.sz == .b64 && o.a.odd) ++ (if o.sz == .b128 then o.a.quadViol else [])
def StOp.lits (o : StOp) : Bool := o.a.isLit || o.addr.isLit

/-- An offset that is the same in every lane (R221). -/
def AddrOp.uniform (a : AddrOp) : Bool :=
  (match a.space with
   | .ks _ => true
   | .k _ => false
   | .tile _ => false
   | .win => false) &&
  (match a.off with
   | some x => x.uni
   | none => true)

def LdkOp.viol (o : LdkOp) : List Nat :=
  o.c.viol ++ Sys2Proof.viol (!o.addr.isSpad || (o.ud && !o.addr.uniform)) 0x013 ++ (if o.ud then ksClass o.d else [])
def LdkOp.lits (o : LdkOp) : Bool := o.addr.isLit

def StkOp.viol (o : StkOp) : List Nat :=
  o.c.viol ++ Sys2Proof.viol (!o.addr.isSpad) 0x013 ++ (if o.us then ksClass o.a else [])
def StkOp.lits (o : StkOp) : Bool := o.addr.isLit

/-- The operand of a compare-and-swap: v registers only, a pair or a quad (R223). -/
def casViol (a : VSrc) (w64 : Bool) : List Nat := match a with
  | .v n => Sys2Proof.viol (n.toNat % (if w64 then 4 else 2) != 0) 0x015
  | .b _ => [0x014]
  | .s _ => [0x014]
  | .lit => [0x014]

def AtomOp.viol (o : AtomOp) (cas minmax : Bool) : List Nat :=
  o.c.viol ++ Sys2Proof.viol (!o.addr.isSpad || (o.u && !minmax)) 0x013
    ++ oddPair (o.w64 && (o.d.odd || (!cas && o.a.odd))) ++ (if cas then casViol o.a o.w64 else [])
def AtomOp.lits (o : AtomOp) : Bool := o.a.isLit || o.addr.isLit

/-- Registers and operands of the two forms of the capability instructions (R228). -/
def capForm (uf ua ub : Bool) (ks : List (BitVec 6)) (aKs bKs : List (BitVec 6)) (xs : List VSrc) : List Nat :=
  Sys2Proof.viol (uf && (ua || ub)) 0x013
    ++ Sys2Proof.viol ((uf && ks.any (fun n => decide (n.toNat ≥ 16))) || (ua && aKs.any (fun n => decide (n.toNat ≥ 16)))
        || (ub && bKs.any (fun n => decide (n.toNat ≥ 16))) || (uf && xs.any (fun x => !x.uni))) 0x014

def CsubOp.viol (o : CsubOp) : List Nat :=
  o.c.viol ++ capForm o.uf o.ua false [o.d, o.a] [o.a] [] [o.off, o.len] ++ oddPair (o.off.odd || o.len.odd)
def CsubOp.lits (o : CsubOp) : Bool := o.off.isLit || o.len.isLit
def CapVOp.viol (o : CapVOp) : List Nat := o.c.viol ++ capForm o.uf o.ua false [o.d, o.a] [o.a] [] [o.x]
def CapVOp.lits (o : CapVOp) : Bool := o.x.isLit
def CsealOp.viol (o : CsealOp) : List Nat := o.c.viol ++ capForm o.uf o.ua o.ub [o.d, o.a, o.s] [o.a] [o.s] [o.t]
def CsealOp.lits (o : CsealOp) : Bool := o.t.isLit
def CunsealOp.viol (o : CunsealOp) : List Nat := o.c.viol ++ capForm o.uf o.ua o.ub [o.d, o.a, o.s] [o.a] [o.s] []
def CtestOp.viol (o : CtestOp) : List Nat :=
  o.c.viol ++ capForm o.uf o.ua false [o.a] [o.a] [] [] ++ Sys2Proof.viol (o.uf && decide (o.d.toNat ≥ 4)) 0x014
/-- The 64-bit fields of cget (R235). -/
def CField.wide : CField → Bool
  | .base | .len | .top => true
  | .kind | .sealed | .otype | .colour | .gen | .perms | .e | .m | .tag => false
def CgetOp.viol (o : CgetOp) : List Nat := o.c.viol ++ (match o.d with
  | .lane d => capForm false o.ua false [] [o.a] [] [] ++ oddPair (o.field.wide && d.odd)
  | .uni s => capForm true o.ua false [o.a] [] [] [] ++ oddPair (o.field.wide && s.getLsbD 0))
def CnullOp.viol (o : CnullOp) : List Nat := o.c.viol ++ capForm o.uf false false [o.d] [] [] []
def CdelegOp.viol (o : CdelegOp) : List Nat :=
  o.c.viol ++ capForm o.uf o.ua false [o.d, o.kb, o.ksrc, o.kdst] [o.kb] [] []
    ++ Sys2Proof.viol (decide (o.xq.toNat > if o.uf then 14 else 62)) 0x013

def GsOp.viol (o : GsOp) : List Nat := o.c.viol ++ paramGroup o.p
def GsOp.lits (o : GsOp) : Bool := o.idx.isLit
def MmaOp.viol (o : MmaOp) (h : Bool) : List Nat := o.c.wide ++ paramGroup o.p ++ Sys2Proof.viol (o.f16 && !h) 0x013
def MmacOp.viol (o : MmacOp) (h : Bool) : List Nat :=
  o.c.wide ++ paramGroup o.p ++ Sys2Proof.viol ((o.f16 && !h) || o.ad == o.as) 0x013
def GatmOp.viol (o : GatmOp) : List Nat :=
  o.c.viol ++ Sys2Proof.viol (o.u && o.fn != .min && o.fn != .max) 0x013
    ++ oddPair (o.w64 && (o.d.odd || (o.fn != .cas && o.a.odd))) ++ (if o.fn == .cas then casViol o.a o.w64 else [])
def GatmOp.lits (o : GatmOp) : Bool := o.o.isLit || o.a.isLit
def SigOp.lits (o : SigOp) : Bool := o.o.isLit || o.v.isLit
def WsigOp.lits (o : WsigOp) : Bool := o.o.isLit || o.v.isLit
def RevokeOp.lits (o : RevokeOp) : Bool := match o.sg with
  | some (_, x) => x.isLit
  | none => false
def StageOp.lits (o : StageOp) : Bool := o.i.isLit

def BrxOp.viol (o : BrxOp) : List Nat := o.c.viol ++ capForm o.uf false false [o.k] [] [] [o.o]
def BrxOp.lits (o : BrxOp) : Bool := o.o.isLit
def SpawnOp.lits (o : SpawnOp) : Bool := o.a.isLit || immLit o.imm
def BarOp.viol (o : BarOp) : List Nat := o.c.wide ++ Sys2Proof.viol (o.scope == .lane) 0x013
def GrowOp.viol (o : GrowOp) : List Nat := o.c.viol ++ Sys2Proof.viol (o.n == 0 || o.n.toNat % 8 != 0) 0x013

/-- Whether an lnest OP reads operand B (R279). -/
def LnFn.readsB : LnFn → Bool
  | .add | .sub | .mul | .min | .max | .mac => true
  | .copy | .accadd | .accmax | .accmin => false

/-- Elements of a loop nest (R163). -/
def LnestOp.count (o : LnestOp) : Nat := o.levels.foldl (fun n l => n * (l.ext.toNat + 1)) 1

def LnestOp.viol (o : LnestOp) : List Nat :=
  Sys2Proof.viol (o.levels.isEmpty || decide (o.levels.length > 5) || decide (o.count ≥ 2 ^ 32)
    || (!o.fn.readsB && (o.kb != 0 || o.ob != 0 || o.levels.any (fun l => l.sb != 0)))) 0x019

/-! ## Instructions -/

/-- The sub-causes (R398) that an instruction raises by its operands alone, whatever the state. Events and the word of an
unassigned opcode have none. -/
def Instr.violations : Instr → List Nat
  | .iadd o => o.viol false true true false
  | .iadd64 o => o.viol true true true false
  | .isub o => o.viol false true true false
  | .isub64 o => o.viol true true true false
  | .imul o => o.viol false true true false
  | .imul64 o => o.viol true true true false
  | .imulh o => o.viol false false true false
  | .imulh64 o => o.viol true false true false
  | .imad o => o.viol false
  | .imad64 o => o.viol true
  | .idiv o => o.viol false false true false
  | .idiv64 o => o.viol true false true false
  | .irem o => o.viol false false true false
  | .irem64 o => o.viol true false true false
  | .iabs o => o.viol false true false
  | .iabs64 o => o.viol true true false
  | .ineg o => o.viol false true false
  | .ineg64 o => o.viol true true false
  | .imin o => o.viol false false true false
  | .imin64 o => o.viol true false true false
  | .imax o => o.viol false false true false
  | .imax64 o => o.viol true false true false
  | .andOp o => o.viol false false false false
  | .andOp64 o => o.viol true false false false
  | .orOp o => o.viol false false false false
  | .orOp64 o => o.viol true false false false
  | .xorOp o => o.viol false false false false
  | .xorOp64 o => o.viol true false false false
  | .andn o => o.viol false false false false
  | .andn64 o => o.viol true false false false
  | .notOp o => o.viol false false false
  | .notOp64 o => o.viol true false false
  | .shl o => o.viol false false false true
  | .shl64 o => o.viol true false false true
  | .shr o => o.viol false false false true
  | .shr64 o => o.viol true false false true
  | .sar o => o.viol false false false true
  | .sar64 o => o.viol true false false true
  | .rol o => o.viol false false false true
  | .rol64 o => o.viol true false false true
  | .popc o => o.viol false false true
  | .popc64 o => o.viol true false true
  | .clz o => o.viol false false true
  | .clz64 o => o.viol true false true
  | .ctz o => o.viol false false true
  | .ctz64 o => o.viol true false true
  | .brev o => o.viol false false false
  | .brev64 o => o.viol true false false
  | .bfx o => o.viol false true
  | .bfx64 o => o.viol true true
  | .bfi o => o.viol false false
  | .bfi64 o => o.viol true false
  | .selOp o => o.viol false
  | .selOp64 o => o.viol true
  | .icmp o => o.viol false
  | .icmp64 o => o.viol true
  | .movOp o => o.viol false false false
  | .movOp64 o => o.viol true false false
  | .movi o => o.viol false
  | .movi64 o => o.viol true
  | .fadd o => o.c.viol
  | .fsub o => o.c.viol
  | .fmul o => o.c.viol
  | .ffma o => o.c.viol
  | .fmin o => o.c.viol
  | .fmax o => o.c.viol
  | .fcmp o => o.c.viol
  | .fclass o => o.c.viol
  | .ffloor o => o.c.viol
  | .fceil o => o.c.viol
  | .ftrunc o => o.c.viol
  | .frint o => o.c.viol
  | .fscale o => o.c.viol
  | .frcp o => o.c.viol
  | .frsq o => o.c.viol
  | .fsqrt o => o.c.viol
  | .fex2 o => o.c.viol
  | .flg2 o => o.c.viol
  | .fsin o => o.c.viol
  | .fcos o => o.c.viol
  | .ftanh o => o.c.viol
  | .hadd2 o => o.c.viol
  | .hmul2 o => o.c.viol
  | .hfma2 o => o.c.viol
  | .cvt o => o.viol
  | .qntE4m3 o => o.viol .e4m3
  | .qntE5m2 o => o.viol .e5m2
  | .qntE2m1 o => o.viol .e2m1
  | .qntI8 o => o.viol .i8
  | .qntT2 o => o.viol .t2
  | .dqnt o => o.viol
  | .sacc o => o.c.wide
  | .saccV o => o.c.wide
  | .shfl o => o.c.viol
  | .ballot o => o.c.viol
  | .vote o => o.c.viol
  | .bcast o => o.viol
  | .red o => o.viol false
  | .scan o => o.viol true
  | .cmpst o => o.viol
  | .expld o => o.viol
  | .ld o => o.viol
  | .st o => o.viol
  | .ldk o => o.viol
  | .stk o => o.viol
  | .aadd o => o.viol false false
  | .amin o => o.viol false true
  | .amax o => o.viol false true
  | .aand o => o.viol false false
  | .aor o => o.viol false false
  | .axor o => o.viol false false
  | .axch o => o.viol false false
  | .acas o => o.viol true false
  | .fenceOp o => o.c.viol
  | .csub o => o.viol
  | .cperm o => o.viol
  | .cseal o => o.viol
  | .cunseal o => o.viol
  | .cbale o => o.viol
  | .ctest o => o.viol
  | .cget o => o.viol
  | .cnull o => o.viol
  | .cdeleg o => o.viol
  | .cpy o => o.c.wide ++ paramGroup o.p
  | .cpyCmd o => o.c.wide
  | .gat o => o.viol
  | .sct o => o.viol
  | .mmaE4m3 o => o.viol false
  | .mmaE5m2 o => o.viol false
  | .mmaE2m1 o => o.viol false
  | .mmaBf16 o => o.viol true
  | .mmaI8 o => o.viol false
  | .mmaT8 o => o.viol false
  | .mmacE4m3 o => o.viol false
  | .mmacE5m2 o => o.viol false
  | .mmacE2m1 o => o.viol false
  | .mmacBf16 o => o.viol true
  | .mmacI8 o => o.viol false
  | .mmacT8 o => o.viol false
  | .aclr o => o.c.wide
  | .ald o => o.c.wide ++ paramGroup o.p
  | .ast o => o.c.wide ++ paramGroup o.p
  | .clx o => o.c.wide ++ paramGroup o.p
  | .nmc o => o.c.wide ++ paramGroup o.p
  | .gatm o => o.viol
  | .sig o => o.c.wide
  | .wsig o => o.c.wide
  | .waitc o => o.c.wide
  | .revoke o => o.c.wide
  | .stage o => o.c.wide
  | .wb o => o.c.wide ++ paramGroup o.p
  | .bra o => o.c.wide
  | .brc o => o.c.viol
  | .brx o => o.viol
  | .callOp o => o.c.viol
  | .calli o => o.viol
  | .ret c => c.viol
  | .regionOp o => o.c.viol
  | .yieldOp c => c.wide
  | .fuse c => c.wide
  | .spawn o => o.c.viol
  | .endOp c => c.viol
  | .bar o => o.viol
  | .grow o => o.viol
  | .shrink o => o.viol
  | .launchOp o => o.c.wide
  | .qpush o => o.c.wide
  | .qpop o => o.c.wide
  | .qslots o => o.c.wide
  | .lnest o => o.viol
  | .repOp _ => []
  | .nopOp c => c.viol
  | .trapOp o => o.c.viol
  | .sysrd o => o.c.viol
  | .syswr o => o.c.viol
  | .unassignedOpcodeIssue _ => []
  | .clauseWaitMet _ => []
  | .seraiLaunchFull _ => []
  | .seraiTimer _ => []
  | .seraiLaunchDrained _ => []
  | .seraiLaunchCapacity _ => []
  | .convoyAged _ => []
  | .issueCounterRoom _ => []
  | .localAccessResume _ => []
  | .engineAccept _ => []
  | .commandBegin _ => []
  | .blockTakeRetry _ => []
  | .copyComplete _ _ => []
  | .gatherScatterComplete _ _ => []
  | .matrixComplete _ => []
  | .collectiveComplete _ => []
  | .nearMemoryComplete _ _ => []
  | .atomicSignalComplete _ => []
  | .wsigReread _ => []
  | .wsigTimeout _ => []
  | .waitcRelease _ => []
  | .fenceDone _ => []
  | .qpushRetry _ => []
  | .qpopRetry _ => []
  | .growGrant _ => []
  | .growDeadlockEvict _ => []
  | .returnFrameTimeout _ => []
  | .replayWaitExpiry _ => []
  | .waybillPop _ => []
  | .anvilSpecialiseDone _ _ => []
  | .anvilBudgetExpiry _ _ => []
  | .placement _ => []
  | .stagingComplete _ => []
  | .workgroupComplete _ => []
  | .wbackComplete _ => []
  | .deadlineExpiry _ => []
  | .yieldRequest _ => []
  | .yieldDeadlineExpiry _ => []
  | .workgroupSaveDone _ => []
  | .workgroupRestore _ => []
  | .migrationStart _ => []
  | .migrationRetry _ => []
  | .migrationComplete _ => []
  | .logfullExpiry _ => []
  | .softError _ _ => []
  | .hardFailure _ => []
  | .pseudoChannelSpare _ _ _ => []
  | .sweepBeginTimer _ => []
  | .sweepEngineFinish _ _ => []
  | .passClose => []
  | .recallReceive _ => []
  | .recallAckReceive _ _ => []
  | .passOpenTimer _ => []
  | .baleReceive _ => []
  | .remoteCommandReceive _ => []
  | .remoteAccessReceive _ => []
  | .departureNoticeReceive _ _ _ => []
  | .flitTagFail _ _ => []
  | .linkTraining _ _ _ => []
  | .retrainTimeout _ => []
  | .unreachableTimeout _ => []
  | .routemSwitch _ _ => []
  | .bankSetIdleP1 _ => []
  | .bankSetIdleP2 _ => []
  | .bankSetWakeDone _ => []
  | .poolDirtyTimeout _ => []
  | .backInvalidateSnoop _ => []
  | .throttlePeriodEnd _ => []
  | .scrubPage _ => []
  | .pageZeroFillDone _ => []
  | .hostWriteReceive _ _ => []
  | .hostReadReceive _ _ => []
  | .apertureAccess _ => []
  | .counterRead _ _ _ => []
  | .registerWrite _ _ => []
  | .bindRequest _ => []
  | .extinvWrite _ => []
  | .extinvDone => []
  | .mscMaskWrite _ _ => []
  | .mscreclWrite _ => []
  | .mscreclDone => []
  | .mscMonitorEnable _ _ => []
  | .pmapAllocWrite _ _ => []
  | .dbgctlHalt _ => []
  | .dbgctlStep _ => []
  | .dbgctlRun _ => []
  | .formReq _ => []
  | .grantReq _ => []
  | .fenceRequest _ => []
  | .releaseReq _ => []
  | .stopReq _ => []
  | .resetReq _ => []
  | .departReq _ => []
  | .routeReq _ => []
  | .unlockReq _ => []
  | .relockReq _ => []
  | .attestReq _ => []
  | .nonceReq _ => []
  | .imageReq _ => []
  | .modeReq _ => []
  | .consentReq _ => []
  | .withdrawReq _ => []
  | .coldReset _ => []
  | .clockChange _ _ => []
  | .thermalStop _ => []
  | .stopTimeout _ => []
  | .spClockGate _ => []
  | .spRetention _ => []
  | .pcieLinkDown => []
  | .pcieLinkUp => []
  | .forwardedQueueAckReceive _ _ => []
  | .departureNoticeAckReceive _ _ => []
  | .remoteCancelReceive _ => []
  | .remoteCancelAckReceive _ => []
  | .podBarrierArrivalReceive _ _ _ => []
  | .podCollectiveContributionReceive _ => []

/-- Whether an instruction names its literal word (R153). -/
def Instr.usesLit : Instr → Bool
  | .iadd o => o.lits
  | .iadd64 o => o.lits
  | .isub o => o.lits
  | .isub64 o => o.lits
  | .imul o => o.lits
  | .imul64 o => o.lits
  | .imulh o => o.lits
  | .imulh64 o => o.lits
  | .imad o => o.lits
  | .imad64 o => o.lits
  | .idiv o => o.lits
  | .idiv64 o => o.lits
  | .irem o => o.lits
  | .irem64 o => o.lits
  | .iabs o => o.lits
  | .iabs64 o => o.lits
  | .ineg o => o.lits
  | .ineg64 o => o.lits
  | .imin o => o.lits
  | .imin64 o => o.lits
  | .imax o => o.lits
  | .imax64 o => o.lits
  | .andOp o => o.lits
  | .andOp64 o => o.lits
  | .orOp o => o.lits
  | .orOp64 o => o.lits
  | .xorOp o => o.lits
  | .xorOp64 o => o.lits
  | .andn o => o.lits
  | .andn64 o => o.lits
  | .notOp o => o.lits
  | .notOp64 o => o.lits
  | .shl o => o.lits
  | .shl64 o => o.lits
  | .shr o => o.lits
  | .shr64 o => o.lits
  | .sar o => o.lits
  | .sar64 o => o.lits
  | .rol o => o.lits
  | .rol64 o => o.lits
  | .popc o => o.lits
  | .popc64 o => o.lits
  | .clz o => o.lits
  | .clz64 o => o.lits
  | .ctz o => o.lits
  | .ctz64 o => o.lits
  | .brev o => o.lits
  | .brev64 o => o.lits
  | .bfx o => o.lits
  | .bfx64 o => o.lits
  | .bfi o => o.lits
  | .bfi64 o => o.lits
  | .selOp o => o.lits
  | .selOp64 o => o.lits
  | .icmp o => o.lits
  | .icmp64 o => o.lits
  | .movOp o => o.lits
  | .movOp64 o => o.lits
  | .movi o => o.lits
  | .movi64 o => o.lits
  | .fadd o => o.lits
  | .fsub o => o.lits
  | .fmul o => o.lits
  | .ffma o => o.lits
  | .fmin o => o.lits
  | .fmax o => o.lits
  | .fcmp o => o.lits
  | .fclass o => o.lits
  | .ffloor o => o.lits
  | .fceil o => o.lits
  | .ftrunc o => o.lits
  | .frint o => o.lits
  | .fscale o => o.lits
  | .frcp o => o.lits
  | .frsq o => o.lits
  | .fsqrt o => o.lits
  | .fex2 o => o.lits
  | .flg2 o => o.lits
  | .fsin o => o.lits
  | .fcos o => o.lits
  | .ftanh o => o.lits
  | .hadd2 o => o.lits
  | .hmul2 o => o.lits
  | .hfma2 o => o.lits
  | .cvt o => o.lits
  | .qntE4m3 o => o.lits
  | .qntE5m2 o => o.lits
  | .qntE2m1 o => o.lits
  | .qntI8 o => o.lits
  | .qntT2 o => o.lits
  | .dqnt o => o.lits
  | .sacc o => o.lits
  | .saccV o => o.lits
  | .shfl o => o.lits
  | .ballot _ => false
  | .vote o => o.lits
  | .bcast o => o.lits
  | .red o => o.lits
  | .scan o => o.lits
  | .cmpst o => o.lits
  | .expld o => o.lits
  | .ld o => o.lits
  | .st o => o.lits
  | .ldk o => o.lits
  | .stk o => o.lits
  | .aadd o => o.lits
  | .amin o => o.lits
  | .amax o => o.lits
  | .aand o => o.lits
  | .aor o => o.lits
  | .axor o => o.lits
  | .axch o => o.lits
  | .acas o => o.lits
  | .fenceOp _ => false
  | .csub o => o.lits
  | .cperm o => o.lits
  | .cseal o => o.lits
  | .cunseal _ => false
  | .cbale o => o.lits
  | .ctest _ => false
  | .cget _ => false
  | .cnull _ => false
  | .cdeleg _ => false
  | .cpy _ => false
  | .cpyCmd _ => false
  | .gat o => o.lits
  | .sct o => o.lits
  | .mmaE4m3 _ => false
  | .mmaE5m2 _ => false
  | .mmaE2m1 _ => false
  | .mmaBf16 _ => false
  | .mmaI8 _ => false
  | .mmaT8 _ => false
  | .mmacE4m3 _ => false
  | .mmacE5m2 _ => false
  | .mmacE2m1 _ => false
  | .mmacBf16 _ => false
  | .mmacI8 _ => false
  | .mmacT8 _ => false
  | .aclr _ => false
  | .ald _ => false
  | .ast _ => false
  | .clx _ => false
  | .nmc _ => false
  | .gatm o => o.lits
  | .sig o => o.lits
  | .wsig o => o.lits
  | .waitc _ => false
  | .revoke o => o.lits
  | .stage o => o.lits
  | .wb _ => false
  | .bra o => immLit o.imm
  | .brc o => immLit o.imm
  | .brx o => o.lits
  | .callOp o => immLit o.imm
  | .calli o => o.lits
  | .ret _ => false
  | .regionOp _ => false
  | .yieldOp _ => false
  | .fuse _ => false
  | .spawn o => o.lits
  | .endOp _ => false
  | .bar _ => false
  | .grow _ => false
  | .shrink _ => false
  | .launchOp o => o.so.isLit
  | .qpush o => o.so.isLit
  | .qpop o => o.so.isLit
  | .qslots _ => false
  | .lnest _ => false
  | .repOp _ => false
  | .nopOp _ => false
  | .trapOp _ => false
  | .sysrd _ => false
  | .syswr o => o.a.isLit
  | .unassignedOpcodeIssue _ => false
  | .clauseWaitMet _ => false
  | .seraiLaunchFull _ => false
  | .seraiTimer _ => false
  | .seraiLaunchDrained _ => false
  | .seraiLaunchCapacity _ => false
  | .convoyAged _ => false
  | .issueCounterRoom _ => false
  | .localAccessResume _ => false
  | .engineAccept _ => false
  | .commandBegin _ => false
  | .blockTakeRetry _ => false
  | .copyComplete _ _ => false
  | .gatherScatterComplete _ _ => false
  | .matrixComplete _ => false
  | .collectiveComplete _ => false
  | .nearMemoryComplete _ _ => false
  | .atomicSignalComplete _ => false
  | .wsigReread _ => false
  | .wsigTimeout _ => false
  | .waitcRelease _ => false
  | .fenceDone _ => false
  | .qpushRetry _ => false
  | .qpopRetry _ => false
  | .growGrant _ => false
  | .growDeadlockEvict _ => false
  | .returnFrameTimeout _ => false
  | .replayWaitExpiry _ => false
  | .waybillPop _ => false
  | .anvilSpecialiseDone _ _ => false
  | .anvilBudgetExpiry _ _ => false
  | .placement _ => false
  | .stagingComplete _ => false
  | .workgroupComplete _ => false
  | .wbackComplete _ => false
  | .deadlineExpiry _ => false
  | .yieldRequest _ => false
  | .yieldDeadlineExpiry _ => false
  | .workgroupSaveDone _ => false
  | .workgroupRestore _ => false
  | .migrationStart _ => false
  | .migrationRetry _ => false
  | .migrationComplete _ => false
  | .logfullExpiry _ => false
  | .softError _ _ => false
  | .hardFailure _ => false
  | .pseudoChannelSpare _ _ _ => false
  | .sweepBeginTimer _ => false
  | .sweepEngineFinish _ _ => false
  | .passClose => false
  | .recallReceive _ => false
  | .recallAckReceive _ _ => false
  | .passOpenTimer _ => false
  | .baleReceive _ => false
  | .remoteCommandReceive _ => false
  | .remoteAccessReceive _ => false
  | .departureNoticeReceive _ _ _ => false
  | .flitTagFail _ _ => false
  | .linkTraining _ _ _ => false
  | .retrainTimeout _ => false
  | .unreachableTimeout _ => false
  | .routemSwitch _ _ => false
  | .bankSetIdleP1 _ => false
  | .bankSetIdleP2 _ => false
  | .bankSetWakeDone _ => false
  | .poolDirtyTimeout _ => false
  | .backInvalidateSnoop _ => false
  | .throttlePeriodEnd _ => false
  | .scrubPage _ => false
  | .pageZeroFillDone _ => false
  | .hostWriteReceive _ _ => false
  | .hostReadReceive _ _ => false
  | .apertureAccess _ => false
  | .counterRead _ _ _ => false
  | .registerWrite _ _ => false
  | .bindRequest _ => false
  | .extinvWrite _ => false
  | .extinvDone => false
  | .mscMaskWrite _ _ => false
  | .mscreclWrite _ => false
  | .mscreclDone => false
  | .mscMonitorEnable _ _ => false
  | .pmapAllocWrite _ _ => false
  | .dbgctlHalt _ => false
  | .dbgctlStep _ => false
  | .dbgctlRun _ => false
  | .formReq _ => false
  | .grantReq _ => false
  | .fenceRequest _ => false
  | .releaseReq _ => false
  | .stopReq _ => false
  | .resetReq _ => false
  | .departReq _ => false
  | .routeReq _ => false
  | .unlockReq _ => false
  | .relockReq _ => false
  | .attestReq _ => false
  | .nonceReq _ => false
  | .imageReq _ => false
  | .modeReq _ => false
  | .consentReq _ => false
  | .withdrawReq _ => false
  | .coldReset _ => false
  | .clockChange _ _ => false
  | .thermalStop _ => false
  | .stopTimeout _ => false
  | .spClockGate _ => false
  | .spRetention _ => false
  | .pcieLinkDown => false
  | .pcieLinkUp => false
  | .forwardedQueueAckReceive _ _ => false
  | .departureNoticeAckReceive _ _ => false
  | .remoteCancelReceive _ => false
  | .remoteCancelAckReceive _ => false
  | .podBarrierArrivalReceive _ _ _ => false
  | .podCollectiveContributionReceive _ => false

/-- The control fields of an instruction word; lnest and rep have their own, events have none. -/
def Instr.ctl : Instr → Option Ctl
  | .iadd o => some o.c
  | .iadd64 o => some o.c
  | .isub o => some o.c
  | .isub64 o => some o.c
  | .imul o => some o.c
  | .imul64 o => some o.c
  | .imulh o => some o.c
  | .imulh64 o => some o.c
  | .imad o => some o.c
  | .imad64 o => some o.c
  | .idiv o => some o.c
  | .idiv64 o => some o.c
  | .irem o => some o.c
  | .irem64 o => some o.c
  | .iabs o => some o.c
  | .iabs64 o => some o.c
  | .ineg o => some o.c
  | .ineg64 o => some o.c
  | .imin o => some o.c
  | .imin64 o => some o.c
  | .imax o => some o.c
  | .imax64 o => some o.c
  | .andOp o => some o.c
  | .andOp64 o => some o.c
  | .orOp o => some o.c
  | .orOp64 o => some o.c
  | .xorOp o => some o.c
  | .xorOp64 o => some o.c
  | .andn o => some o.c
  | .andn64 o => some o.c
  | .notOp o => some o.c
  | .notOp64 o => some o.c
  | .shl o => some o.c
  | .shl64 o => some o.c
  | .shr o => some o.c
  | .shr64 o => some o.c
  | .sar o => some o.c
  | .sar64 o => some o.c
  | .rol o => some o.c
  | .rol64 o => some o.c
  | .popc o => some o.c
  | .popc64 o => some o.c
  | .clz o => some o.c
  | .clz64 o => some o.c
  | .ctz o => some o.c
  | .ctz64 o => some o.c
  | .brev o => some o.c
  | .brev64 o => some o.c
  | .bfx o => some o.c
  | .bfx64 o => some o.c
  | .bfi o => some o.c
  | .bfi64 o => some o.c
  | .selOp o => some o.c
  | .selOp64 o => some o.c
  | .icmp o => some o.c
  | .icmp64 o => some o.c
  | .movOp o => some o.c
  | .movOp64 o => some o.c
  | .movi o => some o.c
  | .movi64 o => some o.c
  | .fadd o => some o.c
  | .fsub o => some o.c
  | .fmul o => some o.c
  | .ffma o => some o.c
  | .fmin o => some o.c
  | .fmax o => some o.c
  | .fcmp o => some o.c
  | .fclass o => some o.c
  | .ffloor o => some o.c
  | .fceil o => some o.c
  | .ftrunc o => some o.c
  | .frint o => some o.c
  | .fscale o => some o.c
  | .frcp o => some o.c
  | .frsq o => some o.c
  | .fsqrt o => some o.c
  | .fex2 o => some o.c
  | .flg2 o => some o.c
  | .fsin o => some o.c
  | .fcos o => some o.c
  | .ftanh o => some o.c
  | .hadd2 o => some o.c
  | .hmul2 o => some o.c
  | .hfma2 o => some o.c
  | .cvt o => some o.c
  | .qntE4m3 o => some o.c
  | .qntE5m2 o => some o.c
  | .qntE2m1 o => some o.c
  | .qntI8 o => some o.c
  | .qntT2 o => some o.c
  | .dqnt o => some o.c
  | .sacc o => some o.c
  | .saccV o => some o.c
  | .shfl o => some o.c
  | .ballot o => some o.c
  | .vote o => some o.c
  | .bcast o => some o.c
  | .red o => some o.c
  | .scan o => some o.c
  | .cmpst o => some o.c
  | .expld o => some o.c
  | .ld o => some o.c
  | .st o => some o.c
  | .ldk o => some o.c
  | .stk o => some o.c
  | .aadd o => some o.c
  | .amin o => some o.c
  | .amax o => some o.c
  | .aand o => some o.c
  | .aor o => some o.c
  | .axor o => some o.c
  | .axch o => some o.c
  | .acas o => some o.c
  | .fenceOp o => some o.c
  | .csub o => some o.c
  | .cperm o => some o.c
  | .cseal o => some o.c
  | .cunseal o => some o.c
  | .cbale o => some o.c
  | .ctest o => some o.c
  | .cget o => some o.c
  | .cnull o => some o.c
  | .cdeleg o => some o.c
  | .cpy o => some o.c
  | .cpyCmd o => some o.c
  | .gat o => some o.c
  | .sct o => some o.c
  | .mmaE4m3 o => some o.c
  | .mmaE5m2 o => some o.c
  | .mmaE2m1 o => some o.c
  | .mmaBf16 o => some o.c
  | .mmaI8 o => some o.c
  | .mmaT8 o => some o.c
  | .mmacE4m3 o => some o.c
  | .mmacE5m2 o => some o.c
  | .mmacE2m1 o => some o.c
  | .mmacBf16 o => some o.c
  | .mmacI8 o => some o.c
  | .mmacT8 o => some o.c
  | .aclr o => some o.c
  | .ald o => some o.c
  | .ast o => some o.c
  | .clx o => some o.c
  | .nmc o => some o.c
  | .gatm o => some o.c
  | .sig o => some o.c
  | .wsig o => some o.c
  | .waitc o => some o.c
  | .revoke o => some o.c
  | .stage o => some o.c
  | .wb o => some o.c
  | .bra o => some o.c
  | .brc o => some o.c
  | .brx o => some o.c
  | .callOp o => some o.c
  | .calli o => some o.c
  | .ret c => some c
  | .regionOp o => some o.c
  | .yieldOp c => some c
  | .fuse c => some c
  | .spawn o => some o.c
  | .endOp c => some c
  | .bar o => some o.c
  | .grow o => some o.c
  | .shrink o => some o.c
  | .launchOp o => some o.c
  | .qpush o => some o.c
  | .qpop o => some o.c
  | .qslots o => some o.c
  | .lnest _ => none
  | .repOp _ => none
  | .nopOp c => some c
  | .trapOp o => some o.c
  | .sysrd o => some o.c
  | .syswr o => some o.c
  | .unassignedOpcodeIssue _ => none
  | .clauseWaitMet _ => none
  | .seraiLaunchFull _ => none
  | .seraiTimer _ => none
  | .seraiLaunchDrained _ => none
  | .seraiLaunchCapacity _ => none
  | .convoyAged _ => none
  | .issueCounterRoom _ => none
  | .localAccessResume _ => none
  | .engineAccept _ => none
  | .commandBegin _ => none
  | .blockTakeRetry _ => none
  | .copyComplete _ _ => none
  | .gatherScatterComplete _ _ => none
  | .matrixComplete _ => none
  | .collectiveComplete _ => none
  | .nearMemoryComplete _ _ => none
  | .atomicSignalComplete _ => none
  | .wsigReread _ => none
  | .wsigTimeout _ => none
  | .waitcRelease _ => none
  | .fenceDone _ => none
  | .qpushRetry _ => none
  | .qpopRetry _ => none
  | .growGrant _ => none
  | .growDeadlockEvict _ => none
  | .returnFrameTimeout _ => none
  | .replayWaitExpiry _ => none
  | .waybillPop _ => none
  | .anvilSpecialiseDone _ _ => none
  | .anvilBudgetExpiry _ _ => none
  | .placement _ => none
  | .stagingComplete _ => none
  | .workgroupComplete _ => none
  | .wbackComplete _ => none
  | .deadlineExpiry _ => none
  | .yieldRequest _ => none
  | .yieldDeadlineExpiry _ => none
  | .workgroupSaveDone _ => none
  | .workgroupRestore _ => none
  | .migrationStart _ => none
  | .migrationRetry _ => none
  | .migrationComplete _ => none
  | .logfullExpiry _ => none
  | .softError _ _ => none
  | .hardFailure _ => none
  | .pseudoChannelSpare _ _ _ => none
  | .sweepBeginTimer _ => none
  | .sweepEngineFinish _ _ => none
  | .passClose => none
  | .recallReceive _ => none
  | .recallAckReceive _ _ => none
  | .passOpenTimer _ => none
  | .baleReceive _ => none
  | .remoteCommandReceive _ => none
  | .remoteAccessReceive _ => none
  | .departureNoticeReceive _ _ _ => none
  | .flitTagFail _ _ => none
  | .linkTraining _ _ _ => none
  | .retrainTimeout _ => none
  | .unreachableTimeout _ => none
  | .routemSwitch _ _ => none
  | .bankSetIdleP1 _ => none
  | .bankSetIdleP2 _ => none
  | .bankSetWakeDone _ => none
  | .poolDirtyTimeout _ => none
  | .backInvalidateSnoop _ => none
  | .throttlePeriodEnd _ => none
  | .scrubPage _ => none
  | .pageZeroFillDone _ => none
  | .hostWriteReceive _ _ => none
  | .hostReadReceive _ _ => none
  | .apertureAccess _ => none
  | .counterRead _ _ _ => none
  | .registerWrite _ _ => none
  | .bindRequest _ => none
  | .extinvWrite _ => none
  | .extinvDone => none
  | .mscMaskWrite _ _ => none
  | .mscreclWrite _ => none
  | .mscreclDone => none
  | .mscMonitorEnable _ _ => none
  | .pmapAllocWrite _ _ => none
  | .dbgctlHalt _ => none
  | .dbgctlStep _ => none
  | .dbgctlRun _ => none
  | .formReq _ => none
  | .grantReq _ => none
  | .fenceRequest _ => none
  | .releaseReq _ => none
  | .stopReq _ => none
  | .resetReq _ => none
  | .departReq _ => none
  | .routeReq _ => none
  | .unlockReq _ => none
  | .relockReq _ => none
  | .attestReq _ => none
  | .nonceReq _ => none
  | .imageReq _ => none
  | .modeReq _ => none
  | .consentReq _ => none
  | .withdrawReq _ => none
  | .coldReset _ => none
  | .clockChange _ _ => none
  | .thermalStop _ => none
  | .stopTimeout _ => none
  | .spClockGate _ => none
  | .spRetention _ => none
  | .pcieLinkDown => none
  | .pcieLinkUp => none
  | .forwardedQueueAckReceive _ _ => none
  | .departureNoticeAckReceive _ _ => none
  | .remoteCancelReceive _ => none
  | .remoteCancelAckReceive _ => none
  | .podBarrierArrivalReceive _ _ _ => none
  | .podCollectiveContributionReceive _ => none

/-- A literal is held only where an operand names it. -/
def Instr.litOk (i : Instr) : Bool := match i.ctl with
  | some c => i.usesLit || c.lit == 0
  | none => true

/-- A well-formed instruction breaks no rule that the issue stage checks on its operands (R180, R239, R285, R398). -/
def WellFormed (i : Instr) : Prop := i.violations = [] ∧ i.litOk = true

/-- Whether an instruction is well formed, as a Bool. -/
def Instr.wellFormed (i : Instr) : Bool := i.violations.isEmpty && i.litOk

end Sys2Proof
end

