-- ==== Sys2Proof/Decode.lean ====
section
/-! DEFINITION. Instruction words to instructions and back (R143–R166, R181–R285): the fields of a word, a decoder for each shape
of instruction, the opcode map, the decoder of a word with the words that follow it, the encoder, and the checks of a clause
header (R398–R407). The decoder is total: it answers an instruction or the lowest sub-cause of R398. -/

namespace Sys2Proof

/-! ## Fields of a word (R149) -/

/-- The fields of a 64-bit instruction word, format T; format I reads IMM21 as cc ++ md. -/
structure Fields where
  opc : BitVec 10 := 0
  bt : BitVec 2 := 0
  gd : BitVec 4 := 0
  wbs : BitVec 1 := 0
  dst : BitVec 8 := 0
  a : BitVec 9 := 0
  b : BitVec 9 := 0
  cc : BitVec 9 := 0
  md : BitVec 12 := 0
  deriving DecidableEq, Repr

/-- What a field decoder answers: the sub-causes it met, and a value (a default where it met one). -/
structure Dec (α : Type) where
  bad : List Nat
  val : α
  deriving DecidableEq, Repr

/-- What the decoder of a word answers: an instruction and how many words it takes, or the lowest sub-cause of R398. -/
inductive Decoded where
  | ok (i : Instr) (words : Nat)
  | illegal (sub : Nat)
  deriving DecidableEq, Repr

/-- A clause header's fields (R144); mix holds the MIX bits in the order of Cls. -/
structure Header where
  count : BitVec 4
  mix : BitVec 6
  wacls : BitVec 3
  wathr : BitVec 6
  wbcls : BitVec 3
  wbthr : BitVec 6
  yp : Bool
  re : Bool
  te : Bool
  deriving DecidableEq, Repr

/-- A word split into its fields. -/
def Fields.ofWord (w : DWord) : Fields where
  opc := w.extractLsb' 54 10
  bt := w.extractLsb' 52 2
  gd := w.extractLsb' 48 4
  wbs := w.extractLsb' 47 1
  dst := w.extractLsb' 39 8
  a := w.extractLsb' 30 9
  b := w.extractLsb' 21 9
  cc := w.extractLsb' 12 9
  md := w.extractLsb' 0 12

/-- The word that holds the fields. -/
def Fields.toWord (f : Fields) : DWord :=
  f.opc ++ f.bt ++ f.gd ++ f.wbs ++ f.dst ++ f.a ++ f.b ++ f.cc ++ f.md

/-- IMM21 of format I (R149). -/
def Fields.imm (f : Fields) : BitVec 21 := f.cc ++ f.md

/-! ## Codes -/

/-- The value of a code in a table of codes; a code the table does not hold is reserved (0x013). -/
def ofCode {α : Type} (t : List (Nat × α)) (dflt : α) (n : Nat) : Dec α := match t.lookup n with
  | some x => ⟨[], x⟩
  | none => ⟨[0x013], dflt⟩

/-- The code of a value in a table of codes. -/
def toCode {α : Type} [DecidableEq α] : List (Nat × α) → α → Nat
  | [], _ => 0
  | (n, y) :: t, x => if x = y then n else toCode t x

def btCodes : List (Nat × BT) := [(0, .dyn), (1, .fold), (2, .ctl)]
def rmCodes : List (Nat × RM) := [(0, .rn), (1, .rz), (2, .ru), (3, .rd)]
def scopeCodes : List (Nat × Scope) :=
  [(0, .lane), (1, .convoy), (2, .core), (3, .quad), (4, .die), (5, .pkg), (6, .pod)]
def clsCodes : List (Nat × Option Cls) :=
  [(0, none), (1, some .ecp), (2, some .egs), (3, some .emx), (4, some .ecl), (5, some .enm), (6, some .eat)]
def iccCodes : List (Nat × ICC) := [(0, .eq), (1, .ne), (2, .lt), (3, .le), (4, .gt), (5, .ge)]
def fccCodes : List (Nat × FCC) :=
  [(0, .eq), (1, .ne), (2, .lt), (3, .le), (4, .gt), (5, .ge), (6, .un), (7, .ord)]
def qfmtCodes : List (Nat × QFmt) := [(0, .e4m3), (1, .e5m2), (2, .e2m1), (3, .i8), (4, .t2)]
def redCodes : List (Nat × RedFn) :=
  [(0, .fadd), (1, .iadd), (2, .fmin), (3, .fmax), (4, .smin), (5, .smax), (6, .umin), (7, .umax), (8, .and), (9, .or), (10, .xor)]
def shflCodes : List (Nat × ShflMode) := [(0, .at), (1, .rot), (2, .swap), (3, .rev)]
def partCodes : List (Nat × Part) := [(0, .whole), (1, .below), (2, .above)]
def szCodes : List (Nat × Sz) := [(0, .b8), (1, .b16), (2, .b32), (3, .b64), (4, .b128)]
def fieldCodes : List (Nat × CField) :=
  [(0, .kind), (1, .sealed), (2, .otype), (3, .colour), (4, .gen), (5, .perms), (6, .e), (7, .m), (8, .base), (9, .len),
   (10, .tag), (11, .top)]
def eszCodes : List (Nat × Esz) := [(0, .e4), (1, .e8), (2, .e16), (3, .e32), (4, .e64), (5, .e128)]
def astCodes : List (Nat × AstFmt) :=
  [(0, .f32), (1, .q .e4m3), (2, .q .e5m2), (3, .q .e2m1), (4, .q .i8), (5, .q .t2)]
def clxCodes : List (Nat × ClxFn) := [(0, .sum), (1, .max), (2, .min), (3, .bcast), (4, .allgather)]
def nmcCodes : List (Nat × NmcFn) := [(0, .fade), (1, .fadd), (2, .fmulc), (3, .iaddc), (4, .iadd), (5, .fill)]
def atomCodes : List (Nat × AtomFn) :=
  [(0, .add), (1, .min), (2, .max), (3, .and), (4, .or), (5, .xor), (6, .xch), (7, .cas)]
def wccCodes : List (Nat × WCC) := [(0, .eq), (1, .ne), (2, .ge), (3, .lt)]
def lnFnCodes : List (Nat × LnFn) :=
  [(0, .copy), (1, .add), (2, .sub), (3, .mul), (4, .min), (5, .max), (6, .mac), (0x10, .accadd), (0x11, .accmax), (0x12, .accmin)]
def lnTyCodes : List (Nat × LnTy) := [(0, .f32), (1, .i32), (2, .bf16), (3, .f16)]
/-- The ten valid pairs of cvt as FROM × 16 + TO (R200). -/
def cvtCodes : List (Nat × CvtPair) :=
  [(0x10, .bf16_f32), (0x20, .f16_f32), (0x01, .f32_bf16), (0x02, .f32_f16), (0x03, .f32_s32), (0x04, .f32_u32),
   (0x05, .f32_s64), (0x30, .s32_f32), (0x40, .u32_f32), (0x50, .s64_f32)]

/-! ## Operand fields (R151) -/

/-- An unused field (R155). -/
def zeroF {n : Nat} (x : BitVec n) : List Nat := viol (x != 0) 0x012
/-- MOD bits that the instruction reserves beside fields it uses, the bits of `mask` (0x013, R180, R285); a MOD that holds
no field of the instruction is an unused field, 0x012 (log entry 15). -/
def zeroM (f : Fields) (mask : BitVec 12) : List Nat := viol (f.md &&& mask != 0) 0x013
def bit (f : Fields) (n : Nat) : Bool := f.md.getLsbD n
def modF (f : Fields) (lo n : Nat) : Nat := (f.md.toNat >>> lo) % 2 ^ n

/-- A source field of class V. -/
def srcV (n : BitVec 9) : Dec VSrc :=
  if n.toNat < 0x100 then ⟨[], .v (n.setWidth 8)⟩
  else if n.toNat < 0x104 then ⟨[], .b (n.setWidth 2)⟩
  else if 0x140 ≤ n.toNat ∧ n.toNat < 0x180 then ⟨[], .s (n.setWidth 6)⟩
  else if n = 0x1FF then ⟨[], .lit⟩
  else ⟨[0x014], .v 0⟩
def VSrc.enc : VSrc → BitVec 9
  | .v n => n.setWidth 9
  | .b n => 0x100 ||| n.setWidth 9
  | .s n => 0x140 ||| n.setWidth 9
  | .lit => 0x1FF

/-- A source field of class S. -/
def srcS (n : BitVec 9) : Dec SSrc :=
  if n.toNat < 0x40 then ⟨[], .s (n.setWidth 6)⟩ else if n = 0x1FF then ⟨[], .lit⟩ else ⟨[0x014], .s 0⟩
def SSrc.enc : SSrc → BitVec 9
  | .s n => n.setWidth 9
  | .lit => 0x1FF

/-- A source that is class V in the per-lane form and class S in the uniform form (R228). -/
def srcVS (uf : Bool) (n : BitVec 9) : Dec VSrc :=
  if uf then match srcS n with
    | ⟨e, .s k⟩ => ⟨e, .s k⟩
    | ⟨e, .lit⟩ => ⟨e, .lit⟩
  else srcV n
def VSrc.encVS (uf : Bool) : VSrc → BitVec 9
  | .v n => n.setWidth 9
  | .b n => 0x100 ||| n.setWidth 9
  | .s n => if uf then n.setWidth 9 else 0x140 ||| n.setWidth 9
  | .lit => 0x1FF

/-- A source field whose class holds the register numbers below 2^k. -/
def srcN (k : Nat) (n : BitVec 9) : Dec (BitVec k) := ⟨viol (decide (2 ^ k ≤ n.toNat)) 0x014, n.setWidth k⟩
/-- A destination field whose class holds the register numbers below 2^k. -/
def dstN (k : Nat) (f : Fields) : Dec (BitVec k) := ⟨viol (decide (2 ^ k ≤ f.dst.toNat)) 0x014, f.dst.setWidth k⟩
/-- A capability register field, class K, or class KS when `ks` (0–15): held in six bits either way. -/
def srcK (ks : Bool) (n : BitVec 9) : Dec (BitVec 6) :=
  if n.toNat < (if ks then 16 else 64) then ⟨[], n.setWidth 6⟩ else ⟨[0x014], 0⟩
def dstK (ks : Bool) (f : Fields) : Dec (BitVec 6) := srcK ks (f.dst.setWidth 9)

/-- A destination of class V, with WBS (R152). -/
def dstV (f : Fields) : Dec VDst :=
  if f.wbs = 0 then ⟨[], .v f.dst⟩
  else if f.dst.toNat < 4 then ⟨[], .b (f.dst.setWidth 2)⟩ else ⟨[0x017], .b 0⟩
def VDst.encD : VDst → BitVec 8
  | .v n => n
  | .b n => n.setWidth 8
def VDst.encW : VDst → BitVec 1
  | .v _ => 0
  | .b _ => 1
/-- No destination of class V: WBS is 0 (R152, R405). -/
def noWbs (f : Fields) : List Nat := viol (f.wbs != 0) 0x017

/-- Binding time, guard and the literal word. -/
def decCtl (f : Fields) (uses : Bool) (lit : DWord) : Dec Ctl :=
  let t := btCodes.lookup f.bt.toNat
  ⟨viol t.isNone 0x011, { bt := t.getD .dyn, g := ⟨f.gd.getLsbD 3, f.gd.setWidth 3⟩, lit := if uses then lit else 0 }⟩
def Ctl.encBt (c : Ctl) : BitVec 2 := BitVec.ofNat 2 (toCode btCodes c.bt)
def Ctl.encG (c : Ctl) : BitVec 4 := BitVec.ofBool c.g.neg ++ c.g.p

/-- The fields that every ordinary word has, with its opcode. -/
def Ctl.base (c : Ctl) (opc : Nat) : Fields := { opc := BitVec.ofNat 10 opc, bt := c.encBt, gd := c.encG }

/-! ## Shapes -/

/-- Operand B of the integer forms (R182): SI and IMM7, or SRCB. -/
def decBSrc (f : Fields) : Dec BSrc :=
  if bit f 11 then ⟨zeroF f.b, .imm (f.md.extractLsb' 4 7)⟩
  else let x := srcV f.b; ⟨x.bad ++ zeroM f 0x7F0, .src x.val⟩
def BSrc.encB : BSrc → BitVec 9
  | .src x => x.enc
  | .imm _ => 0
/-- SI and IMM7, bits 11:4 of MOD. -/
def BSrc.encM : BSrc → BitVec 8
  | .src _ => 0
  | .imm i => 1#1 ++ i

def decIBin (f : Fields) (lit : DWord) : Dec IBin :=
  let d := dstV f; let a := srcV f.a; let b := decBSrc f
  let c := decCtl f (a.val.isLit || b.val.isLit) lit
  ⟨c.bad ++ d.bad ++ a.bad ++ b.bad ++ zeroF f.cc ++ zeroM f 0x00C,
   { c := c.val, d := d.val, a := a.val, b := b.val, sat := bit f 1, u := bit f 0 }⟩
def IBin.enc (o : IBin) (opc : Nat) : Fields :=
  { o.c.base opc with wbs := o.d.encW, dst := o.d.encD, a := o.a.enc, b := o.b.encB,
                      md := o.b.encM ++ 0#2 ++ BitVec.ofBool o.sat ++ BitVec.ofBool o.u }

def decIMad (f : Fields) (lit : DWord) : Dec IMad :=
  let d := dstV f; let a := srcV f.a; let b := decBSrc f; let e := srcV f.cc
  let c := decCtl f (a.val.isLit || b.val.isLit || e.val.isLit) lit
  ⟨c.bad ++ d.bad ++ a.bad ++ b.bad ++ e.bad ++ zeroM f 0x00C,
   { c := c.val, d := d.val, a := a.val, b := b.val, e := e.val, sat := bit f 1, u := bit f 0 }⟩
def IMad.enc (o : IMad) (opc : Nat) : Fields :=
  { o.c.base opc with wbs := o.d.encW, dst := o.d.encD, a := o.a.enc, b := o.b.encB, cc := o.e.enc,
                      md := o.b.encM ++ 0#2 ++ BitVec.ofBool o.sat ++ BitVec.ofBool o.u }

def decIUn (f : Fields) (lit : DWord) : Dec IUn :=
  let d := dstV f; let a := srcV f.a
  let c := decCtl f a.val.isLit lit
  ⟨c.bad ++ d.bad ++ a.bad ++ zeroF f.b ++ zeroF f.cc ++ zeroM f 0xFFD, { c := c.val, d := d.val, a := a.val, sat := bit f 1 }⟩
def IUn.enc (o : IUn) (opc : Nat) : Fields :=
  { o.c.base opc with wbs := o.d.encW, dst := o.d.encD, a := o.a.enc, md := 0#10 ++ BitVec.ofBool o.sat ++ 0#1 }

def decIBf (f : Fields) (lit : DWord) : Dec IBf :=
  let d := dstV f; let a := srcV f.a; let p := srcV f.b; let w := srcV f.cc
  let c := decCtl f (a.val.isLit || p.val.isLit || w.val.isLit) lit
  ⟨c.bad ++ d.bad ++ a.bad ++ p.bad ++ w.bad ++ zeroM f 0xFFE,
   { c := c.val, d := d.val, a := a.val, pos := p.val, wid := w.val, u := bit f 0 }⟩
def IBf.enc (o : IBf) (opc : Nat) : Fields :=
  { o.c.base opc with wbs := o.d.encW, dst := o.d.encD, a := o.a.enc, b := o.pos.enc, cc := o.wid.enc,
                      md := 0#11 ++ BitVec.ofBool o.u }

def decISel (f : Fields) (lit : DWord) : Dec ISel :=
  let d := dstV f; let a := srcV f.a; let b := srcV f.b; let p := srcN 3 f.cc
  let c := decCtl f (a.val.isLit || b.val.isLit) lit
  ⟨c.bad ++ d.bad ++ a.bad ++ b.bad ++ p.bad ++ zeroM f 0xFFF, { c := c.val, d := d.val, a := a.val, b := b.val, p := p.val }⟩
def ISel.enc (o : ISel) (opc : Nat) : Fields :=
  { o.c.base opc with wbs := o.d.encW, dst := o.d.encD, a := o.a.enc, b := o.b.enc, cc := o.p.setWidth 9 }

def decICmp (f : Fields) (lit : DWord) : Dec ICmp :=
  let p := dstN 3 f; let a := srcV f.a; let b := decBSrc f; let r := ofCode iccCodes .eq (modF f 1 3)
  let c := decCtl f (a.val.isLit || b.val.isLit) lit
  ⟨c.bad ++ noWbs f ++ p.bad ++ a.bad ++ b.bad ++ r.bad ++ zeroF f.cc,
   { c := c.val, p := p.val, a := a.val, b := b.val, cc := r.val, u := bit f 0 }⟩
def ICmp.enc (o : ICmp) (opc : Nat) : Fields :=
  { o.c.base opc with dst := o.p.setWidth 8, a := o.a.enc, b := o.b.encB,
                      md := o.b.encM ++ BitVec.ofNat 3 (toCode iccCodes o.cc) ++ BitVec.ofBool o.u }

def decIMovi (f : Fields) (lit : DWord) : Dec IMovi :=
  let d := dstV f
  let c := decCtl f (immLit f.imm) lit
  ⟨c.bad ++ d.bad ++ zeroF f.a ++ zeroF f.b, { c := c.val, d := d.val, imm := f.imm }⟩
/-- The two parts of IMM21. -/
def immCc (i : BitVec 21) : BitVec 9 := i.extractLsb' 12 9
def immMd (i : BitVec 21) : BitVec 12 := i.extractLsb' 0 12
def IMovi.enc (o : IMovi) (opc : Nat) : Fields :=
  { o.c.base opc with wbs := o.d.encW, dst := o.d.encD, cc := immCc o.imm, md := immMd o.imm }

def decFBin (f : Fields) (lit : DWord) : Dec FBin :=
  let d := dstV f; let a := srcV f.a; let b := srcV f.b
  let c := decCtl f (a.val.isLit || b.val.isLit) lit
  ⟨c.bad ++ d.bad ++ a.bad ++ b.bad ++ zeroF f.cc ++ zeroF f.md, { c := c.val, d := d.val, a := a.val, b := b.val }⟩
def FBin.enc (o : FBin) (opc : Nat) : Fields :=
  { o.c.base opc with wbs := o.d.encW, dst := o.d.encD, a := o.a.enc, b := o.b.enc }

def decFTri (f : Fields) (lit : DWord) : Dec FTri :=
  let d := dstV f; let a := srcV f.a; let b := srcV f.b; let e := srcV f.cc
  let c := decCtl f (a.val.isLit || b.val.isLit || e.val.isLit) lit
  ⟨c.bad ++ d.bad ++ a.bad ++ b.bad ++ e.bad ++ zeroF f.md,
   { c := c.val, d := d.val, a := a.val, b := b.val, e := e.val }⟩
def FTri.enc (o : FTri) (opc : Nat) : Fields :=
  { o.c.base opc with wbs := o.d.encW, dst := o.d.encD, a := o.a.enc, b := o.b.enc, cc := o.e.enc }

def decFCmp (f : Fields) (lit : DWord) : Dec FCmp :=
  let p := dstN 3 f; let a := srcV f.a; let b := srcV f.b; let r := ofCode fccCodes .eq (modF f 0 3)
  let c := decCtl f (a.val.isLit || b.val.isLit) lit
  ⟨c.bad ++ noWbs f ++ p.bad ++ a.bad ++ b.bad ++ r.bad ++ zeroF f.cc ++ zeroM f 0xFF8,
   { c := c.val, p := p.val, a := a.val, b := b.val, cc := r.val }⟩
def FCmp.enc (o : FCmp) (opc : Nat) : Fields :=
  { o.c.base opc with dst := o.p.setWidth 8, a := o.a.enc, b := o.b.enc,
                      md := 0#9 ++ BitVec.ofNat 3 (toCode fccCodes o.cc) }

def decFUn (f : Fields) (lit : DWord) : Dec FUn :=
  let d := dstV f; let a := srcV f.a
  let c := decCtl f a.val.isLit lit
  ⟨c.bad ++ d.bad ++ a.bad ++ zeroF f.b ++ zeroF f.cc ++ zeroF f.md, { c := c.val, d := d.val, a := a.val }⟩
def FUn.enc (o : FUn) (opc : Nat) : Fields := { o.c.base opc with wbs := o.d.encW, dst := o.d.encD, a := o.a.enc }

def decHBin (f : Fields) (lit : DWord) : Dec HBin :=
  let d := dstV f; let a := srcV f.a; let b := srcV f.b
  let c := decCtl f (a.val.isLit || b.val.isLit) lit
  ⟨c.bad ++ d.bad ++ a.bad ++ b.bad ++ zeroF f.cc ++ zeroM f 0xFFE,
   { c := c.val, d := d.val, a := a.val, b := b.val, f16 := bit f 0 }⟩
def HBin.enc (o : HBin) (opc : Nat) : Fields :=
  { o.c.base opc with wbs := o.d.encW, dst := o.d.encD, a := o.a.enc, b := o.b.enc, md := 0#11 ++ BitVec.ofBool o.f16 }

def decHTri (f : Fields) (lit : DWord) : Dec HTri :=
  let d := dstV f; let a := srcV f.a; let b := srcV f.b; let e := srcV f.cc
  let c := decCtl f (a.val.isLit || b.val.isLit || e.val.isLit) lit
  ⟨c.bad ++ d.bad ++ a.bad ++ b.bad ++ e.bad ++ zeroM f 0xFFE,
   { c := c.val, d := d.val, a := a.val, b := b.val, e := e.val, f16 := bit f 0 }⟩
def HTri.enc (o : HTri) (opc : Nat) : Fields :=
  { o.c.base opc with wbs := o.d.encW, dst := o.d.encD, a := o.a.enc, b := o.b.enc, cc := o.e.enc,
                      md := 0#11 ++ BitVec.ofBool o.f16 }

def decCvt (f : Fields) (lit : DWord) : Dec CvtOp :=
  let d := dstV f; let a := srcV f.a; let p := ofCode cvtCodes .bf16_f32 (modF f 4 8); let r := ofCode rmCodes .rn (modF f 0 2)
  let c := decCtl f a.val.isLit lit
  ⟨c.bad ++ d.bad ++ a.bad ++ p.bad ++ r.bad ++ zeroF f.b ++ zeroF f.cc ++ zeroM f 0x008,
   { c := c.val, d := d.val, a := a.val, pair := p.val, hi := bit f 2, rm := r.val }⟩
def CvtOp.enc (o : CvtOp) (opc : Nat) : Fields :=
  { o.c.base opc with wbs := o.d.encW, dst := o.d.encD, a := o.a.enc,
                      md := BitVec.ofNat 8 (toCode cvtCodes o.pair) ++ 0#1 ++ BitVec.ofBool o.hi
                        ++ BitVec.ofNat 2 (toCode rmCodes o.rm) }

def decQnt (f : Fields) (lit : DWord) : Dec QntOp :=
  let d := dstV f; let a := srcV f.a; let b := srcV f.b; let r := ofCode rmCodes .rn (modF f 0 2)
  let c := decCtl f (a.val.isLit || b.val.isLit) lit
  ⟨c.bad ++ d.bad ++ a.bad ++ b.bad ++ r.bad ++ zeroF f.cc ++ zeroM f 0xFC0,
   { c := c.val, d := d.val, a := a.val, scale := b.val, pos := f.md.extractLsb' 2 4, rm := r.val }⟩
def QntOp.enc (o : QntOp) (opc : Nat) : Fields :=
  { o.c.base opc with wbs := o.d.encW, dst := o.d.encD, a := o.a.enc, b := o.scale.enc,
                      md := 0#6 ++ o.pos ++ BitVec.ofNat 2 (toCode rmCodes o.rm) }

def decDqnt (f : Fields) (lit : DWord) : Dec DqntOp :=
  let d := dstV f; let a := srcV f.a; let b := srcV f.b; let q := ofCode qfmtCodes .e4m3 (modF f 0 4)
  let c := decCtl f (a.val.isLit || b.val.isLit) lit
  ⟨c.bad ++ d.bad ++ a.bad ++ b.bad ++ q.bad ++ zeroF f.cc ++ zeroM f 0xF00,
   { c := c.val, d := d.val, a := a.val, scale := b.val, pos := f.md.extractLsb' 4 4, fmt := q.val }⟩
def DqntOp.enc (o : DqntOp) (opc : Nat) : Fields :=
  { o.c.base opc with wbs := o.d.encW, dst := o.d.encD, a := o.a.enc, b := o.scale.enc,
                      md := 0#4 ++ o.pos ++ BitVec.ofNat 4 (toCode qfmtCodes o.fmt) }

def decSacc (f : Fields) (lit : DWord) : Dec SaccOp :=
  let d := dstN 4 f; let p := srcN 4 f.a; let s := srcS f.b
  let c := decCtl f s.val.isLit lit
  ⟨c.bad ++ noWbs f ++ d.bad ++ p.bad ++ s.bad ++ zeroF f.cc ++ zeroM f 0xFFE,
   { c := c.val, ad := d.val, ap := p.val, scale := s.val, i32 := bit f 0 }⟩
def SaccOp.enc (o : SaccOp) (opc : Nat) : Fields :=
  { o.c.base opc with dst := o.ad.setWidth 8, a := o.ap.setWidth 9, b := o.scale.enc, md := 0#11 ++ BitVec.ofBool o.i32 }

def decSaccV (f : Fields) (lit : DWord) : Dec SaccVOp :=
  let d := dstN 4 f; let p := srcN 4 f.a; let k := srcN 4 f.b; let s := srcS f.cc
  let c := decCtl f s.val.isLit lit
  ⟨c.bad ++ noWbs f ++ d.bad ++ p.bad ++ k.bad ++ s.bad ++ zeroM f 0x00E,
   { c := c.val, ad := d.val, ap := p.val, ks := k.val, o := s.val, off := f.md.extractLsb' 4 8, i32 := bit f 0 }⟩
def SaccVOp.enc (o : SaccVOp) (opc : Nat) : Fields :=
  { o.c.base opc with dst := o.ad.setWidth 8, a := o.ap.setWidth 9, b := o.ks.setWidth 9, cc := o.o.enc,
                      md := o.off ++ 0#3 ++ BitVec.ofBool o.i32 }

def decShfl (f : Fields) (lit : DWord) : Dec ShflOp :=
  let d := dstV f; let a := srcV f.a; let b := srcV f.b; let m := ofCode shflCodes .at (modF f 0 2)
  let c := decCtl f (a.val.isLit || b.val.isLit) lit
  ⟨c.bad ++ d.bad ++ a.bad ++ b.bad ++ m.bad ++ zeroF f.cc ++ zeroM f 0xFE0,
   { c := c.val, d := d.val, a := a.val, b := b.val, mode := m.val, grp := f.md.extractLsb' 2 3 }⟩
def ShflOp.enc (o : ShflOp) (opc : Nat) : Fields :=
  { o.c.base opc with wbs := o.d.encW, dst := o.d.encD, a := o.a.enc, b := o.b.enc,
                      md := 0#7 ++ o.grp ++ BitVec.ofNat 2 (toCode shflCodes o.mode) }

def decBallot (f : Fields) (_ : DWord) : Dec BallotOp :=
  let d := dstV f; let p := srcN 3 f.a; let q := ofCode partCodes .whole (modF f 0 2)
  let c := decCtl f false 0
  ⟨c.bad ++ d.bad ++ p.bad ++ q.bad ++ zeroF f.b ++ zeroF f.cc ++ zeroM f 0xFFC,
   { c := c.val, d := d.val, p := p.val, part := q.val }⟩
def BallotOp.enc (o : BallotOp) (opc : Nat) : Fields :=
  { o.c.base opc with wbs := o.d.encW, dst := o.d.encD, a := o.p.setWidth 9,
                      md := 0#10 ++ BitVec.ofNat 2 (toCode partCodes o.part) }

/-- The mode of vote; quorum reads SRCB, the others leave it 0 (R209). -/
def decVoteMode (f : Fields) : Dec VoteMode := match modF f 0 3 with
  | 0 => ⟨zeroF f.b, .none⟩
  | 1 => ⟨zeroF f.b, .some⟩
  | 2 => ⟨zeroF f.b, .every⟩
  | 3 => ⟨zeroF f.b, .same⟩
  | 4 => ⟨zeroF f.b, .most⟩
  | 5 => let s := srcS f.b; ⟨s.bad, .quorum s.val⟩
  | _ => ⟨0x013 :: zeroF f.b, .none⟩
def VoteMode.encM : VoteMode → BitVec 3
  | .none => 0
  | .some => 1
  | .every => 2
  | .same => 3
  | .most => 4
  | .quorum _ => 5
def VoteMode.encB : VoteMode → BitVec 9
  | .none | .some | .every | .same | .most => 0
  | .quorum s => s.enc
def decVote (f : Fields) (lit : DWord) : Dec VoteOp :=
  let q := dstN 2 f; let p := srcN 3 f.a; let m := decVoteMode f
  let o : VoteOp := { c := {}, q := q.val, p := p.val, mode := m.val }
  let c := decCtl f o.lits lit
  ⟨c.bad ++ noWbs f ++ q.bad ++ p.bad ++ m.bad ++ zeroF f.cc ++ zeroM f 0xFF8, { o with c := c.val }⟩
def VoteOp.enc (o : VoteOp) (opc : Nat) : Fields :=
  { o.c.base opc with dst := o.q.setWidth 8, a := o.p.setWidth 9, b := o.mode.encB, md := 0#9 ++ o.mode.encM }

def decBcast (f : Fields) (lit : DWord) : Dec BcastOp :=
  let d := dstN 6 f; let a := srcV f.a
  let c := decCtl f a.val.isLit lit
  ⟨c.bad ++ noWbs f ++ d.bad ++ a.bad ++ zeroF f.b ++ zeroF f.cc ++ zeroM f 0xC00,
   { c := c.val, sd := d.val, a := a.val, first := bit f 9, pos := f.md.extractLsb' 0 9 }⟩
def BcastOp.enc (o : BcastOp) (opc : Nat) : Fields :=
  { o.c.base opc with dst := o.sd.setWidth 8, a := o.a.enc, md := 0#2 ++ BitVec.ofBool o.first ++ o.pos }

def decRed (f : Fields) (lit : DWord) : Dec RedOp :=
  let d := dstV f; let a := srcV f.a; let r := ofCode redCodes .fadd (modF f 0 4)
  let c := decCtl f a.val.isLit lit
  ⟨c.bad ++ d.bad ++ a.bad ++ r.bad ++ zeroF f.b ++ zeroF f.cc ++ zeroM f 0xFE0,
   { c := c.val, d := d.val, a := a.val, fn := r.val, excl := bit f 4 }⟩
def RedOp.enc (o : RedOp) (opc : Nat) : Fields :=
  { o.c.base opc with wbs := o.d.encW, dst := o.d.encD, a := o.a.enc,
                      md := 0#7 ++ BitVec.ofBool o.excl ++ BitVec.ofNat 4 (toCode redCodes o.fn) }

def decCmpst (f : Fields) (lit : DWord) : Dec CmpstOp :=
  let d := dstN 6 f; let a := srcV f.a; let k := srcN 4 f.b; let s := srcS f.cc
  let c := decCtl f (a.val.isLit || s.val.isLit) lit
  ⟨c.bad ++ noWbs f ++ d.bad ++ a.bad ++ k.bad ++ s.bad,
   { c := c.val, sd := d.val, a := a.val, ks := k.val, so := s.val, off := f.md }⟩
def CmpstOp.enc (o : CmpstOp) (opc : Nat) : Fields :=
  { o.c.base opc with dst := o.sd.setWidth 8, a := o.a.enc, b := o.ks.setWidth 9, cc := o.so.enc, md := o.off }

def decExpld (f : Fields) (lit : DWord) : Dec ExpldOp :=
  let d := dstV f; let k := srcN 4 f.b; let s := srcS f.cc
  let c := decCtl f s.val.isLit lit
  ⟨c.bad ++ d.bad ++ k.bad ++ s.bad ++ zeroF f.a, { c := c.val, d := d.val, ks := k.val, so := s.val, off := f.md }⟩
def ExpldOp.enc (o : ExpldOp) (opc : Nat) : Fields :=
  { o.c.base opc with wbs := o.d.encW, dst := o.d.encD, b := o.ks.setWidth 9, cc := o.so.enc, md := o.off }

/-- The base of an address operand (R216): SPACE, KU and SRCB. -/
def decSpace (f : Fields) : Dec Space := match modF f 8 2 with
  | 0 => if bit f 11 then let k := srcN 4 f.b; ⟨k.bad, .ks k.val⟩ else let k := srcN 6 f.b; ⟨k.bad, .k k.val⟩
  | 1 => let t := srcN 4 f.b; ⟨t.bad ++ zeroM f 0x800, .tile t.val⟩
  | 2 => ⟨zeroF f.b ++ zeroM f 0x800, .win⟩
  | _ => ⟨[0x013], .win⟩
def Space.encB : Space → BitVec 9
  | .k n => n.setWidth 9
  | .ks n => n.setWidth 9
  | .tile t => t.setWidth 9
  | .win => 0
/-- KU and SPACE. -/
def Space.encKu : Space → BitVec 1
  | .ks _ => 1
  | .k _ | .tile _ | .win => 0
def Space.encSp : Space → BitVec 2
  | .k _ | .ks _ => 0
  | .tile _ => 1
  | .win => 2
/-- An address operand (R216). -/
def decAddr (f : Fields) : Dec AddrOp :=
  let sp := decSpace f; let x := srcV f.cc
  if bit f 10 then ⟨sp.bad ++ zeroF f.cc, { space := sp.val, off := none, disp := f.md.extractLsb' 0 4 }⟩
  else ⟨sp.bad ++ x.bad, { space := sp.val, off := some x.val, disp := f.md.extractLsb' 0 4 }⟩
/-- MOD of an access with its SZ and X4. -/
def AddrOp.encM (a : AddrOp) (sz : Sz) (x4 : Bool) : BitVec 12 :=
  a.space.encKu ++ BitVec.ofBool a.off.isNone ++ a.space.encSp ++ BitVec.ofNat 3 (toCode szCodes sz) ++ BitVec.ofBool x4 ++ a.disp
def AddrOp.encC (a : AddrOp) : BitVec 9 := match a.off with
  | some x => x.enc
  | none => 0
def decSz (f : Fields) : Dec Sz := ofCode szCodes .b32 (modF f 5 3)

def decLd (f : Fields) (lit : DWord) : Dec LdOp :=
  let d := dstV f; let ad := decAddr f; let z := decSz f
  let c := decCtl f ad.val.isLit lit
  ⟨c.bad ++ d.bad ++ ad.bad ++ z.bad ++ zeroF f.a, { c := c.val, d := d.val, sz := z.val, sx := bit f 4, addr := ad.val }⟩
def LdOp.enc (o : LdOp) (opc : Nat) : Fields :=
  { o.c.base opc with wbs := o.d.encW, dst := o.d.encD, b := o.addr.space.encB, cc := o.addr.encC, md := o.addr.encM o.sz o.sx }

def decSt (f : Fields) (lit : DWord) : Dec StOp :=
  let a := srcV f.a; let ad := decAddr f; let z := decSz f
  let c := decCtl f (a.val.isLit || ad.val.isLit) lit
  ⟨c.bad ++ noWbs f ++ a.bad ++ ad.bad ++ z.bad ++ zeroF f.dst ++ zeroM f 0x010,
   { c := c.val, a := a.val, sz := z.val, addr := ad.val }⟩
def StOp.enc (o : StOp) (opc : Nat) : Fields :=
  { o.c.base opc with a := o.a.enc, b := o.addr.space.encB, cc := o.addr.encC, md := o.addr.encM o.sz false }

def decLdk (f : Fields) (lit : DWord) : Dec LdkOp :=
  let d := dstK (bit f 4) f; let ad := decAddr f; let z := decSz f
  let c := decCtl f ad.val.isLit lit
  ⟨c.bad ++ noWbs f ++ d.bad ++ ad.bad ++ z.bad ++ viol (z.val != .b128) 0x013 ++ zeroF f.a,
   { c := c.val, ud := bit f 4, d := d.val, addr := ad.val }⟩
def LdkOp.enc (o : LdkOp) (opc : Nat) : Fields :=
  { o.c.base opc with dst := o.d.setWidth 8, b := o.addr.space.encB, cc := o.addr.encC, md := o.addr.encM .b128 o.ud }

def decStk (f : Fields) (lit : DWord) : Dec StkOp :=
  let a := srcK (bit f 4) f.a; let ad := decAddr f; let z := decSz f
  let c := decCtl f ad.val.isLit lit
  ⟨c.bad ++ noWbs f ++ a.bad ++ ad.bad ++ z.bad ++ viol (z.val != .b128) 0x013 ++ zeroF f.dst,
   { c := c.val, us := bit f 4, a := a.val, addr := ad.val }⟩
def StkOp.enc (o : StkOp) (opc : Nat) : Fields :=
  { o.c.base opc with a := o.a.setWidth 9, b := o.addr.space.encB, cc := o.addr.encC, md := o.addr.encM .b128 o.us }

def decAtom (f : Fields) (lit : DWord) : Dec AtomOp :=
  let d := dstV f; let a := srcV f.a; let ad := decAddr f; let z := decSz f
  let c := decCtl f (a.val.isLit || ad.val.isLit) lit
  ⟨c.bad ++ d.bad ++ a.bad ++ ad.bad ++ z.bad ++ viol (z.val != .b32 && z.val != .b64) 0x013,
   { c := c.val, d := d.val, a := a.val, w64 := z.val == .b64, u := bit f 4, addr := ad.val }⟩
def AtomOp.enc (o : AtomOp) (opc : Nat) : Fields :=
  { o.c.base opc with wbs := o.d.encW, dst := o.d.encD, a := o.a.enc, b := o.addr.space.encB, cc := o.addr.encC,
                      md := o.addr.encM (if o.w64 then .b64 else .b32) o.u }

def decFence (f : Fields) (_ : DWord) : Dec FenceOp :=
  let s := ofCode scopeCodes .lane (modF f 0 3)
  let c := decCtl f false 0
  ⟨c.bad ++ noWbs f ++ s.bad ++ zeroF f.dst ++ zeroF f.a ++ zeroF f.b ++ zeroF f.cc ++ zeroM f 0xFF8, { c := c.val, scope := s.val }⟩
def FenceOp.enc (o : FenceOp) (opc : Nat) : Fields :=
  { o.c.base opc with md := 0#9 ++ BitVec.ofNat 3 (toCode scopeCodes o.scope) }

/-- MOD of the capability instructions (R228): UF, UA, UB, FN. -/
def capMod (uf ua ub : Bool) (fn : BitVec 4) : BitVec 12 :=
  BitVec.ofBool uf ++ BitVec.ofBool ua ++ BitVec.ofBool ub ++ 0#5 ++ fn

def decCsub (f : Fields) (lit : DWord) : Dec CsubOp :=
  let uf := bit f 11; let d := dstK uf f; let a := srcK (uf || bit f 10) f.a; let o := srcVS uf f.b; let l := srcVS uf f.cc
  let c := decCtl f (o.val.isLit || l.val.isLit) lit
  ⟨c.bad ++ noWbs f ++ d.bad ++ a.bad ++ o.bad ++ l.bad ++ zeroM f 0x3FE,
   { c := c.val, uf := uf, ua := bit f 10, d := d.val, a := a.val, off := o.val, len := l.val, exact := bit f 0 }⟩
def CsubOp.enc (o : CsubOp) (opc : Nat) : Fields :=
  { o.c.base opc with dst := o.d.setWidth 8, a := o.a.setWidth 9, b := o.off.encVS o.uf, cc := o.len.encVS o.uf,
                      md := capMod o.uf o.ua false (0#3 ++ BitVec.ofBool o.exact) }

def decCapV (f : Fields) (lit : DWord) : Dec CapVOp :=
  let uf := bit f 11; let d := dstK uf f; let a := srcK (uf || bit f 10) f.a; let x := srcVS uf f.b
  let c := decCtl f x.val.isLit lit
  ⟨c.bad ++ noWbs f ++ d.bad ++ a.bad ++ x.bad ++ zeroF f.cc ++ zeroM f 0x3FF,
   { c := c.val, uf := uf, ua := bit f 10, d := d.val, a := a.val, x := x.val }⟩
def CapVOp.enc (o : CapVOp) (opc : Nat) : Fields :=
  { o.c.base opc with dst := o.d.setWidth 8, a := o.a.setWidth 9, b := o.x.encVS o.uf, md := capMod o.uf o.ua false 0 }

def decCseal (f : Fields) (lit : DWord) : Dec CsealOp :=
  let uf := bit f 11; let d := dstK uf f; let a := srcK (uf || bit f 10) f.a; let s := srcK (uf || bit f 9) f.b
  let t := srcVS uf f.cc
  let c := decCtl f t.val.isLit lit
  ⟨c.bad ++ noWbs f ++ d.bad ++ a.bad ++ s.bad ++ t.bad ++ zeroM f 0x1FF,
   { c := c.val, uf := uf, ua := bit f 10, ub := bit f 9, d := d.val, a := a.val, s := s.val, t := t.val }⟩
def CsealOp.enc (o : CsealOp) (opc : Nat) : Fields :=
  { o.c.base opc with dst := o.d.setWidth 8, a := o.a.setWidth 9, b := o.s.setWidth 9, cc := o.t.encVS o.uf,
                      md := capMod o.uf o.ua o.ub 0 }

def decCunseal (f : Fields) (_ : DWord) : Dec CunsealOp :=
  let uf := bit f 11; let d := dstK uf f; let a := srcK (uf || bit f 10) f.a; let s := srcK (uf || bit f 9) f.b
  let c := decCtl f false 0
  ⟨c.bad ++ noWbs f ++ d.bad ++ a.bad ++ s.bad ++ zeroF f.cc ++ zeroM f 0x1FF,
   { c := c.val, uf := uf, ua := bit f 10, ub := bit f 9, d := d.val, a := a.val, s := s.val }⟩
def CunsealOp.enc (o : CunsealOp) (opc : Nat) : Fields :=
  { o.c.base opc with dst := o.d.setWidth 8, a := o.a.setWidth 9, b := o.s.setWidth 9, md := capMod o.uf o.ua o.ub 0 }

def decCtest (f : Fields) (_ : DWord) : Dec CtestOp :=
  let uf := bit f 11; let d := dstN 3 f; let a := srcK (uf || bit f 10) f.a
  let c := decCtl f false 0
  ⟨c.bad ++ noWbs f ++ d.bad ++ a.bad ++ zeroF f.b ++ zeroF f.cc ++ zeroM f 0x3FE,
   { c := c.val, uf := uf, ua := bit f 10, d := d.val, a := a.val, live := bit f 0 }⟩
def CtestOp.enc (o : CtestOp) (opc : Nat) : Fields :=
  { o.c.base opc with dst := o.d.setWidth 8, a := o.a.setWidth 9, md := capMod o.uf o.ua false (0#3 ++ BitVec.ofBool o.live) }

/-- The destination of cget: class V, or class S in the uniform form. -/
def decCgetDst (f : Fields) : Dec CgetDst :=
  if bit f 11 then let s := dstN 6 f; ⟨noWbs f ++ s.bad, .uni s.val⟩ else let d := dstV f; ⟨d.bad, .lane d.val⟩
def CgetDst.encD : CgetDst → BitVec 8
  | .lane d => d.encD
  | .uni s => s.setWidth 8
def CgetDst.encW : CgetDst → BitVec 1
  | .lane d => d.encW
  | .uni _ => 0
def CgetDst.isUni : CgetDst → Bool
  | .lane _ => false
  | .uni _ => true
def decCget (f : Fields) (_ : DWord) : Dec CgetOp :=
  let d := decCgetDst f; let a := srcK (bit f 11 || bit f 10) f.a; let x := ofCode fieldCodes .kind (modF f 0 4)
  let c := decCtl f false 0
  ⟨c.bad ++ d.bad ++ a.bad ++ x.bad ++ zeroF f.b ++ zeroF f.cc ++ zeroM f 0x3F0,
   { c := c.val, ua := bit f 10, d := d.val, a := a.val, field := x.val }⟩
def CgetOp.enc (o : CgetOp) (opc : Nat) : Fields :=
  { o.c.base opc with wbs := o.d.encW, dst := o.d.encD, a := o.a.setWidth 9,
                      md := capMod o.d.isUni o.ua false (BitVec.ofNat 4 (toCode fieldCodes o.field)) }

def decCnull (f : Fields) (_ : DWord) : Dec CnullOp :=
  let uf := bit f 11; let d := dstK uf f
  let c := decCtl f false 0
  ⟨c.bad ++ noWbs f ++ d.bad ++ zeroF f.a ++ zeroF f.b ++ zeroF f.cc ++ zeroM f 0x7FF, { c := c.val, uf := uf, d := d.val }⟩
def CnullOp.enc (o : CnullOp) (opc : Nat) : Fields :=
  { o.c.base opc with dst := o.d.setWidth 8, md := capMod o.uf false false 0 }

def decCdeleg (f : Fields) (_ : DWord) : Dec CdelegOp :=
  let uf := bit f 11; let d := dstK uf f; let kb := srcK (uf || bit f 6) f.a; let ks := srcK uf f.b; let kt := srcK uf f.cc
  let c := decCtl f false 0
  ⟨c.bad ++ noWbs f ++ d.bad ++ kb.bad ++ ks.bad ++ kt.bad,
   { c := c.val, uf := uf, ua := bit f 6, d := d.val, kb := kb.val, ksrc := ks.val, kdst := kt.val,
     blk := f.md.extractLsb' 7 4, xq := f.md.extractLsb' 0 6 }⟩
def CdelegOp.enc (o : CdelegOp) (opc : Nat) : Fields :=
  { o.c.base opc with dst := o.d.setWidth 8, a := o.kb.setWidth 9, b := o.ksrc.setWidth 9, cc := o.kdst.setWidth 9,
                      md := BitVec.ofBool o.uf ++ o.blk ++ BitVec.ofBool o.ua ++ o.xq }

def decCpyDirect (f : Fields) : Dec CpyOp :=
  let d := srcN 4 f.a; let a := srcN 4 f.b; let p := srcN 6 f.cc
  let c := decCtl f false 0
  ⟨c.bad ++ noWbs f ++ d.bad ++ a.bad ++ p.bad ++ zeroF f.dst ++ zeroM f 0xBFF, { c := c.val, kd := d.val, ka := a.val, p := p.val }⟩
def CpyOp.enc (o : CpyOp) (opc : Nat) : Fields :=
  { o.c.base opc with a := o.kd.setWidth 9, b := o.ka.setWidth 9, cc := o.p.setWidth 9 }

def decCpyCmd (f : Fields) : Dec CpyCmdOp :=
  let k := srcN 4 f.a; let l := srcN 4 f.b
  let c := decCtl f false 0
  if bit f 9 then
    ⟨c.bad ++ noWbs f ++ k.bad ++ l.bad ++ zeroF f.cc ++ zeroF f.dst ++ zeroM f 0x9FF, { c := c.val, kc := k.val, loc := some l.val }⟩
  else ⟨c.bad ++ noWbs f ++ k.bad ++ zeroF f.b ++ zeroF f.cc ++ zeroF f.dst ++ zeroM f 0x9FF, { c := c.val, kc := k.val, loc := none }⟩
def CpyCmdOp.enc (o : CpyCmdOp) (opc : Nat) : Fields :=
  { o.c.base opc with a := o.kc.setWidth 9, b := (o.loc.getD 0).setWidth 9, md := 1#2 ++ BitVec.ofBool o.loc.isSome ++ 0#9 }

/-- Opcode 0x180: FORM selects the direct form, the command form, or is reserved (R250, R285). -/
def decCpy (f : Fields) (_ : DWord) : Dec Instr := match modF f 10 2 with
  | 0 => let o := decCpyDirect f; ⟨o.bad, .cpy o.val⟩
  | 1 => let o := decCpyCmd f; ⟨o.bad, .cpyCmd o.val⟩
  | _ => let o := decCpyDirect f; ⟨0x013 :: o.bad, .cpy o.val⟩

def decGs (f : Fields) (lit : DWord) : Dec GsOp :=
  let p := dstN 6 f; let d := srcN 4 f.a; let a := srcN 4 f.b; let i := srcV f.cc; let e := ofCode eszCodes .e4 (modF f 0 3)
  let c := decCtl f i.val.isLit lit
  ⟨c.bad ++ noWbs f ++ p.bad ++ d.bad ++ a.bad ++ i.bad ++ e.bad ++ zeroM f 0xFF8,
   { c := c.val, kd := d.val, ka := a.val, idx := i.val, p := p.val, esz := e.val }⟩
def GsOp.enc (o : GsOp) (opc : Nat) : Fields :=
  { o.c.base opc with dst := o.p.setWidth 8, a := o.kd.setWidth 9, b := o.ka.setWidth 9, cc := o.idx.enc,
                      md := 0#9 ++ BitVec.ofNat 3 (toCode eszCodes o.esz) }

def decMma (f : Fields) (_ : DWord) : Dec MmaOp :=
  let d := dstN 4 f; let a := srcN 4 f.a; let b := srcN 4 f.b; let p := srcN 6 f.cc
  let c := decCtl f false 0
  ⟨c.bad ++ noWbs f ++ d.bad ++ a.bad ++ b.bad ++ p.bad ++ zeroM f 0xFFE,
   { c := c.val, ad := d.val, ka := a.val, kb := b.val, p := p.val, f16 := bit f 0 }⟩
def MmaOp.enc (o : MmaOp) (opc : Nat) : Fields :=
  { o.c.base opc with dst := o.ad.setWidth 8, a := o.ka.setWidth 9, b := o.kb.setWidth 9, cc := o.p.setWidth 9,
                      md := 0#11 ++ BitVec.ofBool o.f16 }

/-- The source tile of mmac; where a field lies outside its class, one that equals the destination exactly if the fields do. -/
def mmacSrc (f : Fields) : BitVec 4 :=
  if f.dst.setWidth 9 = f.a ∨ (f.dst.toNat < 16 ∧ f.a.toNat < 16) then f.a.setWidth 4 else f.dst.setWidth 4 + 1
def decMmac (f : Fields) (_ : DWord) : Dec MmacOp :=
  let d := dstN 4 f; let a := srcN 4 f.a; let b := srcN 4 f.b; let p := srcN 6 f.cc
  let c := decCtl f false 0
  ⟨c.bad ++ noWbs f ++ d.bad ++ a.bad ++ b.bad ++ p.bad ++ zeroM f 0xFFE,
   { c := c.val, ad := d.val, as := mmacSrc f, kb := b.val, p := p.val, f16 := bit f 0 }⟩
def MmacOp.enc (o : MmacOp) (opc : Nat) : Fields :=
  { o.c.base opc with dst := o.ad.setWidth 8, a := o.as.setWidth 9, b := o.kb.setWidth 9, cc := o.p.setWidth 9,
                      md := 0#11 ++ BitVec.ofBool o.f16 }

def decAclr (f : Fields) (_ : DWord) : Dec AclrOp :=
  let d := dstN 4 f
  let c := decCtl f false 0
  ⟨c.bad ++ noWbs f ++ d.bad ++ zeroF f.a ++ zeroF f.b ++ zeroF f.cc ++ zeroF (f.md &&& 0xFFE) ++ zeroM f 0x001, { c := c.val, ad := d.val }⟩
def AclrOp.enc (o : AclrOp) (opc : Nat) : Fields := { o.c.base opc with dst := o.ad.setWidth 8 }

def decAld (f : Fields) (_ : DWord) : Dec AldOp :=
  let d := dstN 4 f; let a := srcN 4 f.a; let p := srcN 6 f.cc
  let c := decCtl f false 0
  ⟨c.bad ++ noWbs f ++ d.bad ++ a.bad ++ p.bad ++ zeroF f.b ++ zeroF (f.md &&& 0xFFE) ++ zeroM f 0x001, { c := c.val, ad := d.val, ka := a.val, p := p.val }⟩
def AldOp.enc (o : AldOp) (opc : Nat) : Fields :=
  { o.c.base opc with dst := o.ad.setWidth 8, a := o.ka.setWidth 9, cc := o.p.setWidth 9 }

def decAst (f : Fields) (_ : DWord) : Dec AstOp :=
  let d := srcN 4 f.a; let a := srcN 4 f.b; let p := srcN 6 f.cc; let m := ofCode astCodes .f32 (modF f 0 4)
  let c := decCtl f false 0
  ⟨c.bad ++ noWbs f ++ d.bad ++ a.bad ++ p.bad ++ m.bad ++ zeroF f.dst ++ zeroM f 0xFF0,
   { c := c.val, kd := d.val, as := a.val, p := p.val, fmt := m.val }⟩
def AstOp.enc (o : AstOp) (opc : Nat) : Fields :=
  { o.c.base opc with a := o.kd.setWidth 9, b := o.as.setWidth 9, cc := o.p.setWidth 9,
                      md := 0#8 ++ BitVec.ofNat 4 (toCode astCodes o.fmt) }

def decClx (f : Fields) (_ : DWord) : Dec ClxOp :=
  let d := srcN 4 f.a; let a := srcN 4 f.b; let p := srcN 6 f.cc; let x := ofCode clxCodes .sum (modF f 0 4)
  let c := decCtl f false 0
  ⟨c.bad ++ noWbs f ++ d.bad ++ a.bad ++ p.bad ++ x.bad ++ zeroF f.dst ++ zeroM f 0xFE0,
   { c := c.val, kd := d.val, ka := a.val, p := p.val, fn := x.val, i32 := bit f 4 }⟩
def ClxOp.enc (o : ClxOp) (opc : Nat) : Fields :=
  { o.c.base opc with a := o.kd.setWidth 9, b := o.ka.setWidth 9, cc := o.p.setWidth 9,
                      md := 0#7 ++ BitVec.ofBool o.i32 ++ BitVec.ofNat 4 (toCode clxCodes o.fn) }

def decNmc (f : Fields) (_ : DWord) : Dec NmcOp :=
  let t := srcN 4 f.a; let g := srcN 4 f.b; let p := srcN 6 f.cc; let x := ofCode nmcCodes .fade (modF f 0 4)
  let c := decCtl f false 0
  ⟨c.bad ++ noWbs f ++ t.bad ++ g.bad ++ p.bad ++ x.bad ++ zeroF f.dst ++ zeroM f 0xFF0,
   { c := c.val, kt := t.val, kg := g.val, p := p.val, fn := x.val }⟩
def NmcOp.enc (o : NmcOp) (opc : Nat) : Fields :=
  { o.c.base opc with a := o.kt.setWidth 9, b := o.kg.setWidth 9, cc := o.p.setWidth 9,
                      md := 0#8 ++ BitVec.ofNat 4 (toCode nmcCodes o.fn) }

def decGatm (f : Fields) (lit : DWord) : Dec GatmOp :=
  let d := dstV f; let k := srcN 4 f.a; let o := srcV f.b; let a := srcV f.cc; let x := ofCode atomCodes .add (modF f 0 3)
  let c := decCtl f (o.val.isLit || a.val.isLit) lit
  ⟨c.bad ++ d.bad ++ k.bad ++ o.bad ++ a.bad ++ x.bad ++ zeroM f 0xFE0,
   { c := c.val, d := d.val, k := k.val, o := o.val, a := a.val, fn := x.val, w64 := bit f 3, u := bit f 4 }⟩
def GatmOp.enc (o : GatmOp) (opc : Nat) : Fields :=
  { o.c.base opc with wbs := o.d.encW, dst := o.d.encD, a := o.k.setWidth 9, b := o.o.enc, cc := o.a.enc,
                      md := 0#7 ++ BitVec.ofBool o.u ++ BitVec.ofBool o.w64 ++ BitVec.ofNat 3 (toCode atomCodes o.fn) }

/-- A scope that a bit makes meaningful: code 0b000 without it (R285). -/
def decRel (on : Bool) (code : Nat) : Dec (Option Scope) :=
  if on then let s := ofCode scopeCodes .lane code; ⟨s.bad, some s.val⟩ else ⟨viol (code != 0) 0x013, none⟩
def encRel (r : Option Scope) : BitVec 3 := match r with
  | some s => BitVec.ofNat 3 (toCode scopeCodes s)
  | none => 0

def decSig (f : Fields) (lit : DWord) : Dec SigOp :=
  let k := srcN 4 f.a; let o := srcS f.b; let v := srcS f.cc; let r := decRel (bit f 1) (modF f 2 3)
  let c := decCtl f (o.val.isLit || v.val.isLit) lit
  ⟨c.bad ++ noWbs f ++ k.bad ++ o.bad ++ v.bad ++ r.bad ++ zeroF f.dst ++ zeroM f 0xFE0,
   { c := c.val, k := k.val, o := o.val, v := v.val, add := bit f 0, rel := r.val }⟩
def SigOp.enc (o : SigOp) (opc : Nat) : Fields :=
  { o.c.base opc with a := o.k.setWidth 9, b := o.o.enc, cc := o.v.enc,
                      md := 0#7 ++ encRel o.rel ++ BitVec.ofBool o.rel.isSome ++ BitVec.ofBool o.add }

def decWsig (f : Fields) (lit : DWord) : Dec WsigOp :=
  let q := dstN 2 f; let k := srcN 4 f.a; let o := srcS f.b; let v := srcS f.cc
  let x := ofCode wccCodes .eq (modF f 0 2); let r := decRel (bit f 2) (modF f 3 3)
  let c := decCtl f (o.val.isLit || v.val.isLit) lit
  ⟨c.bad ++ noWbs f ++ q.bad ++ k.bad ++ o.bad ++ v.bad ++ x.bad ++ r.bad ++ zeroM f 0xC00,
   { c := c.val, q := q.val, k := k.val, o := o.val, v := v.val, cc := x.val, acq := r.val, tmo := f.md.extractLsb' 6 4 }⟩
def WsigOp.enc (o : WsigOp) (opc : Nat) : Fields :=
  { o.c.base opc with dst := o.q.setWidth 8, a := o.k.setWidth 9, b := o.o.enc, cc := o.v.enc,
                      md := 0#2 ++ o.tmo ++ encRel o.acq ++ BitVec.ofBool o.acq.isSome ++ BitVec.ofNat 2 (toCode wccCodes o.cc) }

def decWaitc (f : Fields) (_ : DWord) : Dec WaitcOp :=
  let x := ofCode clsCodes none (modF f 9 3)
  let c := decCtl f false 0
  ⟨c.bad ++ noWbs f ++ x.bad ++ zeroF f.dst ++ zeroF f.a ++ zeroF f.b ++ zeroF f.cc ++ zeroM f 0x007,
   { c := c.val, cls := x.val, thr := f.md.extractLsb' 3 6 }⟩
def WaitcOp.enc (o : WaitcOp) (opc : Nat) : Fields :=
  { o.c.base opc with md := BitVec.ofNat 3 (toCode clsCodes o.cls) ++ o.thr ++ 0#3 }

def decRevoke (f : Fields) (lit : DWord) : Dec RevokeOp :=
  let d := dstN 6 f; let k := srcN 4 f.a; let g := srcN 4 f.b; let o := srcS f.cc
  if bit f 0 then
    let c := decCtl f o.val.isLit lit
    ⟨c.bad ++ noWbs f ++ d.bad ++ k.bad ++ g.bad ++ o.bad ++ zeroM f 0xFFE,
     { c := c.val, sd := d.val, k := k.val, sg := some (g.val, o.val) }⟩
  else
    let c := decCtl f false lit
    ⟨c.bad ++ noWbs f ++ d.bad ++ k.bad ++ zeroF f.b ++ zeroF f.cc ++ zeroM f 0xFFE,
     { c := c.val, sd := d.val, k := k.val, sg := none }⟩
def RevokeOp.encB (o : RevokeOp) : BitVec 9 := match o.sg with
  | some (g, _) => g.setWidth 9
  | none => 0
def RevokeOp.encC (o : RevokeOp) : BitVec 9 := match o.sg with
  | some (_, x) => x.enc
  | none => 0
def RevokeOp.enc (o : RevokeOp) (opc : Nat) : Fields :=
  { o.c.base opc with dst := o.sd.setWidth 8, a := o.k.setWidth 9, b := o.encB, cc := o.encC,
                      md := 0#11 ++ BitVec.ofBool o.sg.isSome }

def decStage (f : Fields) (lit : DWord) : Dec StageOp :=
  let k := srcN 4 f.a; let i := srcS f.b
  let c := decCtl f i.val.isLit lit
  ⟨c.bad ++ noWbs f ++ k.bad ++ i.bad ++ zeroF f.dst ++ zeroF f.cc ++ zeroM f 0xFFE,
   { c := c.val, k := k.val, i := i.val, back := bit f 0 }⟩
def StageOp.enc (o : StageOp) (opc : Nat) : Fields :=
  { o.c.base opc with a := o.k.setWidth 9, b := o.i.enc, md := 0#11 ++ BitVec.ofBool o.back }

def decWb (f : Fields) (_ : DWord) : Dec WbOp :=
  let k := srcN 4 f.a; let p := srcN 6 f.cc
  let c := decCtl f false 0
  ⟨c.bad ++ noWbs f ++ k.bad ++ p.bad ++ zeroF f.dst ++ zeroF f.b ++ zeroM f 0xFFE,
   { c := c.val, k := k.val, p := p.val, inv := bit f 0 }⟩
def WbOp.enc (o : WbOp) (opc : Nat) : Fields :=
  { o.c.base opc with a := o.k.setWidth 9, cc := o.p.setWidth 9, md := 0#11 ++ BitVec.ofBool o.inv }

def decBra (f : Fields) (lit : DWord) : Dec BraOp :=
  let c := decCtl f (immLit f.imm) lit
  let qen := f.dst.getLsbD 7
  ⟨c.bad ++ noWbs f ++ zeroF f.a ++ zeroF f.b ++ zeroF (f.dst &&& (if qen then 0x78 else 0x7F)),
   { c := c.val, cond := if qen then some (f.dst.getLsbD 2, f.dst.setWidth 2) else none, imm := f.imm }⟩
def BraOp.encD (o : BraOp) : BitVec 8 := match o.cond with
  | some (neg, q) => 1#1 ++ 0#4 ++ BitVec.ofBool neg ++ q
  | none => 0
def BraOp.enc (o : BraOp) (opc : Nat) : Fields :=
  { o.c.base opc with dst := o.encD, cc := immCc o.imm, md := immMd o.imm }

def decBr (f : Fields) (lit : DWord) : Dec BrOp :=
  let c := decCtl f (immLit f.imm) lit
  ⟨c.bad ++ noWbs f ++ zeroF f.dst ++ zeroF f.a ++ zeroF f.b, { c := c.val, imm := f.imm }⟩
def BrOp.enc (o : BrOp) (opc : Nat) : Fields := { o.c.base opc with cc := immCc o.imm, md := immMd o.imm }

def decBrx (f : Fields) (lit : DWord) : Dec BrxOp :=
  let uf := bit f 11; let k := srcK uf f.a; let o := srcVS uf f.b
  let c := decCtl f o.val.isLit lit
  ⟨c.bad ++ noWbs f ++ k.bad ++ o.bad ++ zeroF f.dst ++ zeroF f.cc ++ zeroM f 0x7FF,
   { c := c.val, uf := uf, k := k.val, o := o.val }⟩
def BrxOp.enc (o : BrxOp) (opc : Nat) : Fields :=
  { o.c.base opc with a := o.k.setWidth 9, b := o.o.encVS o.uf, md := BitVec.ofBool o.uf ++ 0#11 }

/-- A word with no operand (R270). -/
def decCtlOnly (f : Fields) (_ : DWord) : Dec Ctl :=
  let c := decCtl f false 0
  ⟨c.bad ++ noWbs f ++ zeroF f.dst ++ zeroF f.a ++ zeroF f.b ++ zeroF f.cc ++ zeroF f.md, c.val⟩
def Ctl.enc (c : Ctl) (opc : Nat) : Fields := c.base opc

def decSpawn (f : Fields) (lit : DWord) : Dec SpawnOp :=
  let a := srcV f.a
  let c := decCtl f (a.val.isLit || immLit f.imm) lit
  ⟨c.bad ++ noWbs f ++ a.bad ++ zeroF f.b ++ zeroF (f.dst &&& 0xE0),
   { c := c.val, a := a.val, sz8 := f.dst.setWidth 5, imm := f.imm }⟩
def SpawnOp.enc (o : SpawnOp) (opc : Nat) : Fields :=
  { o.c.base opc with dst := o.sz8.setWidth 8, a := o.a.enc, cc := immCc o.imm, md := immMd o.imm }

def decRegion (f : Fields) (_ : DWord) : Dec RegionOp :=
  let d := dstV f
  let c := decCtl f false 0
  ⟨c.bad ++ d.bad ++ zeroF f.a ++ zeroF f.b ++ zeroF f.cc ++ zeroF f.md, { c := c.val, d := d.val }⟩
def RegionOp.enc (o : RegionOp) (opc : Nat) : Fields := { o.c.base opc with wbs := o.d.encW, dst := o.d.encD }

def decBar (f : Fields) (_ : DWord) : Dec BarOp :=
  let s := ofCode scopeCodes .lane (modF f 0 3)
  let c := decCtl f false 0
  ⟨c.bad ++ noWbs f ++ s.bad ++ zeroF f.dst ++ zeroF f.a ++ zeroF f.b ++ zeroF f.cc ++ zeroM f 0xF80,
   { c := c.val, scope := s.val, slot := f.md.extractLsb' 3 4 }⟩
def BarOp.enc (o : BarOp) (opc : Nat) : Fields :=
  { o.c.base opc with md := 0#5 ++ o.slot ++ BitVec.ofNat 3 (toCode scopeCodes o.scope) }

def decGrow (f : Fields) (_ : DWord) : Dec GrowOp :=
  let c := decCtl f false 0
  ⟨c.bad ++ noWbs f ++ zeroF f.dst ++ zeroF f.a ++ zeroF f.b ++ zeroF f.cc ++ zeroM f 0xF00,
   { c := c.val, n := f.md.setWidth 8 }⟩
def GrowOp.enc (o : GrowOp) (opc : Nat) : Fields := { o.c.base opc with md := 0#4 ++ o.n }

def decTrap (f : Fields) (_ : DWord) : Dec TrapOp :=
  let c := decCtl f false 0
  ⟨c.bad ++ noWbs f ++ zeroF f.dst ++ zeroF f.a ++ zeroF f.b ++ zeroF f.cc, { c := c.val, code := f.md }⟩
def TrapOp.enc (o : TrapOp) (opc : Nat) : Fields := { o.c.base opc with md := o.code }

def decQpush (f : Fields) (lit : DWord) : Dec QpushOp :=
  let q := dstN 2 f; let kq := srcN 4 f.a; let kr := srcN 4 f.b; let so := srcS f.cc
  let c := decCtl f so.val.isLit lit
  ⟨c.bad ++ noWbs f ++ q.bad ++ kq.bad ++ kr.bad ++ so.bad ++ zeroM f 0xFF8,
   { c := c.val, q := q.val, kq := kq.val, kr := kr.val, so := so.val, n1 := f.md.setWidth 2, nb := bit f 2 }⟩
def QpushOp.enc (o : QpushOp) (opc : Nat) : Fields :=
  { o.c.base opc with dst := o.q.setWidth 8, a := o.kq.setWidth 9, b := o.kr.setWidth 9, cc := o.so.enc,
                      md := 0#9 ++ BitVec.ofBool o.nb ++ o.n1 }

def decQpop (f : Fields) (lit : DWord) : Dec QpopOp :=
  let q := dstN 2 f; let kq := srcN 4 f.a; let kr := srcN 4 f.b; let so := srcS f.cc
  let c := decCtl f so.val.isLit lit
  ⟨c.bad ++ noWbs f ++ q.bad ++ kq.bad ++ kr.bad ++ so.bad ++ zeroM f 0xFFB,
   { c := c.val, q := q.val, kq := kq.val, kr := kr.val, so := so.val, nb := bit f 2 }⟩
def QpopOp.enc (o : QpopOp) (opc : Nat) : Fields :=
  { o.c.base opc with dst := o.q.setWidth 8, a := o.kq.setWidth 9, b := o.kr.setWidth 9, cc := o.so.enc,
                      md := 0#9 ++ BitVec.ofBool o.nb ++ 0#2 }

def decQslots (f : Fields) (_ : DWord) : Dec QslotsOp :=
  let d := dstN 6 f; let kq := srcN 4 f.a
  let c := decCtl f false 0
  ⟨c.bad ++ noWbs f ++ d.bad ++ kq.bad ++ zeroF f.b ++ zeroF f.cc ++ zeroF (f.md &&& 0xFFB) ++ zeroM f 0x004, { c := c.val, sd := d.val, kq := kq.val }⟩
def QslotsOp.enc (o : QslotsOp) (opc : Nat) : Fields :=
  { o.c.base opc with dst := o.sd.setWidth 8, a := o.kq.setWidth 9 }

def decLaunch (f : Fields) (lit : DWord) : Dec LaunchOp :=
  let kq := srcN 4 f.a; let kr := srcN 4 f.b; let so := srcS f.cc
  let c := decCtl f so.val.isLit lit
  ⟨c.bad ++ noWbs f ++ kq.bad ++ kr.bad ++ so.bad ++ zeroF f.dst ++ zeroF (f.md &&& 0xFFB) ++ zeroM f 0x004,
   { c := c.val, kq := kq.val, kr := kr.val, so := so.val }⟩
def LaunchOp.enc (o : LaunchOp) (opc : Nat) : Fields :=
  { o.c.base opc with a := o.kq.setWidth 9, b := o.kr.setWidth 9, cc := o.so.enc }

def decSysrd (f : Fields) (_ : DWord) : Dec SysrdOp :=
  let d := dstV f
  let c := decCtl f false 0
  ⟨c.bad ++ d.bad ++ zeroF f.a ++ zeroF f.b ++ zeroF f.cc, { c := c.val, d := d.val, num := f.md }⟩
def SysrdOp.enc (o : SysrdOp) (opc : Nat) : Fields := { o.c.base opc with wbs := o.d.encW, dst := o.d.encD, md := o.num }

def decSyswr (f : Fields) (lit : DWord) : Dec SyswrOp :=
  let a := srcV f.a
  let c := decCtl f a.val.isLit lit
  ⟨c.bad ++ noWbs f ++ a.bad ++ zeroF f.dst ++ zeroF f.b ++ zeroF f.cc, { c := c.val, a := a.val, num := f.md }⟩
def SyswrOp.enc (o : SyswrOp) (opc : Nat) : Fields := { o.c.base opc with a := o.a.enc, md := o.num }

/-! ## The repeat prefix and the loop nest (R158–R162) -/

/-- A rep word; a reserved bit is reported as 0x018 (R399, R406). -/
def decRep (w : DWord) : Dec RepOp :=
  let t := btCodes.lookup (w.extractLsb' 52 2).toNat
  ⟨viol t.isNone 0x011 ++ viol (w.extractLsb' 48 4 != 0 || w.extractLsb' 35 7 != 0 || w.extractLsb' 0 15 != 0) 0x018,
   { bt := t.getD .dyn, cnt := w.extractLsb' 42 6, std := w.extractLsb' 30 5, sta := w.extractLsb' 25 5,
     stb := w.extractLsb' 20 5, stc := w.extractLsb' 15 5 }⟩
def RepOp.enc (o : RepOp) : DWord :=
  0x1D3#10 ++ BitVec.ofNat 2 (toCode btCodes o.bt) ++ 0#4 ++ o.cnt ++ 0#7 ++ o.std ++ o.sta ++ o.stb ++ o.stc ++ 0#15

/-- The 192-bit field X of a loop nest (R162). -/
def lnX (w1 w2 w3 : DWord) : BitVec 192 := w3 ++ w2 ++ w1
/-- Level l of X. -/
def lnLevel (x : BitVec 192) (l : Nat) : LnLevel :=
  { ext := x.extractLsb' (8 * l) 8, sd := x.extractLsb' (40 + 10 * l) 10, sa := x.extractLsb' (90 + 10 * l) 10,
    sb := x.extractLsb' (140 + 10 * l) 10 }
/-- The four words of an lnest; reserved bits are reported as 0x019 (R399, R407), a guard as R150 and R407 say. -/
def decLnest (w w1 w2 w3 : DWord) : Dec LnestOp :=
  let t := btCodes.lookup (w.extractLsb' 52 2).toNat
  let g := w.extractLsb' 48 4
  let fn := ofCode lnFnCodes .copy (w.extractLsb' 41 6).toNat
  let ty := ofCode lnTyCodes .f32 (w.extractLsb' 37 4).toNat
  let n := (w.extractLsb' 34 3).toNat
  let x := lnX w1 w2 w3
  let rest := (List.range 5).any fun l => decide (l ≥ n) && (lnLevel x l != ⟨0, 0, 0, 0⟩)
  ⟨viol t.isNone 0x011 ++ viol (g == 8) 0x013 ++ viol (g != 0) 0x01A ++ fn.bad ++ ty.bad
     ++ viol (w.extractLsb' 47 1 != 0 || w.extractLsb' 0 4 != 0 || decide (n = 0) || decide (n > 5) || rest
        || x.extractLsb' 190 2 != 0) 0x019,
   { bt := t.getD .dyn, fn := fn.val, ty := ty.val,
     kd := w.extractLsb' 30 4, od := w.extractLsb' 24 6, ka := w.extractLsb' 20 4, oa := w.extractLsb' 14 6,
     kb := w.extractLsb' 10 4, ob := w.extractLsb' 4 6, levels := (List.range n).map (lnLevel x) }⟩
/-- The level at index l, all zeros above NLEV. -/
def LnestOp.level (o : LnestOp) (l : Nat) : LnLevel := o.levels.getD l ⟨0, 0, 0, 0⟩
def LnestOp.encX (o : LnestOp) : BitVec 192 :=
  let l := o.level
  0#2 ++ (l 4).sb ++ (l 3).sb ++ (l 2).sb ++ (l 1).sb ++ (l 0).sb ++ (l 4).sa ++ (l 3).sa ++ (l 2).sa ++ (l 1).sa ++ (l 0).sa
    ++ (l 4).sd ++ (l 3).sd ++ (l 2).sd ++ (l 1).sd ++ (l 0).sd ++ (l 4).ext ++ (l 3).ext ++ (l 2).ext ++ (l 1).ext ++ (l 0).ext
def LnestOp.enc (o : LnestOp) : List DWord :=
  [0x1D2#10 ++ BitVec.ofNat 2 (toCode btCodes o.bt) ++ 0#5 ++ BitVec.ofNat 6 (toCode lnFnCodes o.fn)
     ++ BitVec.ofNat 4 (toCode lnTyCodes o.ty) ++ BitVec.ofNat 3 o.levels.length ++ o.kd ++ o.od ++ o.ka ++ o.oa ++ o.kb ++ o.ob ++ 0#4,
   o.encX.extractLsb' 0 64, o.encX.extractLsb' 64 64, o.encX.extractLsb' 128 64]

/-! ## The opcode map (R164–R166) -/

/-- A decoder of a shape, followed by a constructor. -/
def as {α : Type} (d : Fields → DWord → Dec α) (k : α → Instr) (f : Fields) (lit : DWord) : Dec Instr :=
  let x := d f lit
  ⟨x.bad, k x.val⟩

/-- Group 0, integer (R165). -/
def opcInt : List (Nat × (Fields → DWord → Dec Instr)) := [
  (0x002, as decIBin .iadd),
  (0x003, as decIBin .iadd64),
  (0x004, as decIBin .isub),
  (0x005, as decIBin .isub64),
  (0x006, as decIBin .imul),
  (0x007, as decIBin .imul64),
  (0x008, as decIBin .imulh),
  (0x009, as decIBin .imulh64),
  (0x00A, as decIMad .imad),
  (0x00B, as decIMad .imad64),
  (0x00C, as decIBin .idiv),
  (0x00D, as decIBin .idiv64),
  (0x00E, as decIBin .irem),
  (0x00F, as decIBin .irem64),
  (0x010, as decIUn .iabs),
  (0x011, as decIUn .iabs64),
  (0x012, as decIUn .ineg),
  (0x013, as decIUn .ineg64),
  (0x014, as decIBin .imin),
  (0x015, as decIBin .imin64),
  (0x016, as decIBin .imax),
  (0x017, as decIBin .imax64),
  (0x018, as decIBin .andOp),
  (0x019, as decIBin .andOp64),
  (0x01A, as decIBin .orOp),
  (0x01B, as decIBin .orOp64),
  (0x01C, as decIBin .xorOp),
  (0x01D, as decIBin .xorOp64),
  (0x01E, as decIBin .andn),
  (0x01F, as decIBin .andn64),
  (0x020, as decIUn .notOp),
  (0x021, as decIUn .notOp64),
  (0x022, as decIBin .shl),
  (0x023, as decIBin .shl64),
  (0x024, as decIBin .shr),
  (0x025, as decIBin .shr64),
  (0x026, as decIBin .sar),
  (0x027, as decIBin .sar64),
  (0x028, as decIBin .rol),
  (0x029, as decIBin .rol64),
  (0x02A, as decIUn .popc),
  (0x02B, as decIUn .popc64),
  (0x02C, as decIUn .clz),
  (0x02D, as decIUn .clz64),
  (0x02E, as decIUn .ctz),
  (0x02F, as decIUn .ctz64),
  (0x030, as decIUn .brev),
  (0x031, as decIUn .brev64),
  (0x032, as decIBf .bfx),
  (0x033, as decIBf .bfx64),
  (0x034, as decIBf .bfi),
  (0x035, as decIBf .bfi64),
  (0x036, as decISel .selOp),
  (0x037, as decISel .selOp64),
  (0x038, as decICmp .icmp),
  (0x039, as decICmp .icmp64),
  (0x03A, as decIUn .movOp),
  (0x03B, as decIUn .movOp64),
  (0x03C, as decIMovi .movi),
  (0x03D, as decIMovi .movi64)]
/-- Group 1, floating point. -/
def opcFloat : List (Nat × (Fields → DWord → Dec Instr)) := [
  (0x040, as decFBin .fadd),
  (0x041, as decFBin .fsub),
  (0x042, as decFBin .fmul),
  (0x043, as decFTri .ffma),
  (0x044, as decFBin .fmin),
  (0x045, as decFBin .fmax),
  (0x046, as decFCmp .fcmp),
  (0x047, as decFUn .fclass),
  (0x048, as decFUn .ffloor),
  (0x049, as decFUn .fceil),
  (0x04A, as decFUn .ftrunc),
  (0x04B, as decFUn .frint),
  (0x04C, as decFBin .fscale),
  (0x04D, as decFUn .frcp),
  (0x04E, as decFUn .frsq),
  (0x04F, as decFUn .fsqrt),
  (0x050, as decFUn .fex2),
  (0x051, as decFUn .flg2),
  (0x052, as decFUn .fsin),
  (0x053, as decFUn .fcos),
  (0x054, as decFUn .ftanh),
  (0x055, as decHBin .hadd2),
  (0x056, as decHBin .hmul2),
  (0x057, as decHTri .hfma2)]
/-- Group 2, conversion and scaling. -/
def opcConv : List (Nat × (Fields → DWord → Dec Instr)) := [
  (0x080, as decCvt .cvt),
  (0x081, as decQnt .qntE4m3),
  (0x082, as decQnt .qntE5m2),
  (0x083, as decQnt .qntE2m1),
  (0x084, as decQnt .qntI8),
  (0x085, as decQnt .qntT2),
  (0x086, as decDqnt .dqnt),
  (0x087, as decSacc .sacc),
  (0x088, as decSaccV .saccV)]
/-- Group 3, cross-lane. -/
def opcLane : List (Nat × (Fields → DWord → Dec Instr)) := [
  (0x0C0, as decShfl .shfl),
  (0x0C1, as decBallot .ballot),
  (0x0C2, as decVote .vote),
  (0x0C3, as decBcast .bcast),
  (0x0C4, as decRed .red),
  (0x0C5, as decRed .scan),
  (0x0C6, as decCmpst .cmpst),
  (0x0C7, as decExpld .expld)]
/-- Group 4, local memory and fence. -/
def opcLocal : List (Nat × (Fields → DWord → Dec Instr)) := [
  (0x100, as decLd .ld),
  (0x101, as decSt .st),
  (0x102, as decLdk .ldk),
  (0x103, as decStk .stk),
  (0x104, as decAtom .aadd),
  (0x105, as decAtom .amin),
  (0x106, as decAtom .amax),
  (0x107, as decAtom .aand),
  (0x108, as decAtom .aor),
  (0x109, as decAtom .axor),
  (0x10A, as decAtom .axch),
  (0x10B, as decAtom .acas),
  (0x10C, as decFence .fenceOp)]
/-- Group 5, capability. -/
def opcCap : List (Nat × (Fields → DWord → Dec Instr)) := [
  (0x140, as decCsub .csub),
  (0x141, as decCapV .cperm),
  (0x142, as decCseal .cseal),
  (0x143, as decCunseal .cunseal),
  (0x144, as decCapV .cbale),
  (0x145, as decCtest .ctest),
  (0x146, as decCget .cget),
  (0x147, as decCdeleg .cdeleg),
  (0x148, as decCnull .cnull)]
/-- Group 6, engine. -/
def opcEngine : List (Nat × (Fields → DWord → Dec Instr)) := [
  (0x180, decCpy),
  (0x181, as decGs .gat),
  (0x182, as decGs .sct),
  (0x183, as decMma .mmaE4m3),
  (0x184, as decMma .mmaE5m2),
  (0x185, as decMma .mmaE2m1),
  (0x186, as decMma .mmaBf16),
  (0x187, as decMma .mmaI8),
  (0x188, as decMma .mmaT8),
  (0x189, as decMmac .mmacE4m3),
  (0x18A, as decMmac .mmacE5m2),
  (0x18B, as decMmac .mmacE2m1),
  (0x18C, as decMmac .mmacBf16),
  (0x18D, as decMmac .mmacI8),
  (0x18E, as decMmac .mmacT8),
  (0x18F, as decAclr .aclr),
  (0x190, as decAld .ald),
  (0x191, as decAst .ast),
  (0x192, as decClx .clx),
  (0x193, as decNmc .nmc),
  (0x194, as decGatm .gatm),
  (0x195, as decSig .sig),
  (0x196, as decWsig .wsig),
  (0x197, as decWaitc .waitc),
  (0x198, as decRevoke .revoke),
  (0x199, as decStage .stage),
  (0x19A, as decWb .wb)]
/-- Group 7, control and system; lnest and rep stand outside it. -/
def opcControl : List (Nat × (Fields → DWord → Dec Instr)) := [
  (0x1C0, as decBra .bra),
  (0x1C1, as decBr .brc),
  (0x1C2, as decBrx .brx),
  (0x1C3, as decBr .callOp),
  (0x1C4, as decBrx .calli),
  (0x1C5, as decCtlOnly .ret),
  (0x1C6, as decRegion .regionOp),
  (0x1C7, as decCtlOnly .yieldOp),
  (0x1C8, as decCtlOnly .fuse),
  (0x1C9, as decSpawn .spawn),
  (0x1CA, as decCtlOnly .endOp),
  (0x1CB, as decBar .bar),
  (0x1CC, as decGrow .grow),
  (0x1CD, as decGrow .shrink),
  (0x1CE, as decLaunch .launchOp),
  (0x1CF, as decQpush .qpush),
  (0x1D0, as decQpop .qpop),
  (0x1D1, as decQslots .qslots),
  (0x1D4, as decCtlOnly .nopOp),
  (0x1D5, as decTrap .trapOp),
  (0x1D6, as decSysrd .sysrd),
  (0x1D7, as decSyswr .syswr)]

/-- The opcode map of the ordinary words. -/
def opcodeMap : List (Nat × (Fields → DWord → Dec Instr)) :=
  opcInt ++ opcFloat ++ opcConv ++ opcLane ++ opcLocal ++ opcCap ++ opcEngine ++ opcControl

/-- The decoder of an ordinary word: its instruction with every sub-cause it breaks, the operands' own (Instr.violations)
among them; none for an unassigned opcode, rep and lnest. -/
def decodeOrdinary (w lit : DWord) : Option (Dec Instr) :=
  let f := Fields.ofWord w
  (opcodeMap.lookup f.opc.toNat).map fun d => let x := d f lit; ⟨x.bad ++ x.val.violations, x.val⟩

/-- A word with the words that follow it in the clause, whatever it breaks: its instruction, the sub-causes, and how many
words it takes. -/
def decodeAll (w : DWord) (rest : List DWord) : Dec Instr × Nat :=
  let opc := (w.extractLsb' 54 10).toNat
  if opc = 0x1D3 then let r := decRep w; (⟨r.bad, .repOp r.val⟩, 1)
  else if opc = 0x1D2 then
    let l := decLnest w (rest.getD 0 0) (rest.getD 1 0) (rest.getD 2 0)
    (⟨l.bad ++ l.val.viol, .lnest l.val⟩, 4)
  else match decodeOrdinary w (rest.getD 0 0) with
    | some x => (x, if x.val.usesLit then 2 else 1)
    | none => (⟨[], .unassignedOpcodeIssue w⟩, 1)

/-- The lowest of the sub-causes (R399). -/
def lowest : List Nat → Option Nat
  | [] => none
  | x :: xs => some (xs.foldl min x)

/-- The decoder: an instruction and its length in words, or the lowest sub-cause. A word with an unassigned opcode is the
step UNASSIGNED_OPCODE_ISSUE, which raises 0x010 (R164, R403). -/
def decode (w : DWord) (rest : List DWord) : Decoded :=
  let r := decodeAll w rest
  match lowest r.1.bad with
  | some n => .illegal n
  | none => .ok r.1.val r.2

/-! ## The encoder -/

/-- The fields of an ordinary instruction; none for rep, lnest and the events. -/
def Instr.fields : Instr → Option Fields
  | .iadd o => some (o.enc 0x002)
  | .iadd64 o => some (o.enc 0x003)
  | .isub o => some (o.enc 0x004)
  | .isub64 o => some (o.enc 0x005)
  | .imul o => some (o.enc 0x006)
  | .imul64 o => some (o.enc 0x007)
  | .imulh o => some (o.enc 0x008)
  | .imulh64 o => some (o.enc 0x009)
  | .imad o => some (o.enc 0x00A)
  | .imad64 o => some (o.enc 0x00B)
  | .idiv o => some (o.enc 0x00C)
  | .idiv64 o => some (o.enc 0x00D)
  | .irem o => some (o.enc 0x00E)
  | .irem64 o => some (o.enc 0x00F)
  | .iabs o => some (o.enc 0x010)
  | .iabs64 o => some (o.enc 0x011)
  | .ineg o => some (o.enc 0x012)
  | .ineg64 o => some (o.enc 0x013)
  | .imin o => some (o.enc 0x014)
  | .imin64 o => some (o.enc 0x015)
  | .imax o => some (o.enc 0x016)
  | .imax64 o => some (o.enc 0x017)
  | .andOp o => some (o.enc 0x018)
  | .andOp64 o => some (o.enc 0x019)
  | .orOp o => some (o.enc 0x01A)
  | .orOp64 o => some (o.enc 0x01B)
  | .xorOp o => some (o.enc 0x01C)
  | .xorOp64 o => some (o.enc 0x01D)
  | .andn o => some (o.enc 0x01E)
  | .andn64 o => some (o.enc 0x01F)
  | .notOp o => some (o.enc 0x020)
  | .notOp64 o => some (o.enc 0x021)
  | .shl o => some (o.enc 0x022)
  | .shl64 o => some (o.enc 0x023)
  | .shr o => some (o.enc 0x024)
  | .shr64 o => some (o.enc 0x025)
  | .sar o => some (o.enc 0x026)
  | .sar64 o => some (o.enc 0x027)
  | .rol o => some (o.enc 0x028)
  | .rol64 o => some (o.enc 0x029)
  | .popc o => some (o.enc 0x02A)
  | .popc64 o => some (o.enc 0x02B)
  | .clz o => some (o.enc 0x02C)
  | .clz64 o => some (o.enc 0x02D)
  | .ctz o => some (o.enc 0x02E)
  | .ctz64 o => some (o.enc 0x02F)
  | .brev o => some (o.enc 0x030)
  | .brev64 o => some (o.enc 0x031)
  | .bfx o => some (o.enc 0x032)
  | .bfx64 o => some (o.enc 0x033)
  | .bfi o => some (o.enc 0x034)
  | .bfi64 o => some (o.enc 0x035)
  | .selOp o => some (o.enc 0x036)
  | .selOp64 o => some (o.enc 0x037)
  | .icmp o => some (o.enc 0x038)
  | .icmp64 o => some (o.enc 0x039)
  | .movOp o => some (o.enc 0x03A)
  | .movOp64 o => some (o.enc 0x03B)
  | .movi o => some (o.enc 0x03C)
  | .movi64 o => some (o.enc 0x03D)
  | .fadd o => some (o.enc 0x040)
  | .fsub o => some (o.enc 0x041)
  | .fmul o => some (o.enc 0x042)
  | .ffma o => some (o.enc 0x043)
  | .fmin o => some (o.enc 0x044)
  | .fmax o => some (o.enc 0x045)
  | .fcmp o => some (o.enc 0x046)
  | .fclass o => some (o.enc 0x047)
  | .ffloor o => some (o.enc 0x048)
  | .fceil o => some (o.enc 0x049)
  | .ftrunc o => some (o.enc 0x04A)
  | .frint o => some (o.enc 0x04B)
  | .fscale o => some (o.enc 0x04C)
  | .frcp o => some (o.enc 0x04D)
  | .frsq o => some (o.enc 0x04E)
  | .fsqrt o => some (o.enc 0x04F)
  | .fex2 o => some (o.enc 0x050)
  | .flg2 o => some (o.enc 0x051)
  | .fsin o => some (o.enc 0x052)
  | .fcos o => some (o.enc 0x053)
  | .ftanh o => some (o.enc 0x054)
  | .hadd2 o => some (o.enc 0x055)
  | .hmul2 o => some (o.enc 0x056)
  | .hfma2 o => some (o.enc 0x057)
  | .cvt o => some (o.enc 0x080)
  | .qntE4m3 o => some (o.enc 0x081)
  | .qntE5m2 o => some (o.enc 0x082)
  | .qntE2m1 o => some (o.enc 0x083)
  | .qntI8 o => some (o.enc 0x084)
  | .qntT2 o => some (o.enc 0x085)
  | .dqnt o => some (o.enc 0x086)
  | .sacc o => some (o.enc 0x087)
  | .saccV o => some (o.enc 0x088)
  | .shfl o => some (o.enc 0x0C0)
  | .ballot o => some (o.enc 0x0C1)
  | .vote o => some (o.enc 0x0C2)
  | .bcast o => some (o.enc 0x0C3)
  | .red o => some (o.enc 0x0C4)
  | .scan o => some (o.enc 0x0C5)
  | .cmpst o => some (o.enc 0x0C6)
  | .expld o => some (o.enc 0x0C7)
  | .ld o => some (o.enc 0x100)
  | .st o => some (o.enc 0x101)
  | .ldk o => some (o.enc 0x102)
  | .stk o => some (o.enc 0x103)
  | .aadd o => some (o.enc 0x104)
  | .amin o => some (o.enc 0x105)
  | .amax o => some (o.enc 0x106)
  | .aand o => some (o.enc 0x107)
  | .aor o => some (o.enc 0x108)
  | .axor o => some (o.enc 0x109)
  | .axch o => some (o.enc 0x10A)
  | .acas o => some (o.enc 0x10B)
  | .fenceOp o => some (o.enc 0x10C)
  | .csub o => some (o.enc 0x140)
  | .cperm o => some (o.enc 0x141)
  | .cseal o => some (o.enc 0x142)
  | .cunseal o => some (o.enc 0x143)
  | .cbale o => some (o.enc 0x144)
  | .ctest o => some (o.enc 0x145)
  | .cget o => some (o.enc 0x146)
  | .cnull o => some (o.enc 0x148)
  | .cdeleg o => some (o.enc 0x147)
  | .cpy o => some (o.enc 0x180)
  | .cpyCmd o => some (o.enc 0x180)
  | .gat o => some (o.enc 0x181)
  | .sct o => some (o.enc 0x182)
  | .mmaE4m3 o => some (o.enc 0x183)
  | .mmaE5m2 o => some (o.enc 0x184)
  | .mmaE2m1 o => some (o.enc 0x185)
  | .mmaBf16 o => some (o.enc 0x186)
  | .mmaI8 o => some (o.enc 0x187)
  | .mmaT8 o => some (o.enc 0x188)
  | .mmacE4m3 o => some (o.enc 0x189)
  | .mmacE5m2 o => some (o.enc 0x18A)
  | .mmacE2m1 o => some (o.enc 0x18B)
  | .mmacBf16 o => some (o.enc 0x18C)
  | .mmacI8 o => some (o.enc 0x18D)
  | .mmacT8 o => some (o.enc 0x18E)
  | .aclr o => some (o.enc 0x18F)
  | .ald o => some (o.enc 0x190)
  | .ast o => some (o.enc 0x191)
  | .clx o => some (o.enc 0x192)
  | .nmc o => some (o.enc 0x193)
  | .gatm o => some (o.enc 0x194)
  | .sig o => some (o.enc 0x195)
  | .wsig o => some (o.enc 0x196)
  | .waitc o => some (o.enc 0x197)
  | .revoke o => some (o.enc 0x198)
  | .stage o => some (o.enc 0x199)
  | .wb o => some (o.enc 0x19A)
  | .bra o => some (o.enc 0x1C0)
  | .brc o => some (o.enc 0x1C1)
  | .brx o => some (o.enc 0x1C2)
  | .callOp o => some (o.enc 0x1C3)
  | .calli o => some (o.enc 0x1C4)
  | .ret c => some (c.enc 0x1C5)
  | .regionOp o => some (o.enc 0x1C6)
  | .yieldOp c => some (c.enc 0x1C7)
  | .fuse c => some (c.enc 0x1C8)
  | .spawn o => some (o.enc 0x1C9)
  | .endOp c => some (c.enc 0x1CA)
  | .bar o => some (o.enc 0x1CB)
  | .grow o => some (o.enc 0x1CC)
  | .shrink o => some (o.enc 0x1CD)
  | .launchOp o => some (o.enc 0x1CE)
  | .qpush o => some (o.enc 0x1CF)
  | .qpop o => some (o.enc 0x1D0)
  | .qslots o => some (o.enc 0x1D1)
  | .lnest _ => none
  | .repOp _ => none
  | .nopOp c => some (c.enc 0x1D4)
  | .trapOp o => some (o.enc 0x1D5)
  | .sysrd o => some (o.enc 0x1D6)
  | .syswr o => some (o.enc 0x1D7)
  | .unassignedOpcodeIssue _ => none
  | .clauseWaitMet _ => none
  | .seraiLaunchFull _ => none
  | .seraiTimer _ => none
  | .seraiLaunchDrained _ => none
  | .seraiLaunchCapacity _ => none
  | .convoyAged _ => none
  | .issueCounterRoom _ => none
  | .localAccessResume _ => none
  | .engineAccept _ => none
  | .commandBegin _ => none
  | .blockTakeRetry _ => none
  | .copyComplete _ _ => none
  | .gatherScatterComplete _ _ => none
  | .matrixComplete _ => none
  | .collectiveComplete _ => none
  | .nearMemoryComplete _ _ => none
  | .atomicSignalComplete _ => none
  | .wsigReread _ => none
  | .wsigTimeout _ => none
  | .waitcRelease _ => none
  | .fenceDone _ => none
  | .qpushRetry _ => none
  | .qpopRetry _ => none
  | .growGrant _ => none
  | .growDeadlockEvict _ => none
  | .returnFrameTimeout _ => none
  | .replayWaitExpiry _ => none
  | .waybillPop _ => none
  | .anvilSpecialiseDone _ _ => none
  | .anvilBudgetExpiry _ _ => none
  | .placement _ => none
  | .stagingComplete _ => none
  | .workgroupComplete _ => none
  | .wbackComplete _ => none
  | .deadlineExpiry _ => none
  | .yieldRequest _ => none
  | .yieldDeadlineExpiry _ => none
  | .workgroupSaveDone _ => none
  | .workgroupRestore _ => none
  | .migrationStart _ => none
  | .migrationRetry _ => none
  | .migrationComplete _ => none
  | .logfullExpiry _ => none
  | .softError _ _ => none
  | .hardFailure _ => none
  | .pseudoChannelSpare _ _ _ => none
  | .sweepBeginTimer _ => none
  | .sweepEngineFinish _ _ => none
  | .passClose => none
  | .recallReceive _ => none
  | .recallAckReceive _ _ => none
  | .passOpenTimer _ => none
  | .baleReceive _ => none
  | .remoteCommandReceive _ => none
  | .remoteAccessReceive _ => none
  | .departureNoticeReceive _ _ _ => none
  | .flitTagFail _ _ => none
  | .linkTraining _ _ _ => none
  | .retrainTimeout _ => none
  | .unreachableTimeout _ => none
  | .routemSwitch _ _ => none
  | .bankSetIdleP1 _ => none
  | .bankSetIdleP2 _ => none
  | .bankSetWakeDone _ => none
  | .poolDirtyTimeout _ => none
  | .backInvalidateSnoop _ => none
  | .throttlePeriodEnd _ => none
  | .scrubPage _ => none
  | .pageZeroFillDone _ => none
  | .hostWriteReceive _ _ => none
  | .hostReadReceive _ _ => none
  | .apertureAccess _ => none
  | .counterRead _ _ _ => none
  | .registerWrite _ _ => none
  | .bindRequest _ => none
  | .extinvWrite _ => none
  | .extinvDone => none
  | .mscMaskWrite _ _ => none
  | .mscreclWrite _ => none
  | .mscreclDone => none
  | .mscMonitorEnable _ _ => none
  | .pmapAllocWrite _ _ => none
  | .dbgctlHalt _ => none
  | .dbgctlStep _ => none
  | .dbgctlRun _ => none
  | .formReq _ => none
  | .grantReq _ => none
  | .fenceRequest _ => none
  | .releaseReq _ => none
  | .stopReq _ => none
  | .resetReq _ => none
  | .departReq _ => none
  | .routeReq _ => none
  | .unlockReq _ => none
  | .relockReq _ => none
  | .attestReq _ => none
  | .nonceReq _ => none
  | .imageReq _ => none
  | .modeReq _ => none
  | .consentReq _ => none
  | .withdrawReq _ => none
  | .coldReset _ => none
  | .clockChange _ _ => none
  | .thermalStop _ => none
  | .stopTimeout _ => none
  | .spClockGate _ => none
  | .spRetention _ => none
  | .pcieLinkDown => none
  | .pcieLinkUp => none
  | .forwardedQueueAckReceive _ _ => none
  | .departureNoticeAckReceive _ _ => none
  | .remoteCancelReceive _ => none
  | .remoteCancelAckReceive _ => none
  | .podBarrierArrivalReceive _ _ _ => none
  | .podCollectiveContributionReceive _ => none

/-- The words of an instruction, with its literal when an operand names it; nothing for an event. -/
def encode (i : Instr) : List DWord := match i with
  | .lnest o => o.enc
  | .repOp o => [o.enc]
  | .unassignedOpcodeIssue w => [w]
  | _ => match i.fields, i.ctl with
    | some f, some c => if i.usesLit then [f.toWord, c.lit] else [f.toWord]
    | _, _ => []

/-- Whether a constructor stands for instruction words. -/
def Instr.isWord (i : Instr) : Bool := i.ctl.isSome || (match i with
  | .lnest _ | .repOp _ => true
  | _ => false)

/-! ## Classes of instruction -/

/-- The engine class whose commands an instruction issues (R167). -/
def Instr.issues : Instr → Option Cls
  | .iadd _ => none
  | .iadd64 _ => none
  | .isub _ => none
  | .isub64 _ => none
  | .imul _ => none
  | .imul64 _ => none
  | .imulh _ => none
  | .imulh64 _ => none
  | .imad _ => none
  | .imad64 _ => none
  | .idiv _ => none
  | .idiv64 _ => none
  | .irem _ => none
  | .irem64 _ => none
  | .iabs _ => none
  | .iabs64 _ => none
  | .ineg _ => none
  | .ineg64 _ => none
  | .imin _ => none
  | .imin64 _ => none
  | .imax _ => none
  | .imax64 _ => none
  | .andOp _ => none
  | .andOp64 _ => none
  | .orOp _ => none
  | .orOp64 _ => none
  | .xorOp _ => none
  | .xorOp64 _ => none
  | .andn _ => none
  | .andn64 _ => none
  | .notOp _ => none
  | .notOp64 _ => none
  | .shl _ => none
  | .shl64 _ => none
  | .shr _ => none
  | .shr64 _ => none
  | .sar _ => none
  | .sar64 _ => none
  | .rol _ => none
  | .rol64 _ => none
  | .popc _ => none
  | .popc64 _ => none
  | .clz _ => none
  | .clz64 _ => none
  | .ctz _ => none
  | .ctz64 _ => none
  | .brev _ => none
  | .brev64 _ => none
  | .bfx _ => none
  | .bfx64 _ => none
  | .bfi _ => none
  | .bfi64 _ => none
  | .selOp _ => none
  | .selOp64 _ => none
  | .icmp _ => none
  | .icmp64 _ => none
  | .movOp _ => none
  | .movOp64 _ => none
  | .movi _ => none
  | .movi64 _ => none
  | .fadd _ => none
  | .fsub _ => none
  | .fmul _ => none
  | .ffma _ => none
  | .fmin _ => none
  | .fmax _ => none
  | .fcmp _ => none
  | .fclass _ => none
  | .ffloor _ => none
  | .fceil _ => none
  | .ftrunc _ => none
  | .frint _ => none
  | .fscale _ => none
  | .frcp _ => none
  | .frsq _ => none
  | .fsqrt _ => none
  | .fex2 _ => none
  | .flg2 _ => none
  | .fsin _ => none
  | .fcos _ => none
  | .ftanh _ => none
  | .hadd2 _ => none
  | .hmul2 _ => none
  | .hfma2 _ => none
  | .cvt _ => none
  | .qntE4m3 _ => none
  | .qntE5m2 _ => none
  | .qntE2m1 _ => none
  | .qntI8 _ => none
  | .qntT2 _ => none
  | .dqnt _ => none
  | .sacc _ => some .emx
  | .saccV _ => some .emx
  | .shfl _ => none
  | .ballot _ => none
  | .vote _ => none
  | .bcast _ => none
  | .red _ => none
  | .scan _ => none
  | .cmpst _ => none
  | .expld _ => none
  | .ld _ => none
  | .st _ => none
  | .ldk _ => none
  | .stk _ => none
  | .aadd _ => none
  | .amin _ => none
  | .amax _ => none
  | .aand _ => none
  | .aor _ => none
  | .axor _ => none
  | .axch _ => none
  | .acas _ => none
  | .fenceOp _ => none
  | .csub _ => none
  | .cperm _ => none
  | .cseal _ => none
  | .cunseal _ => none
  | .cbale _ => none
  | .ctest _ => none
  | .cget _ => none
  | .cnull _ => none
  | .cdeleg _ => none
  | .cpy _ => some .ecp
  | .cpyCmd _ => some .ecp
  | .gat _ => some .egs
  | .sct _ => some .egs
  | .mmaE4m3 _ => some .emx
  | .mmaE5m2 _ => some .emx
  | .mmaE2m1 _ => some .emx
  | .mmaBf16 _ => some .emx
  | .mmaI8 _ => some .emx
  | .mmaT8 _ => some .emx
  | .mmacE4m3 _ => some .emx
  | .mmacE5m2 _ => some .emx
  | .mmacE2m1 _ => some .emx
  | .mmacBf16 _ => some .emx
  | .mmacI8 _ => some .emx
  | .mmacT8 _ => some .emx
  | .aclr _ => some .emx
  | .ald _ => some .emx
  | .ast _ => some .emx
  | .clx _ => some .ecl
  | .nmc _ => some .enm
  | .gatm _ => some .eat
  | .sig _ => some .eat
  | .wsig _ => none
  | .waitc _ => none
  | .revoke _ => none
  | .stage _ => some .ecp
  | .wb _ => some .ecp
  | .bra _ => none
  | .brc _ => none
  | .brx _ => none
  | .callOp _ => none
  | .calli _ => none
  | .ret _ => none
  | .regionOp _ => none
  | .yieldOp _ => none
  | .fuse _ => none
  | .spawn _ => none
  | .endOp _ => none
  | .bar _ => none
  | .grow _ => none
  | .shrink _ => none
  | .launchOp _ => none
  | .qpush _ => none
  | .qpop _ => none
  | .qslots _ => none
  | .lnest _ => none
  | .repOp _ => none
  | .nopOp _ => none
  | .trapOp _ => none
  | .sysrd _ => none
  | .syswr _ => none
  | .unassignedOpcodeIssue _ => none
  | .clauseWaitMet _ => none
  | .seraiLaunchFull _ => none
  | .seraiTimer _ => none
  | .seraiLaunchDrained _ => none
  | .seraiLaunchCapacity _ => none
  | .convoyAged _ => none
  | .issueCounterRoom _ => none
  | .localAccessResume _ => none
  | .engineAccept _ => none
  | .commandBegin _ => none
  | .blockTakeRetry _ => none
  | .copyComplete _ _ => none
  | .gatherScatterComplete _ _ => none
  | .matrixComplete _ => none
  | .collectiveComplete _ => none
  | .nearMemoryComplete _ _ => none
  | .atomicSignalComplete _ => none
  | .wsigReread _ => none
  | .wsigTimeout _ => none
  | .waitcRelease _ => none
  | .fenceDone _ => none
  | .qpushRetry _ => none
  | .qpopRetry _ => none
  | .growGrant _ => none
  | .growDeadlockEvict _ => none
  | .returnFrameTimeout _ => none
  | .replayWaitExpiry _ => none
  | .waybillPop _ => none
  | .anvilSpecialiseDone _ _ => none
  | .anvilBudgetExpiry _ _ => none
  | .placement _ => none
  | .stagingComplete _ => none
  | .workgroupComplete _ => none
  | .wbackComplete _ => none
  | .deadlineExpiry _ => none
  | .yieldRequest _ => none
  | .yieldDeadlineExpiry _ => none
  | .workgroupSaveDone _ => none
  | .workgroupRestore _ => none
  | .migrationStart _ => none
  | .migrationRetry _ => none
  | .migrationComplete _ => none
  | .logfullExpiry _ => none
  | .softError _ _ => none
  | .hardFailure _ => none
  | .pseudoChannelSpare _ _ _ => none
  | .sweepBeginTimer _ => none
  | .sweepEngineFinish _ _ => none
  | .passClose => none
  | .recallReceive _ => none
  | .recallAckReceive _ _ => none
  | .passOpenTimer _ => none
  | .baleReceive _ => none
  | .remoteCommandReceive _ => none
  | .remoteAccessReceive _ => none
  | .departureNoticeReceive _ _ _ => none
  | .flitTagFail _ _ => none
  | .linkTraining _ _ _ => none
  | .retrainTimeout _ => none
  | .unreachableTimeout _ => none
  | .routemSwitch _ _ => none
  | .bankSetIdleP1 _ => none
  | .bankSetIdleP2 _ => none
  | .bankSetWakeDone _ => none
  | .poolDirtyTimeout _ => none
  | .backInvalidateSnoop _ => none
  | .throttlePeriodEnd _ => none
  | .scrubPage _ => none
  | .pageZeroFillDone _ => none
  | .hostWriteReceive _ _ => none
  | .hostReadReceive _ _ => none
  | .apertureAccess _ => none
  | .counterRead _ _ _ => none
  | .registerWrite _ _ => none
  | .bindRequest _ => none
  | .extinvWrite _ => none
  | .extinvDone => none
  | .mscMaskWrite _ _ => none
  | .mscreclWrite _ => none
  | .mscreclDone => none
  | .mscMonitorEnable _ _ => none
  | .pmapAllocWrite _ _ => none
  | .dbgctlHalt _ => none
  | .dbgctlStep _ => none
  | .dbgctlRun _ => none
  | .formReq _ => none
  | .grantReq _ => none
  | .fenceRequest _ => none
  | .releaseReq _ => none
  | .stopReq _ => none
  | .resetReq _ => none
  | .departReq _ => none
  | .routeReq _ => none
  | .unlockReq _ => none
  | .relockReq _ => none
  | .attestReq _ => none
  | .nonceReq _ => none
  | .imageReq _ => none
  | .modeReq _ => none
  | .consentReq _ => none
  | .withdrawReq _ => none
  | .coldReset _ => none
  | .clockChange _ _ => none
  | .thermalStop _ => none
  | .stopTimeout _ => none
  | .spClockGate _ => none
  | .spRetention _ => none
  | .pcieLinkDown => none
  | .pcieLinkUp => none
  | .forwardedQueueAckReceive _ _ => none
  | .departureNoticeAckReceive _ _ => none
  | .remoteCancelReceive _ => none
  | .remoteCancelAckReceive _ => none
  | .podBarrierArrivalReceive _ _ _ => none
  | .podCollectiveContributionReceive _ => none

/-- The clause-ending instructions (R147). -/
def Instr.endsClause : Instr → Bool
  | .bra _ | .brc _ | .brx _ | .callOp _ | .calli _ | .ret _ | .fuse _ | .endOp _ | .yieldOp _ | .bar _ | .grow _ | .trapOp _ => true
  | _ => false

/-- The region-ending instructions (R147). -/
def Instr.endsRegion : Instr → Bool
  | .aadd _ | .amin _ | .amax _ | .aand _ | .aor _ | .axor _ | .axch _ | .acas _ | .gatm _ | .sig _ | .qpush _ | .launchOp _ => true
  | _ => false

/-! ## Clauses (R143–R148, R400) -/

/-- The header's fields. -/
def Header.ofWord (w : DWord) : Header where
  count := w.extractLsb' 52 4
  mix := (w.extractLsb' 46 6).reverse
  wacls := w.extractLsb' 43 3
  wathr := w.extractLsb' 37 6
  wbcls := w.extractLsb' 34 3
  wbthr := w.extractLsb' 28 6
  yp := w.getLsbD 27
  re := w.getLsbD 26
  te := w.getLsbD 25

/-- The number of a class, 0 for ecp to 5 for eat. -/
def Cls.idx : Cls → Nat
  | .ecp => 0
  | .egs => 1
  | .emx => 2
  | .ecl => 3
  | .enm => 4
  | .eat => 5

/-- The words after a header (R144). -/
def Header.words (h : Header) : Nat := h.count.toNat + 1

/-- A wait condition breaks R145. -/
def waitBad (cls : BitVec 3) (thr : BitVec 6) : Bool := cls == 7 || (cls == 0 && thr != 0)

/-- Sub-causes 0x001 to 0x004 of a header word alone; `entry` when it is a kernel's entry clause or follows a region-ending
instruction, where RE (and TE at an entry) must be set. -/
def headerViol (w : DWord) (entry after : Bool) : List Nat :=
  let h := Header.ofWord w
  viol (w.extractLsb' 56 8 != 0xFE) 0x001 ++ viol (w.extractLsb' 0 25 != 0) 0x002
    ++ viol (waitBad h.wacls h.wathr || waitBad h.wbcls h.wbthr) 0x003
    ++ viol ((h.te && !h.re) || (entry && !(h.re && h.te)) || (after && !h.re)) 0x004

/-- Sub-causes 0x005 to 0x008 of the words of a clause. `fuel` bounds the walk. -/
def wordsViol (h : Header) : Nat → List DWord → List Nat
  | 0, _ => []
  | _, [] => []
  | fuel + 1, w :: ws =>
    let r := decodeAll w ws
    let i := r.1.val
    viol (match i with | .yieldOp _ => !h.yp | _ => false) 0x005
      ++ viol (match i.issues with | some c => !h.mix.getLsbD c.idx | none => false) 0x006
      ++ viol ((i.endsClause || i.endsRegion) && decide (ws.length + 1 > r.2)) 0x007
      ++ viol (decide (r.2 > ws.length + 1) || (match i with | .repOp _ => ws.isEmpty | _ => false)) 0x008
      ++ wordsViol h fuel (ws.drop (r.2 - 1))

/-- Every sub-cause of a clause: its header, then its words (R400). -/
def clauseViol (w : DWord) (ws : List DWord) (entry after : Bool) : List Nat :=
  let hv := headerViol w entry after
  if w.extractLsb' 56 8 != 0xFE then hv else hv ++ wordsViol (Header.ofWord w) 16 ws

/-! ## Repeats (R159, R406) -/

/-- A source field stepped j times, in its own class; none when it leaves it. -/
def stepSrc (n : BitVec 9) (st : BitVec 5) (j : Nat) : Option (BitVec 9) :=
  let v : Int := n.toNat + j * st.toInt
  if n.toNat < 0x100 then (if 0 ≤ v ∧ v < 0x100 then some (BitVec.ofNat 9 v.toNat) else none)
  else if 0x140 ≤ n.toNat ∧ n.toNat < 0x180 then (if 0x140 ≤ v ∧ v < 0x180 then some (BitVec.ofNat 9 v.toNat) else none)
  else some n

/-- Whether an opcode has format I (R166). -/
def formatI (opc : Nat) : Bool :=
  opc == 0x3C || opc == 0x3D || opc == 0x1C0 || opc == 0x1C1 || opc == 0x1C3 || opc == 0x1C9

/-- Whether a source field names a register, and so steps (R159). -/
def regName (n : BitVec 9) : Bool := decide (n.toNat < 0x100) || (decide (0x140 ≤ n.toNat) && decide (n.toNat < 0x180))
/-- The prefixed word at issue j (R159); none when a stepped field leaves its class. A latch destination is not a register
name of the table and does not step. -/
def stepWord (r : RepOp) (w : DWord) (j : Nat) : Option DWord :=
  let f := Fields.ofWord w
  let d : Int := f.dst.toNat + j * r.std.toInt
  let d' := if f.wbs = 1 then some f.dst else if 0 ≤ d ∧ d < 0x100 then some (BitVec.ofNat 8 d.toNat) else none
  match d', stepSrc f.a r.sta j, stepSrc f.b r.stb j, (if formatI f.opc.toNat then some f.cc else stepSrc f.cc r.stc j) with
  | some d, some a, some b, some c => some { f with dst := d, a := a, b := b, cc := c }.toWord
  | _, _, _, _ => none

/-- A word with one of its register fields (0 DST, 1 SRCA, 2 SRCB, 3 SRCC) alone, the others 0, which every class admits; the SRCC of
format I belongs to the immediate and stays. -/
def onlyField (f : Fields) (k : Nat) : Fields :=
  { f with dst := if k = 0 then f.dst else 0, a := if k = 1 then f.a else 0, b := if k = 2 then f.b else 0
           cc := if formatI f.opc.toNat || k = 3 then f.cc else 0 }
/-- How many rules of the operand fields a word breaks (0x012, 0x014, 0x015). -/
def fieldViols (f : Fields) (lit : DWord) : Nat :=
  ((decodeAll f.toWord [lit]).1.bad.filter fun n => n == 0x012 || n == 0x014 || n == 0x015).length
/-- Whether a field of a word breaks the class or the alignment that the instruction gives it, whatever the other fields hold. An unused
field that a step makes nonzero counts among them (the model's reading, log entry 17). -/
def stepClassBad (w lit : DWord) (k : Nat) : Bool :=
  decide (fieldViols (onlyField (Fields.ofWord w) 4) lit < fieldViols (onlyField (Fields.ofWord w) k) lit)
/-- Whether a repeat steps a field of the prefixed word: its step is not 0, and the field names a register (R159). -/
def RepOp.steps (r : RepOp) (f : Fields) : Nat → Bool
  | 0 => r.std != 0 && f.wbs == 0
  | 1 => r.sta != 0 && regName f.a
  | 2 => r.stb != 0 && regName f.b
  | _ => r.stc != 0 && !formatI f.opc.toNat && regName f.cc

/-- `rep` misuse (R406): what it prefixes, STC on format I, and the stepped fields of every issue. -/
def repMisuse (r : RepOp) (w lit : DWord) : Bool :=
  let i := (decodeAll w [lit]).1.val
  (match i with | .repOp _ => true | .lnest _ => true | _ => false) || i.endsClause || i.endsRegion
    || (formatI (Fields.ofWord w).opc.toNat && r.stc != 0)
    || ((List.range (r.cnt.toNat + 1)).any fun j => match stepWord r w j with
          | some w' => (List.range 4).any fun k => r.steps (Fields.ofWord w) k && stepClassBad w' lit k
          | none => true)

/-! ## The opcode table's words -/

/-- The decoder on a row's word: bits 63:0 are the first word, the bits above follow as further words (R143, R153, R161). -/
def decodeTableWord (_nbits w : Nat) : Option Instr :=
  match decode (BitVec.ofNat 64 w) [BitVec.ofNat 64 (w / 2 ^ 64), BitVec.ofNat 64 (w / 2 ^ 128), BitVec.ofNat 64 (w / 2 ^ 192)] with
  | .ok i _ => some i
  | .illegal _ => none

end Sys2Proof
end

