-- ==== Sys2Proof/Config.lean ====
section
/-! DEFINITION. The free values of the package: constants without a body. The spec leaves each of them open, so
nothing in Lean can evaluate one or prove a value of it, and a claim that mentions one holds whatever it is. -/

namespace Sys2Proof.Config

/-- Log entry 10. What a half of a latch reads in a lane where no earlier instruction of the clause wrote it (R152): the n-th such
reading. -/
opaque freeLatch : Nat → Word
/-- Log entry 3. Core, memory-controller and port cycles that pass in the n-th step, for the clock domain numbered d
(0–3 core domains, 4–7 memory controllers, 8 PCIe port, 9–12 CXL ports, 13–44 Route ports): latencies are not
architected (R215, R286). -/
opaque elapsed : Nat → Nat → Nat
/-- Log entry 8. SHA-512 of a byte string, as attestation, tokens and the Anvil key use it (R293, R340, R344). -/
opaque sha512 : List Byte → BitVec 512
/-- Log entry 66. The loops that the Anvil unrolls in the kernel of a key, in order: the number of the clause that closes the loop, and its
trip count, as it follows from static values by marked instructions (R157, R295). -/
opaque unrolls : BitVec 256 → List (Nat × Nat)
/-- Log entry 66. The address in the backing store at which the residual code of a key holds the clause of an original address (R296). -/
opaque residualAt : BitVec 256 → Nat → BitVec 52
/-- Log entry 8. The RSA-4096 signature under the device identity key over a hash (R344). -/
opaque deviceSign : BitVec 512 → BitVec 4096
/-- Log entry 8. Whether a debug key's certificate chain leads to Teastund's debug root and the token's signature verifies
under the chain's last key; the arguments are the token and the chain (R340). -/
opaque tokenVerifies : List Byte → List Byte → Bool
/-- Log entry 8. SHA-512 of the public key of the last certificate of a chain (R340). -/
opaque chainKeyHash : List Byte → BitVec 512
/-- Log entry 8. SHA-512 of the device identity public key (R340, R344). -/
opaque deviceHash : BitVec 512
/-- Log entry 8. The bytes of a firmware image's header, of its version, SVN, length and hash: their places are not given; whether a
signature of a hash verifies under a public key; and the root-key hash fused at manufacture (R367). -/
opaque imageHeader : BitVec 32 → BitVec 32 → BitVec 64 → BitVec 512 → List Byte
opaque imageVerifies : List Byte → BitVec 512 → BitVec 4096 → Bool
opaque rootKeyHash : BitVec 512
/-- Log entry 8. Byte a of the PCIe function's configuration space, as PCIe gives it, at the n-th read (R349, R366). -/
opaque configByte : Nat → Nat → Byte
/-- Log entry 8. The n-th nonce of the management controller (R316, NONCE). -/
opaque nonce : Nat → BitVec 512
/-- Log entry 8. The ciphertext byte of a sealed temper image: the n-th seal, byte index, plaintext byte (R335, R347). -/
opaque sealByte : Nat → Nat → Byte → Byte
/-- Log entry 8. The device identity certificate chain read at BAR0 + 0x140_0000 (R368), byte by byte. -/
opaque certByte : Nat → Byte
/-- Log entry 8. Bytes 2–15 of an attestation report: the fields of R344 and their order are given, their places are not. -/
opaque attestHead : Nat → BitVec 112
/-- Log entry 10. Bytes of records that follow the windows and tiles in an image in spawn memory, and byte i of the n-th (R310, R347). -/
opaque imageTail : BitVec 32
opaque imageByte : Nat → Nat → Byte
/-- Log entry 8. Link training: whether a certificate chain leads to Teastund's device root, whether a signature of a nonce verifies under
the chain's key, the pair key that a port generates (the n-th), and what decrypting one that the peer sends gives (R364). -/
opaque chainVerifies : List Byte → Bool
opaque nonceVerifies : List Byte → BitVec 512 → BitVec 4096 → Bool
opaque pairKey : Nat → BitVec 256
opaque openKey : BitVec 4096 → BitVec 256
/-- Log entry 8. A pair key under the identity key of a certificate chain, by RSA-OAEP (R364). -/
opaque sealKey : List Byte → BitVec 256 → BitVec 4096
/-- Log entry 48. The index of the uniform snapshot that a fibre's spawn record names, and the n-th of its return entries at or above RSD:
the argument names the fibre (R87). -/
opaque unifIndex : Nat → BitVec 24
opaque staleEntry : Nat → Nat → BitVec 52
/-- Log entry 8. The placement of an image in firmware memory: the argument names the workgroup or, from 2^32 upward, the SP (R111, R116). -/
opaque firmwarePlace : Nat → Nat
/-- Log entry 8. Firmware's Anvil revision ANVREV (R293). -/
opaque anvRev : BitVec 8
/-- Log entry 13. The n-th reading of a power, temperature or clock sensor word (R336, R337). -/
opaque sensor : Nat → BitVec 63
/-- Log entry 10. The n-th reading of a firmware register 0x800–0xFFF or another field whose value is firmware's own. -/
opaque firmwareValue : Nat → DWord
/-- Log entry 10. The n-th value of a result or field that the spec leaves open and that no other constant here names. -/
opaque freeWord : Nat → DWord

/-- Log entry 9. What a peer package answers to the n-th forwarded use: 0, or the cause it refuses it with (R65). -/
opaque peerCause : Nat → BitVec 5
/-- Log entry 9. Byte i of what the n-th forwarded read returns. -/
opaque peerByte : Nat → Nat → Byte
/-- Log entry 9. Whether the n-th forwarded use ends with LINE_LOST (R436, R459). -/
opaque peerLost : Nat → Bool
/-- Log entry 18. The first address of the DRAM row that holds an HBM line: the spec gives no row size (R334). -/
opaque rowOf : Nat → Nat
/-- Log entry 18. How many row activations the n-th access to a line takes: open rows are not architected (R333, R334). -/
opaque activations : Nat → Nat
/-- Log entry 13. How many correctable errors of the PCIe link come in the n-th step (R337: group 4 n7). -/
opaque pcieErrors : Nat → Nat
/-- Log entry 10. Which convoy's or workgroup's value of a register a host access at an SP reaches: the n-th such access (R351). -/
opaque hostConvoy : Nat → Nat
/-- Log entry 82. Whether an SP that may be put off is put off in the n-th step (R319). -/
opaque putsOff : Nat → Bool
/-- Log entry 13. The flits by which a counter of flits rises at a message: the argument names the counter and what it held (R337: group
5 n0, n1): flit formats are not architected. -/
opaque flits : Nat → Nat → BitVec 32

/-- Log entry 10. The OP byte that a command slot shows for an operation without a block form: 0 stage, 1 wb, 2 mma, 3 mmac, 4 aclr,
5 ald, 6 ast, 7 sacc, 8 sacc.v (R249 gives a slot the layout of a block, R246 numbers seven operations). -/
opaque slotOp : Nat → Nat
/-- Log entry 10. The parameter granule and LENGTH that a slot shows for such an operation, of the parameters read at issue: the spec
gives them no layout (R249). -/
opaque slotPars : Nat → List Word → BitVec 128
opaque slotLen : Nat → List Word → Word

/-- Log entry 5. How many of the units that are left a command still performs when its cancellation reaches it: the argument names the
cancellation, and the units left (R431, R37). -/
opaque cancelAt : Nat → Nat → Nat

/-- Log entry 8. What decrypting under key r, at a block's window address, makes of the ciphertext of a 16-byte block that was written
under key w: the arguments are w, r, the address and the block (R322, R357). -/
opaque poolCipher : Nat → Nat → Nat → BitVec 128 → BitVec 128

/-- Log entry 6. How many of the oldest writes in the store queues are performed in the n-th step (R125). -/
opaque drains : Nat → Nat
/-- Log entry 6. Whether a read by another core's engine returns the word behind the tile buffer: the argument names the read and the
word (R133). -/
opaque tileOld : Nat → Bool

end Sys2Proof.Config
end

