-- ==== Sys2Proof/Machine/State.lean ====
section
/-! DEFINITION. The state of one package as plain data, the reasons a step can stop, and the state after cold reset. Memory of
every window, register rows and accumulator words stand in ONE table of bytes under their physical addresses (R15, R19). -/

namespace Sys2Proof.Machine

/-! ## Capabilities and uniform state -/

/-- A capability: 128 bits and its tag (R45). -/
structure Cap where
  bits : BitVec 128 := 0
  tag : Bool := false
  deriving DecidableEq, Repr

/-- The uniform state of a convoy, and a uniform snapshot (R72, R82): s registers (unlisted 0), ks tags, q, MXSEQ (R245). -/
structure Unif where
  s : Tbl Word := []
  kt : BitVec 16 := 0
  q : BitVec 4 := 0
  mxseq : BitVec 9 := 0
  deriving DecidableEq, Repr

/-- Six engine counters, 6 bits each (R78). -/
structure Counters where
  ecp : BitVec 6 := 0
  egs : BitVec 6 := 0
  emx : BitVec 6 := 0
  ecl : BitVec 6 := 0
  enm : BitVec 6 := 0
  eat : BitVec 6 := 0
  deriving DecidableEq, Repr

/-! ## Fibres, serais and convoys (04) -/

/-- A fibre (R72, R87). `rstk` are the return entries on chip, newest first; `frames` those spilled, newest first (R88).
`rwsize` is WSIZE at the region entry (R308), `ordn` the ordinal of its next logged event (R389), `lookup` whether logged
events are still looked up after a rollback (R391), `clxs` how many collectives it has issued since the region entry (R432), `pops` how many times it has executed `qpop` since the region entry, `popped` the records those delivered (R377), `mx` the matrix commands
it has issued and not observed complete, the latest first (R129, R133), `temper` whether its latest region entry has still to count as
one at its clause (R97, R146, R244), `iters` the iteration vector with which it left its convoy and `riters` that of its region entry, as in a
convoy (R296). `born` is its own name when no re-execution created it (R432); `began`: it has entered a region; `entered`: it has
entered the region of the clause at its PC, and does not enter it again there (R95). -/
structure Fibre where
  wg : Nat
  fidx : Nat
  spn : Nat
  lane : Nat
  wbase : Nat
  wsize : Nat
  pc : Addr
  pred : BitVec 8 := 0
  rstk : List Addr := []
  frames : List Addr := []
  cnt : Counters := {}
  ref : BitVec 6 := 0
  fpstat : BitVec 8 := 0
  regpc : Addr
  regcnt : BitVec 16 := 0
  rwsize : Nat
  replay : Nat := 0
  ordn : Nat := 0
  lookup : Bool := false
  clxs : Nat := 0
  born : Nat := 0
  pops : Nat := 0
  popped : Tbl (List (BitVec 128 × Bool)) := []
  mx : List Nat := []
  temper : Bool := false
  iters : List (Addr × Nat) := []
  riters : List (Addr × Nat) := []
  began : Bool := false
  entered : Bool := false
  unif : Unif := {}
  deriving DecidableEq, Repr

/-- A serai (R83): its key, hints S (none without a hint) and T, and the waiting fibres with the core cycle of arrival, oldest first: before
cycle 0 for one that waited on another die before it was moved (R12). -/
structure Serai where
  spn : Nat
  wg : Nat
  entry : Addr
  size : Option Nat
  timer : Nat
  opened : Nat
  fibres : List (Nat × Int) := []
  closing : Bool := false
  deriving DecidableEq, Repr

/-- A fibre waiting outside every serai for room (R83, Capacity): its name, entry address and arrival. -/
structure Outside where
  fib : Nat
  entry : Addr
  arrived : Int
  deriving DecidableEq, Repr

/-- A wait on a word of memory (R265): address, condition, value, acquire, destination, timeout code, start. -/
structure WsigWait where
  addr : Addr
  remote : Option Cap
  cc : WCC
  v : Word
  acq : Bool
  q : BitVec 2
  tmo : BitVec 4
  since : Nat
  words : Nat
  deriving DecidableEq, Repr

/-- A queue operation under way (R277, R278): `qpush` or `launch`, or `qpop`; the record or buffer of n slots; the first slot of its
reservation once it has one, and whether the record it then holds is to be delivered. -/
structure QueueWait where
  push : Bool
  nb : Bool
  launch : Bool
  kq : Cap
  kr : Cap
  off : Nat
  n : Nat
  q : Option (BitVec 2)
  start : Option Nat := none
  deliver : Bool := true
  words : Nat
  deriving DecidableEq, Repr

/-- What a forwarded queue instruction awaits (R65, R277): its package, its destination, where a popped record goes, and the address of the
queue's header. -/
structure RemoteWait where
  pkg : Nat
  q : Option (BitVec 2)
  sd : Option (BitVec 6)
  buf : Option (Cap × Nat)
  launch : Bool
  words : Nat
  header : Addr
  deriving DecidableEq, Repr

/-- What holds a convoy (R304). `run`: nothing. `clause`: at a clause boundary, waiting for R146. -/
inductive Wait where
  /-- nothing holds it -/
  | run
  /-- at a clause header, before its first instruction (R146) -/
  | clause
  /-- issue waits for room in a counter (R78) -/
  | room (cls : Cls)
  /-- an access of these ranges (first, end, written) waits on the range scoreboard or an unfinished gatm (R108, R263) -/
  | access (core : Nat) (ranges : List (Addr × Addr × Bool))
  /-- an engine command waits for acceptance (R107, R249) -/
  | accept (cls : Cls)
  /-- wsig (R265) -/
  | wsig (w : WsigWait)
  /-- waitc (R266) -/
  | waitc (cls : Cls) (thr : Nat)
  /-- a fence not yet done (R135) -/
  | fence (scope : Scope) (words : Nat)
  /-- qpush, launch or qpop (R277, R278) -/
  | queue (w : QueueWait)
  /-- a forwarded queue instruction awaiting its acknowledgement (R65) -/
  | remote (w : RemoteWait)
  /-- revoke with a full set (R267) -/
  | revoke
  /-- grow: fibres that still need their rows, and those that have them (R306) -/
  | grow (n : Nat) (left served : List Nat)
  /-- spawn: positions that still need their fibre, each with its creator, FIDX, v0 value, rows and target (R75) -/
  | spawn (left : List (Nat × Nat × Word)) (rows : Nat) (target : Addr) (words : Nat)
  /-- a push waits for some return frames since a core cycle (R414) -/
  | frame (since need : Nat)
  /-- after a cut-back, until a core cycle (R386) -/
  | replay (due : Nat)
  /-- at a barrier: none for `.core`, the hardware slot otherwise, with the phase it waits in (R91) -/
  | bar (slot : Option Nat) (phase : Nat)
  /-- stopped because its launch aborts (R387) -/
  | aborted
  /-- stopped for a yield request; the wait it had, when it stopped at a waiting instruction (R309) -/
  | yielded
  /-- a logged write or event waits on a full undo log since a core cycle (R390) -/
  | log (since : Nat)
  /-- halted by a debugger (R346) -/
  | halted
  deriving DecidableEq, Repr

/-! ## Error records (R384) -/

/-- What an error record holds beside SEQ and LOST (R384). -/
structure Rec where
  source : BitVec 8
  cls : BitVec 8
  colour : Nat
  recov : BitVec 4
  spn : Nat := 0
  pos : Nat := 0
  regcnt : BitVec 16 := 0
  code : BitVec 16 := 0
  pc : Addr := 0
  iter : BitVec 64 := 0
  addr : Addr := 0
  count : Nat := 0
  wgid : Word := 0
  deriving DecidableEq, Repr

/-! ## Convoys (04) -/

/-- A convoy (R77): its SP, workgroup, slices in ascending order, the fibre at each position, and convoy state. `latch` holds
the halves of latch n of position p as entries 8p + 2n (low) and 8p + 2n + 1, `latw` which latches the clause has written (R152, R405); `rep` the rep word in
force (R158); `iters` the iteration indices of the unrolled loops that enclose its residual clause, innermost first, each with the address
of its closing clause (R296); `logAt` since when its word has waited on a full log, and `waitPos` the lowest position for which a word waits on
the log or on return frames (R384, R390, R414); `report` the record of a trap whose cut-back is still to have its effect (R385), `stepped` whether the
instruction that a debugger steps is the convoy's (R388). -/
structure Convoy where
  spn : Nat
  wg : Nat
  slices : List Nat
  fib : List (Option Nat)
  u : Unif := {}
  fpstat : BitVec 8 := 0
  hdr : Addr
  wi : Nat := 0
  words : Nat := 0
  inCl : Bool := false
  latch : Tbl Word := []
  latw : BitVec 4 := 0
  rep : Option DWord := none
  repcnt : BitVec 6 := 0
  lncur : Word := 0
  wait : Wait := .clause
  yreq : Bool := false
  last : Nat := 0
  since : Nat := 0
  aged : Bool := false
  iters : List (Addr × Nat) := []
  logAt : Option Nat := none
  waitPos : Nat := 0
  report : Option Rec := none
  stepped : Bool := false
  deriving DecidableEq, Repr


/-! ## Workgroups and launches (11) -/

/-- The phase of a workgroup. -/
inductive WgPhase where
  /-- staging (R106) -/
  | staging
  /-- fibres run -/
  | running
  /-- complete, WBACK staging under way (R303) -/
  | wback
  /-- a yield request is pending since a core cycle; then its commands drain (R309) -/
  | yielding (since : Nat)
  /-- every convoy stopped, the image being written -/
  | saving
  /-- its image is in spawn memory (R310) -/
  | saved
  /-- stopping for ABORT (R387) -/
  | aborting
  /-- being moved, with the target SPs (R312) -/
  | moving (target : List Nat)
  deriving DecidableEq, Repr

/-- An event the undo log holds (R389): fibre index, REGCNT, ordinal, the next name when it was logged, its results, the scratchpad words an atomic wrote, the record of
a qpop and which of the fibre's executions of `qpop` in the region it was (R377), and whether a rollback has restored a line of those words since (R391). -/
structure LogEvent where
  wg : Nat
  fidx : Nat
  regcnt : BitVec 16
  ordn : Nat
  made : Nat := 0
  result : List DWord
  wrote : List (Addr × Nat × DWord)
  slots : List (BitVec 128 × Bool) := []
  pop : Option Nat := none
  redo : Bool := false
  deriving DecidableEq, Repr

/-- A scratchpad bank of an image (R389): its number, the rank of the SP that its fence names, bytes and tags by offset. -/
structure BankImage where
  bank : Nat
  rank : Nat
  bytes : Tbl Byte
  tags : Tbl Unit
  deriving DecidableEq, Repr

/-- A saved or temper image: bytes and tags by address, fibres, convoys, progress words (of SP rank r as entry 16r + t), the next
name when it was taken, logged events with the rank of their SP, banks, and for fibres outside convoys the core cycles since their
arrival (R12, R83). -/
structure Image where
  bytes : Tbl Byte := []
  tags : Tbl Unit := []
  fibres : Tbl Fibre := []
  convoys : Tbl Convoy := []
  acprog : Tbl DWord := []
  ids : Nat := 0
  events : List (Nat × LogEvent) := []
  banks : List BankImage := []
  waited : Tbl Nat := []
  deriving DecidableEq, Repr

/-- A workgroup (R89, R105, R117, R259). `own` maps each of its SPs to the residency number; `halted` the classes whose queue
is halted, each with the command that halted it (R427); `touched` the bank sets it touched (R117); `seen` its SPs
that have taken the temper point of its placement (R97), `evicted` whether REGCNT of a
fibre of it has advanced since its last eviction (R307), `hot` when a
migration of it was last tried without a target (R312), whether its staging is done, how often its `.core` barrier has completed
(R91), where its placement or restore stands in the order of all of them (R447), the cycles for which it has been halted since then and since
its yield request (R346), the ranks of its SPs that a debugger halts once it is restored (R448), and in `left` fibres that stand for the places it has left and still claims (R299, log entry 79). -/
structure Wg where
  launch : Nat
  wgid : Word
  sps : List Nat
  colour : Nat
  gen : BitVec 8
  prio : Nat
  bwphase : BitVec 3
  ranges : List (Addr × Nat)
  own : Tbl Nat := []
  phase : WgPhase := .staging
  halted : Tbl Nat := []
  touched : List Nat := []
  placed : Nat := 0
  seen : List Nat := []
  image : Image := {}
  evicted : Option Bool := none
  hot : Option Nat := none
  staged : Bool := false
  core : Nat := 0
  order : Nat := 0
  haltedFor : Nat := 0
  haltAt : Option Nat := none
  haltDue : List Nat := []
  left : List Fibre := []
  deriving DecidableEq, Repr

/-- What the Anvil answers for a launch on a die (R294). -/
inductive CodeState where
  | pending | residual | original
  deriving DecidableEq, Repr

/-- A launch (R289): its waybill, the binding that carried it, acquisition time, the next WGID to place, its workgroups not yet
placed again (R299), what the Anvil answered on each die, its slots as (logical, collective, hardware), its serai hints as
(entry, S, T), whether the entry clause was reached (R400), whether a write-back was refused (R472), the records of what aborts it
(R385, R387), and the loops that are unrolled in its residual code (R295). -/
structure Launch where
  g : List Cap
  binding : Nat
  colour : Nat
  gen : BitVec 8
  home : Nat
  acquired : Nat
  next : Nat := 0
  requeued : List Nat := []
  late : Bool := false
  aborted : Option Nat := none
  done : Nat := 0
  code : Tbl CodeState := []
  slots : List (Nat × Bool × Nat) := []
  hints : List (Nat × Nat × Nat) := []
  entered : Bool := false
  wbad : Bool := false
  recs : List Rec := []
  loops : List (Addr × Addr × Nat) := []
  deriving DecidableEq, Repr

/-! ## Engine commands (10, 19) -/

/-- A lane of gatm (R263): its position, fibre, offset, operand and swap value. -/
structure GatmLane where
  pos : Nat
  fib : Nat
  off : Nat
  a : DWord
  b : DWord
  deriving DecidableEq, Repr

/-- Where a fibre's event stands in its undo log (R389): fibre index, REGCNT and ordinal. -/
structure EventKey where
  fidx : Nat
  regcnt : BitVec 16
  ordn : Nat
  deriving DecidableEq, Repr

/-- A command's operation with the operands read at issue (R127). An element of `idx` is a position and its index; `entry` is a
region-list entry as it was read (R105), with the address of its scratchpad range. -/
inductive CmdOp where
  | cpy (dst src : Cap) (soff doff : Nat) (len : Nat)
  | block (k : Cap) (loc : Option Cap)
  | entry (src : Cap) (off : Nat) (sp : Addr) (len : Nat) (load zero back tags : Bool)
  | stage (list : Cap) (idx : Nat) (back : Bool)
  | wb (k : Cap) (off len : Nat) (inv : Bool)
  | gather (dst src : Cap) (soff doff stride : Nat) (esz : Esz) (idx : List (Nat × Nat))
  | scatter (dst src : Cap) (soff doff stride : Nat) (esz : Esz) (idx : List (Nat × Nat))
  | mma (fmt : MxFmt) (f16 : Bool) (t : Nat) (a b : Cap) (par : List Word)
  | mmac (fmt : MxFmt) (f16 : Bool) (t src : Nat) (b : Cap) (par : List Word)
  | aclr (t : Nat)
  | ald (t : Nat) (a : Cap) (par : List Word)
  | ast (d : Cap) (t : Nat) (par : List Word) (fmt : AstFmt)
  | sacc (d p : Nat) (scale : Word) (i32 : Bool)
  | saccV (d p : Nat) (k : Cap) (off : Nat) (i32 : Bool)
  | clx (dst src : Cap) (soff doff len : Nat) (arg0 : Word) (fn : ClxFn) (i32 : Bool)
  | nmc (t g : Cap) (soff doff len : Nat) (alpha beta : Word) (fn : NmcFn)
  | gatm (k : Cap) (fn : AtomFn) (w64 u : Bool) (d : VDst) (lanes : List GatmLane)
  | sig (k : Cap) (off : Nat) (v : Word) (add : Bool) (rel : Option Scope)
  deriving DecidableEq, Repr

/-- The life of a command: accepted; running (its checks were made); waiting for a block in progress (R247); a remote command whose
cancellation is not yet acknowledged (R431); performed or refused, and not yet counted for every fibre (R129); counted. -/
inductive CmdPhase where
  | queued
  | running
  | blocked
  | cancelling
  | performed
  | counted
  deriving DecidableEq, Repr

/-- A range-scoreboard entry: byte range widened to granules, and whether the operand is written (R107). -/
structure Entry where
  core : Nat
  lo : Addr
  hi : Addr
  write : Bool
  deriving DecidableEq, Repr

/-- An engine command (R128, R249): `cls` the counter, `fibres` those it acts for, the clause and word it was issued from, REGCNT
and SEQ, the slot it holds, its scoreboard entries, STATUS and RESUME, the cause and address of a refusal, the log keys of its
events, each fibre's REGCNT at issue (R95), the operation of the block it runs, in `owed` the fibres whose counters it has still to lower, and whether a source line
was lost when it began, the package for whose remote command it runs (R64) and that package's name for it, in `want` the scoreboard
entries it still waits for (R107), the core cycle since which its logged write or event has waited for nothing but room in a log (R390),
the STATUS with which a peer has answered it (R64), and of a copy that runs in chunks the bytes and tags that its source held when it
began (R251, R369); of the convoy's lowest fibre at issue, in `clxBy`, FIDX, the collectives it had issued in the region, and `born` (R432). -/
structure Cmd where
  cls : Cls
  op : CmdOp
  core : Nat
  spn : Nat
  wg : Nat
  colour : Nat
  gen : BitVec 8
  convoy : Nat
  fibres : List Nat
  pc : Addr
  wi : Nat
  regcnt : BitVec 16
  regs : Tbl (BitVec 16) := []
  seq : Nat
  clxBy : Nat × Nat × Nat := (0, 0, 0)
  slot : Option Nat := none
  entries : List Entry := []
  phase : CmdPhase := .queued
  status : Nat := 1
  resume : Nat := 0
  refused : Option Nat := none
  addr : Addr := 0
  keys : List EventKey := []
  inner : Option CmdOp := none
  owed : List Nat := []
  lost : Bool := false
  peer : Option Nat := none
  peerCmd : Nat := 0
  want : List Entry := []
  logAt : Option Nat := none
  answer : Option Nat := none
  snap : Option (List (Option Byte) × List Nat) := none
  deriving DecidableEq, Repr

/-! ## Units of the package -/

/-- Power state of an SP (R319). -/
inductive SpPower where
  | on | gated | retention | off
  deriving DecidableEq, Repr

/-- A local write not yet performed (R125): the fibre that made it, its address, and the bytes and tags that every other party still
reads there. -/
structure PendWrite where
  fib : Nat
  addr : Addr
  old : List Byte
  tags : List Addr := []
  deriving DecidableEq, Repr

/-- Words that a matrix command wrote into the tile buffer and that are not yet in the tile array (R133): the command, its fibres, what
the array holds there, by address, and whether a release has covered them (R130). -/
structure TileBuf where
  cmd : Nat
  fibres : List Nat
  words : Tbl Word
  covered : Bool := false
  deriving DecidableEq, Repr

/-- Per-SP state: owner colour, TEMPERIV and entries counted (R97), progress words (R258), temper image, undo log (R389), `hold`: issue is stopped for a
rollback, with the SOURCE of its record, or 0 for a save (R311, R393), power, debug (R346, R347: halted, its convoys halting at their
next clause boundaries, one step to issue), return frames in use, corrected errors (R392), the store queue, oldest first (R125), what stands in the tile buffer, oldest
first (R133), the slices issued in a core cycle, and which (R304), and a write of TEMPERIV that waits until the SP is woken (R335). -/
structure Sp where
  owner : Nat := 0
  temperiv : BitVec 16 := 256
  teCount : Nat := 0
  acprog : Tbl DWord := []
  image : Option Image := none
  lines : List (Addr × List Byte × Tbl Unit) := []
  events : List LogEvent := []
  hold : Option (BitVec 8) := none
  power : SpPower := .on
  idleSince : Nat := 0
  freeSince : Nat := 0
  halted : Bool := false
  halting : Bool := false
  stepping : Bool := false
  stepOf : Option Nat := none
  frames : Nat := 0
  errs : Nat := 0
  pend : List PendWrite := []
  tbuf : List TileBuf := []
  used : List Nat := []
  usedAt : Nat := 0
  heldIv : Option (BitVec 16) := none
  rolls : Nat := 0
  logOut : Nat := 0
  deriving DecidableEq, Repr

/-- Per-core state: bank fences (R102), YDEADL (R284), spare in use (R7), grow queue in request order
(R306), command slots, whether the spare serves it, it is failing, or it has failed with no spare left (R394, R395), and its latest
uncorrectable errors, each with its item and its core cycle (R394). -/
structure Core where
  bfence : Tbl Word := []
  ydeadl : BitVec 24 := 0x10000
  grow : List (Nat × Nat) := []
  slots : Tbl (BitVec 512) := []
  spare : Bool := false
  failing : Bool := false
  dead : Bool := false
  softs : List (Nat × Nat) := []
  deriving DecidableEq, Repr

/-- A barrier slot of a wide scope (R91, R300): scope, join key, colour, count, the quad or die it belongs to, workgroups that
arrived in this phase, arrivals from other packages, how often it has flipped (the phase bit is its lowest bit), launches that named
it, broken. -/
structure BarSlot where
  scope : Scope
  join : Nat
  colour : Nat
  p : Nat
  unit : Option Nat := none
  arrived : List Nat := []
  peers : Nat := 0
  phase : Nat := 0
  launches : List Nat
  broken : Bool := false
  deriving DecidableEq, Repr

/-- Which clx made a contribution (R432, log entry 62): rank, workgroup, FIDX and REGCNT of the convoy's lowest fibre, and how many
collectives that had issued before it since its region entry. -/
structure ClxId where
  rank : Nat
  wg : Nat
  fidx : Nat
  regcnt : BitVec 16
  n : Nat
  deriving DecidableEq, Repr

/-- A contribution to a collective phase (R261): rank, OP, TYPE, data (none on a lost line), the command (none for a peer's), who made it, and whether its
destination is written. -/
structure Contribution where
  rank : Nat
  fn : ClxFn
  i32 : Bool
  data : List (Option Byte)
  cmd : Option Nat
  id : Option ClxId := none
  written : Bool := false
  deriving DecidableEq, Repr

/-- What a collective of an earlier phase receives when it is issued again (R432): the bytes as they were combined, with the flags, or the
refusal of a phase that disagreed; `at_` is the next name as its phase flipped. -/
structure PastClx where
  id : ClxId
  bytes : List (Option Byte)
  fl : BitVec 8
  bad : Bool
  at_ : Nat
  deriving DecidableEq, Repr

/-- A collective slot (R301). `past` holds what its earlier phases gave (R432), `early` what peers have contributed to the next phase. -/
structure ClxSlot where
  scope : Scope
  join : Nat
  colour : Nat
  c : Nat
  phase : Bool := false
  parts : List Contribution := []
  past : List PastClx := []
  early : List Contribution := []
  launches : List Nat
  deriving DecidableEq, Repr

/-- State of a world (R314). -/
inductive WorldMode where
  | standard | forming | protected_ | departing
  deriving DecidableEq, Repr

/-- A world (R314, R317, R338, R343): VD, mode, ranges (base, bytes, TWIN, MEASURE), capability table, allow-list, consent scope,
export map, DENIED count, measurement, whether it holds a key (R323), whether it is being stopped (R326), the request under way, the
packages whose acknowledgement that awaits (R328, R329), and the extents written since the last report (R327). -/
structure World where
  vd : Nat
  mode : WorldMode := .standard
  ranges : List (Addr × Nat × Bool × Bool) := []
  ctab : Addr := 0
  allow : DWord := 0
  consent : Option (BitVec 3) := none
  exports : List Nat := []
  denied : Word := 0
  measurement : BitVec 512 := 0
  key : Bool := true
  stopping : Bool := false
  waiting : Option WReq := none
  awaits : List Nat := []
  written : Tbl Unit := []
  deriving DecidableEq, Repr

/-- An entry of the revocation set (R68, R71): the range, the colours it applies to, its pass, and for a recall the owner package
whose remote capabilities it catches. -/
structure RevEntry where
  base : Addr
  len : Nat
  colours : List Nat
  pass : Nat
  owner : Option Nat := none
  deriving DecidableEq, Repr

/-- A sweep pass (R69–R71, R267): opening time and die, whether its sweep began, engines finished, recalls outstanding (package and colour), signal
words to write at its closing, the owner package and colour of a recall, and PASSOPEN records written. -/
structure Pass where
  opened : Nat
  die : Nat
  begun : Bool := false
  finished : BitVec 4 := 0
  recalls : List (Nat × Nat) := []
  sigs : List (Cap × Nat) := []
  ack : Option (Nat × Nat) := none
  warned : Nat := 0
  deriving DecidableEq, Repr

/-- The revocation set and the passes in number order (R70). -/
structure Rev where
  entries : List RevEntry := []
  passes : Tbl Pass := []
  next : Nat := 1
  sweepdone : Word := 0
  deriving DecidableEq, Repr

/-- A memory-side cache line held (R112): its address, colour, VD, set and way, dirty, and the count of its last use, or minus that of the
fill which placed it as least recently used. -/
structure MscLine where
  line : Addr
  slice : Nat
  set : Nat
  way : Nat
  colour : Nat
  vd : Option Nat
  dirty : Option Nat := none
  used : Int
  deriving DecidableEq, Repr

/-- The memory-side cache (R110–R114). -/
structure Msc where
  lines : List MscLine := []
  uses : Nat := 0
  vda : Tbl Word := []
  vdb : Tbl Word := []
  fwa : Word := 0xFFFFFFFF
  fwb : Word := 0xFFFF
  recl : Word := 0
  monS : Tbl Word := []
  monH : Tbl Word := []
  deriving DecidableEq, Repr

/-- A bank set (R116, R117): PMAP fields and the memory-controller cycle of its last access; while it wakes, the cycle the wake began. -/
structure BankSet where
  floor : BitVec 3 := 0
  alloc : Bool := false
  fw : Bool := false
  state : BitVec 2 := 3
  last : Nat := 0
  waking : Option Nat := none
  deriving DecidableEq, Repr

/-- How an error in a line was found: by the ECC or the MAC of its memory, or by the MSC slice that held it (R434, R435, R469). -/
inductive LineErr where
  | ecc | mac | slice
  deriving DecidableEq, Repr

/-- A write that waits for a bank set to wake (R118): a word on the bus with the vector that follows it, STATUS of a block with its RESUME, or
a copy of an error record with its generation and number. -/
inductive PostedWrite where
  | word (v : Word) (vector : Option Nat)
  | status (st : Nat) (resume : Option Nat)
  | record (r : Rec) (gen : BitVec 8) (seq : Nat)
  deriving DecidableEq, Repr
/-- A posted write for a colour. -/
structure Posted where
  colour : Nat
  addr : Addr
  what : PostedWrite
  deriving DecidableEq, Repr

/-- HBM health and power (R116, R324, R334, R434): bank sets, writes that wait for one to wake (R118), lines that fail (each with whether the MAC fails) and lines lost (each
with how its error was found),
marked pages, pages being zero-filled, row activation counts, the cycle at which each die's period of them
began, pseudo-channels spared, and the colour under whose key a line stands, where an aperture reached it for another (R322, R353). -/
structure Hbm where
  sets : Tbl BankSet := []
  bad : Tbl Bool := []
  lost : Tbl LineErr := []
  cleared : Tbl Unit := []
  zeroing : Tbl Unit := []
  rows : Tbl Nat := []
  periods : Tbl Nat := []
  spared : List (Nat × Nat) := []
  keyed : Tbl Nat := []
  posted : List Posted := []
  deriving DecidableEq, Repr

/-- A Route port (R330, R331, R364, R457–R459): translation and reservation entries (R331), whether it is up, the package whose
identity it verified, the port cycle a retrain began, flits that failed their tag in a row, and of the last training the pair key, our
signature of the peer's nonce, the pair key as it was sent sealed, 0 where the peer sends it, and the message counters (R364). -/
structure Port where
  xlate : Tbl (BitVec 64) := []
  reserve : Tbl (BitVec 64) := []
  up : Bool := false
  peer : Option Nat := none
  retrain : Option Nat := none
  fails : Nat := 0
  key : Option (BitVec 256) := none
  signed : BitVec 4096 := 0
  sealedKey : BitVec 4096 := 0
  tx : Nat := 0
  rx : Nat := 0
  deriving DecidableEq, Repr

/-- What a Route port sends to a peer package (R63–R65, R71, R91, R301, R329, R372, R431). -/
inductive OutMsg where
  /-- a forwarded use of a remote capability, for command or convoy `who` -/
  | access (peer colour who : Nat) (k : Cap) (acc : RemoteAcc)
  /-- a remote command, for command `who`, with its local capability -/
  | command (peer colour who : Nat) (k : Cap) (loc : Option Cap)
  /-- the cancellation of a remote command -/
  | cancel (peer colour who : Nat)
  /-- a bale carried for command `who` to an offset of a remote capability -/
  | bale (peer colour who : Nat) (bits : BitVec 128) (k : Cap) (off : Nat)
  /-- a recall of the ranges of a pass -/
  | recall (peer colour : Nat) (ranges : List (Addr × Nat))
  /-- the answer to a recall, a departure notice, a cancellation, a remote command or a forwarded access (log entry 9) -/
  | answer (peer colour : Nat) (status : Nat) (bytes : List Byte)
  /-- a departure notice -/
  | departure (peer colour : Nat)
  /-- an arrival at a `.pod` barrier slot, told to a package -/
  | barrier (peer colour join : Nat)
  /-- a contribution to a `.pod` collective slot, told to a package -/
  | clx (peer colour join rank : Nat) (fn : ClxFn) (i32 : Bool) (data : List Byte)
  deriving DecidableEq, Repr

/-- A message that has been sent or waits: its port, its sequence number in the stream of its colour and package, and what it says (R458). -/
structure Sent where
  port : Option Nat
  seq : Nat
  msg : OutMsg
  deriving DecidableEq, Repr

/-- The Route fabric (R362, R363, R458, R459): package number, ROUTEM masks, masks still in force for (peer, colour) as entry
4096 peer + colour, ports, packages that are unreachable, and for packages with no port up the port and its cycle since when; the
messages sent and not known to be acknowledged; and of each stream, as entry 4096 peer + colour, the number of the next message sent and
the least number that a message still to arrive has. -/
structure Route where
  pkg : Nat := 0
  routem : Tbl Word := []
  inForce : Tbl Word := []
  ports : Tbl Port := []
  gone : List Nat := []
  down : Tbl (Nat × Nat) := []
  out : List Sent := []
  seqOut : Tbl Nat := []
  seqIn : Tbl Nat := []
  deriving DecidableEq, Repr

/-- A dispatch binding (R287): its 512 bits, and the tags of QCAP and CTAB. -/
structure Binding where
  bits : BitVec 512 := 0
  qtag : Bool := false
  ctag : Bool := false
  deriving DecidableEq, Repr

/-- The host side (R350–R361): bindings, apertures, extent-map roots, EXTINV, extent caches as cached leaf addresses, BOOTSTAT,
MODE, link and its correctable errors (R337), what the port answered to host reads, MSI-X vectors raised, the firmware request queue's address, LOST counts of event queues by colour, the binding served last on each die (R288), and for each line of the pool that the
package has written the key and the window address under which it is encrypted (R322, R357). -/
structure HostSide where
  binds : Tbl Binding := []
  hap : Tbl (BitVec 64) := []
  extRootP : DWord := 0
  extRootH : DWord := 0
  extInv : DWord := 0
  extCache : List (Nat × Addr × DWord) := []
  bootstat : Word := 0
  mode : BitVec 2 := 1
  linkUp : Bool := true
  errors : Nat := 0
  answers : List (List Byte) := []
  vectors : List Nat := []
  fwq : Addr := 0
  lost : Tbl Nat := []
  roundRobin : Tbl Nat := []
  poolKeys : Tbl (Nat × Addr) := []
  booted : Bool := false
  dbgctl : Tbl Word := []
  counters : Tbl DWord := []
  deriving DecidableEq, Repr

/-- The management controller (R316, R340, R344, R366, R385): next record SEQ, nonce, token scope in force, hypervisor colour,
SVN of the firmware and its fused minimum (R367), thermal stops under way with the cycle each began (R463), records reserved in a queue
and not yet published (R464), how often each colour's key slot has been overwritten (R323), and the acceptance windows under way, by colour:
the token's nonce and scope, and whether a protected formation has run in it (R340, R342); the firmware measurement (R367), and records still to be written
about lines and rows that an access met on its way, each with whether the world sees it (R434, R436, R456). -/
structure Mgmt where
  seq : Nat := 1
  nonce : Option (BitVec 512) := none
  token : Option Word := none
  hyp : Nat := 1
  svn : Word := 0
  minSvn : Word := 0
  stops : Tbl Nat := []
  pubs : List (Addr × Nat × Nat) := []
  epochs : Tbl Nat := []
  thermal : Bool := false
  windows : Tbl (BitVec 512 × Word × Bool) := []
  measured : BitVec 512 := 0
  notes : List (Rec × Bool) := []
  deriving DecidableEq, Repr

/-- An entry of an Anvil's cache or of the backing store (R294–R296): its key, its bytes, the loops that are unrolled in it (first and
last clause, trips), and whether it is a negative entry. -/
structure AnvilImage where
  key : BitVec 256
  bytes : Nat
  loops : List (Addr × Addr × Nat) := []
  negative : Bool := false
  deriving DecidableEq, Repr

/-- The Anvils (R294): the images of each die's cache and of the backing store, newest first. -/
structure Anvil where
  die : Tbl (List AnvilImage) := []
  store : List AnvilImage := []
  deriving DecidableEq, Repr

/-- An access or message that has arrived at a port and waits there (R71, R118, R140, R335, R361). -/
inductive Held where
  | recall (m : RecallMsg)
  | bale (m : BaleMsg)
  | command (m : RemoteCmdMsg)
  | access (m : RemoteAccMsg)
  | hostRead (off n : Nat)
  | hostWrite (off : Nat) (bytes : List Byte)
  | register (off : Nat) (val : DWord)
  | extinv (val : DWord)
  | bind (i : Nat)
  | counter (vd group n : Nat)
  | aperture (m : ApMsg)
  | halt (spn : Nat)
  | step (spn : Nat)
  | run (spn : Nat)
  deriving DecidableEq, Repr

/-- The state of the package. `ev` holds the steps still to come and `turn` the SPs whose issue stage acts next (log entry 3), `cur` the convoy chosen to issue, `free` the index
of the next free value and `ids` the next name for an entity (log entry 4). `held` is what waits at the ports (R71, R118, R140, R361), in the order of arrival,
`own` whether the package's own units act before the next issue (log entry 3). `clk` counts the cycles of each clock domain. -/
structure State where
  ev : List Instr := []
  turn : List Nat := []
  cur : Option Nat := none
  free : Nat := 0
  ids : Nat := 0
  clk : Tbl Nat := []
  mhz : Tbl Nat := []
  mem : Tbl Byte := []
  tags : Tbl Unit := []
  fibres : Tbl Fibre := []
  convoys : Tbl Convoy := []
  serais : List Serai := []
  outside : List Outside := []
  wgs : Tbl Wg := []
  launches : Tbl Launch := []
  cmds : Tbl Cmd := []
  sps : Tbl Sp := []
  cores : Tbl Core := []
  bars : Tbl BarSlot := []
  clxs : Tbl ClxSlot := []
  worlds : Tbl World := []
  gens : Tbl (BitVec 8) := []
  egens : Tbl (BitVec 8) := []
  rev : Rev := {}
  msc : Msc := {}
  hbm : Hbm := {}
  route : Route := {}
  host : HostSide := {}
  mgmt : Mgmt := {}
  anvil : Anvil := {}
  held : List Held := []
  own : Bool := false
  deriving DecidableEq, Repr

/-- Why a step stops with a fault. -/
inductive Fault where
  /-- An instruction word was given to exec with no convoy chosen to issue it: raised by every instruction's meaning when `cur`
  names no convoy. step never does this. Safe. -/
  | noConvoy
  deriving DecidableEq, Repr

/-- Why a step has no meaning. -/
inductive Refusal where
  /-- The instruction of this mnemonic has no meaning in the model yet; raised by Dispatch alone. Safe. -/
  | notModelled (mnemonic : String)
  deriving DecidableEq, Repr

/-- The outcome of a step of this machine. -/
abbrev Result := Host.Outcome State Fault Refusal

/-- The package right after cold reset (R366): nothing is resident, every tag is clear, every register holds its reset value
(INVENTORY.md, State). -/
def State.reset : State := {}

end Sys2Proof.Machine
end

