-- ==== Sys2Proof/Machine/Store.lean ====
section
/-! DEFINITION. Finite tables, and the one table of bytes that holds memory of every window, register rows and accumulator words
(R15, R19): reading and writing bytes, words and tagged granules. -/

namespace Sys2Proof.Machine

/-! ## Tables -/

/-- The value at a key. -/
def tget {α : Type} (t : Tbl α) (k : Nat) : Option α := t.lookup k
/-- Sets a key, keeping a sorted table sorted. -/
def tput {α : Type} : Tbl α → Nat → α → Tbl α
  | [], k, v => [(k, v)]
  | (k', v') :: r, k, v => if k < k' then (k, v) :: (k', v') :: r else if k = k' then (k, v) :: r else (k', v') :: tput r k v
/-- Removes a key. -/
def tdel {α : Type} (t : Tbl α) (k : Nat) : Tbl α := t.filter fun x => x.1 != k
/-- Sets a key; a value equal to the default is not listed. -/
def tset {α : Type} [DecidableEq α] (d : α) (t : Tbl α) (k : Nat) (v : α) : Tbl α := if v = d then tdel t k else tput t k v
/-- Changes the value at a key that has one. -/
def tmod {α : Type} (t : Tbl α) (k : Nat) (f : α → α) : Tbl α := match tget t k with
  | some v => tput t k (f v)
  | none => t
/-- The first entry whose value meets a test. -/
def tfind {α : Type} (t : Tbl α) (p : α → Bool) : Option (Nat × α) := t.find? fun x => p x.2

/-- A number set into an ascending list. -/
def insNat (n : Nat) : List Nat → List Nat
  | [] => [n]
  | x :: r => if n ≤ x then n :: x :: r else x :: insNat n r
/-- Numbers in ascending order. -/
def sortNat : List Nat → List Nat
  | [] => []
  | x :: r => insNat x (sortNat r)

/-! ## Bytes and words (R10) -/

/-- What a byte of memory that nothing has written reads as (log entry 1). -/
def unlistedByte : Byte := 0
/-- Keys that rise strictly. -/
def rises {α : Type} : Tbl α → Bool
  | [] => true
  | [_] => true
  | x :: y :: r => decide (x.1 < y.1) && rises (y :: r)
/-- The canonical form of a table of bytes: addresses rise strictly, and no entry equals what an unlisted address reads as. -/
def Memory.wf (m : Tbl Byte) : Bool := rises m && m.all fun x => x.2 != unlistedByte
/-- A byte of memory. -/
def State.rd8 (s : State) (a : Addr) : Byte := (tget s.mem a).getD unlistedByte
/-- Writes a byte, leaving tags alone. -/
def State.wr8 (s : State) (a : Addr) (b : Byte) : State := { s with mem := tset unlistedByte s.mem a b }
/-- n bytes from an address. -/
def State.rdBytes (s : State) (a : Addr) (n : Nat) : List Byte := (List.range n).map fun i => s.rd8 (a + i)
/-- Writes bytes in ascending address, leaving tags alone. -/
def State.wrRaw (s : State) (a : Addr) : List Byte → State
  | [] => s
  | b :: bs => (s.wr8 a b).wrRaw (a + 1) bs
/-- Little-endian value of bytes. -/
def leNat : List Byte → Nat
  | [] => 0
  | b :: bs => b.toNat + 256 * leNat bs
/-- n little-endian bytes of a value. -/
def leBytes : Nat → Nat → List Byte
  | 0, _ => []
  | n + 1, v => BitVec.ofNat 8 v :: leBytes n (v / 256)
/-- A little-endian value of n bytes in memory. -/
def State.rdNat (s : State) (a : Addr) (n : Nat) : Nat := leNat (s.rdBytes a n)
def State.rd32 (s : State) (a : Addr) : Word := BitVec.ofNat 32 (s.rdNat a 4)
def State.rd64 (s : State) (a : Addr) : DWord := BitVec.ofNat 64 (s.rdNat a 8)

/-! ## Tags (R52) -/

/-- The granule that holds an address. -/
def granule (a : Addr) : Addr := a / 16 * 16
/-- The granules that n bytes from an address touch. -/
def granules (a : Addr) (n : Nat) : List Addr :=
  if n = 0 then [] else (List.range ((a + n - 1) / 16 - a / 16 + 1)).map fun i => granule a + 16 * i
/-- The tag of a granule. -/
def State.tagAt (s : State) (a : Addr) : Bool := (tget s.tags (granule a)).isSome
/-- Sets or clears the tag of a granule. -/
def State.setTag (s : State) (a : Addr) (t : Bool) : State :=
  { s with tags := if t then tput s.tags (granule a) () else tdel s.tags (granule a) }
/-- Clears the tags of every granule that n bytes from an address touch (R52). -/
def State.clearTags (s : State) (a : Addr) (n : Nat) : State := (granules a n).foldl (fun s g => s.setTag g false) s
/-- A write of bytes: tags of every granule touched, even in part, are cleared (R52). -/
def State.wrBytes (s : State) (a : Addr) (bs : List Byte) : State := (s.wrRaw a bs).clearTags a bs.length
def State.wrNat (s : State) (a : Addr) (n v : Nat) : State := s.wrBytes a (leBytes n v)
def State.wr32 (s : State) (a : Addr) (v : Word) : State := s.wrNat a 4 v.toNat
def State.wr64 (s : State) (a : Addr) (v : DWord) : State := s.wrNat a 8 v.toNat
/-- A granule with its tag, as a capability. -/
def State.rdCap (s : State) (a : Addr) : Cap := ⟨BitVec.ofNat 128 (s.rdNat a 16), s.tagAt a⟩
/-- Writes a granule with its tag, single-copy atomically (R123). -/
def State.wrCap (s : State) (a : Addr) (c : Cap) : State := (s.wrRaw a (leBytes 16 c.bits.toNat)).setTag a c.tag

/-! ## The on-chip windows (R8, R18, R19) -/

def onchipBase : Addr := 0xF_0000_0000_0000
/-- The first address of a core's window. -/
def coreBase (core : Nat) : Addr := onchipBase + core / 16 * 0x2000_0000 + core % 16 * 0x100_0000
/-- A register row of an SP lane. -/
def regAddr (spn lane row : Nat) : Addr := coreBase (spn / 4) + spn % 4 * 0x8_0000 + lane * 0x400 + row * 4
/-- A byte of an accumulator tile. -/
def tileAddr (spn t byte : Nat) : Addr := coreBase (spn / 4) + 0x20_0000 + spn % 4 * 0x10_0000 + t * 0x1_0000 + byte
/-- A word of an accumulator tile. -/
def accAddr (spn t i j : Nat) : Addr := tileAddr spn t (i * 0x200 + j * 4)
/-- The first byte of a core's scratchpad. -/
def spadBase (core : Nat) : Addr := coreBase core + 0x80_0000
def spadBytes : Nat := 0x80_0000
/-- An address within an on-chip window, as (core, offset); none outside, and in the unmapped core slots. -/
def onchip (a : Addr) : Option (Nat × Nat) :=
  if a < onchipBase ∨ a ≥ onchipBase + 0x8000_0000 then none
  else
    let o := a - onchipBase
    let c := o % 0x2000_0000 / 0x100_0000
    if c < 16 then some (o / 0x2000_0000 * 16 + c, o % 0x100_0000) else none

/-- The windows of R15. -/
inductive Window where
  | hbm | pool | host
  | regs (core : Nat)
  | acc (core : Nat)
  | spad (core bank : Nat)
  | unmapped
  deriving DecidableEq, Repr

/-- The window that holds an address (R15, R18, R19). -/
def window (a : Addr) : Window :=
  if a < 0x80_0000_0000 then .hbm
  else if 0x1_0000_0000_0000 ≤ a ∧ a < 0x1_0600_0000_0000 then .pool
  else if 0x2_0000_0000_0000 ≤ a ∧ a < 0x2_4000_0000_0000 then .host
  else match onchip a with
    | some (c, o) =>
      if o < 0x20_0000 then .regs c else if o < 0x60_0000 then .acc c else if o < 0x80_0000 then .unmapped
      else .spad c ((o - 0x80_0000) / 0x2_0000)
    | none => .unmapped

/-! ## Free values and names -/

/-- Takes the next free value's index (log entry 4). -/
def State.bump (s : State) : State := { s with free := s.free + 1 }
/-- A name not used yet for an entity (log entry 4). -/
def State.fresh (s : State) : Nat := s.ids
def State.nextId (s : State) : State := { s with ids := s.ids + 1 }

end Sys2Proof.Machine
end

