-- ==== Sys2Proof/Machine/Cap.lean ====
section
/-! DEFINITION. Capabilities (03): fields, bounds, canonical encodings, the revocation filter, the check of R55 with the causes of
R421, bank fences, and the derivations of the capability instructions. -/

namespace Sys2Proof.Machine

/-! ## Fields (R45–R49) -/

def Cap.kind (c : Cap) : BitVec 4 := c.bits.extractLsb' 124 4
def Cap.isSealed (c : Cap) : Bool := c.bits.getLsbD 123
def Cap.otype (c : Cap) : BitVec 12 := c.bits.extractLsb' 111 12
def Cap.colour (c : Cap) : BitVec 12 := c.bits.extractLsb' 99 12
def Cap.gen (c : Cap) : BitVec 8 := c.bits.extractLsb' 91 8
def Cap.perms (c : Cap) : BitVec 16 := c.bits.extractLsb' 75 16
def Cap.e (c : Cap) : BitVec 6 := c.bits.extractLsb' 69 6
def Cap.m (c : Cap) : BitVec 17 := c.bits.extractLsb' 52 17
def Cap.base (c : Cap) : BitVec 52 := c.bits.extractLsb' 0 52
/-- The first address. -/
def Cap.lo (c : Cap) : Addr := c.base.toNat
/-- L of R46. -/
def Cap.len (c : Cap) : Nat := (c.m.toNat + 1) * 2 ^ c.e.toNat
/-- The bits of a capability (R45). -/
def capBits (kind : BitVec 4) (sl : Bool) (otype colour : BitVec 12) (gen : BitVec 8) (perms : BitVec 16) (e : BitVec 6)
    (m : BitVec 17) (base : BitVec 52) : BitVec 128 :=
  kind ++ BitVec.ofBool sl ++ otype ++ colour ++ gen ++ perms ++ e ++ m ++ base

def kindData : BitVec 4 := 1
def kindCode : BitVec 4 := 2
def kindCmd : BitVec 4 := 3
def kindQueue : BitVec 4 := 4
def kindRxwin : BitVec 4 := 5
def permLd : BitVec 16 := 0x0001
def permSt : BitVec 16 := 0x0002
def permLdk : BitVec 16 := 0x0004
def permStk : BitVec 16 := 0x0008
def permExec : BitVec 16 := 0x0010
def permDeleg : BitVec 16 := 0x0020
def permSeal : BitVec 16 := 0x0040
def permUnseal : BitVec 16 := 0x0080
def permOrdered : BitVec 16 := 0x0100
def permTwin : BitVec 16 := 0x0200
def permNmc : BitVec 16 := 0x0400
def permAtom : BitVec 16 := 0x0800
def permExport : BitVec 16 := 0x1000
def permMap : BitVec 16 := 0x2000
/-- A reserved bit of PERMS, 0 in every capability (R46): it marks what stands for a peer's local capability (R64, log entry 9). -/
def permPeer : BitVec 16 := 0x8000
/-- Whether every permission of a mask is held. -/
def Cap.has (c : Cap) (p : BitVec 16) : Bool := c.perms &&& p == p

/-- InBounds (R47). -/
def Cap.inBounds (c : Cap) (o n : Nat) : Bool := decide (o + n ≤ c.len)

/-- A remote capability's owner package: OTYPE 0x800–0xBFF (R58). -/
def Cap.remote (c : Cap) : Option Nat :=
  if c.isSealed && decide (0x800 ≤ c.otype.toNat) && decide (c.otype.toNat < 0xC00) then some (c.otype.toNat - 0x800) else none
/-- What stands on this package for the local capability of a peer's remote command (R64). -/
def Cap.isPeerEnd (c : Cap) : Bool := c.remote.isSome && c.has permPeer
/-- A bale's destination package: OTYPE 0xC00–0xFFF (R58). -/
def Cap.bale (c : Cap) : Option Nat :=
  if c.isSealed && decide (0xC00 ≤ c.otype.toNat) then some (c.otype.toNat - 0xC00) else none

/-- The least E at most `fuel + e` that encodes [b, b + l) exactly (R48). -/
def leastE (ok : Nat → Bool) : Nat → Nat → Nat
  | 0, e => e
  | f + 1, e => if ok e then e else leastE ok f (e + 1)
/-- Whether E encodes [b, b + l) exactly. -/
def encodes (b l e : Nat) : Bool := b % 2 ^ e == 0 && l % 2 ^ e == 0 && decide (l / 2 ^ e ≤ 2 ^ 17)
/-- The canonical E of a representable range (R48). -/
def canonE (b l : Nat) : Nat := leastE (encodes b l) 35 0
/-- Whether a byte range is representable (R48). -/
def represents (b l : Nat) : Bool := decide (1 ≤ l) && encodes b l (canonE b l)
/-- A capability over [b, b + l), written canonically; l ≥ 1. -/
def mkCap (kind : BitVec 4) (sl : Bool) (otype colour : BitVec 12) (gen : BitVec 8) (perms : BitVec 16) (b l : Nat) : Cap :=
  let e := canonE b l
  ⟨capBits kind sl otype colour gen perms (BitVec.ofNat 6 e) (BitVec.ofNat 17 (l / 2 ^ e - 1)) (BitVec.ofNat 52 b), true⟩

/-! ## The revocation filter (R68, R71) -/

/-- Whether an open entry catches a capability. -/
def RevEntry.catches (r : RevEntry) (c : Cap) : Bool :=
  decide (r.base ≤ c.lo) && decide (c.lo + c.len ≤ r.base + r.len) && r.colours.contains c.colour.toNat
    && (match r.owner with
        | none => true
        | some o => c.remote == some o)
/-- Caught (R175). -/
def State.caught (s : State) (c : Cap) : Bool := c.tag && s.rev.entries.any fun r => r.catches c
/-- A capability moved through the filter: its tag is cleared when it is caught. -/
def State.filter (s : State) (c : Cap) : Cap := { c with tag := c.tag && !s.caught c }

/-! ## Colour, generation and the check of R55 -/

/-- CurrentGen of a colour. -/
def State.gen (s : State) (colour : Nat) : BitVec 8 := (tget s.gens colour).getD 0

/-- Alive for the world of a colour: the parts of R55 that do not depend on the use (R234). -/
def State.live (s : State) (c : Cap) (colour : Nat) : Bool :=
  c.tag && c.colour.toNat == colour && c.gen == s.gen colour && !s.caught c

/-- What a use asks of a capability. -/
structure Use where
  kinds : List (BitVec 4)
  perms : BitVec 16 := 0
  sealOk : Bool := false
  deriving DecidableEq, Repr

/-- The first of a list of tests that fails, as its cause. -/
def firstCause : List (Bool × Nat) → Option Nat
  | [] => none
  | (bad, n) :: r => if bad then some n else firstCause r

/-- R55 for a world's colour, as the lowest failing cause of R421 from 0x01 to 0x08. -/
def State.capCause (s : State) (colour : Nat) (c : Cap) (u : Use) (o n : Nat) : Option Nat :=
  firstCause [(!c.tag, 0x01), (!u.kinds.contains c.kind, 0x02), (c.isSealed && !u.sealOk, 0x03), (c.colour.toNat != colour, 0x04),
    (c.gen != s.gen c.colour.toNat, 0x05), (s.caught c, 0x06), (!c.has u.perms, 0x07), (!c.inBounds o n, 0x08)]

/-! ## Bank fences (R102, R103) -/

def State.core (s : State) (c : Nat) : Core := (tget s.cores c).getD {}
def State.sp (s : State) (n : Nat) : Sp := (tget s.sps n).getD {}
/-- The fence of a bank: the package SP number it names. -/
def State.fence (s : State) (core bank : Nat) : Option Nat :=
  let w := (tget (s.core core).bfence (bank / 8)).getD 0
  let f := w.toNat / 16 ^ (bank % 8) % 16
  if f ≥ 8 then some (4 * core + f % 4) else none
/-- Whether a bank may be reached for a colour (R103). -/
def State.fenced (s : State) (core bank colour : Nat) : Bool :=
  match s.fence core bank with
  | some sp => (s.sp sp).owner == colour
  | none => false
/-- The banks a range of a core's scratchpad touches. -/
def banksOf (core : Nat) (a : Addr) (n : Nat) : List Nat :=
  let o := a - spadBase core
  if n = 0 then [] else (List.range ((o + n - 1) / 0x2_0000 - o / 0x2_0000 + 1)).map fun i => o / 0x2_0000 + i
/-- The checks of R218 on a scratchpad range: wholly within the core's scratchpad, then fenced. -/
def State.spadCause (s : State) (core colour : Nat) (a : Addr) (n : Nat) : Option Nat :=
  if a < spadBase core ∨ spadBase core + spadBytes < a + n then some 0x09
  else if (banksOf core a n).all (fun b => s.fenced core b colour) then none else some 0x0A

/-! ## Derivations (R229–R236) -/

/-- A failed derivation: the source's bits, untagged. -/
def Cap.untag (c : Cap) : Cap := { c with tag := false }
/-- R229: a derivation made when `ok` holds of a tagged, uncaught source. -/
def State.derive (s : State) (k : Cap) (ok : Bool) (bits : BitVec 128) : Cap :=
  if k.tag && !s.caught k && ok then ⟨bits, true⟩ else k.untag

/-- R230: narrows. -/
def State.csub (s : State) (k : Cap) (off len : Nat) (exact : Bool) : Cap :=
  let b := k.lo + off
  let en := b + len
  let e := leastE (fun e => decide (ceilDiv en (2 ^ e) - b / 2 ^ e ≤ 2 ^ 17)) 35 0
  let b' := b / 2 ^ e * 2 ^ e
  let n := ceilDiv en (2 ^ e) - b / 2 ^ e
  s.derive k (!k.isSealed && decide (1 ≤ len) && decide (off + len ≤ k.len) && (!exact || (b' == b && b' + n * 2 ^ e == en)))
    (capBits k.kind false 0 k.colour k.gen k.perms (BitVec.ofNat 6 e) (BitVec.ofNat 17 (n - 1)) (BitVec.ofNat 52 b'))

/-- R231: masks the permissions; TWIN is kept. -/
def State.cperm (s : State) (k : Cap) (mask : Word) : Cap :=
  s.derive k (!k.isSealed)
    (capBits k.kind false k.otype k.colour k.gen (k.perms &&& (mask.setWidth 16 ||| permTwin) &&& 0x3FFF) k.e k.m k.base)

/-- The sealing capability's own check (R232). -/
def State.sealer (s : State) (colour : Nat) (q : Cap) (p : BitVec 16) : Bool :=
  (s.capCause colour q { kinds := [kindData], perms := p } 0 0).isNone

/-- R232: seals. -/
def State.cseal (s : State) (colour : Nat) (k q : Cap) (t : Word) : Cap :=
  let ot := q.lo + t.toNat
  s.derive k (s.sealer colour q permSeal && decide (ot < q.lo + q.len) && decide (0x040 ≤ ot) && decide (ot ≤ 0x7FF)
      && !k.isSealed && k.kind != kindCmd)
    (capBits k.kind true (BitVec.ofNat 12 ot) k.colour k.gen k.perms k.e k.m k.base)

/-- R232: unseals. -/
def State.cunseal (s : State) (colour : Nat) (k q : Cap) : Cap :=
  let ot := k.otype.toNat
  s.derive k (s.sealer colour q permUnseal && decide (q.lo ≤ ot) && decide (ot < q.lo + q.len) && k.isSealed
      && decide (0x040 ≤ ot) && decide (ot ≤ 0x7FF) && k.colour == q.colour)
    (capBits k.kind false 0 k.colour k.gen k.perms k.e k.m k.base)

/-- R233: makes a bale for a package. -/
def State.cbale (s : State) (k : Cap) (p : Word) : Cap :=
  let cmd := k.kind == kindCmd && k.isSealed && decide (1 ≤ k.otype.toNat) && decide (k.otype.toNat ≤ 0x3F)
  s.derive k (k.has permExport && (((k.kind == kindData || k.kind == kindQueue) && !k.isSealed) || cmd) && decide (p.toNat ≤ 1023)
      && p.toNat != s.route.pkg)
    (capBits k.kind true (BitVec.ofNat 12 (0xC00 + p.toNat)) k.colour k.gen k.perms k.e k.m k.base)

/-- R235: a field. -/
def Cap.field (k : Cap) : CField → DWord
  | .kind => k.kind.setWidth 64
  | .sealed => if k.isSealed then 1 else 0
  | .otype => k.otype.setWidth 64
  | .colour => k.colour.setWidth 64
  | .gen => k.gen.setWidth 64
  | .perms => k.perms.setWidth 64
  | .e => k.e.setWidth 64
  | .m => k.m.setWidth 64
  | .base => k.base.setWidth 64
  | .len => BitVec.ofNat 64 k.len
  | .tag => if k.tag then 1 else 0
  | .top => BitVec.ofNat 64 (k.lo + k.len)

/-- The all-zero untagged capability (R236). -/
def nullCap : Cap := {}

end Sys2Proof.Machine
end

