-- ==== Sys2Proof/Machine/Flags.lean ====
section
/-! DEFINITION. FPSTAT (R29–R31): the flag bits, and where flags are set. -/

namespace Sys2Proof.Machine

/-- Flag masks of FPSTAT (R29). -/
def flNX : BitVec 8 := 0x01
def flUF : BitVec 8 := 0x02
def flOF : BitVec 8 := 0x04
def flDZ : BitVec 8 := 0x08
def flNV : BitVec 8 := 0x10
def flNAQ : BitVec 8 := 0x20
def flSATQ : BitVec 8 := 0x40
def flTRV : BitVec 8 := 0x80

/-- The flags of several results together. -/
def orFlags (l : List (BitVec 8)) : BitVec 8 := l.foldl (· ||| ·) 0

/-- SetFlag (R175): sets bits in a convoy's FPSTAT; only syswr clears any (R29). -/
def State.setFlags (s : State) (c : Nat) (fl : BitVec 8) : State :=
  { s with convoys := tmod s.convoys c fun v => { v with fpstat := v.fpstat ||| fl } }

/-- R31: flags of an engine operation reach every convoy that holds one of the issuing fibres, and every issuing fibre that waits
outside a convoy. -/
def State.engineFlags (s : State) (fibres : List Nat) (fl : BitVec 8) : State :=
  let inConvoy (f : Nat) : Bool := s.convoys.any fun x => x.2.fib.contains (some f)
  { s with
    convoys := s.convoys.map fun x =>
      if x.2.fib.any (fun p => match p with | some f => fibres.contains f | none => false)
      then (x.1, { x.2 with fpstat := x.2.fpstat ||| fl }) else x
    fibres := s.fibres.map fun x =>
      if fibres.contains x.1 && !inConvoy x.1 then (x.1, { x.2 with fpstat := x.2.fpstat ||| fl }) else x }

end Sys2Proof.Machine
end

