-- ==== Sys2Proof/Machine/Operands.lean ====
section
/-! DEFINITION. Operands: lanes of a convoy and which are active (R77, R150), registers, predicates, uniform registers, latches and
the literal as sources and destinations (R151–R154), and the registers an instruction names (R404). -/

namespace Sys2Proof.Machine

/-! ## Convoys and lanes (R77) -/

/-- A convoy position that holds a fibre. -/
structure Ln where
  pos : Nat
  id : Nat
  f : Fibre
  deriving DecidableEq, Repr

/-- Replaces a convoy. -/
def State.putConvoy (s : State) (c : Nat) (v : Convoy) : State := { s with convoys := tput s.convoys c v }
/-- Changes a convoy that exists. -/
def State.modConvoy (s : State) (c : Nat) (f : Convoy → Convoy) : State := { s with convoys := tmod s.convoys c f }
def State.modFibre (s : State) (i : Nat) (f : Fibre → Fibre) : State := { s with fibres := tmod s.fibres i f }
def State.modWg (s : State) (w : Nat) (f : Wg → Wg) : State := { s with wgs := tmod s.wgs w f }
def State.modSp (s : State) (n : Nat) (f : Sp → Sp) : State := { s with sps := tput s.sps n (f (s.sp n)) }
def State.modCore (s : State) (n : Nat) (f : Core → Core) : State := { s with cores := tput s.cores n (f (s.core n)) }
def State.modCmd (s : State) (k : Nat) (f : Cmd → Cmd) : State := { s with cmds := tmod s.cmds k f }

/-- The SP lane at a convoy position. -/
def Convoy.laneAt (v : Convoy) (p : Nat) : Nat := 4 * v.slices.getD (p / 4) 0 + p % 4
/-- Positions of a convoy: 4 for each slice. -/
def Convoy.positions (v : Convoy) : Nat := 4 * v.slices.length
/-- The fibre at a position. -/
def Convoy.at_ (v : Convoy) (p : Nat) : Option Nat := (v.fib.getD p none)
/-- The fibres of a convoy in ascending position. -/
def State.lanes (s : State) (v : Convoy) : List Ln :=
  (List.range v.positions).filterMap fun p =>
    (v.at_ p).bind fun i => (tget s.fibres i).map fun f => ⟨p, i, f⟩
/-- Whether a guard passes in a lane (R150). -/
def guardPasses (g : Guard) (pred : BitVec 8) : Bool :=
  if g.p = 0 then true else pred.getLsbD g.p.toNat != g.neg
/-- active(c) (R77). -/
def State.active (s : State) (v : Convoy) (g : Guard) : List Ln := (s.lanes v).filter fun l => guardPasses g l.f.pred

/-- The core cycles of a die. -/
def State.now (s : State) (die : Nat) : Nat := (tget s.clk die).getD 0
/-- The die of an SP. -/
def dieOf (spn : Nat) : Nat := spn / 64
def coreOf (spn : Nat) : Nat := spn / 4

/-! ## Registers -/

/-- The address of a fibre's vN (R73). -/
def Fibre.reg (f : Fibre) (n : Nat) : Addr := regAddr f.spn f.lane (f.wbase + n)
def State.rdV (s : State) (f : Fibre) (n : Nat) : Word := s.rd32 (f.reg n)
/-- A register write clears its quad's tag (R52). -/
def State.wrV (s : State) (f : Fibre) (n : Nat) (v : Word) : State := s.wr32 (f.reg n) v
def State.rdV64 (s : State) (f : Fibre) (n : Nat) : DWord := s.rdV f (n + 1) ++ s.rdV f n
def State.wrV64 (s : State) (f : Fibre) (n : Nat) (v : DWord) : State :=
  (s.wrV f n (v.setWidth 32)).wrV f (n + 1) (v.extractLsb' 32 32)
/-- kN with its quad tag (R154). -/
def State.rdK (s : State) (f : Fibre) (n : Nat) : Cap := s.rdCap (f.reg (4 * n))
def State.wrK (s : State) (f : Fibre) (n : Nat) (k : Cap) : State := s.wrCap (f.reg (4 * n)) k

/-! ## Uniform state -/

def Unif.rd (u : Unif) (n : Nat) : Word := (tget u.s n).getD 0
/-- Writes an s register, clearing its quad's tag (R52). -/
def Unif.wr (u : Unif) (n : Nat) (v : Word) : Unif :=
  { u with s := tset 0 u.s n v, kt := u.kt &&& ~~~(1#16 <<< (n / 4)) }
def Unif.rd64 (u : Unif) (n : Nat) : DWord := u.rd (n + 1) ++ u.rd n
def Unif.wr64 (u : Unif) (n : Nat) (v : DWord) : Unif := (u.wr n (v.setWidth 32)).wr (n + 1) (v.extractLsb' 32 32)
/-- ksN with its tag. -/
def Unif.rdK (u : Unif) (n : Nat) : Cap :=
  ⟨u.rd (4 * n + 3) ++ u.rd (4 * n + 2) ++ u.rd (4 * n + 1) ++ u.rd (4 * n), u.kt.getLsbD n⟩
def Unif.wrK (u : Unif) (n : Nat) (k : Cap) : Unif :=
  let u := (((u.wr (4 * n) (k.bits.extractLsb' 0 32)).wr (4 * n + 1) (k.bits.extractLsb' 32 32)).wr (4 * n + 2)
    (k.bits.extractLsb' 64 32)).wr (4 * n + 3) (k.bits.extractLsb' 96 32)
  if k.tag then { u with kt := u.kt ||| (1#16 <<< n) } else u
def Unif.rdQ (u : Unif) (n : BitVec 2) : Bool := u.q.getLsbD n.toNat
def Unif.wrQ (u : Unif) (n : BitVec 2) (v : Bool) : Unif :=
  { u with q := if v then u.q ||| (1#4 <<< n.toNat) else u.q &&& ~~~(1#4 <<< n.toNat) }

def State.modU (s : State) (c : Nat) (f : Unif → Unif) : State := s.modConvoy c fun v => { v with u := f v.u }
def State.wrS (s : State) (c : Nat) (n : Nat) (v : Word) : State := s.modU c fun u => u.wr n v
def State.wrKs (s : State) (c : Nat) (n : Nat) (k : Cap) : State := s.modU c fun u => u.wrK n k
def State.wrQ (s : State) (c : Nat) (n : BitVec 2) (v : Bool) : State := s.modU c fun u => u.wrQ n v

/-! ## Predicates -/

def Fibre.rdP (f : Fibre) (p : BitVec 3) : Bool := f.pred.getLsbD p.toNat
/-- Writes predicate p of a fibre. -/
def State.wrP (s : State) (i : Nat) (p : BitVec 3) (v : Bool) : State :=
  s.modFibre i fun f => { f with pred := if v then f.pred ||| (1#8 <<< p.toNat) else f.pred &&& ~~~(1#8 <<< p.toNat) }

/-! ## The literal (R153) -/

/-- The value source 0 takes from the literal, given whether another source names it too. -/
def litLow (lit : DWord) (other : Bool) : DWord := if other then (lit.setWidth 32).setWidth 64 else lit
/-- The value a later source takes, given whether a lower-numbered source names it. -/
def litHigh (lit : DWord) (lower : Bool) : DWord := if lower then lit >>> 32 else lit
/-- The literal values of three sources: the lowest that names it reads bits 31:0, the others bits 63:32; one alone reads all 64 (R153, which
speaks of two). In a 64-bit form both halves are zero-extended, signed forms among them: the spec gives no extension. Both are the model's
choice, log entry 17. -/
def lits (lit : DWord) (a b c : Bool) : DWord × DWord × DWord :=
  (litLow lit (b || c), if a then lit >>> 32 else litLow lit c, litHigh lit (a || b))

/-! ## Sources -/

/-- The place of a half of a latch. -/
def latchIdx (p : Nat) (n : BitVec 2) (high : Bool) : Nat := 8 * p + 2 * n.toNat + if high then 1 else 0
/-- A half of a latch in a lane: what the clause wrote there, else a free value (R152, log entry 10). A 32-bit result fills the low half
alone, so the high half stands as it was. -/
def State.rdHalf (s : State) (v : Convoy) (p : Nat) (n : BitVec 2) (high : Bool) : Word :=
  (tget v.latch (latchIdx p n high)).getD (Config.freeLatch (s.free * 4096 + latchIdx p n high))
/-- All 64 bits of a latch. -/
def State.rdLatch (s : State) (v : Convoy) (p : Nat) (n : BitVec 2) : DWord := s.rdHalf v p n true ++ s.rdHalf v p n false

/-- A V source in a lane, 32 or 64 bits wide; a 32-bit value stands in the low half. -/
def State.src (s : State) (v : Convoy) (l : Ln) (w64 : Bool) (lit : DWord) : VSrc → DWord
  | .v n => if w64 then s.rdV64 l.f n.toNat else (s.rdV l.f n.toNat).setWidth 64
  | .b n => if w64 then s.rdLatch v l.pos n else (s.rdHalf v l.pos n false).setWidth 64
  | .s n => if w64 then v.u.rd64 n.toNat else (v.u.rd n.toNat).setWidth 64
  | .lit => if w64 then lit else (lit.setWidth 32).setWidth 64
/-- A 32-bit V source. -/
def State.src32 (s : State) (v : Convoy) (l : Ln) (lit : DWord) (x : VSrc) : Word := (s.src v l false lit x).setWidth 32
/-- Operand B of the integer forms: a source, or the short immediate sign-extended to N (R182). -/
def State.bsrc (s : State) (v : Convoy) (l : Ln) (w64 : Bool) (lit : DWord) : BSrc → DWord
  | .src x => s.src v l w64 lit x
  | .imm i => if w64 then i.signExtend 64 else (i.signExtend 32).setWidth 64
/-- A uniform 32-bit source. -/
def sval (u : Unif) (lit : DWord) (x : SSrc) : Word := match x with
  | .s n => u.rd n.toNat
  | .lit => lit.setWidth 32
/-- A source of a uniform form (R228): an s register or pair, or the literal. -/
def uval (u : Unif) (w64 : Bool) (lit : DWord) (x : VSrc) : DWord := match x with
  | .s n => if w64 then u.rd64 n.toNat else (u.rd n.toNat).setWidth 64
  | .lit => if w64 then lit else (lit.setWidth 32).setWidth 64
  | .v _ => 0
  | .b _ => 0

/-! ## Destinations -/

/-- Writes a V destination of a lane: a register or pair, or the latch (R152). -/
def State.dst (s : State) (c : Nat) (l : Ln) (w64 : Bool) (d : VDst) (x : DWord) : State := match d with
  | .v n => if w64 then s.wrV64 l.f n.toNat x else s.wrV l.f n.toNat (x.setWidth 32)
  | .b n => s.modConvoy c fun v =>
    let low := tput v.latch (latchIdx l.pos n false) (x.setWidth 32)
    { v with latch := if w64 then tput low (latchIdx l.pos n true) (x.extractLsb' 32 32) else low }
/-- The old value of a V destination, where an instruction reads it (bfi, qnt, cvt). -/
def State.old (s : State) (v : Convoy) (l : Ln) (w64 : Bool) : VDst → DWord
  | .v n => s.src v l w64 0 (.v n)
  | .b n => s.src v l w64 0 (.b n)
/-- Marks a latch as written by the clause (R405). -/
def State.markLatch (s : State) (c : Nat) (d : VDst) : State := match d with
  | .v _ => s
  | .b n => s.modConvoy c fun v => { v with latw := v.latw ||| (1#4 <<< n.toNat) }
/-- Writes a list of lane results, lowest position first. -/
def State.dsts (s : State) (c : Nat) (w64 : Bool) (d : VDst) (r : List (Ln × DWord)) : State :=
  r.foldl (fun s x => s.dst c x.1 w64 d x.2) (s.markLatch c d)

/-! ## Registers an instruction names (R404, R405) -/

/-- A run of v registers that an instruction reads or writes in each active lane: first, count, written. -/
structure RegUse where
  n : Nat
  cnt : Nat
  write : Bool
  deriving DecidableEq, Repr

def vregs (x : VSrc) (w64 : Bool) : List RegUse := match x with
  | .v n => [⟨n.toNat, if w64 then 2 else 1, false⟩]
  | .b _ => []
  | .s _ => []
  | .lit => []
def bregs (x : BSrc) (w64 : Bool) : List RegUse := match x with
  | .src y => vregs y w64
  | .imm _ => []
def dregs (x : VDst) (w64 : Bool) : List RegUse := match x with
  | .v n => [⟨n.toNat, if w64 then 2 else 1, true⟩]
  | .b _ => []
/-- kN as a run of four. -/
def kRegs (n : BitVec 6) (write : Bool) : List RegUse := [⟨4 * n.toNat, 4, write⟩]

/-- The latches a source names. -/
def vlatches (x : VSrc) : List (BitVec 2) := match x with
  | .b n => [n]
  | .v _ => []
  | .s _ => []
  | .lit => []
def blatches (x : BSrc) : List (BitVec 2) := match x with
  | .src y => vlatches y
  | .imm _ => []
/-- The registers and latches of an address operand. -/
def aregs (a : AddrOp) : List RegUse :=
  (match a.space with
   | .k n => kRegs n false
   | .ks _ => []
   | .tile _ => []
   | .win => []) ++ (match a.off with
   | some x => vregs x false
   | none => [])
def alatches (a : AddrOp) : List (BitVec 2) := match a.off with
  | some x => vlatches x
  | none => []

end Sys2Proof.Machine
end

