-- ==== Sys2Proof/Machine/Touch.lean ====
section
/-! DEFINITION. What every access beyond the lanes does on its way, whoever makes it: translation by the extent map with its caches
(R16, R358–R360), the keys of pool lines (R322, R357), the memory-side cache (R110–R114), bank sets and rows (R116–R118, R334),
marked pages (R324) and the extents a world writes (R327). -/

namespace Sys2Proof.Machine

/-! ## Translation (R16, R358–R360) -/

/-- Where the bytes of the tray pool and of host memory stand in the table of bytes: beyond the device's own space, under their
translated addresses (CXL fabric and PCIe bus). -/
def poolPhys : Addr := 2 ^ 64
def hostPhys : Addr := 2 ^ 65

/-- The twin of an HBM address (R67). -/
def twinOf (a : Addr) : Addr := a + 0x40_0000_0000
/-- Whether a line lies in a range formed with TWIN. -/
def State.twinned (s : State) (line : Addr) : Bool :=
  s.worlds.any fun w => w.2.ranges.any fun r => r.2.2.1 && decide (r.1 ≤ line) && decide (line < r.1 + r.2.1)
/-- The other copy of a line of a twinned range (R67). -/
def State.mate (s : State) (line : Addr) : Option Addr :=
  if s.twinned line then some (twinOf line)
  else if 0x40_0000_0000 ≤ line ∧ line < 0x80_0000_0000 ∧ s.twinned (line - 0x40_0000_0000) then some (line - 0x40_0000_0000)
  else none
/-- The address under which a line is reported: of a twinned pair the primary's (R469). -/
def State.primary (s : State) (line : Addr) : Addr := match s.mate line with
  | some m => min line m
  | none => line
/-- A record for a line (R434–R436, R469): of the memory controller or the CXL port, or of the MSC slice that found the error. ADDR is the
primary address of the line. -/
def State.lineFields (s : State) (r : Rec) (line : Addr) (recov : BitVec 4) (e : LineErr) : Rec :=
  { r with source := (if e = .slice then 0x17 else if line < 0x80_0000_0000 then 0x16 else 0x18), cls := 0x11, recov := recov,
           addr := s.primary line, pos := 0, iter := 0, code := r.code + (if e = .mac then 2 else 1) }
/-- Whether a line reads well. -/
def State.sound (s : State) (line : Addr) : Bool := (tget s.hbm.bad line).isNone && (tget s.hbm.lost line).isNone
/-- Whether the MAC of a line fails for a colour: it was made under another's key (R322). -/
def State.macFails (s : State) (colour : Nat) (line : Addr) : Bool := match tget s.hbm.keyed line with
  | some c => c != colour
  | none => false
/-- Whether the line of a table entry, which is read under the hypervisor's key, is uncorrectable, without a twin to serve it (R360, R437). -/
def State.tableBad (s : State) (a : Addr) : Bool :=
  let l := a / 128 * 128
  let good (x : Addr) : Bool := s.sound x && !s.macFails s.mgmt.hyp x
  !good l && ((tget s.hbm.lost l).isSome || !(s.mate l).any good)
/-- The directory entry of a window offset, and that of the second level (R358). -/
def entryAt (base : DWord) (i : Nat) : Addr := (base.extractLsb' 12 27).toNat * 4096 + 8 * i
/-- Whether a fresh walk meets an uncorrectable table line. -/
def State.walkBad (s : State) (root : DWord) (limit w : Nat) : Bool :=
  root.getLsbD 63 && decide (w / 2 ^ 30 < limit) &&
    (s.tableBad (entryAt root (w / 2 ^ 30)) ||
      (let e := s.rd64 (entryAt root (w / 2 ^ 30))
       e.getLsbD 63 && !e.getLsbD 62 && s.tableBad (entryAt e (w / 2 ^ 21 % 512))))
/-- The leaf that a fresh walk finds for a window offset: its 64 bits and size, none when the walk fails (R358, R437). -/
def State.walk (s : State) (root : DWord) (limit w : Nat) : Option (DWord × Nat) :=
  if !root.getLsbD 63 || decide (w / 2 ^ 30 ≥ limit) || s.walkBad root limit w then none
  else
    let e := s.rd64 (entryAt root (w / 2 ^ 30))
    if !e.getLsbD 63 then none
    else if e.getLsbD 62 then some (e, 2 ^ 30)
    else
      let e2 := s.rd64 (entryAt e (w / 2 ^ 21 % 512))
      if e2.getLsbD 63 && e2.getLsbD 62 then some (e2, 2 ^ 21) else none

/-- Bytes of a bank set, and a bank set (R116). -/
def gib6 : Nat := 6 * 2 ^ 30
def State.bankSet (s : State) (g : Nat) : BankSet := (tget s.hbm.sets g).getD {}
/-- The extent cache that serves an address: 0–3 the CXL ports by 4 KiB, 4 the PCIe port. -/
def extPort (pool : Bool) (w : Nat) : Nat := if pool then w / 4096 % 4 else 4
/-- A cached leaf (R360): port, first window offset, leaf; its size is told by the low bit of the key. -/
def State.extLookup (s : State) (port w : Nat) : Option (DWord × Nat) :=
  match s.host.extCache.find? (fun x => x.1 == port && (x.2.1 == w / 2 ^ 30 * 2 ^ 30 + 1 || x.2.1 == w / 2 ^ 21 * 2 ^ 21)) with
  | some (_, k, e) => some (e, if k % 2 = 1 then 2 ^ 30 else 2 ^ 21)
  | none => none
/-- Whether a leaf serves an access (R359). -/
def leafOk (e : DWord) (colour : Nat) (write : Bool) : Bool :=
  e.getLsbD 63 && (e.extractLsb' 48 12).toNat == colour && (!write || e.getLsbD 61)
/-- The leaf by which an address of the pool or of the host window is translated now, with its size, its port, the offset in the
window and where the window's targets stand in the table of bytes. -/
def State.leaf (s : State) (a : Addr) : Option (DWord × Nat × Nat × Nat × Addr) := match window a with
  | .pool =>
    let w := a - 0x1_0000_0000_0000
    (s.extLookup (extPort true w) w <|> s.walk s.host.extRootP 6144 w).map fun e => (e.1, e.2, extPort true w, w, poolPhys)
  | .host =>
    let w := a - 0x2_0000_0000_0000
    (s.extLookup 4 w <|> s.walk s.host.extRootH 65536 w).map fun e => (e.1, e.2, 4, w, hostPhys)
  | .hbm => none
  | .regs _ => none
  | .acc _ => none
  | .spad _ _ => none
  | .unmapped => none
/-- The translated place of an address under a leaf. -/
def leafPlace (l : DWord × Nat × Nat × Nat × Addr) : Addr := l.2.2.2.2 + (l.1.extractLsb' 4 43).toNat * 2 ^ 21 + l.2.2.2.1 % l.2.1
/-- The place of a byte in the table of bytes, for an access of a colour; cause 0x0B when the extent map refuses it, 0x09 where there is
no memory (R15, R119). -/
def State.phys (s : State) (colour : Nat) (write : Bool) (a : Addr) : Except Nat Addr :=
  let mapped : Except Nat Addr := match s.leaf a with
    | some l => if leafOk l.1 colour write then .ok (leafPlace l) else .error 0x0B
    | none => .error 0x0B
  match window a with
  | .pool => mapped
  | .host => mapped
  | .hbm => if (s.bankSet (a / gib6)).alloc then .ok a else .error 0x09
  | .regs _ => .ok a
  | .acc _ => .ok a
  | .spad _ _ => .ok a
  | .unmapped => .error 0x09
/-- The place in the table of bytes of an address that an access has checked before (R359). -/
def State.home (s : State) (a : Addr) : Addr :=
  let mapped : Addr := match s.leaf a with
    | some l => leafPlace l
    | none => a
  match window a with
  | .pool => mapped
  | .host => mapped
  | .hbm => a
  | .regs _ => a
  | .acc _ => a
  | .spad _ _ => a
  | .unmapped => a
/-- The colour that a checked access to an address runs for, as its leaf names it; 0 outside the translated windows. -/
def State.leafColour (s : State) (a : Addr) : Nat := ((s.leaf a).map fun l => (l.1.extractLsb' 48 12).toNat).getD 0
/-- The extent-map tables (R358): the directory of each window, and the second-level tables that it points to. -/
def State.extTables (s : State) : List (Addr × Nat) :=
  [(s.host.extRootP, 6144), (s.host.extRootH, 65536)].flatMap fun r =>
    if !r.1.getLsbD 63 then []
    else (entryAt r.1 0, 8 * r.2) :: (List.range r.2).filterMap fun i =>
      let e := s.rd64 (entryAt r.1 i)
      if e.getLsbD 63 && !e.getLsbD 62 then some (entryAt e 0, 4096) else none
/-- Whether a range of bytes touches an extent-map table. -/
def State.onTable (s : State) (a n : Nat) : Bool := s.extTables.any fun r => decide (a < r.1 + r.2) && decide (r.1 < a + n)
/-- The cause by which a write of n bytes at an address through a capability is refused for want of MAP: the bytes touch an extent-map
table (R49, R358). -/
def State.mapCause (s : State) (k : Cap) (a n : Nat) : Option Nat :=
  if !k.has permMap && n != 0 && s.onTable a n then some 0x07 else none

/-- Whether an address lies in scratchpad or HBM, the stores whose granules hold tags beyond the registers (R52, R54). -/
def tagHome (a : Addr) : Bool := match window a with
  | .hbm => true
  | .spad _ _ => true
  | .pool => false
  | .host => false
  | .regs _ => false
  | .acc _ => false
  | .unmapped => false
/-- Whether an access of a colour to a byte of memory that no capability of kind RXWIN authorises is performed: mapped, translated and
fenced (R16, R103, R119, R359). -/
def State.okAt (s : State) (colour : Nat) (write : Bool) (a : Addr) : Bool := match window a, s.phys colour write a with
  | .spad core bank, _ => s.fenced core bank colour
  | .regs _, _ => false
  | .acc _, _ => false
  | _, .ok _ => true
  | _, .error _ => false
/-- The same of a range: of a byte in each step of 2 MiB, the least extent, and of its last byte. -/
def State.okRange (s : State) (colour : Nat) (write : Bool) (a n : Nat) : Bool :=
  ((List.range ((n - 1) / 2 ^ 21 + 1)).all fun i => s.okAt colour write (a + 2 ^ 21 * i)) && s.okAt colour write (a + n - 1)

/-! ## Memory keys of the pool (R322, R323, R357) -/

/-- The key of a colour: its key slot since it was last overwritten. -/
def State.keyId (s : State) (colour : Nat) : Nat := 4096 * (tget s.mgmt.epochs colour).getD 0 + colour
/-- What a byte of the pool, at window address a and place p, reads as under a colour's key: the byte written, when the line was
written under the same key and at the same window address (the tweak), else what the cipher makes of it. -/
def State.poolByte (s : State) (colour : Nat) (a p : Addr) : Byte := match tget s.host.poolKeys (p / 128 * 128) with
  | none => s.rd8 p
  | some (k, l) =>
    if k = s.keyId colour ∧ l = a / 128 * 128 then s.rd8 p
    else (Config.poolCipher k (s.keyId colour) (a / 16 * 16) (BitVec.ofNat 128 (s.rdNat (p / 16 * 16) 16))).extractLsb' (8 * (p % 16)) 8
/-- Before a write under a colour's key, a line of the pool that stands under another key, or another tweak, takes the bytes that the
writer's read of it gives. -/
def State.rekey (s : State) (colour : Nat) (a p : Addr) : State :=
  let line := p / 128 * 128
  let mine := (s.keyId colour, a / 128 * 128)
  if tget s.host.poolKeys line = some mine then s
  else
    let t := s.wrRaw line ((List.range 128).map fun i => s.poolByte colour (a / 128 * 128 + i) (line + i))
    { t with host := { t.host with poolKeys := tput t.host.poolKeys line mine } }
/-- A byte at its place, read for a colour. -/
def State.byteFor (s : State) (colour : Nat) (a p : Addr) : Byte := if poolPhys ≤ p ∧ p < hostPhys then s.poolByte colour a p else s.rd8 p
/-- A byte written at its place for a colour. -/
def State.putByteFor (s : State) (colour : Nat) (a p : Addr) (x : Byte) : State :=
  if poolPhys ≤ p ∧ p < hostPhys then (s.rekey colour a p).wr8 p x else s.wr8 p x
/-- n bytes of a range that an access has checked before. -/
def State.rdHome (s : State) (a n : Nat) : List Byte := (List.range n).map fun i => s.byteFor (s.leafColour (a + i)) (a + i) (s.home (a + i))
/-! ## Counters of worlds (R336, R337) -/

/-- Where counter word n of a group of a colour's world stands. -/
def counterKey (colour group n : Nat) : Nat := colour * 64 + group * 8 + n
/-- Raises a counter word, which wraps modulo 2^63. -/
def State.count (s : State) (colour group n by_ : Nat) : State :=
  let k := counterKey colour group n
  let x : DWord := (tget s.host.counters k).getD 0
  { s with host := { s.host with counters := tput s.host.counters k (BitVec.ofNat 64 ((x.toNat + by_) % 2 ^ 63)) } }
/-- The colour of a workgroup's world. -/
def State.wgColour (s : State) (w : Nat) : Nat := ((tget s.wgs w).map (·.colour)).getD 0

/-! ## Places -/

def pageBytes : Nat := 0x1_0000
/-- The 128-byte line of an address. -/
def lineOf (a : Addr) : Addr := a / 128 * 128
/-- The stack of an HBM address (R115). -/
def hbmStack (a : Addr) : Nat := Nat.xor (a / 2 ^ 8 % 8) (4 * (a / 2 ^ 38 % 2))
/-- The MSC slice and set of an HBM or pool line (R110). -/
def mscPlace (a : Addr) : Nat × Nat :=
  if a < 0x80_0000_0000 then
    let n := hbmStack a
    let l := 2 * (a / 2 ^ 11 % 2 ^ 28) + a / 2 ^ 7 % 2
    (2048 * (n / 2) + 1024 * (n % 2) + l % 1024, l / 1024 % 64)
  else
    let l := (a - 0x1_0000_0000_0000) / 128
    (l % 8192, l / 8192 % 64)
/-- The clock domain of the memory controllers that serve an MSC slice. -/
def sliceDomain (slice : Nat) : Nat := 4 + slice / 2048

/-- The 128-byte lines that n bytes from an address touch. -/
def linesOf (a n : Nat) : List Addr := if n = 0 then [] else (List.range ((a + n - 1) / 128 - a / 128 + 1)).map fun i => a / 128 * 128 + 128 * i

/-! ## The memory-side cache (R111–R114) -/

/-- A traffic class of R112. -/
inductive Traffic where
  | rd
  | wr
  | at_
  deriving DecidableEq, Repr

/-- The two mask registers that govern a colour's fills. -/
def State.mscRegs (s : State) (colour : Nat) : Word × Word := match tget s.worlds colour with
  | some w => ((tget s.msc.vda w.vd).getD (if w.vd = 0 then 0xFFFFFFFF else 0), (tget s.msc.vdb w.vd).getD (if w.vd = 0 then 0xFFFF else 0))
  | none => (s.msc.fwa, s.msc.fwb)
/-- The VD a colour's transactions carry. -/
def State.vdOf (s : State) (colour : Nat) : Option Nat := (tget s.worlds colour).map (·.vd)
/-- The ways in which a class allocates, none when it does not. -/
def fillMask (r : Word × Word) : Traffic → BitVec 16
  | .rd => r.1.extractLsb' 0 16
  | .wr => if r.2.getLsbD 17 then 0 else r.1.extractLsb' 16 16
  | .at_ => r.2.extractLsb' 0 16
/-- The least recently used of some lines. No two of a slice are equal: a use stands above all before it, and a fill that RDSTREAM places as
least recently used below them all (R111). -/
def lruOf : List MscLine → Option MscLine
  | [] => none
  | x :: r => match lruOf r with
    | none => some x
    | some y => if y.used < x.used ∨ (y.used = x.used ∧ y.way < x.way) then some y else some x
/-- The way a fill takes in a set under a mask: the lowest invalid way, else that of the least recently used line. -/
def victimWay (set : List MscLine) (mask : BitVec 16) : Option Nat :=
  match (List.range 16).find? fun w => mask.getLsbD w && set.all fun x => x.way != w with
  | some w => some w
  | none => (lruOf (set.filter fun x => mask.getLsbD x.way)).map (·.way)
/-- The monitors' hit counters after a hit of a VD in a slice (R114). -/
def Msc.hits (m : Msc) (slice : Nat) (vd : Option Nat) : Tbl Word :=
  (List.range 4).foldl (fun t i =>
    let r : Word := (tget m.monS i).getD 0
    if r.getLsbD 31 && (r.extractLsb' 8 13).toNat == slice && some (r.extractLsb' 0 8).toNat == vd then
      tput t i ((tget t i).getD 0 + 1)
    else t) m.monH
/-- Counts a hit in the monitors that watch the VD in the slice (R114). -/
def State.monitorHit (s : State) (slice : Nat) (vd : Option Nat) : State :=
  { s with msc := { s.msc with monH := s.msc.hits slice vd } }
/-- Lines that go back to memory whole: a failing or a lost line there is replaced (R434, R436). -/
def State.mendLines (s : State) (ls : List Addr) : State :=
  { s with hbm := { s.hbm with bad := s.hbm.bad.filter (fun x => !ls.contains x.1), lost := s.hbm.lost.filter fun x => !ls.contains x.1 } }
def State.modBank (s : State) (g : Nat) (f : BankSet → BankSet) : State :=
  { s with hbm := { s.hbm with sets := tput s.hbm.sets g (f (s.bankSet g)) } }
/-- The clock in which the counts of bank sets run, those of cache die 0's memory controllers (log entry 19). -/
def bankDomain : Nat := 4
/-- An access reaches the bank set of a line: its idle count starts again, and one that sleeps begins to wake (R117, R118). -/
def State.reach (s : State) (line : Addr) : State := s.modBank (line / gib6) fun b =>
  { b with last := s.now bankDomain, waking := if b.state = 0 then none else some (b.waking.getD (s.now bankDomain)) }
/-- Slices write lines back: accesses to their bank sets (R117). -/
def State.linesBack (s : State) (ls : List Addr) : State :=
  (ls.filter fun l => decide (l < 0x80_0000_0000)).foldl (fun s l => s.reach l) (s.mendLines ls)
/-- Copies a line with its tags. -/
def State.copyLine (s : State) (src dst : Addr) : State :=
  (List.range 8).foldl (fun s i => s.wrCap (dst + 16 * i) (s.rdCap (src + 16 * i))) s
/-- How a read of an HBM line by a colour fails, if it does: by its MAC, or not (R434). -/
def State.lineFault (s : State) (colour : Nat) (line : Addr) : Option Bool :=
  if s.macFails colour line then some true else tget s.hbm.bad line
/-- Sets the key of a line to its own world's again. -/
def State.unkey (s : State) (line : Addr) : State := { s with hbm := { s.hbm with keyed := tdel s.hbm.keyed line } }
/-- A line leaves the memory-side cache. -/
def State.dropLine (s : State) (line : Addr) : State :=
  { s with msc := { s.msc with lines := s.msc.lines.filter fun x => x.line != line } }
/-- What an access that reads a line from its memory meets there, for a colour: whether the line delivers its bytes, and what is reported.
A failing line of a twinned pair is repaired from the other copy when that is good, else it is lost (R434, R436); the slice that found an
error reports the first read that meets it, the memory controller those after it (log entry 63). -/
def State.meetLine (s : State) (colour : Nat) (line : Addr) : State × Bool × Option (BitVec 4 × LineErr) :=
  let gone (e : LineErr) (kept : LineErr) : State × Bool × Option (BitVec 4 × LineErr) :=
    (({ s with hbm := { s.hbm with bad := tdel s.hbm.bad line, lost := tput s.hbm.lost line kept } }).count colour 3 6 1, false, some (0xA, e))
  match window line, tget s.hbm.lost line with
  | .hbm, some e => gone e (if e = .slice then .ecc else e)
  | .pool, some e => gone e (if e = .slice then .ecc else e)
  | .hbm, none => match s.lineFault colour line with
    | none => (s, true, none)
    | some mac =>
      let e : LineErr := if mac then .mac else .ecc
      match (s.mate line).filter fun m => s.sound m && !s.macFails colour m with
      | some m => ((((s.copyLine m line).mendLines [line]).unkey line).count colour 3 5 1, true, some (0x9, e))
      | none => gone e e
  | _, _ => (s, true, none)
/-- Whether the bytes of a line are not kept: it is lost, and no slice holds it (R436). -/
def State.poisoned (s : State) (a : Addr) : Bool :=
  (tget s.hbm.lost (a / 128 * 128)).isSome && !s.msc.lines.any fun x => x.line == a / 128 * 128
/-- Writes bytes of a range that an access has checked before; every granule touched loses its tag (R52),
and a lost line keeps none of the bytes (R436). -/
def State.wrHome (s : State) (a : Addr) (bs : List Byte) : State :=
  ((List.range bs.length).foldl (fun t i =>
      if t.poisoned (a + i) then t else t.putByteFor (t.leafColour (a + i)) (a + i) (t.home (a + i)) (bs.getD i 0)) s).clearTags
    (s.home a) bs.length

/-- Writes bytes at their own addresses, where their line keeps them (R436). -/
def State.wrKept (s : State) (a : Addr) (bs : List Byte) : State := if s.poisoned a then s else s.wrRaw a bs
/-- The same, and every granule touched loses its tag (R52). -/
def State.storeKept (s : State) (a : Addr) (bs : List Byte) : State := if s.poisoned a then s else s.wrBytes a bs
/-- Whether a colour's lookup of a line hits. -/
def State.mscHit (s : State) (colour : Nat) (line : Addr) : Bool := s.msc.lines.any fun x => x.line == line && x.colour == colour
/-- The target range of a near-memory operation. -/
def CmdOp.nmcRange : CmdOp → Option (Addr × Nat)
  | .nmc t _ _ doff len _ _ _ => some (t.lo + doff, len)
  | _ => none
/-- Whether a line lies in the target range of a near-memory command that runs: no slice allocates it (R137). -/
def State.nmcRuns (s : State) (line : Addr) : Bool := s.cmds.any fun y => y.2.phase == .running &&
  (match (y.2.inner.getD y.2.op).nmcRange with
   | some r => decide (r.1 < line + 128) && decide (line < r.1 + r.2)
   | none => false)
/-- A lookup of a line by a colour (R112): a hit, or a fill where the class allocates. A displaced dirty line is written back. -/
def State.touchMsc (s : State) (colour : Nat) (t : Traffic) (line : Addr) : State :=
  let pl := mscPlace line
  let vd := s.vdOf colour
  let now := s.now (sliceDomain pl.1)
  let n := s.msc.uses + 1
  let dirty (d : Option Nat) : Option Nat := match t with
    | .rd => d
    | .wr => some (d.getD now)
    | .at_ => some (d.getD now)
  match s.msc.lines.find? fun x => x.line == line && x.colour == colour with
  | some _ =>
    let ls := s.msc.lines.map fun x => if x.line == line then { x with used := n, dirty := dirty x.dirty } else x
    ({ s with msc := { s.msc with uses := n, lines := ls } }).monitorHit pl.1 vd
  | none =>
    let back (p : MscLine → Bool) : List Addr := (s.msc.lines.filter fun x => x.dirty.isSome && p x).map (·.line)
    let ls := s.msc.lines.filter fun x => x.line != line
    let r := s.mscRegs colour
    let way := if s.nmcRuns line then none else victimWay (ls.filter fun x => x.slice == pl.1 && x.set == pl.2) (fillMask r t)
    match way with
    | none => ({ s with msc := { s.msc with uses := n, lines := ls } }).linesBack (back fun x => x.line == line)
    | some w =>
      let x : MscLine := { line := line, slice := pl.1, set := pl.2, way := w, colour := colour, vd := vd, dirty := dirty none,
                           used := if t = .rd && r.2.getLsbD 16 then -(n : Int) else n }
      let out (y : MscLine) : Bool := y.slice == pl.1 && y.set == pl.2 && y.way == w
      ({ s with msc := { s.msc with uses := n, lines := (ls.filter fun y => !out y) ++ [x] } }).linesBack
        (back fun y => y.line == line || out y)
/-- Writes back the dirty lines a test picks, and drops those a second test picks. -/
def State.writeBack (s : State) (p drop : MscLine → Bool) : State :=
  { s.linesBack ((s.msc.lines.filter fun x => p x && x.dirty.isSome).map (·.line)) with
    msc := { s.msc with lines := (s.msc.lines.filter fun x => !drop x).map fun x => if p x then { x with dirty := none } else x } }

/-! ## Bank sets and rows (R116–R118, R334) -/

/-- Counts the wake of a bank set from a state, for every world that has a range in it (R336, R337). -/
def State.countWake (s : State) (g : Nat) (st : BitVec 2) : State :=
  if st = 0 then s
  else (s.worlds.filter fun w => w.2.ranges.any fun r => decide (r.1 / gib6 ≤ g) && decide (g ≤ (r.1 + r.2.1 - 1) / gib6)).foldl
    (fun s w => s.count w.1 3 (1 + st.toNat) 1) s
/-- An access to a bank set, for the staging or an engine command of a workgroup where one is given (R117). -/
def State.touchBank (s : State) (wg : Option Nat) (line : Addr) : State :=
  let t := s.reach line
  match wg with
  | some w => t.modWg w fun v => if v.touched.contains (line / gib6) then v else { v with touched := (line / gib6) :: v.touched }
  | none => t
/-- A record is owed for what an access met on its way; `tenant`: the world sees it too. -/
def State.note (s : State) (r : Rec) (tenant : Bool) : State := { s with mgmt := { s.mgmt with notes := s.mgmt.notes ++ [(r, tenant)] } }
/-- The count of activations past which a row is throttled (R334). -/
def rowLimit : Nat := 8192
/-- Counts the row activations of an access. The one that crosses the limit begins a throttle, of which a record is owed: one for each row
and period, with the colour of that access (R439, R456). -/
def State.touchRow (s : State) (colour : Nat) (line : Addr) : State :=
  let r := Config.rowOf line
  let n : Nat := (tget s.hbm.rows r).getD 0
  let n1 := n + Config.activations (s.free * 2 ^ 52 + line)
  let owed : List (Rec × Bool) :=
    if n ≤ rowLimit ∧ rowLimit < n1 then [({ source := 0x16, cls := 0x34, colour := colour, recov := 0, addr := r }, false)] else []
  { s with hbm := { s.hbm with rows := tput s.hbm.rows r n1 }, mgmt := { s.mgmt with notes := s.mgmt.notes ++ owed } }
/-- An access to a line of HBM or of the pool. One that a slice serves counts as an access to the line's bank set too (the model's choice, log
entry 99). -/
def State.touchLine (s : State) (colour : Nat) (wg : Option Nat) (t : Traffic) (line : Addr) : State :=
  if line < 0x80_0000_0000 then ((s.touchMsc colour t line).touchBank wg line).touchRow colour line
  else s.touchMsc colour t line

/-- The bank sets a range of HBM touches. -/
def bankSetsOf (a n : Nat) : List Nat :=
  if n = 0 ∨ a ≥ 0x80_0000_0000 then [] else (List.range ((a + n - 1) / gib6 - a / gib6 + 1)).map fun i => a / gib6 + i
/-- The bank sets of some ranges that are not in P0. -/
def State.asleep (s : State) (l : List (Addr × Nat)) : List Nat :=
  (l.flatMap fun r => bankSetsOf r.1 r.2).filter fun g => (s.bankSet g).state != 0
/-- Begins the wake of bank sets, in the background. -/
def State.wake (s : State) (gs : List Nat) : State := gs.foldl (fun s g =>
  s.modBank g fun b => { b with waking := some (b.waking.getD (s.now bankDomain)) }) s

/-! ## Marked pages and written extents (R324, R327) -/

/-- The marked pages that some ranges of HBM touch. -/
def State.marked (s : State) (l : List (Addr × Nat)) : List Nat :=
  (s.hbm.cleared.map (·.1)).filter fun p => l.any fun r => decide (r.2 ≠ 0) && decide (r.1 < (p + 1) * pageBytes) && decide (p * pageBytes < r.1 + r.2)
/-- Zero-fills marked pages under a writer's key: they are no longer marked. -/
def State.fillPages (s : State) (colour : Nat) (ps : List Nat) : State := ps.foldl (fun s p =>
  { s.count colour 3 7 1 with hbm := { s.hbm with cleared := tdel s.hbm.cleared p, zeroing := tdel s.hbm.zeroing p } }) s
/-- Notes the 2 MiB extents of HBM and the pool that a world writes (R327). -/
def State.noteWritten (s : State) (colour a n : Nat) : State :=
  if a ≥ 0x1_0600_0000_0000 then s
  else { s with worlds := tmod s.worlds colour fun w => { w with written :=
    (if n = 0 then [] else List.range ((a + n - 1) / 2 ^ 21 - a / 2 ^ 21 + 1)).foldl (fun t i => tput t ((a / 2 ^ 21 + i) * 2 ^ 21) ()) w.written } }

/-! ## The store queue and the tile buffer (R125, R126, R133, R135) -/

/-- The core in whose scratchpad or tiles an address lies. -/
def storeCore (a : Addr) : Option Nat := match window a with
  | .spad core _ => some core
  | .acc core => some core
  | .hbm => none
  | .pool => none
  | .host => none
  | .regs _ => none
  | .unmapped => none
/-- The local writes of a core's SPs that are not yet performed. -/
def State.pendOf (s : State) (core : Nat) : List PendWrite := (List.range 4).flatMap fun i => (s.sp (4 * core + i)).pend
/-- The first pending write of a fibre other than `who` to some bytes. -/
def State.pendAt (s : State) (who : Option Nat) (a n : Nat) : Option PendWrite := match storeCore a with
  | none => none
  | some core => (s.pendOf core).find? fun e => some e.fib != who && decide (e.addr < a + n) && decide (a < e.addr + e.old.length)
/-- The words of the tile buffer that some performed writes overlap stand in the tile array (R124, R133). -/
def overTiles (l : List (Addr × Nat)) (b : List TileBuf) : List TileBuf :=
  b.map fun t => { t with words := t.words.filter fun w => !l.any fun e => decide (e.1 < w.1 + 4) && decide (w.1 < e.1 + e.2) }
/-- The n oldest pending writes of an SP are performed. -/
def Sp.perform (n : Nat) (p : Sp) : Sp :=
  { p with pend := p.pend.drop n, tbuf := overTiles ((p.pend.take n).map fun e => (e.addr, e.old.length)) p.tbuf }
/-- The pending writes of some fibres are performed, and those before them. -/
def Sp.performOf (ids : List Nat) (p : Sp) : Sp :=
  p.perform (p.pend.length - (p.pend.reverse.takeWhile fun e => !ids.contains e.fib).length)
/-- Performs the pending writes of an SP, and of a core. -/
def State.drainSp (s : State) (p : Nat) : State := if (s.sp p).pend.isEmpty then s else s.modSp p fun q => q.perform q.pend.length
def State.drainCore (s : State) (core : Nat) : State := (List.range 4).foldl (fun s i => s.drainSp (4 * core + i)) s
/-- Performs what is pending before another party writes some bytes. -/
def State.drainAt (s : State) (who : Option Nat) (a n : Nat) : State := match s.pendAt who a n, storeCore a with
  | some _, some core => s.drainCore core
  | _, _ => s
/-- A party is about to write some bytes at once: what is pending there is performed, and no word there waits for the tile array. -/
def State.settleAt (s : State) (a n : Nat) : State :=
  let t := s.drainAt none a n
  match window a with
  | .acc core => { t with sps := t.sps.map fun q => if coreOf q.1 = core then (q.1, { q.2 with tbuf := overTiles [(a, n)] q.2.tbuf }) else q }
  | .spad _ _ => t
  | .hbm => t
  | .pool => t
  | .host => t
  | .regs _ => t
  | .unmapped => t
/-- The words of a tile buffer's commands that a test picks reach the tile array. -/
def drainTiles (p : TileBuf → Bool) (l : List TileBuf) : List TileBuf :=
  let out := (l.filter p).flatMap fun b => b.words.map (·.1)
  (l.filter fun b => !p b).map fun b => { b with words := b.words.filter fun w => !out.contains w.1 }
/-- The same for the SPs of a core. -/
def State.drainTilesOf (s : State) (core : Nat) (p : TileBuf → Bool) : State :=
  { s with sps := s.sps.map fun q => if coreOf q.1 = core then (q.1, { q.2 with tbuf := drainTiles p q.2.tbuf }) else q }

/-! ## Accesses that no engine carries out -/

/-- The leaf that serves an access enters the extent cache of its port: 512 entries, least recently used; one that fails R359 does
not (R360). -/
def State.extTouch (s : State) (colour : Nat) (write : Bool) (a : Addr) : State := match s.leaf a with
  | none => s
  | some (e, sz, port, w, _) =>
    if !leafOk e colour write then s
    else
      let key := if sz = 2 ^ 30 then w / 2 ^ 30 * 2 ^ 30 + 1 else w / 2 ^ 21 * 2 ^ 21
      let rest := s.host.extCache.filter fun x => !(x.1 == port && x.2.1 == key)
      let mine := (rest.filter fun x => x.1 == port).take 511
      { s with host := { s.host with extCache := (port, key, e) :: (rest.filter fun x => x.1 != port) ++ mine } }
/-- The passage of an access to one line. One that misses in the cache meets the line in its memory, unless it writes the whole of it; the
record that this takes is written at the end of the step (R434, R436). -/
def State.passLine (s : State) (colour : Nat) (wg : Option Nat) (t : Traffic) (whole : Bool) (line : Addr) : State :=
  let s1 := s.touchLine colour wg t line
  if s.mscHit colour line then s1
  else if whole then (s1.mendLines [line]).unkey line
  else
    let r := s1.meetLine colour line
    let s2 := if r.2.1 then r.1 else r.1.dropLine line
    match r.2.2 with
    | some x => s2.note (s2.lineFields { source := 0, cls := 0, colour := colour, recov := 0 } line x.1 x.2) (x.1 == 0xA)
    | none => s2
/-- The passage of an access to n bytes for a colour and a workgroup: cache, bank sets, rows, lines that fail, extent caches. -/
def State.passage (s : State) (colour : Nat) (wg : Option Nat) (t : Traffic) (a n : Nat) : State :=
  let write : Bool := match t with
    | .rd => false
    | .wr => true
    | .at_ => true
  let go : State := (linesOf a n).foldl (fun s l =>
    (if l < 0x1_0600_0000_0000 then s.passLine colour wg t (t == .wr && decide (a ≤ l) && decide (l + 128 ≤ a + n)) l else s).extTouch colour
      write l) s
  match window a with
  | .hbm => go
  | .pool => go
  | .host => go
  | .regs _ => s
  | .acc _ => s
  | .spad _ _ => s
  | .unmapped => s
/-- The passage of a read, and that of a write: marked pages are filled first, and the extents written are noted. -/
def State.passRd (s : State) (colour : Nat) (wg : Option Nat) (a n : Nat) : State := s.passage colour wg .rd a n
def State.passWr (s : State) (colour : Nat) (wg : Option Nat) (a n : Nat) : State :=
  ((s.fillPages colour (s.marked [(a, n)])).noteWritten colour a n).passage colour wg .wr a n
/-- The first addresses of the 128 KiB blocks that a range touches. -/
def blocksOf (a n : Nat) : List Addr :=
  if n = 0 then [] else (List.range ((a + n - 1) / 0x2_0000 - a / 0x2_0000 + 1)).map fun i => max a ((a / 0x2_0000 + i) * 0x2_0000)
/-- The SP whose state an on-chip address is: that of a row or a tile, or the one a bank's fence names. -/
def State.spAt (s : State) (a : Addr) : Option Nat := match window a, onchip a with
  | .regs c, some (_, o) => some (4 * c + o / 0x8_0000)
  | .acc c, some (_, o) => some (4 * c + (o - 0x20_0000) / 0x10_0000)
  | .spad c b, _ => s.fence c b
  | _, _ => none
/-- An access to an SP wakes it (R319, R346). -/
def State.wakeSp (s : State) (p : Nat) : State := if (s.sp p).power = .on then s else s.modSp p fun q => { q with power := .on }
/-- The SP of an on-chip access wakes. -/
def State.wakeFor (s : State) (a : Addr) : State := match s.spAt a with
  | some p => s.wakeSp p
  | none => s
/-- The SPs of an access to n bytes wake. -/
def State.wakeRange (s : State) (a n : Nat) : State := match onchip a with
  | none => s
  | some _ => (blocksOf a n).foldl (fun s b => s.wakeFor b) s
/-- A 32-bit write on the bus for a colour, such as a completion or status word; whether it is performed: the storage takes it, and for
the host window the link is up (R461). -/
def State.bus32 (s : State) (colour : Nat) (a : Addr) (v : Word) : State × Bool :=
  if s.okRange colour true a 4 && (s.host.linkUp || window a != .host) then
    ((((s.wakeRange a 4).settleAt a 4).passWr colour none a 4).wrHome a (leBytes 4 v.toNat), true)
  else (s, false)
/-- Raises an MSI-X vector; one raised while the link is down is lost (R349, R461). -/
def State.raise (s : State) (v : Nat) : State :=
  if s.host.linkUp then { s with host := { s.host with vectors := s.host.vectors ++ [v] } } else s
/-- A posted write waits for the bank sets of some ranges, which begin to wake (R118). -/
def State.keepPosted (s : State) (rs : List (Addr × Nat)) (p : Posted) : State :=
  let t := s.wake (s.asleep rs)
  { t with hbm := { t.hbm with posted := t.hbm.posted ++ [p] } }
/-- A 32-bit write on the bus, with the vector that follows it once it is written: at once, or as its bank set wakes (R118, R349). -/
def State.post32 (s : State) (colour : Nat) (a : Addr) (v : Word) (vector : Option Nat) : State :=
  if s.okRange colour true a 4 && !(s.asleep [(a, 4)]).isEmpty then s.keepPosted [(a, 4)] { colour := colour, addr := a, what := .word v vector }
  else
    let t := s.bus32 colour a v
    match vector with
    | some n => if t.2 then t.1.raise n else t.1
    | none => t.1

end Sys2Proof.Machine
end

