-- ==== Sys2Proof/Machine/Report.lean ====
section
/-! DEFINITION. What the engines and the instructions share: edge queues as words of memory (R274, R275, R443), error records (R384,
R385, R464), tile progress words (R258, R284), engine counters (R78, R425), traffic to peers (R363, R458, R459), and the commands
in flight (R107, R128). -/

namespace Sys2Proof.Machine

/-! ## Edge queues (R274, R275, R443) -/

/-- The header's counts. -/
structure QHdr where
  cap : Nat
  rsv : Nat
  tail : Nat
  crsv : Nat
  head : Nat
  deriving DecidableEq, Repr

/-- A 32-bit word of a header. -/
def State.qword (s : State) (b i : Nat) : Nat := leNat (s.rdHome (b + 4 * i) 4)
def State.putQword (s : State) (b i v : Nat) : State := s.wrHome (b + 4 * i) (leBytes 4 (v % 2 ^ 32))
def State.qhdr (s : State) (b : Addr) : QHdr := ⟨s.qword b 0, s.qword b 1, s.qword b 2, s.qword b 3, s.qword b 4⟩
/-- (a − b) mod 2^32. -/
def sub32 (a b : Nat) : Nat := (a % 2 ^ 32 + 2 ^ 32 - b % 2 ^ 32) % 2 ^ 32
/-- R443: an inconsistent header. -/
def QHdr.bad (h : QHdr) : Bool :=
  decide (h.cap < 2) || decide (h.cap > 65536) || decide (sub32 h.rsv h.tail > h.cap) || decide (sub32 h.tail h.crsv > h.cap)
    || decide (sub32 h.crsv h.head > h.cap)
/-- CAP − (RSV − HEAD) (R274). -/
def QHdr.free (h : QHdr) : Nat := sub32 h.cap (sub32 h.rsv h.head)
/-- The pad before n slots, so that they do not cross the end (R277). -/
def QHdr.pad (h : QHdr) (n : Nat) : Nat := let i := h.rsv % h.cap; if h.cap - i < n then h.cap - i else 0
/-- Room for n slots (R277). -/
def QHdr.room (h : QHdr) (n : Nat) : Bool := decide (sub32 (h.rsv + h.pad n + n) h.head ≤ h.cap)
def slotAddr (b i : Nat) : Addr := b + 64 + 64 * i
/-- Writes ERR (R440). -/
def State.qerr (s : State) (b cause slot : Nat) : State :=
  s.putQword b 6 (cause * 2 ^ 24 + min 255 (s.qword b 6 / 2 ^ 16 % 256 + 1) * 2 ^ 16 + slot % 2 ^ 16)
/-- FREE as of now (R274). -/
def State.qfree (s : State) (b : Addr) : State := s.putQword b 5 (s.qhdr b).free
/-- A granule at an address that has been checked: its tag counts where it is aligned and the store holds tags (R52). -/
def State.granuleAt (s : State) (a : Addr) : Cap :=
  ⟨BitVec.ofNat 128 (leNat (s.rdHome a 16)), s.tagAt (s.home a) && a % 16 == 0 && tagHome a⟩
/-- Granules written from an address upward, with their tags where they are aligned and the store holds tags. -/
def State.wrCaps (s : State) (a : Addr) : List Cap → State
  | [] => s
  | k :: ks =>
    let t := s.wrHome a (leBytes 16 k.bits.toNat)
    (if k.tag && a % 16 == 0 && tagHome a then t.setTag (s.home a) true else t).wrCaps (a + 16) ks
/-- n granules from an address. -/
def State.rdCaps (s : State) (a n : Nat) : List Cap := (List.range n).map fun i => s.granuleAt (a + 16 * i)
/-- The reservation of R277: RSV raised and, when the record would cross the end, a skip record in the pad. Answers the start. -/
def State.qreserve (s : State) (b n : Nat) : Nat × State :=
  let h := s.qhdr b
  let p := h.pad n
  let s1 := s.putQword b 1 (h.rsv + p + n)
  (h.rsv, if p = 0 then s1 else s1.wrCaps (slotAddr b (h.rsv % h.cap)) [⟨BitVec.ofNat 128 (256 * (p - 1)), false⟩, nullCap, nullCap, nullCap])
/-- The first slot of a record of n slots whose reservation begins at `start`: after the pad. -/
def QHdr.first (h : QHdr) (start n : Nat) : Nat := if h.cap - start % h.cap < n then 0 else start % h.cap
/-- Copies a record's granules into its slots after the pad. -/
def State.qfill (s : State) (b start n : Nat) (slots : List Cap) : State := s.wrCaps (slotAddr b ((s.qhdr b).first start n)) slots
/-- Publishes: TAIL past the record (and its pad), FREE updated (R277). -/
def State.qpublish (s : State) (b start n : Nat) : State :=
  let h := s.qhdr b
  let i := start % h.cap
  let p := if h.cap - i < n then h.cap - i else 0
  (s.putQword b 2 (start + p + n)).qfree b
/-- A slot's 64 bytes as four untagged granules. -/
def slotCaps (w : BitVec 512) : List Cap := (List.range 4).map fun i => ⟨w.extractLsb' (128 * i) 128, false⟩
/-- Publishes what firmware reserved earlier, once TAIL reaches it (R277, R464). -/
def State.qsettle (s : State) : State :=
  s.mgmt.pubs.foldl (fun s p =>
    if s.qword p.1 2 = p.2.1 then
      { s.qpublish p.1 p.2.1 p.2.2 with mgmt := { s.mgmt with pubs := s.mgmt.pubs.filter (· != p) } }
    else s) s

/-! ## Error records (R384, R385, R464) -/

/-- The 64 bytes of a record. -/
def Rec.bits (r : Rec) (gen : BitVec 8) (seq lost : Nat) : BitVec 512 :=
  BitVec.ofNat 16 lost ++ 0#48 ++ BitVec.ofNat 64 seq ++ r.wgid ++ BitVec.ofNat 32 r.count ++ 0#12 ++ BitVec.ofNat 52 r.addr
    ++ r.iter ++ 0#12 ++ BitVec.ofNat 52 r.pc ++ r.code ++ r.regcnt ++ 0#7 ++ BitVec.ofNat 9 r.pos ++ BitVec.ofNat 8 r.spn ++ gen
    ++ r.recov ++ BitVec.ofNat 12 r.colour ++ r.cls ++ r.source ++ 0x0002#16 ++ 0#6 ++ 0#2 ++ 0x01#8

/-- The capability of a world's event queue, entry 1 of its table (R317). -/
def State.eventCap (s : State) (colour : Nat) : Option Cap := (tget s.worlds colour).map fun w => s.rdCap (w.ctab + 16)
/-- A push dropped and counted in LOST (R385). -/
def State.lose (s : State) (colour : Nat) : State :=
  { s with host := { s.host with lost := tput s.host.lost colour ((tget s.host.lost colour).getD 0 + 1) } }
/-- Pushes a one-slot record of a colour's queue with reservation; its header is consistent and has room (R464). -/
def State.pushOne (s : State) (colour b : Nat) (w : BitVec 512) : State :=
  let (start, s1) := ((s.passWr colour none b 64).passWr colour none (slotAddr b ((s.qhdr b).rsv % (s.qhdr b).cap)) 64).qreserve b 1
  let s2 := s1.qfill b start 1 (slotCaps w)
  if (s2.qhdr b).tail = start then s2.qpublish b start 1
  else { s2 with mgmt := { s2.mgmt with pubs := s2.mgmt.pubs ++ [(b, start, 1)] } }
/-- Why a push into a world's event queue does not happen, beside a full queue: the capability or the storage does not serve it, or the
header is inconsistent. -/
inductive EventQ where
  | absent
  | broken (b : Addr)
  | full
  | ok (b : Addr)
  deriving DecidableEq, Repr
def State.eventQ (s : State) (colour : Nat) : EventQ := match s.eventCap colour with
  | none => .absent
  | some k =>
    let h := s.qhdr k.lo
    let slot := slotAddr k.lo (h.rsv % h.cap)
    if (s.capCause colour k { kinds := [kindQueue], perms := permLd ||| permSt } 0 64).isSome || !s.okRange colour true k.lo 64
        || (linesOf k.lo 64).any (fun l => s.poisoned l) then .absent
    else if h.bad then .broken k.lo
    else if (s.capCause colour k { kinds := [kindQueue] } (slot - k.lo) 64).isSome || !s.okRange colour true slot 64 then .absent
    else if h.room 1 then .ok k.lo else .full
/-- One copy of a record into a colour's event queue, or kept until the queue's memory is awake (R118); answers whether the queue's header was at
fault. -/
def State.deliver (s : State) (colour : Nat) (r : Rec) (gen : BitVec 8) (seq : Nat) : State × Bool :=
  match s.eventQ colour with
  | .absent => (s.lose colour, false)
  | .full => (s.lose colour, false)
  | .broken b => (((s.passWr colour none b 64).qerr b 0x0C 0).lose colour, true)
  | .ok b =>
    let places := [(b, 64), (slotAddr b ((s.qhdr b).rsv % (s.qhdr b).cap), 64)]
    if !(s.asleep places).isEmpty then (s.keepPosted places { colour := colour, addr := b, what := .record r gen seq }, false) else
    let lost := (tget s.host.lost colour).getD 0
    let s1 := s.pushOne colour b (r.bits gen seq lost)
    ({ s1 with host := { s1.host with lost := tdel s1.host.lost colour } }, false)
/-- The next record number. -/
def State.nextSeq (s : State) : State := { s with mgmt := { s.mgmt with seq := s.mgmt.seq + 1 } }
/-- A world whose state the host cannot read (R314). -/
def State.isProtected (s : State) (colour : Nat) : Bool := match tget s.worlds colour with
  | some w => w.mode == .protected_ || w.mode == .forming
  | none => false
/-- The hypervisor's copy of a record of a protected world (R385). -/
def Rec.hide (r : Rec) : Rec := { r with pc := 0, iter := 0, addr := 0, count := 0, pos := 0, code := 0 }
/-- Writes a record: SEQ, the hypervisor's copy, the world's copy when the tenant sees it (R385). A broken queue of the world adds a
QFAULT record for the hypervisor (R464). -/
def State.record (s : State) (r : Rec) (tenant : Bool) : State :=
  let seq := s.mgmt.seq
  let gen := s.gen r.colour
  let hyp := s.mgmt.hyp
  let s1 := s.nextSeq
  let (s2, _) := s1.deliver hyp (if s.isProtected r.colour then r.hide else r) gen seq
  if tenant && r.colour != hyp then
    let (s3, broken) := s2.deliver r.colour r gen seq
    if broken then
      ((s3.nextSeq).deliver hyp { source := 0x09, cls := 0x31, colour := r.colour, recov := 0 } gen s3.mgmt.seq).1
    else s3
  else s2

/-! ## Progress words of tiles (R258, R284) -/

/-- The fields of an ACPROG word, low half then high half (R284). -/
def acRegcnt (w : DWord) : BitVec 16 := w.extractLsb' 0 16
def acSeq (w : DWord) : Nat := (w.extractLsb' 16 8).toNat
def acDone (w : DWord) : Bool := w.getLsbD 24
def acInv (w : DWord) : Bool := w.getLsbD 25
def acStale (w : DWord) : Bool := w.getLsbD 26
def acStep (w : DWord) : Nat := (w.extractLsb' 32 13).toNat
def acOwn (w : DWord) : Nat := (w.extractLsb' 48 16).toNat
def acWord (own step : Nat) (stale inv done : Bool) (seq : Nat) (regcnt : BitVec 16) : DWord :=
  BitVec.ofNat 16 own ++ 0#3 ++ BitVec.ofNat 13 step ++ 0#5 ++ BitVec.ofBool stale ++ BitVec.ofBool inv ++ BitVec.ofBool done
    ++ BitVec.ofNat 8 seq ++ regcnt
def State.acprog (s : State) (spn t : Nat) : DWord := (tget (s.sp spn).acprog t).getD 0
def State.setAcprog (s : State) (spn t : Nat) (w : DWord) : State := s.modSp spn fun p => { p with acprog := tset 0 p.acprog t w }

/-! ## Counters (R78, R129) -/

def Counters.get (k : Counters) : Cls → BitVec 6
  | .ecp => k.ecp
  | .egs => k.egs
  | .emx => k.emx
  | .ecl => k.ecl
  | .enm => k.enm
  | .eat => k.eat
def Counters.set (k : Counters) (x : BitVec 6) : Cls → Counters
  | .ecp => { k with ecp := x }
  | .egs => { k with egs := x }
  | .emx => { k with emx := x }
  | .ecl => { k with ecl := x }
  | .enm => { k with enm := x }
  | .eat => { k with eat := x }
/-- A convoy's counter: the largest of its fibres' (R78). -/
def State.counter (s : State) (v : Convoy) (x : Cls) : Nat :=
  ((s.lanes v).map fun l => (l.f.cnt.get x).toNat).foldl max 0
def State.countInc (s : State) (fs : List Nat) (x : Cls) : State :=
  fs.foldl (fun s i => s.modFibre i fun f => { f with cnt := f.cnt.set (f.cnt.get x + 1) x }) s
def State.countDec (s : State) (fs : List Nat) (x : Cls) : State :=
  fs.foldl (fun s i => s.modFibre i fun f => { f with cnt := f.cnt.set (f.cnt.get x - 1) x }) s
/-- The refusal bit of a class (R425). -/
def State.refusalBit (s : State) (fs : List Nat) (x : Cls) (on : Bool) : State :=
  fs.foldl (fun s i => s.modFibre i fun f =>
    { f with ref := if on then f.ref ||| (1#6 <<< x.idx) else f.ref &&& ~~~(1#6 <<< x.idx) }) s

/-! ## Traffic to peers (R363, R458, R459) -/

/-- The package and colour whose traffic a message is. -/
def OutMsg.dest : OutMsg → Nat × Nat
  | .access q c _ _ _ => (q, c)
  | .command q c _ _ _ => (q, c)
  | .cancel q c _ => (q, c)
  | .bale q c _ _ _ _ => (q, c)
  | .recall q c _ => (q, c)
  | .answer q c _ _ => (q, c)
  | .departure q c => (q, c)
  | .barrier q c _ => (q, c)
  | .clx q c _ _ _ _ _ => (q, c)
def State.port (s : State) (n : Nat) : Port := (tget s.route.ports n).getD {}
def State.modPort (s : State) (n : Nat) (f : Port → Port) : State :=
  { s with route := { s.route with ports := tput s.route.ports n (f (s.port n)) } }
/-- The mask of ports in force for a colour's traffic to a package: a change waits for the flits on the old port. -/
def State.routeMask (s : State) (colour q : Nat) : Word :=
  (tget s.route.inForce (4096 * q + colour)).getD ((tget s.route.routem q).getD 0)
/-- The ports of a mask that are up. -/
def State.upPorts (s : State) (m : Word) : List Nat := (List.range 32).filter fun n => m.getLsbD n && (s.port n).up
/-- The port of a colour's traffic to a package. -/
def State.portFor (s : State) (colour q : Nat) : Option Nat :=
  let l := s.upPorts (s.routeMask colour q)
  if l.isEmpty then none else l[colour % l.length]?
/-- Whether a colour's traffic to a package is refused: its mask is 0, or the package is unreachable. -/
def State.unreachable (s : State) (colour q : Nat) : Bool := s.routeMask colour q == 0 || s.route.gone.contains q
/-- Whether a colour's traffic to a package waits: no port is up, or its port retrains (R457, R459). -/
def State.stalled (s : State) (colour q : Nat) : Bool := !s.unreachable colour q && (match s.portFor colour q with
  | some n => (s.port n).retrain.isSome
  | none => true)
/-- Whether a port carries traffic now. -/
def State.linkOpen (s : State) (n : Nat) : Bool := (s.port n).up && (s.port n).retrain.isNone
/-- The flits of a colour's message that is sent now (n = 0) or arrives (n = 1). -/
def State.flitsOf (s : State) (colour n : Nat) : Nat :=
  (Config.flits (counterKey colour 5 n) ((tget s.host.counters (counterKey colour 5 n)).getD 0).toNat).toNat
/-- A message of a colour arrives whole over a port: failures in a row end, and the counter of the direction advances (R322, R457). -/
def State.arrived (s : State) (port colour : Nat) : State :=
  (s.count colour 5 1 (s.flitsOf colour 1)).modPort port fun p => { p with fails := 0, rx := p.rx + s.flitsOf colour 1 }
/-- A stream's entry in the tables of sequence numbers (R458). -/
def streamKey (x : PeerStream) : Nat := 4096 * x.peer + x.colour
/-- Whether a message of a stream has not been received before (R458). -/
def State.unseen (s : State) (x : PeerStream) (seq : Nat) : Bool := (tget s.route.seqIn (streamKey x)).getD 0 ≤ seq
/-- A message of a stream has been received. -/
def State.received (s : State) (x : PeerStream) (seq : Nat) : State :=
  { s with route := { s.route with seqIn := tput s.route.seqIn (streamKey x) (seq + 1) } }
/-- What a message of a stream does, unless it is a duplicate: that is discarded (R458). -/
def State.once (s : State) (x : PeerStream) (seq : Nat) (go : State → State) : State := if s.unseen x seq then go (s.received x seq) else s
/-- A message arrives over a port, for a colour here: nothing does while its link is not open (R457, R458). -/
def State.onPort (s : State) (port colour : Nat) (x : PeerStream) (seq : Nat) (go : State → State) : Result :=
  if s.linkOpen port then .next ((s.arrived port colour).once x seq go) else .next s
/-- The stream of a message that is sent. -/
def OutMsg.stream (m : OutMsg) : PeerStream := ⟨m.dest.1, m.dest.2⟩
/-- The number of the next message of a stream. -/
def State.nextOut (s : State) (x : PeerStream) : Nat := (tget s.route.seqOut (streamKey x)).getD 0
/-- Hands a message to the Route: it goes to the port of its colour's traffic to its package, whose counter advances, or waits until one is up;
one to a package that is unreachable, or has mask 0, is refused at once (R363, R459). -/
def State.send (s : State) (m : OutMsg) : State :=
  if s.unreachable m.dest.2 m.dest.1 then s else
  let p := s.portFor m.dest.2 m.dest.1
  let ports := match p with
    | some n => tput s.route.ports n { s.port n with tx := (s.port n).tx + s.flitsOf m.dest.2 0 }
    | none => s.route.ports
  let n := s.nextOut m.stream
  { s.count m.dest.2 5 0 (s.flitsOf m.dest.2 0) with
    route := { s.route with out := s.route.out ++ [⟨p, n, m⟩], seqOut := tput s.route.seqOut (streamKey m.stream) (n + 1), ports := ports } }
/-- The other packages that a Route mask leads to: those that may share a `.pod` slot. -/
def State.podPeers (s : State) : List Nat := (s.route.routem.filter fun x => x.2 != 0 && x.1 != s.route.pkg).map (·.1)
/-- Tells each of them of something that happens at a `.pod` slot (R91, R301, R363). -/
def State.sendPod (s : State) (m : Nat → OutMsg) : State := s.podPeers.foldl (fun s q => s.send (m q)) s

/-! ## Commands in flight -/

/-- Commands not yet counted complete. -/
def Cmd.live (k : Cmd) : Bool := k.phase != .counted
/-- A command has been accepted and still holds its entries (R107). -/
def Cmd.holds (k : Cmd) : Bool := k.phase == .queued || k.phase == .running || k.phase == .blocked
/-- The scoreboard entries of a core. -/
def State.entriesOf (s : State) (core : Nat) : List Entry :=
  (s.cmds.filter fun x => x.2.holds).flatMap fun x => x.2.entries.filter fun e => e.core == core
/-- Whether a range overlaps an entry that a local access must wait for (R108). -/
def Entry.holdsLocal (e : Entry) (lo hi : Addr) (write : Bool) : Bool := (e.write || write) && decide (lo < e.hi) && decide (e.lo < hi)
def State.localHeld (s : State) (core : Nat) (lo hi : Addr) (write : Bool) : Bool :=
  (s.entriesOf core).any fun e => e.holdsLocal lo hi write
/-- The register ranges an unfinished gatm will write (R263). -/
def State.gatmHeld (s : State) (lo hi : Addr) : Bool := s.cmds.any fun x => x.2.live && x.2.phase != .performed && (match x.2.op with
  | .gatm _ _ w64 _ (.v n) ls => ls.any fun l => match tget s.fibres l.fib with
      | some f => decide (lo < f.reg n.toNat + (if w64 then 8 else 4)) && decide (f.reg n.toNat < hi)
      | none => false
  | _ => false)
/-- A remote command: the package that holds its block (R64). -/
def Cmd.remote (m : Cmd) : Option Nat := match m.op with
  | .block k _ => k.remote
  | _ => none

/-- Entries of a core's range scoreboard in use, and free command slots of a class (R107, R249). -/
def scoreboardSize : Nat := 256

end Sys2Proof.Machine
end

