-- ==== Sys2Proof/Machine/Undo.lean ====
section
/-! DEFINITION. The undo log of an SP (R389–R391): line entries, event entries, room, and the lookup of logged results. -/

namespace Sys2Proof.Machine

/-- The log's size, the fill at which the next TE region entry takes a temper point, and the sizes of entries (R389, R390). -/
def logSize : Nat := 0x20_0000
def logMark : Nat := 0x18_0000
def lineEntry : Nat := 144
def eventEntry : Nat := 32
/-- Bytes of an SP's log in use; a qpop entry refers to a copy of its record in the tail. -/
def Sp.logBytes (p : Sp) : Nat :=
  lineEntry * p.lines.length + (p.events.map fun e => eventEntry + 16 * e.slots.length).foldl (· + ·) 0
/-- The SP whose log holds the lines of a scratchpad bank: the one its fence names. -/
def State.bankSp (s : State) (a : Addr) : Option Nat := match window a with
  | .spad core bank => s.fence core bank
  | _ => none
/-- A workgroup holds its SPs. -/
def Wg.resident (g : Wg) : Bool := match g.phase with
  | .saved => false
  | .moving _ => true
  | .staging => true
  | .running => true
  | .wback => true
  | .yielding _ => true
  | .saving => true
  | .aborting => true
/-- Whether a workgroup that has issued there holds an SP of the core: with none, nothing is executed again, and the lines that
completed workgroups wrote stand (R76, R97, log entry 21). -/
def State.runsOn (s : State) (p : Nat) : Bool :=
  s.wgs.any fun g => g.2.resident && g.2.sps.any fun q => coreOf q == coreOf p && g.2.seen.contains q
/-- Whether an SP's log is kept: it has a temper point, and something would be executed again from it (log entry 21). -/
def State.logs (s : State) (p : Nat) : Bool := (s.sp p).image.isSome && s.runsOn p
/-- Whether a write to a line would be logged: the first since the SP's temper point. -/
def State.unlogged (s : State) (a : Addr) : Bool := match s.bankSp a with
  | some p => s.logs p && !(s.sp p).lines.any fun l => l.1 == a
  | none => false
/-- Logs a line's old bytes and tags before its first write (R389). -/
def State.logLine (s : State) (a : Addr) : State := match s.bankSp a with
  | some p =>
    if s.unlogged a then
      s.modSp p fun q => { q with lines := q.lines ++ [(a, s.rdBytes a 128, ((granules a 128).filter fun g => s.tagAt g).map fun g => (g, ()))] }
    else s
  | none => s
/-- Logs the lines that a write of n bytes touches. -/
def State.logWrite (s : State) (a n : Nat) : State := (linesOf a n).foldl (fun s l => s.logLine l) s
/-- Writes bytes anywhere with the undo log kept. -/
def State.store (s : State) (a : Addr) (bs : List Byte) : State := (s.logWrite a bs.length).wrBytes a bs
/-- Writes a granule with its tag, with the undo log kept. -/
def State.storeCap (s : State) (a : Addr) (k : Cap) : State := (s.logWrite a 16).wrCap a k

/-! ## The store queue (R125, R126, R135) -/

/-- A byte as a fibre sees it, or with none any other party: its own writes, and of the others those that are performed. -/
def State.seen (s : State) (who : Option Nat) (a : Addr) : Byte := match s.pendAt who a 1 with
  | some e => e.old.getD (a - e.addr) 0
  | none => s.rd8 a
def State.seenBytes (s : State) (who : Option Nat) (a n : Nat) : List Byte := (List.range n).map fun i => s.seen who (a + i)
def State.seenNat (s : State) (who : Option Nat) (a n : Nat) : Nat := leNat (s.seenBytes who a n)
/-- A granule with its tag as a fibre sees it. -/
def State.seenCap (s : State) (who : Option Nat) (a : Addr) : Cap :=
  ⟨BitVec.ofNat 128 (s.seenNat who a 16), match s.pendAt who (granule a) 16 with
    | some e => e.tags.contains (granule a)
    | none => s.tagAt a⟩
/-- In each step some of the oldest pending writes of each SP are performed. -/
def State.drainSome (s : State) : State :=
  (s.sps.filter fun p => !p.2.pend.isEmpty).foldl (fun s p => s.modSp p.1 fun q => q.perform (Config.drains (256 * s.free + p.1))) s
/-- A local write of fibre `who` waits in the queue of its SP, after those before it (R125); what others still read there is kept. -/
def State.queueWrite (s : State) (spn who a n : Nat) : State := match storeCore a with
  | none => s
  | some _ => s.modSp spn fun q => { q with pend := q.pend ++
      [{ fib := who, addr := a, old := s.rdBytes a n, tags := (granules a n).filter fun g => s.tagAt g }] }
/-- A local write of bytes, and of a granule with its tag, by a fibre of an SP. -/
def State.storeBy (s : State) (spn who a : Nat) (bs : List Byte) : State :=
  ((s.drainAt (some who) a bs.length).queueWrite spn who a bs.length).store a bs
def State.storeCapBy (s : State) (spn who a : Nat) (k : Cap) : State := ((s.drainAt (some who) a 16).queueWrite spn who a 16).storeCap a k

/-! ## Room -/

/-- Lines that a queue instruction past its reservation has still to write, and the events it has still to log, with the entry of a record
of m slots counted as 1 + 2m: their room is kept for it, so that it finishes (R309, R390). -/
def Convoy.promisedLines (v : Convoy) : List Addr := match v.wait with
  | .queue w => if w.start.isNone || w.push then [] else linesOf w.kq.lo 64 ++ linesOf (w.kr.lo + w.off) (64 * w.n)
  | .remote w => match w.buf with
    | some (k, off) => linesOf (k.lo + off) 256
    | none => []
  | _ => []
def Convoy.promisedEvents (v : Convoy) : Nat :=
  let n := (v.fib.filter (·.isSome)).length
  match v.wait with
  | .queue w => if w.start.isNone then 0 else if w.push then n else n * (1 + 2 * w.n)
  | .remote w => if w.buf.isSome then 9 * n else if w.sd.isSome then 0 else n
  | _ => 0
/-- Whether the logs have room for the first writes of some lines and for n events of SP p, beside what is promised (R390). -/
def State.logRoom (s : State) (lines : List Addr) (p n : Nat) : Bool :=
  let ls := ((lines ++ s.convoys.flatMap fun v => v.2.promisedLines).filter fun a => s.unlogged a).eraseDups
  let owed (q : Nat) : Nat := ((s.convoys.filter fun v => v.2.spn == q).map fun v => v.2.promisedEvents).foldl (· + ·) 0
  let room (q : Nat) : Bool :=
    !s.logs q || decide ((s.sp q).logBytes + lineEntry * (ls.filter fun a => s.bankSp a == some q).length
      + eventEntry * (owed q + if q = p then n else 0) ≤ logSize)
  room p && ls.all fun a => match s.bankSp a with
    | some q => room q
    | none => true
/-- The logs of another state are kept. -/
def State.keepLogs (s t : State) : State := { s with sps := s.sps.map fun p => (p.1, { p.2 with lines := (t.sp p.1).lines }) }
/-- The state in which no log is kept: it shows what could be done but for the room in them. -/
def State.freeLogs (s : State) : State := { s with sps := s.sps.map fun p => (p.1, { p.2 with image := none }) }
/-- The convoy waits on a full log, since when it first did, for a write or event of the lane at a position. -/
def State.holdLog (s : State) (c pos : Nat) : State := s.modConvoy c fun v =>
  let since := v.logAt.getD (s.now (dieOf v.spn))
  { v with wait := .log since, logAt := some since, waitPos := pos }

/-- Whether a logged event is one of a fibre in its region, and not of a fibre that had its index before it (R75, R391). -/
def LogEvent.of (e : LogEvent) (f : Fibre) : Bool := e.wg == f.wg && e.fidx == f.fidx && e.regcnt == f.regcnt && (f.born == 0 || decide (f.born < e.made))
/-- The log entry of a fibre's next event, while its events are still looked up (R391). -/
def State.lookup (s : State) (f : Fibre) : Option LogEvent :=
  if f.lookup then (s.sp f.spn).events.find? fun e => e.of f && e.ordn == f.ordn else none
/-- The fibre's next event has been performed and is logged; from the first such event no later one is looked up (R391). -/
def State.logEvent (s : State) (i : Nat) (result : List DWord) (wrote : List (Addr × Nat × DWord)) : State :=
  match tget s.fibres i with
  | none => s
  | some f =>
    (s.modSp f.spn fun p => { p with events := p.events ++
        [{ wg := f.wg, fidx := f.fidx, regcnt := f.regcnt, ordn := f.ordn, made := s.ids, result := result, wrote := wrote }] }).modFibre i
      fun f => { f with ordn := f.ordn + 1, lookup := false }
/-- The fibre's `qpop` has delivered a record, which the log keeps, and the fibre until its next region entry (R377). -/
def State.logPop (s : State) (i : Nat) (slots : List (BitVec 128 × Bool)) : State := match tget s.fibres i with
  | none => s
  | some f =>
    (s.modSp f.spn fun p => { p with events := p.events ++
        [{ wg := f.wg, fidx := f.fidx, regcnt := f.regcnt, ordn := f.ordn, made := s.ids, result := [1], wrote := [], slots := slots,
           pop := some f.pops }] }).modFibre i
      fun f => { f with ordn := f.ordn + 1, lookup := false, pops := f.pops + 1, popped := tput f.popped f.pops slots }
/-- The record that the fibre's next `qpop` delivered before a rollback, or before a cut-back in the region (R377, R391). -/
def State.poppedBefore (s : State) (f : Fibre) : Option (List (BitVec 128 × Bool)) :=
  (((s.sp f.spn).events.find? fun e => e.of f && e.pop == some f.pops).map fun e => e.slots) <|> tget f.popped f.pops
/-- The fibre's next event was found in the log and is not performed: it writes the logged new values into words whose lines a
rollback has restored (R391). -/
def State.replayEvent (s : State) (i : Nat) (e : LogEvent) : State := match tget s.fibres i with
  | none => s
  | some f =>
    let s1 := if e.redo then
        (e.wrote.foldl (fun s w => (s.drainAt none w.1 w.2.1).store w.1 (leBytes w.2.1 w.2.2.toNat)) s).modSp f.spn fun p =>
          { p with events := p.events.map fun x => if x == e then { x with redo := false } else x }
      else s
    s1.modFibre i fun f => { f with ordn := f.ordn + 1 }

/-! ## Temper points (R97, R389) -/

/-- The register rows and accumulator tiles of an SP: first address and bytes of each. -/
def spRanges (p : Nat) : List (Addr × Nat) := [(regAddr p 0 0, 0x8_0000), (tileAddr p 0 0, 0x10_0000)]
/-- Whether an address lies in some ranges. -/
def inRanges (l : List (Addr × Nat)) (a : Addr) : Bool := l.any fun r => decide (r.1 ≤ a) && decide (a < r.1 + r.2)
/-- What memory and tags hold in some ranges. -/
def State.bytesIn (s : State) (l : List (Addr × Nat)) : Tbl Byte := s.mem.filter fun x => inRanges l x.1
def State.tagsIn (s : State) (l : List (Addr × Nat)) : Tbl Unit := s.tags.filter fun x => inRanges l x.1
/-- The image of an SP as it stands. -/
def State.spImage (s : State) (p : Nat) : Image where
  bytes := s.bytesIn (spRanges p)
  tags := s.tagsIn (spRanges p)
  fibres := s.fibres.filter fun f => f.2.spn == p
  convoys := s.convoys.filter fun v => v.2.spn == p
  acprog := (s.sp p).acprog
  ids := s.ids
/-- Firmware's own traffic, of colour 0: n bytes of an image in firmware memory, whose placement is firmware's own (R111, R116). -/
def State.firmwarePass (s : State) (write : Bool) (key n : Nat) : State := match s.hbm.sets.find? fun g => g.2.fw with
  | none => s
  | some g =>
    s.passage 0 none (if write then .wr else .rd) (g.1 * gib6 + Config.firmwarePlace key % (gib6 - n) / 128 * 128) n
/-- Bytes of a live image's windows and tiles (R310), and the name of an SP's temper image in firmware memory. -/
def imageBytesOf : Nat := 0x18_0000
def temperKey (p : Nat) : Nat := 2 ^ 32 + p
/-- The name of the entry at a position of an SP's undo log, and that of an image of the Anvil's backing store. -/
def undoKey (p at_ : Nat) : Nat := 2 ^ 33 + 2 ^ 22 * p + at_
def anvilKey (key : BitVec 256) : Nat := 2 ^ 64 + key.toNat
/-- What undo logs have taken since the last step goes to firmware memory (R111, R389). -/
def State.logTraffic (s : State) : State :=
  (s.sps.filter fun p => p.2.logBytes != p.2.logOut).foldl (fun s p =>
    (s.firmwarePass true (undoKey p.1 p.2.logOut) (p.2.logBytes - p.2.logOut)).modSp p.1 fun q => { q with logOut := q.logBytes }) s
/-- Whether a fibre of an SP that took part in a collective has left that region: with a temper point of the SP it is not executed
again. -/
def State.leftBehind (s : State) (p : Nat) (x : ClxId) : Bool :=
  s.fibres.any fun f => f.2.spn == p && f.2.wg == x.wg && f.2.fidx == x.fidx && f.2.regcnt != x.regcnt
/-- Whether a logged event is one of the region in which a fibre of the SP stands: a rollback to a temper point taken now executes that
region again from its start (R391). -/
def State.inRegionNow (s : State) (p : Nat) (e : LogEvent) : Bool := s.fibres.any fun f => f.2.spn == p && e.of f.2
/-- A temper point: pending writes are performed, the image is taken, and the undo log is empty again but for the events of the regions
that a rollback would execute again. Convoys that waited on the log go on. -/
def State.temperPoint (s : State) (p : Nat) : State :=
  let s1 := (s.firmwarePass true (temperKey p) imageBytesOf).modSp p fun q =>
    { q.perform q.pend.length with
      image := some (s.spImage p), lines := [], events := (s.sp p).events.filter (s.inRegionNow p), teCount := 0, rolls := 0 }
  { s1 with
    clxs := s1.clxs.map fun b => (b.1, { b.2 with past := b.2.past.filter fun q => !s1.leftBehind p q.id })
    convoys := s1.convoys.map fun v => match v.2.wait with
      | .log _ => if coreOf v.2.spn = coreOf p then (v.1, { v.2 with wait := .run }) else v
      | _ => v }
/-- Whether an SP is awake (R319). -/
def Sp.awake (p : Sp) : Bool := p.power == .on || p.power == .gated
/-- TEMPERIV of an SP: a write that waited for the SP's waking stands once it is awake (R335). -/
def Sp.every (p : Sp) : BitVec 16 := if p.awake then p.heldIv.getD p.temperiv else p.temperiv
/-- Whether a TE region entry of a workgroup on an SP takes a temper point (R97, R390). -/
def State.temperDue (s : State) (p w : Nat) : Bool :=
  let q := s.sp p
  !(((tget s.wgs w).map (·.seen)).getD []).contains p || decide (logMark < q.logBytes)
    || (q.every != 0 && decide (q.every.toNat ≤ q.teCount + 1))
/-- A TE region entry. -/
def State.temperEntry (s : State) (p w : Nat) : State :=
  if s.temperDue p w then (s.modWg w fun g => { g with seen := p :: g.seen.filter (· != p) }).temperPoint p
  else s.modSp p fun q => { q with teCount := q.teCount + 1 }

end Sys2Proof.Machine
end

