-- ==== Sys2Proof/Machine/Fabric.lean ====
section
/-! DEFINITION. Memory beyond the lanes, as engines, ports and the scheduler reach it: windows and their checks (R15, R20, R103,
R119, R359), the memory-side cache (R110–R114), bank sets (R116–R118), failing and lost lines and twins (R67, R434–R436), marked
pages (R324), and transfers with their tags (R54). -/

namespace Sys2Proof.Machine

/-! ## Who accesses, and what is written of it -/

/-- A party's access: its world's colour, its workgroup, the core whose engine block makes it, and the fields its records carry (R469). -/
structure Agent where
  colour : Nat
  wg : Option Nat := none
  core : Option Nat := none
  r : Rec
  deriving DecidableEq, Repr
/-- A party that is no command of a convoy. -/
def plainAgent (colour : Nat) : Agent := { colour := colour, r := { source := 0x16, cls := 0x11, colour := colour, recov := 0 } }
/-- Writes the record of a line after `done` lines of a party's command. -/
def State.lineRec (s : State) (ag : Agent) (line : Addr) (recov : BitVec 4) (e : LineErr) (done : Nat) (tenant : Bool) : State :=
  s.record (s.lineFields { ag.r with count := done } line recov e) tenant
/-- Writes the records that are owed. -/
def State.writeNotes (s : State) : State :=
  s.mgmt.notes.foldl (fun s n => s.record n.1 n.2) { s with mgmt := { s.mgmt with notes := [] } }
/-- A LINK record of the host link (R461). -/
def State.linkRec (s : State) (colour : Nat) (addr : Addr) : State :=
  s.record { source := 0x20, cls := 0x35, colour := colour, recov := 0xA, addr := addr } true

/-! ## Marked pages (R324) -/

/-- Marks the pages of a range: every line reads as zeros with clear tags. -/
def State.markPages (s : State) (a n : Nat) : State :=
  let z : State := { s with mem := s.mem.filter fun x => !inRanges [(a, n)] x.1, tags := s.tags.filter fun x => !inRanges [(a, n)] x.1 }
  { z with hbm := { z.hbm with
      cleared := z.hbm.cleared.filter (fun x => decide (x.1 < a / pageBytes))
        ++ (List.range (n / pageBytes)).map (fun i => (a / pageBytes + i, ()))
        ++ z.hbm.cleared.filter (fun x => decide (a / pageBytes + n / pageBytes ≤ x.1))
      bad := z.hbm.bad.filter fun x => !inRanges [(a, n)] x.1
      lost := z.hbm.lost.filter fun x => !inRanges [(a, n)] x.1
      keyed := z.hbm.keyed.filter fun x => !inRanges [(a, n)] x.1 } }
/-- Ranges an access reads and writes: none when it can be performed now; else the state in which what it waits for has begun. -/
def State.awaits (s : State) (rd wr : List (Addr × Nat)) : Option State :=
  let gs := s.asleep (rd ++ wr)
  let ps := s.marked wr
  if gs.isEmpty && ps.isEmpty then none
  else
    let s1 := s.wake (gs.filter fun g => (s.bankSet g).waking.isNone)
    some { s1 with hbm := { s1.hbm with zeroing := ps.foldl (fun t p => tput t p ()) s1.hbm.zeroing } }

/-! ## Failing and lost lines (R434–R436) -/

/-- A read of one line by a party after `done` lines of its command; answers whether the line delivers its bytes. -/
def State.readLine (s : State) (ag : Agent) (done : Nat) (line : Addr) : State × Bool :=
  match window line with
  | .host =>
    if !s.host.linkUp then (s.linkRec ag.colour line, false)
    else if (tget s.hbm.lost line).isSome then (s.linkRec ag.colour line, false)
    else (s, true)
  | _ =>
    let r := s.meetLine ag.colour line
    match r.2.2 with
    | some x => (r.1.lineRec ag line x.1 x.2 done (x.1 == 0xA), r.2.1)
    | none => (r.1, r.2.1)
/-- Prepares one line for a write, whole or in part, that hit in the memory-side cache or not; answers whether the write's bytes are kept
(R112, R434, R436). -/
def State.writeLine (s : State) (ag : Agent) (done : Nat) (line : Addr) (full hit : Bool) : State × Bool :=
  if hit then (s, true)
  else if full then ((s.mendLines [line]).unkey line, true)
  else if (tget s.hbm.lost line).isSome then (s, false)
  else if (s.lineFault ag.colour line).isSome then s.readLine ag done line
  else (s, true)
/-- Whether a line lies in a marked page, whose reads make no check (R324). -/
def State.inMarked (s : State) (a : Addr) : Bool := decide (a < 0x80_0000_0000) && (tget s.hbm.cleared (a / pageBytes)).isSome
/-- An uncorrectable error strikes a line of the memory-side cache (R435): a clean line is fetched again, a dirty one is taken from its
twin, and one without a good twin is poisoned in memory and lost. -/
def State.strike (s : State) (line : Addr) : State := match s.msc.lines.find? fun x => x.line == line with
  | none => s
  | some x => match x.dirty, s.mate line with
    | none, _ => s.dropLine line
    | some _, some m =>
      if s.sound m || s.msc.lines.any (fun y => y.line == m) then s.copyLine m line
      else let t := s.dropLine line; { t with hbm := { t.hbm with lost := tput t.hbm.lost line .slice } }
    | some _, none => let t := s.dropLine line; { t with hbm := { t.hbm with lost := tput t.hbm.lost line .slice } }
/-- Lines that fail from now on. -/
def State.failLines (s : State) (l : List LineFail) : State := (l.filter fun f => !s.inMarked f.line).foldl (fun s f =>
  if f.msc then s.strike (lineOf f.line)
  else if f.line < 0x80_0000_0000 then { s with hbm := { s.hbm with bad := tput s.hbm.bad (lineOf f.line) f.mac } }
  else { s with hbm := { s.hbm with lost := tput s.hbm.lost (lineOf f.line) (if f.mac then .mac else .ecc) } }) s

/-! ## Checks of an engine's range (R20, R103, R119, R359) -/

/-- The least of two causes. -/
def minCause (a b : Option Nat) : Option Nat := match a, b with
  | some x, some y => some (min x y)
  | some x, none => some x
  | none, y => y
/-- The SPs of some ranges wake. -/
def State.wakeAll (s : State) (rs : List (Addr × Addr × Bool)) : State := rs.foldl (fun s r => s.wakeRange r.1 (r.2.1 - r.1)) s
/-- Which windows a use reaches: on-chip ranges under RXWIN, HBM, the pool, the host window, scratchpads (of one core alone when
`core` names it). -/
structure Reach where
  rx : Bool := false
  hbm : Bool := true
  pool : Bool := true
  host : Bool := true
  spad : Bool := true
  core : Option Nat := none
  deriving DecidableEq, Repr
/-- Whether a use reaches the scratchpad of a core. -/
def Reach.reaches (w : Reach) (core : Nat) : Bool := w.spad && (match w.core with
  | some c => c == core
  | none => true)
/-- The cause by which storage refuses an access at one block. -/
def State.blockCause (s : State) (colour : Nat) (rx : Bool) (w : Reach) (write : Bool) (a : Addr) : Option Nat := match window a with
  | .regs _ => if rx then none else some 0x02
  | .acc _ => if rx then none else some 0x02
  | .spad core bank => if rx then some 0x02 else if !w.reaches core then some 0x09 else if s.fenced core bank colour then none else some 0x0A
  | .hbm => if rx then some 0x02 else if !w.hbm || !(s.bankSet (a / gib6)).alloc then some 0x09 else none
  | .pool => if rx then some 0x02 else if !w.pool then some 0x09 else (match s.phys colour write a with | .ok _ => none | .error n => some n)
  | .host => if rx then some 0x02 else if !w.host then some 0x09 else (match s.phys colour write a with | .ok _ => none | .error n => some n)
  | .unmapped => some 0x09
/-- The least cause by which storage refuses a range. -/
def State.rangeCause (s : State) (colour : Nat) (rx : Bool) (w : Reach) (write : Bool) (a n : Nat) : Option Nat :=
  (blocksOf a n).foldl (fun m x => minCause m (s.blockCause colour rx w write x)) none
/-- The least cause by which a use of n bytes at offset o of a capability is refused (R55, R421); a use of no byte touches no storage,
and its capability is checked all the same (R243). -/
def State.useCause (s : State) (colour : Nat) (k : Cap) (w : Reach) (perms : BitVec 16) (write : Bool) (o n : Nat) : Option Nat :=
  minCause (minCause (s.capCause colour k { kinds := if w.rx then [kindData, kindRxwin] else [kindData], perms := perms } o n)
      (s.rangeCause colour (k.kind == kindRxwin) w write (k.lo + o) n))
    (if write then s.mapCause k (k.lo + o) n else none)

/-! ## Extent caches (R360) -/

/-- A refusal of an access at an address: of one with EXTENT whose walk met an uncorrectable table line the hypervisor gets a record
(R437). -/
def State.extentRec (s : State) (ag : Agent) (cause : Nat) (a : Addr) : State :=
  let report (source : BitVec 8) : State := s.record { ag.r with source := source, cls := 0x11, recov := 0x8, addr := a } false
  if cause ≠ 0x0B then s
  else match window a with
  | .pool =>
    let w := a - 0x1_0000_0000_0000
    if (s.extLookup (extPort true w) w).isNone && s.walkBad s.host.extRootP 6144 w then report 0x18 else s
  | .host =>
    let w := a - 0x2_0000_0000_0000
    if (s.extLookup 4 w).isNone && s.walkBad s.host.extRootH 65536 w then report 0x19 else s
  | .hbm => s
  | .regs _ => s
  | .acc _ => s
  | .spad _ _ => s
  | .unmapped => s

/-! ## Reading and writing ranges -/

/-- Accesses the lines of a range for reading; answers those that deliver nothing. -/
def State.readLines (s : State) (ag : Agent) (t : Traffic) (a n : Nat) : State × List Addr :=
  match window a with
  | .regs _ => (s, [])
  | .acc _ => (s, [])
  | .spad _ _ => (s, [])
  | .unmapped => (s, [])
  | _ => (linesOf a n).foldl (fun x l =>
      let hit := x.1.mscHit ag.colour l
      let s1 := (if l < 0x1_0600_0000_0000 then x.1.touchLine ag.colour ag.wg t l else x.1).extTouch ag.colour (t != .rd) l
      let r := if hit then (s1, true) else s1.readLine ag 0 l
      ((if r.2 then r.1 else r.1.dropLine l).count ag.colour 3 0 (if l < 0x80_0000_0000 then 128 else 0), if r.2 then x.2 else l :: x.2)) (s, [])
/-- A byte as an engine sees it at its place p: of a tile of another core, through the window port, the word behind the tile buffer or
the new one (R133); of scratchpad and tiles, what is performed (R125); of the pool, what its key gives (R357). -/
def State.engineByte (s : State) (ag : Agent) (a p : Addr) : Byte := match window a with
  | .acc core => match if ag.core = some core then none else (s.sp (4 * core + (a - coreBase core - 0x20_0000) / 0x10_0000)).tbuf.findSome? fun b => tget b.words (a / 4 * 4) with
    | some w => if Config.tileOld (s.free * 2 ^ 52 + a / 4 * 4) then (w >>> (8 * (a % 4))).setWidth 8 else s.seen none a
    | none => s.seen none a
  | .spad _ _ => s.seen none a
  | .hbm => s.rd8 p
  | .pool => s.byteFor ag.colour a p
  | .host => s.rd8 p
  | .regs _ => s.rd8 p
  | .unmapped => s.rd8 p
/-- The bytes of a range, none on lost lines. -/
def State.bytesAt (s : State) (ag : Agent) (lost : List Addr) (a n : Nat) : List (Option Byte) :=
  (List.range n).map fun i => if lost.contains (lineOf (a + i)) then none else match s.phys ag.colour false (a + i) with
    | .ok p => some (s.engineByte ag (a + i) p)
    | .error _ => none
/-- Writes bytes at translated addresses, where there is one and where it is kept. -/
def State.putBytes (s : State) (colour : Nat) (dropped : List Addr) (a : Addr) : List (Option Byte) → State
  | [] => s
  | none :: r => s.putBytes colour dropped (a + 1) r
  | some x :: r =>
    (if dropped.contains (lineOf a) then s else match s.phys colour true a with
      | .ok p => s.putByteFor colour a p x
      | .error _ => s).putBytes colour dropped (a + 1) r
/-- Accesses the lines of a range for writing; answers those whose bytes are not kept. -/
def State.writeLines (s : State) (ag : Agent) (a : Addr) (bs : List (Option Byte)) : State × List Addr :=
  let n := bs.length
  match window a with
  | .regs _ => (s, [])
  | .acc _ => (s, [])
  | .spad _ _ => (s, [])
  | .unmapped => (s, [])
  | .host => ((linesOf a n).foldl (fun s l => s.extTouch ag.colour true l) s, if s.host.linkUp then [] else linesOf a n)
  | _ => (linesOf a n).foldl (fun x l =>
      let full := decide (a ≤ l) && decide (l + 128 ≤ a + n) && ((bs.drop (l - a)).take 128).all (·.isSome)
      let hit := x.1.mscHit ag.colour l
      let r := ((x.1.touchLine ag.colour ag.wg .wr l).extTouch ag.colour true l).writeLine ag 0 l full hit
      ((if r.2 then r.1 else r.1.dropLine l).count ag.colour 3 1 (if l < 0x80_0000_0000 then 128 else 0), if r.2 then x.2 else l :: x.2)) (s, [])
/-- Sets the tags of a written range: those granules of a list, counted from its start, that stay. -/
def State.putTags (s : State) (a n : Nat) (tags : List Nat) : State :=
  tags.foldl (fun s g => if 16 * g + 16 ≤ n then s.setTag (a + 16 * g) true else s) (s.clearTags a n)
/-- The granules of a written range, counted from its start, whose lines were kept. -/
def keptTags (a : Addr) (dropped : List Addr) (tags : List Nat) : List Nat := tags.filter fun g => !dropped.contains (lineOf (a + 16 * g))
/-- Writes a range with its undo log, and its twin under TWIN; answers whether a line's bytes were not kept (R52, R67, R434). -/
def State.writeRange (s : State) (ag : Agent) (twin : Bool) (a : Addr) (bs : List (Option Byte)) (tags : List Nat) : State × Bool :=
  let n := bs.length
  if n = 0 then (s, false)
  else
    let s0 := s.settleAt a n
    let r := ((s0.fillPages ag.colour (s0.marked [(a, n)])).noteWritten ag.colour a n).writeLines ag a bs
    let s1 := ((r.1.logWrite a n).putBytes ag.colour r.2 a bs).putTags a n (keptTags a r.2 tags)
    if twin && decide (a < 0x40_0000_0000) then
      let q := ((s1.fillPages ag.colour (s1.marked [(twinOf a, n)])).noteWritten ag.colour (twinOf a) n).writeLines ag (twinOf a) bs
      ((q.1.putBytes ag.colour q.2 (twinOf a) bs).putTags (twinOf a) n (keptTags (twinOf a) q.2 tags), !r.2.isEmpty)
    else (s1, !r.2.isEmpty)

/-! ## Transfers (R54, R251, R255) -/

/-- One element of a transfer: n bytes from address a (none: zeros) to address b, and whether tags may be kept. -/
structure Elem where
  a : Option Addr
  b : Addr
  n : Nat
  keep : Bool
  deriving DecidableEq, Repr
/-- R54 for one element: the capabilities, the offsets, and both ends in scratchpad or HBM. -/
def tagEnds (src dst : Cap) (so do_ : Nat) : Bool :=
  src.has (permLd ||| permLdk) && dst.has (permSt ||| permStk) && decide (so % 16 = 0) && decide (do_ % 16 = 0)
/-- What an element delivers: its bytes, and the granules whose tags are kept; a tag passes the filter (R68). -/
def State.readElem (s : State) (ag : Agent) (e : Elem) : State × List (Option Byte) × List Nat := match e.a with
  | none => (s, List.replicate e.n (some 0), [])
  | some a =>
    let r := s.readLines ag .rd a e.n
    let bs := r.1.bytesAt ag r.2 a e.n
    let keep := e.keep && tagHome a && tagHome e.b && decide (a % 16 = 0) && decide (e.b % 16 = 0)
    let tags := if keep then (List.range (e.n / 16)).filter fun g =>
        (r.1.filter (r.1.seenCap none (a + 16 * g))).tag && !r.2.contains (lineOf (a + 16 * g)) else []
    (r.1, bs, tags)
/-- Moves elements: every source is read, then the destinations are written in order. Answers whether a line was lost. -/
def State.moveElems (s : State) (ag : Agent) (twin : Bool) (els : List Elem) : State × Bool :=
  let rd := els.foldl (fun (x : State × List (Addr × List (Option Byte) × List Nat)) e =>
    let r := x.1.readElem ag e
    (r.1, x.2 ++ [(e.b, r.2.1, r.2.2)])) (s, [])
  rd.2.foldl (fun x d =>
    let w := x.1.writeRange ag twin d.1 d.2.1 d.2.2
    (w.1, x.2 || w.2 || d.2.1.any (·.isNone))) (rd.1, false)
/-- The ranges elements read and write. -/
def elemReads (els : List Elem) : List (Addr × Nat) := els.filterMap fun e => e.a.map fun a => (a, e.n)
def elemWrites (twin : Bool) (els : List Elem) : List (Addr × Nat) :=
  els.flatMap fun e => (e.b, e.n) :: if twin then [(twinOf e.b, e.n)] else []

/-! ## Single words (R136, R263–R265, R436) -/

/-- A read of n bytes for a word operation: 0 where the line is lost. -/
def State.readWord (s : State) (ag : Agent) (t : Traffic) (a n : Nat) : State × Nat × Bool :=
  let r := s.readLines ag t a n
  if r.2.isEmpty then (r.1, leNat ((r.1.bytesAt ag [] a n).map fun x => x.getD 0), true) else (r.1, 0, false)

/-- A word written by a word operation: its line is where the read of the operation left it; under TWIN both copies are written. -/
def State.writeWord (s : State) (colour : Nat) (twin : Bool) (a : Addr) (bs : List Byte) : State :=
  let put (s : State) (a : Addr) : State :=
    (((s.fillPages colour (s.marked [(a, bs.length)])).noteWritten colour a bs.length).putBytes colour [] a (bs.map some)).clearTags a bs.length
  let s1 := put ((s.settleAt a bs.length).logWrite a bs.length) a
  if twin && decide (a < 0x40_0000_0000) then put (s1.passage colour none .at_ (twinOf a) bs.length) (twinOf a) else s1

end Sys2Proof.Machine
end

