-- ==== Sys2Proof/Machine/Fp.lean ====
section
/-! DEFINITION. Floating point (02): formats, exact values, and the one rounding of an exact value to a format with its flags (R25–R28,
R176). An exact value is an integer times a power of two. -/

namespace Sys2Proof.Machine

/-! ## Formats and values (R25, R26) -/

/-- A format: mantissa and exponent widths, bias, whether it has infinities, the code of its largest finite magnitude, and its
canonical NaN. Codes are those of the magnitude, below the sign bit. -/
structure FpFmt where
  mant : Nat
  expo : Nat
  bias : Nat
  hasInf : Bool
  top : Nat
  canon : Nat
  deriving DecidableEq, Repr

def fp32 : FpFmt := ⟨23, 8, 127, true, 0x7F7FFFFF, 0x7FC00000⟩
def bf16 : FpFmt := ⟨7, 8, 127, true, 0x7F7F, 0x7FC0⟩
def fp16 : FpFmt := ⟨10, 5, 15, true, 0x7BFF, 0x7E00⟩
def e4m3 : FpFmt := ⟨3, 4, 7, false, 0x7E, 0x7F⟩
def e5m2 : FpFmt := ⟨2, 5, 15, true, 0x7B, 0x7E⟩
/-- E2M1 has no NaN; the code of a NaN result is +0 (R32). -/
def e2m1 : FpFmt := ⟨1, 2, 1, false, 0x7, 0x0⟩
/-- The place of the sign bit. -/
def FpFmt.sign (f : FpFmt) : Nat := f.mant + f.expo
/-- The exponent of the unit of a subnormal: value M × 2^unit. -/
def FpFmt.unit (f : FpFmt) : Int := 1 - (f.bias : Int) - (f.mant : Int)
/-- The code of an infinity. -/
def FpFmt.infCode (f : FpFmt) : Nat := (2 ^ f.expo - 1) * 2 ^ f.mant

/-- An exact value: NaN, an infinity, or (−1)^neg × m × 2^e; zero keeps its sign. -/
inductive FV where
  | nan
  | inf (neg : Bool)
  | fin (neg : Bool) (m : Nat) (e : Int)
  deriving DecidableEq, Repr

/-- Widen (R175): the value of a code. -/
def widen (f : FpFmt) (x : Nat) : FV :=
  let neg := x / 2 ^ f.sign % 2 == 1
  let mag := x % 2 ^ f.sign
  let ex := mag / 2 ^ f.mant
  let man := mag % 2 ^ f.mant
  if mag > f.top then (if f.hasInf && mag == f.infCode then .inf neg else .nan)
  else if ex = 0 then .fin neg man f.unit
  else .fin neg (man + 2 ^ f.mant) (f.unit + ((ex : Int) - 1))
/-- An FP32 register. -/
def fv (x : Word) : FV := widen fp32 x.toNat

def FV.isNan : FV → Bool
  | .nan => true
  | .inf _ => false
  | .fin _ _ _ => false
def FV.isZero : FV → Bool
  | .fin _ m _ => m == 0
  | .nan => false
  | .inf _ => false
def FV.isInf : FV → Bool
  | .inf _ => true
  | .nan => false
  | .fin _ _ _ => false
def FV.isNeg : FV → Bool
  | .fin n _ _ => n
  | .inf n => n
  | .nan => false
def FV.negate : FV → FV
  | .fin n m e => .fin (!n) m e
  | .inf n => .inf (!n)
  | .nan => .nan
/-- An integer as a value. -/
def FV.ofInt (x : Int) : FV := .fin (decide (x < 0)) x.natAbs 0

/-! ## Exact arithmetic -/

/-- The signed integer of a finite value over the unit 2^e0, e0 ≤ e. -/
def scaled (neg : Bool) (m : Nat) (e e0 : Int) : Int := (if neg then -1 else 1) * ((m * 2 ^ (e - e0).toNat : Nat) : Int)
/-- Exact sum; NaN for ∞ − ∞. A zero sum is −0 only when both addends are −0 (R191, R35). -/
def FV.add : FV → FV → FV
  | .fin n m e, .fin n' m' e' =>
    if m = 0 then (if m' = 0 then .fin (n && n') 0 0 else .fin n' m' e')
    else if m' = 0 then .fin n m e
    else
      let e0 := min e e'
      let x := scaled n m e e0 + scaled n' m' e' e0
      .fin (decide (x < 0)) x.natAbs e0
  | .inf n, .inf n' => if n = n' then .inf n else .nan
  | .inf n, .fin _ _ _ => .inf n
  | .fin _ _ _, .inf n => .inf n
  | .nan, .nan => .nan
  | .nan, .inf _ => .nan
  | .nan, .fin _ _ _ => .nan
  | .inf _, .nan => .nan
  | .fin _ _ _, .nan => .nan
/-- Exact product; NaN for 0 × ∞. -/
def FV.mul : FV → FV → FV
  | .fin n m e, .fin n' m' e' => .fin (n != n') (m * m') (e + e')
  | .inf n, .inf n' => .inf (n != n')
  | .inf n, .fin n' m _ => if m = 0 then .nan else .inf (n != n')
  | .fin n' m _, .inf n => if m = 0 then .nan else .inf (n != n')
  | .nan, .nan => .nan
  | .nan, .inf _ => .nan
  | .nan, .fin _ _ _ => .nan
  | .inf _, .nan => .nan
  | .fin _ _ _, .nan => .nan
/-- Whether a value is below another; false with a NaN. Zeros are equal. -/
def FV.lt : FV → FV → Bool
  | .fin n m e, .fin n' m' e' => decide (scaled n m e (min e e') < scaled n' m' e' (min e e'))
  | .inf n, .inf n' => n && !n'
  | .inf n, .fin _ _ _ => n
  | .fin _ _ _, .inf n => !n
  | .nan, .nan => false
  | .nan, .inf _ => false
  | .nan, .fin _ _ _ => false
  | .inf _, .nan => false
  | .fin _ _ _, .nan => false

/-! ## Rounding (R28, R176) -/

/-- The number of bits of a value, for values below 2^fuel. -/
def bitLen (m : Nat) : Nat := if m = 0 then 0 else m.log2 + 1
/-- Whether a magnitude with the integer part q, a remainder compared to a half, and exactness moves up under a mode. -/
def roundsUp (rm : RM) (neg : Bool) (q : Nat) (aboveHalf tie inexact : Bool) : Bool := match rm with
  | .rn => aboveHalf || (tie && q % 2 == 1)
  | .rz => false
  | .ru => inexact && !neg
  | .rd => inexact && neg
/-- A magnitude in [m, m + 1) × 2^e, equal to m × 2^e unless `st`, rounded to a multiple of 2^u; with its exactness. -/
def roundUnit (rm : RM) (neg : Bool) (m : Nat) (e : Int) (st : Bool) (u : Int) : Nat × Bool :=
  if u ≤ e then (m * 2 ^ (e - u).toNat, st)
  else
    let d := (u - e).toNat
    let q := m / 2 ^ d
    let r := m % 2 ^ d
    let h := 2 ^ (d - 1)
    let inx := r != 0 || st
    (if roundsUp rm neg q (decide (h < r) || (r == h && st)) (r == h && !st) inx then q + 1 else q, inx)
/-- The unit to which a magnitude of a given length rounds with p bits of precision. -/
def unitOf (m : Nat) (e : Int) (p : Nat) : Int := e + (bitLen m : Int) - (p : Int)
/-- A magnitude rounded to a format as though its exponent range were unbounded above: its code and exactness. -/
def roundCode (f : FpFmt) (rm : RM) (neg : Bool) (m : Nat) (e : Int) (st : Bool) : Nat × Bool :=
  let u := max (unitOf m e (f.mant + 1)) f.unit
  let r := roundUnit rm neg m e st u
  ((u - f.unit).toNat * 2 ^ f.mant + r.1, r.2)
/-- Tiny after rounding, exponent range unbounded (R176). -/
def tinyAfter (f : FpFmt) (rm : RM) (neg : Bool) (m : Nat) (e : Int) (st : Bool) : Bool :=
  let u := unitOf m e (f.mant + 1)
  if f.unit ≤ u then false
  else if u = f.unit - 1 then (roundUnit rm neg m e st u).1 != 2 ^ (f.mant + 1)
  else true
/-- A code with its sign. -/
def signed (f : FpFmt) (neg : Bool) (code : Nat) : Nat := if neg then 2 ^ f.sign + code else code
/-- What an overflow gives (R32): an infinity, or the largest finite value when the mode rounds toward zero. -/
def overflowCode (f : FpFmt) (rm : RM) (neg : Bool) : Nat := match rm with
  | .rn => f.infCode
  | .rz => f.top
  | .ru => if neg then f.top else f.infCode
  | .rd => if neg then f.infCode else f.top
/-- Round (R175, R176) for the IEEE formats: a nonzero finite magnitude, its code and flags. -/
def roundMag (f : FpFmt) (rm : RM) (neg : Bool) (m : Nat) (e : Int) (st : Bool) : Nat × BitVec 8 :=
  let r := roundCode f rm neg m e st
  if r.1 > f.top then (signed f neg (overflowCode f rm neg), flOF ||| flNX)
  else
    (signed f neg r.1, if r.2 then (if tinyAfter f rm neg m e st then flNX ||| flUF else flNX) else 0)
/-- An exact value rounded to an IEEE format; a NaN gives the canonical NaN with NV (R26). -/
def roundTo (f : FpFmt) (rm : RM) : FV → Nat × BitVec 8
  | .nan => (f.canon, flNV)
  | .inf n => (signed f n f.infCode, 0)
  | .fin n m e => if m = 0 then (signed f n 0, 0) else roundMag f rm n m e false
/-- RoundNearestEven to FP32. -/
def rne (x : FV) : Word × BitVec 8 := let r := roundTo fp32 .rn x; (BitVec.ofNat 32 r.1, r.2)
/-- Narrow (R175, R32) for E4M3, E5M2 and E2M1: tininess of the delivered value, saturation, a NaN sets NAQ. -/
def narrowFp (f : FpFmt) (rm : RM) : FV → Nat × BitVec 8
  | .nan => (f.canon, flNAQ)
  | .inf n => (signed f n f.top, flSATQ ||| flNX)
  | .fin n m e =>
    if m = 0 then (signed f n 0, 0)
    else
      let r := roundCode f rm n m e false
      if r.1 > f.top then (signed f n f.top, flSATQ ||| flNX)
      else (signed f n r.1, if r.2 then (if r.1 < 2 ^ f.mant then flNX ||| flUF else flNX) else 0)
/-- Round to an integer: the integer and its exactness. -/
def roundInt (rm : RM) (neg : Bool) (m : Nat) (e : Int) : Int × Bool :=
  let r := roundUnit rm neg m e false 0
  (if neg then -(r.1 : Int) else r.1, r.2)
/-- Narrow to a signed integer of magnitude at most `lim`: INT8 (127) and ternary (1). SATQ on a finite clamp only when asked. -/
def narrowInt (rm : RM) (lim : Int) (finSat : Bool) : FV → Int × BitVec 8
  | .nan => (0, flNAQ)
  | .inf n => (if n then -lim else lim, flSATQ ||| flNX)
  | .fin n m e =>
    let r := roundInt rm n m e
    if r.1 > lim then (lim, if finSat then flSATQ ||| flNX else flNX)
    else if r.1 < -lim then (-lim, if finSat then flSATQ ||| flNX else flNX)
    else (r.1, if r.2 then flNX else 0)

/-! ## Element formats of quantisation (R24, R32, R203) -/

/-- The bits of an element of a format. -/
def elemBits : QFmt → Nat
  | .e4m3 => 8
  | .e5m2 => 8
  | .e2m1 => 4
  | .i8 => 8
  | .t2 => 2
/-- The code of a ternary value. -/
def ternCode (x : Int) : Nat := if x > 0 then 1 else if x < 0 then 3 else 0
/-- Narrow to an element format: its code and flags (R32–R34). -/
def narrowTo (q : QFmt) (rm : RM) (y : FV) : Nat × BitVec 8 := match q with
  | .e4m3 => narrowFp e4m3 rm y
  | .e5m2 => narrowFp e5m2 rm y
  | .e2m1 => narrowFp e2m1 .rn y
  | .i8 => let r := narrowInt rm 127 true y; ((BitVec.ofInt 8 r.1).toNat, r.2)
  | .t2 => let r := narrowInt .rn 1 false y; (ternCode r.1, r.2)
/-- The value of a ternary code: 0b10 counts as 0 and sets TRV (R24). -/
def ternVal (x : Nat) : Int × BitVec 8 := if x = 1 then (1, 0) else if x = 3 then (-1, 0) else if x = 2 then (0, flTRV) else (0, 0)
/-- The value of an element and its flags (R203). -/
def elemVal (q : QFmt) (x : Nat) : FV × BitVec 8 := match q with
  | .e4m3 => (widen e4m3 x, 0)
  | .e5m2 => (widen e5m2 x, 0)
  | .e2m1 => (widen e2m1 x, 0)
  | .i8 => (FV.ofInt (BitVec.ofNat 8 x).toInt, 0)
  | .t2 => let r := ternVal x; (FV.ofInt r.1, r.2)

/-! ## FP32 operations shared by lanes, reductions and engines -/

/-- The canonical NaN of FP32. -/
def canon32 : Word := 0x7FC00000
/-- fadd, and one step of an FP add reduction: exact sum, one rounding; any NaN input, and ∞ − ∞, give Canon with NV. -/
def fadd32 (a b : Word) : Word × BitVec 8 := rne ((fv a).add (fv b))
def fmul32 (a b : Word) : Word × BitVec 8 := rne ((fv a).mul (fv b))
def ffma32 (a b c : Word) : Word × BitVec 8 := rne (((fv a).mul (fv b)).add (fv c))
/-- The order of fmin and fmax: −0.0 below +0.0 (R192). -/
def fvBelow (a b : FV) : Bool := a.lt b || (a.isZero && b.isZero && a.isNeg && !b.isNeg)
/-- fmin, or fmax when `mx` (R192): values only; a NaN input sets NV. -/
def fminmax (mx : Bool) (a b : Word) : Word × BitVec 8 :=
  match (fv a).isNan, (fv b).isNan with
  | true, true => (canon32, flNV)
  | true, false => (b, flNV)
  | false, true => (a, flNV)
  | false, false => (if fvBelow (fv a) (fv b) then (if mx then b else a) else (if mx then a else b), 0)

end Sys2Proof.Machine
end

