-- ==== Sys2Proof/Machine/Matrix.lean ====
section
/-! DEFINITION. The matrix unit's arithmetic (R35–R39, R204, R256–R260): operand elements, chunks, the down-converter, the folding of
partial sums, and the progress words of tiles. -/

namespace Sys2Proof.Machine

/-! ## Elements (R24, R257) -/

/-- Quarters of a byte that an element of a form takes, for A and for B. -/
def mxQuarters : MxFmt → Nat × Nat
  | .e4m3 => (4, 4)
  | .e5m2 => (4, 4)
  | .e2m1 => (2, 2)
  | .bf16 => (8, 8)
  | .f16 => (8, 8)
  | .i8 => (4, 4)
  | .t8 => (4, 1)
/-- W of R35. -/
def mxChunk : MxFmt → Nat
  | .e4m3 => 32
  | .e5m2 => 32
  | .e2m1 => 64
  | .bf16 => 16
  | .f16 => 16
  | .i8 => 32
  | .t8 => 128
/-- Whether a form accumulates INT32. -/
def mxInt : MxFmt → Bool
  | .i8 => true
  | .t8 => true
  | .e4m3 => false
  | .e5m2 => false
  | .e2m1 => false
  | .bf16 => false
  | .f16 => false
/-- The code of element k of a row, elements of q quarter bytes. -/
def State.elemAt (s : State) (row : Addr) (q k : Nat) : Nat :=
  if q ≥ 4 then s.rdNat (row + q / 4 * k) (q / 4) else (s.rd8 (row + q * k / 4)).toNat / 2 ^ (2 * (q * k % 4)) % 2 ^ (2 * q)
/-- Bytes of K elements of q quarter bytes. -/
def rowBytes (q k : Nat) : Nat := ceilDiv (q * k) 4
/-- The FP value of an element of a form; H selects FP16. -/
def mxVal (fmt : MxFmt) (h : Bool) (x : Nat) : FV := match fmt with
  | .e4m3 => widen e4m3 x
  | .e5m2 => widen e5m2 x
  | .e2m1 => widen e2m1 x
  | .bf16 => widen (if h then fp16 else bf16) x
  | .f16 => widen fp16 x
  | .i8 => FV.ofInt (BitVec.ofNat 8 x).toInt
  | .t8 => FV.ofInt (BitVec.ofNat 8 x).toInt

/-! ## The down-converter (R39) -/

/-- A target of the down-converter. -/
inductive DownFmt where
  | q (f : QFmt)
  | half (f16 : Bool)
  deriving DecidableEq, Repr
/-- The A format of an mmac form. -/
def mxDown (fmt : MxFmt) (h : Bool) : DownFmt := match fmt with
  | .e4m3 => .q .e4m3
  | .e5m2 => .q .e5m2
  | .e2m1 => .q .e2m1
  | .bf16 => .half h
  | .f16 => .half true
  | .i8 => .q .i8
  | .t8 => .q .i8
/-- Converts a tile word with the scale: its code and flags. -/
def downConvert (f : DownFmt) (w sigma : Word) : Nat × BitVec 8 := match f with
  | .q .i8 => narrowTo .i8 .rn ((FV.ofInt w.toInt).mul (fv sigma))
  | .q q => narrowTo q .rn ((fv w).mul (fv sigma))
  | .half h => roundTo (if h then fp16 else bf16) .rn ((fv w).mul (fv sigma))

/-! ## Chunks (R35, R36) -/

/-- The accumulator word before the first chunk: −0.0, or 0 for INT32. -/
def accStart (fmt : MxFmt) : Word := if mxInt fmt then 0 else 0x80000000
/-- One FP chunk: the exact sum of some products onto the accumulator word, one rounding. -/
def fpChunk (acc : Word) (ps : List FV) : Word × BitVec 8 := rne ((fv acc).add (ps.foldl FV.add (.fin true 0 0)))
/-- One integer product: an INT8 pair, or a ternary element of B with an INT8 element of A. -/
def intProduct (fmt : MxFmt) (a b : Nat) : Int × BitVec 8 :=
  let x := (BitVec.ofNat 8 a).toInt
  match fmt with
  | .t8 => let t := ternVal b; (x * t.1, t.2)
  | _ => (x * (BitVec.ofNat 8 b).toInt, 0)
/-- Chunk n of one accumulator word, over the codes of A and B. -/
def mxUpdate (fmt : MxFmt) (h : Bool) (n k : Nat) (a b : Nat → Nat) (acc : Word) : Word × BitVec 8 :=
  let ks := (List.range (min (mxChunk fmt) (k - n * mxChunk fmt))).map fun i => n * mxChunk fmt + i
  if mxInt fmt then
    let ps := ks.map fun i => intProduct fmt (a i) (b i)
    (acc + BitVec.ofInt 32 (ps.foldl (fun t p => t + p.1) 0), orFlags (ps.map (·.2)))
  else
    fpChunk acc (ks.map fun i => (mxVal fmt h (a i)).mul (mxVal fmt h (b i)))
/-- Chunks `start` to the one before `stop`, in order. -/
def mxChunks (fmt : MxFmt) (h : Bool) (start stop k : Nat) (a b : Nat → Nat) (acc : Word) : Word × BitVec 8 :=
  (List.range (stop - start)).foldl (fun x n =>
    let r := mxUpdate fmt h (start + n) k a b x.1
    (r.1, x.2 ||| r.2)) (acc, 0)

/-! ## Tiles -/

/-- Every place of a tile. -/
def tilePlaces : List (Nat × Nat) := (List.range 128).flatMap fun i => (List.range 128).map fun j => (i, j)
def State.tileWord (s : State) (spn t i j : Nat) : Word := s.rd32 (accAddr spn t i j)
/-- Replaces the words of a tile at some places: every word is computed from the state before. -/
def State.mapTile (s : State) (spn t : Nat) (places : List (Nat × Nat)) (f : Nat → Nat → Word × BitVec 8) : State × BitVec 8 :=
  places.foldl (fun x p => let r := f p.1 p.2; (x.1.wr32 (accAddr spn t p.1 p.2) r.1, x.2 ||| r.2)) (s, 0)
/-- Rows from one to the one before `stop`. -/
def rowsFrom (r stop : Nat) : List (Nat × Nat) := tilePlaces.filter fun p => decide (r ≤ p.1) && decide (p.1 < stop)
/-- What the tile array holds of a tile whose words a command has just written through the tile buffer: `old` is the state before. -/
def State.bufferTile (s old : State) (spn t cmd : Nat) (fibres : List Nat) : State :=
  let ws := tilePlaces.filterMap fun p =>
    let a := accAddr spn t p.1 p.2
    if s.rd32 a = old.rd32 a then none else some (a, old.rd32 a)
  if ws.isEmpty then s
  else s.modSp spn fun p => { p with tbuf := p.tbuf ++ [{ cmd := cmd, fibres := fibres, words := ws }] }
/-! ## Progress words (R258, R259) -/

/-- Where a command stands against the progress word of its tile. -/
inductive Progress where
  | skip
  | from_ (step : Nat)
  | fresh
  deriving DecidableEq, Repr
/-- R258: what a command with a residency number, REGCNT and sequence number does at a tile. -/
def State.progressOf (s : State) (spn t own : Nat) (r : BitVec 16) (q : Nat) : Progress :=
  let a := s.acprog spn t
  if acOwn a == own && !acStale a && acRegcnt a == r && !acInv a then
    if q < acSeq a then .skip
    else if acSeq a == q then (if acDone a then .skip else .from_ (acStep a))
    else .fresh
  else .fresh
/-- The residency number of a workgroup on an SP. -/
def State.ownOf (s : State) (w spn : Nat) : Nat := ((tget s.wgs w).bind fun v => tget v.own spn).getD 0
/-- The tile whose progress word a matrix command keeps. -/
def CmdOp.progTile : CmdOp → Option Nat
  | .mma _ _ t _ _ _ => some t
  | .mmac _ _ t _ _ _ => some t
  | .aclr t => some t
  | .ald t _ _ => some t
  | .ast _ t _ _ => some t
  | .sacc d _ _ _ => some d
  | .saccV d _ _ _ _ => some d
  | _ => none
/-- The tile a matrix command writes. -/
def CmdOp.destTile : CmdOp → Option Nat
  | .ast _ _ _ _ => none
  | o => o.progTile
/-- The tile a matrix command reads as a source. -/
def CmdOp.srcTile : CmdOp → Option Nat
  | .mmac _ _ _ src _ _ => some src
  | .ast _ t _ _ => some t
  | .sacc _ p _ _ => some p
  | .saccV _ p _ _ _ => some p
  | _ => none
/-- Sets the INV bit of a tile. -/
def State.invTile (s : State) (spn t : Nat) : State := s.setAcprog spn t (s.acprog spn t ||| 0x2000000#64)

/-! ## The commands -/

/-- A word of the parameter group. -/
def par (p : List Word) (n : Nat) : Nat := (p.getD n 0).toNat
/-- The bytes that an element of an ast format takes, in quarters. -/
def astQuarters : AstFmt → Nat
  | .f32 => 16
  | .q f => elemBits f / 2
/-- What mma computes for a word in the chunks from `start` to the one before `stop`. -/
def State.mmaWord (s : State) (spn : Nat) (fmt : MxFmt) (h : Bool) (t : Nat) (a b : Cap) (p : List Word)
    (start stop i j : Nat) : Word × BitVec 8 :=
  let qs := mxQuarters fmt
  let acc := if start = 0 ∧ start < stop ∧ !(p.getD 5 0).getLsbD 0 then accStart fmt else s.tileWord spn t i j
  mxChunks fmt h start stop (par p 4) (fun k => s.elemAt (a.lo + par p 0 + i * par p 2) qs.1 k)
    (fun k => s.elemAt (b.lo + par p 1 + j * par p 3) qs.2 k) acc
/-- What mmac computes for a word; the conversion of every element that its chunks take sets its flags. -/
def State.mmacWord (s : State) (spn : Nat) (fmt : MxFmt) (h : Bool) (t src : Nat) (b : Cap) (p : List Word)
    (start stop i j : Nat) : Word × BitVec 8 :=
  let qs := mxQuarters fmt
  let acc := if start = 0 ∧ start < stop ∧ !(p.getD 5 0).getLsbD 0 then accStart fmt else s.tileWord spn t i j
  let conv (k : Nat) : Nat × BitVec 8 := downConvert (mxDown fmt h) (s.tileWord spn src i k) (p.getD 6 0)
  let r := mxChunks fmt h start stop (par p 4) (fun k => (conv k).1)
    (fun k => s.elemAt (b.lo + par p 1 + j * par p 3) qs.2 k) acc
  let w := mxChunk fmt
  (r.1, r.2 ||| orFlags ((List.range (min (stop * w) (par p 4) - start * w)).map fun k => (conv (start * w + k)).2))
/-- The value of a partial-sum word. -/
def saccVal (i32 : Bool) (p : Word) : FV := if i32 then FV.ofInt p.toInt else fv p
/-- What sacc computes for a word. -/
def State.saccWord (s : State) (spn d p : Nat) (sc : Nat → Nat → FV) (i32 : Bool) (i j : Nat) : Word × BitVec 8 :=
  rne ((fv (s.tileWord spn d i j)).add ((saccVal i32 (s.tileWord spn p i j)).mul (sc i j)))
/-- The exact product of a row scale and a column scale. -/
def State.saccScale (s : State) (base : Addr) (i j : Nat) : FV := (fv (s.rd32 (base + 4 * i))).mul (fv (s.rd32 (base + 512 + 4 * j)))
/-- The bytes of row i of ast: raw words, or packed elements; sub-byte rows are written whole. -/
def State.astRow (s : State) (spn t : Nat) (p : List Word) (fmt : AstFmt) (i : Nat) : List Byte × BitVec 8 := match fmt with
  | .f32 => ((List.range 128).flatMap fun j => leBytes 4 (s.tileWord spn t i j).toNat, 0)
  | .q f =>
    let cs := (List.range 128).map fun j => downConvert (.q f) (s.tileWord spn t i j) (p.getD 6 0)
    let b := elemBits f
    (leBytes (16 * b) (cs.foldr (fun c n => c.1 + 2 ^ b * n) 0), orFlags (cs.map (·.2)))
/-- Rows of ast from one to the one before `stop`, in order; `rd` is what the command reads. -/
def State.astRows (s rd : State) (spn : Nat) (d : Cap) (t : Nat) (p : List Word) (fmt : AstFmt) (start stop : Nat) : State × BitVec 8 :=
  (List.range (stop - start)).foldl (fun x n =>
    let i := start + n
    let r := rd.astRow spn t p fmt i
    (x.1.store (d.lo + par p 0 + i * par p 2) r.1, x.2 ||| r.2)) (s, 0)
/-- Chunks or rows of a command when it is done. -/
def CmdOp.steps : CmdOp → Nat
  | .mma fmt _ _ _ _ p => ceilDiv (par p 4) (mxChunk fmt)
  | .mmac fmt _ _ _ _ p => ceilDiv (par p 4) (mxChunk fmt)
  | _ => 128
/-- What a core's storage holds for every party: pending writes are not performed, the latest undone first (R124). -/
def State.performed (s : State) (core : Nat) : State := (s.pendOf core).reverse.foldl (fun t e => t.wrRaw e.addr e.old) s
/-- Pending writes in what a matrix command writes come before it. -/
def State.drainDest (s : State) (spn : Nat) (op : CmdOp) : State := match op with
  | .ast d _ p fmt =>
    (List.range 128).foldl (fun s i => s.drainAt none (d.lo + par p 0 + i * par p 2) (32 * astQuarters fmt)) s
  | op => match op.destTile with
    | some t => s.drainAt none (tileAddr spn t 0) 0x1_0000
    | none => s
/-- Runs the steps of a matrix command from `start` to the one before `stop`, its operands read in `rd`: the state and the flags. -/
def State.runMatrix (s rd : State) (spn : Nat) (op : CmdOp) (start stop : Nat) : State × BitVec 8 := match op with
  | .mma fmt h t a b p => s.mapTile spn t tilePlaces (rd.mmaWord spn fmt h t a b p start stop)
  | .mmac fmt h t src b p => s.mapTile spn t tilePlaces (rd.mmacWord spn fmt h t src b p start stop)
  | .aclr t => s.mapTile spn t (rowsFrom start stop) fun _ _ => (0, 0)
  | .ald t a p => s.mapTile spn t (rowsFrom start stop) fun i j => (rd.rd32 (a.lo + par p 0 + i * par p 2 + 4 * j), 0)
  | .ast d t p fmt => s.astRows rd spn d t p fmt start stop
  | .sacc d p sigma i32 => s.mapTile spn d (rowsFrom start stop) (rd.saccWord spn d p (fun _ _ => fv sigma) i32)
  | .saccV d p k off i32 => s.mapTile spn d (rowsFrom start stop) (rd.saccWord spn d p (rd.saccScale (k.lo + off)) i32)
  | _ => (s, 0)
/-- R258, R133: a matrix-class command with a residency number, REGCNT and sequence number runs to its end, its results in the tile
buffer; or with a choice for the count of steps left, it stops after some of them, its progress kept (R37). -/
def State.doMatrix (s0 : State) (spn own : Nat) (r : BitVec 16) (q : Nat) (op : CmdOp) (cmd : Nat) (fibres : List Nat)
    (upto : Option (Nat → Nat)) : State × BitVec 8 := match op.progTile with
  | none => (s0, 0)
  | some t =>
    let s := s0.drainDest spn op
    let run (start : Nat) : State × BitVec 8 :=
      let stop := match upto with
        | none => op.steps
        | some f => start + f (op.steps - start) % (op.steps - start + 1)
      let x := s.runMatrix (s.performed (coreOf spn)) spn op start stop
      let y := match op.destTile with
        | some d => x.1.bufferTile s spn d cmd fibres
        | none => x.1
      (y.setAcprog spn t (acWord own stop false false upto.isNone q r), x.2)
    match s0.progressOf spn t own r q with
    | .skip => (s0, 0)
    | .from_ n => run n
    | .fresh => run 0

end Sys2Proof.Machine
end

