-- ==== Sys2Proof/Machine/Command.lean ====
section
/-! DEFINITION. Engine commands (10, 19): what each uses and where it is checked (R243, R421), its scoreboard entries (R107), command
blocks (R246, R247), refusals and ill-formed commands (R425–R428), and its end (R128, R129, R249). -/

namespace Sys2Proof.Machine

/-- A LINK record for a command refused for want of a route (R459). -/
def State.noRoute (s : State) (colour q : Nat) : State :=
  if s.routeMask colour q == 0 then s.record { source := 0x1A, cls := 0x35, colour := colour, recov := 0x8 } false else s

/-! ## Command blocks (R60, R246) -/

/-- A command block as it stands in memory. -/
structure Block where
  op : Nat
  flags : Nat
  len : Nat
  status : Nat
  resume : Nat
  reserved : Nat
  g1 : Cap
  g2 : Cap
  p : BitVec 128
  deriving DecidableEq, Repr
def State.blockAt (s : State) (a : Addr) : Block where
  op := s.seenNat none a 1
  flags := s.seenNat none (a + 2) 2
  len := s.seenNat none (a + 8) 4
  status := s.seenNat none (a + 6) 2
  resume := s.seenNat none (a + 12) 4
  reserved := s.seenNat none (a + 1) 1 + s.seenNat none (a + 4) 2
  g1 := s.seenCap none (a + 16)
  g2 := s.seenCap none (a + 32)
  p := (s.seenCap none (a + 48)).bits
/-- Writes STATUS, and RESUME when given, for a world's command; these writes change no tag (R61). -/
def State.putStatus (s : State) (colour a : Nat) (status : Nat) (resume : Option Nat) : State :=
  let s1 := (((s.drainAt none a 16).passWr colour none a 16).logWrite a 16).wrKept (a + 6) (leBytes 2 status)
  match resume with
  | some r => s1.wrKept (a + 12) (leBytes 4 r)
  | none => s1
/-- The same, at once or as the block's bank set wakes (R118). -/
def State.blockStatus (s : State) (colour a : Nat) (status : Nat) (resume : Option Nat) : State :=
  if (s.asleep [(a, 16)]).isEmpty then s.putStatus colour a status resume
  else s.keepPosted [(a, 16)] { colour := colour, addr := a, what := .status status resume }
/-- Bits of the parameter granule. -/
def Block.par (b : Block) (lo n : Nat) : Nat := b.p.toNat / 2 ^ lo % 2 ^ n
def Block.flag (b : Block) (lo n : Nat) : Nat := b.flags / 2 ^ lo % 2 ^ n
/-- Each element of a list of elements once, at its own index. -/
def elemIdx (n : Nat) : List (Nat × Nat) := (List.range n).map fun e => (e, e)
/-- The operation of a block whose granule 2 is given; none for a reserved OP or FLAGS value (R246, R427). -/
def Block.toOp (b : Block) (g2 : Cap) : Option CmdOp :=
  if b.reserved ≠ 0 then none
  else match b.op with
  | 1 => if b.flags = 0 then some (.cpy g2 b.g1 (b.par 0 64) (b.par 64 64) b.len) else none
  | 2 => if b.flags < 8 then (eszCodes.lookup b.flags).map fun e =>
      .gather g2 b.g1 (b.par 0 64) (b.par 96 32) (b.par 64 32) e (elemIdx b.len) else none
  | 3 => if b.flags < 8 then (eszCodes.lookup b.flags).map fun e =>
      .scatter g2 b.g1 (b.par 96 32) (b.par 0 64) (b.par 64 32) e (elemIdx b.len) else none
  | 4 => if b.flags < 64 ∧ b.flag 4 2 < 2 then (clxCodes.lookup (b.flag 0 4)).map fun f =>
      .clx g2 b.g1 (b.par 0 32) (b.par 32 32) b.len (BitVec.ofNat 32 (b.par 64 32)) f (b.flag 4 2 == 1) else none
  | 5 => if b.flags < 16 then (nmcCodes.lookup b.flags).map fun f =>
      .nmc g2 b.g1 (b.par 0 32) (b.par 32 32) b.len (BitVec.ofNat 32 (b.par 64 32)) (BitVec.ofNat 32 (b.par 96 32)) f else none
  | 6 => if b.flags < 32 then (match atomCodes.lookup (b.flag 0 3) with
      | some f =>
        if b.flag 4 1 = 1 ∧ f ≠ .min ∧ f ≠ .max then none
        else some (.gatm g2 f (b.flag 3 1 == 1) (b.flag 4 1 == 1) (.b 0)
          [⟨0, 0, 0, BitVec.ofNat 64 (b.par 0 64), BitVec.ofNat 64 (b.par 64 64)⟩])
      | none => none) else none
  | 7 => if b.flags < 32 ∧ b.flag 2 3 ≠ 7 ∧ (b.flag 1 1 = 1 ∨ b.flag 2 3 = 0) then
      some (.sig g2 0 (BitVec.ofNat 32 (b.par 0 32)) (b.flag 0 1 == 1) (if b.flag 1 1 = 1 then scopeCodes.lookup (b.flag 2 3) else none))
    else none
  | _ => none

/-! ## Region lists (R105) -/

/-- A granule of a region list as the copy engine sees it. -/
def State.listGranule (s : State) (a : Addr) : Cap := match storeCore a with
  | some _ => s.seenCap none a
  | none => s.granuleAt a
/-- The entry that stands at an address, its scratchpad range on a core, its source as it stands until the entry's own check (R429); `back` is the copy to its source. Reserved bits are not read,
and SPOFF and LENGTH are used as they stand, whatever R105 says of their multiples (log entry 68). -/
def State.regEntry (s : State) (a : Addr) (core : Nat) (back : Bool) : CmdOp :=
  let g := (s.listGranule (a + 16)).bits
  .entry (s.listGranule a) (g.extractLsb' 0 52).toNat (spadBase core + (g.extractLsb' 64 23).toNat) (g.extractLsb' 96 24).toNat
    (g.getLsbD 120) (g.getLsbD 121) back (g.getLsbD 123)
/-- Whether the entry at an address is to be written back at completion. -/
def State.entryBack (s : State) (a : Addr) : Bool := (s.listGranule (a + 16)).bits.getLsbD 122

/-! ## What a command uses -/

/-- One capability of a command: what is asked of it, which windows serve it, whether a remote capability may stand there, and the
ranges (offset, bytes); `own` marks an end that needs no capability, its ranges absolute, `idle` one through which no byte moves. -/
structure CapUse where
  k : Cap
  perms : BitVec 16
  write : Bool := false
  reach : Reach := {}
  remote : Bool := false
  own : Bool := false
  idle : Bool := false
  ranges : List (Nat × Nat)
  deriving DecidableEq, Repr
/-- Bytes of an element. -/
def eszBytes : Esz → Nat
  | .e4 => 4
  | .e8 => 8
  | .e16 => 16
  | .e32 => 32
  | .e64 => 64
  | .e128 => 128
/-- Whether an nmc operation reads its operand range. -/
def nmcReads : NmcFn → Bool
  | .fade => true
  | .fadd => true
  | .iadd => true
  | .fmulc => false
  | .iaddc => false
  | .fill => false
/-- The windows of matrix operands: the issuing core's scratchpad. -/
def coreOnly (core : Nat) : Reach := { hbm := false, pool := false, host := false, core := some core }
/-- The 128 rows of a matrix operand. -/
def rowRanges (off ld n : Nat) : List (Nat × Nat) := (List.range 128).map fun i => (off + i * ld, n)
/-- Bytes of a collective's result for each destination. -/
def clxBytes (fn : ClxFn) (c len : Nat) : Nat := match fn with
  | .allgather => c * len
  | .sum => len
  | .max => len
  | .min => len
  | .bcast => len
/-- The capabilities of an operation in the order of R421: granule 1, then granule 2; `c` is the count of its collective slot. -/
def CmdOp.uses (core c : Nat) : CmdOp → List CapUse
  | .cpy dst src soff doff len =>
    [{ k := src, perms := permLd, reach := { rx := true }, remote := dst.remote.isNone, ranges := [(soff, len)] },
     { k := dst, perms := permSt, write := true, reach := { rx := true }, remote := src.remote.isNone, ranges := [(doff, len)] }]
  | .block _ _ => []
  | .entry src off sp len load zero back _ =>
    (if back then [{ k := src, perms := permSt, write := true, ranges := [(off, len)] }]
     else if load && !zero then [{ k := src, perms := permLd, ranges := [(off, len)] }]
     else [{ k := src, perms := 0, idle := true, ranges := [(off, len)] }]) ++
    [{ k := nullCap, perms := 0, write := !back, own := true, ranges := [(sp, len)] }]
  | .stage list idx _ => [{ k := list, perms := permLd, ranges := [(32 * idx, 32)] }]
  | .wb k off len _ => [{ k := k, perms := permLd, reach := { host := false, spad := false }, ranges := [(off, len)] }]
  | .gather dst src soff doff stride esz idx =>
    let n := eszBytes esz
    [{ k := src, perms := permLd, reach := { rx := true }, ranges := idx.map fun x => (soff + x.2 * stride, n) },
     { k := dst, perms := permSt, write := true, reach := { rx := true }, ranges := idx.map fun x => (doff + x.1 * n, n) }]
  | .scatter dst src soff doff stride esz idx =>
    let n := eszBytes esz
    [{ k := src, perms := permLd, reach := { rx := true }, ranges := idx.map fun x => (soff + x.1 * n, n) },
     { k := dst, perms := permSt, write := true, reach := { rx := true }, ranges := idx.map fun x => (doff + x.2 * stride, n) }]
  | .mma fmt _ _ a b p =>
    [{ k := a, perms := permLd, reach := coreOnly core, ranges := rowRanges (par p 0) (par p 2) (rowBytes (mxQuarters fmt).1 (par p 4)) },
     { k := b, perms := permLd, reach := coreOnly core, ranges := rowRanges (par p 1) (par p 3) (rowBytes (mxQuarters fmt).2 (par p 4)) }]
  | .mmac fmt _ _ _ b p =>
    [{ k := b, perms := permLd, reach := coreOnly core, ranges := rowRanges (par p 1) (par p 3) (rowBytes (mxQuarters fmt).2 (par p 4)) }]
  | .aclr _ => []
  | .ald _ a p => [{ k := a, perms := permLd, reach := coreOnly core, ranges := rowRanges (par p 0) (par p 2) 512 }]
  | .ast d _ p fmt =>
    [{ k := d, perms := permSt, write := true, reach := coreOnly core, ranges := rowRanges (par p 0) (par p 2) (rowBytes (astQuarters fmt) 128) }]
  | .sacc _ _ _ _ => []
  | .saccV _ _ k off _ => [{ k := k, perms := permLd, reach := coreOnly core, ranges := [(off, 1024)] }]
  | .clx dst src soff doff len _ fn _ =>
    [{ k := src, perms := permLd, reach := { rx := true }, ranges := [(soff, len)] },
     { k := dst, perms := permSt, write := true, reach := { rx := true }, ranges := [(doff, clxBytes fn c len)] }]
  | .nmc t g soff doff len _ _ fn =>
    let w : Reach := { pool := false, host := false, spad := false }
    (if nmcReads fn then [{ k := g, perms := permLd, reach := w, ranges := [(soff, len)] }] else []) ++
    [{ k := t, perms := permLd ||| permSt ||| permNmc, write := true, reach := w, ranges := [(doff, len)] }]
  | .gatm k _ w64 _ _ lanes =>
    if lanes.isEmpty then []
    else [{ k := k, perms := permLd ||| permSt ||| permAtom, write := true, reach := { host := false }, remote := true,
            ranges := lanes.map fun l => (l.off, if w64 then 8 else 4) }]
  | .sig k off _ add _ =>
    [{ k := k, perms := if add then permLd ||| permSt ||| permAtom else permSt, write := true, reach := { host := false }, remote := true,
       ranges := [(off, 4)] }]
/-- The package on which a command's memory lies, when a remote capability serves it (R65). -/
def CmdOp.peer : CmdOp → Option Nat
  | .cpy dst src _ _ _ => dst.remote <|> src.remote
  | .gatm k _ _ _ _ _ => k.remote
  | .sig k _ _ _ _ => k.remote
  | .gather dst _ _ _ _ _ _ => dst.remote
  | .scatter dst _ _ _ _ _ _ => dst.remote
  | .nmc t _ _ _ _ _ _ _ => t.remote
  | .block k _ => k.remote
  | _ => none
/-- The first address that an operation uses: on a peer where a remote capability serves it. -/
def CmdOp.firstAddr : CmdOp → Addr
  | .block b _ => b.lo
  | op => (((op.uses 0 0).find? fun u => u.k.remote.isSome) <|> (op.uses 0 0).head?).elim 0 fun u =>
      ((u.ranges.map fun r => if u.own then r.1 else u.k.lo + r.1).foldl (fun m a => some (m.elim a (min a))) none).getD 0
/-- The capabilities of an operation; the local capability of `cpy.cmd` belongs to a remote command alone (R64, R248). -/
def CmdOp.caps (op : CmdOp) : List Cap := match op with
  | .block k loc => k :: (if k.remote.isSome then loc.toList else [])
  | _ => (op.uses 0 0).map (·.k)
/-- The granule 2 that a block's command uses: the peer's local capability stands for an untagged one in a command run for a peer alone
(R61, R64). -/
def Block.granule2 (b : Block) (peer : Bool) (loc : Option Cap) : Cap := if peer && !b.g2.tag then loc.getD b.g2 else b.g2
/-- The operation that the block or list entry of an operation gives now. -/
def State.peeked (s : State) (core : Nat) (peer : Bool) : CmdOp → Option CmdOp
  | .block k loc => if k.remote.isSome then none else let b := s.blockAt k.lo; b.toOp (b.granule2 peer loc)
  | .stage list idx back => some (s.regEntry (list.lo + 32 * idx) core back)
  | _ => none
/-- The operations of a command: its own, and the one its block or list entry gives, which it has taken or would take now. -/
def State.opsOf (s : State) (m : Cmd) : List CmdOp := m.op :: (m.inner <|> s.peeked m.core m.peer.isSome m.op).toList
/-- The tagged capabilities of a command; what stands for a peer's local capability is none of this package (R64). -/
def State.capsOf (s : State) (m : Cmd) : List Cap := ((s.opsOf m).flatMap fun o => o.caps).filter fun k => k.tag && !k.isPeerEnd
/-- Whether a command is ORDERED: any of its capabilities has the attribute (R66). -/
def State.ordered (s : State) (m : Cmd) : Bool := (s.capsOf m).any fun k => k.has permOrdered

/-! ## Checks (R55, R243, R421) -/

/-- The cause by which one range of a capability of a command is refused. A peer's local capability is checked by its own package (R64). -/
def State.partCause (s : State) (colour : Nat) (u : CapUse) (r : Nat × Nat) : Option Nat :=
  let far (q : Nat) : Option Nat := if s.unreachable colour q then some 0x09 else none
  match u.own, u.remote, u.k.remote with
  | true, _, _ => s.rangeCause colour false u.reach u.write r.1 r.2
  | false, true, some q =>
    if u.k.isPeerEnd then far q
    else minCause (s.capCause colour u.k { kinds := [kindData], perms := u.perms, sealOk := true } r.1 r.2) (far q)
  | _, _, _ => if u.idle then s.capCause colour u.k { kinds := [kindData], perms := u.perms } r.1 r.2
               else s.useCause colour u.k u.reach u.perms u.write r.1 r.2
/-- The first address at which one capability of a command is refused, with the least cause; one that touches no range is checked all
the same (R243). -/
def State.useRefusal (s : State) (colour : Nat) (u : CapUse) : Option (Nat × Addr) :=
  let at_ (r : Nat × Nat) : Option (Nat × Addr) := (s.partCause colour u r).map fun n => (n, if u.own then r.1 else u.k.lo + r.1)
  (if u.ranges.isEmpty then [(0, 0)] else u.ranges).foldl (fun m r => match m, at_ r with
    | some x, some y => if y.1 < x.1 then some y else some x
    | some x, none => some x
    | none, y => y) none
/-- The least cause among the capabilities of an operation, in the order of R421. -/
def State.usesRefusal (s : State) (colour : Nat) (us : List CapUse) : Option (Nat × Addr) :=
  us.foldl (fun m u => match m, s.useRefusal colour u with
    | some x, some y => if y.1 < x.1 then some y else some x
    | some x, none => some x
    | none, y => y) none
/-- The hardware collective slot that a command's launch maps its logical slot to. -/
def State.clxSlotOf (s : State) (w : Nat) (arg0 : Word) : Option (Nat × ClxSlot) :=
  ((tget s.wgs w).bind fun g => tget s.launches g.launch).bind fun l =>
    (l.slots.find? fun x => x.1 == arg0.toNat % 16 && x.2.1).bind fun x => (tget s.clxs x.2.2).map fun b => (x.2.2, b)
/-- The participant count that an operation's collective slot has. -/
def State.clxCount (s : State) (w : Nat) : CmdOp → Nat
  | .clx _ _ _ _ _ arg0 _ _ => ((s.clxSlotOf w arg0).map fun x => x.2.c).getD 0
  | _ => 0
/-- R427. -/
def State.illFormed (s : State) (w : Nat) : CmdOp → Bool
  | .clx _ _ _ _ _ arg0 _ _ => (s.clxSlotOf w arg0).isNone
  | .mma _ _ _ _ _ p => decide (par p 4 < 32) || decide (65536 < par p 4) || par p 4 % 32 != 0 || par p 2 % 16 != 0 || par p 3 % 16 != 0
  | .mmac _ _ _ _ _ p => decide (par p 4 < 32) || decide (128 < par p 4) || par p 4 % 32 != 0 || par p 3 % 16 != 0
  | .ald _ _ p => decide (par p 2 < 512) || par p 2 % 16 != 0
  | .ast _ _ p _ => par p 2 % 16 != 0
  | .saccV _ _ _ off _ => off % 16 != 0
  | .stage _ idx _ => decide (15 < idx)
  | .nmc t g soff doff len _ _ fn => doff % 128 != 0 || len % 128 != 0 || (t.lo + doff) % 128 != 0 || (nmcReads fn && (g.lo + soff) % 4 != 0)
  | .sig k off _ _ _ => (k.lo + off) % 4 != 0
  | .gatm k _ w64 _ _ lanes => lanes.any fun l => (k.lo + l.off) % (if w64 then 8 else 4) != 0
  | .cpy _ _ _ _ _ => false
  | .block _ _ => false
  | .entry _ _ _ _ _ _ _ _ => false
  | .wb _ _ _ _ => false
  | .gather _ _ _ _ _ _ _ => false
  | .scatter _ _ _ _ _ _ _ => false
  | .aclr _ => false
  | .sacc _ _ _ _ => false
/-- The uses of an operation of a command: a remote capability serves a direct command, and what stands for a peer's local capability a
command run for that peer (R59, R64, R65). -/
def State.usesOf (s : State) (m : Cmd) (op : CmdOp) : List CapUse :=
  (op.uses m.core (s.clxCount m.wg op)).map fun u => { u with remote := (u.remote && m.inner.isNone) || (m.peer.isSome && u.k.isPeerEnd) }
/-- The cause by which a command is refused when it begins, with the refused address; an ill-formed one has cause 0x0C. -/
def State.beginCause (s : State) (m : Cmd) (op : CmdOp) : Option (Nat × Addr) :=
  let c := s.usesRefusal m.colour (s.usesOf m op)
  let worse (n : Nat) (bad : Bool) (c : Option (Nat × Addr)) : Option (Nat × Addr) := match c with
    | some x => some x
    | none => if bad then some (n, 0) else none
  worse 0x0D (match op.srcTile with
    | some t => acInv (s.acprog m.spn t)
    | none => false) (match c with
      | some x => if x.1 < 0x0C then some x else worse 0x0C (s.illFormed m.wg op) (some x)
      | none => worse 0x0C (s.illFormed m.wg op) none)

/-! ## Scoreboard entries (R107, R108, R205, R258) -/

/-- A byte range widened to granules, as entries on every core whose window it touches. -/
def entriesOn (lo hi : Addr) (write : Bool) : List Entry :=
  if hi ≤ lo ∨ hi ≤ onchipBase then []
  else
    let a := lo / 16 * 16
    let b := (hi + 15) / 16 * 16
    (List.range 64).filterMap fun c =>
      let p := max a (coreBase c)
      let q := min b (coreBase c + 0x100_0000)
      if p < q then some ⟨c, p, q, write⟩ else none
/-- The least and greatest end of some ranges of a capability. -/
def hull (k : Cap) (l : List (Nat × Nat)) : Addr × Addr :=
  l.foldl (fun x r => (min x.1 (k.lo + r.1), max x.2 (k.lo + r.1 + r.2)))
    (match l with | [] => (0, 0) | r :: _ => (k.lo + r.1, k.lo + r.1 + r.2))
/-- The entries of one capability of an operation. -/
def CapUse.entries (whole rows : Bool) (u : CapUse) : List Entry :=
  if u.k.remote.isSome || u.idle then []
  else if u.own then u.ranges.flatMap fun r => entriesOn r.1 (r.1 + r.2) u.write
  else if u.ranges.all (fun r => r.2 == 0) then []
  else if whole then entriesOn u.k.lo (u.k.lo + u.k.len) u.write
  else if rows then entriesOn (hull u.k u.ranges).1 (hull u.k u.ranges).2 u.write
  else u.ranges.flatMap fun r => entriesOn (u.k.lo + r.1) (u.k.lo + r.1 + r.2) u.write
/-- One entry for each core: the least range that holds every entry there. -/
def onePerCore (es : List Entry) : List Entry := ((es.map (·.core)).eraseDups).map fun c =>
  let l := es.filter fun e => e.core == c
  ⟨c, (l.map (·.lo)).foldl min ((l.head?.map (·.lo)).getD 0), (l.map (·.hi)).foldl max 0, l.any (·.write)⟩
/-- The entry of a tile. -/
def tileEntry (spn t : Nat) (write : Bool) : List Entry := entriesOn (tileAddr spn t 0) (tileAddr spn t 0 + 0x1_0000) write
/-- The entries an operation holds. -/
def CmdOp.entries (spn c : Nat) (op : CmdOp) : List Entry :=
  let us := op.uses (coreOf spn) c
  let both (f : CapUse → List Entry) : List Entry := us.flatMap f
  match op with
  | .gather _ _ _ _ _ _ _ => both (CapUse.entries true false)
  | .scatter _ _ _ _ _ _ _ => both (CapUse.entries true false)
  | .block k loc => if k.remote.isNone then entriesOn k.lo (k.lo + 64) true
      else loc.toList.flatMap fun l => entriesOn l.lo (l.lo + l.len) true
  | .cpy _ _ _ _ _ => both (CapUse.entries false false)
  | .entry _ _ _ _ _ _ _ _ => both (CapUse.entries false false)
  | .stage _ _ _ => both (CapUse.entries false false)
  | .wb _ _ _ _ => []
  | .clx _ _ _ _ _ _ _ _ => both (CapUse.entries false false)
  | .nmc _ _ _ _ _ _ _ _ => []
  | .gatm _ _ _ _ _ _ => onePerCore (both (CapUse.entries false false))
  | .sig _ _ _ _ _ => both (CapUse.entries false false)
  | .mma _ _ t _ _ _ => both (CapUse.entries false true) ++ tileEntry spn t true
  | .mmac _ _ t src _ _ => both (CapUse.entries false true) ++ tileEntry spn src false ++ tileEntry spn t true
  | .aclr t => tileEntry spn t true
  | .ald t _ _ => both (CapUse.entries false true) ++ tileEntry spn t true
  | .ast _ t _ _ => both (CapUse.entries false true) ++ tileEntry spn t false
  | .sacc d p _ _ => tileEntry spn p false ++ tileEntry spn d true
  | .saccV d p _ _ _ => both (CapUse.entries false true) ++ tileEntry spn p false ++ tileEntry spn d true
/-- Whether an operation's read operand waits on an earlier writer (R205, R258). -/
def CmdOp.readWaits (op : CmdOp) (e : Entry) : Bool := match op with
  | .sacc _ _ _ _ => true
  | .saccV _ _ _ _ _ => true
  | .mmac _ _ _ _ _ _ => (match window e.lo with | .acc _ => true | _ => false)
  | .ast _ _ _ _ => (match window e.lo with | .acc _ => true | _ => false)
  | _ => false
/-- Whether two entries overlap. -/
def Entry.meets (x e : Entry) : Bool := x.core == e.core && decide (x.lo < e.hi) && decide (e.lo < x.hi)
/-- Whether command k waits on earlier ones: by entries that overlap, or because they use one progress word of the SP, since the commands
to one tile are performed in the order of issue (R258, R260). -/
def State.entriesHeld (s : State) (k : Nat) (op : CmdOp) (es : List Entry) : Bool :=
  s.cmds.any fun y => decide (y.1 < k) && y.2.holds &&
    (((tget s.cmds k).any fun m => m.spn == y.2.spn && op.progTile.isSome && (y.2.inner.getD y.2.op).progTile == op.progTile) ||
      y.2.entries.any fun e => es.any fun x => x.meets e && (x.write || (e.write && op.readWaits x)))
/-- Room in a core's scoreboard for the entries of a list that lie there; none while all its entries are held (R107). -/
def State.entryRoom (s : State) (core : Nat) (es : List Entry) : Bool :=
  decide ((s.entriesOf core).length < scoreboardSize) &&
    decide ((s.entriesOf core).length + (es.filter fun e => e.core == core).length ≤ scoreboardSize)
/-- A command takes the entries it waits for, on each core that has room for all of those there. -/
def State.takeEntries (s : State) (k : Nat) : State := match tget s.cmds k with
  | none => s
  | some m => ((m.want.map (·.core)).eraseDups).foldl (fun s c =>
      if s.entryRoom c m.want then
        s.modCmd k fun m => { m with entries := m.entries ++ m.want.filter (fun e => e.core == c), want := m.want.filter fun e => e.core != c }
      else s) s
/-- A command is to hold some entries: it keeps those it has, and takes the others where there is room. -/
def State.holdEntries (s : State) (k : Nat) (es : List Entry) : State :=
  (s.modCmd k fun m => { m with entries := m.entries.filter es.contains, want := es.filter fun e => !m.entries.contains e }).takeEntries k

/-! ## Records of commands (R422, R469) -/

/-- The part that carries a class out. -/
def engineSource : Cls → BitVec 8
  | .ecp => 0x10
  | .egs => 0x11
  | .emx => 0x12
  | .ecl => 0x13
  | .enm => 0x14
  | .eat => 0x15
/-- The counter of an operation's own engine. -/
def CmdOp.engine : CmdOp → Cls
  | .cpy _ _ _ _ _ => .ecp
  | .block _ _ => .ecp
  | .entry _ _ _ _ _ _ _ _ => .ecp
  | .stage _ _ _ => .ecp
  | .wb _ _ _ _ => .ecp
  | .gather _ _ _ _ _ _ _ => .egs
  | .scatter _ _ _ _ _ _ _ => .egs
  | .mma _ _ _ _ _ _ => .emx
  | .mmac _ _ _ _ _ _ => .emx
  | .aclr _ => .emx
  | .ald _ _ _ => .emx
  | .ast _ _ _ _ => .emx
  | .sacc _ _ _ _ => .emx
  | .saccV _ _ _ _ _ => .emx
  | .clx _ _ _ _ _ _ _ _ => .ecl
  | .nmc _ _ _ _ _ _ _ _ => .enm
  | .gatm _ _ _ _ _ _ => .eat
  | .sig _ _ _ _ _ => .eat
/-- A record about a command. -/
def State.cmdRec (s : State) (m : Cmd) (cls : BitVec 8) (recov : BitVec 4) (code : Nat) (addr : Addr) : Rec where
  source := engineSource ((m.inner.getD m.op).engine)
  cls := cls
  colour := m.colour
  recov := recov
  spn := m.spn
  regcnt := m.regcnt
  code := BitVec.ofNat 16 (m.wi * 4096 + code)
  pc := m.pc
  addr := addr
  wgid := ((tget s.wgs m.wg).map (·.wgid)).getD 0
/-- A command as a party that accesses memory. -/
def State.cmdAgent (s : State) (m : Cmd) : Agent where
  colour := m.colour
  wg := some m.wg
  core := some m.core
  r := s.cmdRec m 0x11 0 0 0

/-! ## The end of a command (R128, R129, R249) -/

/-- The class whose commands a counter follows, and the order: whether an earlier command of the class still owes a fibre. -/
def State.owedBefore (s : State) (k : Nat) (x : Cls) (i : Nat) : Bool :=
  s.cmds.any fun y => decide (y.1 < k) && y.2.cls == x && y.2.owed.contains i
/-- Lowers the counters a performed command can now lower; a refused one sets its bit there (R425). -/
def State.settleCmd (s : State) (k : Nat) : State := match tget s.cmds k with
  | none => s
  | some m =>
    if m.phase != .performed then s
    else
      let now := m.owed.filter fun i => !s.owedBefore k m.cls i
      let rest := m.owed.filter fun i => s.owedBefore k m.cls i
      let s1 := s.countDec now m.cls
      let s2 := if m.refused.isSome then s1.refusalBit now m.cls true else s1
      if rest.isEmpty then
        if m.refused.isSome then s2.modCmd k fun m => { m with owed := [], phase := .counted } else { s2 with cmds := tdel s2.cmds k }
      else s2.modCmd k fun m => { m with owed := rest }
/-- Lowers counters in the order of issue. -/
def State.settleCmds (s : State) : State := (s.cmds.map (·.1)).foldl (fun s k => s.settleCmd k) s
/-- The OP that a slot shows for an operation; the spec gives the operations without a block form none (log entry 10). -/
def CmdOp.code : CmdOp → Nat
  | .cpy _ _ _ _ _ => 1
  | .gather _ _ _ _ _ _ _ => 2
  | .scatter _ _ _ _ _ _ _ => 3
  | .clx _ _ _ _ _ _ _ _ => 4
  | .nmc _ _ _ _ _ _ _ _ => 5
  | .gatm _ _ _ _ _ _ => 6
  | .sig _ _ _ _ _ => 7
  | .stage _ _ _ => Config.slotOp 0 % 256
  | .wb _ _ _ _ => Config.slotOp 1 % 256
  | .mma _ _ _ _ _ _ => Config.slotOp 2 % 256
  | .mmac _ _ _ _ _ _ => Config.slotOp 3 % 256
  | .aclr _ => Config.slotOp 4 % 256
  | .ald _ _ _ => Config.slotOp 5 % 256
  | .ast _ _ _ _ => Config.slotOp 6 % 256
  | .sacc _ _ _ _ => Config.slotOp 7 % 256
  | .saccV _ _ _ _ _ => Config.slotOp 8 % 256
  | .block _ _ => 0
  | .entry _ _ _ _ _ _ _ _ => 0
/-- The low 32 bits of a number, as a word. -/
def w32 (n : Nat) : Word := BitVec.ofNat 32 n
/-- The parameters that a slot shows in granule 3, in the layout of R246 where the operation has a block form, and LENGTH.
Of a `gatm` of several lanes, for which that layout has no room, the first lane's operand stands there (the model's choice, log entry 10). -/
def CmdOp.slotPar (op : CmdOp) : Nat × Nat :=
  let free (n : Nat) (p : List Word) : Nat × Nat := ((Config.slotPars n p).toNat, (Config.slotLen n p).toNat)
  match op with
  | .cpy _ _ soff doff len => (soff % 2 ^ 64 + doff % 2 ^ 64 * 2 ^ 64, len)
  | .gather _ _ soff doff stride _ idx => (soff % 2 ^ 64 + stride % 2 ^ 32 * 2 ^ 64 + doff % 2 ^ 32 * 2 ^ 96, idx.length)
  | .scatter _ _ soff doff stride _ idx => (doff % 2 ^ 64 + stride % 2 ^ 32 * 2 ^ 64 + soff % 2 ^ 32 * 2 ^ 96, idx.length)
  | .clx _ _ soff doff len arg0 _ _ => (soff % 2 ^ 32 + doff % 2 ^ 32 * 2 ^ 32 + arg0.toNat * 2 ^ 64, len)
  | .nmc _ _ soff doff len a b _ => (soff % 2 ^ 32 + doff % 2 ^ 32 * 2 ^ 32 + a.toNat * 2 ^ 64 + b.toNat * 2 ^ 96, len)
  | .sig _ _ v _ _ => (v.toNat, 1)
  | .gatm _ _ _ _ _ ls => ((match ls with | l :: _ => l.a.toNat + l.b.toNat * 2 ^ 64 | [] => 0), 1)
  | .stage _ idx _ => free 0 [w32 idx]
  | .wb _ off len _ => free 1 [w32 off, w32 (off / 2 ^ 32), w32 len]
  | .mma _ _ _ _ _ p => free 2 p
  | .mmac _ _ _ _ _ p => free 3 p
  | .aclr _ => free 4 []
  | .ald _ _ p => free 5 p
  | .ast _ _ p _ => free 6 p
  | .sacc _ _ c _ => free 7 [c]
  | .saccV _ _ _ off _ => free 8 [w32 off]
  | .block _ _ => (0, 0)
  | .entry _ _ _ _ _ _ _ _ => (0, 0)
/-- The source and the destination capability that a slot shows in granules 1 and 2 (R249); of `mma`, which has two sources and no
destination, A and B (log entry 10). -/
def CmdOp.ends : CmdOp → Cap × Cap
  | .cpy dst src _ _ _ => (src, dst)
  | .gather dst src _ _ _ _ _ => (src, dst)
  | .scatter dst src _ _ _ _ _ => (src, dst)
  | .clx dst src _ _ _ _ _ _ => (src, dst)
  | .nmc t g _ _ _ _ _ _ => (g, t)
  | .gatm k _ _ _ _ _ => (nullCap, k)
  | .sig k _ _ _ _ => (nullCap, k)
  | .stage list _ _ => (list, nullCap)
  | .wb k _ _ _ => (k, nullCap)
  | .mma _ _ _ a b _ => (a, b)
  | .mmac _ _ _ _ b _ => (b, nullCap)
  | .aclr _ => (nullCap, nullCap)
  | .ald _ a _ => (a, nullCap)
  | .ast d _ _ _ => (nullCap, d)
  | .sacc _ _ _ _ => (nullCap, nullCap)
  | .saccV _ _ k _ _ => (k, nullCap)
  | .block _ _ => (nullCap, nullCap)
  | .entry _ _ _ _ _ _ _ _ => (nullCap, nullCap)
/-- A command slot as the host reads it (R249): granules 1 and 2 without tags. -/
def Cmd.slotImage (m : Cmd) : BitVec 512 :=
  BitVec.ofNat 128 m.op.slotPar.1 ++ m.op.ends.2.bits ++ m.op.ends.1.bits ++ BitVec.ofNat 32 m.resume
    ++ BitVec.ofNat 32 m.op.slotPar.2 ++ BitVec.ofNat 16 m.status ++ 0#16 ++ 0#16 ++ 0#8 ++ BitVec.ofNat 8 m.op.code
/-- A slot as the host reads it: of a protected world granule 0 alone. -/
def State.slotSeen (s : State) (m : Cmd) : BitVec 512 :=
  if s.isProtected m.colour then m.slotImage &&& BitVec.ofNat 512 (2 ^ 128 - 1) else m.slotImage
/-- Where a slot of a class stands among a core's slots. -/
def slotKey (x : Cls) (n : Nat) : Nat := x.idx * 64 + n
/-- What a command's slot shows from now on. -/
def State.writeSlot (s : State) (m : Cmd) (shown : Cmd) : State := match m.slot with
  | some n => s.modCore m.core fun c => { c with slots := tput c.slots (slotKey m.cls n) (s.slotSeen shown) }
  | none => s
/-- A command ends with a STATUS: written in its slot or block, its entries free, its counter lowered in order. -/
def State.finish (s : State) (k status : Nat) (cause : Option (Nat × Addr)) : State := match tget s.cmds k with
  | none => s
  | some m =>
    let m1 : Cmd := { m with status := status, resume := 0, phase := .performed, entries := [], want := [], slot := none,
                             refused := cause.map (·.1), addr := (cause.map (·.2)).getD 0 }
    let s1 := s.writeSlot m m1
    let n := if 0x8000 ≤ status then 6 else m.cls.idx
    let s2 := match m.peer with
      | some q => s1.send (.answer q m.colour status [])
      | none => s1
    (({ s2 with cmds := tput s2.cmds k m1 }.count m.colour 1 n 1)).settleCmds
/-- A block's command ends: STATUS in the block, RESUME 0 unless it is refused (R246, R426). -/
def State.finishBlock (s : State) (k : Nat) (a : Addr) (status : Nat) : State :=
  (s.blockStatus (((tget s.cmds k).map (·.colour)).getD 0) a status (if 0x8000 ≤ status then none else some 0)).finish k status none
/-- R425, R426: a refused command. One that runs a block sets no refusal bit: its record goes to the hypervisor and the world, and STATUS
into the block, where the engine has taken it (log entry 59). -/
def State.refuseCmd (s : State) (k : Nat) (m : Cmd) (cause : Nat) (addr : Addr) : State := match m.op with
  | .block b _ =>
    let t := s.record (s.cmdRec m 0x20 0x8 cause addr) true
    if m.inner.isNone then t.finish k (0x8000 + cause) none else t.finishBlock k b.lo (0x8000 + cause)
  | _ => s.finish k (0x8000 + cause) (some (cause, addr))
end Sys2Proof.Machine
end

