-- ==== Sys2Proof/Machine/Perform.lean ====
section
/-! DEFINITION. What engine commands do to storage: transfers (R251–R255), write-back (R253), near-memory updates (R137, R262, R466,
R468), engine atomics and signals (R136, R263, R264), collectives (R261, R413, R432), and uses of peer packages (R62–R65). -/

namespace Sys2Proof.Machine

/-- The outcome of an operation: the state, whether a line was lost, the flags, the old value of an atomic, and the words
of a scratchpad that an atomic wrote, and a refusal that is met only at the end. -/
structure Done where
  s : State
  lost : Bool := false
  fl : BitVec 8 := 0
  old : DWord := 0
  wrote : List (Addr × Nat × DWord) := []
  cause : Option Nat := none
  deriving DecidableEq, Repr

/-- The lines that a command writes at its end beside those of its operation: those of a block of this package. -/
def Cmd.blockLines (m : Cmd) : List Addr := match m.op with
  | .block b _ => if b.remote.isNone then linesOf b.lo 64 else []
  | _ => []
/-- Whether the logs have room for a command's first writes of some lines, with those of its block, and for its events (R390). -/
def State.cmdRoom (s : State) (m : Cmd) (lines : List Addr) : Bool := s.logRoom (lines ++ m.blockLines) m.spn m.keys.length
/-- The keys of the events that an operation logs as it is performed; those of a block's are logged with the block's STATUS. -/
def Cmd.ownKeys (m : Cmd) : List EventKey := if m.inner.isSome then [] else m.keys

/-! ## Transfers -/

/-- The elements of a transfer: the units of RESUME from `r` to the one before `stop` (R246, R431). -/
def CmdOp.elems (r stop : Nat) : CmdOp → List Elem
  | .cpy dst src soff doff len =>
    let e := min stop len
    if e ≤ r then [] else [⟨some (src.lo + soff + r), dst.lo + doff + r, e - r, tagEnds src dst (soff + r) (doff + r)⟩]
  | .entry src off sp len load zero back tags =>
    let n := min stop len - r
    if n = 0 then []
    else if back then [⟨some (sp + r), src.lo + off + r, n, tags && src.has (permSt ||| permStk) && (off + r) % 16 == 0⟩]
    else if zero then [⟨none, sp + r, n, false⟩]
    else if load then [⟨some (src.lo + off + r), sp + r, n, tags && src.has (permLd ||| permLdk) && (off + r) % 16 == 0⟩]
    else []
  | .gather dst src soff doff stride esz idx =>
    let n := eszBytes esz
    ((idx.take stop).drop r).map fun x =>
      ⟨some (src.lo + soff + x.2 * stride), dst.lo + doff + x.1 * n, n, tagEnds src dst (soff + x.2 * stride) (doff + x.1 * n)⟩
  | .scatter dst src soff doff stride esz idx =>
    let n := eszBytes esz
    ((idx.take stop).drop r).map fun x =>
      ⟨some (src.lo + soff + x.1 * n), dst.lo + doff + x.2 * stride, n, tagEnds src dst (soff + x.1 * n) (doff + x.2 * stride)⟩
  | _ => []
/-- Whether an operation writes through a TWIN capability. -/
def CmdOp.twin : CmdOp → Bool
  | .cpy dst _ _ _ _ => dst.has permTwin
  | .entry src _ _ _ _ _ back _ => back && src.has permTwin
  | .gather dst _ _ _ _ _ _ => dst.has permTwin
  | .scatter dst _ _ _ _ _ _ => dst.has permTwin
  | .clx dst _ _ _ _ _ _ _ => dst.has permTwin
  | .nmc t _ _ _ _ _ _ _ => t.has permTwin
  | .gatm k _ _ _ _ _ => k.has permTwin
  | .sig k _ _ _ _ => k.has permTwin
  | _ => false
/-- The lines that writes touch. -/
def writtenLines (l : List (Addr × Nat)) : List Addr := l.flatMap fun r => linesOf r.1 r.2
/-- The source of a list entry that moves no byte, whose bank sets staging touches (R106, R252). -/
def CmdOp.idleSource : CmdOp → List (Addr × Nat)
  | .entry src off _ len load zero back _ => if back || (load && !zero) then [] else [(src.lo + off, len)]
  | _ => []
/-- Touches the bank sets of some ranges. -/
def State.touchSets (s : State) (wg : Option Nat) (l : List (Addr × Nat)) : State :=
  (l.flatMap fun r => bankSetsOf r.1 r.2).foldl (fun s g => s.touchBank wg (g * gib6)) s
/-- A command that the scheduler gave for a region list: no re-execution issues it again, and the logs hold nothing of it (log entry 21). -/
def Cmd.staging (m : Cmd) : Bool := match m.op with
  | .entry _ _ _ _ _ _ _ _ => true
  | _ => false
/-- Moves units of a transfer, from its RESUME to the one before `stop`, once the undo logs have room. -/
def State.doMove (s : State) (ag : Agent) (m : Cmd) (op : CmdOp) (stop : Nat) : Option Done :=
  let els := op.elems m.resume stop
  if m.staging || s.cmdRoom m (writtenLines (elemWrites false els)) then
    let x := (s.touchSets ag.wg op.idleSource).moveElems ag op.twin els
    some { s := if m.staging then x.1.keepLogs s else x.1, lost := x.2 }
  else none
/-- R253: writes back the dirty lines of a colour in a range, and under `.inv` invalidates them. -/
def State.doWb (s : State) (colour : Nat) (k : Cap) (off len : Nat) (inv : Bool) : State :=
  let in_ (x : MscLine) : Bool := x.colour == colour && decide (0 < len) && decide (x.line < k.lo + off + len) && decide (k.lo + off < x.line + 128)
  s.writeBack in_ fun x => inv && in_ x && x.dirty.isSome

/-! ## Near-memory commands (R137, R262) -/

/-- The new value of a target word: t, then g. -/
def nmcWord (fn : NmcFn) (alpha beta t g : Word) : Word × BitVec 8 := match fn with
  | .fade => rne (((fv beta).mul (fv t)).add ((fv alpha).mul (fv g)))
  | .fadd => fadd32 t g
  | .fmulc => fmul32 alpha t
  | .iaddc => (t + alpha, 0)
  | .iadd => (t + g, 0)
  | .fill => (alpha, 0)
/-- A read of operand lines that never allocates (R466): a line held in the MSC is used there. -/
def State.peekLines (s : State) (ag : Agent) (done : Nat) (a n : Nat) : State × Bool :=
  (linesOf a n).foldl (fun x l =>
    let s1 := if x.1.msc.lines.any (fun m => m.line == l && m.colour == ag.colour) then x.1.touchMsc ag.colour .rd l else x.1
    let r := ((s1.touchBank ag.wg l).touchRow ag.colour l).readLine ag done l
    (r.1.count ag.colour 3 0 128, x.2 && r.2)) (s, true)
/-- Takes the target line of an update: its bytes stand in memory afterwards. Answers whether they are good, and whether they came
from the twin, with how the error was found. -/
def State.nmcTarget (s : State) (ag : Agent) (done line : Nat) : State × Bool × Option LineErr :=
  let plain : State × Bool × Option LineErr := let r := s.readLine ag done line; (r.1, r.2, none)
  match tget s.hbm.lost line, s.lineFault ag.colour line with
  | none, none => (s, true, none)
  | none, some mac => (match (s.mate line).filter fun m => s.sound m && !s.macFails ag.colour m with
    | some m => ((s.copyLine m line).unkey line, true, some (if mac then .mac else .ecc))
    | none => plain)
  | some _, _ => plain
/-- The words of an operand line. -/
def State.lineWords (s : State) (a : Addr) : List Word := (List.range 32).map fun j => s.rd32 (a + 4 * j)
/-- Updates a target line, the i-th of its command, with operand words that `operands` reads, none when they are lost: the state, whether
the line was left unchanged, and the flags. -/
def State.updateLine (s : State) (ag : Agent) (twin : Bool) (line i : Nat) (alpha beta : Word) (fn : NmcFn)
    (operands : State → State × Option (List Word)) : State × Bool × BitVec 8 :=
  let x := (((s.touchBank ag.wg line).touchRow ag.colour line).count ag.colour 3 0 128).nmcTarget ag i line
  let y := operands x.1
  match x.2.1, y.2 with
  | true, some g =>
    let ws := (List.range 32).map fun j => nmcWord fn alpha beta (y.1.rd32 (line + 4 * j)) (g.getD j 0)
    let bs := (ws.flatMap fun w => leBytes 4 w.1.toNat).map some
    let put (s : State) (a : Addr) : State :=
      ((((s.fillPages ag.colour (s.marked [(a, 128)])).noteWritten ag.colour a 128).writeLine ag i a true false).1.putBytes ag.colour [] a bs).clearTags
        a 128
    let s1 := put y.1 line
    let s2 := if twin then put s1 (twinOf line) else s1
    let s3 := match x.2.2 with
      | some e => (s2.lineRec ag line 0x9 e i false).count ag.colour 3 5 1
      | none => s2
    (s3.count ag.colour 3 1 128, false, orFlags (ws.map (·.2)))
  | _, _ => (y.1, true, 0)
/-- Reads the operand words of line i of a near-memory command; an operation without an operand range reads none. -/
def State.nmcOperands (s : State) (ag : Agent) (g : Cap) (soff : Nat) (fn : NmcFn) (i : Nat) : State × Option (List Word) :=
  if nmcReads fn then
    let a := g.lo + soff + 128 * i
    let y := s.peekLines ag i a 128
    (y.1, if y.2 then some (y.1.lineWords a) else none)
  else (s, some [])
/-- Updates line i of a target range. -/
def State.nmcLine (s : State) (ag : Agent) (t g : Cap) (soff doff : Nat) (alpha beta : Word) (fn : NmcFn) (i : Nat) :
    State × Bool × BitVec 8 :=
  s.updateLine ag (t.has permTwin) (t.lo + doff + 128 * i) i alpha beta fn fun s => s.nmcOperands ag g soff fn i
/-- The stacks that a target range lies on. -/
def stacksOf (a n : Nat) : List Nat := ((linesOf a n).map hbmStack).eraseDups
/-- The lines of a near-memory command's target leave the memory-side cache, written back where they are dirty, before it begins; under
TWIN those of the other copy as well (R137). -/
def State.nmcFlush (s : State) (t : Cap) (doff len : Nat) : State :=
  let a := t.lo + doff
  let in_ (b : Addr) (x : MscLine) : Bool := decide (b ≤ x.line) && decide (x.line < b + len)
  let p (x : MscLine) : Bool := in_ a x || (t.has permTwin && in_ (twinOf a) x)
  s.writeBack p p
/-- Whether a near-memory command waits for an earlier one of its core on a common stack (R137), one of a block not yet taken among
them. -/
def State.nmcHeld (s : State) (k core : Nat) (a n : Nat) : Bool :=
  s.cmds.any fun y => decide (y.1 < k) && y.2.core == core && y.2.phase != .performed && y.2.live &&
    (s.opsOf y.2).any fun o => match o.nmcRange with
     | some r => (stacksOf r.1 r.2).any fun n' => (stacksOf a n).contains n'
     | none => false
/-- Runs a near-memory update from line `r` to the one before `stop`. -/
def State.doNmc (s : State) (ag : Agent) (r stop : Nat) (t g : Cap) (soff doff len : Nat) (alpha beta : Word) (fn : NmcFn) : Done :=
  (List.range (min stop (len / 128) - r)).foldl (fun d i =>
    let x := d.s.nmcLine ag t g soff doff alpha beta fn (r + i)
    { d with s := x.1, lost := d.lost || x.2.1, fl := d.fl ||| x.2.2 }) { s := s }

/-! ## Events of the undo log (R389) -/

/-- Enters an event of a fibre that has been performed. -/
def State.logAt (s : State) (spn w : Nat) (k : EventKey) (result : List DWord) (wrote : List (Addr × Nat × DWord)) : State :=
  s.modSp spn fun p => { p with events := p.events ++
    [{ wg := w, fidx := k.fidx, regcnt := k.regcnt, ordn := k.ordn, result := result, wrote := wrote }] }
/-- What an atomic's log entry keeps of its write: words in scratchpad alone. -/
def keptWrite (a n : Nat) (x : DWord) : List (Addr × Nat × DWord) := match window a with
  | .spad _ _ => [(a, n, x)]
  | .hbm => []
  | .pool => []
  | .host => []
  | .regs _ => []
  | .acc _ => []
  | .unmapped => []

/-! ## Atomics and signals (R136, R263, R264) -/

/-- New(w, a) for N-bit values; `b` is the swap value of acas. -/
def atomN (n : Nat) (fn : AtomFn) (u : Bool) (w a b : BitVec n) : BitVec n := match fn with
  | .add => w + a
  | .min => if u then (if w.toNat ≤ a.toNat then w else a) else if w.toInt ≤ a.toInt then w else a
  | .max => if u then (if w.toNat ≤ a.toNat then a else w) else if w.toInt ≤ a.toInt then a else w
  | .and => w &&& a
  | .or => w ||| a
  | .xor => w ^^^ a
  | .xch => a
  | .cas => if w = a then b else w
/-- New at N = 64 or 32. -/
def atomNew (fn : AtomFn) (w64 u : Bool) (w a b : DWord) : DWord :=
  if w64 then atomN 64 fn u w a b else (atomN 32 fn u (w.setWidth 32) (a.setWidth 32) (b.setWidth 32)).setWidth 64
/-- An indivisible read-modify-write, after the pending writes to its word (R136): the state, the old value, and whether the line was lost. -/
def State.rmw (s : State) (ag : Agent) (twin : Bool) (a n : Nat) (f : DWord → DWord) : State × DWord × DWord × Bool :=
  let r := (s.drainAt none a n).readWord ag .at_ a n
  if r.2.2 then
    let w : DWord := BitVec.ofNat 64 r.2.1
    (r.1.writeWord ag.colour twin a (leBytes n (f w).toNat), w, f w, false)
  else (r.1, 0, 0, true)
/-- Writes the old value to the destination registers of a lane's fibre. -/
def State.gatmResult (s : State) (l : GatmLane) (w64 : Bool) (d : VDst) (x : DWord) : State := match d, tget s.fibres l.fib with
  | .v n, some f => if w64 then s.wrV64 f n.toNat x else s.wrV f n.toNat (x.setWidth 32)
  | _, _ => s
/-- The lanes of gatm in ascending position. -/
def State.doGatm (s : State) (ag : Agent) (spn w : Nat) (k : Cap) (fn : AtomFn) (w64 u : Bool) (d : VDst) :
    List GatmLane → List EventKey → Done
  | [], _ => { s := s }
  | l :: ls, ks =>
    let n := if w64 then 8 else 4
    let a := k.lo + l.off
    let r := s.rmw ag (k.has permTwin) a n fun x => atomNew fn w64 u x l.a l.b
    let s1 := r.1.gatmResult l w64 d r.2.1
    let s2 := match ks with
      | y :: _ => s1.logAt spn w y [r.2.1] (if r.2.2.2 then [] else keptWrite a n r.2.2.1)
      | [] => s1
    let x := s2.doGatm ag spn w k fn w64 u d ls (ks.drop 1)
    { x with lost := x.lost || r.2.2.2, old := if ls.isEmpty then r.2.1 else x.old,
             wrote := (if r.2.2.2 then [] else keptWrite a n r.2.2.1) ++ x.wrote }
/-- A signal write, logged for every fibre of the convoy. -/
def State.doSig (s : State) (ag : Agent) (spn w : Nat) (k : Cap) (off : Nat) (v : Word) (add : Bool) (ks : List EventKey) : Done :=
  let a := k.lo + off
  let r : State × Bool :=
    if add then let x := s.rmw ag (k.has permTwin) a 4 fun y => (y.setWidth 32 + v).setWidth 64; (x.1, x.2.2.2)
    else s.writeRange ag (k.has permTwin) a ((leBytes 4 v.toNat).map some) []
  { s := ks.foldl (fun s y => s.logAt spn w y [] []) r.1, lost := r.2 }

/-! ## Collectives (R261, R413, R432) -/

/-- The contribution of a rank. -/
def partOf (ps : List Contribution) (r : Nat) : List (Option Byte) := ((ps.find? fun p => p.rank == r).map (·.data)).getD []
/-- Word e of some bytes; none where one of them is lost. -/
def wordAt (bs : List (Option Byte)) (e : Nat) : Option Word :=
  let w := (bs.drop (4 * e)).take 4
  if w.all (·.isSome) then some (BitVec.ofNat 32 (leNat (w.filterMap id))) else none
/-- One step of a fold: r with c. -/
def clxStep (fn : ClxFn) (i32 : Bool) (r c : Word) : Word × BitVec 8 := match fn with
  | .sum => if i32 then (r + c, 0) else fadd32 r c
  | .max => if i32 then (if r.toInt < c.toInt then c else r, 0) else fminmax true r c
  | .min => if i32 then (if c.toInt < r.toInt then c else r, 0) else fminmax false r c
  | .bcast => (r, 0)
  | .allgather => (r, 0)
/-- A fold of words with its flags; none where one of them is lost. -/
def clxFold (fn : ClxFn) (i32 : Bool) : List (Option Word) → Option (Word × BitVec 8)
  | [] => some (0, 0)
  | w :: ws => ws.foldl (fun x y => match x, y with
      | some x, some y => let z := clxStep fn i32 x.1 y; some (z.1, x.2 ||| z.2)
      | _, _ => none) (w.map fun w => (w, 0))
/-- The combined bytes of C contributions of a phase, with the flags; none where a source line was lost (R436). Bytes beyond the last whole
word are free values (log entry 10). -/
def State.clxCombine (s : State) (ps : List Contribution) (c : Nat) (fn : ClxFn) (i32 : Bool) (len : Nat) : List (Option Byte) × BitVec 8 :=
  match fn with
  | .bcast => (partOf ps 0, 0)
  | .allgather => ((List.range c).flatMap fun r => partOf ps r, 0)
  | _ =>
    let ws := (List.range (len / 4)).map fun e => clxFold fn i32 ((List.range c).map fun r => wordAt (partOf ps r) e)
    (ws.flatMap (fun w => w.elim (List.replicate 4 none) fun x => (leBytes 4 x.1.toNat).map some) ++
      (List.range (len % 4)).map (fun i => some ((Config.freeWord (s.free * 4 + i)).setWidth 8)), orFlags (ws.filterMap fun w => w.map (·.2)))
/-- R413: contributions of a phase that disagree, a rank outside, or a rank twice. -/
def clxMismatch (ps : List Contribution) (c : Nat) : Bool := match ps with
  | [] => false
  | p :: _ => ps.any (fun q => q.fn != p.fn || q.i32 != p.i32 || q.data.length != p.data.length || decide (c ≤ q.rank))
      || !(ps.map (·.rank)).Nodup
/-- Which clx a command is. -/
def Cmd.clxId (m : Cmd) (rank : Nat) : ClxId where
  rank := rank
  wg := m.wg
  fidx := m.clxBy.1
  regcnt := m.regcnt
  n := m.clxBy.2.1
/-- What an earlier phase gives a command that was in it before (R432): of a fibre that no re-execution created, only phases that flipped
since it came to be. -/
def ClxSlot.pastOf (b : ClxSlot) (m : Cmd) (rank : Nat) : Option PastClx :=
  b.past.find? fun p => p.id == m.clxId rank && decide (m.clxBy.2.2 < p.at_)
/-- Whether every rank that a phase expects has contributed (R413). -/
def ClxSlot.full (b : ClxSlot) : Bool := (List.range b.c).all fun r => b.parts.any fun p => p.rank == r
/-- A contribution joins the phase, or the next one where that is full. -/
def ClxSlot.join_ (b : ClxSlot) (p : Contribution) : ClxSlot := if b.full then { b with early := b.early ++ [p] } else { b with parts := b.parts ++ [p] }
/-- Whether a contribution's command is gone without having written its destination. -/
def State.orphan (s : State) (p : Contribution) : Bool := !p.written && (match p.cmd with
  | some k => (tget s.cmds k).isNone
  | none => false)
/-- A clx begins: its contribution is read and joins the phase; a re-issue takes the place of the cancelled command in the phase, or
finds its phase over (R432). None while the phase it belongs to cannot take it. -/
def State.clxJoin (s : State) (ag : Agent) (k : Nat) (m : Cmd) (src : Cap) (soff len : Nat) (arg0 : Word) (fn : ClxFn) (i32 : Bool) :
    Option State := match s.clxSlotOf m.wg arg0 with
  | none => some s
  | some (h, b) =>
    let rank := arg0.toNat / 2 ^ 16
    let me := m.clxId rank
    if b.parts.any (fun p => p.rank == rank && s.orphan p) then
      let ps := b.parts.map fun p => if p.rank == rank && s.orphan p then { p with cmd := some k, id := some me } else p
      some { s with clxs := tput s.clxs h { b with parts := ps } }
    else if (b.pastOf m rank).isSome then some s
    else if b.full then none
    else
      let r := s.readLines ag .rd (src.lo + soff) len
      let bs := r.1.bytesAt ag r.2 (src.lo + soff) len
      let mine : Contribution := { rank := rank, fn := fn, i32 := i32, data := bs, cmd := some k, id := some me }
      let s1 := { r.1 with clxs := tput r.1.clxs h { b with parts := b.parts ++ [mine] } }
      let s2 := s1.modCmd k fun m => { m with lost := !r.2.isEmpty }
      some (if b.scope = .pod then s2.sendPod (fun q => .clx q m.colour b.join rank fn i32
        (bs.map fun x => x.getD ((Config.freeWord s.free).setWidth 8))) else s2)
/-- Marks a destination of a phase as settled; the phase flips with the last one, and what its commands receive is kept (R432). -/
def ClxSlot.settle (b : ClxSlot) (k at_ : Nat) (bytes : List (Option Byte)) (fl : BitVec 8) (bad : Bool) : ClxSlot :=
  let ps := b.parts.map fun p => if p.cmd == some k then { p with written := true } else p
  if ps.all (fun p => p.written || p.cmd.isNone) then
    { b with phase := !b.phase, parts := b.early, early := [],
             past := b.past ++ ps.filterMap fun p => p.id.map fun i => { id := i, bytes := bytes, fl := fl, bad := bad, at_ := at_ } }
  else { b with parts := ps }
/-- A clx receives its result once its phase has all its contributions: of each LEN bytes those from `r` to the one before `stop`; one
that stops earlier has not settled its destination. -/
def State.doClx (s : State) (ag : Agent) (k : Nat) (m : Cmd) (dst : Cap) (doff len : Nat) (arg0 : Word) (fn : ClxFn) (i32 : Bool)
    (r stop : Nat) : Option Done := match s.clxSlotOf m.wg arg0 with
  | none => some { s := s }
  | some (h, b) =>
    let mine := b.parts.any fun p => p.cmd == some k
    let past := b.pastOf m (arg0.toNat / 2 ^ 16)
    if mine && !b.full then none
    else if mine && clxMismatch b.parts b.c then
      some { s := { s with clxs := tput s.clxs h (b.settle k s.ids [] 0 true) }, cause := some 0x0E }
    else if !mine && past.any (·.bad) then some { s := s, cause := some 0x0E }
    else
      let x := if mine then s.clxCombine b.parts b.c fn i32 len else past.elim ([], 0) fun p => (p.bytes, p.fl)
      let a := dst.lo + doff
      let bs := (List.range x.1.length).map fun i => if r ≤ i % len ∧ i % len < stop then (x.1[i]?).join else none
      if s.cmdRoom m (linesOf a bs.length) then
        let w := s.writeRange ag (dst.has permTwin) a bs []
        some { s := if mine && decide (len ≤ stop) then { w.1 with clxs := tput w.1.clxs h (b.settle k w.1.ids x.1 x.2 false) } else w.1,
               lost := w.2 || m.lost, fl := x.2 }
      else none

/-! ## Peers (R62–R65) -/

/-- The cause by which a peer refuses the use of this step, if it does. -/
def State.peerRefusal (s : State) : Option Nat := let c := (Config.peerCause s.free).toNat; if c = 0 then none else some c
/-- Marks a package in a colour's export map (R62). -/
def State.markExport (s : State) (colour q : Nat) : State :=
  { s with worlds := tmod s.worlds colour fun w => { w with exports := q :: w.exports.filter (· != q) } }
/-- The name under which a peer knows a command: its own for one that is run for it (R64). -/
def State.whoOf (s : State) (k : Nat) : Nat := match tget s.cmds k with
  | some m => if m.peer.isSome then m.peerCmd else k
  | none => k
/-- For a peer's command, the bytes of its local end that an operation is to use are told first: they are checked there before any of them
moves (R55, R64). -/
def State.claimEnd (s : State) (m : Cmd) (op : CmdOp) : State := match m.peer with
  | none => s
  | some q => ((s.usesOf m op).filter fun u => u.k.isPeerEnd).foldl (fun s u =>
      s.send (.access q m.colour m.peerCmd u.k (.claim u.write u.perms u.ranges))) s
/-- Sends the lines of a local source that were not lost, and where tags are kept the bales among their granules (R54, R62). -/
def State.sendCopy (s : State) (ag : Agent) (k q : Nat) (dst : Cap) (doff : Nat) (a n : Nat) (keep : Bool) (lost : List Addr) : State :=
  let colour := ag.colour
  let s1 := (linesOf a n).foldl (fun s l =>
    if lost.contains l then s
    else
      let lo := max l a
      let hi := min (l + 128) (a + n)
      s.send (.access q colour (s.whoOf k) dst (.write (doff + (lo - a)) ((s.bytesAt ag [] lo (hi - lo)).map fun x => x.getD 0)))) s
  ((granules a n).filter fun g => keep && decide (a ≤ g) && decide (g + 16 ≤ a + n) && tagHome g && !lost.contains (lineOf g)).foldl (fun s g =>
    let c := s.filter (s.seenCap none g)
    if c.tag && c.bale == some q && (dst.lo + doff + (g - a)) % 16 == 0 then
      ((s.send (.bale q colour (s.whoOf k) c.bits dst (doff + (g - a)))).count colour 5 2 1).markExport c.colour.toNat q
    else s) s1
/-- A copy of n bytes with one end on a peer package. -/
def State.peerCopy (s : State) (ag : Agent) (k : Nat) (m : Cmd) (q : Nat) (dst src : Cap) (soff doff len : Nat) : Option Done :=
  match s.peerRefusal with
  | some c => some { s := s, cause := some c }
  | none =>
    if len = 0 then some { s := s }
    else if src.remote.isSome then
      let a := dst.lo + doff
      if s.cmdRoom m (linesOf a len) then
        let lost := Config.peerLost s.free
        let bs := (List.range len).map fun i => if lost then none else some (Config.peerByte s.free i)
        let w := (s.send (.access q ag.colour (s.whoOf k) src (.read soff len))).writeRange ag (dst.has permTwin) a bs []
        some { s := w.1, lost := w.2 || lost }
      else none
    else
      let r := s.readLines ag .rd (src.lo + soff) len
      some { s := r.1.sendCopy ag k q dst doff (src.lo + soff) len (tagEnds src dst soff doff && (src.lo + soff) % 16 == 0) r.2, lost := !r.2.isEmpty || Config.peerLost s.free }
/-- Lanes of gatm, or a signal, on a peer package. -/
def State.peerAtomic (s : State) (ag : Agent) (k spn w q : Nat) (cap : Cap) (msgs : List RemoteAcc) (lanes : List GatmLane) (w64 : Bool)
    (d : VDst) (ks : List EventKey) : Done := match s.peerRefusal with
  | some c => { s := s, cause := some c }
  | none =>
    let n := if w64 then 8 else 4
    let lost := Config.peerLost s.free
    let old (i : Nat) : DWord := if lost then 0 else BitVec.ofNat 64 (leNat ((List.range n).map fun j => Config.peerByte s.free (8 * i + j)))
    let s1 := msgs.foldl (fun s a => s.send (.access q ag.colour (s.whoOf k) cap a)) s
    let s2 := ((List.range lanes.length).zip lanes).foldl (fun s x => s.gatmResult x.2 w64 d (old x.1)) s1
    { s := ((List.range ks.length).zip ks).foldl (fun s y => s.logAt spn w y.2 [old y.1] []) s2, lost := lost, old := old (lanes.length - 1) }
/-- Elements read here for a peer whose remote command gathers or scatters into its own end (R64). -/
def State.peerElems (s : State) (ag : Agent) (k q : Nat) (dst : Cap) (els : List Elem) : Option Done := match s.peerRefusal with
  | some c => some { s := s, cause := some c }
  | none =>
    let r := els.foldl (fun (x : State × Bool) e => match e.a with
      | none => x
      | some a =>
        let y := x.1.readLines ag .rd a e.n
        (y.1.sendCopy ag k q dst (e.b - dst.lo) a e.n (e.keep && a % 16 == 0) y.2, x.2 || !y.2.isEmpty)) (s, false)
    some { s := r.1, lost := r.2 || Config.peerLost s.free }
/-- Lines of a near-memory command run for a peer whose target is that peer's own end: the operands are read here, the updates are made
there (R64, R262). -/
def State.peerUpdates (s : State) (ag : Agent) (k q : Nat) (t g : Cap) (soff doff r stop len : Nat) (alpha beta : Word) (fn : NmcFn) :
    Done := match s.peerRefusal with
  | some c => { s := s, cause := some c }
  | none =>
    let x := (List.range (min stop (len / 128) - r)).foldl (fun (x : State × Bool) i =>
      let y := x.1.nmcOperands ag g soff fn (r + i)
      match y.2 with
      | some ws => (y.1.send (.access q ag.colour (y.1.whoOf k) t (.update (doff + 128 * (r + i)) fn alpha beta ws)), x.2)
      | none => (y.1, true)) (s, false)
    { s := x.1, lost := x.2 || Config.peerLost s.free }
/-- What a peer's STATUS says of a remote command (R64, R426). -/
def State.answered (s : State) (st : Nat) : Done :=
  { s := s, lost := st == 3, cause := if 0x8000 ≤ st then some (st - 0x8000) else none }
/-- The part of a copy from its RESUME to the byte before `stop`, of the bytes its source held when it began (R251, R369). -/
def State.doSnap (s : State) (ag : Agent) (m : Cmd) (dst : Cap) (doff stop : Nat) (bs : List (Option Byte)) (tags : List Nat) : Option Done :=
  let n := min stop bs.length - m.resume
  let a := dst.lo + doff + m.resume
  if s.cmdRoom m (linesOf a n) then
    let part := (bs.drop m.resume).take n
    let kept := if m.resume % 16 = 0 then (tags.filter fun g => decide (m.resume / 16 ≤ g)).map (· - m.resume / 16) else []
    let w := s.writeRange ag (dst.has permTwin) a part kept
    some { s := w.1, lost := w.2 || part.any (·.isNone) }
  else none
/-- A copy between ends of this package, from its RESUME to the byte before `stop`. -/
def State.doCopy (s : State) (ag : Agent) (m : Cmd) (op : CmdOp) (stop : Nat) : Option Done := match op, m.snap with
  | .cpy dst _ _ doff _, some (bs, tags) => s.doSnap ag m dst doff stop bs tags
  | _, _ => s.doMove ag m op stop

/-! ## One operation -/

/-- Units of RESUME that stand for `the whole operation`: more than any LENGTH. -/
def allUnits : Nat := 2 ^ 64
/-- Carries out the operation of a running command; none while it cannot yet be done. An atomic or a signal is one unit (R246); one that its
block says is done already has no old value, and what granule 3 then receives is free (log entry 86). -/
def State.perform (s0 : State) (k : Nat) (m : Cmd) (op : CmdOp) : Option Done :=
  let ag := s0.cmdAgent m
  if (op.peer.any fun q => s0.stalled m.colour q) || !s0.cmdRoom m [] then none
  else
  let s := s0.claimEnd m op
  match op, op.peer with
  | .cpy dst src soff doff len, some q => s.peerCopy ag k m q dst src (soff + m.resume) (doff + m.resume) (len - m.resume)
  | .gatm c fn w64 u d lanes, some q =>
    if 1 ≤ m.resume then some { s := s, old := Config.freeWord s.free }
    else some (s.peerAtomic ag k m.spn m.wg q c (lanes.map fun l => .atomic l.off fn w64 u l.a l.b) lanes w64 d m.ownKeys)
  | .sig c off v add _, some q =>
    if 1 ≤ m.resume then some { s := s }
    else some (s.peerAtomic ag k m.spn m.wg q c
      [if add then .atomic off .add false false (v.setWidth 64) 0 else .write off (leBytes 4 v.toNat)] [] false (.b 0) m.ownKeys)
  | .block _ _, some _ => m.answer.map s.answered
  | .block _ _, none => some { s := s }
  | .stage _ _ _, _ => some { s := s }
  | .cpy _ _ _ _ _, none => s.doCopy ag m op allUnits
  | .entry _ _ _ _ _ _ _ _, _ => s.doMove ag m op allUnits
  | .gather dst _ _ _ _ _ _, some q => s.peerElems ag k q dst (op.elems m.resume allUnits)
  | .scatter dst _ _ _ _ _ _, some q => s.peerElems ag k q dst (op.elems m.resume allUnits)
  | .gather _ _ _ _ _ _ _, none => s.doMove ag m op allUnits
  | .scatter _ _ _ _ _ _ _, none => s.doMove ag m op allUnits
  | .wb c off len inv, _ => some { s := s.doWb m.colour c off len inv }
  | .nmc t g soff doff len alpha beta fn, some q => some (s.peerUpdates ag k q t g soff doff m.resume allUnits len alpha beta fn)
  | .nmc t g soff doff len alpha beta fn, none =>
    if s.nmcHeld k m.core (t.lo + doff) len || !s.cmdRoom m [] then none
    else
      let d := s.doNmc ag m.resume allUnits t g soff doff len alpha beta fn
      some { d with s := m.ownKeys.foldl (fun s y => s.logAt m.spn m.wg y [] []) d.s }
  | .gatm c fn w64 u d lanes, none =>
    if 1 ≤ m.resume then some { s := s, old := Config.freeWord s.free }
    else if s.cmdRoom m (lanes.flatMap fun l => linesOf (c.lo + l.off) 8) then
      some (s.doGatm ag m.spn m.wg c fn w64 u d lanes m.ownKeys)
    else none
  | .sig c off v add _, none =>
    if 1 ≤ m.resume then some { s := s }
    else if s.cmdRoom m (linesOf (c.lo + off) 4) then some (s.doSig ag m.spn m.wg c off v add m.ownKeys) else none
  | .clx dst _ _ doff len arg0 fn i32, _ => s.doClx ag k m dst doff len arg0 fn i32 m.resume allUnits
  | .ast d t p fmt, _ =>
    if s.cmdRoom m ((rowRanges (par p 0) (par p 2) (rowBytes (astQuarters fmt) 128)).flatMap fun r => linesOf (d.lo + r.1) r.2) then
      let x := s.doMatrix m.spn (s.ownOf m.wg m.spn) m.regcnt m.seq (.ast d t p fmt) k m.fibres none
      some { s := x.1, fl := x.2 }
    else none
  | _, _ =>
    let x := s.doMatrix m.spn (s.ownOf m.wg m.spn) m.regcnt m.seq op k m.fibres none
    some { s := x.1, fl := x.2 }

/-! ## Stopping part way (R37, R369, R431) -/

/-- The boundaries at which a command can stop: bytes of a copy, elements, bytes of LEN of a collective, lines of an update. -/
structure Grain where
  bytes : Nat
  elems : Nat
  coll : Nat
  lines : Nat
  deriving DecidableEq, Repr
/-- The cancellation boundaries (R431). -/
def cancelGrain : Grain := ⟨128, 1, 128, 1⟩
/-- The chunks (R369). -/
def chunkGrain : Grain := ⟨65536, 512, 16384, 64⟩
/-- What part of a command leaves: the state, the units done in all, and whether a line was lost. -/
structure Partway where
  s : State
  units : Nat
  lost : Bool := false
  deriving DecidableEq, Repr
/-- The unit at which a command stops, of `n` units from `r` on, after as many grains as `pick` takes of those left. -/
def stopUnit (pick : Nat → Nat) (r n grain : Nat) : Nat := min n (r + grain * pick (ceilDiv (n - r) grain))
/-- A running command performs some of the grains it has left and stops there: the units begun are finished. -/
def State.partway (s : State) (k : Nat) (m : Cmd) (op : CmdOp) (g : Grain) (pick : Nat → Nat) : Partway :=
  let ag := s.cmdAgent m
  let stay : Partway := { s := s, units := m.resume }
  let took (stop : Nat) (d : Option Done) : Partway := match d with
    | some d => (match d.cause with
      | none => { s := d.s, units := stop, lost := d.lost }
      | some _ => stay)
    | none => stay
  let move (stop : Nat) : Partway := took stop (match op, op.peer with
    | .cpy dst src soff doff _, some q =>
      (s.claimEnd m op).peerCopy ag k m q dst src (soff + m.resume) (doff + m.resume) (stop - m.resume)
    | .gather dst _ _ _ _ _ _, some q => (s.claimEnd m op).peerElems ag k q dst (op.elems m.resume stop)
    | .scatter dst _ _ _ _ _ _, some q => (s.claimEnd m op).peerElems ag k q dst (op.elems m.resume stop)
    | _, _ => s.doCopy ag m op stop)
  if op.peer.any fun q => s.stalled m.colour q then stay
  else match op with
  | .cpy _ _ _ _ len => move (stopUnit pick m.resume len g.bytes)
  | .entry _ _ _ len _ _ _ _ => move (stopUnit pick m.resume len g.bytes)
  | .gather _ _ _ _ _ _ l => move (stopUnit pick m.resume l.length g.elems)
  | .scatter _ _ _ _ _ _ l => move (stopUnit pick m.resume l.length g.elems)
  | .wb c off len inv => let n := stopUnit pick m.resume len g.bytes; { s := s.doWb m.colour c off n inv, units := n }
  | .clx dst _ _ doff len arg0 fn i32 =>
    let n := min (stopUnit pick m.resume len g.coll) ((len - 1) / g.coll * g.coll)
    (match s.doClx ag k m dst doff len arg0 fn i32 m.resume n with
      | some d => (match d.cause with
        | none => { s := if d.fl = 0 then d.s else d.s.engineFlags m.fibres d.fl, units := n, lost := d.lost }
        | some _ => stay)
      | none => stay)
  | .nmc t c soff doff len alpha beta fn =>
    let n := stopUnit pick m.resume (len / 128) g.lines
    (match t.remote with
      | some q => took n (some ((s.claimEnd m op).peerUpdates ag k q t c soff doff m.resume n len alpha beta fn))
      | none =>
        if s.nmcHeld k m.core (t.lo + doff) len then stay
        else
          let d := s.doNmc ag m.resume n t c soff doff len alpha beta fn
          { s := if d.fl = 0 then d.s else d.s.engineFlags m.fibres d.fl, units := n, lost := d.lost })
  | .block _ _ => stay
  | .stage _ _ _ => stay
  | .gatm _ _ _ _ _ _ => stay
  | .sig _ _ _ _ _ => stay
  | op =>
    let room : Bool := match op with
      | .ast d _ p fmt => s.cmdRoom m ((rowRanges (par p 0) (par p 2) (rowBytes (astQuarters fmt) 128)).flatMap fun r => linesOf (d.lo + r.1) r.2)
      | _ => true
    if room then
      let x := s.doMatrix m.spn (s.ownOf m.wg m.spn) m.regcnt m.seq op k m.fibres (some pick)
      let y := if x.2 = 0 then x.1 else x.1.engineFlags m.fibres x.2
      { s := y, units := (op.progTile.map fun t => acStep (y.acprog m.spn t)).getD 0 }
    else stay
/-- The steps that a matrix command has left (R258). -/
def State.stepsLeft (s : State) (m : Cmd) (op : CmdOp) : Nat := match op.progTile with
  | none => 0
  | some t => match s.progressOf m.spn t (s.ownOf m.wg m.spn) m.regcnt m.seq with
    | .skip => 0
    | .from_ n => op.steps - n
    | .fresh => op.steps
/-- Whether the ends of a copy overlap on this package. -/
def CmdOp.overlaps : CmdOp → Bool
  | .cpy dst src soff doff len => dst.remote.isNone && src.remote.isNone &&
      decide (src.lo + soff < dst.lo + doff + len) && decide (dst.lo + doff < src.lo + soff + len)
  | _ => false
/-- The bytes and tags that a copy's source holds as it begins (R251). -/
def State.snapshot (s : State) (m : Cmd) (op : CmdOp) : State × List (Option Byte) × List Nat :=
  match op.elems 0 allUnits with
  | e :: _ => s.readElem (s.cmdAgent m) e
  | [] => (s, [], [])
/-- The chunks that a command has left (R369). -/
def State.chunksLeft (s : State) (m : Cmd) (op : CmdOp) : Nat :=
  match op with
  | .cpy _ _ _ _ len => ceilDiv (len - m.resume) chunkGrain.bytes
  | .entry _ _ _ len _ _ _ _ => ceilDiv (len - m.resume) chunkGrain.bytes
  | .wb _ _ len _ => ceilDiv (len - m.resume) chunkGrain.bytes
  | .gather _ _ _ _ _ _ l => ceilDiv (l.length - m.resume) chunkGrain.elems
  | .scatter _ _ _ _ _ _ l => ceilDiv (l.length - m.resume) chunkGrain.elems
  | .clx _ _ _ _ len _ _ _ => ceilDiv (len - m.resume) chunkGrain.coll
  | .nmc _ _ _ _ len _ _ _ => ceilDiv (len / 128 - m.resume) chunkGrain.lines
  | .block _ _ => 1
  | .stage _ _ _ => 1
  | .gatm _ _ _ _ _ _ => 1
  | .sig _ _ _ _ _ => 1
  | op => s.stepsLeft m op

end Sys2Proof.Machine
end

