-- ==== Sys2Proof/Machine/Rows.lean ====
section
/-! DEFINITION. Register rows of lane columns: the windows that fibres hold, those that removed or moving workgroups claim, and the
rows that are free (R73, R75, R101, R299, R306, R312). -/

namespace Sys2Proof.Machine

/-- Bits of a granule. -/
def gbits (g : List Cap) (n lo len : Nat) : Nat := (g.getD n nullCap).bits.toNat / 2 ^ lo % 2 ^ len
def Launch.cor (l : Launch) : Bool := gbits l.g 0 16 1 == 1
/-- An SP of an image, as it stands on others. -/
def relocSp (old new : List Nat) (p : Nat) : Nat := match (old.zip new).find? fun x => x.1 == p with
  | some (_, q) => q
  | none => p
/-- Fibres of a workgroup. -/
def State.fibresOf (s : State) (w : Nat) : Tbl Fibre := s.fibres.filter fun x => x.2.wg == w
/-- Whether a launch is one whose removed workgroups keep their claims (R299). -/
def State.corOf (s : State) (g : Wg) : Bool := match tget s.launches g.launch with
  | some l => l.cor
  | none => false
/-- A saved workgroup keeps its place. -/
def State.keeps (s : State) (g : Wg) : Bool := g.phase == .saved && s.corOf g
/-- Whether a rollback of an SP takes a workgroup back: it is resident there, and has issued (R97). -/
def State.rollsBack (s : State) (w p : Nat) : Bool := match tget s.wgs w with
  | some g => g.resident && g.sps.contains p && g.seen.contains p
  | none => false
/-- A window of a temper image with all the rows that a rollback may give it: those it had, and those of its region entry (R308, R393). -/
def Fibre.widest (f : Fibre) : Fibre := { f with wsize := max f.wsize f.rwsize }
/-- The windows to which a rollback of an SP returns the fibres that stood there at its temper point. -/
def State.returned (s : State) (p : Nat) : List Fibre := match (s.sp p).image with
  | some im => ((im.fibres.map (·.2)).filter fun f => s.rollsBack f.wg p).map Fibre.widest
  | none => []
/-- The windows of a workgroup's fibres after a rollback of its SPs. -/
def State.rewound (s : State) (w : Nat) (g : Wg) : List Fibre :=
  g.sps.flatMap fun p =>
    if s.rollsBack w p && (s.sp p).image.isSome then (s.returned p).filter fun f => f.wg == w
    else ((s.fibresOf w).map (·.2)).filter fun f => f.spn == p
/-- Windows that are claimed but hold no fibre now: of saved workgroups of co-resident launches, those a workgroup moves to, and those
that a moved workgroup of a co-resident launch has left (R299, log entry 79). -/
def State.claims (s : State) (but : Option Nat) : List Fibre :=
  s.wgs.flatMap fun g =>
    if some g.1 == but then []
    else g.2.left ++ (if s.keeps g.2 then g.2.image.fibres.map (·.2)
      else match g.2.phase with
        | .moving t => (s.rewound g.1 g.2).map fun f => { f with spn := relocSp g.2.sps t f.spn }
        | _ => [])
/-- Every window in use or claimed. -/
def State.windows (s : State) (but : Option Nat) : List Fibre := s.fibres.map (·.2) ++ s.claims but
/-- Every window as a rollback of every SP would leave it: a new workgroup keeps clear of these too, for two windows of a column never
overlap (R73, R393, log entry 92). -/
def State.rolledWindows (s : State) (but : Option Nat) : List Fibre :=
  s.sps.flatMap (fun p => s.returned p.1) ++ ((s.fibres.map (·.2)).filter fun f => !s.rollsBack f.wg f.spn) ++ s.claims but
/-- The windows of which a new one keeps clear: those that stand, and those that a rollback would leave. -/
def State.places (s : State) (but : Option Nat) : List (List Fibre) := [s.windows but, s.rolledWindows but]
/-- Most windows of a lane column (R73). -/
def columnWindows : Nat := 32
/-- Whether some rows of a lane column are free of some windows, with room for more windows. -/
def roomIn (held : List Fibre) (spn lane lo n wins : Nat) : Bool :=
  let col := held.filter fun f => f.spn == spn && f.lane == lane
  decide (lo + n ≤ 256) && decide (col.length + wins ≤ columnWindows)
    && col.all fun f => decide (lo + n ≤ f.wbase) || decide (f.wbase + f.wsize ≤ lo)
/-- Whether n rows of a lane column from row lo are free, of fibres and of claims. -/
def State.rowsFree (s : State) (spn lane lo n : Nat) : Bool :=
  decide (lo + n ≤ 256) && (s.windows none).all fun x =>
    x.spn != spn || x.lane != lane || decide (lo + n ≤ x.wbase) || decide (x.wbase + x.wsize ≤ lo)
/-- The lowest free run of rows for a new window, in a column that holds fewer than 32 windows (R73). -/
def State.freeRun (s : State) (spn lane n : Nat) : Option Nat :=
  if columnWindows ≤ ((s.windows none).filter fun x => x.spn == spn && x.lane == lane).length then none
  else ((List.range 32).map fun b => 8 * b).find? fun b => s.rowsFree spn lane b n
/-- Bytes of a range read 0 and its tags are clear. -/
def State.zeroRange (s : State) (a n : Nat) : State :=
  { s with mem := s.mem.filter fun x => !inRanges [(a, n)] x.1, tags := s.tags.filter fun x => !inRanges [(a, n)] x.1 }
/-- Zeroes rows of a lane column. -/
def State.zeroRows (s : State) (spn lane row n : Nat) : State := s.zeroRange (regAddr spn lane row) (4 * n)
/-- The rows by which a cut-back lengthens a window that a `shrink` of the same region shortened: those that no other window has taken
since, up to the size at the region entry (R73, R306, R308, log entry 69). -/
def State.regained (s : State) (f : Fibre) : Nat :=
  (((List.range 32).map fun b => 8 * b).filter fun n =>
    decide (f.wsize + n ≤ f.rwsize) && s.rowsFree f.spn f.lane (f.wbase + f.wsize) n).foldl max 0
/-- WSIZE at a cut-back (R308): the rows above the size at the region entry are free, and rows given up in the region come back, reading 0 (R101). -/
def State.rewindow (s : State) (i : Nat) : State := match tget s.fibres i with
  | none => s
  | some f =>
    if f.rwsize ≤ f.wsize then s.modFibre i fun f => { f with wsize := f.rwsize }
    else
      let n := s.regained f
      (s.zeroRows f.spn f.lane (f.wbase + f.wsize) n).modFibre i fun f => { f with wsize := f.wsize + n }

end Sys2Proof.Machine
end

