-- ==== Sys2Proof/Machine/Ops.lean ====
section
/-! DEFINITION. The operations shared by the meanings: translation of pool and host addresses, queues, error records, serais, regions,
cut-back, the ending of fibres and launches, TAKING A TRAP (R381–R388), advancing past a word, and issuing one. -/

namespace Sys2Proof.Machine

/-! ## Serais (R82–R85) -/

/-- The hints of an entry clause: S, where there is one, and T (R83). -/
def State.hint (s : State) (w : Nat) (entry : Addr) : Option Nat × Nat :=
  match (tget s.wgs w).bind fun v => tget s.launches v.launch with
  | some l => match l.hints.find? (fun h => h.1 == entry) with
    | some (_, sz, t) => (some sz, t)
    | none => (none, 256)
  | none => (none, 256)
/-- S of a serai now: its hint, else the slices in which its workgroup has live fibres on its SP (R83). -/
def State.seraiSize (s : State) (x : Serai) : Nat :=
  x.size.getD (((s.fibresOf x.wg).filter (fun f => f.2.spn == x.spn)).map (fun f => f.2.lane / 4)).eraseDups.length
/-- A fibre arrives at the serai of its PC, or waits outside when 64 are open (R83). -/
def State.arrive (s : State) (i : Nat) (arrived : Int) : State := match tget s.fibres i with
  | none => s
  | some f =>
    let isKey (x : Serai) : Bool := x.spn == f.spn && x.wg == f.wg && x.entry == f.pc
    if s.serais.any isKey then
      { s with serais := s.serais.map fun x => if isKey x then { x with fibres := x.fibres ++ [(i, arrived)] } else x }
    else if (s.serais.filter (fun x => x.spn == f.spn)).length ≥ 64 then
      { s with outside := s.outside ++ [⟨i, f.pc, arrived⟩] }
    else
      let h := s.hint f.wg f.pc
      { s with serais := s.serais ++
          [{ spn := f.spn, wg := f.wg, entry := f.pc, size := h.1, timer := h.2, opened := s.ids, fibres := [(i, arrived)] }]
               ids := s.ids + 1 }
/-- A fibre leaves its convoy for the serai at `pc` with the convoy's uniform snapshot and FPSTAT (R82). -/
def State.spill (s : State) (v : Convoy) (i : Nat) (pc : Addr) : State :=
  (s.modFibre i fun f => { f with pc := pc, unif := v.u, fpstat := v.fpstat, iters := v.iters }).arrive i (s.now (dieOf v.spn))

/-! ## Regions (R92, R244, R259) -/

/-- R259: progress words of an earlier passage of this workgroup with the same REGCNT become STALE. -/
def State.staleTiles (s : State) (spn w : Nat) (r : BitVec 16) : State :=
  match (tget s.wgs w).bind fun v => tget v.own spn with
  | none => s
  | some own => (List.range 16).foldl (fun s t =>
      let a := s.acprog spn t
      if acOwn a == own && acRegcnt a == r && !acStale a then s.setAcprog spn t (a ||| 0x4000000#64) else s) s
/-- A fibre enters a region at a clause: REGPC, REGCNT and what is counted from there. -/
def State.enterRegion (s : State) (i : Nat) (hdr : Addr) : State := match tget s.fibres i with
  | none => s
  | some f =>
    let upd (f : Fibre) : Fibre :=
      { f with regpc := hdr, regcnt := f.regcnt + 1, rwsize := f.wsize, replay := 0, ordn := 0, clxs := 0, pops := 0, popped := [], began := true, entered := true }
    ((s.modFibre i upd).modWg f.wg fun g => { g with evicted := g.evicted.map fun _ => true }).staleTiles f.spn f.wg (f.regcnt + 1)
/-- A convoy enters a region: every fibre that has not entered it, and MXSEQ is 0 (R245). -/
def State.convoyRegion (s : State) (c : Nat) (hdr : Addr) : State := match tget s.convoys c with
  | none => s
  | some v => (((s.lanes v).filter fun l => !l.f.entered).foldl (fun s l =>
      (s.enterRegion l.id hdr).modFibre l.id fun f => { f with riters := v.iters }) s).modConvoy c fun v =>
      { v with u := { v.u with mxseq := 0 } }

/-! ## Cancellation (R95, R431) -/

/-- The fibres of an image lose the increment of a command. -/
def Image.dec (im : Image) (fs : List Nat) (x : Cls) : Image :=
  let one (f : Nat × Fibre) : Nat × Fibre :=
    if fs.contains f.1 then (f.1, { f.2 with cnt := f.2.cnt.set (f.2.cnt.get x - 1) x }) else f
  { im with fibres := im.fibres.map one }
/-- The fibres of removed workgroups lose it too. -/
def State.imagesDec (s : State) (fs : List Nat) (x : Cls) : State :=
  { s with wgs := s.wgs.map fun g => (g.1, { g.2 with image := g.2.image.dec fs x }) }
/-- A cancelled command is gone: its entries and slot are free, and its increment is removed from every fibre that has it (R431). -/
def State.dropCmd (s : State) (k : Nat) (m : Cmd) : State :=
  let t := m.fibres.foldl (fun s i => s.modFibre i fun f => { f with mx := f.mx.filter (· != k) }) { s with cmds := tdel s.cmds k }
  (((t.countDec m.owed m.cls).imagesDec m.owed m.cls).count m.colour 1 7 1).settleCmds
/-- A command that has done some units goes no further: STATUS 0x0004 and RESUME stand in its block, or its slot without the cursor. -/
def State.stopCmd (s : State) (k : Nat) (m : Cmd) (units : Nat) : State :=
  let s1 := s.dropCmd k m
  match m.op with
  | .block b _ => if m.phase == .running || m.inner.isSome then s1.blockStatus m.colour b.lo 4 (some units) else s1
  | _ => s1.writeSlot m { m with status := 4, resume := 0 }
/-- A command's cancellation (R431): it stops at a boundary, where its units begun are finished; STATUS 0x0004 and RESUME stand in its
block, or its slot without the cursor. That of a running remote command waits for its package's acknowledgement. -/
def State.cancel (s : State) (k : Nat) : State := match tget s.cmds k with
  | none => s
  | some m =>
    match m.remote, m.phase with
    | some q, .running =>
      { s with cmds := tput s.cmds k { m with phase := .cancelling } }.send (.cancel q m.colour k)
    | _, _ =>
      let pick (left : Nat) : Nat := Config.cancelAt (s.free * 2 ^ 52 + k) left % (left + 1)
      let x : Partway := if m.phase == .running then s.partway k m (m.inner.getD m.op) cancelGrain pick else { s := s, units := m.resume }
      x.s.stopCmd k m x.units
/-- The classes of engine whose operations a cut-back cancels (R95). -/
def cutClass (x : Cls) : Bool := x == .ecp || x == .egs || x == .ecl || x == .emx
/-- Whether a cancellation reaches a command: near-memory updates, atomics and signals, those of a block among them, are drained
(R95, R431, R433). -/
def State.cancellable (s : State) (m : Cmd) : Bool := (s.opsOf m).all fun o => cutClass o.engine
/-- Whether a command was issued in the current region of one of some lanes that it acts for (R95). -/
def Cmd.inRegion (m : Cmd) (ls : List Ln) : Bool := ls.any fun l => m.fibres.contains l.id && (tget m.regs l.id).getD m.regcnt == l.f.regcnt

/-! ## Cut-back (R95, R308) -/

/-- A convoy's commands of its region are cancelled, and its fibres stand at the region's start: the convoy at the REGPC of the lowest, where
those of another have still to leave it. -/
def State.cutRegion (s : State) (c : Nat) : State := match tget s.convoys c with
  | none => s
  | some v0 =>
    let ls := s.lanes v0
    let cmds := s.cmds.filter fun x => x.2.live && x.2.phase != .performed && x.2.phase != .cancelling && s.cancellable x.2 && x.2.inRegion ls
    let s1 := cmds.foldl (fun s x => s.cancel x.1) s
    let v := (tget s1.convoys c).getD v0
    let s2 := ls.foldl (fun s l => (s.rewindow l.id).modFibre l.id fun f => { f with ordn := 0, clxs := 0, pops := 0, lookup := true, entered := f.began }) s1
    s2.putConvoy c { v with
      hdr := (ls.head?.map fun l => l.f.regpc).getD v.hdr, wi := 0, words := 0, inCl := false, latch := [], latw := 0, rep := none, repcnt := 0,
      lncur := 0, wait := .clause, iters := (ls.head?.map fun l => l.f.riters).getD [], u := { v.u with mxseq := 0 },
      logAt := none, waitPos := 0, report := none }
/-- The fibres of a convoy whose region starts elsewhere leave it for the serais of their REGPC. -/
def State.disperse (s : State) (c : Nat) : State := match tget s.convoys c with
  | none => s
  | some v =>
    let away := (s.lanes v).filter fun l => l.f.regpc != v.hdr
    let s1 := away.foldl (fun s l => s.spill { v with iters := l.f.riters } l.id l.f.regpc) s
    s1.modConvoy c fun v => { v with fib := v.fib.map fun p => match p with
        | some i => if away.any (fun l => l.id == i) then none else some i
        | none => none }
/-- A cut-back (R95). -/
def State.cutBack (s : State) (c : Nat) : State := (s.cutRegion c).disperse c

/-! ## Ending fibres, convoys and launches (R76, R387) -/

/-- The completion word of a launch (R303, R387), when it asks for one and CDONE still passes R55, and once it is written the vector of
its binding (R349). -/
def State.completion (s : State) (l : Launch) (base : Word) : State :=
  if (l.g.getD 0 nullCap).bits.getLsbD 18 then
    let k := l.g.getD 4 nullCap
    let off := ((l.g.getD 5 nullCap).bits.extractLsb' 0 32).toNat
    let v : Word := if l.late then base ||| 0x80000000 else base
    if (s.capCause l.colour k { kinds := [kindData], perms := permSt } off 4).isSome || (s.mapCause k (k.lo + off) 4).isSome then s
    else
      let t := s.post32 l.colour (k.lo + off) v (some (1 + l.binding))
      if k.has permTwin && decide (k.lo + off < 0x40_0000_0000) then t.post32 l.colour (twinOf (k.lo + off)) v none else t
  else s
/-- A workgroup has a live command. -/
def State.busyWg (s : State) (w : Nat) : Bool := s.cmds.any fun x => x.2.wg == w && x.2.live
def State.wgsOf (s : State) (l : Nat) : Tbl Wg := s.wgs.filter fun x => x.2.launch == l
/-- Frees a launch's share of barrier and collective slots (R300, R301). -/
def State.freeSlots (s : State) (l : Nat) : State :=
  { s with
    bars := (s.bars.map fun b => (b.1, { b.2 with launches := b.2.launches.filter (· != l) })).filter fun b => !b.2.launches.isEmpty
    clxs := (s.clxs.map fun b => (b.1, { b.2 with launches := b.2.launches.filter (· != l) })).filter fun b => !b.2.launches.isEmpty }
/-- A workgroup leaves some SPs (R319). -/
def State.leaveSps (s : State) (ps : List Nat) : State :=
  ps.foldl (fun s p => s.modSp p fun q => { q with freeSince := s.now (dieOf p) }) s
/-- The writes of fibres of some SPs that live no more, local and by matrix commands, are performed (R133, R134). -/
def State.drainEnded (s : State) (ps : List Nat) : State :=
  ps.foldl (fun s p => s.modSp p fun q =>
    let ends (i : Nat) : Bool := (tget s.fibres i).isNone
    let r := q.performOf ((q.pend.map (·.fib)).filter ends)
    { r with tbuf := drainTiles (fun b => b.fibres.all ends) r.tbuf }) s
/-- Removes a workgroup that has ended, and its saved images. -/
def State.dropWg (s : State) (w : Nat) : State :=
  let ps := ((tget s.wgs w).map (·.sps)).getD []
  let t := (s.leaveSps ps).drainEnded ps
  { t with wgs := tdel t.wgs w, cmds := t.cmds.filter fun x => x.2.wg != w || x.2.live }
/-- Fibres that wait at a barrier: none for `.core`, else the hardware slot. -/
def State.fibresAt (s : State) (slot : Option Nat) (w : Nat) : List Nat :=
  (s.convoys.filter fun x => x.2.wg == w && (match x.2.wait with | .bar k _ => k == slot | _ => false)).flatMap fun x =>
    x.2.fib.filterMap fun i => i
/-- Whether every live fibre of a workgroup waits at a barrier, and some does (R91). -/
def State.allAt (s : State) (slot : Option Nat) (w : Nat) : Bool :=
  let a := s.fibresAt slot w
  !a.isEmpty && (s.fibresOf w).all fun f => a.contains f.1
/-- Moves the convoys that wait at a barrier on to the clause after it. -/
def State.releaseBar (s : State) (slot : Option Nat) (w : Option Nat) : State :=
  { s with convoys := s.convoys.map fun x => match x.2.wait with
      | .bar k _ =>
        if k == slot && (match w with | some n => x.2.wg == n | none => true) then
          (x.1, { x.2 with hdr := x.2.hdr + 8 * (x.2.words + 1), wi := 0, words := 0, inCl := false, latch := [], latw := 0,
                           wait := .clause })
        else x
      | _ => x }
/-- A workgroup arrives at a wide slot, which a `.pod` slot's peers are told; the P-th arrival flips the phase and releases every convoy there (R91). -/
def State.settleSlot (s : State) (k w : Nat) : State := match tget s.bars k with
  | none => s
  | some b =>
    if b.broken || !s.allAt (some k) w || b.arrived.contains w then s
    else
      let s1 := if b.scope = .pod then s.sendPod (fun q => .barrier q b.colour b.join) else s
      if b.arrived.length + b.peers + 1 < b.p then { s1 with bars := tput s1.bars k { b with arrived := b.arrived ++ [w] } }
      else { s1 with bars := tput s1.bars k { b with arrived := [], peers := 0, phase := b.phase + 1 } }.releaseBar (some k) none
/-- Completes the barriers of a workgroup that its live fibres have all reached; each completion flips a phase. -/
def State.settleBar (s : State) (w : Nat) : State :=
  let s1 := if s.allAt none w then (s.modWg w fun g => { g with core := g.core + 1 }).releaseBar none (some w) else s
  s1.bars.foldl (fun t b => t.settleSlot b.1 w) s1
/-- Frames of the pool an ending fibre or a pop returns: 8 entries each (R86). -/
def framesOf (n : Nat) : Nat := ceilDiv n 8
/-- Return frames in an SP's pool (R86). -/
def framePool : Nat := 131072
/-- Convoys whose push can now take its return frames issue again (R414). -/
def State.wakeFrames (s : State) : State :=
  { s with convoys := s.convoys.map fun x => match x.2.wait with
      | .frame _ need => if (s.sp x.2.spn).frames + need ≤ framePool then (x.1, { x.2 with wait := .run }) else x
      | _ => x }
/-- Fibres cease to exist: their rows and frames are free. -/
def State.freeFibres (s : State) (ids : List Nat) : State :=
  (ids.foldl (fun s i => match tget s.fibres i with
    | none => s
    | some f => { s with fibres := tdel s.fibres i }.modSp f.spn fun p => { p with frames := p.frames - framesOf f.frames.length }) s).wakeFrames
/-- Ends fibres of a convoy: their places in it are empty (R76). -/
def State.endFibres (s : State) (c : Nat) (ids : List Nat) : State :=
  (s.freeFibres ids).modConvoy c fun v => { v with fib := v.fib.map fun p => match p with
    | some i => if ids.contains i then none else some i
    | none => none }
/-- A convoy that has no fibre left ceases to exist (R76). -/
def State.dropEmpty (s : State) (c : Nat) : State := match tget s.convoys c with
  | some v => if v.fib.all (·.isNone) then { s with convoys := tdel s.convoys c, cur := if s.cur = some c then none else s.cur } else s
  | none => s
/-- Ends every fibre of a convoy at once. -/
def State.endConvoy (s : State) (c : Nat) : State := match tget s.convoys c with
  | some v => (s.endFibres c ((s.lanes v).map (·.id))).dropEmpty c
  | none => s
/-- Whether a convoy of a launch that aborts stands: it has stopped, waits at a barrier, or waits for a replay at its region's clause. -/
def Convoy.rests (v : Convoy) : Bool := match v.wait with
  | .yielded => true
  | .replay _ => true
  | .bar _ _ => true
  | .aborted => true
  | _ => false
/-- Whether every convoy of a launch stands and each of its commands has completed. -/
def State.still (s : State) (l : Nat) : Bool :=
  (s.wgsOf l).all fun x => !s.busyWg x.1 && s.convoys.all fun v => v.2.wg != x.1 || v.2.rests
/-- Every fibre of some workgroups ends, with their convoys and serais. -/
def State.endAll (s : State) (ws : List Nat) : State :=
  let ids := (s.fibres.filter fun x => ws.contains x.2.wg).map (·.1)
  let s1 := s.freeFibres ids
  { s1 with
    convoys := s1.convoys.filter fun x => !ws.contains x.2.wg
    serais := s1.serais.filter fun x => !ws.contains x.wg
    outside := s1.outside.filter fun x => !ids.contains x.fib
    cores := s1.cores.map fun c => (c.1, { c.2 with grow := c.2.grow.filter fun r => !ids.contains r.2 }) }
/-- The records of replays of a launch's convoys, running or saved, that are still to be delivered. -/
def State.reportsOf (s : State) (l : Nat) : List Rec :=
  (s.wgsOf l).flatMap fun x => ((s.convoys.filter fun v => v.2.wg == x.1) ++ x.2.image.convoys).filterMap fun v => v.2.report
/-- Breaks the wide barrier slots that a launch named (R387). -/
def State.breakSlots (s : State) (l : Nat) : State :=
  { s with bars := s.bars.map fun b => if b.2.launches.contains l then (b.1, { b.2 with broken := true }) else b }
/-- Classes of R381 and R423. -/
def clsIllegal : BitVec 8 := 0x01
def clsPriv : BitVec 8 := 0x02
def clsFetch : BitVec 8 := 0x03
def clsRefused : BitVec 8 := 0x04
def clsGrowcap : BitVec 8 := 0x05
def clsStack : BitVec 8 := 0x06
def clsSwtrap : BitVec 8 := 0x07
def clsBarbrk : BitVec 8 := 0x08
def clsLogfull : BitVec 8 := 0x09
def clsHalt : BitVec 8 := 0x0A
def clsEngref : BitVec 8 := 0x20
def clsEngform : BitVec 8 := 0x21

/-- The address of the entry header of a launch's kernel. -/
def Launch.entry (l : Launch) : Addr := (l.g.getD 1 nullCap).lo
/-- R472: the record of a refused region-list entry. -/
def entryRec (g : Wg) (la : Launch) (cause : Nat) (addr : Addr) : Rec where
  source := 0x04
  cls := clsEngref
  colour := g.colour
  recov := 0x6
  spn := g.sps.headD 0
  code := BitVec.ofNat 16 cause
  pc := la.entry
  addr := addr
  wgid := g.wgid
/-- The refused region-list entries of a workgroup. -/
def State.refusedEntries (s : State) (w : Nat) : Tbl Cmd := s.cmds.filter fun m => m.2.wg == w && m.2.fibres.isEmpty && (match m.2.op with
  | .entry _ _ _ _ _ _ _ _ => m.2.refused.isSome
  | _ => false)
/-- The records of a workgroup's refused entries. -/
def State.entryRecs (s : State) (w : Nat) (g : Wg) (la : Launch) : List Rec :=
  (s.refusedEntries w).map fun m => entryRec g la (m.2.refused.getD 0) m.2.addr
/-- The records of the refused entries that the workgroups of a launch still show, one for each, whatever aborted the launch (R472). -/
def State.entryRecsOf (s : State) (l : Nat) (la : Launch) : List Rec := (s.wgsOf l).flatMap fun x => s.entryRecs x.1 x.2 la
/-- Once nothing of an aborted launch runs, its fibres end, the barrier slots it named break, its completion word is written, its
resources go, and its records are delivered (R385, R387). -/
def State.settleAbort (s : State) (l : Nat) : State := match tget s.launches l with
  | none => s
  | some la => match la.aborted with
    | none => s
    | some cls =>
      if !s.still l then s
      else
        let s0 := (s.endAll ((s.wgsOf l).map (·.1))).drainEnded ((s.wgsOf l).flatMap fun x => x.2.sps)
        let s1 := (s0.breakSlots l).completion la (0x40000000 + BitVec.ofNat 32 cls)
        let s2 := (s1.wgsOf l).foldl (fun s x => s.dropWg x.1) s1
        (s.reportsOf l ++ la.recs ++ s.entryRecsOf l la).foldl (fun s r => s.record r true) { s2.freeSlots l with launches := tdel s2.launches l }
/-- R387: a launch is aborted, with the records of what aborts it: its convoys stop at their next clause boundary (execClauseWaitMet). -/
def State.abortLaunch (s : State) (l : Nat) (cls : Nat) (recs : List Rec) : State := match tget s.launches l with
  | none => recs.foldl (fun s r => s.record r true) s
  | some la => { s with launches := tput s.launches l { la with aborted := some (la.aborted.getD cls), recs := la.recs ++ recs } }

/-! ## Releases and what is observed complete (R129–R135) -/

/-- Whether a scope is wider than `.core`. -/
def wideScope : Scope → Bool
  | .lane => false
  | .convoy => false
  | .core => false
  | .quad => true
  | .die => true
  | .pkg => true
  | .pod => true
/-- A release or fence of some fibres of an SP: their local writes are performed, and it covers the results of the matrix commands they
have observed complete. At a scope wider than `.core` what stands in the tile buffers of the core and some release has covered reaches the
tile array: the writes of a fibre with which one of these has synchronised are among them (R130, R133, R135, log entry 6). -/
def State.release (s : State) (p : Nat) (ids : List Nat) (scope : Scope) : State :=
  let done (b : TileBuf) : Bool := ids.any fun i => b.fibres.contains i && (match tget s.fibres i with
    | some f => !f.mx.contains b.cmd
    | none => true)
  let t := s.modSp p fun q => let r := q.performOf ids; { r with tbuf := r.tbuf.map fun b => { b with covered := b.covered || done b } }
  if wideScope scope then t.drainTilesOf (coreOf p) (·.covered) else t
/-- The release of every fibre of a convoy. -/
def State.releaseAll (s : State) (v : Convoy) (scope : Scope) : State := s.release v.spn ((s.lanes v).map (·.id)) scope
/-- A wait for at most n commands of a class leaves only the n latest matrix commands unobserved (R129). -/
def State.observe (s : State) (v : Convoy) (x : Cls) (n : Nat) : State :=
  if x = .emx then (s.lanes v).foldl (fun s l => s.modFibre l.id fun f => { f with mx := f.mx.take n }) s else s

/-! ## Taking a trap (R381–R388) -/

/-- What a trap reports beside the convoy's own state. -/
structure TrapInfo where
  cls : BitVec 8
  code : Nat
  pos : Nat := 0
  addr : Addr := 0
  count : Nat := 0
  source : BitVec 8 := 0x01
  pc : Option Addr := none
  wi : Option Nat := none
  replay : Bool := false
  deriving DecidableEq, Repr

/-- The word index a trap reports: that of the rep word while one repeats (R160). -/
def Convoy.word (v : Convoy) : Nat := if v.rep.isSome then v.wi - 1 else v.wi
/-- A convoy position that holds a fibre: the one given, or the lowest. -/
def Convoy.posOf (v : Convoy) (p : Nat) : Nat :=
  if ((v.fib[p]?).bind id).isSome then p else ((List.range v.fib.length).find? fun i => ((v.fib[i]?).bind id).isSome).getD p
/-- The record of a trap at convoy c (R384): a trap that no lane in particular raises stands at the lowest position, and one within an
`lnest` carries LNCUR. -/
def trapRecord (v : Convoy) (f : Option Fibre) (g : Wg) (t : TrapInfo) (recov : BitVec 4) : Rec where
  source := t.source
  cls := t.cls
  colour := g.colour
  recov := recov
  spn := v.spn
  pos := v.posOf t.pos
  regcnt := (f.map (·.regcnt)).getD 0
  code := if t.cls = clsSwtrap ∨ t.cls = clsHalt then BitVec.ofNat 16 t.code
          else BitVec.ofNat 16 ((t.wi.getD v.word) * 4096 + t.code % 4096)
  pc := t.pc.getD v.hdr
  iter := let e (n : Nat) : BitVec 16 := BitVec.ofNat 16 ((v.iters[n]?.map (·.2)).getD 0)
    e 2 ++ e 1 ++ e 0 ++ v.repcnt.setWidth 16
  addr := t.addr
  count := if t.count = 0 ∧ t.pc.isNone then v.lncur.toNat else t.count
  wgid := g.wgid
/-- The wait before the k-th replay (R386). -/
def replayWait (k : Nat) : Nat := 2 ^ (10 + 4 * k)
/-- Whether a cancelled command of a convoy's fibres has still to end. -/
def State.cancelling (s : State) (v : Convoy) : Bool :=
  s.cmds.any fun m => m.2.phase == .cancelling && (s.lanes v).any fun l => m.2.fibres.contains l.id
/-- The record of a replay is written by a release at `.pkg`, once the cut-back has had its effect (R385, R386). -/
def State.deliverReport (s : State) (c : Nat) : State := match tget s.convoys c with
  | none => s
  | some v => match v.report with
    | none => s
    | some r => if s.cancelling v then s
      else ((s.releaseAll v .pkg).modConvoy c fun v => { v with report := none }).record r true
/-- TAKES A TRAP at the current word of convoy c (R382). A trap whose disposition is REPLAY cuts the convoy back and schedules a
replay, unless a fibre has had three; every other trap of the convoy ABORTs its launch. -/
def State.trap (s : State) (c : Nat) (t : TrapInfo) : State := match tget s.convoys c with
  | none => s
  | some v0 => match tget s.wgs v0.wg with
    | none => s
    | some g =>
      let ls := s.lanes v0
      let f := (ls.find? fun l => l.pos == v0.posOf t.pos).map (·.f)
      if t.replay && ls.all (fun l => decide (l.f.replay < 3)) then
        let k := ((ls.map fun l => l.f.replay).foldl max 0) + 1
        let s1 := s.cutRegion c
        let s2 := ls.foldl (fun s l => s.modFibre l.id fun f => { f with replay := f.replay + 1 }) s1
        let s3 := s2.modConvoy c fun v => { v with wait := .replay (s.now (dieOf v.spn) + replayWait k), report := some (trapRecord v0 f g t 0x1) }
        s3.deliverReport c
      else
        ((s.abortLaunch g.launch t.cls.toNat [trapRecord v0 f g t 0x6]).endConvoy c).settleAbort g.launch
/-- An ILLEGAL trap with a sub-cause of R398. -/
def State.illegal (s : State) (c : Nat) (sub pos : Nat) : State := s.trap c { cls := clsIllegal, code := sub, pos := pos }
/-- A REFUSED trap with CODE 0x100 + cause (R421, R424). -/
def State.refusal (s : State) (c : Nat) (cause pos : Nat) (addr : Addr) (count : Nat) : State :=
  let t := match tget s.convoys c with
    | some v => s.extentRec (plainAgent (s.wgColour v.wg)) cause addr
    | none => s
  t.trap c { cls := clsRefused, code := 0x100 + cause, pos := pos, addr := addr, count := count, source := 0x02, replay := true }
/-- A REFUSED trap of R398, with ADDR 0. -/
def State.refused (s : State) (c : Nat) (sub pos : Nat) : State :=
  s.trap c { cls := clsRefused, code := sub, pos := pos, source := 0x02, replay := true }
/-- A convoy of a halted SP, but for the one that is stepped: it is held, and takes no trap (R346, R347, R388). -/
def State.frozen (s : State) (v : Convoy) : Bool := (s.sp v.spn).halted && !v.stepped
/-- A convoy that may act by itself where it waits: its SP is neither halted nor stopped for a rollback (R383, R388, R393). -/
def State.mover (s : State) (c : Nat) : Option Convoy := (tget s.convoys c).filter fun v => !s.frozen v && (s.sp v.spn).hold.isNone
/-- Since when a workgroup on some SPs stands halted, when it comes there. -/
def State.haltNow (s : State) (sps : List Nat) : Option Nat :=
  if sps.any fun p => (s.sp p).halted then some (s.now (dieOf (sps.headD 0))) else none
/-- A wait that YDEADL bounds, d core cycles later. -/
def Wait.later (d : Nat) : Wait → Wait
  | .frame since need => .frame (since + d) need
  | .log since => .log (since + d)
  | w => w
/-- The workgroups on an SP that halts: the count of halted time begins (R346). -/
def State.noteHalt (s : State) (spn : Nat) : State :=
  { s with wgs := s.wgs.map fun g =>
      if g.2.sps.contains spn && g.2.haltAt.isNone then (g.1, { g.2 with haltAt := some (s.now (dieOf spn)) }) else g }
/-- An SP goes on: the time that a workgroup stood halted counts neither against YDEADL nor against its residency (R346). -/
def State.noteRun (s : State) (spn : Nat) : State :=
  let lag (v : Convoy) : Nat := match (tget s.wgs v.wg).bind (·.haltAt) with
    | some t => s.now (dieOf spn) - t
    | none => 0
  let go (v : Convoy) : Convoy := { v with stepped := false, wait := v.wait.later (lag v), logAt := v.logAt.map (· + lag v) }
  { s with convoys := s.convoys.map fun v => if v.2.spn == spn then (v.1, go v.2) else v
           wgs := s.wgs.map fun g => match g.2.haltAt with
      | none => g
      | some t =>
        if g.2.sps.any fun p => (s.sp p).halted then g
        else
          let d := s.now (dieOf spn) - t
          (g.1, { g.2 with haltAt := none, haltedFor := g.2.haltedFor + d, phase := match g.2.phase with
            | .yielding since => .yielding (since + d)
            | x => x }) }
/-- A HALT trap (R388): the convoy keeps its trap point, without its latches (R382). Its record goes to the hypervisor only (R385). -/
def State.halt (s : State) (c code pos : Nat) : State := match tget s.convoys c with
  | none => s
  | some v => match tget s.wgs v.wg with
    | none => s
    | some g =>
      (((s.modConvoy c fun v => { v with latch := [], stepped := false }).modSp v.spn fun p =>
        { p with halted := true, stepping := false, stepOf := none }).noteHalt v.spn).record
        (trapRecord v (((s.lanes v).find? fun l => l.pos == v.posOf pos).map (·.f)) g { cls := clsHalt, code := code, pos := pos } 0x7) false

/-! ## Program order -/

/-- Falls through to the clause after the current one (R143). -/
def Convoy.nextClause (v : Convoy) : Addr := v.hdr + 8 * (v.words + 1)
/-- Goes to a clause header: the clause's latches and progress are over (R79). -/
def Convoy.goto (v : Convoy) (a : Addr) : Convoy :=
  { v with hdr := a, wi := 0, words := 0, inCl := false, latch := [], latw := 0, rep := none, repcnt := 0, wait := .clause }
/-- Records the issue for R304, counts it (R337), and takes a free value's index. -/
def State.issued (s : State) (c : Nat) : State := match tget s.convoys c with
  | none => s.bump
  | some v =>
    ((s.putConvoy c { v with last := s.now (dieOf v.spn), since := s.now (dieOf v.spn), aged := false, logAt := none,
                             stepped := v.stepped && v.lncur != 0 }).count (s.wgColour v.wg) 0 0 1).bump
/-- The count of issues of a rep word (R158). -/
def repCount (w : DWord) : Nat := (w.extractLsb' 42 6).toNat
/-- Moves past an instruction of n words: to its next issue under rep, to the next word, or at the clause's end to the next
clause. -/
def Convoy.past (v : Convoy) (n : Nat) : Convoy := match v.rep with
  | some w =>
    if v.repcnt.toNat < repCount w then { v with repcnt := v.repcnt + 1, wait := .run }
    else
      let v' := { v with rep := none, repcnt := 0, wi := v.wi + n, wait := .run }
      if v'.wi ≥ v'.words then v'.goto v'.nextClause else v'
  | none =>
    let v' := { v with wi := v.wi + n, wait := .run }
    if v'.wi ≥ v'.words then v'.goto v'.nextClause else v'
/-- The convoy's instruction of n words is done. -/
def State.advance (s : State) (c : Nat) (n : Nat) : State := (s.modConvoy c fun v => v.past n).issued c
/-- The convoy waits at its word. -/
def State.hold (s : State) (c : Nat) (w : Wait) : State := s.modConvoy c fun v => { v with wait := w }
/-- Words of an instruction with its literal. -/
def wordsOf (lit : Bool) : Nat := if lit then 2 else 1

/-! ## Issue of an instruction word (R399, R404, R405, R108) -/

/-- The first lane in which a named register lies beyond the window (R404). -/
def windowBad (act : List Ln) (regs : List RegUse) : Option Nat :=
  (act.find? fun l => regs.any fun r => decide (r.n + r.cnt > l.f.wsize)).map (·.pos)
/-- The byte ranges of the registers that active lanes name. -/
def regRanges (act : List Ln) (regs : List RegUse) : List (Addr × Addr × Bool) :=
  act.flatMap fun l => regs.map fun r => (l.f.reg r.n, l.f.reg r.n + 4 * r.cnt, r.write)
/-- Whether one of some ranges is held by an engine's access or an unfinished gatm (R21, R108, R263). -/
def State.rangesHeld (s : State) (core : Nat) (l : List (Addr × Addr × Bool)) : Bool :=
  l.any fun r => s.localHeld core r.1 r.2.1 r.2.2 || s.gatmHeld r.1 r.2.1
/-- The byte ranges of registers that an instruction may read at every position that holds a fibre (R206). -/
def State.otherRanges (s : State) (v : Convoy) (regs : List RegUse) : List (Addr × Addr × Bool) :=
  regRanges (s.lanes v) regs |>.map fun r => (r.1, r.2.1, false)
/-- The fibre at a convoy's lowest position, for which a convoy-wide instruction accesses memory. -/
def State.firstFibre (s : State) (v : Convoy) : Nat := ((s.lanes v).head?.map (·.id)).getD 0
/-- A latch source that no earlier instruction of the clause wrote (R405). -/
def latchBad (v : Convoy) (ls : List (BitVec 2)) : Bool := ls.any fun n => !v.latw.getLsbD n.toNat

/-- Issues an instruction word: the latch and window checks, the holds of R108 and R263, then its effect on the convoy chosen
to issue. -/
def issue (s : State) (c : Ctl) (regs : List RegUse) (lat : List (BitVec 2)) (k : Nat → Convoy → List Ln → State) : Result :=
  match s.cur with
  | none => .fault .noConvoy
  | some i => match tget s.convoys i with
    | none => .fault .noConvoy
    | some v =>
      let act := s.active v c.g
      if latchBad v lat then .next (s.illegal i 0x017 0)
      else match windowBad act regs with
        | some p => .next (s.illegal i 0x016 p)
        | none =>
          let core := coreOf v.spn
          if s.rangesHeld core (regRanges act regs) then .next (s.hold i (.access core (regRanges act regs)))
          else .next (k i v act)

/-- Issues a convoy-wide instruction (guard 0b0000) that names no per-lane register. -/
def issueWide (s : State) (k : Nat → Convoy → List Ln → State) : Result := issue s {} [] [] k

/-- A per-lane computation that writes one V destination: every source is read in every active lane before any is written (R4,
R178), the flags are set, and the convoy goes past the word. -/
def compute (s : State) (c : Ctl) (regs : List RegUse) (lat : List (BitVec 2)) (wd : Bool) (d : VDst) (words : Nat)
    (f : Convoy → List Ln → Ln → DWord × BitVec 8) : Result :=
  issue s c (regs ++ dregs d wd) lat fun i v act =>
    let r := act.map fun l => (l, f v act l)
    ((s.dsts i wd d (r.map fun x => (x.1, x.2.1))).setFlags i (orFlags (r.map fun x => x.2.2))).advance i words
/-- A per-lane computation that writes a predicate. -/
def computeP (s : State) (c : Ctl) (regs : List RegUse) (lat : List (BitVec 2)) (p : BitVec 3) (words : Nat)
    (f : Convoy → Ln → Bool × BitVec 8) : Result :=
  issue s c regs lat fun i v act =>
    let r := act.map fun l => (l, f v l)
    ((r.foldl (fun s x => s.wrP x.1.id p x.2.1) s).setFlags i (orFlags (r.map fun x => x.2.2))).advance i words

end Sys2Proof.Machine
end

