-- ==== Sys2Proof/Machine/Issue.lean ====
section
/-! DEFINITION. The issue stage: fetching words under the code ranges (R268), the order of ready convoys (R304), the wait conditions
of a clause (R146), the refusal trap of R425, region-ending instructions (R244, R400). -/

namespace Sys2Proof.Machine

/-! ## Fetch (R268) -/

/-- A word of code; none outside every code range of the workgroup, or where the address has no memory. A pool line is read under the
colour's key (R357). -/
def State.fetchWord (s : State) (g : Wg) (a : Addr) : Option DWord :=
  if g.ranges.any (fun r => decide (r.1 ≤ a) && decide (a + 8 ≤ r.1 + r.2)) then
    match s.phys g.colour false a with
    | .ok p => some (if a < 0x80_0000_0000 then s.rd64 p else BitVec.ofNat 64 (leNat ((List.range 8).map fun i => s.byteFor g.colour (a + i) (p + i))))
    | .error _ => none
  else none
/-- n words from an address, as far as they can be fetched. -/
def State.fetchWords (s : State) (g : Wg) (a : Addr) : Nat → List DWord
  | 0 => []
  | n + 1 => match s.fetchWord g a with
    | some w => w :: s.fetchWords g (a + 8) n
    | none => []
/-- A FETCH trap at a clause address. -/
def fetchTrap (pc : Addr) (code : Nat) : TrapInfo := { cls := clsFetch, code := code, pc := some pc, wi := some 0 }

/-- What is wrong with the fall-through clause of a region-ending instruction, which is read before the instruction issues. -/
def State.fallBad (s : State) (v : Convoy) (n : Nat) : Option TrapInfo :=
  match tget s.wgs v.wg with
  | none => none
  | some g =>
    if v.wi + n < v.words then none
    else match s.fetchWord g v.nextClause with
      | none => some (fetchTrap v.nextClause 0x211)
      | some w => if w.extractLsb' 56 8 != 0xFE || !(Header.ofWord w).re then some { cls := clsIllegal, code := 0x004 } else none
/-- The lowest sub-cause of a word that does not decode: that of its fall-through clause where it would end its region (R399, R400). -/
def State.subCause (s : State) (v : Convoy) (r : Dec Instr × Nat) (sub : Nat) : Nat :=
  if r.1.val.endsRegion then match s.fallBad v r.2 with
    | some t => if t.cls == clsIllegal then min t.code sub else sub
    | none => sub
  else sub

/-- What the issue stage finds at a convoy's current word. -/
inductive Fetched where
  | instr (i : Instr)
  | stop (t : TrapInfo)
  deriving DecidableEq, Repr

/-- The instruction at a convoy's current word: under rep, the prefixed word with its fields stepped (R159). -/
def State.fetchInstr (s : State) (v : Convoy) (g : Wg) : Fetched :=
  match s.fetchWords g (v.hdr + 8 * (1 + v.wi)) (v.words - v.wi) with
  | [] => .stop (fetchTrap v.hdr 0x211)
  | w :: ws =>
    let w' := match v.rep with
      | some r => (stepWord (decRep r).val w v.repcnt.toNat).getD w
      | none => w
    match decode w' ws with
    | .ok i _ => .instr i
    | .illegal sub => .stop { cls := clsIllegal, code := s.subCause v (decodeAll w' ws) sub }

/-! ## Refusal bits (R425) -/

/-- Whether a refused command of a class has set its bit in a fibre, whose trap is still to be taken. -/
def Cmd.refuses (m : Cmd) (x : Cls) (i : Nat) : Bool := m.cls == x && m.refused.isSome && m.fibres.contains i && !m.owed.contains i
/-- The commands a convoy's fibres issued that were refused and whose trap is still to be taken, the first issued first. -/
def State.refusedOf (s : State) (v : Convoy) (x : Cls) : List Cmd :=
  (s.cmds.map (·.2)).filter fun m => (s.lanes v).any fun l => m.refuses x l.id
/-- The trap of a class's refusals is taken: no later trap of the convoy is for them. -/
def State.takeRefusals (s : State) (v : Convoy) (x : Cls) : State :=
  let took (m : Cmd) : Cmd := { m with fibres := m.fibres.filter fun i => !((s.lanes v).any fun l => l.id == i && m.refuses x i) }
  { s with cmds := (s.cmds.map fun y => (y.1, took y.2)).filter fun y => y.2.phase != .counted || !y.2.fibres.isEmpty }
/-- Whether some fibre of a convoy holds the refusal bit of a class. -/
def State.hasRef (s : State) (v : Convoy) (x : Cls) : Bool := (s.lanes v).any fun l => l.f.ref.getLsbD x.idx
/-- The ENGREF trap for a class: it clears the bit in every fibre of the convoy; REPLAY when every command that set it was issued in the
current region, else ABORT (R423, R425), whose refusals a rollback sets again. The trap names the first of them. -/
def State.engref (s : State) (c : Nat) (v : Convoy) (x : Cls) : State :=
  let s1 := s.refusalBit ((s.lanes v).map (·.id)) x false
  match s.refusedOf v x with
  | m :: ms =>
    let same := (m :: ms).all fun m => (s.lanes v).all fun l => !m.refuses x l.id || m.inRegion [l]
    let pos := ((s.lanes v).find? fun l => m.refuses x l.id).map (·.pos)
    (if same then s1.takeRefusals v x else s1).trap c
      { cls := clsEngref, code := m.refused.getD 0, pos := pos.getD 0, addr := m.addr, source := 0x03, pc := some m.pc,
        wi := some m.wi, replay := same }
  | [] => s1.trap c { cls := clsEngref, code := 0, source := 0x03 }
/-- The classes, in the order of their numbers. -/
def allCls : List Cls := [.ecp, .egs, .emx, .ecl, .enm, .eat]
/-- The first class of a list whose refusal bit a convoy holds. -/
def State.refOf (s : State) (v : Convoy) (l : List Cls) : Option Cls := l.find? fun x => s.hasRef v x

/-! ## Region-ending instructions (R92, R244, R400) -/

/-- Whether the clause at a convoy's address has TE set. -/
def State.clauseTe (s : State) (v : Convoy) : Bool := match (tget s.wgs v.wg).bind fun g => s.fetchWord g v.hdr with
  | some w => (Header.ofWord w).te
  | none => false
/-- Whether a region entry of a convoy is still to count at the clause it stands at. -/
def State.temperOpen (s : State) (v : Convoy) : Bool := (s.lanes v).any fun l => !l.f.entered || l.f.temper
/-- Sets whether the region entry of a convoy's fibres is still to count at their clause. -/
def State.setTemper (s : State) (v : Convoy) (on : Bool) : State := (s.lanes v).foldl (fun s l => s.modFibre l.id fun f => { f with temper := on }) s
/-- Every fibre of a convoy enters the region of the clause at its address, with a temper point when one is due (R92, R97). -/
def State.regionEntry (s : State) (c : Nat) : State := match tget s.convoys c with
  | none => s
  | some v =>
    let s1 := (s.convoyRegion c v.hdr).setTemper v false
    if s.clauseTe v && s.temperOpen v then s1.temperEntry v.spn v.wg else s1
/-- After a region-ending instruction of n words: past it, and into the region of the next clause, whose temper point waits until the
clause is reached (R146, R244). -/
def State.endRegion (s : State) (c n : Nat) : State :=
  let t := s.advance c n
  match tget t.convoys c with
  | none => t
  | some v => (t.convoyRegion c v.hdr).setTemper v true
/-- Issues a region-ending instruction: its fall-through clause is checked, and a refusal bit traps here (R425, point 2). -/
def issueEnd (s : State) (c : Ctl) (regs : List RegUse) (lat : List (BitVec 2)) (n : Nat)
    (k : Nat → Convoy → List Ln → State) : Result :=
  match s.cur with
  | none => .fault .noConvoy
  | some i => match tget s.convoys i with
    | none => .fault .noConvoy
    | some v => match s.fallBad v n with
      | some t => .next (s.trap i t)
      | none => issue s c regs lat fun i v act => match s.refOf v allCls with
        | some x => s.engref i v x
        | none => k i v act

/-! ## Clause waits (R146) -/

def slotsPerClass : Nat := 64
def State.slotsHeld (s : State) (core : Nat) (x : Cls) : List Nat :=
  s.cmds.filterMap fun y => if y.2.core == core && y.2.cls == x && y.2.live then y.2.slot else none
def State.freeSlot (s : State) (core : Nat) (x : Cls) : Option Nat :=
  (List.range slotsPerClass).find? fun n => !(s.slotsHeld core x).contains n
/-- The engine block of a core can accept one command of a class. -/
def State.canAccept (s : State) (core : Nat) (x : Cls) : Bool :=
  (s.freeSlot core x).isSome && decide ((s.entriesOf core).length < scoreboardSize)
/-- The class of a wait code (R145). -/
def waitCls (n : BitVec 3) : Option Cls := match n.toNat with
  | 1 => some .ecp
  | 2 => some .egs
  | 3 => some .emx
  | 4 => some .ecl
  | 5 => some .enm
  | 6 => some .eat
  | _ => none
/-- One wait condition. -/
def State.waitHolds (s : State) (v : Convoy) (cls : BitVec 3) (thr : BitVec 6) : Bool := match waitCls cls with
  | some x => decide (s.counter v x ≤ thr.toNat)
  | none => true
/-- Both wait conditions of a header. -/
def State.waitsHold (s : State) (v : Convoy) (h : Header) : Bool := s.waitHolds v h.wacls h.wathr && s.waitHolds v h.wbcls h.wbthr
/-- Room in the engine block for every class of a header's MIX. -/
def State.mixRoom (s : State) (v : Convoy) (h : Header) : Bool :=
  allCls.all fun x => !h.mix.getLsbD x.idx || s.canAccept (coreOf v.spn) x
/-- Whether the launch of a convoy is being aborted (R387). -/
def State.aborted (s : State) (v : Convoy) : Bool :=
  match (tget s.wgs v.wg).bind fun g => tget s.launches g.launch with
  | some l => l.aborted.isSome
  | none => false
/-- The trap of a clause that cannot begin: its words cannot be fetched (R268), or break R144 to R148 (R400). A header at an address that is
no multiple of 8 has no fate in the spec; the clause runs from there (the model's choice, log entry 75). -/
def State.clauseBad (s : State) (v : Convoy) (g : Wg) : Option TrapInfo := match s.fetchWord g v.hdr with
  | none => some (fetchTrap v.hdr 0x211)
  | some w =>
    let h := Header.ofWord w
    let entry := match tget s.launches g.launch with
      | some l => !l.entered && v.hdr == (l.g.getD 1 nullCap).lo
      | none => false
    let ws := s.fetchWords g (v.hdr + 8) h.words
    if w.extractLsb' 56 8 == 0xFE && decide (ws.length < h.words) then some (fetchTrap v.hdr 0x211)
    else match sortNat (clauseViol w ws entry false) with
      | [] => none
      | n :: _ => some { cls := clsIllegal, code := n, wi := some 0 }
/-- A convoy at a clause can go on: into its trap, which comes before anything else (R399), into it, into its region, or out of a launch
that aborts. -/
def State.clauseReady (s : State) (v : Convoy) : Bool := match tget s.wgs v.wg with
  | none => true
  | some g => s.aborted v || (s.clauseBad v g).isSome || (match s.fetchWord g v.hdr with
    | none => true
    | some w =>
      let h := Header.ofWord w
      s.waitsHold v h && (s.mixRoom v h || (h.re && s.temperOpen v)))

/-! ## Issue selection (R304) -/

/-- Whether nothing holds a convoy. -/
def State.ready (s : State) (v : Convoy) : Bool :=
  (!(s.sp v.spn).halted || v.stepped || ((s.sp v.spn).stepping && (s.sp v.spn).stepOf.isNone)) && (s.sp v.spn).hold.isNone && (match v.wait with
    | .run => true
    | .clause => (s.sp v.spn).halting || s.clauseReady v
    | .bar (some k) _ => match tget s.bars k with
      | some b => b.broken
      | none => false
    | .wsig _ => s.aborted v
    | .queue q => q.start.isNone && s.aborted v
    | .grow _ _ _ => s.aborted v
    | .spawn _ _ _ _ => s.aborted v
    | _ => false)
/-- The effective priority of a convoy's workgroup. -/
def State.prioOf (s : State) (v : Convoy) : Nat := ((tget s.wgs v.wg).map (·.prio)).getD 0
/-- Whether convoy a stands before convoy b in the order of R304. -/
def State.before (s : State) (a b : Convoy) : Bool :=
  if a.aged != b.aged then a.aged
  else if s.prioOf a ≠ s.prioOf b then decide (s.prioOf b < s.prioOf a)
  else if a.last ≠ b.last then decide (a.last < b.last)
  else decide (a.slices.headD 0 < b.slices.headD 0)
/-- The first in that order of a list of ready convoys. -/
def State.firstOf (s : State) : List (Nat × Convoy) → Option (Nat × Convoy)
  | [] => none
  | x :: r => match s.firstOf r with
    | none => some x
    | some y => if s.before y.2 x.2 then some y else some x
/-- The ready convoys of an SP, or of every SP. -/
def State.readyOn (s : State) (spn : Option Nat) : List (Nat × Convoy) :=
  s.convoys.filter fun x => s.ready x.2 && (match spn with
    | some n => x.2.spn == n
    | none => true)
/-- The slices of an SP that have issued in the core cycle of now. -/
def State.walked (s : State) (spn : Nat) : List Nat := (s.sp spn).used.filter fun _ => decide ((s.sp spn).usedAt = s.now (dieOf spn))
/-- Whether a convoy shares a slice with one that has issued in this core cycle. -/
def State.shares (s : State) (v : Convoy) : Bool := v.slices.any fun x => (s.walked v.spn).contains x
/-- The next of some ready convoys of an SP in the walk of a core cycle; when each shares a slice with one that has issued, the next
cycle's first (R304). -/
def State.walk1 (s : State) (l : List (Nat × Convoy)) : Option (Nat × Convoy) := match s.firstOf (l.filter fun x => !s.shares x.2) with
  | some x => some x
  | none => s.firstOf l
/-- The convoy that issues next: on the SP whose turn it is, else on the SP of the first ready convoy. -/
def State.pick (s : State) : Option (Nat × Convoy) := match s.walk1 (s.readyOn s.turn.head?) with
  | some x => some x
  | none => match s.readyOn none with
    | [] => none
    | x :: _ => s.walk1 (s.readyOn (some x.2.spn))

/-- The convoy chosen to issue, in the next core cycle if it shares a slice with one that has issued in this; its SP wakes (R319). The package's
own units act before the next issue (R98). -/
def State.chosen (s : State) (c : Nat) (v : Convoy) : State :=
  let d := dieOf v.spn
  let now := if s.shares v then s.now d + 1 else s.now d
  let used := if s.shares v then v.slices else s.walked v.spn ++ v.slices
  let step := (s.sp v.spn).halted
  let s1 := s.modSp v.spn fun p => { p with power := .on, idleSince := now, used := used, usedAt := now, stepOf := if step then some c else none }
  { s1 with convoys := tmod s1.convoys c fun v => { v with stepped := step }
            cur := some c, clk := tput s.clk d now, own := true }
/-- Whether the instruction that a convoy was stepped for is over: it has issued whole, or the convoy waits for a replay. -/
def Convoy.stepOver (v : Convoy) : Bool := !v.stepped || (match v.wait with
  | .replay _ => true
  | _ => false)
/-- The single step of an SP is over: its convoy takes the next HALT trap (R388). An instruction that waits, or an `lnest` with elements
left, is not over. -/
def State.settleStep (s : State) (spn : Nat) : State := match (s.sp spn).stepping, (s.sp spn).stepOf with
  | true, some c => match tget s.convoys c with
    | some v => if v.stepOver then s.halt c 0 0 else s
    | none => s.modSp spn fun p => { p with stepping := false, stepOf := none }
  | _, _ => s
/-- After an issue on an SP. -/
def State.afterStep (s : State) (_c spn : Nat) : State := s.settleStep spn

/-! ## Time -/

/-- Clock domains (R11, R12): 0–3 core domains, 4–7 memory controllers, 8 the PCIe port, 9–12 CXL ports, 13–44 Route ports. -/
def domains : Nat := 45
/-- A convoy that is not ready has been ready since no earlier than now (R304). -/
def State.restamp (s : State) : State :=
  { s with convoys := s.convoys.map fun x => if s.ready x.2 then x else (x.1, { x.2 with since := s.now (dieOf x.2.spn), aged := false }) }
/-- What counts time: for each world the core cycles in which a ready convoy of it did not issue, summed over the dies (R337, group 0 n5;
log entry 13), and the correctable errors of the PCIe link. -/
def State.countTime (s : State) : State :=
  let ready (c d : Nat) : Bool := (s.readyOn none).any fun v => dieOf v.2.spn == d && s.wgColour v.2.wg == c
  let t := s.worlds.foldl (fun (t : State) w => (List.range 4).foldl (fun (t : State) d =>
    if ready w.1 d then t.count w.1 0 5 (Config.elapsed s.free d) else t) t) s
  { t with host := { t.host with errors := t.host.errors + Config.pcieErrors s.free } }
/-- Time passes, writes in store queues are performed (R125), records owed for lines are written, and what firmware owes a queue is
published. -/
def State.tick (s : State) : State :=
  let s1 := ({ s with clk := (List.range domains).map fun d => (d, s.now d + Config.elapsed s.free d), turn := s.turn.drop 1 }.countTime.restamp).drainSome.logTraffic
  let s2 := if s1.mgmt.notes.isEmpty then s1 else s1.writeNotes
  if s2.mgmt.pubs.isEmpty then s2.bump else s2.bump.qsettle

end Sys2Proof.Machine
end

