-- ==== Sys2Proof/Machine/LocalMem.lean ====
section
/-! DEFINITION. Local memory (R216–R227): the address of every lane is formed and checked before any lane acts, then the lanes act in
ascending position. -/

namespace Sys2Proof.Machine

/-! ## Addresses (R216, R218) -/

/-- Bytes of an access. -/
def szBytes : Sz → Nat
  | .b8 => 1
  | .b16 => 2
  | .b32 => 4
  | .b64 => 8
  | .b128 => 16
/-- o(l): the exact offset; `lit` is the value the offset field takes from the literal. -/
def State.offsetOf (s : State) (v : Convoy) (l : Ln) (lit : DWord) (a : AddrOp) (n : Nat) : Nat :=
  (match a.off with
   | some x => (s.src32 v l lit x).toNat
   | none => 0) + a.disp.toNat * n
/-- What R218 finds for a lane: the address, the capability used, and the code and ADDR of a refusal. -/
structure LaneAcc where
  l : Ln
  a : Addr
  k : Cap
  bad : Option (Nat × Addr)
  deriving DecidableEq, Repr
/-- R218 through a capability: R55, then the issuing core's scratchpad, then its fences. -/
def State.scratch (s : State) (core colour : Nat) (k : Cap) (o n : Nat) (perms : BitVec 16) : Option (Nat × Addr) :=
  match s.capCause colour k { kinds := [kindData], perms := perms } o n with
  | some c => some (0x100 + c, k.lo + o)
  | none => (s.spadCause core colour (k.lo + o) n).map fun c => (0x100 + c, k.lo + o)
/-- The lowest code: a misaligned address is 0x022, after the bounds of a window and a tile, before a capability's (R399, R410). -/
def misaligned (a n : Nat) (bad : Option (Nat × Addr)) : Option (Nat × Addr) :=
  if a % n = 0 then bad
  else match bad with
    | some (c, x) => if c < 0x022 then some (c, x) else some (0x022, 0)
    | none => some (0x022, 0)
/-- The access of n bytes at offset o of a lane. -/
def State.laneAcc (s : State) (v : Convoy) (colour : Nat) (sp : Space) (l : Ln) (o n : Nat) (perms : BitVec 16) : LaneAcc :=
  match sp with
  | .k i =>
    let k := s.rdK l.f i.toNat
    ⟨l, k.lo + o, k, misaligned (k.lo + o) n (s.scratch (coreOf v.spn) colour k o n perms)⟩
  | .ks i =>
    let k := v.u.rdK i.toNat
    ⟨l, k.lo + o, k, misaligned (k.lo + o) n (s.scratch (coreOf v.spn) colour k o n perms)⟩
  | .tile t =>
    let a := tileAddr l.f.spn t.toNat o
    ⟨l, a, nullCap, misaligned a n (if o + n > 0x1_0000 then some (0x021, 0) else none)⟩
  | .win =>
    let a := l.f.reg 0 + o
    ⟨l, a, nullCap, misaligned a n (if o + n > 4 * l.f.wsize then some (0x020, 0) else none)⟩
/-- A REFUSED trap with a code of R410 or 0x100 + cause. -/
def State.refuse (s : State) (c code pos : Nat) (addr : Addr) (count : Nat) : State :=
  s.trap c { cls := clsRefused, code := code, pos := pos, addr := addr, count := count, source := 0x02, replay := true }
/-- The colour of a convoy's world. -/
def State.colourOf (s : State) (v : Convoy) : Nat := ((tget s.wgs v.wg).map (·.colour)).getD 0
/-- The ranges of lane accesses. -/
def accRanges (r : List LaneAcc) (n : Nat) (w : Bool) : List (Addr × Addr × Bool) := r.map fun x => (x.a, x.a + n, w)

/-- R218: every lane's access is checked; then the holds of R108 and, for a write, of R390; then the effect. -/
def localAccess (s : State) (i : Nat) (v : Convoy) (r : List LaneAcc) (n : Nat) (w : Bool) (events : Nat) (k : State) : State :=
  match r.find? fun x => x.bad.isSome with
  | some x => s.refuse i (x.bad.getD (0, 0)).1 x.l.pos (x.bad.getD (0, 0)).2 0
  | none =>
    if s.rangesHeld (coreOf v.spn) (accRanges r n w) then s.hold i (.access (coreOf v.spn) (accRanges r n w))
    else if w && !s.logRoom (r.flatMap fun x => linesOf x.a n) v.spn events then s.holdLog i (((r.find? fun x => decide (0 < events) || (linesOf x.a n).any fun a => s.unlogged a).map (·.l.pos)).getD 0)
    else k.wakeAll (accRanges r n w)

/-! ## Loads and stores (R219, R220) -/

/-- The registers of an access of a size at a V operand. -/
def dataRegs (n : Nat) (words : Nat) (w : Bool) : List RegUse := [⟨n, words, w⟩]
def ldRegs (d : VDst) (sz : Sz) : List RegUse := match d with
  | .v n => dataRegs n.toNat (max 1 (szBytes sz / 4)) true
  | .b _ => []
def stRegs (a : VSrc) (sz : Sz) : List RegUse := match a with
  | .v n => dataRegs n.toNat (max 1 (szBytes sz / 4)) false
  | .b _ => []
  | .s _ => []
  | .lit => []
/-- The value of a load of 1, 2, 4 or 8 bytes, extended. -/
def ldValue (sz : Sz) (sx : Bool) (x : Nat) : DWord := match sz with
  | .b8 => if sx then ((BitVec.ofNat 8 x).signExtend 32).setWidth 64 else BitVec.ofNat 64 x
  | .b16 => if sx then ((BitVec.ofNat 16 x).signExtend 32).setWidth 64 else BitVec.ofNat 64 x
  | .b32 => BitVec.ofNat 64 x
  | .b64 => BitVec.ofNat 64 x
  | .b128 => BitVec.ofNat 64 x
/-- Writes what a lane loads: what its fibre sees there now (R125). -/
def State.ldInto (s : State) (c : Nat) (x : LaneAcc) (sz : Sz) (sx : Bool) (d : VDst) : State := match sz, d with
  | .b128, .v n => s.wrBytes (x.l.f.reg n.toNat) (s.seenBytes (some x.l.id) x.a 16)
  | _, _ => s.dst c x.l (decide (sz = .b64)) d (ldValue sz sx (s.seenNat (some x.l.id) x.a (szBytes sz)))
/-- R219. -/
def execLd (o : LdOp) (s : State) : Result :=
  let n := szBytes o.sz
  issue s o.c (ldRegs o.d o.sz ++ aregs o.addr) (alatches o.addr) fun i v act =>
    let r := act.map fun l => s.laneAcc v (s.colourOf v) o.addr.space l (s.offsetOf v l o.c.lit o.addr n) n permLd
    localAccess s i v r n false 0
      ((r.foldl (fun s x => s.ldInto i x o.sz o.sx o.d) (s.markLatch i o.d)).advance i (wordsOf o.lits))
/-- The bytes a lane stores. -/
def State.stBytes (s : State) (v : Convoy) (l : Ln) (lit : DWord) (sz : Sz) (a : VSrc) : List Byte := match sz, a with
  | .b128, .v n => s.rdBytes (l.f.reg n.toNat) 16
  | _, _ => leBytes (szBytes sz) (s.src v l (decide (sz = .b64)) lit a).toNat
/-- R220. -/
def execSt (o : StOp) (s : State) : Result :=
  let n := szBytes o.sz
  let ls := lits o.c.lit o.a.isLit false o.addr.isLit
  issue s o.c (stRegs o.a o.sz ++ aregs o.addr) (vlatches o.a ++ alatches o.addr) fun i v act =>
    let r := act.map fun l => s.laneAcc v (s.colourOf v) o.addr.space l (s.offsetOf v l ls.2.2 o.addr n) n permSt
    localAccess s i v r n true 0
      ((r.foldl (fun t x => t.storeBy v.spn x.l.id x.a (s.stBytes v x.l ls.1 o.sz o.a)) s).advance i (wordsOf o.lits))

/-! ## Capability loads and stores (R221, R222) -/

/-- R221: what an ldk of a fibre through capability k delivers from a granule. -/
def State.ldkCap (s : State) (who : Nat) (k : Cap) (a : Addr) : Cap :=
  let g := s.seenCap (some who) a
  s.filter { g with tag := g.tag && k.has permLdk }
/-- R222: what an stk through capability k writes. -/
def State.stkCap (s : State) (k g : Cap) : Cap := s.filter { g with tag := g.tag && k.has permStk }
/-- R221. The uniform form reads once, at the address every active lane shares. -/
def execLdk (o : LdkOp) (s : State) : Result :=
  issue s o.c ((if o.ud then [] else kRegs o.d true) ++ aregs o.addr) (alatches o.addr) fun i v act =>
    let act' := if o.ud then act.take 1 else act
    let r := act'.map fun l => s.laneAcc v (s.colourOf v) o.addr.space l (s.offsetOf v l o.c.lit o.addr 16) 16 permLd
    localAccess s i v r 16 false 0
      ((r.foldl (fun t x => if o.ud then t.wrKs i o.d.toNat (s.ldkCap x.l.id x.k x.a) else t.wrK x.l.f o.d.toNat (s.ldkCap x.l.id x.k x.a)) s).advance i
        (wordsOf o.lits))
/-- R222. -/
def execStk (o : StkOp) (s : State) : Result :=
  issue s o.c ((if o.us then [] else kRegs o.a false) ++ aregs o.addr) (alatches o.addr) fun i v act =>
    let r := act.map fun l => s.laneAcc v (s.colourOf v) o.addr.space l (s.offsetOf v l o.c.lit o.addr 16) 16 permSt
    let src (l : Ln) : Cap := if o.us then v.u.rdK o.a.toNat else s.rdK l.f o.a.toNat
    localAccess s i v r 16 true 0
      ((r.foldl (fun t x => t.storeCapBy v.spn x.l.id x.a (s.stkCap x.k (src x.l))) s).advance i (wordsOf o.lits))

/-! ## Local atomics (R223–R225) -/

/-- The operands of an atomic in a lane: operand or compare value, and swap value. -/
def State.atomArgs (s : State) (v : Convoy) (l : Ln) (lit : DWord) (fn : AtomFn) (w64 : Bool) (a : VSrc) : DWord × DWord :=
  match fn, a with
  | .cas, .v n => (s.src v l w64 lit (.v n), s.src v l w64 lit (.v (n + if w64 then 2 else 1)))
  | _, _ => (s.src v l w64 lit a, 0)
/-- The registers that hold an atomic's operand. -/
def atomRegs (fn : AtomFn) (w64 : Bool) (a : VSrc) : List RegUse := match a with
  | .v n => [⟨n.toNat, (if w64 then 2 else 1) * (if fn = .cas then 2 else 1), false⟩]
  | .b _ => []
  | .s _ => []
  | .lit => []
/-- One lane's operation: a logged result after a rollback, else an indivisible read-modify-write, logged (R224, R225, R389). It comes
after every earlier local access of its fibre, and is performed at once (R125, R136). -/
def State.atomLane (s : State) (c : Nat) (x : LaneAcc) (fn : AtomFn) (w64 u : Bool) (d : VDst) (a b : DWord) : State :=
  let n := if w64 then 8 else 4
  let s := (s.release x.l.f.spn [x.l.id] .lane).drainAt none x.a n
  match (tget s.fibres x.l.id).bind fun f => s.lookup f with
  | some e => (s.replayEvent x.l.id e).dst c x.l w64 d (e.result.headD 0)
  | none =>
    let w : DWord := BitVec.ofNat 64 (s.rdNat x.a n)
    let y := atomNew fn w64 u w a b
    (((s.store x.a (leBytes n y.toNat)).logEvent x.l.id [w] [(x.a, n, y)]).dst c x.l w64 d w)
/-- A local atomic. -/
def localAtomic (s : State) (o : AtomOp) (fn : AtomFn) : Result :=
  let n := if o.w64 then 8 else 4
  let ls := lits o.c.lit o.a.isLit false o.addr.isLit
  issueEnd s o.c (dregs o.d o.w64 ++ atomRegs fn o.w64 o.a ++ aregs o.addr) (vlatches o.a ++ alatches o.addr) (wordsOf o.lits)
    fun i v act =>
      let r := act.map fun l =>
        s.laneAcc v (s.colourOf v) o.addr.space l (s.offsetOf v l ls.2.2 o.addr n) n (permLd ||| permSt ||| permAtom)
      localAccess s i v r n true act.length
        ((r.foldl (fun t x => let g := s.atomArgs v x.l ls.1 fn o.w64 o.a; t.atomLane i x fn o.w64 o.u o.d g.1 g.2)
          (s.markLatch i o.d)).endRegion i (wordsOf o.lits))
/-- R224. -/
def execAadd (o : AtomOp) (s : State) : Result := localAtomic s o .add
/-- R224. -/
def execAmin (o : AtomOp) (s : State) : Result := localAtomic s o .min
/-- R224. -/
def execAmax (o : AtomOp) (s : State) : Result := localAtomic s o .max
/-- R224. -/
def execAand (o : AtomOp) (s : State) : Result := localAtomic s o .and
/-- R224. -/
def execAor (o : AtomOp) (s : State) : Result := localAtomic s o .or
/-- R224. -/
def execAxor (o : AtomOp) (s : State) : Result := localAtomic s o .xor
/-- R224. -/
def execAxch (o : AtomOp) (s : State) : Result := localAtomic s o .xch
/-- R224. -/
def execAcas (o : AtomOp) (s : State) : Result := localAtomic s o .cas

/-! ## fence (R227) and the resumption of held accesses -/

/-- R227, R135: the convoy issues nothing further until the fence of every active fibre is done; what it covers is performed, with the
drain of R133 where its scope is wider than `.core`. -/
def execFenceOp (o : FenceOp) (s : State) : Result :=
  issue s o.c [] [] fun i v act => if act.isEmpty then s.advance i 1 else (s.release v.spn (act.map (·.id)) o.scope).hold i (.fence o.scope 1)
/-- R135: what the fence covers has been performed, and the convoy goes on. -/
def execFenceDone (c : Nat) (s : State) : Result := match s.mover c with
  | none => .next s
  | some v => match v.wait with
    | .fence _ n => .next (s.advance c n)
    | _ => .next s
/-- R108: a held access whose ranges are free issues again. -/
def execLocalAccessResume (c : Nat) (s : State) : Result := match tget s.convoys c with
  | none => .next s
  | some v => match v.wait with
    | .access core l => if s.rangesHeld core l then .next s else .next (s.hold c .run)
    | _ => .next s

end Sys2Proof.Machine
end

