-- ==== Sys2Proof/Machine/Control.lean ====
section
/-! DEFINITION. Branches and calls (R268, R269, R374, R414), divergence (R80–R82), and the control of fibres, regions, windows and
barriers (R270–R273), with the grant of queued rows (R306). -/

namespace Sys2Proof.Machine

/-! ## Divergence (R80–R82) -/

/-- The immediate of a target: IMM21, signed, or the literal word where IMM21 names it (R153). -/
def targetImm (imm : BitVec 21) (lit : DWord) : Int := if immLit imm then lit.toInt else imm.toInt
/-- header + 8 × the immediate (R149), within the 52-bit space. -/
def labelOf (v : Convoy) (imm : BitVec 21) (lit : DWord) : Addr := (((v.hdr : Int) + 8 * targetImm imm lit) % 2 ^ 52).toNat
/-- The target most lanes of a slice share; among equals that of the lowest lane (R80). -/
def mostShared (l : List Addr) : Option Addr :=
  l.foldl (fun best a => match best with
    | none => some a
    | some b => if l.count b < l.count a then some a else some b) none
/-- The chosen target of each slice; none for a slice without a fibre. -/
def chosenTargets (v : Convoy) (ts : List (Ln × Addr)) : List (Option Addr) :=
  (List.range v.slices.length).map fun j => mostShared ((ts.filter fun t => t.1.pos / 4 == j).map (·.2))
/-- The part of a convoy made of the slices that chose a target, at that target (R81). -/
def Convoy.part (v : Convoy) (sl : List (Option Addr)) (t : Addr) : Convoy :=
  let js := (List.range v.slices.length).filter fun j => sl.getD j none == some t
  { v with slices := js.map fun j => v.slices.getD j 0
           fib := js.flatMap fun j => (List.range 4).map fun k => v.at_ (4 * j + k) }.goto t
/-- R80–R82: each lane has its own target; the convoy splits by slice and lanes in a minority spill. The first part keeps the
convoy's name. -/
def State.resolve (s : State) (c : Nat) (ts : List (Ln × Addr)) : State := match tget s.convoys c with
  | none => s
  | some v =>
    let sl := chosenTargets v ts
    let spilled := ts.filter fun t => sl.getD (t.1.pos / 4) none != some t.2
    let s1 := (spilled.foldl (fun s t => s.spill v t.1.id t.2) s).count (s.wgColour v.wg) 0 2 spilled.length
    let v1 : Convoy := { v with fib := v.fib.map fun p => match p with
      | some i => if spilled.any (fun t => t.1.id == i) then none else some i
      | none => none }
    match (sl.filterMap fun t => t).eraseDups with
    | [] => s1
    | [t] => s1.putConvoy c (v1.goto t)
    | t :: rest =>
      (rest.foldl (fun s t => s.nextId.putConvoy s.ids (v1.part sl t)) (s1.putConvoy c (v1.part sl t))).count (s.wgColour v.wg) 0 3 1
/-- Every lane of a convoy with its target: that of an active lane, else the fall-through clause. -/
def State.targets (s : State) (v : Convoy) (act : List (Ln × Addr)) : List (Ln × Addr) :=
  (s.lanes v).map fun l => match act.find? fun t => t.1.pos == l.pos with
    | some t => (l, t.2)
    | none => (l, v.nextClause)

/-! ## The return stack (R88, R374, R375, R414) -/

/-- Pushes a return address. -/
def Fibre.push (f : Fibre) (a : Addr) : Fibre :=
  if f.rstk.length < 4 then { f with rstk := a :: f.rstk }
  else { f with rstk := a :: f.rstk.take 3, frames := f.rstk.getD 3 0 :: f.frames }
/-- Whether a push takes a new frame. -/
def Fibre.needsFrame (f : Fibre) : Bool := decide (4 ≤ f.rstk.length) && decide (f.frames.length % 8 = 0)
/-- Refills up to four entries when none is on chip, and pops: the address and the fibre after it. -/
def Fibre.pop (f : Fibre) : Addr × Fibre :=
  let r := if f.rstk.isEmpty then (f.frames.take 4, f.frames.drop 4) else (f.rstk, f.frames)
  (r.1.headD 0, { f with rstk := r.1.drop 1, frames := r.2 })
/-- The depth of a return stack. -/
def Fibre.depth (f : Fibre) : Nat := f.rstk.length + f.frames.length
/-- A STACK trap. -/
def State.stackTrap (s : State) (c sub pos : Nat) : State := s.trap c { cls := clsStack, code := sub, pos := pos }
/-- Pushes the fall-through address in every lane that takes a target, then resolves (R374). -/
def State.callTo (s : State) (c : Nat) (v : Convoy) (act : List (Ln × Addr)) : State :=
  match act.find? fun t => decide (256 ≤ t.1.f.depth) with
  | some t => s.stackTrap c 0x050 t.1.pos
  | none =>
    let need := (act.filter fun t => t.1.f.needsFrame).length
    if (s.sp v.spn).frames + need > framePool then
      (s.hold c (.frame (s.now (dieOf v.spn)) need)).modConvoy c fun v =>
        { v with waitPos := ((act.find? fun t => t.1.f.needsFrame).map fun t => t.1.pos).getD 0 }
    else
      let s1 := s.modSp v.spn fun p => { p with frames := p.frames + need }
      let s2 := act.foldl (fun s t => s.modFibre t.1.id fun f => f.push v.nextClause) s1
      (s2.issued c).resolve c (s.targets v act)

/-! ## Branches and calls (R269) -/

/-- R269. -/
def execBra (o : BraOp) (s : State) : Result :=
  issueWide s fun i v _ =>
    let taken := match o.cond with
      | some (neg, q) => v.u.rdQ q != neg
      | none => true
    (s.modConvoy i fun v => v.goto (if taken then labelOf v o.imm o.c.lit else v.nextClause)).issued i
/-- R269. -/
def execBrc (o : BrOp) (s : State) : Result :=
  issue s o.c [] [] fun i v act => (s.issued i).resolve i (s.targets v (act.map fun l => (l, labelOf v o.imm o.c.lit)))
/-- R269. -/
def execCallOp (o : BrOp) (s : State) : Result :=
  issue s o.c [] [] fun i v act => s.callTo i v (act.map fun l => (l, labelOf v o.imm o.c.lit))
/-- The target of brx in a lane, and the code range of its capability; or the CODE of the fetch fault. -/
def State.brxLane (s : State) (v : Convoy) (o : BrxOp) (l : Ln) : Except Nat (Addr × Addr × Nat) :=
  let k := if o.uf then v.u.rdK o.k.toNat else s.rdK l.f o.k.toNat
  let off := 8 * (if o.uf then uval v.u false o.c.lit o.o else s.src v l false o.c.lit o.o).toNat
  match s.capCause (s.colourOf v) k { kinds := [kindCode], perms := permExec } off 8 with
  | some n => .error (0x200 + n)
  | none => .ok (k.lo + off, k.lo, k.len)
/-- The most code ranges of a workgroup (R268). -/
def maxRanges : Nat := 16
/-- The targets of the active lanes and the code ranges after them; or the first lane's fetch fault. -/
def State.brxLanes (s : State) (v : Convoy) (o : BrxOp) (rs : List (Addr × Nat)) :
    List Ln → Except (Nat × Nat) (List (Ln × Addr) × List (Addr × Nat))
  | [] => .ok ([], rs)
  | l :: ls => match s.brxLane v o l with
    | .error n => .error (n, l.pos)
    | .ok (t, lo, len) =>
      if !rs.contains (lo, len) && decide (maxRanges ≤ rs.length) then .error (0x212, l.pos)
      else match s.brxLanes v o (if rs.contains (lo, len) then rs else rs ++ [(lo, len)]) ls with
        | .error e => .error e
        | .ok (ts, rs') => .ok ((l, t) :: ts, rs')
/-- brx and calli up to the transfer of the active lanes to their targets. -/
def brxForm (s : State) (o : BrxOp) (k : State → Nat → Convoy → List (Ln × Addr) → State) : Result :=
  issue s o.c (if o.uf then [] else kRegs o.k false ++ vregs o.o false) (if o.uf then [] else vlatches o.o) fun i v act =>
    match tget s.wgs v.wg with
    | none => s
    | some g => match s.brxLanes v o g.ranges act with
      | .error (code, pos) => s.trap i { cls := clsFetch, code := code, pos := pos }
      | .ok (ts, rs) => k (s.modWg v.wg fun g => { g with ranges := rs }) i v ts
/-- R269. -/
def execBrx (o : BrxOp) (s : State) : Result := brxForm s o fun s i v ts => (s.issued i).resolve i (s.targets v ts)
/-- R269. -/
def execCalli (o : BrxOp) (s : State) : Result := brxForm s o fun s i v ts => s.callTo i v ts
/-- R269, R375, R414. -/
def execRet (c : Ctl) (s : State) : Result :=
  issue s c [] [] fun i v act => match act.find? fun l => l.f.depth == 0 with
    | some l => s.stackTrap i 0x052 l.pos
    | none =>
      let s1 := act.foldl (fun s l =>
        (s.modFibre l.id fun f => f.pop.2).modSp v.spn fun p =>
          { p with frames := p.frames + framesOf l.f.pop.2.frames.length - framesOf l.f.frames.length }) s
      (s1.wakeFrames.issued i).resolve i (s.targets v (act.map fun l => (l, l.f.pop.1)))
/-- R414: a push that has waited YDEADL core cycles for a frame takes STACK 0x051, but not while its SP is stopped (R346, R383). -/
def execReturnFrameTimeout (c : Nat) (s : State) : Result := match s.mover c with
  | none => .next s
  | some v => match v.wait with
    | .frame since need =>
      if (s.sp v.spn).frames + need ≤ framePool then .next (s.hold c .run)
      else if since + (s.core (coreOf v.spn)).ydeadl.toNat ≤ s.now (dieOf v.spn) then
        .next (s.stackTrap c 0x051 v.waitPos)
      else .next s
    | _ => .next s

/-! ## Regions, yield, fuse, end, nop and trap (R270) -/

/-- R270. -/
def execRegionOp (o : RegionOp) (s : State) : Result := compute s o.c [] [] false o.d 1 fun _ _ l => (l.f.regcnt.setWidth 64, 0)
/-- R425, point 3: `end`, `yield` and `fuse` take the trap of a refusal bit. -/
def State.orEngref (s : State) (c : Nat) (v : Convoy) (k : State) : State := match s.refOf v allCls with
  | some x => s.engref c v x
  | none => k
/-- R96. -/
def execYieldOp (_c : Ctl) (s : State) : Result :=
  issueWide s fun i v _ => s.orEngref i v
    (((s.modConvoy i fun v => { v.goto v.nextClause with wait := if v.yreq then .yielded else .clause }).issued i).count
      (s.wgColour v.wg) 0 6 (if v.yreq then 1 else 0))
/-- R85. -/
def execFuse (_c : Ctl) (s : State) : Result :=
  issueWide s fun i v _ => s.orEngref i v
    (let s1 := (s.lanes v).foldl (fun s l => s.spill v l.id v.nextClause) s
     { ((s1.count (s.wgColour v.wg) 0 0 1).count (s.wgColour v.wg) 0 4 1).bump with convoys := tdel s1.convoys i, cur := none })
/-- R76. -/
def execEndOp (c : Ctl) (s : State) : Result :=
  issue s c [] [] fun i v act => s.orEngref i v
    (let s1 := (s.modConvoy i fun v => v.goto v.nextClause).issued i
     let s2 := ((s1.endFibres i (act.map (·.id))).dropEmpty i).settleBar v.wg
     match tget s.wgs v.wg with
     | some g => s2.settleAbort g.launch
     | none => s2)
/-- R164, R398: a word with an unassigned opcode. -/
def execUnassignedOpcodeIssue (_w : DWord) (s : State) : Result := match s.cur with
  | none => .fault .noConvoy
  | some c => .next (s.illegal c 0x010 0)
/-- R270. -/
def execNopOp (c : Ctl) (s : State) : Result := issue s c [] [] fun i _ _ => s.advance i 1
/-- Whether a scope mask grants READ and HALT (R340, R343). -/
def grantsHalt (m : Word) : Bool := m.getLsbD 0 && m.getLsbD 2
/-- Whether a debugger holds HALT over a world (R341, R343, R346). -/
def State.haltHeld (s : State) (colour : Nat) : Bool := match tget s.worlds colour with
  | none => false
  | some w => match w.mode with
    | .standard => match s.mgmt.token with
      | some m => grantsHalt m
      | none => false
    | .protected_ => grantsHalt ((w.consent.getD 0).setWidth 32)
    | .forming => false
    | .departing => false
/-- R270, R381. -/
def execTrapOp (o : TrapOp) (s : State) : Result :=
  issue s o.c [] [] fun i v act => match act with
    | [] => s.advance i 1
    | l :: _ =>
      if o.code.toNat < 0x800 then s.trap i { cls := clsSwtrap, code := o.code.toNat, pos := l.pos }
      else if s.haltHeld (s.colourOf v) then s.halt i o.code.toNat l.pos
      else s.advance i 1

/-! ## Windows (R101, R271, R273, R306, R415, R416) -/

/-- A fibre takes n more rows, which read 0 (R101). -/
def State.growFibre (s : State) (i n : Nat) : State := match tget s.fibres i with
  | none => s
  | some f => (s.zeroRows f.spn f.lane (f.wbase + f.wsize) n).modFibre i fun f => { f with wsize := f.wsize + n }
/-- Whether the rows a fibre would take are free. -/
def State.canGrow (s : State) (i n : Nat) : Bool := match tget s.fibres i with
  | none => false
  | some f => s.rowsFree f.spn f.lane (f.wbase + f.wsize) n
/-- Serves the fibres of a list that can grow: the state after, and those left. -/
def State.growAll (s : State) (n : Nat) : List Nat → State × List Nat
  | [] => (s, [])
  | i :: r =>
    if s.canGrow i n then (s.growFibre i n).growAll n r
    else let x := s.growAll n r; (x.1, i :: x.2)
/-- Joins a core's grow queue. -/
def State.joinGrow (s : State) (core c : Nat) (l : List Nat) : State :=
  s.modCore core fun k => { k with grow := k.grow ++ l.map fun i => (c, i) }
/-- R273, R306, R309, R415. -/
def execGrow (o : GrowOp) (s : State) : Result :=
  let n := o.n.toNat
  issue s o.c [] [] fun i v act => match act.find? fun l => decide (256 < l.f.wbase + l.f.wsize + n) with
    | some l => s.trap i { cls := clsGrowcap, code := 0x040, pos := l.pos }
    | none =>
      let r := s.growAll n (act.map (·.id))
      if r.2.isEmpty then r.1.advance i 1
      else if v.yreq then s.hold i .yielded
      else (r.1.joinGrow (coreOf v.spn) i r.2).hold i (.grow n r.2 ((act.map (·.id)).filter fun x => !r.2.contains x))
/-- R273, R416. -/
def execShrink (o : GrowOp) (s : State) : Result :=
  let n := o.n.toNat
  issue s o.c [] [] fun i _ act => match act.find? fun l => decide (l.f.wsize < n + 8) with
    | some l => s.illegal i 0x01C l.pos
    | none => (act.foldl (fun s l => s.modFibre l.id fun f => { f with wsize := f.wsize - n }) s).advance i 1

/-- The lowest index a list does not hold. -/
def lowestFree (held : List Nat) : Nat := ((List.range (held.length + 1)).find? fun n => !held.contains n).getD held.length
/-- Fibre indices taken in a workgroup: by its live fibres, and by spawns not yet carried out (R75). -/
def State.indicesHeld (s : State) (w : Nat) : List Nat :=
  (s.fibresOf w).map (·.2.fidx) ++ (s.convoys.filter fun x => x.2.wg == w).flatMap fun x => match x.2.wait with
    | .spawn left _ _ _ => left.map (·.2.1)
    | _ => []
/-- The lowest free index for each of some lanes in order; stops at the first that finds none below 65,536. -/
def takeIndices (held : List Nat) : List Ln → Except Nat (List (Ln × Nat))
  | [] => .ok []
  | l :: r =>
    let n := lowestFree held
    if n ≥ 65536 then .error l.pos
    else match takeIndices (n :: held) r with
      | .ok x => .ok ((l, n) :: x)
      | .error p => .error p
/-- Creates the fibre of one lane of a spawn when its column has rows (R75, R271). -/
def State.spawnOne (s : State) (v : Convoy) (x : Nat × Nat × Word) (rows : Nat) (target : Addr) : Option State :=
  match (v.at_ x.1).bind fun i => tget s.fibres i with
  | none => some s
  | some f => match s.freeRun f.spn f.lane rows with
    | none => none
    | some b =>
      let i := s.ids
      let g : Fibre := { wg := v.wg, fidx := x.2.1, spn := f.spn, lane := f.lane, wbase := b, wsize := rows, pc := target,
                         regpc := target, rwsize := rows, lookup := f.lookup, born := if f.lookup then 0 else s.ids, unif := v.u }
      let s1 := { (s.zeroRows f.spn f.lane b rows).nextId with fibres := tput s.fibres i g }
      some ((s1.wrV g 0 x.2.2).arrive i (s.now (dieOf v.spn)))
/-- Creates what can be created: the state after, and the lanes left. -/
def State.spawnAll (s : State) (v : Convoy) (rows : Nat) (target : Addr) :
    List (Nat × Nat × Word) → State × List (Nat × Nat × Word)
  | [] => (s, [])
  | x :: r => match s.spawnOne v x rows target with
    | some t => t.spawnAll v rows target r
    | none => let y := s.spawnAll v rows target r; (y.1, x :: y.2)
/-- R75, R271, R415. -/
def execSpawn (o : SpawnOp) (s : State) : Result :=
  let rows := 8 * (o.sz8.toNat + 1)
  let n := wordsOf o.lits
  issue s o.c (vregs o.a false) (vlatches o.a) fun i v act => match takeIndices (s.indicesHeld v.wg) act with
    | .error p => s.trap i { cls := clsGrowcap, code := 0x042, pos := p }
    | .ok ls =>
      let r := s.spawnAll v rows (labelOf v o.imm o.c.lit) (ls.map fun x => (x.1.pos, x.2, s.src32 v x.1 o.c.lit o.a))
      if r.2.isEmpty then r.1.advance i n
      else (r.1.joinGrow (coreOf v.spn) i (r.2.filterMap fun x => v.at_ x.1)).hold i (.spawn r.2 rows (labelOf v o.imm o.c.lit) n)

/-- One queued request, when its rows are free and its convoy is not halted (R306, R347); the request leaves the queue when it is served or
void. -/
def State.grantOne (s : State) (x : Nat × Nat) : Option State := match tget s.convoys x.1 with
  | none => some s
  | some v => if s.frozen v then none else match v.wait with
    | .grow n left served =>
      if !left.contains x.2 then some s
      else if s.canGrow x.2 n then
        let rest := left.filter (· != x.2)
        let s1 := s.growFibre x.2 n
        some (if rest.isEmpty then s1.advance x.1 1 else s1.hold x.1 (.grow n rest (x.2 :: served)))
      else none
    | .spawn left rows target n => match left.find? fun y => v.at_ y.1 == some x.2 with
      | none => some s
      | some y => match s.spawnOne v y rows target with
        | none => none
        | some s1 =>
          let rest := left.filter (· != y)
          some (if rest.isEmpty then s1.advance x.1 n else s1.hold x.1 (.spawn rest rows target n))
    | _ => some s
/-- Serves a list of requests in order: the state after, and the requests left. -/
def State.grantAll (s : State) : List (Nat × Nat) → State × List (Nat × Nat)
  | [] => (s, [])
  | x :: r => match s.grantOne x with
    | some t => t.grantAll r
    | none => let y := s.grantAll r; (y.1, x :: y.2)
/-- R306. -/
def execGrowGrant (core : Nat) (s : State) : Result :=
  let r := s.grantAll (s.core core).grow
  if r.2 = (s.core core).grow then .next s else .next (r.1.modCore core fun k => { k with grow := r.2 })

/-! ## Barriers (R91, R272, R313) -/

/-- The hardware slot of a logical barrier slot of a launch at a scope. -/
def State.barSlot (s : State) (v : Convoy) (scope : Scope) (slot : BitVec 4) : Option (Nat × BarSlot) :=
  ((tget s.wgs v.wg).bind fun g => tget s.launches g.launch).bind fun l =>
    (l.slots.filterMap fun x =>
      if x.1 == slot.toNat && !x.2.1 then (tget s.bars x.2.2).map fun b => (x.2.2, b) else none).find? fun b => b.2.scope == scope
/-- The convoy waits at a barrier, which may complete now: each of its fibres releases at its arrival (R134). -/
def State.waitBar (s : State) (c : Nat) (v : Convoy) (scope : Scope) (slot : Option Nat) (phase : Nat) : State :=
  (((s.releaseAll v scope).issued c).hold c (.bar slot phase)).settleBar v.wg
/-- How often a wide slot had flipped when a logged arrival was made. -/
def loggedPhase (e : LogEvent) : Nat := (e.result.headD 0).toNat
/-- An arrival at a wide slot: logged like an engine atomic; one already logged is not counted again (R313, R390). -/
def State.arriveWide (s : State) (c : Nat) (v : Convoy) (k : Nat) (b : BarSlot) : State :=
  let ls := s.lanes v
  match (ls.head?.bind fun l => s.lookup l.f) with
  | some e =>
    let s1 := ls.foldl (fun s l => s.replayEvent l.id e) s
    if b.phase != loggedPhase e then (s1.modConvoy c fun v => v.goto v.nextClause).issued c
    else s1.waitBar c v b.scope (some k) b.phase
  | none =>
    if !s.logRoom [] v.spn ls.length then s.holdLog c 0
    else (ls.foldl (fun s l => s.logEvent l.id [BitVec.ofNat 64 b.phase] []) s).waitBar c v b.scope (some k) b.phase
/-- A BARBRK trap (R387). -/
def State.barBroken (s : State) (c : Nat) : State := s.trap c { cls := clsBarbrk, code := 0 }
/-- R272. -/
def execBar (o : BarOp) (s : State) : Result :=
  issueWide s fun i v _ => match o.scope with
    | .convoy => ((s.releaseAll v .convoy).modConvoy i fun v => v.goto v.nextClause).issued i
    | .core => s.waitBar i v .core none (((tget s.wgs v.wg).map (·.core)).getD 0)
    | _ => match s.barSlot v o.scope o.slot with
      | none => s.illegal i 0x01B 0
      | some (k, b) => if b.broken then s.barBroken i else s.arriveWide i v k b

end Sys2Proof.Machine
end

