-- ==== Sys2Proof/Machine/Engine.lean ====
section
/-! DEFINITION. The engine instructions (R241–R267, R204): issue and acceptance, how commands begin and complete, waits on words and
counters, and entries of the revocation set. -/

namespace Sys2Proof.Machine

/-! ## Issue and acceptance (R78, R107, R241–R249) -/

/-- The parameter group (R242). -/
def Unif.group (u : Unif) (p : BitVec 6) : List Word := (List.range 8).map fun j => u.rd (p.toNat + j)
/-- SOFF and DOFF. -/
def Unif.soff (u : Unif) (p : BitVec 6) : Nat := (u.rd64 p.toNat).toNat
def Unif.doff (u : Unif) (p : BitVec 6) : Nat := (u.rd64 (p.toNat + 2)).toNat
/-- What an event lookup at issue leaves: the state, the operation still to perform, and the keys of the events to log. -/
abbrev Looked := Option (State × CmdOp × List EventKey)
/-- An instruction whose events are not logged. -/
def noEvents (s : State) (_ : Convoy) (_ : List Ln) (op : CmdOp) : Looked := some (s, op, [])
/-- The fibre's next event will be performed: its key; nothing later is looked up (R391). -/
def State.takeKey (s : State) (i : Nat) : State × List EventKey := match tget s.fibres i with
  | none => (s, [])
  | some f => (s.modFibre i fun f => { f with ordn := f.ordn + 1, lookup := false }, [⟨f.fidx, f.regcnt, f.ordn⟩])
/-- The event of a convoy-wide instruction: one entry for each fibre, looked up for the lowest; `skip` is what remains when it was
performed before. -/
def wideEvent (skip : CmdOp) (s : State) (v : Convoy) (_ : List Ln) (op : CmdOp) : Looked :=
  let ls := s.lanes v
  match ls.head?.bind fun l => s.lookup l.f with
  | some e => some (ls.foldl (fun s l => s.replayEvent l.id e) s, skip, [])
  | none =>
    if s.logRoom [] v.spn ls.length then
      let r := ls.foldl (fun (x : State × List EventKey) l => let y := x.1.takeKey l.id; (y.1, x.2 ++ y.2)) (s, [])
      some (r.1, op, r.2)
    else none
/-- The events of a `cpy.cmd`: those of the near-memory update, the atomic or the signal that its capability's OTYPE names, which are not
performed again (R391, R433; log entry 88). -/
def blockEvents (s : State) (v : Convoy) (ls : List Ln) (op : CmdOp) : Looked := match op with
  | .block k _ =>
    if k.remote.isNone && decide (5 ≤ k.otype.toNat) && decide (k.otype.toNat ≤ 7) then wideEvent (.gatm nullCap .add false false (.b 0) []) s v ls op
    else some (s, op, [])
  | _ => some (s, op, [])
/-- The destination registers of gatm are written operands of its core: an entry for each lane's (R107, R263, log entry 87). -/
def State.destEntries (s : State) : CmdOp → List Entry
  | .gatm _ _ w64 _ (.v n) lanes => lanes.flatMap fun l => match tget s.fibres l.fib with
      | some f => entriesOn (f.reg n.toNat) (f.reg n.toNat + if w64 then 8 else 4) true
      | none => []
  | _ => []
/-- The entries an accepted command holds: those of its operands, and of the list entry or block it reads. -/
def State.acceptEntries (s : State) (v : Convoy) (op : CmdOp) : List Entry :=
  ((op :: (s.peeked (coreOf v.spn) false op).toList).flatMap fun o => o.entries v.spn (s.clxCount v.wg o)) ++ s.destEntries op
/-- Acceptance comes after the earlier writes of the convoy that overlap the command's operands (R127). -/
def State.settleWrites (s : State) (v : Convoy) (es : List Entry) : State :=
  let ids := (s.lanes v).map (·.id)
  if (s.sp v.spn).pend.any fun w => ids.contains w.fib && es.any fun e => decide (w.addr < e.hi) && decide (e.lo < w.addr + w.old.length)
  then s.releaseAll v .lane else s
/-- A signal's release modifier, as its instruction issues (R134, R264). -/
def State.opRelease (s : State) (v : Convoy) (op : CmdOp) : State := match op with
  | .sig _ _ _ _ (some sc) => s.releaseAll v sc
  | _ => s
/-- MXSEQ after a matrix-class command (R245): FULL is bit 8. -/
def mxNext (u : Unif) : Unif := { u with mxseq := u.mxseq + 1 }
/-- Whether an instruction's operation is a collective: its own, or that of the block it runs, which its capability's OTYPE names. -/
def CmdOp.collective : CmdOp → Bool
  | .clx _ _ _ _ _ _ _ _ => true
  | .block k _ => k.remote.isNone && k.otype.toNat == 4
  | _ => false
/-- The fibres of a convoy have issued a collective more since their region entries (R432). -/
def State.noteClx (s : State) (v : Convoy) (op : CmdOp) : State :=
  if op.collective then (s.lanes v).foldl (fun s l => s.modFibre l.id fun f => { f with clxs := f.clxs + 1 }) s else s
/-- A command in the latest place of every matrix command its fibres have not observed complete (R129). -/
def State.noteMatrix (s : State) (v : Convoy) (k : Nat) : State :=
  (s.lanes v).foldl (fun s l => s.modFibre l.id fun f => { f with mx := k :: f.mx }) s
/-- The command of an instruction. Of a convoy whose fibres differ in REGCNT it carries that of the lowest lane position, as R258 says of a
matrix command and log entry 70 of the others; each fibre's own decides what a cut-back cancels (R95). -/
def State.newCmd (s : State) (i : Nat) (v : Convoy) (cls : Cls) (slot : Bool) (op : CmdOp) (keys : List EventKey) : Cmd where
  cls := cls
  op := op
  core := coreOf v.spn
  spn := v.spn
  wg := v.wg
  colour := s.colourOf v
  gen := s.gen (s.colourOf v)
  convoy := i
  fibres := (s.lanes v).map (·.id)
  pc := v.hdr
  wi := v.word
  regcnt := ((s.lanes v).head?.map fun l => l.f.regcnt).getD 0
  regs := (s.lanes v).foldl (fun t l => tput t l.id l.f.regcnt) []
  seq := v.u.mxseq.toNat % 256
  slot := if slot then s.freeSlot (coreOf v.spn) cls else none
  entries := (s.acceptEntries v op).filter fun e => e.core == coreOf v.spn
  want := (s.acceptEntries v op).filter fun e => e.core != coreOf v.spn
  status := 0
  keys := keys
  clxBy := ((s.lanes v).head?.map fun l => (l.f.fidx, l.f.clxs, l.f.born)).getD (0, 0, 0)
  owed := (s.lanes v).map (·.id)
/-- The state with a command of a convoy accepted: it stands under a new name, every fibre's counter is raised (R78), the convoy's earlier
writes that overlap its operands and those its release covers are performed (R127, R134), and a matrix command takes MXSEQ (R245). -/
def State.accepted (s : State) (i : Nat) (v : Convoy) (m : Cmd) : State :=
  let t := (({ s.nextId with cmds := tput s.cmds s.ids m }.countInc m.fibres m.cls).settleWrites v (s.acceptEntries v m.op)).opRelease v m.op
  if m.cls = .emx then (t.modU i mxNext).noteMatrix v s.ids else t.noteClx v m.op
/-- Issues an engine instruction of n words: the holds, the acceptance, CounterInc, and on past the word. While a class has no free slot no
command of it is accepted, whether it takes a slot or not (R249). -/
def issueEngine (s : State) (c : Ctl) (cls : Cls) (slot ends : Bool) (regs : List RegUse) (lat : List (BitVec 2)) (n : Nat)
    (op : State → Convoy → List Ln → CmdOp) (ev : State → Convoy → List Ln → CmdOp → Looked) : Result :=
  let go (i : Nat) (v : Convoy) (act : List Ln) : State :=
    let o := op s v act
    if cls = .emx ∧ v.u.mxseq.getLsbD 8 then s.illegal i 0x01D 0
    else if (s.lanes v).any fun l => l.f.cnt.get cls == 63 then s.hold i (.room cls)
    else if (s.freeSlot (coreOf v.spn) cls).isNone || !s.entryRoom (coreOf v.spn) (s.acceptEntries v o) then s.hold i (.accept cls)
    else match ev s v act o with
      | none => s.holdLog i ((act.head?.map (·.pos)).getD 0)
      | some (s1, o1, keys) =>
        let t := s1.accepted i v (s.newCmd i v cls slot o1 keys)
        if ends then t.endRegion i n else t.advance i n
  if ends then issueEnd s c regs lat n go else issue s c regs lat go
/-- R78: a held issue goes on once every fibre's counter has room. -/
def execIssueCounterRoom (c : Nat) (s : State) : Result := match tget s.convoys c with
  | none => .next s
  | some v => match v.wait with
    | .room x => if (s.lanes v).any fun l => l.f.cnt.get x == 63 then .next s else .next (s.hold c .run)
    | _ => .next s
/-- R249, R146: a waiting command can be accepted; it is, as the word issues again. -/
def execEngineAccept (c : Nat) (s : State) : Result := match tget s.convoys c with
  | none => .next s
  | some v => match v.wait with
    | .accept x => if s.canAccept (coreOf v.spn) x then .next (s.hold c .run) else .next s
    | _ => .next s

/-! ## Beginning (R243, R247, R258, R421, R425–R427) -/

/-- The queue of a class is halted for a workgroup by command k: those issued after it do not run, those ahead keep their effects
(R427, R438). -/
def Wg.halt (g : Wg) (x : Cls) (k : Nat) : Wg := { g with halted := tput g.halted x.idx (((tget g.halted x.idx).elim k (min k))) }
/-- R427: an ill-formed command. A direct one halts its workgroup's queue of the class, invalidates its destination tile and aborts
the launch; a block's does neither. -/
def State.malformCmd (s : State) (k : Nat) (m : Cmd) : State := match m.op with
  | .block b _ => (s.record (s.cmdRec m 0x21 0x8 0x0C 0) true).finishBlock k b.lo 0x800C
  | op =>
    let s1 := match op.destTile with
      | some t => s.invTile m.spn t
      | none => s
    let s2 := (s1.modWg m.wg fun g => g.halt m.cls k).finish k 0x800C none
    let r := s.cmdRec m 0x21 0xB 0x0C 0
    match tget s2.wgs m.wg with
    | some g => (s2.abortLaunch g.launch 0x21 [r]).settleAbort g.launch
    | none => s2.record r true

/-- The ranges of an operation's own capabilities that it reads and writes in HBM. -/
def CmdOp.ranges (c core : Nat) (op : CmdOp) (write : Bool) : List (Addr × Nat) :=
  ((op.uses core c).filter fun u => u.write == write && !u.k.remote.isSome).flatMap fun u =>
    (u.ranges.map fun r => (if u.own then r.1 else u.k.lo + r.1, r.2)) ++
      (if write && u.k.has permTwin && !u.own then u.ranges.map fun r => (twinOf (u.k.lo + r.1), r.2) else [])
/-- A matrix command that starts afresh takes its tile's progress word (R258). -/
def State.freshTile (s : State) (m : Cmd) (op : CmdOp) : State := match op.progTile with
  | none => s
  | some t =>
    let own := s.ownOf m.wg m.spn
    match s.progressOf m.spn t own m.regcnt m.seq with
    | .fresh => s.setAcprog m.spn t (acWord own 0 false false false m.seq m.regcnt)
    | .skip => s
    | .from_ _ => s
/-- What the memory that an operation reaches still waits for, its block's among it; none when it can be performed now (R118, R324). -/
def State.opAwaits (s : State) (m : Cmd) (op : CmdOp) : Option State :=
  let c := s.clxCount m.wg op
  s.awaits (op.ranges c m.core false) (op.ranges c m.core true ++ (match m.op with
    | .block b _ => if b.remote.isNone then [(b.lo, 64)] else []
    | _ => []))
/-- Begins an operation whose checks pass: waits for memory to wake, then runs, the SPs of its on-chip ranges awake (R319); a near-memory update's target lines leave the cache first
(R137). -/
def State.runOp (s : State) (k : Nat) (m : Cmd) (op : CmdOp) : State :=
  let c := s.clxCount m.wg op
  match s.awaits (op.ranges c m.core false) (op.ranges c m.core true) with
  | some t => t
  | none =>
    let go (s : State) : State :=
      ((((op.ranges c m.core false) ++ op.ranges c m.core true).foldl (fun s r => s.wakeRange r.1 r.2) s).freshTile m op).modCmd k fun m =>
        { m with phase := .running, status := 1 }
    match op with
    | .clx _ src soff _ len arg0 fn i32 => match s.clxJoin (s.cmdAgent m) k m src soff len arg0 fn i32 with
      | none => s
      | some t => go t
    | .nmc t _ _ doff len _ _ _ => go (s.nmcFlush t doff len)
    | _ => go s
/-- The checks of an operation, made once as it begins; a refusal at an unreachable package adds its record. -/
def State.startOp (s : State) (k : Nat) (m : Cmd) (op : CmdOp) : State := match s.beginCause m op with
  | none => s.runOp k m op
  | some (n, a) =>
    if n = 0x0C then s.malformCmd k m
    else
      let s1 := match op.peer with
        | some q => if n = 0x09 then s.noRoute m.colour q else s
        | none => s
      (s1.extentRec (s.cmdAgent m) n a).refuseCmd k m n a
/-- Whether an earlier ORDERED command of the core is unfinished (R66). -/
def State.orderedHeld (s : State) (k : Nat) (m : Cmd) : Bool :=
  s.ordered m && s.cmds.any fun y => decide (y.1 < k) && y.2.core == m.core && y.2.live && y.2.phase != .performed && s.ordered y.2
/-- Begins an operation found in a block or a region list: its entries join the command's, and it waits like any other for room, for
overlapping commands (R107, R108) and for earlier ORDERED ones (R66). -/
def State.startInner (s : State) (k : Nat) (m : Cmd) (op : CmdOp) : State :=
  let es := m.op.entries m.spn 0 ++ op.entries m.spn (s.clxCount m.wg op)
  let s1 := { s with cmds := tput s.cmds k { m with inner := some op, phase := .queued } }.holdEntries k es
  match tget s1.cmds k with
  | none => s1
  | some m1 => if !m1.want.isEmpty || s1.orderedHeld k m1 || s1.entriesHeld k op m1.entries then s1 else s1.startOp k m1 op
/-- A block run for its own package's convoys is of the engine class that its command capability's OTYPE names (R59, R61). -/
def Block.typed (x : Block) (m : Cmd) (b : Cap) : Bool := m.peer.isSome || x.op == b.otype.toNat
/-- Whether the queue of a command's class is halted for its workgroup by a command issued before it (R427). -/
def State.queueHalted (s : State) (k : Nat) (m : Cmd) : Bool := match tget s.wgs m.wg with
  | some g => (tget g.halted m.cls.idx).any fun j => decide (j < k)
  | none => false
/-- A running command that cannot be performed waits; while only a log holds it, the time counts (R390). -/
def State.waitOn (s : State) (k : Nat) (m : Cmd) (only : Bool) : State :=
  s.modCmd k fun c => { c with logAt := if only then some (m.logAt.getD (s.now (dieOf m.spn))) else none }
/-- Takes a block (R247): indivisibly, unless it is in progress, and once the log has room for its line (R390). In a halted queue it
receives 0x800F unrun (R427). One whose OP is no longer that of its OTYPE is refused with SEALED
(R59, log entry 71). A release of a signal block acts for the issuing convoy's fibres (R248). -/
def State.takeBlock (s : State) (k : Nat) (m : Cmd) (b : Cap) (loc : Option Cap) : State :=
  let x := s.blockAt b.lo
  if x.status = 1 || !s.cmdRoom m [] then (s.modCmd k fun m => { m with phase := .blocked, status := 1 }).waitOn k m (x.status != 1)
  else if s.queueHalted k m then s.finishBlock k b.lo 0x800F
  else
    let s1 := s.blockStatus m.colour b.lo 1 none
    let m1 : Cmd := { m with phase := .queued, logAt := none, status := 1, resume := if x.status = 4 then x.resume else 0 }
    if !x.typed m b then (s1.record (s1.cmdRec m 0x20 0x8 0x03 b.lo) true).finishBlock k b.lo 0x8003
    else match x.toOp (x.granule2 m.peer.isSome loc) with
    | some op => (match op with
      | .sig _ _ _ _ (some sc) => s1.release m.spn m.fibres sc
      | _ => s1).startInner k m1 op
    | none => s1.malformCmd k m1
/-- The cause by which a command capability itself is refused (R59, R64, R248); STATUS is written through it, so a block in an extent-map
table needs MAP (R49). -/
def State.cmdCause (s : State) (colour : Nat) (b : Cap) : Option Nat :=
  minCause (s.capCause colour b { kinds := [kindCmd], sealOk := b.remote.isSome || (decide (1 ≤ b.otype.toNat) && decide (b.otype.toNat ≤ 0x3F)) }
      0 64)
    (match b.remote with
     | some q => if s.unreachable colour q then some 0x09 else none
     | none => minCause (s.rangeCause colour false { pool := false, host := false } true b.lo 64) (s.mapCause b b.lo 64))
/-- Begins a `cpy.cmd`. -/
def State.startBlock (s : State) (k : Nat) (m : Cmd) (b : Cap) (loc : Option Cap) : State := match s.cmdCause m.colour b with
  | some n =>
    let s1 := match b.remote with
      | some q => if n = 0x09 then s.noRoute m.colour q else s
      | none => s
    s1.refuseCmd k m n b.lo
  | none => match b.remote with
    | none => match s.awaits [] [(b.lo, 64)] with
      | some t => t
      | none =>
        let r := s.readLines (s.cmdAgent m) .rd b.lo 64
        if r.2.isEmpty then r.1.takeBlock k m b loc else r.1.finish k 3 none
    | some q => (s.send (.command q m.colour k b loc)).modCmd k fun m => { m with phase := .running, status := 1 }
/-- Begins a `stage`: the list is read, then its entry begins (R106, R252). -/
def State.startStage (s : State) (k : Nat) (m : Cmd) (list : Cap) (idx : Nat) (back : Bool) : State := match s.beginCause m m.op with
  | some (n, a) => if n = 0x0C then s.malformCmd k m else (s.extentRec (s.cmdAgent m) n a).refuseCmd k m n a
  | none => match s.awaits [(list.lo + 32 * idx, 32)] [] with
    | some t => t
    | none =>
      let r := s.readLines (s.cmdAgent m) .rd (list.lo + 32 * idx) 32
      if r.2.isEmpty then r.1.startInner k m (r.1.regEntry (list.lo + 32 * idx) m.core back) else r.1.finish k 3 none
/-- Whether a command is to run a block of this package that it has not taken yet. -/
def Cmd.untaken (m : Cmd) : Bool := match m.op with
  | .block b _ => b.remote.isNone && m.inner.isNone
  | _ => false
/-- A command of a halted queue completes unrun (R427). -/
def State.endHalted (s : State) (k : Nat) (m : Cmd) : State :=
  let t := match (m.inner.getD m.op).destTile with
    | some t => s.invTile m.spn t
    | none => s
  match m.op with
  | .block b _ => if b.remote.isNone then t.finishBlock k b.lo 0x800F else t.finish k 0x800F none
  | _ => t.finish k 0x800F none
/-- R243. A command first takes the scoreboard entries on other cores that it still waits for (R107). -/
def execCommandBegin (k : Nat) (s0 : State) : Result :=
  let s := s0.takeEntries k
  match tget s.cmds k with
  | none => .next s
  | some m =>
    if m.phase != .queued then .next s0
    else if s.queueHalted k m && !m.untaken then .next (s.endHalted k m)
    else if !m.want.isEmpty || s.orderedHeld k m || s.entriesHeld k (m.inner.getD m.op) m.entries then .next s
    else match m.op, m.inner with
      | .block b loc, none => .next (s.startBlock k m b loc)
      | .stage list idx back, none => .next (s.startStage k m list idx back)
      | op, none => .next (s.startOp k m op)
      | _, some op => .next (s.startOp k m op)
/-- R247. -/
def execBlockTakeRetry (k : Nat) (s : State) : Result := match tget s.cmds k with
  | none => .next s
  | some m => match m.phase, m.op with
    | .blocked, .block b loc => if (s.blockAt b.lo).status = 1 then .next s else .next (s.takeBlock k m b loc)
    | _, _ => .next s

/-! ## Completion (R128, R246, R249, R426) -/

/-- The local engine refuses a remote command at its own end (R64): the peer is told, whose block takes the STATUS (R426), and the command
completes for its counter. -/
def State.refuseRemote (s : State) (k : Nat) (m : Cmd) (q c : Nat) (a : Addr) : State :=
  ((s.send (.answer q m.colour (0x8000 + c) [])).record (s.cmdRec m 0x20 0x8 c a) true).finish k (0x8000 + c) none
/-- The end of a performed operation: flags first (R31), then STATUS, then the counter. The results of an ORDERED matrix command are
performed at `.pkg` then (R139). -/
def State.complete (s : State) (k : Nat) (m : Cmd) (d : Done) : State :=
  let st := if d.lost || m.lost then 3 else 2
  let s1 := if d.fl = 0 then d.s else d.s.engineFlags m.fibres d.fl
  let s1 := if s.ordered m then s1.drainTilesOf m.core fun b => b.cmd == k else s1
  match d.cause with
  | some c => match m.op with
    | .block b _ => match b.remote with
      | some _ => s1.finish k (0x8000 + c) none
      | none => s1.refuseCmd k m c (m.inner.getD m.op).firstAddr
    | op => s1.refuseCmd k m c op.firstAddr
  | none => match m.op, m.inner with
    | .block b _, some op =>
      let r : State × List (Addr × Nat × DWord) := match op with
        | .gatm _ _ _ _ _ _ => ((((s1.drainAt none (b.lo + 48) 8).passWr m.colour none (b.lo + 48) 8).logWrite (b.lo + 48) 8).storeKept (b.lo + 48)
            (leBytes 8 d.old.toNat), d.wrote ++ keptWrite (b.lo + 48) 8 d.old)
        | _ => (s1, d.wrote)
      (m.keys.foldl (fun s y => s.logAt m.spn m.wg y [d.old]
        (r.2 ++ keptWrite (b.lo + 6) 2 (BitVec.ofNat 64 st) ++ keptWrite (b.lo + 12) 4 0)) r.1).finishBlock k b.lo st
    | _, _ => s1.finish k st none
/-- A copy whose ends overlap keeps what its source holds as its first chunk begins, since its destination takes those bytes (R251, R369). -/
def State.keepSource (s : State) (k : Nat) (m : Cmd) (op : CmdOp) : State × Cmd :=
  if op.overlaps && m.snap.isNone then
    let r := s.snapshot m op
    (r.1.modCmd k fun c => { c with snap := some r.2 }, { m with snap := some r.2 })
  else (s, m)
/-- R369: one chunk of a running command, and then RESUME and STATUS 0x0001 in its block; the slot of a direct command shows both. -/
def State.chunk (s0 : State) (k : Nat) (m0 : Cmd) (op : CmdOp) : State :=
  let (s, m) := s0.keepSource k m0 op
  let x := s.partway k m op chunkGrain fun left => min 1 left
  if x.units = m.resume then s
  else
    let s1 := x.s.modCmd k fun c => { c with resume := x.units, lost := c.lost || x.lost }
    match m.op with
    | .block b _ => s1.blockStatus m.colour b.lo 1 (some x.units)
    | _ => s1
/-- Whether a running command that cannot be performed waits for nothing but room in a log (R390). -/
def State.onlyLog (s : State) (k : Nat) (m : Cmd) (op : CmdOp) : Bool :=
  (s.freeLogs.perform k m op).isSome
/-- A running command of a class completes, with the lines that fail from this step on; outside service mode chunk by chunk (R369, R370). -/
def completeCmd (k : Nat) (x : Cls) (fails : List LineFail) (s : State) : Result := match tget s.cmds k with
  | none => .next s
  | some m =>
    if m.phase != .running || m.cls != x then .next s
    else
      let t := s.failLines fails
      let op := m.inner.getD m.op
      match t.opAwaits m op with
      | some u => .next u
      | none =>
      if s.host.mode != 0 && decide (1 < t.chunksLeft m op) then .next (t.chunk k m op)
      else match t.perform k m op with
        | none => .next (s.waitOn k m (t.onlyLog k m op))
        | some d => .next (d.s.complete k m d)
/-- R128. -/
def execCopyComplete (k : Nat) (fails : List LineFail) (s : State) : Result := completeCmd k .ecp fails s
/-- R128, R255. -/
def execGatherScatterComplete (k : Nat) (fails : List LineFail) (s : State) : Result := completeCmd k .egs fails s
/-- R258. -/
def execMatrixComplete (k : Nat) (s : State) : Result := completeCmd k .emx [] s
/-- R261. -/
def execCollectiveComplete (k : Nat) (s : State) : Result := completeCmd k .ecl [] s
/-- R137. -/
def execNearMemoryComplete (k : Nat) (fails : List LineFail) (s : State) : Result := completeCmd k .enm fails s
/-- R128, R136. -/
def execAtomicSignalComplete (k : Nat) (s : State) : Result := completeCmd k .eat [] s

/-! ## The instructions -/

/-- R251. -/
def execCpy (o : CpyOp) (s : State) : Result :=
  issueEngine s o.c .ecp true false [] [] 1 (fun _ v _ =>
    .cpy (v.u.rdK o.kd.toNat) (v.u.rdK o.ka.toNat) (v.u.soff o.p) (v.u.doff o.p) (v.u.rd (o.p.toNat + 4)).toNat) noEvents
/-- R248. -/
def execCpyCmd (o : CpyCmdOp) (s : State) : Result :=
  issueEngine s o.c .ecp false false [] [] 1 (fun _ v _ => .block (v.u.rdK o.kc.toNat) (o.loc.map fun l => v.u.rdK l.toNat)) blockEvents
/-- The positions and indices of the active lanes of a gather or scatter. -/
def State.gsIdx (s : State) (v : Convoy) (act : List Ln) (o : GsOp) : List (Nat × Nat) :=
  act.map fun l => (l.pos, (s.src32 v l o.c.lit o.idx).toNat)
/-- R255. -/
def execGat (o : GsOp) (s : State) : Result :=
  issueEngine s o.c .egs true false (vregs o.idx false) (vlatches o.idx) (wordsOf o.lits) (fun s v act =>
    .gather (v.u.rdK o.kd.toNat) (v.u.rdK o.ka.toNat) (v.u.soff o.p) (v.u.doff o.p) (v.u.rd (o.p.toNat + 5)).toNat o.esz (s.gsIdx v act o))
    noEvents
/-- R255. -/
def execSct (o : GsOp) (s : State) : Result :=
  issueEngine s o.c .egs true false (vregs o.idx false) (vlatches o.idx) (wordsOf o.lits) (fun s v act =>
    .scatter (v.u.rdK o.kd.toNat) (v.u.rdK o.ka.toNat) (v.u.soff o.p) (v.u.doff o.p) (v.u.rd (o.p.toNat + 5)).toNat o.esz (s.gsIdx v act o))
    noEvents
/-- An mma form. -/
def mmaForm (s : State) (o : MmaOp) (fmt : MxFmt) : Result :=
  issueEngine s o.c .emx true false [] [] 1 (fun _ v _ =>
    .mma fmt o.f16 o.ad.toNat (v.u.rdK o.ka.toNat) (v.u.rdK o.kb.toNat) (v.u.group o.p)) noEvents
/-- R258. -/
def execMmaE4m3 (o : MmaOp) (s : State) : Result := mmaForm s o .e4m3
/-- R258. -/
def execMmaE5m2 (o : MmaOp) (s : State) : Result := mmaForm s o .e5m2
/-- R258. -/
def execMmaE2m1 (o : MmaOp) (s : State) : Result := mmaForm s o .e2m1
/-- R258. -/
def execMmaBf16 (o : MmaOp) (s : State) : Result := mmaForm s o .bf16
/-- R258. -/
def execMmaI8 (o : MmaOp) (s : State) : Result := mmaForm s o .i8
/-- R258, R36. -/
def execMmaT8 (o : MmaOp) (s : State) : Result := mmaForm s o .t8
/-- An mmac form. -/
def mmacForm (s : State) (o : MmacOp) (fmt : MxFmt) : Result :=
  issueEngine s o.c .emx true false [] [] 1 (fun _ v _ =>
    .mmac fmt o.f16 o.ad.toNat o.as.toNat (v.u.rdK o.kb.toNat) (v.u.group o.p)) noEvents
/-- R258, R39. -/
def execMmacE4m3 (o : MmacOp) (s : State) : Result := mmacForm s o .e4m3
/-- R258, R39. -/
def execMmacE5m2 (o : MmacOp) (s : State) : Result := mmacForm s o .e5m2
/-- R258, R39. -/
def execMmacE2m1 (o : MmacOp) (s : State) : Result := mmacForm s o .e2m1
/-- R258, R39. -/
def execMmacBf16 (o : MmacOp) (s : State) : Result := mmacForm s o .bf16
/-- R258, R39. -/
def execMmacI8 (o : MmacOp) (s : State) : Result := mmacForm s o .i8
/-- R258, R36, R39. -/
def execMmacT8 (o : MmacOp) (s : State) : Result := mmacForm s o .t8
/-- R260. -/
def execAclr (o : AclrOp) (s : State) : Result := issueEngine s o.c .emx true false [] [] 1 (fun _ _ _ => .aclr o.ad.toNat) noEvents
/-- R260. -/
def execAld (o : AldOp) (s : State) : Result :=
  issueEngine s o.c .emx true false [] [] 1 (fun _ v _ => .ald o.ad.toNat (v.u.rdK o.ka.toNat) (v.u.group o.p)) noEvents
/-- R260. -/
def execAst (o : AstOp) (s : State) : Result :=
  issueEngine s o.c .emx true false [] [] 1 (fun _ v _ => .ast (v.u.rdK o.kd.toNat) o.as.toNat (v.u.group o.p) o.fmt) noEvents
/-- R204; an instruction of group 2, whose command holds no slot (R165, R249). -/
def execSacc (o : SaccOp) (s : State) : Result :=
  issueEngine s o.c .emx false false [] [] (wordsOf o.lits) (fun _ v _ =>
    .sacc o.ad.toNat o.ap.toNat (sval v.u o.c.lit o.scale) o.i32) noEvents
/-- R204; an instruction of group 2, whose command holds no slot (R165, R249). -/
def execSaccV (o : SaccVOp) (s : State) : Result :=
  issueEngine s o.c .emx false false [] [] (wordsOf o.lits) (fun _ v _ =>
    .saccV o.ad.toNat o.ap.toNat (v.u.rdK o.ks.toNat) ((sval v.u o.c.lit o.o).toNat + 16 * o.off.toNat) o.i32) noEvents
/-- R261. -/
def execClx (o : ClxOp) (s : State) : Result :=
  issueEngine s o.c .ecl true false [] [] 1 (fun _ v _ =>
    .clx (v.u.rdK o.kd.toNat) (v.u.rdK o.ka.toNat) (v.u.soff o.p) (v.u.doff o.p) (v.u.rd (o.p.toNat + 4)).toNat (v.u.rd (o.p.toNat + 5))
      o.fn o.i32) noEvents
/-- R262, R433, R467. -/
def execNmc (o : NmcOp) (s : State) : Result :=
  issueEngine s o.c .enm true false [] [] 1 (fun _ v _ =>
    .nmc (v.u.rdK o.kt.toNat) (v.u.rdK o.kg.toNat) (v.u.soff o.p) (v.u.doff o.p) (v.u.rd (o.p.toNat + 4)).toNat (v.u.rd (o.p.toNat + 5))
      (v.u.rd (o.p.toNat + 6)) o.fn) (wideEvent (.gatm nullCap .add false false (.b 0) []))
/-- The lanes of gatm. -/
def State.gatmLanes (s : State) (v : Convoy) (act : List Ln) (o : GatmOp) : List GatmLane :=
  let ls := lits o.c.lit false o.o.isLit o.a.isLit
  act.map fun l =>
    let g := s.atomArgs v l ls.2.2 o.fn o.w64 o.a
    ⟨l.pos, l.id, (s.src32 v l ls.2.1 o.o).toNat, g.1, g.2⟩
/-- The events of gatm, one for each active lane: a lane found in the log takes its logged result at issue. -/
def gatmEvents (w64 : Bool) (d : VDst) (s : State) (v : Convoy) (act : List Ln) (op : CmdOp) : Looked := match op with
  | .gatm k fn w u dst lanes =>
    if !s.logRoom [] v.spn act.length then none
    else
      let r := lanes.foldl (fun (x : State × List GatmLane × List EventKey) l =>
        match (tget x.1.fibres l.fib).bind fun f => x.1.lookup f with
        | some e => ((x.1.replayEvent l.fib e).gatmResult l w64 d (e.result.headD 0), x.2.1, x.2.2)
        | none => let y := x.1.takeKey l.fib; (y.1, x.2.1 ++ [l], x.2.2 ++ y.2)) (s, [], [])
      some (r.1, .gatm k fn w u dst r.2.1, r.2.2)
  | _ => some (s, op, [])
/-- R263. -/
def execGatm (o : GatmOp) (s : State) : Result :=
  issueEngine s o.c .eat true true (dregs o.d o.w64 ++ vregs o.o false ++ atomRegs o.fn o.w64 o.a) (vlatches o.o ++ vlatches o.a)
    (wordsOf o.lits) (fun s v act => .gatm (v.u.rdK o.k.toNat) o.fn o.w64 o.u o.d (s.gatmLanes v act o)) (gatmEvents o.w64 o.d)
/-- R264. -/
def execSig (o : SigOp) (s : State) : Result :=
  let ls := lits o.c.lit false o.o.isLit o.v.isLit
  issueEngine s o.c .eat true true [] [] (wordsOf o.lits) (fun _ v _ =>
    .sig (v.u.rdK o.k.toNat) (sval v.u ls.2.1 o.o).toNat (sval v.u ls.2.2 o.v) o.add o.rel)
    (wideEvent (.gatm nullCap .add false false (.b 0) []))
/-- R252. -/
def execStage (o : StageOp) (s : State) : Result :=
  issueEngine s o.c .ecp true false [] [] (wordsOf o.lits) (fun _ v _ =>
    .stage (v.u.rdK o.k.toNat) (sval v.u o.c.lit o.i).toNat o.back) noEvents
/-- R253. -/
def execWb (o : WbOp) (s : State) : Result :=
  issueEngine s o.c .ecp true false [] [] 1 (fun _ v _ =>
    .wb (v.u.rdK o.k.toNat) (v.u.doff o.p) (v.u.rd (o.p.toNat + 4)).toNat o.inv) noEvents

/-! ## Waits (R265, R266, R309) -/

/-- The convoy waits at its word, or stops there when a yield request is pending. -/
def State.holdOrStop (s : State) (c : Nat) (v : Convoy) (w : Wait) : State := if v.yreq then s.hold c .yielded else s.hold c w
/-- R265: the checks of wsig, then its wait. -/
def execWsig (o : WsigOp) (s : State) : Result :=
  let ls := lits o.c.lit false o.o.isLit o.v.isLit
  issue s o.c [] [] fun i v _ =>
    let k := v.u.rdK o.k.toNat
    let off := (sval v.u ls.2.1 o.o).toNat
    let a := k.lo + off
    let bad := match k.remote with
      | some _ => s.capCause (s.colourOf v) k { kinds := [kindData], perms := permLd, sealOk := true } off 4
      | none => s.useCause (s.colourOf v) k {} permLd false off 4
    match bad with
    | some n => s.refusal i n 0 a 0
    | none =>
      if a % 4 ≠ 0 then s.trap i { cls := clsEngform, code := 0x0C, addr := a, source := 0x15 }
      else s.holdOrStop i v (.wsig { addr := a, remote := k.remote.map fun _ => k, cc := o.cc, v := sval v.u ls.2.2 o.v, acq := o.acq.isSome,
                                     q := o.q, tmo := o.tmo, since := s.now (dieOf v.spn), words := wordsOf o.lits })
/-- The condition of wsig. -/
def wccHolds (cc : WCC) (w v : Word) : Bool := match cc with
  | .eq => w == v
  | .ne => w != v
  | .ge => decide (v.toNat ≤ w.toNat)
  | .lt => decide (w.toNat < v.toNat)
/-- The wait ends. -/
def State.endWsig (s : State) (c : Nat) (w : WsigWait) (met : Bool) : State := (s.wrQ c w.q met).advance c w.words
/-- R265: a reread; one that does not meet the condition leaves no trace but the record of a line it found lost (R436). -/
def execWsigReread (c : Nat) (s : State) : Result := match s.mover c with
  | none => .next s
  | some v => match v.wait with
    | .wsig w => match w.remote with
      | some k =>
        let q := k.remote.getD 0
        if s.unreachable (s.colourOf v) q || s.stalled (s.colourOf v) q then .next s
        else
          let s1 := s.send (.access q (s.colourOf v) c k (.read (w.addr - k.lo) 4))
          match s.peerRefusal with
          | some n => .next (s1.refusal c n 0 w.addr 0)
          | none =>
            let x : Word := if Config.peerLost s.free then 0
              else BitVec.ofNat 32 (leNat ((List.range 4).map fun j => Config.peerByte s.free j))
            if wccHolds w.cc x w.v then .next (s1.endWsig c w true) else .next s
      | none =>
        match s.awaits [(w.addr, 4)] [] with
        | some t => .next t
        | none =>
          let r := (s.settleWrites v (entriesOn w.addr (w.addr + 4) false)).readWord (plainAgent (s.colourOf v)) .rd w.addr 4
          if wccHolds w.cc (BitVec.ofNat 32 r.2.1) w.v then .next (r.1.endWsig c w true) else if r.2.2 then .next s else .next r.1
    | _ => .next s
/-- R265. -/
def execWsigTimeout (c : Nat) (s : State) : Result := match s.mover c with
  | none => .next s
  | some v => match v.wait with
    | .wsig w =>
      if w.tmo ≠ 0 ∧ w.since + 2 ^ (w.tmo.toNat + 9) ≤ s.now (dieOf v.spn) then .next (s.endWsig c w false) else .next s
    | _ => .next s
/-- The end of a waitc for at most n commands: the refusal bit of its class traps (R425, point 1), else what completed is observed (R129). -/
def State.endWaitc (s : State) (c : Nat) (v : Convoy) (x : Cls) (n : Nat) : State :=
  if s.hasRef v x then s.engref c v x else (s.observe v x n).advance c 1
/-- R266. -/
def execWaitc (o : WaitcOp) (s : State) : Result :=
  issue s o.c [] [] fun i v _ => match o.cls with
    | none => s.advance i 1
    | some x => if s.counter v x ≤ o.thr.toNat then s.endWaitc i v x o.thr.toNat else s.holdOrStop i v (.waitc x o.thr.toNat)
/-- R266. -/
def execWaitcRelease (c : Nat) (s : State) : Result := match s.mover c with
  | none => .next s
  | some v => match v.wait with
    | .waitc x n => if s.counter v x ≤ n then .next ((s.hold c .run).endWaitc c v x n) else .next s
    | _ => .next s

/-! ## revoke (R68–R71, R267) -/

/-- Entries for `revoke`, entries for recalls, and entries at which a pass begins its sweep. -/
def revokeEntries : Nat := 256
def recallEntries : Nat := 32
def passEntries : Nat := 64
/-- Changes a pass. -/
def State.modPass (s : State) (n : Nat) (f : Pass → Pass) : State := { s with rev := { s.rev with passes := tmod s.rev.passes n f } }
/-- The packages in the export map of a colour. -/
def State.exportsOf (s : State) (colour : Nat) : List Nat := ((tget s.worlds colour).map (·.exports)).getD []
/-- A pass begins its sweep: for each colour of its entries a recall of all their ranges goes to every package marked in the colour's export
map (R71), once for each; a recall pass sends none. -/
def State.beginPass (s : State) (n : Nat) : State := match tget s.rev.passes n with
  | none => s
  | some p =>
    let es := s.rev.entries.filter fun e => e.pass == n && e.owner.isNone
    let msgs := ((es.flatMap (·.colours)).eraseDups).flatMap fun c => (s.exportsOf c).map fun q =>
      (q, c, (es.filter fun e => e.colours.contains c).map fun e => (e.base, e.len))
    let s1 := msgs.foldl (fun s x => (s.send (.recall x.1 x.2.1 x.2.2)).count x.2.1 5 4 1) s
    if p.begun then s else s1.modPass n fun p => { p with begun := true, recalls := msgs.map fun x => (x.1, x.2.1) }
/-- The unfinished commands that use a capability an entry catches (R70). -/
def State.usersOf (s : State) (e : RevEntry) : List Nat :=
  (s.cmds.filter fun x => x.2.live && x.2.phase != .performed && (s.capsOf x.2).any fun k => e.catches k).map (·.1)
/-- The pass a new entry joins: the newest that has not begun its sweep and is not a recall's; else a new one. -/
def State.joinPass (s : State) (die : Nat) : Nat × State :=
  match (s.rev.passes.reverse.find? fun p => !p.2.begun && p.2.ack.isNone) with
  | some p => (p.1, s)
  | none =>
    let n := s.rev.next
    (n, { s with rev := { s.rev with next := n + 1, passes := tput s.rev.passes n { opened := s.now die, die := die } } })
/-- Enters a range into a pass. -/
def State.addEntry (s : State) (e : RevEntry) : State := { s with rev := { s.rev with entries := s.rev.entries ++ [e] } }
/-- Why a `.sig` word is refused: the checks of `sig set`. -/
def State.sigWordCause (s : State) (colour : Nat) (k : Cap) (off : Nat) : Option Nat :=
  match s.useRefusal colour { k := k, perms := permSt, write := true, reach := { host := false }, remote := true, ranges := [(off, 4)] } with
  | some x => some x.1
  | none => if (k.lo + off) % 4 ≠ 0 then some 0x0C else none
/-- R267. -/
def execRevoke (o : RevokeOp) (s : State) : Result :=
  issue s o.c [] [] fun i v _ =>
    let k := v.u.rdK o.k.toNat
    let colour := s.colourOf v
    let sg := o.sg.map fun x => (v.u.rdK x.1.toNat, (sval v.u o.c.lit x.2).toNat)
    match s.capCause colour k { kinds := [kindData], perms := permDeleg } 0 0, sg.bind fun x => (s.sigWordCause colour x.1 x.2).map fun n => (n, x.1.lo + x.2) with
    | some n, _ => s.refusal i n 0 k.lo 0
    | none, some (n, a) => s.refusal i n 0 a 0
    | none, none =>
      if revokeEntries ≤ (s.rev.entries.filter fun e => e.owner.isNone).length then s.hold i .revoke
      else
        let (n, s1) := s.joinPass (dieOf v.spn)
        let s2 := (s1.addEntry { base := k.lo, len := k.len, colours := [k.colour.toNat], pass := n }).modPass n fun p =>
          { p with sigs := p.sigs ++ sg.toList }
        let s3 := if passEntries ≤ (s2.rev.entries.filter fun e => e.pass == n).length then s2.beginPass n else s2
        (s3.wrS i o.sd.toNat (BitVec.ofNat 32 n)).advance i (match o.sg with
          | some (_, x) => wordsOf x.isLit
          | none => 1)

end Sys2Proof.Machine
end

