-- ==== Sys2Proof/Machine/Queue.lean ====
section
/-! DEFINITION. The edge-queue instructions (R274–R278, R290, R377, R417, R440–R443), on queues of this package and of peers (R65). -/

namespace Sys2Proof.Machine

/-! ## Checks (R55, R443) -/

/-- The cause by which a use of a queue capability is refused: the capability, then where the bytes lie; a header and slots are reached
like the words of an engine atomic. A use that writes a queue in an extent-map table needs MAP (R49). -/
def State.queueCause (s : State) (colour : Nat) (k : Cap) (perms : BitVec 16) (o n : Nat) : Option Nat :=
  minCause (s.capCause colour k { kinds := [kindQueue], perms := perms, sealOk := k.remote.isSome } o n)
    (match k.remote with
     | some q => if s.unreachable colour q then some 0x09 else none
     | none => minCause (s.rangeCause colour false { host := false } true (k.lo + o) n)
         (if perms &&& permSt = permSt then s.mapCause k (k.lo + o) n else none))
/-- The cause by which a record buffer is refused. -/
def State.bufCause (s : State) (colour : Nat) (k : Cap) (write : Bool) (o n : Nat) : Option Nat :=
  s.useCause colour k {} (if write then permSt else permLd) write o n
/-- Whether a queue's header is inconsistent (R443). -/
def State.headerBad (s : State) (b : Addr) : Bool := (s.qhdr b).bad
/-- Whether a queue's header lies on a line that delivers nothing to a colour (R436). -/
def State.headerLost (s : State) (colour : Nat) (b : Addr) : Bool := (linesOf b 64).any fun l => !s.mscHit colour l && !(s.meetLine colour l).2.1
/-- A convoy as a party that accesses memory. -/
def State.convoyAgent (s : State) (v : Convoy) : Agent := plainAgent (s.colourOf v)

/-! ## Header and slot writes -/

/-- Writes of the header and slots of a queue: the lines are accessed, and the undo log is kept. TWIN has no effect on a queue (R51). -/
def State.onQueue (s : State) (ag : Agent) (a n : Nat) (f : State → State) : State :=
  let s0 := (s.drainAt none a n).wakeRange a n
  f ((((s0.fillPages ag.colour (s0.marked [(a, n)])).noteWritten ag.colour a n).readLines ag .at_ a n).1.logWrite a n)
/-- A header write. -/
def State.onHeader (s : State) (ag : Agent) (k : Cap) (f : State → State) : State := s.onQueue ag k.lo 64 f
/-- An inconsistent header is found through a capability of a world: ERR cause 0x0C, and a QFAULT record for the hypervisor and that world
(R439, R443; log entry 25). -/
def State.headerFault (s : State) (ag : Agent) (source : BitVec 8) (b : Addr) : State :=
  (s.onQueue ag b 64 fun s => s.qerr b 0x0C 0).record { source := source, cls := 0x31, colour := ag.colour, recov := 0, addr := b } true
/-- A REFUSED trap for an inconsistent header (R443). -/
def State.headerTrap (s : State) (c : Nat) (v : Convoy) (b : Addr) : State := (s.headerFault (s.convoyAgent v) 0x02 b).refusal c 0x0C 0 b 0
/-- A header on a lost line is met: the read is recorded, and no convoy traps (R436); the instruction then ends as one that found no room,
no record or no slot (log entry 89). -/
def State.meetHeader (s : State) (v : Convoy) (b : Addr) : State := (s.readLines (s.convoyAgent v) .at_ b 64).1
/-- The outcome of a queue instruction in `q[DST]`. -/
def State.setQ (s : State) (c : Nat) (q : Option (BitVec 2)) (v : Bool) : State := match q with
  | some n => s.wrQ c n v
  | none => s
/-- Enters a convoy-wide event with its outcome for every fibre (R389). -/
def State.logWide (s : State) (v : Convoy) (ok : Bool) : State :=
  (s.lanes v).foldl (fun s l => s.logEvent l.id [if ok then 1 else 0] []) s

/-! ## qpush and launch (R277, R278) -/

/-- A push ends with an outcome: logged, in `q[DST]`, and past the word into the next region. -/
def State.endPush (s : State) (c : Nat) (v : Convoy) (w : QueueWait) (ok : Bool) : State :=
  ((s.logWide v ok).setQ c w.q ok).endRegion c w.words
/-- Publishes a reservation once TAIL has reached it, a release at `.pkg` (R134, R277). -/
def State.tryPublish (s : State) (c : Nat) (v : Convoy) (w : QueueWait) (start : Nat) : State :=
  if (s.qhdr w.kq.lo).tail = start then
    ((s.releaseAll v .pkg).onHeader (s.convoyAgent v) w.kq fun s => s.qpublish w.kq.lo start w.n).endPush c v w true
  else s.hold c (.queue { w with start := some start })
/-- Sets bits 9:8 of a record's first slot, and for `launch` its TYPE; a granule that this changes is a plain write. -/
def State.headRecord (s : State) (a n : Nat) (launch : Bool) : State :=
  let old := leNat (s.rdHome a 2)
  let new := old / 1024 * 1024 + (n - 1) * 256 + (if launch then 2 else old % 256)
  if new = old then s else s.wrHome a (leBytes 2 new)
/-- The reservation, the skip record and the slot copies of a push, then its publication. The convoy's own writes to the buffer come
first (R125). -/
def State.reservePush (s0 : State) (c : Nat) (v : Convoy) (w : QueueWait) : State :=
  let s := (s0.releaseAll v .lane).wakeRange (w.kr.lo + w.off) (64 * w.n)
  let b := w.kq.lo
  let h := s.qhdr b
  let ag := s.convoyAgent v
  let slot := slotAddr b (h.first h.rsv w.n)
  let s1 := s.onQueue ag b (if h.pad w.n = 0 then 64 else slotAddr b (h.rsv % h.cap) + 64 - b) fun s => (s.qreserve b w.n).2
  let s2 := (s1.moveElems ag false
    [⟨some (w.kr.lo + w.off), slot, 64 * w.n, tagEnds w.kr w.kq w.off (slot - b)⟩]).1
  (s2.onQueue ag slot 64 fun s => s.headRecord slot w.n w.launch).tryPublish c v w h.rsv
/-- One attempt at a push: buffer, header, size, room, slots, then the reservation. -/
def State.tryPush (s : State) (c : Nat) (v : Convoy) (w : QueueWait) : State :=
  let colour := s.colourOf v
  let b := w.kq.lo
  let h := s.qhdr b
  match s.queueCause colour w.kq (permLd ||| permSt) 0 64, s.bufCause colour w.kr false w.off (64 * w.n) with
  | some x, some y => if y < x then s.refusal c y 0 (w.kr.lo + w.off) 0 else s.refusal c x 0 b 0
  | some x, none => s.refusal c x 0 b 0
  | none, some y => s.refusal c y 0 (w.kr.lo + w.off) 0
  | none, none =>
    if s.headerLost colour b then (if s.logRoom [] v.spn (s.lanes v).length then (s.meetHeader v b).endPush c v w false else s.holdLog c 0)
    else if s.headerBad b then s.headerTrap c v b
    else
      let slot := slotAddr b (h.first h.rsv w.n)
      let pads := if h.pad w.n = 0 then [] else linesOf (slotAddr b (h.rsv % h.cap)) 64
      match s.awaits [(w.kr.lo + w.off, 64 * w.n)] [(b, 64), (slot, 64 * w.n)] with
      | some t => t.holdOrStop c v (.queue w)
      | none =>
      if !s.logRoom (linesOf b 64 ++ pads ++ linesOf slot (64 * w.n)) v.spn (s.lanes v).length then s.holdLog c 0
      else if h.cap < w.n then
        (s.onHeader (s.convoyAgent v) w.kq fun s => s.qerr b 0x0B (h.rsv % h.cap)).endPush c v w false
      else if !h.room w.n then
        if w.nb then s.endPush c v w false else s.holdOrStop c v (.queue w)
      else
        let pad := if h.pad w.n = 0 then none
          else s.queueCause colour w.kq (permLd ||| permSt) (64 + 64 * (h.rsv % h.cap)) 64
        match minCause pad (s.queueCause colour w.kq (permLd ||| permSt) (slot - b) (64 * w.n)) with
        | some n => s.refusal c n 0 slot 0
        | none => s.reservePush c v w
/-- The granules of a record to be forwarded to package p: a bale for it travels with its tag, any other tag stays behind (R52, R62, R290). -/
def State.recordOf (s : State) (ag : Agent) (kr kq : Cap) (off n p : Nat) : List (BitVec 128 × Bool) :=
  let a := kr.lo + off
  let bs := (s.bytesAt ag [] a (64 * n)).map fun x => x.getD 0
  (List.range (4 * n)).map fun i =>
    (BitVec.ofNat 128 (leNat ((bs.drop (16 * i)).take 16)),
     tagEnds kr kq off 0 && a % 16 == 0 && tagHome a && (let c := s.filter (s.seenCap none (a + 16 * i)); c.tag && c.bale == some p))
/-- Marks a package in the export map of every colour whose bale a record carries, and counts the bales (R62, R337). -/
def State.noteExports (s : State) (colour p : Nat) (r : List (BitVec 128 × Bool)) : State :=
  (r.filter (·.2)).foldl (fun s g => (s.count colour 5 2 1).markExport (Cap.mk g.1 true).colour.toNat p) s
/-- Forwards a queue access to its package, and waits for the acknowledgement (R65, R277). -/
def State.forwardQueue (s : State) (c : Nat) (v : Convoy) (k : Cap) (q : Nat) (acc : RemoteAcc) (w : RemoteWait) : State :=
  (s.send (.access q (s.colourOf v) c k acc)).hold c (.remote w)
/-- A push on a peer's queue: the local checks, then the forwarded access. An unreachable package refuses it (R459). -/
def State.remotePush (s : State) (c : Nat) (v : Convoy) (w : QueueWait) (p : Nat) : State :=
  let colour := s.colourOf v
  match s.queueCause colour w.kq (permLd ||| permSt) 0 64, s.bufCause colour w.kr false w.off (64 * w.n) with
  | some 0x09, none =>
    let s1 := s.noRoute colour p
    if w.launch then s1.refusal c 0x09 0 w.kq.lo 0 else s1.endPush c v w false
  | some x, some y => if y < x then s.refusal c y 0 (w.kr.lo + w.off) 0 else s.refusal c x 0 w.kq.lo 0
  | some x, none => s.refusal c x 0 w.kq.lo 0
  | none, some y => s.refusal c y 0 (w.kr.lo + w.off) 0
  | none, none =>
    match s.awaits [(w.kr.lo + w.off, 64 * w.n)] [] with
    | some t => t.hold c (.access (coreOf v.spn) [])
    | none =>
    if !s.logRoom [] v.spn (s.lanes v).length then s.holdLog c 0
    else
      let s0 := ((s.releaseAll v .pod).readLines (s.convoyAgent v) .rd (w.kr.lo + w.off) (64 * w.n)).1
      let r := s0.recordOf (s.convoyAgent v) w.kr w.kq w.off w.n p
      let r' := match r with
        | (g, t) :: rest =>
          let g' := BitVec.ofNat 128 (g.toNat / 1024 * 1024 + (w.n - 1) * 256 + (if w.launch then 2 else g.toNat % 256))
          (g', t && g' == g) :: rest
        | [] => []
      (s0.noteExports colour p r').forwardQueue c v w.kq p (.qpush r' w.nb) { pkg := p, q := w.q, sd := none, buf := none, launch := w.launch, words := w.words, header := w.kq.lo }
/-- A push as it issues: its buffer may be held by an engine's access (R108); an event performed before a rollback is not
performed again (R391). -/
def pushForm (s : State) (c : Ctl) (w : Convoy → QueueWait) (n : Nat) : Result :=
  issueEnd s c [] [] n fun i v _ =>
    let x := w v
    let lo := x.kr.lo + x.off
    match (s.lanes v).head?.bind fun l => s.lookup l.f with
    | some e => (((s.lanes v).foldl (fun s l => s.replayEvent l.id e) s).setQ i x.q (e.result.headD 0 != 0)).endRegion i n
    | none =>
      if s.rangesHeld (coreOf v.spn) [(lo, lo + 64 * x.n, false)] then s.hold i (.access (coreOf v.spn) [(lo, lo + 64 * x.n, false)])
      else match x.kq.remote with
        | some p => s.remotePush i v x p
        | none => s.tryPush i v x
/-- R277. -/
def execQpush (o : QpushOp) (s : State) : Result :=
  pushForm s o.c (fun v =>
    { push := true, nb := o.nb, launch := false, kq := v.u.rdK o.kq.toNat, kr := v.u.rdK o.kr.toNat,
      off := (sval v.u o.c.lit o.so).toNat, n := o.n1.toNat + 1, q := some o.q, words := wordsOf o.so.isLit }) (wordsOf o.so.isLit)
/-- R278. -/
def execLaunchOp (o : LaunchOp) (s : State) : Result :=
  pushForm s o.c (fun v =>
    { push := true, nb := false, launch := true, kq := v.u.rdK o.kq.toNat, kr := v.u.rdK o.kr.toNat,
      off := (sval v.u o.c.lit o.so).toNat, n := 4, q := none, words := wordsOf o.so.isLit }) (wordsOf o.so.isLit)
/-- R277. -/
def execQpushRetry (c : Nat) (s : State) : Result := match tget s.convoys c with
  | none => .next s
  | some v => match v.wait with
    | .queue w => match w.push, w.start with
      | true, some st => if (s.qhdr w.kq.lo).tail = st then .next (s.tryPublish c v w st) else .next s
      | true, none => if (s.mover c).isNone then .next s else .next (s.tryPush c v w)
      | false, _ => .next s
    | _ => .next s

/-! ## qpop (R278, R441) -/

/-- The slots of the record at an index, by its NSLOT. -/
def State.nslot (s : State) (b i : Nat) : Nat := leNat (s.rdHome (slotAddr b i) 2) / 256 % 4 + 1
/-- The TYPE of the record at an index. -/
def State.recType (s : State) (b i : Nat) : Nat := leNat (s.rdHome (slotAddr b i) 1)
/-- A record that the consumer finds: its slots, the cause that rejects it, the slots consumed, and whether it is a skip record. -/
structure Found where
  m : Nat
  cause : Nat
  k : Nat
  skip : Bool
  deriving DecidableEq, Repr
/-- The record at CRSV (R441). -/
def State.found (s : State) (b : Addr) : Found :=
  let h := s.qhdr b
  let i := h.crsv % h.cap
  let m := s.nslot b i
  let left := sub32 h.tail h.crsv
  let cause := if i + m > h.cap then 0x09 else if m > left then 0x0A else 0
  ⟨m, cause, min m left, s.recType b i == 0⟩
/-- The release of a consumer: HEAD past its slots, FREE updated. -/
def State.qrelease (s : State) (b start n : Nat) : State := (s.putQword b 4 (start + n)).qfree b
/-- A pop ends without a record; executed again it runs in full (R377). -/
def State.endEmpty (s : State) (c : Nat) (v : Convoy) (q : Option (BitVec 2)) (words : Nat) : State :=
  (((s.lanes v).foldl (fun s l => s.modFibre l.id fun f => { f with pops := f.pops + 1 }) s).setQ c q false).advance c words
/-- A pop delivers: the record is held for a re-execution (R377), `q[DST]` is 1. -/
def State.endPop (s : State) (c : Nat) (v : Convoy) (q : Option (BitVec 2)) (words : Nat) (slots : List (BitVec 128 × Bool)) : State :=
  (((s.lanes v).foldl (fun s l => s.logPop l.id slots) s).setQ c q true).advance c words
/-- Writes a record into a pop's buffer, its tags through the filter. -/
def State.putRecord (s : State) (ag : Agent) (k : Cap) (off : Nat) (slots : List (BitVec 128 × Bool)) : State :=
  let tags := (List.range slots.length).filter fun i => match slots[i]? with
    | some g => g.2 && (s.filter ⟨g.1, true⟩).tag
    | none => false
  (s.writeRange ag (k.has permTwin) (k.lo + off) ((slots.flatMap fun g => leBytes 16 g.1.toNat).map some) tags).1
/-- The end of a pop whose reservation HEAD has reached: its copy when the record is delivered, and its release. -/
def State.takeRecord (s : State) (c : Nat) (v : Convoy) (w : QueueWait) (start : Nat) : State :=
  let b := w.kq.lo
  let h := s.qhdr b
  let ag := s.convoyAgent v
  let a := slotAddr b (start % h.cap)
  let free (s : State) : State := s.onHeader ag w.kq fun s => s.qrelease b start w.n
  match s.bufCause (s.colourOf v) w.kr true w.off (64 * w.n) with
  | some n => (free s).refusal c n 0 (w.kr.lo + w.off) 0
  | none =>
    let s1 := ((s.wakeRange (w.kr.lo + w.off) (64 * w.n)).moveElems ag (w.kr.has permTwin)
      [⟨some a, w.kr.lo + w.off, 64 * w.n, tagEnds w.kq w.kr (a - b) w.off⟩]).1
    (free s1).endPop c v w.q w.words ((s1.rdCaps (w.kr.lo + w.off) (4 * w.n)).map fun k => (k.bits, k.tag))
/-- The consumer's reservation of k slots. -/
def State.reservePop (s : State) (v : Convoy) (w : QueueWait) (start k : Nat) : State :=
  s.onHeader (s.convoyAgent v) w.kq fun s => s.putQword w.kq.lo 3 (start + k)
/-- Attempts at a pop: records that are skipped or rejected are released, and the next is tried; `fuel` bounds them by the slots. -/
def State.tryPop (c : Nat) (v : Convoy) (w : QueueWait) : Nat → State → State
  | 0, s => s.holdOrStop c v (.queue w)
  | fuel + 1, s =>
    let b := w.kq.lo
    let h := s.qhdr b
    match s.queueCause (s.colourOf v) w.kq (permLd ||| permSt) 0 64 with
    | some n => s.refusal c n 0 b 0
    | none =>
      if s.headerLost (s.colourOf v) b then (s.meetHeader v b).endEmpty c v w.q w.words
      else if s.headerBad b then s.headerTrap c v b
      else if h.crsv = h.tail then (if w.nb then s.endEmpty c v w.q w.words else s.holdOrStop c v (.queue w))
      else
        let f := s.found b
        let a := slotAddr b (h.crsv % h.cap)
        match s.awaits [(a, 64 * f.m)] [(b, 64), (w.kr.lo + w.off, 64 * f.m)] with
        | some t => t.holdOrStop c v (.queue w)
        | none =>
        match s.queueCause (s.colourOf v) w.kq (permLd ||| permSt) (a - b) (64 * min f.m (h.cap - h.crsv % h.cap)) with
        | some n => s.refusal c n 0 a 0
        | none =>
          let lo := w.kr.lo + w.off
          if !s.logRoom (linesOf b 64 ++ linesOf lo (64 * f.m)) v.spn ((s.lanes v).length * (1 + 2 * f.m)) then s.holdLog c 0
          else if f.cause = 0 && !f.skip then
            if s.rangesHeld (coreOf v.spn) [(lo, lo + 64 * f.m, true)] then s.hold c (.access (coreOf v.spn) [(lo, lo + 64 * f.m, true)])
            else
              let s1 := s.reservePop v w h.crsv f.m
              let w1 := { w with n := f.m }
              if h.head = h.crsv then s1.takeRecord c v w1 h.crsv else s1.hold c (.queue { w1 with start := some h.crsv })
          else
            let s0 := if f.cause = 0 then s
              else s.onHeader (s.convoyAgent v) w.kq fun s => s.qerr b f.cause (h.crsv % h.cap)
            let s1 := s0.reservePop v w h.crsv f.k
            if h.head = h.crsv then
              State.tryPop c v w fuel (s1.onHeader (s.convoyAgent v) w.kq fun s => s.qrelease b h.crsv f.k)
            else s1.hold c (.queue { w with n := f.k, start := some h.crsv, deliver := false })
/-- The most records that one attempt passes: every one takes a slot. -/
def popFuel : Nat := 65537
/-- A pop that is executed again: its record is written into its buffer, and no slot is reserved; it stays held until the next region
entry. -/
def State.replayPop (s : State) (c : Nat) (v : Convoy) (w : QueueWait) (slots : List (BitVec 128 × Bool)) : State :=
  match s.bufCause (s.colourOf v) w.kr true w.off (16 * slots.length) with
  | some n => s.refusal c n 0 (w.kr.lo + w.off) 0
  | none =>
    let s1 := s.putRecord (s.convoyAgent v) w.kr w.off slots
    (((s.lanes v).foldl (fun s l => s.modFibre l.id fun f =>
      { f with ordn := f.ordn + 1, pops := f.pops + 1, popped := tput f.popped f.pops slots }) s1).setQ c w.q true).advance c w.words
/-- R278, R377. -/
def execQpop (o : QpopOp) (s : State) : Result :=
  issue s o.c [] [] fun i v _ =>
    let w : QueueWait := { push := false, nb := o.nb, launch := false, kq := v.u.rdK o.kq.toNat, kr := v.u.rdK o.kr.toNat,
                           off := (sval v.u o.c.lit o.so).toNat, n := 0, q := some o.q, words := wordsOf o.so.isLit }
    match (s.lanes v).head?.bind fun l => s.poppedBefore l.f with
    | some slots => s.replayPop i v w slots
    | none => match w.kq.remote with
      | none => State.tryPop i v w popFuel s
      | some p => match s.queueCause (s.colourOf v) w.kq (permLd ||| permSt) 0 64 with
        | some 0x09 => (s.noRoute (s.colourOf v) p).endEmpty i v w.q w.words
        | some n => s.refusal i n 0 w.kq.lo 0
        | none =>
          if !s.logRoom (linesOf (w.kr.lo + w.off) 256) v.spn ((s.lanes v).length * 9) then s.holdLog i 0
          else s.forwardQueue i v w.kq p (.qpop o.nb)
            { pkg := p, q := some o.q, sd := none, buf := some (w.kr, w.off), launch := false, words := w.words, header := w.kq.lo }
/-- R278. -/
def execQpopRetry (c : Nat) (s : State) : Result := match tget s.convoys c with
  | none => .next s
  | some v => match v.wait with
    | .queue w => match w.push, w.start with
      | false, some st =>
        if (s.qhdr w.kq.lo).head ≠ st then .next s
        else if w.deliver then .next (s.takeRecord c v w st)
        else .next (State.tryPop c v { w with start := none, deliver := true, n := 0 } popFuel
          (s.onHeader (s.convoyAgent v) w.kq fun s => s.qrelease w.kq.lo st w.n))
      | false, none => if (s.mover c).isNone then .next s else .next (State.tryPop c v w popFuel s)
      | true, _ => .next s
    | _ => .next s

/-! ## qslots, and acknowledgements of peers -/

/-- R278. -/
def execQslots (o : QslotsOp) (s : State) : Result :=
  issue s o.c [] [] fun i v _ =>
    let k := v.u.rdK o.kq.toNat
    let out (s : State) (x : Nat) : State := (s.wrS i o.sd.toNat (BitVec.ofNat 32 x)).advance i 1
    match s.queueCause (s.colourOf v) k permLd 0 64, k.remote with
    | some 0x09, some p => out (s.noRoute (s.colourOf v) p) 0
    | some n, _ => s.refusal i n 0 k.lo 0
    | none, some p => s.forwardQueue i v k p .qslots { pkg := p, q := none, sd := some o.sd, buf := none, launch := false, words := 1, header := k.lo }
    | none, none => match s.awaits [(k.lo, 64)] [] with
      | some t => t.hold i (.access (coreOf v.spn) [])
      | none =>
        if s.headerLost (s.colourOf v) k.lo then out (s.meetHeader v k.lo) 0
        else if s.headerBad k.lo then s.headerTrap i v k.lo
        else out (s.readLines (s.convoyAgent v) .rd k.lo 64).1 (s.qhdr k.lo).free
/-- The result of a forwarded queue instruction reaches its convoy; an inconsistent header traps as one of this package does (R443). -/
def State.takeAck (s : State) (c : Nat) (v : Convoy) (w : RemoteWait) (a : QueueAck) : State :=
  let ok := a.cause == 0 && a.ok
  if a.cause = 0x0C then s.refusal c 0x0C 0 w.header 0
  else match w.sd, w.buf with
  | some d, _ => (s.wrS c d.toNat (if a.cause = 0 then a.val else 0)).advance c w.words
  | none, some (k, off) =>
    if !ok then s.endEmpty c v w.q w.words
    else
      let slots := a.slots.map fun g => (g.1, false)
      match s.bufCause (s.colourOf v) k true off (16 * slots.length) with
      | some n => s.refusal c n 0 (k.lo + off) 0
      | none => (s.putRecord (s.convoyAgent v) k off slots).endPop c v w.q w.words slots
  | none, none =>
    if w.launch && a.cause != 0 then s.refusal c a.cause 0 w.header 0
    else ((s.logWide v ok).setQ c w.q ok).endRegion c w.words
/-- R277, R65. -/
def execForwardedQueueAckReceive (c : Nat) (a : QueueAckMsg) (s : State) : Result :=
  .next (s.once a.at_.on a.at_.seq fun s => match tget s.convoys c with
    | none => s
    | some v => match v.wait with
      | .remote w => s.takeAck c v w a.ack
      | _ => s)

end Sys2Proof.Machine
end

