-- ==== Sys2Proof/Machine/System.lean ====
section
/-! DEFINITION. The system registers (R9, R29, R74, R97, R102, R111–R119, R282–R284, R418): the map, reads and writes of each view, and
sysrd and syswr. -/

namespace Sys2Proof.Machine

/-! ## The map (R283) -/

/-- A register of the map. -/
inductive SysReg where
  | locid
  | fibid
  | wgid
  | fpstat
  | bwphase
  | lncur
  | repcnt
  | mxseq
  | sweepdone
  | temperiv
  | acprog (t : Nat) (high : Bool)
  | pmap (g : Nat)
  | bfence (k : Nat)
  | ydeadl
  | mscrecl
  | monS (m : Nat)
  | monO (m : Nat)
  | monH (m : Nat)
  | vda (v : Nat)
  | vdb (v : Nat)
  deriving DecidableEq, Repr

/-- The register of a number below 0x800. -/
def sysReg (n : Nat) : Option SysReg :=
  if n = 0x000 then some .locid
  else if n = 0x001 then some .fibid
  else if n = 0x002 then some .wgid
  else if n = 0x003 then some .fpstat
  else if n = 0x004 then some .bwphase
  else if n = 0x005 then some .lncur
  else if n = 0x006 then some .repcnt
  else if n = 0x007 then some .mxseq
  else if n = 0x008 then some .sweepdone
  else if n = 0x009 then some .temperiv
  else if 0x010 ≤ n ∧ n < 0x030 then some (.acprog ((n - 0x010) / 2) (n % 2 == 1))
  else if 0x040 ≤ n ∧ n < 0x040 + 86 then some (.pmap (n - 0x040))
  else if 0x400 ≤ n ∧ n < 0x408 then some (.bfence (n - 0x400))
  else if n = 0x408 then some .ydeadl
  else if n = 0x410 then some .mscrecl
  else if 0x411 ≤ n ∧ n < 0x41D then
    some (if (n - 0x411) % 3 = 0 then .monS ((n - 0x411) / 3) else if (n - 0x411) % 3 = 1 then .monO ((n - 0x411) / 3) else .monH ((n - 0x411) / 3))
  else if 0x500 ≤ n ∧ n < 0x600 then some (.vda (n - 0x500))
  else if 0x600 ≤ n ∧ n < 0x700 then some (.vdb (n - 0x600))
  else none
/-- Whether a view may write a register. -/
def SysReg.writable (host : Bool) : SysReg → Bool
  | .fpstat => true
  | .bwphase => true
  | .temperiv => host
  | .pmap _ => host
  | .ydeadl => host
  | .mscrecl => host
  | .monS _ => host
  | .monO _ => host
  | .monH _ => host
  | .vda _ => host
  | .vdb _ => host
  | .locid => false
  | .fibid => false
  | .wgid => false
  | .lncur => false
  | .repcnt => false
  | .mxseq => false
  | .sweepdone => false
  | .acprog _ _ => false
  | .bfence _ => false

/-! ## Bank sets (R116–R119) -/

/-- LEVEL of a bank set (R117). -/
def State.level (s : State) (g : Nat) : Nat :=
  ((s.wgs.filter fun w => w.2.resident && w.2.touched.contains g).map fun w => w.2.bwphase.toNat).foldl max (s.bankSet g).floor.toNat
/-- PMAPg; the tenant's view reaches LEVEL and STATE alone (R1). -/
def State.pmapWord (s : State) (host : Bool) (g : Nat) : Word :=
  let b := s.bankSet g
  BitVec.ofNat 32 (s.level g * 512 + b.state.toNat +
    if host then b.floor.toNat * 64 + (if b.alloc then 32 else 0) + (if b.fw then 16 else 0) else 0)
/-- Clears or sets ALLOC: off with the set's lines written back, after which the slices hold them no more (the model's choice, log entry
74); or awake from P3 with every page marked (R119). A set of firmware memory keeps ALLOC. -/
def State.setAlloc (s : State) (g : Nat) (on : Bool) : State :=
  let b := s.bankSet g
  let in_ (x : MscLine) : Bool := decide (x.line / gib6 = g)
  if on && !b.alloc then
    ((s.markPages (g * gib6) (min gib6 (0x80_0000_0000 - g * gib6))).modBank g fun b => { b with alloc := true, state := 3 }).wake [g]
  else if !on && b.alloc && !b.fw then
    let t := s.writeBack in_ in_
    { t with hbm := { t.hbm with posted := t.hbm.posted.filter fun p => p.addr / gib6 != g } }.modBank g fun b =>
      { b with alloc := false, state := 3, waking := none }
  else s
/-- A write of PMAPg: FLOOR and ALLOC (R116). -/
def State.setPmap (s : State) (g : Nat) (v : Word) : State :=
  (s.modBank g fun b => { b with floor := v.extractLsb' 6 3 }).setAlloc g (v.getLsbD 5)
/-- A write of BWPHASE: raising it wakes every set of the new level that the workgroup touched (R117). -/
def State.setBwphase (s : State) (w : Nat) (v : BitVec 3) : State := match tget s.wgs w with
  | none => s
  | some g =>
    let s1 := s.modWg w fun g => { g with bwphase := v }
    let gs := if g.bwphase.toNat < v.toNat then
        g.touched.filter fun x => s1.level x == v.toNat && ((s1.bankSet x).state == 1 || (s1.bankSet x).state == 2)
          && (s1.bankSet x).waking.isNone
      else []
    (s1.wake gs).modWg w fun g => { g with touched := [] }

/-! ## The memory-side cache (R111–R114) -/

/-- Drops a VD's lines outside its masks, after writing them back. -/
def State.reclaim (s : State) (vd : Nat) : State :=
  let r : Word × Word := ((tget s.msc.vda vd).getD (if vd = 0 then 0xFFFFFFFF else 0), (tget s.msc.vdb vd).getD (if vd = 0 then 0xFFFF else 0))
  let keep : BitVec 16 := r.1.extractLsb' 0 16 ||| r.1.extractLsb' 16 16 ||| r.2.extractLsb' 0 16
  let out (x : MscLine) : Bool := x.vd == some vd && !keep.getLsbD x.way
  s.writeBack out out
/-- Ends a reclaim under way. -/
def State.endReclaim (s : State) : State :=
  if s.msc.recl.getLsbD 31 then
    let t := s.reclaim (s.msc.recl.toNat % 256)
    { t with msc := { t.msc with recl := t.msc.recl &&& 0x7FFFFFFF } }
  else s
/-- A write of MSCRECL: a reclaim of the VD begins; one under way ends first. -/
def State.setRecl (s : State) (v : Word) : State :=
  let t := s.endReclaim
  { t with msc := { t.msc with recl := 0x80000000#32 ||| (v &&& 0xFF) } }
/-- A write of MSCMONSm: HITS counts from when EN is set. -/
def State.setMonS (s : State) (m : Nat) (v : Word) : State :=
  let old : Word := (tget s.msc.monS m).getD 0
  let w := v &&& 0x801FFFFF
  { s with msc := { s.msc with monS := tput s.msc.monS m w
                               monH := if w.getLsbD 31 && !old.getLsbD 31 then tput s.msc.monH m 0 else s.msc.monH } }
/-- MSCMONOm: the lines of the VD in the slice now. -/
def State.monLines (s : State) (m : Nat) : Word :=
  let r : Word := (tget s.msc.monS m).getD 0
  BitVec.ofNat 32 (s.msc.lines.filter fun x => x.slice == (r.extractLsb' 8 13).toNat && x.vd == some (r.extractLsb' 0 8).toNat).length

/-- Changes a world. -/
def State.modWorld (s : State) (c : Nat) (f : World → World) : State := { s with worlds := tmod s.worlds c f }
/-- A read that the allow-list of a world refuses: DENIED counts it, and the world's event queue hears of it when it can. -/
def State.deny (s : State) (c group : Nat) : State :=
  let t := s.modWorld c fun w => { w with denied := w.denied + 1 }
  match t.eventQ c with
  | .ok b => t.pushOne c b (BitVec.ofNat 512
      (0x01 + 0x0001 * 2 ^ 16 + group * 2 ^ 32 + (((tget t.worlds c).map fun w => w.denied.toNat).getD 0) * 2 ^ 64))
  | .absent => t
  | .broken _ => t
  | .full => t
/-- A VD whose MSC monitor a host read may not see (R338). -/
def State.monDenied (s : State) (m : Nat) : Option Nat :=
  let r : Word := (tget s.msc.monS m).getD 0
  match tfind s.worlds fun w => w.vd == (r.extractLsb' 0 8).toNat with
  | some (c, w) => if w.allow.getLsbD 2 then none else some c
  | none => none
/-- The effect of a host's read of a monitor that an allow-list refuses. -/
def State.denyFor (s : State) (r : SysReg) : State := match r with
  | .monO m => (s.monDenied m).elim s fun c => s.deny c 2
  | .monH m => (s.monDenied m).elim s fun c => s.deny c 2
  | _ => s

/-! ## Registers of an SP, a core and the package -/

/-- What a view reads at an SP in a register that no fibre or convoy holds. -/
def State.readSys (s : State) (spn : Nat) (host : Bool) : SysReg → Option Word
  | .sweepdone => some s.rev.sweepdone
  | .temperiv => some ((s.sp spn).every.setWidth 32)
  | .acprog t high => some (if high then (s.acprog spn t).extractLsb' 32 32 else (s.acprog spn t).extractLsb' 0 32)
  | .pmap g => some (s.pmapWord host g)
  | .bfence k => some ((tget (s.core (coreOf spn)).bfence k).getD 0)
  | .ydeadl => some ((s.core (coreOf spn)).ydeadl.setWidth 32)
  | .mscrecl => some s.msc.recl
  | .monS m => some ((tget s.msc.monS m).getD 0)
  | .monO m => some (if (s.monDenied m).isSome then 0 else s.monLines m)
  | .monH m => some (if (s.monDenied m).isSome then 0 else (tget s.msc.monH m).getD 0)
  | .vda v => some ((tget s.msc.vda v).getD (if v = 0 then 0xFFFFFFFF else 0))
  | .vdb v => some ((tget s.msc.vdb v).getD (if v = 0 then 0xFFFF else 0))
  | .locid => none
  | .fibid => none
  | .wgid => none
  | .fpstat => none
  | .bwphase => none
  | .lncur => none
  | .repcnt => none
  | .mxseq => none
/-- A write by the host view at an SP: of TEMPERIV, once the SP is awake (R335). -/
def State.writeSys (s : State) (spn : Nat) (v : Word) : SysReg → State
  | .temperiv => s.modSp spn fun p =>
    if p.awake then { p with temperiv := v.setWidth 16, heldIv := none } else { p with heldIv := some (v.setWidth 16) }
  | .pmap g => s.setPmap g v
  | .ydeadl => s.modCore (coreOf spn) fun c => { c with ydeadl := v.setWidth 24 }
  | .mscrecl => s.setRecl v
  | .monS m => s.setMonS m v
  | .monO _ => s
  | .monH m => { s with msc := { s.msc with monH := tput s.msc.monH m v } }
  | .vda n => { s with msc := { s.msc with vda := tput s.msc.vda n v } }
  | .vdb n => { s with msc := { s.msc with vdb := tput s.msc.vdb n (v &&& 0x3FFFF) } }
  | .sweepdone => s
  | .acprog _ _ => s
  | .bfence _ => s
  | .locid => s
  | .fibid => s
  | .wgid => s
  | .fpstat => s
  | .bwphase => s
  | .lncur => s
  | .repcnt => s
  | .mxseq => s

/-! ## sysrd and syswr (R282, R418) -/

/-- LOCID of a lane (R9). -/
def locid (pkg spn lane : Nat) : Word :=
  BitVec.ofNat 32 (pkg * 2 ^ 22 + dieOf spn * 2 ^ 20 + coreOf spn % 16 * 2 ^ 16 + spn % 4 * 2 ^ 14 + lane / 4 * 2 ^ 7 + lane % 4)
/-- The value of a register that a convoy or its workgroup holds. -/
def State.convoyReg (s : State) (v : Convoy) : SysReg → Option Word
  | .wgid => some (((tget s.wgs v.wg).map (·.wgid)).getD 0)
  | .fpstat => some (v.fpstat.setWidth 32)
  | .bwphase => some (((tget s.wgs v.wg).map fun g => g.bwphase.setWidth 32).getD 0)
  | .lncur => some v.lncur
  | .repcnt => some (v.repcnt.setWidth 32)
  | .mxseq => some (v.u.mxseq.setWidth 32)
  | _ => none
/-- The value of a register in a lane. -/
def State.sysValue (s : State) (v : Convoy) (l : Ln) (host : Bool) (r : SysReg) : Word := match r with
  | .locid => locid s.route.pkg v.spn l.f.lane
  | .fibid => BitVec.ofNat 32 l.f.fidx
  | r => match s.convoyReg v r with
    | some x => x
    | none => (s.readSys v.spn host r).getD 0
/-- Whether a convoy's fibres hold the host view. -/
def State.hostView (s : State) (v : Convoy) : Bool := s.colourOf v == s.mgmt.hyp
/-- The PRIV sub-cause of an access (R418). -/
def privCause (host write : Bool) (num : Nat) : Option Nat :=
  if (if host then 0x800 else 0x400) ≤ num then some 0x030
  else match sysReg num with
    | none => some 0x032
    | some r => if write && !r.writable host then some 0x031 else none
/-- A PRIV trap. -/
def State.privTrap (s : State) (c sub pos : Nat) : State := s.trap c { cls := clsPriv, code := sub, pos := pos }
/-- R282. -/
def execSysrd (o : SysrdOp) (s : State) : Result :=
  issue s o.c (dregs o.d false) [] fun i v act =>
    let host := s.hostView v
    match act with
    | [] => (s.markLatch i o.d).advance i 1
    | l :: _ => match privCause host false o.num.toNat, sysReg o.num.toNat with
      | some sub, _ => s.privTrap i sub l.pos
      | none, some r => ((s.denyFor r).dsts i false o.d (act.map fun l => (l, (s.sysValue v l host r).setWidth 64))).advance i 1
      | none, none => s.privTrap i 0x032 l.pos
/-- R282. -/
def execSyswr (o : SyswrOp) (s : State) : Result :=
  let n := wordsOf o.a.isLit
  issue s o.c (vregs o.a false) (vlatches o.a) fun i v act =>
    let host := s.hostView v
    match act with
    | [] => s.advance i n
    | l :: _ =>
      let x := s.src32 v l o.c.lit o.a
      match privCause host true o.num.toNat, sysReg o.num.toNat with
      | some sub, _ => s.privTrap i sub l.pos
      | none, some .fpstat => (s.modConvoy i fun v => { v with fpstat := x.setWidth 8 }).advance i n
      | none, some .bwphase => (s.setBwphase v.wg (x.setWidth 3)).advance i n
      | none, some r => (s.writeSys v.spn x r).advance i n
      | none, none => s.privTrap i 0x032 l.pos

end Sys2Proof.Machine
end

