-- ==== Sys2Proof/Machine/Recovery.lean ====
section
/-! DEFINITION. Images of workgroups, rollback to a temper point, saves and restores (R69, R259, R309–R311, R393), and the waits of traps and of
the undo log (R386, R390). -/

namespace Sys2Proof.Machine

/-! ## Images -/

/-- The convoys of a workgroup. -/
def State.convoysOf (s : State) (w : Nat) : Tbl Convoy := s.convoys.filter fun x => x.2.wg == w
/-- A convoy that counts as stopped for a yield (R309, R386). -/
def Convoy.stopped (v : Convoy) : Bool := match v.wait with
  | .yielded => true
  | .bar _ _ => true
  | .replay _ => true
  | _ => false
/-- The rows of a fibre's window. -/
def Fibre.window (f : Fibre) : Addr × Nat := (f.reg 0, 4 * f.wsize)
/-- The accumulator tiles of an SP. -/
def tilesOf (p : Nat) : Addr × Nat := (tileAddr p 0 0, 0x10_0000)
/-- What is left of a wait of R386, or the whole wait. -/
def Wait.toRest (now : Nat) : Wait → Wait
  | .replay due => .replay (due - now)
  | w => w
/-- A stopped convoy goes on where it stopped. -/
def Convoy.goOn (v : Convoy) : Convoy := { v with wait := if v.inCl then .run else .clause }
/-- A convoy after a restore: a replay's rest runs on, a stopped convoy goes on where it stopped, and one that waited at a wide barrier
whose slot has flipped since goes past it (R91, R309). -/
def State.resumed (s : State) (now : Nat) (v : Convoy) : Convoy := match v.wait with
  | .replay rest => { v with wait := .replay (now + rest) }
  | .yielded => v.goOn
  | .bar (some k) phase => match tget s.bars k with
    | some b => if b.phase = phase then v else v.goto v.nextClause
    | none => v
  | _ => v
/-- Core cycles since the arrival of the fibres of a workgroup that wait outside convoys. -/
def State.waitedOf (s : State) (w : Nat) : Tbl Nat :=
  ((s.serais.filter fun x => x.wg == w).flatMap fun x => x.fibres.map fun i => (i.1, ((s.now (dieOf x.spn) : Int) - i.2).toNat))
    ++ s.outside.filterMap fun o => match tget s.fibres o.fib with
      | some f => if f.wg = w then some (o.fib, ((s.now (dieOf f.spn) : Int) - o.arrived).toNat) else none
      | none => none
/-- A workgroup's image as it stands (R309). -/
def State.wgImage (s : State) (w : Nat) (g : Wg) : Image :=
  let fs := s.fibresOf w
  let rs := fs.map (fun f => f.2.window) ++ g.sps.map tilesOf
  { bytes := s.bytesIn rs
    tags := s.tagsIn rs
    fibres := fs
    convoys := (s.convoysOf w).map fun v => (v.1, { v.2 with wait := v.2.wait.toRest (s.now (dieOf v.2.spn)) })
    acprog := ((List.range g.sps.length).zip g.sps).flatMap fun x => (List.range 16).map fun t => (16 * x.1 + t, s.acprog x.2 t)
    ids := s.ids
    waited := s.waitedOf w
    events := ((List.range g.sps.length).zip g.sps).flatMap fun x =>
      ((s.sp x.2).events.filter fun e => e.wg == w).map fun e => (x.1, e) }
/-- An SP without the pending writes and buffered tiles of some fibres, which are performed. -/
def Sp.flush (ids : List Nat) (p : Sp) : Sp :=
  let q := p.performOf ids
  { q with tbuf := drainTiles (fun b => b.fibres.any fun i => ids.contains i) q.tbuf }
/-- Takes a workgroup off its SPs: its writes are performed, and its rows and frames are free. -/
def State.unload (s : State) (w : Nat) : State :=
  let ids := (s.fibresOf w).map (·.1)
  let s1 := s.freeFibres ids
  { s1 with
    convoys := s1.convoys.filter fun v => v.2.wg != w
    serais := s1.serais.filter fun x => x.wg != w
    outside := s1.outside.filter fun x => !ids.contains x.fib
    cores := s1.cores.map fun c => (c.1, { c.2 with grow := c.2.grow.filter fun r => !ids.contains r.2 })
    sps := s1.sps.map fun p => (p.1, { p.2.flush ids with events := p.2.events.filter fun e => e.wg != w }) }
/-- Halts of an SP that wait at the host's port are for a workgroup that is saved there: they are applied where it is restored (R448). -/
def State.takeHalts (s : State) (w : Nat) (sps : List Nat) : State :=
  let due := (List.range sps.length).filter fun r => s.held.contains (.halt (sps.getD r 0))
  { s.modWg w (fun g => { g with haltDue := due }) with held := s.held.filter fun h => !(due.any fun r => h == .halt (sps.getD r 0)) }
/-- Saves a workgroup as it stands (R309). The SPs that a workgroup of a co-resident launch leaves take a temper point, so that no rollback
gives the rows it still claims to another (R299, log entry 92). -/
def State.saveWg (s : State) (w : Nat) : State := match tget s.wgs w with
  | none => s
  | some g =>
    let t := ((((s.firmwarePass true w (imageBytesOf * g.sps.length)).unload w).leaveSps g.sps).modWg w fun g' =>
      { g' with phase := .saved, image := s.wgImage w g, haltAt := none }).takeHalts w g.sps
    if s.corOf g then g.sps.foldl (fun s p => if (s.returned p).isEmpty then s else s.temperPoint p) t else t
/-- The banks of a core whose fences name some of its SPs, with the rank of each (R389). -/
def State.banksFenced (s : State) (sps : List Nat) : List (Nat × Nat) :=
  (List.range 64).filterMap fun b => match s.fence (coreOf (sps.headD 0)) b with
    | some p => if sps.contains p then some (b, sps.idxOf p) else none
    | none => none
/-- The first address of a bank. -/
def bankAddr (core b : Nat) : Addr := spadBase core + b * 0x2_0000
/-- Adds the scratchpad lines of a saved workgroup's banks to its image (R310, R389). -/
def State.sealBanks (s : State) (w : Nat) : State := s.modWg w fun g =>
  if g.image.banks.isEmpty then
    let core := coreOf (g.sps.headD 0)
    let one (x : Nat × Nat) : BankImage :=
      let r := [(bankAddr core x.1, 0x2_0000)]
      { bank := x.1, rank := x.2, bytes := (s.bytesIn r).map fun b => (b.1 - bankAddr core x.1, b.2),
        tags := (s.tagsIn r).map fun b => (b.1 - bankAddr core x.1, b.2) }
    { g with image := { g.image with banks := (s.banksFenced g.sps).map one } }
  else g

/-! ## Restore (R69, R259, R299) -/

/-- A uniform state whose tags have passed the filter. -/
def State.filterUnif (s : State) (u : Unif) : Unif :=
  { u with kt := (List.range 16).foldl (fun (kt : BitVec 16) n =>
      if kt.getLsbD n && s.caught (u.rdK n) then kt &&& ~~~(1#16 <<< n) else kt) u.kt }
/-- A popped record, a fibre and a logged event whose tags have passed the filter. -/
def State.filterSlots (s : State) (l : List (BitVec 128 × Bool)) : List (BitVec 128 × Bool) := l.map fun g => (g.1, g.2 && !s.caught ⟨g.1, true⟩)
def State.filterFibre (s : State) (f : Fibre) : Fibre :=
  { f with unif := s.filterUnif f.unif, popped := f.popped.map fun p => (p.1, s.filterSlots p.2) }
def State.filterEvent (s : State) (e : LogEvent) : LogEvent := { e with slots := s.filterSlots e.slots }
/-- An address of an image taken on some SPs, as it stands on others. -/
def relocate (old new : List Nat) (a : Addr) : Addr :=
  match (old.zip new).find? fun x => inRanges (spRanges x.1) a with
  | some (p, q) => if inRanges [tilesOf p] a then a - tileAddr p 0 0 + tileAddr q 0 0 else a - regAddr p 0 0 + regAddr q 0 0
  | none => a
/-- The tile that holds an address. -/
def tileAt (p : Nat) (a : Addr) : Nat := (a - tileAddr p 0 0) / 0x1_0000
/-- Whether a tile of an image is its workgroup's: its progress word is, or there is none. -/
def ownTile (im : Image) (own rank t : Nat) : Bool := match tget im.acprog (16 * rank + t) with
  | some w => w == 0 || acOwn w == own
  | none => true
/-- Whether an address of an image is restored: a row, or a word of a tile that is the workgroup's. -/
def restored (im : Image) (g : Wg) (a : Addr) : Bool :=
  match ((List.range g.sps.length).zip g.sps).find? fun x => inRanges [tilesOf x.2] a with
  | some (r, p) => ownTile im ((tget g.own p).getD 0) r (tileAt p a)
  | none => true
/-- The lowest residency number that no other workgroup resident or saved on an SP holds (R259). -/
def State.residency (s : State) (w p : Nat) : Nat := lowestFree ((s.wgs.filter fun x => x.1 != w).filterMap fun x => tget x.2.own p)
/-- A progress word under a new residency number. -/
def reOwn (w : DWord) (own : Nat) : DWord := (w &&& 0x0000FFFFFFFFFFFF#64) ||| (BitVec.ofNat 64 own <<< 48)
/-- A workgroup's fibre that is in no convoy enters the serai of its PC, having waited there as long as it had before (R12). -/
def State.arriveAll (s : State) (w : Nat) (waited : Tbl Nat) : State :=
  let held := (s.convoysOf w).flatMap fun v => v.2.fib.filterMap fun i => i
  ((s.fibresOf w).filter fun f => !held.contains f.1).foldl (fun s f =>
    s.arrive f.1 ((s.now (dieOf f.2.spn) : Int) - ((tget waited f.1).getD 0 : Nat))) s
/-- Return frames in use on an SP. -/
def State.recountFrames (s : State) (p : Nat) : State :=
  s.modSp p fun q => { q with frames := ((s.fibres.filter fun f => f.2.spn == p).map fun f => framesOf f.2.frames.length).foldl (· + ·) 0 }
/-- Writes the bytes and tags of an image into some ranges; a tag passes the filter. -/
def State.putImage (s : State) (rs : List (Addr × Nat)) (bytes : Tbl Byte) (tags : Tbl Unit) : State :=
  let s1 := rs.foldl (fun s r => s.zeroRange r.1 r.2) s
  let s2 := bytes.foldl (fun s b => s.wr8 b.1 b.2) s1
  tags.foldl (fun s t => if s2.caught ⟨BitVec.ofNat 128 (s2.rdNat t.1 16), true⟩ then s else s.setTag t.1 true) s2
/-- Puts the banks of an image back where the bank of the same number is fenced to the SP of the same rank; the images of other
workgroups saved from that SP no longer hold it. -/
def State.loadBanks (s : State) (w : Nat) (old sps : List Nat) (l : List BankImage) : State :=
  let core := coreOf (sps.headD 0)
  l.foldl (fun s b =>
    if s.fence core b.bank = sps[b.rank]? then
      let a := bankAddr core b.bank
      let s1 := s.putImage [(a, 0x2_0000)] (b.bytes.map fun x => (a + x.1, x.2)) (b.tags.map fun x => (a + x.1, x.2))
      { s1 with wgs := s1.wgs.map fun g =>
          if g.1 != w && coreOf (g.2.sps.headD 0) == coreOf (old.headD 0) then
            (g.1, { g.2 with image := { g.2.image with banks := g.2.image.banks.filter fun y => y.bank != b.bank } })
          else g }
    else s) s
/-- Restores a workgroup's image on some SPs; each of them takes a temper point, after which the events of the image are logged still. The
core cycle of a convoy's last issue stands as it was (R304); on another die, whose cycles are not compared with it (R12), it is that of the
restore (log entry 93). -/
def State.loadWg (s : State) (w : Nat) (sps : List Nat) : State := match tget s.wgs w with
  | none => s
  | some g =>
    let im := g.image
    let own := sps.map fun p => (p, match tget g.own p with | some n => n | none => s.residency w p)
    let mv := relocate g.sps sps
    let keep := (im.bytes.filter fun b => restored im g b.1).map fun b => (mv b.1, b.2)
    let tags := (im.tags.filter fun b => restored im g b.1).map fun b => (mv b.1, b.2)
    let fs : Tbl Fibre := im.fibres.map fun f => (f.1, { s.filterFibre f.2 with spn := relocSp g.sps sps f.2.spn })
    let tiles := ((List.range g.sps.length).zip sps).flatMap fun x =>
      ((List.range 16).filter fun t => ownTile im ((tget g.own (g.sps.getD x.1 0)).getD 0) x.1 t).map fun t => (x.1, x.2, t)
    let s1 := (s.firmwarePass false w (imageBytesOf * sps.length)).putImage (fs.map (fun f => f.2.window) ++ tiles.map fun x => (tileAddr x.2.1 x.2.2 0, 0x1_0000)) keep tags
    let s2 := tiles.foldl (fun s x =>
      let w0 := (tget im.acprog (16 * x.1 + x.2.2)).getD 0
      let mine := acOwn w0 == (tget g.own (g.sps.getD x.1 0)).getD 0
      s.setAcprog x.2.1 x.2.2 (if mine then reOwn w0 ((tget own x.2.1).getD 0) else w0)) s1
    let vs : Tbl Convoy := im.convoys.map fun v =>
      let p := relocSp g.sps sps v.2.spn
      let now := s.now (dieOf p)
      let last := if dieOf v.2.spn = dieOf p then v.2.last else now
      (v.1, s.resumed now { v.2 with spn := p, u := s.filterUnif v.2.u, yreq := false, last := last, since := now, aged := false })
    let fibres := fs.foldl (fun (t : Tbl Fibre) f => tput t f.1 f.2) s2.fibres
    let s3 := vs.foldl (fun (s : State) v => s.putConvoy v.1 v.2) { s2 with fibres := fibres }
    let s4 := s3.nextId.modWg w fun g => { g with sps := sps, own := own, phase := if g.staged then .running else .staging, image := {},
                                                  seen := sps, placed := s.now (dieOf (sps.headD 0)), order := s.ids, hot := none, haltedFor := 0,
                                                  haltAt := s.haltNow sps, haltDue := [] }
    let due := g.haltDue.map fun r => sps.getD r 0
    let s5 := sps.foldl (fun s p => ((s.recountFrames p).modSp p fun q =>
        { q with power := .on, halting := q.halting || (due.contains p && !q.halted) }).temperPoint p)
      ((if g.staged then s4.arriveAll w im.waited else s4).loadBanks w g.sps sps im.banks)
    im.events.foldl (fun s e => s.modSp (sps.getD e.1 0) fun p => { p with events := p.events ++ [s.filterEvent e.2] }) s5

/-! ## Rollback (R311, R393) -/

/-- Stops issue on an SP, with a source for its record, and treats its commands as R311 gives: those issued since the temper point are
cancelled, but for near-memory commands, which are drained, as staging is. -/
def State.stopSp (s : State) (p : Nat) (source : BitVec 8) : State :=
  let after := (((s.sp p).image).map (·.ids)).getD 0
  let ks := s.cmds.filter fun m => m.2.spn == p && m.2.live && m.2.phase != .performed && m.2.phase != .cancelling
    && (s.opsOf m.2).all (fun o => o.engine != .enm) && !m.2.staging && decide (after ≤ m.1)
  (ks.foldl (fun s m => s.cancel m.1) s).modSp p fun q => { q with hold := some source }
/-- A convoy that has made its reservation, or awaits a peer's answer, finishes first (R309). -/
def Convoy.finishing (v : Convoy) : Bool := match v.wait with
  | .queue q => q.start.isSome
  | .remote _ => true
  | _ => false
/-- Whether no command of some SPs is unfinished, and no queue operation there stands between its reservation and its end: such a one
finishes first, and is logged, so that no slot stays reserved (R309, R311). -/
def State.quietSps (s : State) (sps : List Nat) : Bool :=
  s.cmds.all (fun m => !(sps.contains m.2.spn && m.2.live)) && s.convoys.all fun v => !(sps.contains v.2.spn && v.2.finishing)
/-- Restores the lines of an SP's undo log in reverse order; events of the core whose words lie in them are marked (R391). -/
def State.undoLines (s : State) (p : Nat) : State :=
  let ls := (s.sp p).lines
  let s1 := ls.reverse.foldl (fun s l =>
    let t := (s.wrRaw l.1 l.2.1).clearTags l.1 128
    l.2.2.foldl (fun s g => if s.caught (s.rdCap g.1 |> fun k => { k with tag := true }) then s else s.setTag g.1 true) t) s
  let hit (e : LogEvent) : Bool := e.wrote.any fun w => ls.any fun l => l.1 == w.1 / 128 * 128
  let mark (q : Sp) : Sp := { q with events := q.events.map fun e => { e with redo := e.redo || hit e } }
  let t : State := { s1 with sps := s1.sps.map fun q => if coreOf q.1 = coreOf p then (q.1, mark q.2) else q }
  t.modSp p fun q => { q with lines := [] }
/-- A fibre of a temper image as it resumes: at its REGPC, its events looked up, with no row above those of its region entry. -/
def Fibre.rewind (f : Fibre) : Fibre :=
  { f with pc := f.regpc, wsize := min f.wsize f.rwsize, ordn := 0, clxs := 0, pops := 0, lookup := true, replay := 0, entered := f.began, cnt := {}, mx := [],
           iters := f.riters }
/-- Refusals of commands issued before a temper point, which are not issued again, stand in the fibres that a rollback restores (R425). -/
def State.refusalsAgain (s : State) (before : Nat) (ids : List Nat) : State :=
  s.cmds.foldl (fun s m =>
    if m.1 < before then s.refusalBit (ids.filter fun i => m.2.refuses m.2.cls i) m.2.cls true else s) s
/-- A workgroup whose fibres a rollback restores runs again, if it had begun its write-back: that is carried out anew at its end (R76). A queue
halted by a command that is issued again is open (R427). -/
def State.runAgain (s : State) (w before : Nat) : State :=
  let s1 := s.modWg w fun g => { g with halted := g.halted.filter fun h => decide (h.2 < before) }
  match (tget s.wgs w).map (fun g : Wg => g.phase) with
  | some WgPhase.wback => { s1.modWg w (fun g => { g with phase := .running }) with
      cmds := s1.cmds.filter fun m => !(m.2.wg == w && m.2.staging && !m.2.live) }
  | _ => s1
/-- Rolls an SP back to its latest temper point, and its issue goes on; workgroups that have not issued there stand as they are. -/
def State.rollbackSp (s : State) (p : Nat) : State := match (s.sp p).image with
  | none => s.modSp p fun q => { q with hold := none }
  | some im =>
    let ws := (s.wgs.filter fun g => g.2.resident && g.2.sps.contains p && g.2.seen.contains p).map (·.1)
    let s0 := (s.firmwarePass false (undoKey p 0) (s.sp p).logBytes).firmwarePass false (temperKey p) imageBytesOf
    let s1 := if s.runsOn p then s0.undoLines p else s0
    let gone := (s1.fibres.filter fun f => f.2.spn == p && ws.contains f.2.wg).map fun f => f.2.window
    let fs : Tbl Fibre := (im.fibres.filter fun f => ws.contains f.2.wg).map fun f => (f.1, s1.filterFibre f.2.rewind)
    let rs := gone ++ fs.map (fun f => f.2.window) ++ [tilesOf p]
    let s2 := s1.putImage rs (im.bytes.filter fun b => inRanges rs b.1) (im.tags.filter fun b => inRanges rs b.1)
    let old := (s2.fibres.filter fun f => f.2.spn == p && ws.contains f.2.wg).map (·.1)
    let fibres := fs.foldl (fun (t : Tbl Fibre) f => tput t f.1 f.2) (s2.fibres.filter fun f => !old.contains f.1)
    let s3 : State := { s2 with
      fibres := fibres
      convoys := s2.convoys.filter fun v => !(v.2.spn == p && ws.contains v.2.wg)
      serais := (s2.serais.map fun x => { x with fibres := x.fibres.filter fun i => !old.contains i.1 }).filter fun x => !x.fibres.isEmpty
      outside := s2.outside.filter fun x => !old.contains x.fib
      cores := s2.cores.map fun c => (c.1, { c.2 with grow := c.2.grow.filter fun r => !old.contains r.2 })
      cmds := s2.cmds.filter fun m => !(m.2.spn == p && !m.2.live && decide (im.ids ≤ m.1)) }
    let vs : Tbl Convoy := im.convoys.filter fun v => ws.contains v.2.wg
    let s3b := (fs.foldl (fun (s : State) f => s.rewindow f.1) (s3.refusalsAgain im.ids (fs.map (·.1))))
    let s3c := (fs.map fun f => f.2.wg).eraseDups.foldl (fun (s : State) w => s.runAgain w im.ids) s3b
    let s4 := vs.foldl (fun (s : State) v =>
      (s.putConvoy v.1 { v.2 with u := s1.filterUnif v.2.u, yreq := false, stepped := false }).cutBack v.1) s3c
    let back (s : State) (w : Nat) : State :=
      let held := (s.convoysOf w).flatMap fun v => v.2.fib.filterMap fun i => i
      let inSerai := s.serais.flatMap fun x => x.fibres.map (·.1)
      ((s.fibresOf w).filter fun f => f.2.spn == p && !held.contains f.1 && !inSerai.contains f.1).foldl
        (fun s f => s.arrive f.1 (s.now (dieOf p))) s
    ((ws.foldl back s4).modSp p fun q =>
      { q with pend := [], tbuf := [], acprog := im.acprog, hold := none, events := q.events.map s1.filterEvent }).recountFrames p
/-- The SPs of a core that a world owns. -/
def State.ownedOn (s : State) (core colour : Nat) : List Nat := (List.range 4).map (fun i => 4 * core + i) |>.filter fun p => (s.sp p).owner == colour
/-- The workgroups that hold some of these SPs. -/
def State.wgsOn (s : State) (sps : List Nat) : List Nat := (s.wgs.filter fun g => g.2.resident && g.2.sps.any fun p => sps.contains p).map (·.1)

/-! ## Soft errors (R392, R393) -/

/-- Whether a command issued before the temper point of one of its SPs has halted a queue of a launch: it is not issued again. -/
def State.haltStands (s : State) (l : Nat) : Bool := (s.wgsOf l).any fun g => g.2.halted.any fun h =>
  g.2.sps.any fun p => match (s.sp p).image with
    | some im => decide (h.2 < im.ids)
    | none => true
/-- A soft error discards the traps on some SPs that are being disposed of, without a record; a launch that no other trap aborts goes on
(R383). A refused region-list entry is no trap of a convoy: it aborts its launch again (execStagingComplete). An
ill-formed command that no rollback issues again keeps its launch aborted. -/
def State.discardTraps (s : State) (sps : List Nat) : State :=
  let stays (l : Nat) (r : Rec) : Bool := r.cls == clsEngform && s.haltStands l
  let keep (n : Nat) (l : Launch) : List Rec := l.recs.filter fun r => !sps.contains r.spn || stays n r
  let drop (n : Nat) (l : Launch) : Launch :=
    if keep n l = l.recs then l else { l with recs := keep n l, aborted := (keep n l).head?.map fun r => r.cls.toNat }
  let t : State := { s with launches := s.launches.map fun l => (l.1, drop l.1 l.2) }
  { t with convoys := t.convoys.map fun v => if v.2.wait == .aborted && !t.aborted v.2 then (v.1, v.2.goOn) else v }
/-- R394: counts an uncorrectable error in an item of a core, against the item and against the temper points of some SPs; the third in
2^30 core cycles, or at one temper point, makes the core one that fails. -/
def State.noteSoft (s : State) (core item : Nat) (sps : List Nat) : State :=
  let now := s.now (core / 16)
  let softs := (item, now) :: (s.core core).softs.filter fun e => decide (now < e.2 + 2 ^ 30)
  let s1 := (sps.foldl (fun s p => s.modSp p fun q => { q with rolls := q.rolls + 1 }) s).modCore core fun c => { c with softs := softs }
  if 3 ≤ softs.countP (fun e => e.1 == item) ∨ sps.any (fun p => decide (3 ≤ (s1.sp p).rolls)) then
    s1.modCore core fun c => { c with failing := true }
  else s1
/-- R392: a corrected error writes no record; it increments the SP's counter. R393: an uncorrectable error rolls back the SPs of the core that its world owns; issue stops until their commands are drained. The SOURCE
of the record is at least 1; as the own step of the rollback it is 0. -/
def execSoftError (spn : Nat) (e : ErrorMsg) (s : State) : Result :=
  let src := e.source
  let colour := (s.sp spn).owner
  if e.corrected then .next (s.modSp spn fun p => { p with errs := p.errs + 1 }) else
  let sps := s.ownedOn (coreOf spn) colour
  let s0 := if src = 0 then s else s.noteSoft (coreOf spn) e.item sps
  let s1 := if (s.sp spn).hold.isSome then s0 else (sps.foldl (fun s p => s.stopSp p src) s0).discardTraps sps
  let source := ((s1.sp spn).hold).getD src
  if src = 0 ∧ (s.sp spn).hold.isNone then .next s
  else if source = 0 then .next (s1.record { source := src, cls := 0x11, colour := colour, recov := 0x2, spn := spn } false)
  else if !s1.quietSps sps then .next s1
  else
    let s2 := sps.foldl (fun s p => s.rollbackSp p) s1
    .next ((sps.foldl (fun s p => s.modSp p fun q => { q with hold := none }) s2).record
      { source := source, cls := 0x11, colour := colour, recov := 0x2, spn := spn } false)

/-! ## Waits of traps and of the log (R386, R390) -/

/-- R386: the replay begins; near-memory and cancelled commands of its fibres have ended, and its record is delivered. Fibres whose region starts
elsewhere leave the convoy for their serais. -/
def execReplayWaitExpiry (c : Nat) (s : State) : Result := match s.mover c with
  | none => .next s
  | some v => match v.wait with
    | .replay due =>
      let ends (m : Cmd) : Bool := m.phase == .cancelling || (m.live && m.phase != .performed && m.inRegion (s.lanes v)
        && (s.opsOf m).any fun o => o.engine == .enm)
      let busy := s.cmds.any fun m => ends m.2 && (s.lanes v).any fun l => m.2.fibres.contains l.id
      let t := s.deliverReport c
      if due ≤ s.now (dieOf v.spn) ∧ !busy ∧ !v.yreq then .next (((t.hold c .clause).disperse c).count (s.wgColour v.wg) 0 7 1) else .next t
    | _ => .next s
/-- Whether only a full log holds a command: one that cannot be performed, or one that cannot take its block. -/
def State.logHeld (s : State) (k : Nat) (m : Cmd) : Bool :=
  if m.phase == .running then (s.perform k m (m.inner.getD m.op)).isNone && s.onlyLog k m (m.inner.getD m.op)
  else m.phase == .blocked && !s.cmdRoom m []
/-- The commands of a convoy's fibres whose logged write or event has waited YDEADL core cycles on a full log (R390). -/
def State.lateLog (s : State) (v : Convoy) : List (Nat × Cmd) := s.cmds.filter fun m =>
  ((s.lanes v).any fun l => m.2.fibres.contains l.id)
    && (match m.2.logAt with
      | some t => decide (t + (s.core (coreOf v.spn)).ydeadl.toNat ≤ s.now (dieOf v.spn))
      | none => false)
    && s.logHeld m.1 m.2
/-- Whether a convoy can take a trap of a command where it waits: an instruction that has begun its own effect ends it first. -/
def Wait.trapsLog : Wait → Bool
  | .queue w => w.start.isNone
  | .remote _ => false
  | .revoke => false
  | .halted => false
  | _ => true
/-- The late writes and events are not performed; the convoy takes LOGFULL at the clause of the first, unless its launch is aborting. -/
def State.lateTrap (s : State) (c : Nat) (v : Convoy) : State := match s.lateLog v with
  | [] => s
  | x :: r =>
    let s1 := (x :: r).foldl (fun s y => s.stopCmd y.1 y.2 y.2.resume) s
    if s.aborted v then s1
    else s1.trap c { cls := clsLogfull, code := 0, pos := (((s.lanes v).find? fun l => x.2.fibres.contains l.id).map (·.pos)).getD 0,
                     pc := some x.2.pc, wi := some x.2.wi }
/-- R390: a logged write or event of a convoy, or of a command of its fibres, that has waited YDEADL core cycles takes LOGFULL. -/
def execLogfullExpiry (c : Nat) (s : State) : Result := match s.mover c with
  | none => .next s
  | some v => match v.wait with
    | .log since =>
      if since + (s.core (coreOf v.spn)).ydeadl.toNat ≤ s.now (dieOf v.spn) then .next (s.trap c { cls := clsLogfull, code := 0, pos := v.waitPos })
      else .next s
    | w => if w.trapsLog then .next (s.lateTrap c v) else .next s

end Sys2Proof.Machine
end

