-- ==== Sys2Proof/Machine/Drover.lean ====
section
/-! DEFINITION. The Drover (R83, R84): launches from serais; the start of a clause (R146, R400); ageing (R304); and eviction when every
convoy of a core waits for rows (R307, R447). -/

namespace Sys2Proof.Machine

/-! ## The start of a clause (R146) -/

/-- The launch of a workgroup has reached its entry clause. -/
def State.markEntered (s : State) (g : Wg) : State :=
  { s with launches := tmod s.launches g.launch fun l => { l with entered := true } }
/-- The loops unrolled in the residual code that a convoy runs. -/
def State.loopsOf (s : State) (v : Convoy) : List (Addr × Addr × Nat) :=
  match (tget s.wgs v.wg).bind fun g => tget s.launches g.launch with
  | some l => if tget l.code (dieOf v.spn) = some .residual then l.loops else []
  | none => []
/-- A loop set among others, the one with fewer bytes first. -/
def insLoop (x : Addr × Addr × Nat) : List (Addr × Addr × Nat) → List (Addr × Addr × Nat)
  | [] => [x]
  | y :: r => if x.2.1 - x.1 ≤ y.2.1 - y.1 then x :: y :: r else y :: insLoop x r
/-- The iteration vector at a clause: a loop entered at its first clause has index 0, each return there is the next iteration, and a loop
that does not hold the clause is left (R296). -/
def stepIters (loops : List (Addr × Addr × Nat)) (a : Addr) (its : List (Addr × Nat)) : List (Addr × Nat) :=
  ((loops.filter fun l => decide (l.1 ≤ a) && decide (a ≤ l.2.1)).foldr insLoop []).filterMap fun l =>
    match its.find? fun i => i.1 == l.2.1 with
    | some i => some (i.1, if a = l.1 then i.2 + 1 else i.2)
    | none => if a = l.1 then some (l.2.1, 0) else none
/-- The clause begins: its fibres leave the mark of its region entry behind. -/
def State.beginClause (s : State) (c : Nat) (v : Convoy) (h : Header) : State :=
  ((s.lanes v).foldl (fun s l => s.modFibre l.id fun f => { f with entered := false }) s).modConvoy c fun v =>
    { v with inCl := true, wi := 0, words := h.words, wait := .run, iters := stepIters (s.loopsOf v) v.hdr v.iters }
/-- What a clause's wait conditions have observed complete (R129). -/
def State.observeHeader (s : State) (v : Convoy) (h : Header) : State :=
  let one (s : State) (x : Option Cls) (n : Nat) : State := match x with
    | some x => s.observe v x n
    | none => s
  one (one s (waitCls h.wacls) h.wathr.toNat) (waitCls h.wbcls) h.wbthr.toNat
/-- R146, R425 (point 1): the waits, the trap of a refused command, the region entry, and room for the clause's commands. -/
def State.startClause (s0 : State) (c : Nat) (v : Convoy) (h : Header) : State :=
  let s := s0.observeHeader v h
  if !s0.waitsHold v h then s0
  else match s.refOf v ((waitCls h.wacls).toList ++ (waitCls h.wbcls).toList) with
    | some x => s.engref c v x
    | none =>
      let s1 := if h.re then s.regionEntry c else s
      if s1.mixRoom v h then s1.beginClause c v h else s1
/-- Whether every convoy of an SP stands for a debugger's HALT (R347). -/
def State.allHalted (s : State) (spn : Nat) : Bool := s.convoys.all fun v => v.2.spn != spn || v.2.wait == .halted || v.2.stopped
/-- The SP is halted once every convoy stands; each resumes at the clause it stands at (R388). -/
def State.settleHalt (s : State) (spn : Nat) : State :=
  if (s.sp spn).halting && s.allHalted spn then
    let t := (s.modSp spn fun p => { p with halted := true, halting := false, stepping := false, stepOf := none }).noteHalt spn
    { t with convoys := t.convoys.map fun v => if v.2.spn == spn && v.2.wait == .halted then (v.1, { v.2 with wait := .clause }) else v }
  else s
/-- A convoy takes the HALT trap that a debugger asked for, at a clause boundary (R347, R388). -/
def State.haltAt (s : State) (c : Nat) (v : Convoy) (g : Wg) : State :=
  ((s.hold c .halted).record (trapRecord v ((s.lanes v).head?.map (·.f)) g { cls := clsHalt, code := 0 } 0x7) false).settleHalt v.spn
/-- A convoy of a launch that is being aborted stops at its clause boundary, or at a wait that nothing need ever end (R387, log entry 20). -/
def State.endAborted (s : State) (c : Nat) (v : Convoy) : Result := match tget s.wgs v.wg with
  | some g => if s.aborted v then .next ((s.hold c .aborted).settleAbort g.launch) else .next s
  | none => .next s
/-- The bytes of the clause at a convoy's address. -/
def clauseSpan (h : Header) : Nat := 8 * (1 + h.words)
/-- R146. A convoy at a broken barrier takes its trap; one whose launch is being aborted stops at the clause boundary (R387). A fetch from
a bank set that sleeps waits for it (R118), and passes the memory-side cache (R110). -/
def execClauseWaitMet (c : Nat) (s : State) : Result := match tget s.convoys c with
  | none => .next s
  | some v => match v.wait with
    | .clause => match tget s.wgs v.wg with
      | none => .next (s.endConvoy c)
      | some g =>
        if s.aborted v then s.endAborted c v
        else if (s.sp v.spn).halting then .next (s.haltAt c v g)
        else match s.clauseBad v g with
          | some t => .next (s.trap c t)
          | none => match s.fetchWord g v.hdr with
            | none => .next s
            | some w => match s.awaits [(v.hdr, (clauseSpan (Header.ofWord w)))] [] with
              | some t => .next t
              | none => .next (((s.markEntered g).passRd g.colour none v.hdr (clauseSpan (Header.ofWord w))).startClause c v (Header.ofWord w))
    | .bar (some k) _ => match tget s.bars k with
      | some b => if b.broken then .next (s.barBroken c) else .next s
      | none => .next s
    | .wsig _ => s.endAborted c v
    | .queue q => if q.start.isNone then s.endAborted c v else .next s
    | .grow _ _ _ => s.endAborted c v
    | .spawn _ _ _ _ => s.endAborted c v
    | _ => .next s
/-- R304. -/
def execConvoyAged (c : Nat) (s : State) : Result := match tget s.convoys c with
  | none => .next s
  | some v =>
    if !v.aged && s.ready v && decide (v.since + 1024 ≤ s.now (dieOf v.spn)) then .next (s.modConvoy c fun v => { v with aged := true })
    else .next s

/-! ## Launches from serais (R83, R84) -/

/-- The oldest of some waiting fibres, the first among equals. -/
def oldest : List (Nat × Int) → Option (Nat × Int)
  | [] => none
  | x :: r => match oldest r with
    | none => some x
    | some y => if y.2 < x.2 then some y else some x
/-- The waiting fibres of a lane. -/
def State.waitingIn (s : State) (x : Serai) (lane : Nat) : List (Nat × Int) :=
  x.fibres.filter fun i => match tget s.fibres i.1 with
    | some f => f.lane == lane
    | none => false
/-- The slices with a waiting fibre, in ascending order. -/
def State.seraiSlices (s : State) (x : Serai) : List Nat :=
  sortNat (x.fibres.filterMap fun i => (tget s.fibres i.1).map fun f => f.lane / 4).eraseDups
/-- Fibres that wait outside every serai enter one, oldest first, once there is room (R83). -/
def State.letIn (s : State) (spn : Nat) : State :=
  (s.outside.filter fun o => match tget s.fibres o.fib with | some f => f.spn == spn | none => true).foldl (fun s o =>
    let open_ := match tget s.fibres o.fib with
      | some f => s.serais.any fun x => x.spn == f.spn && x.wg == f.wg && x.entry == f.pc
      | none => false
    if open_ || decide ((s.serais.filter fun x => x.spn == spn).length < 64) then
      { s with outside := s.outside.filter fun y => y.fib != o.fib }.arrive o.fib o.arrived
    else s) s
/-- R84: the convoy of the oldest waiting fibre of every lane; a serai that holds no fibre closes. -/
def State.launchSerai (s : State) (x : Serai) : State :=
  let sl := s.seraiSlices x
  let fib := sl.flatMap fun j => (List.range 4).map fun i => (oldest (s.waitingIn x (4 * j + i))).map (·.1)
  let ids := fib.filterMap fun i => i
  match ids with
  | [] => s
  | i :: _ =>
    let now := s.now (dieOf x.spn)
    let fs := ids.filterMap fun i => tget s.fibres i
    let f0 := tget s.fibres i
    let u : Unif := (f0.map (·.unif)).getD {}
    let v : Convoy := { spn := x.spn, wg := x.wg, slices := sl, fib := fib, u := u, fpstat := orFlags (fs.map (·.fpstat)), hdr := x.entry,
                        last := now, since := now, iters := (f0.map (·.iters)).getD [] }
    let left := x.fibres.filter fun i => !ids.contains i.1
    let serais := (s.serais.map fun y => if y.opened == x.opened then { y with fibres := left } else y).filter fun y => !y.fibres.isEmpty
    let s1 : State := { s.nextId with convoys := tput s.convoys s.ids v, serais := serais }
    (s1.letIn x.spn).count (s.wgColour x.wg) 0 1 1
/-- Serais of a workgroup launch while it runs and its SP is neither halted nor being rolled back. None launches while a yield request for
the workgroup is pending, for a fibre in a serai counts as stopped then (R309; the model's reading, log entry 94). -/
def State.mayLaunch (s : State) (x : Serai) : Bool := (s.sp x.spn).hold.isNone && !(s.sp x.spn).halted && !(s.sp x.spn).halting && (match tget s.wgs x.wg with
  | some g => g.phase == .running && (((tget s.launches g.launch).map fun l => l.aborted.isNone).getD true)
  | none => false)
/-- The serai of a key. -/
def State.seraiOf (s : State) (k : SeraiKey) : Option Serai := s.serais.find? fun x => x.spn == k.spn && x.wg == k.wg && x.entry == k.entry
/-- Launches a serai when a condition holds of it. -/
def seraiLaunch (s : State) (k : SeraiKey) (cond : Serai → Bool) : Result := match s.seraiOf k with
  | some x => if s.mayLaunch x && cond x then .next (s.launchSerai x) else .next s
  | none => .next s
/-- R83, Full. Without a hint S follows the live fibres of the workgroup (the model's reading, log entry 76). -/
def execSeraiLaunchFull (k : SeraiKey) (s : State) : Result := seraiLaunch s k fun x => decide (s.seraiSize x ≤ (s.seraiSlices x).length)
/-- R83, Timer. -/
def execSeraiTimer (k : SeraiKey) (s : State) : Result := seraiLaunch s k fun x => match oldest x.fibres with
  | some y => decide (y.2 + x.timer ≤ s.now (dieOf x.spn))
  | none => false
/-- R83, Drained. -/
def execSeraiLaunchDrained (k : SeraiKey) (s : State) : Result := seraiLaunch s k fun x =>
  s.convoys.all fun v => v.2.wg != x.wg || v.2.spn != x.spn || (match v.2.wait with
    | .bar _ _ => true
    | .yielded => true
    | _ => false)
/-- R83, Capacity: while a fibre waits outside the 64 open serais of an SP, the oldest of them launches: the one opened first (the model's
reading, log entry 77). Once one has closed, the fibres outside enter. -/
def execSeraiLaunchCapacity (spn : Nat) (s : State) : Result :=
  let waits := s.outside.any fun o => match tget s.fibres o.fib with | some f => f.spn == spn | none => false
  match s.serais.filter fun x => x.spn == spn with
  | [] => .next (if waits then s.letIn spn else s)
  | x :: r =>
    let o := r.foldl (fun (a : Serai) b => if b.opened < a.opened then b else a) x
    if !waits then .next s
    else if r.length + 1 < 64 then .next (s.letIn spn)
    else if s.mayLaunch o then .next (s.launchSerai o) else .next s

/-! ## Eviction (R307, R447) -/

/-- Workgroups resident on a core. -/
def State.residentOn (s : State) (core : Nat) : Tbl Wg := s.wgs.filter fun g => g.2.resident && g.2.sps.any fun p => coreOf p == core
/-- Whether workgroup a was placed after b: on one die, placed in a later core cycle, and in the same cycle of a later launch, then of a
higher WGID (R447); between dies, whose counts are not compared (R12), later in the order of all placements. -/
def younger (a b : Nat × Wg) : Bool :=
  if dieOf (a.2.sps.headD 0) ≠ dieOf (b.2.sps.headD 0) then decide (b.2.order < a.2.order)
  else if a.2.placed ≠ b.2.placed then decide (b.2.placed < a.2.placed)
  else if a.2.launch ≠ b.2.launch then decide (b.2.launch < a.2.launch)
  else decide (b.2.wgid.toNat < a.2.wgid.toNat)
/-- The youngest of some workgroups. -/
def youngest : Tbl Wg → Option (Nat × Wg)
  | [] => none
  | x :: r => match youngest r with
    | none => some x
    | some y => if younger y x then some y else some x
/-- A convoy waits for rows. -/
def Convoy.wantsRows (v : Convoy) : Bool := match v.wait with
  | .grow _ _ _ => true
  | .spawn _ _ _ _ => true
  | _ => false
/-- A workgroup that R307 may evict: it is staging or runs, and is not halted (R447). -/
def State.evictable (s : State) (g : Wg) : Bool :=
  (g.phase == .running || g.phase == .staging) && g.sps.all fun p => !(s.sp p).halted
/-- Re-queues a workgroup ahead of the waybills of its priority (R299). -/
def State.requeue (s : State) (w l : Nat) : State :=
  { s with launches := tmod s.launches l fun a => { a with requeued := a.requeued ++ [w] } }
/-- Evicts a workgroup: cut back, written to spawn memory, its rows freed. Its record is EVICT. -/
def State.evict (s : State) (w : Nat) (g : Wg) : State :=
  let s1 := (s.convoysOf w).foldl (fun s v => s.cutBack v.1) s
  let s2 := ((s1.convoysOf w).foldl (fun s v => s.modConvoy v.1 fun v => { v with wait := .yielded }) s1).saveWg w
  ((s2.modWg w fun g' => { g' with evicted := some false }).requeue w g.launch).record
    { source := 0x04, cls := 0x32, colour := g.colour, recov := 0x5, spn := g.sps.headD 0, wgid := g.wgid } false
/-- The lowest position of a convoy that waits for rows. -/
def State.rowsPos (s : State) (v : Convoy) : Nat := match v.wait with
  | .grow _ left _ => (((s.lanes v).find? fun l => left.contains l.id).map (·.pos)).getD 0
  | .spawn left _ _ _ => (((s.lanes v).find? fun l => left.any fun x => x.1 == l.pos).map (·.pos)).getD 0
  | _ => 0
/-- The second deadlock eviction of a workgroup: each convoy of it that waits for rows takes the grow-capacity trap (R307, R415). -/
def State.growTraps (s : State) (w : Nat) : State :=
  ((s.convoysOf w).filter fun v => v.2.wantsRows).foldl (fun t v =>
    t.trap v.1 { cls := clsGrowcap, code := 0x041, pos := s.rowsPos v.2 }) s
/-- R307: when every resident convoy of a core waits for rows and none can be granted, the youngest workgroup is evicted; evicted
again without progress, its waiting fibres trap (R415). One on an SP that is rolled back or saved waits for that (R448). -/
def execGrowDeadlockEvict (core : Nat) (s : State) : Result :=
  let vs := s.convoys.filter fun v => coreOf v.2.spn == core
  let stuck := !vs.isEmpty && vs.all (fun v => v.2.wantsRows) && !(s.core core).grow.isEmpty
    && decide ((s.grantAll (s.core core).grow).2 = (s.core core).grow)
  let cands := (s.residentOn core).filter fun g => s.evictable g.2
  match stuck, youngest cands with
  | true, some (w, g) =>
    if g.sps.any fun p => (s.sp p).hold.isSome then .next s
    else if g.evicted == some false then .next (s.growTraps w)
    else if s.cmds.any fun m => m.2.wg == w && m.2.live && !(s.cancellable m.2 && m.2.inRegion ((s.convoysOf w).flatMap fun v => s.lanes v.2))
      then .next s
    else .next (s.evict w g)
  | _, _ => .next s

end Sys2Proof.Machine
end

