-- ==== Sys2Proof/Machine/Waybill.lean ====
section
/-! DEFINITION. Waybills (R287–R292, R300, R301, R441, R444): the pop of a bound queue's head record, its checks, and the launch it makes. -/

namespace Sys2Proof.Machine

/-! ## Bindings (R287) -/

def Binding.qcap (b : Binding) : Cap := ⟨b.bits.extractLsb' 0 128, b.qtag⟩
def Binding.ctab (b : Binding) : Cap := ⟨b.bits.extractLsb' 128 128, b.ctag⟩
def Binding.colour (b : Binding) : Nat := (b.bits.extractLsb' 256 12).toNat
def Binding.ceil (b : Binding) : Nat := (b.bits.extractLsb' 268 8).toNat
def Binding.home (b : Binding) : Nat := (b.bits.extractLsb' 276 2).toNat
def Binding.en (b : Binding) : Bool := b.bits.getLsbD 278
/-- Sets EN. -/
def Binding.setEn (b : Binding) (on : Bool) : Binding :=
  { b with bits := if on then b.bits ||| (1#512 <<< 278) else b.bits &&& ~~~(1#512 <<< 278) }
def State.binding (s : State) (i : Nat) : Binding := (tget s.host.binds i).getD {}
def State.putBinding (s : State) (i : Nat) (b : Binding) : State := { s with host := { s.host with binds := tput s.host.binds i b } }

/-! ## The fields of a waybill (R289) -/

def Launch.nospec (l : Launch) : Bool := gbits l.g 0 17 1 == 1
def Launch.prio0 (l : Launch) : Nat := gbits l.g 0 24 8
def Launch.bwphase (l : Launch) : Nat := gbits l.g 0 32 3
/-- The declared window size in words. -/
def Launch.wsz (l : Launch) : Nat := 8 * (gbits l.g 0 35 5 + 1)
/-- SPs of a workgroup. -/
def Launch.nsp (l : Launch) : Nat := gbits l.g 0 40 2 + 1
def Launch.nreg (l : Launch) : Nat := gbits l.g 0 42 5
/-- Initial fibres of a workgroup. -/
def Launch.nfib (l : Launch) : Nat := gbits l.g 0 48 16 + 1
def Launch.deadl (l : Launch) : Nat := gbits l.g 0 64 32
def Launch.rlist (l : Launch) : Cap := l.g.getD 2 nullCap
/-- The workgroups of a launch. -/
def Launch.total (l : Launch) : Nat := (gbits l.g 5 32 16 + 1) * (gbits l.g 5 48 16 + 1) * (gbits l.g 5 64 16 + 1)
/-- A wide barrier or collective request (R300, R301). -/
structure BarReq where
  scope : Scope
  lslot : Nat
  join : Nat
  coll : Bool
  p : Nat
  deriving DecidableEq, Repr
/-- The 64 bits of entry e of g6 and g7. -/
def barWord (g : List Cap) (e : Nat) : Nat := gbits g (6 + e / 2) (64 * (e % 2)) 64
/-- A valid entry with its SCOPE; none for a SCOPE narrower than `.quad` or reserved. -/
def barReq (w : Nat) : Option BarReq := match scopeCodes.lookup (w / 2 ^ 60 % 8) with
  | some sc => if 3 ≤ w / 2 ^ 60 % 8 ∧ w / 2 ^ 60 % 8 ≤ 6 then
      some ⟨sc, w / 2 ^ 56 % 16, w / 2 ^ 40 % 2 ^ 16, w / 2 ^ 39 % 2 == 1, w % 2 ^ 32⟩ else none
  | none => none
/-- The valid entries of a waybill. -/
def barWords (g : List Cap) : List Nat := ((List.range 4).map fun e => barWord g e).filter fun w => w / 2 ^ 63 % 2 == 1
def barReqs (g : List Cap) : List BarReq := (barWords g).filterMap barReq

/-! ## Checks (R290, R291, R440) -/

/-- An untagged granule that is a reference, as its index. -/
def Cap.reference (k : Cap) : Option Nat :=
  if !k.tag && k.bits.toNat / 2 ^ 12 == 8 then some (k.bits.toNat % 2 ^ 12) else none
/-- The entry of a capability table that a reference picks: a tagged, live capability of the colour, read as `ldk` reads it. -/
def State.resolveRef (s : State) (b : Binding) (i : Nat) : Option Cap :=
  let t := b.ctab
  if (s.capCause b.colour t { kinds := [kindData], perms := permLd ||| permLdk } (16 * i) 16).isSome
    || (s.rangeCause b.colour false {} false (t.lo + 16 * i) 16).isSome then none
  else
    let k := s.filter (s.granuleAt (t.lo + 16 * i))
    if s.live k b.colour then some k else none
/-- A granule that must be a capability: itself when it is tagged, what its reference picks, else the cause. -/
def State.granuleCap (s : State) (b : Binding) (k : Cap) (ok : Cap → Bool) : Except Nat Cap :=
  if k.tag then (if ok k then .ok k else .error 0x05)
  else match k.reference with
    | none => .error 0x05
    | some i => match s.resolveRef b i with
      | none => .error 0x06
      | some c => if ok c then .ok c else .error 0x05
/-- What each granule of a waybill must be; none where it stands as it is. A hint table that storage does not deliver makes its granule fail
(log entry 78). -/
def State.granuleOk (s : State) (b : Binding) (g : List Cap) (n : Nat) : Option (Cap → Bool) :=
  let use (kind : BitVec 4) (p : BitVec 16) (o len : Nat) (c : Cap) : Bool :=
    (s.capCause b.colour c { kinds := [kind], perms := p } o len).isNone
  let untagged (c : Cap) : Bool := !c.tag
  if n = 1 then some (use kindCode permExec 0 8)
  else if n = 2 then
    if gbits g 0 42 5 = 0 then some untagged else some fun c => use kindData permLd 0 (32 * gbits g 0 42 5) c && c.lo % 32 == 0
  else if n = 3 then
    if gbits g 5 88 7 = 0 then some untagged
    else some fun c => use kindData permLd 0 (8 * gbits g 5 88 7) c && (s.rangeCause b.colour false {} false c.lo (8 * gbits g 5 88 7)).isNone
  else if n = 4 then
    if gbits g 0 18 1 = 0 then some untagged
    else some fun c => use kindData permSt (gbits g 5 0 32) 4 c && (c.lo + gbits g 5 0 32) % 4 == 0
  else if 8 ≤ n ∧ gbits g 5 (80 + (n - 8)) 1 = 1 then some fun c => s.live c b.colour
  else none
/-- Whether a granule stands for no capability: it must then be untagged, and is not resolved. -/
def granuleAbsent (g : List Cap) (n : Nat) : Bool :=
  (n == 2 && gbits g 0 42 5 == 0) || (n == 3 && gbits g 5 88 7 == 0) || (n == 4 && gbits g 0 18 1 == 0)
/-- The granules of a waybill, resolved; granules without a capability lose any tag. -/
def State.resolveAll (s : State) (b : Binding) (g : List Cap) : Except Nat (List Cap) :=
  (List.range 16).foldr (fun n acc =>
    let k := g.getD n nullCap
    let r : Except Nat Cap :=
      if granuleAbsent g n then (if k.tag then .error 0x05 else .ok k)
      else match s.granuleOk b g n with
        | some ok => s.granuleCap b k ok
        | none => .ok k.untag
    match r, acc with
    | .error a, .error c => .error (min a c)
    | .error a, .ok _ => .error a
    | .ok _, .error c => .error c
    | .ok k, .ok l => .ok (k :: l)) (.ok [])
/-- An entry of a hint table: offset, S and T; none where it breaks R83 or a reserved bit is set. -/
def hintAt (w : Nat) : Option (Nat × Nat × Nat) :=
  let t := w / 2 ^ 40 % 2 ^ 16
  if w / 2 ^ 39 % 2 = 0 ∧ w / 2 ^ 56 = 0 ∧ 16 ≤ t then some (w % 2 ^ 32, w / 2 ^ 32 % 128 + 1, t) else none
/-- The hint table of a resolved waybill. -/
def State.readHints (s : State) (g : List Cap) : List (Option (Nat × Nat × Nat)) :=
  (List.range (gbits g 5 88 7)).map fun i => hintAt (leNat (s.rdHome ((g.getD 3 nullCap).lo + 8 * i) 8))
/-- Whether two requests name one hardware slot. -/
def BarReq.same (a b : BarReq) : Bool := a.scope == b.scope && a.join == b.join && a.coll == b.coll
/-- A request that breaks R300 or R301 for a colour. -/
def State.barBad (s : State) (colour w : Nat) : Bool := match barReq w with
  | none => true
  | some r => r.p == 0 || (r.coll && r.scope != .pkg && r.scope != .pod) ||
      s.launches.any fun l => l.2.colour == colour && (barReqs l.2.g).any fun q => q.same r && q.p != r.p
/-- The capability of the hint table that a waybill's granule 3 gives, when that is what it must be. -/
def State.hintCap (s : State) (b : Binding) (g : List Cap) : Option Cap :=
  if granuleAbsent g 3 then none
  else match (s.granuleOk b g 3).map fun ok => s.granuleCap b (g.getD 3 nullCap) ok with
    | some (.ok k) => some k
    | _ => none
/-- Whether that table holds an entry that breaks R83. -/
def State.hintsBad (s : State) (b : Binding) (g : List Cap) : Bool := match s.hintCap b g with
  | some k => (s.readHints (g.set 3 k)).any (·.isNone)
  | none => false
/-- The lowest cause that a waybill breaks, else its granules resolved and its hints (R291, R440). Bits 38:32 of a BARe entry must be 0
where the entry is valid: with VALID 0 no bit of it is looked at (log entry 90). -/
def State.checkWaybill (s : State) (b : Binding) (g : List Cap) : Except Nat (List Cap × List (Nat × Nat × Nat)) :=
  let z (n lo len : Nat) : Bool := gbits g n lo len != 0
  if z 0 10 6 || z 0 19 5 || z 0 47 1 || z 5 95 33 || (barWords g).any (fun w => w / 2 ^ 32 % 128 != 0) then .error 0x02
  else if gbits g 0 42 5 > 16 || gbits g 5 88 7 > 64
    || decide (512 * (gbits g 0 40 2 + 1) * (256 / (8 * (gbits g 0 35 5 + 1))) < gbits g 0 48 16 + 1)
    || decide (2 ^ 32 < (gbits g 5 32 16 + 1) * (gbits g 5 48 16 + 1) * (gbits g 5 64 16 + 1)) then .error 0x03
  else if s.hintsBad b g then .error 0x04
  else match s.resolveAll b g with
    | .ok r => if (barWords r).any (s.barBad b.colour) then .error 0x07 else .ok (r, (s.readHints r).filterMap fun h => h)
    | .error n => .error n

/-! ## The pop (R288, R441, R444) -/

/-- Whether a world carries out a STOP, RESET or DEPART, whose status word is still to be written (R316, R445). -/
def World.stops (w : World) : Bool := match w.waiting with
  | some r => let op := r.bits.toNat / 2 ^ 16 % 256; op == 5 || op == 6 || op == 7
  | none => false
/-- Whether a world's work is being stopped (R445). -/
def State.stoppingWorld (s : State) (colour : Nat) : Bool := match tget s.worlds colour with
  | some w => w.stopping || w.stops || w.mode == .forming || w.mode == .departing
  | none => true
/-- Whether a bound queue lies behind a host link that is down (R461). -/
def State.linkHeld (s : State) (k : Cap) : Bool := match window k.lo with
  | .host => !s.host.linkUp
  | _ => false
/-- Why a binding's capabilities fail R55. -/
def State.bindBad (s : State) (b : Binding) : Bool :=
  (s.capCause b.colour b.qcap { kinds := [kindQueue], perms := permLd ||| permSt } 0 64).isSome
    || (s.rangeCause b.colour false {} true b.qcap.lo 64).isSome
    || (b.ctab.bits != 0 && (s.capCause b.colour b.ctab { kinds := [kindData], perms := permLd ||| permLdk } 0 0).isSome)
/-- A launch of a binding has workgroups still to be placed for the first time: it holds the queue back. -/
def State.heldBack (s : State) (i : Nat) : Bool := s.launches.any fun l => l.2.binding == i && l.2.aborted.isNone && decide (l.2.next < l.2.total)
/-- A binding whose queue the scheduler of a die looks at now: one at fault, or one whose head record it can take, earlier reservations of
which have been released, so that its own release follows at once (R278; log entry 91). -/
def State.servable (s : State) (die i : Nat) : Bool :=
  let b := s.binding i
  b.en && b.home == die && !s.stoppingWorld b.colour && !s.heldBack i && !s.linkHeld b.qcap && s.host.mode != 3
    && (s.bindBad b || (s.qhdr b.qcap.lo).bad || ((s.qhdr b.qcap.lo).crsv != (s.qhdr b.qcap.lo).tail && (s.qhdr b.qcap.lo).head == (s.qhdr b.qcap.lo).crsv))
/-- The effective priority of the record at the head of a bound queue. -/
def State.headPrio (s : State) (b : Binding) : Nat :=
  let h := s.qhdr b.qcap.lo
  let a := slotAddr b.qcap.lo (h.crsv % h.cap)
  if s.bindBad b || h.bad || (s.rangeCause b.colour false {} false a 64).isSome then b.ceil else min (leNat (s.rdHome (a + 3) 1)) b.ceil
/-- The binding served next: the highest head, ties in turn from the last one served (R288). -/
def State.nextBinding (s : State) (die : Nat) : Option Nat :=
  let order := (List.range 64).map fun j => ((tget s.host.roundRobin die).getD 0 + j) % 64
  (order.filter fun i => s.servable die i).foldl (fun best i => match best with
    | none => some i
    | some j => if s.headPrio (s.binding j) < s.headPrio (s.binding i) then some i else some j) none
/-- A WBREJ record (R439, R441). -/
def State.wbrej (s : State) (colour cause : Nat) (addr : Addr) : State :=
  s.record { source := 0x04, cls := 0x30, colour := colour, recov := 0x0, code := BitVec.ofNat 16 cause, addr := addr } true
/-- The consumer's index and release in one step. -/
def State.consume (s : State) (b : Addr) (start n : Nat) : State := ((s.putQword b 3 (start + n)).qrelease b start n)
/-- A shared slot of a request, with the unit it belongs to. -/
def State.barOf (s : State) (colour : Nat) (r : BarReq) : Option (Nat × Option Nat) :=
  if r.coll then (tfind s.clxs fun b => b.colour == colour && b.scope == r.scope && b.join == r.join).map fun x => (x.1, none)
  else (tfind s.bars fun b => b.colour == colour && b.scope == r.scope && b.join == r.join).map fun x => (x.1, x.2.unit)
/-- A launch names the hardware slots that its world already holds under its requests (R300, R301). -/
def State.joinSlots (s : State) (l colour : Nat) (rs : List BarReq) : State := rs.foldl (fun s r => match s.barOf colour r with
  | some (k, _) =>
    if r.coll then { s with clxs := tmod s.clxs k fun b => { b with launches := l :: b.launches.filter (· != l) } }
    else { s with bars := tmod s.bars k fun b => { b with launches := l :: b.launches.filter (· != l) } }
  | none => s) s
/-- The launches of a colour that name the slot of a request. -/
def State.namers (s : State) (colour : Nat) (r : BarReq) : List Nat :=
  (s.launches.filter fun x => x.2.colour == colour && (barReqs x.2.g).any fun q => q.same r).map (·.1)
/-- Creates the launch of a waybill. -/
def State.newLaunch (s : State) (i : Nat) (b : Binding) (g : List Cap) (hs : List (Nat × Nat × Nat)) : State :=
  let l : Launch := { g := g, binding := i, colour := b.colour, gen := s.gen b.colour, home := b.home, acquired := s.now b.home,
                      hints := hs.map fun h => ((g.getD 1 nullCap).lo + h.1, h.2.1, h.2.2) }
  { s.nextId with launches := tput s.launches s.ids l }.joinSlots s.ids b.colour (barReqs g)
/-- A binding whose queue is at fault is no longer served; its ERR is not written (R440, R444). -/
def State.unbind (s : State) (i : Nat) (b : Binding) : State :=
  (s.putBinding i (b.setEn false)).record { source := 0x04, cls := 0x31, colour := b.colour, recov := 0x0, addr := b.qcap.lo } true
/-- Takes the record at the head of a bound queue. Its slots are copied as `qpop` copies them, so that tags stay only where QCAP has LDK
(R54, R290). -/
def State.popBound (s0 : State) (i : Nat) (b : Binding) : State :=
  let q := b.qcap.lo
  let h := s0.qhdr q
  let f := s0.found q
  let slot := slotAddr q (h.crsv % h.cap)
  let n := 64 * min f.m (h.cap - h.crsv % h.cap)
  let s := s0.passRd b.colour none slot n
  let onH (k : State → State) : State := s.onQueue (plainAgent b.colour) q 64 k
  let reject (cause k : Nat) : State := (onH fun s => (s.qerr q cause (h.crsv % h.cap)).consume q h.crsv k).wbrej b.colour cause slot
  if (s.capCause b.colour b.qcap { kinds := [kindQueue], perms := permLd ||| permSt } (slot - q) n).isSome
      || (s.rangeCause b.colour false {} true slot n).isSome then s.unbind i b
  else if f.cause ≠ 0 then reject f.cause f.k
  else if f.skip then onH fun s => s.consume q h.crsv f.m
  else if s.recType q (h.crsv % h.cap) ≠ 2 ∨ f.m ≠ 4 then reject 0x01 f.m
  else
    let g := (s.rdCaps slot 16).map fun k => s.filter { k with tag := k.tag && b.qcap.has permLdk }
    match s.checkWaybill b g with
    | .error n => reject n 4
    | .ok (r, hs) =>
      ((onH fun s => s.consume q h.crsv 4).passRd b.colour none (r.getD 3 nullCap).lo (8 * hs.length)).newLaunch i b r hs
/-- The memory that a pop at the head of a bound queue reads: the record, and the hints of a waybill (R83, R118). -/
def State.popReads (s : State) (b : Binding) : List (Addr × Nat) :=
  let slot := slotAddr b.qcap.lo ((s.qhdr b.qcap.lo).crsv % (s.qhdr b.qcap.lo).cap)
  let g := s.rdCaps slot 16
  (slot, 256) :: (match s.hintCap b g with
    | some k => [(k.lo, 8 * gbits g 5 88 7)]
    | none => [])
/-- R288. -/
def execWaybillPop (die : Nat) (s : State) : Result := match s.nextBinding die with
  | none => .next s
  | some i =>
    let b := s.binding i
    let s1 := { s with host := { s.host with roundRobin := tput s.host.roundRobin die ((i + 1) % 64) } }
    if s1.bindBad b then .next (s1.unbind i b)
    else if (s1.qhdr b.qcap.lo).bad then .next (s1.unbind i b)
    else match s1.awaits (s1.popReads b) [(b.qcap.lo, 64)] with
      | some t => .next { t with host := s.host }
      | none => .next (s1.popBound i b)

end Sys2Proof.Machine
end

