-- ==== Sys2Proof/Machine/Anvil.lean ====
section
/-! DEFINITION. The Anvil (R157, R293–R296, R402): keys, the residual image of a kernel and its unrolled loops, the on-die caches and
the backing store with pinning and eviction, lookups, and the end of a specialisation. -/

namespace Sys2Proof.Machine

/-! ## Keys (R293) -/

/-- The static argument words of a launch. -/
def Launch.statics (l : Launch) : List Byte :=
  leBytes 4 (gbits l.g 0 96 32) ++ (List.range 32).flatMap fun i =>
    if gbits l.g 0 (96 + i) 1 = 1 then leBytes 4 (gbits l.g (8 + i / 4) (32 * (i % 4)) 32) else []
/-- The key of a launch's residual code (R293). -/
def Launch.key (l : Launch) : BitVec 256 :=
  let k := l.g.getD 1 nullCap
  BitVec.ofNat 36 (k.lo / 8) ++ k.gen ++ k.colour ++ Config.anvRev ++ (Config.sha512 l.statics).extractLsb' 0 192
/-- Whether a launch's code may be specialised at all. -/
def Launch.specialised (l : Launch) : Bool := !l.nospec && decide (l.entry < 0x80_0000_0000)

/-! ## The residual of a kernel (R157, R295, R296, R402) -/

/-- The clauses of a range of code: address, header, words; a walk ends at the first word that is no header. -/
def State.clauses (s : State) (hi : Addr) : Nat → Addr → List (Addr × DWord × List DWord)
  | 0, _ => []
  | fuel + 1, a =>
    if hi < a + 8 then []
    else
      let w := s.rd64 a
      let n := if w.extractLsb' 56 8 = 0xFE then (Header.ofWord w).words else 0
      let x := (a, w, (List.range n).map fun i => s.rd64 (a + 8 * (i + 1)))
      if w.extractLsb' 56 8 = 0xFE then x :: s.clauses hi fuel (a + 8 * (n + 1)) else [x]
/-- The instructions of a clause's words; a word that raises ILLEGAL by its encoding, by an unassigned opcode or as a misused `rep` ends
the walk with none (R403, R406). -/
def instrsOf : Nat → List DWord → List (Option Instr)
  | 0, _ => []
  | _, [] => []
  | fuel + 1, w :: ws => match decode w ws with
    | .ok (.unassignedOpcodeIssue _) _ => [none]
    | .ok (.repOp o) _ => match ws with
      | y :: r => if repMisuse o y (r.headD 0) then [none] else some (.repOp o) :: instrsOf fuel ws
      | [] => [none]
    | .ok i n => some i :: instrsOf fuel (ws.drop (n - 1))
    | .illegal _ => [none]
/-- Whether a source field names a latch that is not among those written. -/
def unwritten (done : BitVec 4) (n : BitVec 9) : Bool :=
  decide (0x100 ≤ n.toNat) && decide (n.toNat < 0x104) && !done.getLsbD (n.toNat - 0x100)
/-- Whether every latch that a word of a clause names as a source is the destination of an earlier word (R405). -/
def latchSound : Nat → BitVec 4 → List DWord → Bool
  | 0, _, _ => true
  | _, _, [] => true
  | fuel + 1, done, w :: ws =>
    let f := Fields.ofWord w
    let n := (decodeAll w ws).2
    !(unwritten done f.a || unwritten done f.b || (!formatI f.opc.toNat && unwritten done f.cc))
      && latchSound fuel (if f.wbs = 1 then done ||| (1#4 <<< (f.dst.toNat % 4)) else done) (ws.drop (n - 1))
/-- Whether a clause ends in a region-ending instruction (R147). -/
def endsInRegion (ws : List DWord) : Bool := match (instrsOf 16 ws).getLast? with
  | some (some i) => i.endsRegion
  | _ => false
/-- Whether specialisation meets nothing by which it abandons the key (R402): each clause keeps the header rules of its place, the one after
a region-ending instruction with RE set (R400), and no word would raise ILLEGAL. The window of a fibre is known at issue alone (log entry
66). -/
def kernelSound (entry : Addr) : Bool → List (Addr × DWord × List DWord) → Bool
  | _, [] => true
  | after, c :: r => (clauseViol c.2.1 c.2.2 (c.1 == entry) after).isEmpty && (instrsOf 16 c.2.2).all (·.isSome)
      && latchSound 16 0 c.2.2 && kernelSound entry (endsInRegion c.2.2) r
/-- The target of a closing branch that is marked as static control, in the clause at an address. -/
def closing (a : Addr) (ws : List DWord) : Option Addr :=
  let at_ (c : Ctl) (imm : BitVec 21) : Option Addr :=
    if c.bt = .ctl then some (((a : Int) + 8 * targetImm imm c.lit) % 2 ^ 52).toNat else none
  match (instrsOf 16 ws).getLast? with
  | some (some (.bra o)) => at_ o.c o.imm
  | some (some (.brc o)) => at_ o.c o.imm
  | _ => none
/-! ### The slice of a trip count (R295) -/

/-- A register that a trip count can rest on. -/
inductive SliceReg where
  | v (n : Nat)
  | s (n : Nat)
  | p (n : Nat)
  | q (n : Nat)
  deriving DecidableEq, Repr
/-- The registers of a class V field, 32 or 64 bits wide; a latch and the literal are none. -/
def sliceV (wide : Bool) (n : Nat) : List SliceReg :=
  if n < 0x100 then .v n :: (if wide then [.v (n + 1)] else [])
  else if 0x140 ≤ n ∧ n < 0x180 then .s (n - 0x140) :: (if wide then [.s (n - 0x140 + 1)] else []) else []
/-- How many of its source fields a form of the integer and floating-point groups reads (R181, R190). -/
def sliceArity (opc : Nat) : Nat :=
  let e := opc / 2 * 2
  if opc < 0x3C then
    if e = 0x00A ∨ e = 0x032 ∨ e = 0x034 ∨ e = 0x036 then 3
    else if e = 0x010 ∨ e = 0x012 ∨ e = 0x020 ∨ (0x02A ≤ e ∧ e ≤ 0x030) ∨ e = 0x03A then 1 else 2
  else if opc = 0x043 ∨ opc = 0x057 then 3
  else if opc ≤ 0x046 ∨ opc = 0x04C ∨ opc = 0x055 ∨ opc = 0x056 then 2 else 1
/-- What a word of the integer or floating-point group, a `vote` or a `bcast` writes and reads, its guard among the reads. -/
def sliceOf (f : Fields) : Option (List SliceReg × List SliceReg) :=
  let opc := f.opc.toNat
  let g : List SliceReg := if f.gd = 0 then [] else [.p (f.gd.toNat % 8)]
  let wide := decide (opc < 0x40) && decide (opc % 2 = 1)
  let dv := if f.wbs = 1 then [] else sliceV wide f.dst.toNat
  if opc < 0x3C ∨ (0x040 ≤ opc ∧ opc ≤ 0x057) then
    let d := if opc / 2 = 0x01C ∨ opc = 0x046 then [.p f.dst.toNat] else dv
    let b := if opc < 0x3C ∧ bit f 11 then [] else sliceV wide f.b.toNat
    let e := if opc / 2 = 0x01B then [.p f.cc.toNat] else sliceV wide f.cc.toNat
    let old := if opc / 2 = 0x01A then dv else []
    some (d, g ++ old ++ sliceV wide f.a.toNat ++ (if 2 ≤ sliceArity opc then b else []) ++ if 3 ≤ sliceArity opc then e else [])
  else if opc = 0x03C ∨ opc = 0x03D then some (dv, g)
  else if opc = 0x0C2 then some ([.q f.dst.toNat], g ++ [.p f.a.toNat])
  else if opc = 0x0C3 then some ([.s f.dst.toNat], g ++ sliceV false f.a.toNat)
  else none
/-- What a word writes that no launch can know: a load, an atomic, `region` and `sysrd`. -/
def sliceUnknown (f : Fields) : List SliceReg :=
  let opc := f.opc.toNat
  if (opc = 0x100 ∨ (0x104 ≤ opc ∧ opc ≤ 0x10B) ∨ opc = 0x1C6 ∨ opc = 0x1D6) ∧ f.wbs = 0 then [.v f.dst.toNat] else []
/-- Whether the words before a branch, the last first, that compute what it rests on are marked and computed from what a launch can know:
the slice of the branch in its own clause (R295). -/
def sliceMarked : List SliceReg → List Fields → Bool
  | _, [] => true
  | need, f :: r => match sliceOf f with
    | some (ws, rs) =>
      if ws.any need.contains then
        f.bt != 0 && sliceMarked ((if f.gd = 0 then need.filter (fun x => !ws.contains x) else need) ++ rs) r
      else sliceMarked need r
    | none => !(sliceUnknown f).any need.contains && sliceMarked need r
/-- The first words of the instructions of a clause. -/
def headsOf : Nat → List DWord → List Fields
  | 0, _ => []
  | _, [] => []
  | fuel + 1, w :: ws => Fields.ofWord w :: headsOf fuel (ws.drop ((decodeAll w ws).2 - 1))
/-- Whether the closing branch of a clause rests on marked words alone, as far as its clause computes it. -/
def closingMarked (ws : List DWord) : Bool := match (headsOf 16 ws).reverse with
  | [] => false
  | f :: r =>
    let need : List SliceReg := if f.opc = 0x1C1 then (if f.gd = 0 then [] else [.p (f.gd.toNat % 8)])
      else if f.dst.getLsbD 7 then [.q (f.dst.toNat % 4)] else []
    sliceMarked need r
/-- A loop that the Anvil may unroll: from a clause to the clause that branches back to it, on a count that marked words compute, with at
most 64 trips, without a call (R295). -/
def loopOf (cs : List (Addr × DWord × List DWord)) (x : Nat × Nat) : Option (Addr × Addr × Nat) := match cs[x.1]? with
  | none => none
  | some c => match closing c.1 c.2.2 with
    | none => none
    | some t =>
      let calls := cs.any fun y => decide (t ≤ y.1) && decide (y.1 ≤ c.1) && (instrsOf 16 y.2.2).any fun i => match i with
        | some (.callOp _) => true
        | some (.calli _) => true
        | _ => false
      if t ≤ c.1 ∧ closingMarked c.2.2 ∧ cs.any (fun y => y.1 == t) ∧ 1 ≤ x.2 ∧ x.2 ≤ 64 ∧ !calls then some (t, c.1, x.2) else none
/-- Whether a loop holds a clause. -/
def inLoop (a : Addr) (l : Addr × Addr × Nat) : Bool := decide (l.1 ≤ a) && decide (a ≤ l.2.1)
/-- The bytes of a kernel with some loops unrolled. -/
def expanded (cs : List (Addr × DWord × List DWord)) (ls : List (Addr × Addr × Nat)) : Nat :=
  (cs.map fun c => 8 * (1 + c.2.2.length) * ((ls.filter (inLoop c.1)).map fun l => l.2.2).foldl (· * ·) 1).foldl (· + ·) 0
/-- The most bytes of a residual (R295). -/
def residualLimit (len : Nat) : Nat := min (4 * len) 0x4_0000
/-- The loops that are unrolled: of those that Config names, in order, each that breaks no limit (R295) and leaves no clause in more than
three (R296). -/
def unrolled (cs : List (Addr × DWord × List DWord)) (len : Nat) (l : List (Nat × Nat)) : List (Addr × Addr × Nat) :=
  (l.filterMap (loopOf cs)).foldl (fun ls x =>
    let t := ls ++ [x]
    if ls.all (fun y => y.2.1 != x.2.1) && decide (expanded cs t ≤ residualLimit len)
        && cs.all fun c => decide ((t.filter (inLoop c.1)).length ≤ 3) then t else ls) []
/-- The residual image that a specialisation of a launch's kernel gives; none where it abandons the key. -/
def State.specialise (s : State) (la : Launch) : Option AnvilImage :=
  let k := la.g.getD 1 nullCap
  let cs := s.clauses (k.lo + k.len) (k.len / 8) k.lo
  if kernelSound la.entry false cs then
    let ls := unrolled cs k.len (Config.unrolls la.key)
    some { key := la.key, bytes := min (expanded cs ls) (residualLimit k.len), loops := ls }
  else none

/-! ## The caches (R294, R296) -/

/-- Bytes of the on-die cache of an Anvil and of the backing store, and of a negative entry. -/
def anvilCache : Nat := 0x20_0000
def anvilStore : Nat := 0x1000_0000
def negativeBytes : Nat := 32
/-- Whether an image is pinned: a workgroup that runs it is live, saved or evicted (R296). -/
def State.pinned (s : State) (key : BitVec 256) : Bool := s.wgs.any fun g => match tget s.launches g.2.launch with
  | some l => l.key == key && tget l.code (dieOf (g.2.sps.headD 0)) == some .residual
  | none => false
/-- Bytes of some images. -/
def imageBytes (l : List AnvilImage) : Nat := (l.map fun x => x.bytes).foldl (· + ·) 0
/-- Evicts unpinned images, the oldest first, until so many bytes are free (log entry 66). -/
def evictImages (pinned : BitVec 256 → Bool) : Nat → List AnvilImage → List AnvilImage
  | _, [] => []
  | n, x :: r => if n = 0 then x :: r else if pinned x.key then x :: evictImages pinned n r else evictImages pinned (n - x.bytes) r
/-- A cache with an image entered, newest first; none when it is full of pinned images. -/
def enterImage (pinned : BitVec 256 → Bool) (cap : Nat) (l : List AnvilImage) (x : AnvilImage) : Option (List AnvilImage) :=
  let rest := l.filter fun y => y.key != x.key
  let kept := (evictImages pinned (imageBytes rest + x.bytes - cap) rest.reverse).reverse
  if imageBytes kept + x.bytes ≤ cap then some (x :: kept) else none
/-- The images of a die's cache. -/
def Anvil.onDie (a : Anvil) (die : Nat) : List AnvilImage := (tget a.die die).getD []
/-- Enters an image into a die's cache, where it fits. -/
def State.enterDie (s : State) (die : Nat) (x : AnvilImage) : State := match enterImage s.pinned anvilCache (s.anvil.onDie die) x with
  | some l => { s with anvil := { s.anvil with die := tput s.anvil.die die l } }
  | none => s
/-- The Anvil's answer for a launch on a die; residual code brings its loops. -/
def State.answerCode (s : State) (l die : Nat) (c : CodeState) (loops : List (Addr × Addr × Nat)) : State :=
  { s with launches := tmod s.launches l fun a => { a with code := tput a.code die c, loops := if c = .residual then loops else a.loops } }
/-- The lookup of a die's Anvil (R294): steps 1, 2 and 4, else specialisation begins. -/
def State.anvilLook (s : State) (l die : Nat) (la : Launch) : State :=
  if (tget la.code die).isSome then s
  else if !la.specialised then s.answerCode l die .original []
  else match (s.anvil.onDie die).find? fun x => x.key == la.key with
    | some x => s.answerCode l die .residual x.loops
    | none => match s.anvil.store.find? fun x => x.key == la.key with
      | some x =>
        let t := s.firmwarePass false (anvilKey x.key) x.bytes
        if x.negative then t.answerCode l die .original [] else (t.enterDie die x).answerCode l die .residual x.loops
      | none => s.answerCode l die .pending []
/-- The budget of a specialisation. -/
def anvilBudget : Nat := 2 ^ 20
/-- A key is abandoned: a negative entry, and original code (R294, R402). An image of the key that another die has entered and a workgroup
pins stays (R296). -/
def State.abandonKey (s : State) (l die : Nat) (la : Launch) : State :=
  let t : State := if s.anvil.store.any (fun x => x.key == la.key) && s.pinned la.key then s else match enterImage s.pinned anvilStore s.anvil.store { key := la.key, bytes := negativeBytes, negative := true } with
    | some x => { s with anvil := { s.anvil with store := x } }.firmwarePass true (anvilKey la.key) negativeBytes
    | none => s
  t.answerCode l die .original []
/-- A specialisation has finished: the image enters both caches; a backing store full of pinned images gives original code (R296). -/
def State.finishImage (s : State) (l die : Nat) (x : AnvilImage) : State :=
  match enterImage s.pinned anvilStore s.anvil.store x with
  | some st => (({ s with anvil := { s.anvil with store := st } }.firmwarePass true (anvilKey x.key) x.bytes).enterDie die x).answerCode l die .residual
    x.loops
  | none => s.answerCode l die .original []
/-- R294, R295, R402: a specialisation ends within its budget, or meets a word by which it abandons the key. -/
def execAnvilSpecialiseDone (l die : Nat) (s : State) : Result := match tget s.launches l with
  | none => .next s
  | some a =>
    if tget a.code die = some .pending ∧ s.now a.home < a.acquired + anvilBudget then
      match s.specialise a with
      | some x => .next (s.finishImage l die x)
      | none => .next (s.abandonKey l die a)
    else .next s
/-- R294: at the end of its budget a specialisation is abandoned, with a negative entry. The budget counts core cycles of the home die, where
the key is formed, whichever die's Anvil specialises (the model's choice, log entry 96). -/
def execAnvilBudgetExpiry (l die : Nat) (s : State) : Result := match tget s.launches l with
  | none => .next s
  | some a =>
    if tget a.code die = some .pending ∧ a.acquired + anvilBudget ≤ s.now a.home then .next (s.abandonKey l die a) else .next s

end Sys2Proof.Machine
end

