-- ==== Sys2Proof/Machine/Sched.lean ====
section
/-! DEFINITION. The scheduler (R106, R292–R303, R309–R313, R394, R395, R472): placement, staging, completion,
yield requests, saves and restores, migration, and the replacement of a core. -/

namespace Sys2Proof.Machine

/-! ## Room for a workgroup (R75, R297, R299, R300) -/

/-- The effective priority of a launch's workgroups not yet placed (R288, R302). -/
def State.effOf (s : State) (l : Launch) : Nat := let ceil := (s.binding l.binding).ceil; if l.late then ceil else min l.prio0 ceil
/-- Windows that R75 gives a lane of the first SP of m. -/
def lanesNeed (n m lane : Nat) : Nat := if lane < n then (n - lane - 1) / (512 * m) + 1 else 0
/-- Whether an SP's lane columns hold the declared windows of a launch. -/
def fitsSp (held : List (List Fibre)) (l : Launch) (spn : Nat) : Bool :=
  (List.range (min 512 l.nfib)).all fun lane =>
    let c := lanesNeed l.nfib l.nsp lane
    held.all fun h => roomIn h spn lane 0 (c * l.wsz) c
/-- `.core` slots of a core in use: one for each workgroup that holds it. -/
def State.coreSlots (s : State) (core : Nat) (but : Option Nat) : Nat :=
  (s.wgs.filter fun g => some g.1 != but &&
    ((g.2.left.any fun f => coreOf f.spn == core)
      || ((g.2.resident || s.keeps g.2) && g.2.sps.any fun p => coreOf p == core)
      || (match g.2.phase with | .moving t => t.any fun p => coreOf p == core | _ => false))).length
/-- SPs of a core on which a world's work may be placed, those without a resident workgroup first. One whose issue is stopped for a rollback
or a save takes no new workgroup (the model's choice, log entry 97). -/
def State.candidates (s : State) (core colour : Nat) : List Nat :=
  let own := (s.ownedOn core colour).filter fun p => (s.sp p).hold.isNone
  let busy := s.wgs.flatMap fun g => if g.2.resident then g.2.sps else []
  own.filter (fun p => !busy.contains p) ++ own.filter fun p => busy.contains p
/-- The address of entry i of a launch's region list. -/
def Launch.entryAddr (l : Launch) (i : Nat) : Addr := l.rlist.lo + 32 * i
/-- Why the list of a launch cannot be read (R472). -/
def State.listCause (s : State) (l : Launch) : Option Nat :=
  if l.nreg = 0 then none else s.useCause l.colour l.rlist {} permLd false 0 (32 * l.nreg)
/-- The scratchpad ranges of a launch's region list: offset and bytes. -/
def State.regions (s : State) (l : Launch) : List (Nat × Nat) :=
  if (s.listCause l).isSome then []
  else (List.range l.nreg).map fun i =>
    let g := (s.listGranule (l.entryAddr i + 16)).bits
    ((g.extractLsb' 64 23).toNat, (g.extractLsb' 96 24).toNat)
/-- The quad or die a slot of a scope belongs to on a core. -/
def slotUnit (scope : Scope) (core : Nat) : Option Nat := match scope with
  | .quad => some (core / 4)
  | .die => some (core / 16)
  | _ => none
/-- Barrier slots of a scope (R90). -/
def barSlots : Scope → Nat
  | .quad => 16
  | .die => 32
  | .pkg => 64
  | .pod => 16
  | .core => 16
  | .convoy => 0
  | .lane => 0
/-- Whether a further slot of a scope can be allocated for a core. -/
def State.slotRoom (s : State) (core : Nat) (r : BarReq) : Bool :=
  if r.coll then
    decide (s.clxs.length < 64) && (r.scope != .pod || decide ((s.clxs.filter fun b => b.2.scope == .pod).length < 16))
  else decide ((s.bars.filter fun b => b.2.scope == r.scope && b.2.unit == slotUnit r.scope core).length < barSlots r.scope)
/-- Takes the slot of a request for a launch whose workgroup goes to a core; none when it cannot be had there. -/
def State.takeSlot (s : State) (l core colour : Nat) (r : BarReq) : Option State :=
  let note (s : State) (k : Nat) : State := { s with launches := tmod s.launches l fun a =>
    { a with slots := a.slots ++ [(r.lslot, r.coll, k)] } }
  match s.barOf colour r with
  | some (k, u) =>
    if !r.coll && u != slotUnit r.scope core then none
    else if r.coll then some (note { s with clxs := tmod s.clxs k fun b => { b with launches := l :: b.launches.filter (· != l) } } k)
    else some (note { s with bars := tmod s.bars k fun b => { b with launches := l :: b.launches.filter (· != l) } } k)
  | none =>
    if !s.slotRoom core r then none
    else
      let k := s.ids
      let t := s.nextId
      let ls := s.namers colour r
      if r.coll then some (note { t with clxs := tput t.clxs k { scope := r.scope, join := r.join, colour := colour, c := r.p, launches := ls } } k)
      else some (note { t with bars := tput t.bars k { scope := r.scope, join := r.join, colour := colour, p := r.p, unit := slotUnit r.scope core, launches := ls } } k)
/-- The slots of a launch for a core: taken when its first workgroup is placed; later ones stay in their quad or die (R300). -/
def State.takeSlots (s : State) (l core : Nat) (la : Launch) : Option State :=
  if la.slots.isEmpty then (barReqs la.g).foldl (fun s r => s.bind fun s => s.takeSlot l core la.colour r) (some s)
  else if (barReqs la.g).all fun r => match s.barOf la.colour r with
      | some (_, u) => r.coll || u == slotUnit r.scope core
      | none => true
    then some s else none
/-- The SPs of a core that R297 chooses for a workgroup, in ascending order. -/
def State.chooseSps (s : State) (held : List (List Fibre)) (core : Nat) (la : Launch) : Option (List Nat) :=
  let l := ((s.candidates core la.colour).filter fun p => fitsSp held la p).take la.nsp
  if l.length < la.nsp || (s.core core).dead || (s.core core).failing || decide (16 ≤ s.coreSlots core none)
    || !(s.regions la).all (fun r => (s.spadCause core la.colour (spadBase core + r.1) r.2).isNone) then none
  else some (sortNat l)
/-- Where the next workgroup of a launch goes among some cores: the first that takes it, with its slots taken. -/
def State.findPlace (s : State) (cores : List Nat) (l : Nat) (la : Launch) : Option (List Nat × State) :=
  let held := s.places none
  cores.findSome? fun core => (s.chooseSps held core la).bind fun sps => (s.takeSlots l core la).map fun t => (sps, t)

/-! ## Placement (R75, R106, R292, R297, R299) -/

/-- The uniform state that a launch gives its convoys (R292). -/
def Launch.unif (l : Launch) : Unif :=
  let cap (i : Nat) : Bool := gbits l.g 5 (80 + i) 1 == 1 && (l.g.getD (8 + i) nullCap).tag
  { s := (List.range 32).filterMap fun i =>
      let w : Word := BitVec.ofNat 32 (gbits l.g (8 + i / 4) (32 * (i % 4)) 32)
      if w = 0 then none else some (i, w)
    kt := (List.range 8).foldl (fun (k : BitVec 16) i => if cap i then k ||| (1#16 <<< i) else k) 0 }
/-- The initial fibres of a workgroup (R75). -/
def Launch.initial (la : Launch) (w : Nat) (sps : List Nat) : List Fibre :=
  (List.range la.nfib).map fun i =>
    { wg := w, fidx := i, spn := sps.getD (i / 512 % la.nsp) 0, lane := i % 512, wbase := i / (512 * la.nsp) * la.wsz,
      wsize := la.wsz, pc := la.entry, regpc := la.entry, rwsize := la.wsz, unif := la.unif }
/-- Adds fibres under new names. -/
def State.addFibres (s : State) (l : List Fibre) : State := l.foldl (fun s f =>
  { (s.zeroRows f.spn f.lane f.wbase f.wsize) with fibres := tput s.fibres s.ids f, ids := s.ids + 1 }) s
/-- Entries of a launch's region list as copy commands of a workgroup. -/
def State.stageOps (s : State) (w : Nat) (g : Wg) (la : Launch) (back : Bool) : State :=
  let core := coreOf (g.sps.headD 0)
  let ops := ((List.range la.nreg).filter fun i => !back || s.entryBack (la.entryAddr i)).map fun i => s.regEntry (la.entryAddr i) core back
  ops.foldl (fun (s : State) op =>
    let m : Cmd := { cls := .ecp, op := op, core := core, spn := g.sps.headD 0, wg := w, colour := g.colour, gen := g.gen, convoy := 0,
                     fibres := [], pc := la.entry, wi := 0, regcnt := 0, seq := 0, want := op.entries (g.sps.headD 0) 0 }
    { s.nextId with cmds := tput s.cmds s.ids m }.takeEntries s.ids) s
/-- The source range of every entry of a region list that names one. -/
def State.sourcesOf (s : State) (la : Launch) : List (Addr × Nat) :=
  (List.range la.nreg).filterMap fun i => match s.regEntry (la.entryAddr i) 0 false with
    | .entry src off _ len _ _ _ _ => if src.tag then some (src.lo + off, len) else none
    | _ => none
/-- R106, step 1: the bank sets of the sources of a workgroup's list wake, and count as used by it (R117). -/
def State.wakeSources (s : State) (w : Nat) (la : Launch) : State :=
  let rs := s.sourcesOf la
  (s.wake ((s.asleep rs).eraseDups.filter fun g => (s.bankSet g).waking.isNone)).modWg w fun g =>
    { g with touched := (g.touched ++ rs.flatMap fun r => bankSetsOf r.1 r.2).eraseDups }
/-- Places the next workgroup of a launch on some SPs; staging begins. -/
def State.placeOn (s : State) (l : Nat) (la : Launch) (sps : List Nat) : State :=
  let w := s.ids
  let p0 := sps.headD 0
  let g : Wg := { launch := l, wgid := BitVec.ofNat 32 la.next, sps := sps, colour := la.colour, gen := la.gen, prio := s.effOf la,
                  bwphase := BitVec.ofNat 3 la.bwphase, ranges := [(la.entry, (la.g.getD 1 nullCap).len)],
                  own := sps.map fun p => (p, s.residency w p), placed := s.now (dieOf p0), order := w, haltAt := s.haltNow sps }
  let s1 := { s.nextId with wgs := tput s.wgs w g, launches := tmod s.launches l fun a => { a with next := a.next + 1 } }
  let s2 := sps.foldl (fun s p => s.modSp p fun q => { q with power := .on }) (s1.addFibres (la.initial w sps))
  let s3 := s2.anvilLook l (dieOf p0) ((tget s2.launches l).getD la)
  match s.listCause la with
  | some n => ((s3.extentRec (plainAgent la.colour) n la.rlist.lo).abortLaunch l clsEngref.toNat [entryRec g la n la.rlist.lo]).settleAbort l
  | none => (s3.wakeSources w la).stageOps w g la false
/-- Places up to n workgroups one after another; how many were placed. -/
def State.placeMany (s : State) (l : Nat) : Nat → Nat → State × Nat
  | 0, c => (s, c)
  | n + 1, c => match tget s.launches l with
    | none => (s, c)
    | some la => match s.findPlace (List.range 64) l la with
      | none => (s, c)
      | some (sps, t) => (t.placeOn l ((tget t.launches l).getD la) sps).placeMany l n (c + 1)
/-- Workgroups of a launch that were never placed. -/
def Launch.unplaced (l : Launch) : Nat := if l.aborted.isSome then 0 else l.total - l.next
/-- The package has at most this many workgroups: 16 `.core` slots on each of 64 cores. -/
def maxResident : Nat := 1024
/-- Places all of a co-resident launch, its first workgroup on a core: that core fixes the quad and the die of its slots (R299, R300). -/
def State.placeAll (s : State) (l : Nat) (la : Launch) (core : Nat) : Option State :=
  match s.findPlace [core] l la with
  | none => none
  | some (sps, t) =>
    let r := (t.placeOn l ((tget t.launches l).getD la) sps).placeMany l (la.unplaced - 1) 1
    if r.2 = la.unplaced ∨ (tget r.1.launches l).isNone then some r.1 else none
/-- Places what can be placed of a launch now: one workgroup, or all of a co-resident launch; none when nothing can. -/
def State.tryPlace (s : State) (l : Nat) (la : Launch) : Option State :=
  if la.unplaced = 0 then none
  else if la.cor then
    if maxResident < la.unplaced then none else (List.range 64).findSome? fun core => s.placeAll l la core
  else
    let r := s.placeMany l 1 0
    if r.2 = 1 then some r.1 else none
/-- Removed work that goes before a waybill of this priority (R299). -/
def State.requeuedFirst (s : State) (la : Launch) : Bool := s.wgs.any fun g =>
  g.2.phase == .saved && g.2.colour == la.colour && decide (s.effOf la ≤ g.2.prio) && (match tget s.launches g.2.launch with
    | some b => b.requeued.contains g.1 && b.aborted.isNone && (b.cor || b.binding == la.binding)
    | none => false)
/-- A launch of the same world with work to place at a higher priority, that can be placed (R288). -/
def State.outranked (s : State) (l : Nat) (la : Launch) : Bool := s.launches.any fun x =>
  x.1 != l && x.2.colour == la.colour && decide (s.effOf la < s.effOf x.2) && !s.requeuedFirst x.2 && (s.tryPlace x.1 x.2).isSome
/-- R297. -/
def execPlacement (l : Nat) (s : State) : Result := match tget s.launches l with
  | none => .next s
  | some la =>
    if la.unplaced = 0 || s.stoppingWorld la.colour || s.requeuedFirst la || s.outranked l la then .next s
    else match s.tryPlace l la with
      | some t => .next t
      | none => .next s

/-! ## Staging and completion (R76, R106, R303, R472) -/

/-- R106, R294, R472. The records of refused entries follow as the abort settles. -/
def execStagingComplete (w : Nat) (s : State) : Result := match tget s.wgs w with
  | none => .next s
  | some g => match tget s.launches g.launch with
    | none => .next s
    | some la =>
      if g.phase != .staging || s.busyWg w then .next s
      else if la.aborted.isSome then .next (s.settleAbort g.launch)
      else if !(s.refusedEntries w).isEmpty then
        .next ((s.abortLaunch g.launch clsEngref.toNat []).settleAbort g.launch)
      else match tget la.code (dieOf (g.sps.headD 0)) with
        | some .residual => .next ((s.modWg w fun g => { g with phase := .running, staged := true }).arriveAll w [])
        | some .original => .next ((s.modWg w fun g => { g with phase := .running, staged := true }).arriveAll w [])
        | some .pending => .next s
        | none => .next (s.anvilLook g.launch (dieOf (g.sps.headD 0)) la)
/-- R76: the last fibre has ended and every command has completed; their writes are performed (R134), and the WBACK entries are carried
out. -/
def execWorkgroupComplete (w : Nat) (s : State) : Result := match tget s.wgs w with
  | none => .next s
  | some g => match tget s.launches g.launch with
    | none => .next s
    | some la =>
      if la.aborted.isSome then .next (s.settleAbort g.launch)
      else
        let on := match g.phase with
          | .running => true
          | .yielding _ => true
          | _ => false
        if !on || s.busyWg w || !(s.fibresOf w).isEmpty || g.sps.any (fun p => (s.sp p).hold.isSome) then .next s
        else .next (((s.drainEnded g.sps).modWg w fun g => { g with phase := .wback }).stageOps w g la true)
/-- R303: a launch whose workgroups are all complete. -/
def State.endLaunch (s : State) (l : Nat) : State := match tget s.launches l with
  | none => s
  | some la =>
    if la.done < la.total then s
    else
      let s1 := s.completion la (if la.wbad then 0x40000020 else 1)
      { s1.freeSlots l with launches := tdel s1.launches l }
/-- R303, R472: write-back is done. -/
def execWbackComplete (w : Nat) (s : State) : Result := match tget s.wgs w with
  | none => .next s
  | some g => match tget s.launches g.launch with
    | none => .next s
    | some la =>
      if g.phase != .wback || s.busyWg w || la.aborted.isSome then .next s
      else
        let bad := !(s.refusedEntries w).isEmpty
        let s1 := ((s.entryRecs w g la).foldl (fun s r => s.record r true) s).dropWg w
        let s2 := { s1 with launches := tmod s1.launches g.launch fun a => { a with done := a.done + 1, wbad := a.wbad || bad } }
        .next (s2.endLaunch g.launch)
/-- R302. -/
def execDeadlineExpiry (l : Nat) (s : State) : Result := match tget s.launches l with
  | none => .next s
  | some la =>
    if la.deadl ≠ 0 ∧ !la.late ∧ 0 < la.unplaced ∧ la.acquired + la.deadl ≤ s.now la.home then
      .next { s with launches := tput s.launches l { la with late := true } }
    else .next s

/-! ## Yield, save and restore (R298, R299, R309, R310) -/

/-- What a yield request does to a convoy at once: a waiting instruction stops where it stands (R309). -/
def State.yieldConvoy (s : State) (c : Nat) (v : Convoy) : State :=
  let s1 := s.modConvoy c fun v => { v with yreq := true }
  match v.wait with
  | .wsig _ => s1.hold c .yielded
  | .waitc _ _ => s1.hold c .yielded
  | .queue q => if q.start.isNone then s1.hold c .yielded else s1
  | .grow n _ served =>
    let s2 := served.foldl (fun s i => s.modFibre i fun f => { f with wsize := f.wsize - n }) s1
    (s2.modCore (coreOf v.spn) fun k => { k with grow := k.grow.filter fun x => x.1 != c }).hold c .yielded
  | _ => s1
/-- Raises a yield request on a workgroup. -/
def State.raiseYield (s : State) (w : Nat) (g : Wg) : State :=
  ((s.convoysOf w).foldl (fun s v => s.yieldConvoy v.1 v.2) s).modWg w fun x => { x with phase := .yielding (s.now (dieOf (g.sps.headD 0))) }
/-- A yield request is under way for a world. -/
def State.yieldUnder (s : State) (colour : Nat) : Bool := s.wgs.any fun g => g.2.colour == colour && (match g.2.phase with
  | .yielding _ => true
  | .saving => true
  | .moving t => t.isEmpty
  | _ => false)
/-- A yield request reaches the workgroup it is for: one that is being moved is satisfied by the image of that save, and is not restored
at once; another waits until a save or rollback of its SPs is over (R448); one that is at its end already, in write-back or by an abort,
frees its place without. -/
def State.askYield (s : State) (w : Nat) (g : Wg) : State := match g.phase with
  | .moving _ => s.modWg w fun g => { g with phase := .moving [] }
  | _ =>
    if (g.phase == .running || g.phase == .staging) && g.sps.all (fun p => (s.sp p).hold.isNone)
        && (((tget s.launches g.launch).map fun x => x.aborted.isNone).getD true)
      then s.raiseYield w g else s
/-- R298: a waybill that cannot be placed asks the youngest workgroup of lower priority of its world to yield. -/
def execYieldRequest (l : Nat) (s : State) : Result := match tget s.launches l with
  | none => .next s
  | some la =>
    let lower := s.wgs.filter fun g => g.2.colour == la.colour && g.2.resident && decide (g.2.prio < s.effOf la)
    if la.unplaced = 0 || s.stoppingWorld la.colour || s.yieldUnder la.colour || (s.tryPlace l la).isSome then .next s
    else match youngest lower with
      | some (w, g) => .next (s.askYield w g)
      | none => .next s
/-- R309: at YDEADL, every convoy not yet stopped is cut back; halted time does not count (R346). -/
def execYieldDeadlineExpiry (w : Nat) (s : State) : Result := match tget s.wgs w with
  | none => .next s
  | some g => match g.phase with
    | .yielding since =>
      let p := g.sps.headD 0
      let go := ((s.convoysOf w).filter fun v => !v.2.stopped && !v.2.finishing && !s.aborted v.2)
      if since + (s.core (coreOf p)).ydeadl.toNat ≤ s.now (dieOf p) && g.haltAt.isNone then
        .next (go.foldl (fun s v => (s.cutBack v.1).hold v.1 .yielded) s)
      else .next s
    | _ => .next s
/-- R309, R310: every convoy has stopped and its commands have ended; the image is written and the SPs are released. -/
def execWorkgroupSaveDone (w : Nat) (s : State) : Result := match tget s.wgs w with
  | none => .next s
  | some g => match g.phase with
    | .yielding _ =>
      if (s.convoysOf w).all (fun v => v.2.stopped) && !s.busyWg w && !(s.fibresOf w).isEmpty then .next ((s.saveWg w).requeue w g.launch)
      else .next s
    | _ => .next s
/-- Whether some SPs take a workgroup's windows, clear of some others: owned, at rest, with the rows free. -/
def State.canHold (s : State) (held : List (List Fibre)) (w : Nat) (g : Wg) (fs : List Fibre) (sps : List Nat) : Bool :=
  let core := coreOf (sps.headD 0)
  !(s.core core).dead && !(s.core core).failing && decide (s.coreSlots core (some w) < 16)
    && sps.all (fun p => (s.sp p).owner == g.colour && (s.sp p).hold.isNone)
    && fs.all fun f => held.all fun h => roomIn h (relocSp g.sps sps f.spn) f.lane f.wbase f.wsize 1
/-- Ascending choices of n of a list. -/
def choices : Nat → List Nat → List (List Nat)
  | 0, _ => [[]]
  | _ + 1, [] => []
  | n + 1, x :: r => (choices n r).map (fun l => x :: l) ++ choices (n + 1) r
/-- Sets of SPs of a world on some cores other than a workgroup's. -/
def State.otherSps (s : State) (cores : List Nat) (g : Wg) : List (List Nat) :=
  (cores.filter fun c => c != coreOf (g.sps.headD 0)).flatMap fun c => choices g.sps.length (s.ownedOn c g.colour)
/-- Whether every bank fenced to a source SP is fenced, on the target core, to the target SP of the same rank. -/
def State.fencesMatch (s : State) (src dst : List Nat) : Bool :=
  (s.banksFenced src).all fun x => s.fence (coreOf (dst.headD 0)) x.1 == dst[x.2]?
/-- The SPs of another core to which a workgroup goes, clear of some windows: on the first core that takes it, whose fences match those of
the source. -/
def State.matching (s : State) (cores : List Nat) (held : List (List Fibre)) (w : Nat) (g : Wg) (fs : List Fibre) : Option (List Nat) :=
  (s.otherSps cores g).find? fun t => s.canHold held w g fs t && s.fencesMatch g.sps t
/-- The same off a failed core or lost SPs, where fences are no condition: on a core whose fences match, and with none on any (R395, log
entry 47). -/
def State.elsewhere (s : State) (w : Nat) (g : Wg) (fs : List Fibre) : Option (List Nat) :=
  let held := [s.windows (some w)]
  s.matching (List.range 64) held w g fs <|> (s.otherSps (List.range 64) g).find? fun t => s.canHold held w g fs t
/-- Where a removed workgroup returns: to its SPs, unless its world no longer holds them or their core has failed (log entry 47). -/
def State.restorePlace (s : State) (w : Nat) (g : Wg) : Option (List Nat) :=
  let fs := g.image.fibres.map (·.2)
  if g.sps.all (fun p => (s.sp p).owner == g.colour) && !(s.core (coreOf (g.sps.headD 0))).dead then
    if s.canHold [s.windows (some w)] w g fs g.sps then some g.sps else none
  else s.elsewhere w g fs
/-- R299, R310: a removed workgroup is restored. One without COR waits while a launch of its world at a higher priority has work unplaced,
of another queue too and whether it can be placed now or not (the model's choice, log entry 98). -/
def execWorkgroupRestore (w : Nat) (s : State) : Result := match tget s.wgs w with
  | none => .next s
  | some g => match tget s.launches g.launch with
    | none => .next s
    | some la =>
      let higher := !la.cor && s.launches.any fun x => x.2.colour == g.colour && decide (g.prio < s.effOf x.2) && decide (0 < x.2.unplaced)
      if g.phase != .saved || !la.requeued.contains w || la.aborted.isSome || s.stoppingWorld g.colour || higher then .next s
      else match s.restorePlace w g with
        | none => .next s
        | some sps =>
          let s1 := s.loadWg w sps
          .next { s1 with launches := tmod s1.launches g.launch fun a => { a with requeued := a.requeued.filter (· != w) } }

/-! ## Migration (R312, R313) -/

def residencyMin : Nat := 2 ^ 21
/-- The target SPs of a migration: on the highest-numbered core that takes the workgroup as its temper image stands (log entry 79). -/
def State.target (s : State) (w : Nat) (g : Wg) : Option (List Nat) :=
  s.matching (List.range 64).reverse (s.places (some w)) w g (s.rewound w g)
/-- Whether a workgroup may be migrated now. -/
def State.movable (s : State) (w : Nat) : Option Wg := match tget s.wgs w with
  | some g =>
    if g.phase == .running && g.haltAt.isNone && g.sps.all (fun p => (s.sp p).hold.isNone) && !s.stoppingWorld g.colour then some g else none
  | none => none
/-- Claims target SPs; the save of R310 begins, or the workgroup stays where it is. -/
def State.beginMove (s : State) (w : Nat) (g : Wg) : State := match s.target w g with
  | some t => (g.sps.foldl (fun s p => s.stopSp p 0) s).modWg w fun g => { g with phase := .moving t, hot := none }
  | none => s.modWg w fun x => { x with hot := some (s.now (dieOf (g.sps.headD 0))) }
/-- R312: a workgroup on a hot core. -/
def execMigrationStart (w : Nat) (s : State) : Result := match s.movable w with
  | none => .next s
  | some g =>
    if g.placed + g.haltedFor + residencyMin ≤ s.now (dieOf (g.sps.headD 0)) ∧ g.hot.isNone then .next (s.beginMove w g) else .next s
/-- R312: the claim is tried again when something has changed that lets it succeed, and at least every 2^21 cycles. -/
def execMigrationRetry (w : Nat) (s : State) : Result := match s.movable w with
  | none => .next s
  | some g => match g.hot with
    | none => .next s
    | some t =>
      if (s.target w g).isSome ∨ t + residencyMin ≤ s.now (dieOf (g.sps.headD 0)) then .next (s.beginMove w g) else .next s
/-- A workgroup's image after the rollback of its SPs, with its banks (R310, R389). -/
def State.saveRolled (s : State) (w : Nat) : State := (s.saveWg w).sealBanks w
/-- A saved workgroup is restored on the target of its move; one of a co-resident launch keeps the place it leaves too (R299, R313, log
entry 79). Where the world has lost the target meanwhile, or its image answers a yield request that came during the save (R448), it waits in
spawn memory. -/
def State.moveTo (s : State) (w : Nat) (t : List Nat) : State := match tget s.wgs w with
  | none => s
  | some g =>
    if !t.isEmpty && s.canHold [s.windows (some w)] w g (g.image.fibres.map (·.2)) t && s.fencesMatch g.sps t then
      (s.modWg w fun x => { x with left := if s.corOf g then g.left ++ g.image.fibres.map (·.2) else [] }).loadWg w t
    else s.requeue w g.launch
/-- R312: save, transfer of the banks, restore on the target, with tiles and progress words. -/
def execMigrationComplete (w : Nat) (s : State) : Result := match tget s.wgs w with
  | none => .next s
  | some g => match g.phase with
    | .moving t =>
      if !s.quietSps g.sps then .next s
      else .next (((g.sps.foldl (fun s p => s.rollbackSp p) s).saveRolled w).moveTo w t)
    | _ => .next s

/-! ## Permanent failure (R394, R395) -/

/-- A HARD record. -/
def State.hardRec (s : State) (core colour : Nat) (recov : BitVec 4) : State :=
  s.record { source := 0x09, cls := 0x12, colour := colour, recov := recov, spn := 4 * core } false
/-- The HARD records of a core that its spare serves: one for each world that holds SPs of it, else one without a world (R384, R394). -/
def State.hardRecs (s : State) (core : Nat) : State :=
  match (((List.range 4).map fun i => (s.sp (4 * core + i)).owner).eraseDups).filter (· != 0) with
  | [] => s.hardRec core 0 0x3
  | l => l.foldl (fun s c => s.hardRec core c 0x3) s
/-- Moves a workgroup off a failed core, or holds it in spawn memory (R395). -/
def State.moveOff (s : State) (core w : Nat) : State := match tget s.wgs w with
  | none => s
  | some g =>
    let t := s.elsewhere w g ((s.fibresOf w).map (·.2))
    let s1 := s.saveRolled w
    match t with
    | some t => (s1.loadWg w t).hardRec core g.colour 0x4
    | none => (s1.requeue w g.launch).hardRec core g.colour 0x5
/-- R394, R395: the SPs of a failing core are stopped and rolled back; then the die's spare serves it, or its work is moved. -/
def execHardFailure (core : Nat) (s : State) : Result :=
  let sps := (List.range 4).map fun i => 4 * core + i
  let k := s.core core
  if 64 ≤ core || k.dead then .next s
  else
    let s1 := (sps.foldl (fun s p => if (s.sp p).hold.isSome then s else s.stopSp p 0) s).modCore core fun c => { c with failing := true }
    if !s1.quietSps sps then .next s1
    else
      let s2 := sps.foldl (fun s p => (s.rollbackSp p).modSp p fun q => { q with hold := none }) s1
      let used := (List.range 16).any fun i => (s.core (core / 16 * 16 + i)).spare
      if !used then .next ((s2.modCore core fun c => { c with spare := true, failing := false, softs := [] }).hardRecs core)
      else .next (((s2.wgsOn sps).foldl (fun s w => s.moveOff core w) s2).modCore core fun c => { c with dead := true, failing := false })

end Sys2Proof.Machine
end

