-- ==== Sys2Proof/Machine/World.lean ====
section
/-! DEFINITION. World requests (R314–R318, R320, R321, R323–R331, R339–R347, R445, R446, R449–R453, R460, R473). -/

namespace Sys2Proof.Machine

/-! ## The fields of a request (R315) -/

/-- Bits of a request. -/
def rbits (r : WReq) (lo n : Nat) : Nat := r.bits.toNat / 2 ^ lo % 2 ^ n
def reqOp (r : WReq) : Nat := rbits r 16 8
/-- The colour acted on: for a service queue, that of its world (R318). -/
def reqColour (r : WReq) : Nat := r.svc.getD (rbits r 24 12)
def reqVd (r : WReq) : Nat := rbits r 36 8
def reqCore (r : WReq) : Nat := rbits r 44 6
/-- The SPs that SPMASK names. -/
def reqSps (r : WReq) : List Nat := ((List.range 4).filter fun i => rbits r (50 + i) 1 == 1).map fun i => 4 * reqCore r + i
def reqStat (r : WReq) : Addr := rbits r 64 52
def reqBlk (r : WReq) : Addr := rbits r 128 52
def reqArg0 (r : WReq) : Nat := rbits r 192 64
def reqArg1 (r : WReq) : Nat := rbits r 256 64
/-- The operations of R316, and those of R318. -/
def fwOps : List Nat := (List.range 14).map fun i => i + 1
def svcOps : List Nat := [0x0B, 0x20, 0x21]

/-! ## Places firmware reads and writes -/

/-- Whether a range lies in a world's HBM ranges. -/
def State.inWorld (s : State) (colour a n : Nat) : Bool := match tget s.worlds colour with
  | some w => w.ranges.any fun r => decide (r.1 ≤ a) && decide (a + n ≤ r.1 + r.2.1)
  | none => false
/-- Whether a range lies in the host window. -/
def inHost (a n : Nat) : Bool := decide (0x2_0000_0000_0000 ≤ a) && decide (a + n ≤ 0x2_4000_0000_0000)
/-- Whether a range may serve a request: for a service queue the world's, else the hypervisor's or the host window. -/
def State.reqPlace (s : State) (r : WReq) (a n : Nat) : Bool := match r.svc with
  | some c => s.inWorld c a n
  | none => s.inWorld s.mgmt.hyp a n || inHost a n
/-- The colour under which a request's memory is reached. -/
def State.reqParty (s : State) (r : WReq) : Nat := r.svc.getD s.mgmt.hyp
/-- Bytes that firmware reads. -/
def State.fwRead (s : State) (a n : Nat) : List Byte := s.rdHome a n
/-- Bytes that firmware writes for a world: the access passes the cache, marked pages are filled first, and tags are cleared. -/
def State.fwWrite (s : State) (colour : Nat) (a : Addr) (bs : List Byte) : State := (s.passWr colour none a bs.length).wrHome a bs
/-- A capability that firmware writes into a world's table. -/
def State.fwCap (s : State) (colour : Nat) (a : Addr) (k : Cap) : State := (s.passWr colour none a 16).wrCap a k
/-- Bytes of a 512-bit value. -/
def bytes64 (w : BitVec 512) : List Byte := leBytes 64 w.toNat

/-! ## The queues of requests (R315, R318, R354) -/

/-- The queue a request stands in. -/
def State.reqQueue (s : State) (r : WReq) : Option Addr := match r.svc with
  | none => if s.host.booted then some s.host.fwq else none
  | some c => match tget s.worlds c with
    | some w => (w.ranges.head?).map fun x => x.1 + x.2.1 - 4096
    | none => none
/-- The record at the head of a queue. -/
def State.headWReq (s : State) (b : Addr) : Option (BitVec 512) :=
  let h := s.qhdr b
  if h.bad || h.crsv == h.tail then none else some (BitVec.ofNat 512 (leNat (s.fwRead (slotAddr b (h.crsv % h.cap)) 64)))
/-- Whether a request stands at the head of its queue, with no request of its colour under way (R316). While its world departs, ATTEST and
requests that are refused for it are taken at once, and FORM alone waits (R450, R452; the model's reading, log entry 95). -/
def State.atHead (s : State) (r : WReq) : Bool := (match s.reqQueue r with
  | some b => s.headWReq b == some r.bits
  | none => false) && (match tget s.worlds (reqColour r) with
  | some w => if w.mode == .departing then reqOp r != 1 else w.waiting.isNone
  | none => true)
/-- Takes the request off its queue. -/
def State.popReq (s : State) (r : WReq) : State := match s.reqQueue r with
  | some b =>
    let h := s.qhdr b
    let c := r.svc.getD 0
    ((s.passRd c none (slotAddr b (h.crsv % h.cap)) 64).passWr c none b 64).consume b h.crsv (min (rbits r 8 2 + 1) (sub32 h.tail h.crsv))
  | none => s
/-- Writes the status word of a request and, once it is written, raises its vector (R316, R349, R449). -/
def State.wstat (s : State) (r : WReq) (v : Word) : State :=
  if reqStat r % 4 = 0 && s.reqPlace r (reqStat r) 4 then
    s.post32 (s.reqParty r) (reqStat r) v (if r.svc.isNone then some 0 else none)
  else s
/-- Refuses a request (R449, R450). -/
def State.refuseReq (s : State) (r : WReq) (code : Nat) : State :=
  (s.wstat r (BitVec.ofNat 32 (0x80000000 + code))).record
    { source := 0x09, cls := 0x33, colour := reqColour r, recov := 0, code := BitVec.ofNat 16 code } r.svc.isSome

/-! ## Checks (R449, R450) -/

/-- The colour of the world on whose state a request acts, once it is formed. -/
def State.reqWorld (s : State) (r : WReq) : Option World := tget s.worlds (reqColour r)
/-- A record of the wrong shape. -/
def reqShape (r : WReq) : Bool :=
  rbits r 0 8 != 1 || rbits r 8 2 != 0 || rbits r 10 6 != 0 || rbits r 54 10 != 0 || rbits r 116 12 != 0 || rbits r 180 12 != 0
    || rbits r 320 192 != 0
/-- Bytes of BLK that an operation uses; none where it uses none. -/
def reqBlkLen (s : State) (r : WReq) : Option Nat := match reqOp r with
  | 0x01 => some (16 * (1 + leNat (s.fwRead (reqBlk r) 1) % 128))
  | 0x05 => some (reqArg0 r)
  | 0x06 => if reqArg1 r = 0 then none else some (reqArg1 r)
  | 0x07 => if reqArg1 r = 0 then none else some (reqArg1 r)
  | 0x08 => some (16 * (1 + leNat (s.fwRead (reqBlk r) 2)))
  | 0x09 => some (1024 + reqArg0 r)
  | 0x0B => some 1024
  | 0x0C => some 64
  | 0x0D => some (reqArg0 r)
  | _ => none
/-- Whether firmware writes an operation's BLK (R316, R327, R344, R347). -/
def writesBlk (op : Nat) : Bool := op == 5 || op == 6 || op == 7 || op == 0x0B || op == 0x0C || op == 0x0D
/-- Whether BLK is bad; one that the extent map does not serve is taken as no address of the window (log entry 44). -/
def State.blkBad (s : State) (r : WReq) : Bool := match reqBlkLen s r with
  | some n => reqBlk r % 64 != 0 || !s.reqPlace r (reqBlk r) n || !s.okRange (s.reqParty r) (writesBlk (reqOp r)) (reqBlk r) n ||
      ((reqOp r == 5 || reqOp r == 6 || reqOp r == 7) && decide (n < 16))
  | none => false
/-- The granules of a formation block: base, bytes, TWIN, MEASURE. -/
def State.formRanges (s : State) (r : WReq) : List (Addr × Nat × Bool × Bool) :=
  (List.range (leNat (s.fwRead (reqBlk r) 1) % 128)).map fun i =>
    let g := leNat (s.fwRead (reqBlk r + 16 + 16 * i) 16)
    (g % 2 ^ 52, g / 2 ^ 64 % 2 ^ 20 * 65536, g / 2 ^ 96 % 2 == 1, g / 2 ^ 97 % 2 == 1)
/-- CTAB of a formation block. -/
def State.formCtab (s : State) (r : WReq) : Addr := leNat (s.fwRead (reqBlk r) 16) / 2 ^ 64 % 2 ^ 52
/-- Whether two ranges meet. -/
def meets (a n b m : Nat) : Bool := decide (a < b + m) && decide (b < a + n)
/-- A range with its twin. -/
def withTwin (r : Addr × Nat × Bool × Bool) : List (Addr × Nat) := (r.1, r.2.1) :: (if r.2.2.1 then [(twinOf r.1, r.2.1)] else [])
/-- Whether a range breaks R317 or has no representable encoding (R48). -/
def rangeBad (x : Addr × Nat × Bool × Bool) : Bool :=
  x.1 % 65536 != 0 || !represents x.1 x.2.1 || decide (0x80_0000_0000 < x.1 + x.2.1) || (x.2.2.1 && decide (0x40_0000_0000 < x.1 + x.2.1))
/-- Whether a capability table of so many ranges stands in a range (R317). -/
def ctabIn (x : Addr × Nat × Bool × Bool) (ctab n : Nat) : Bool :=
  ctab % 16 == 0 && decide (x.1 ≤ ctab) && decide (ctab + 16 * (n + 4) ≤ x.1 + x.2.1)
/-- Whether a formation block breaks R317 (R450, code 0x07). A range without a representable encoding is misaligned for its root (R48; the
model's reading, log entry 73). -/
def State.formBad (s : State) (r : WReq) : Bool :=
  let g0 := leNat (s.fwRead (reqBlk r) 16)
  let n := g0 % 128
  let rs := s.formRanges r
  let ctab := s.formCtab r
  let grs := (List.range n).map fun i => leNat (s.fwRead (reqBlk r + 16 + 16 * i) 16)
  n == 0 || decide (64 < n) || g0 / 128 % 2 ^ 57 != 0 || g0 / 2 ^ 116 != 0 || grs.any (fun g => g / 2 ^ 52 % 4096 != 0 || g / 2 ^ 84 % 4096 != 0 || g / 2 ^ 98 != 0)
    || rs.any rangeBad
    || (rs.flatMap withTwin).any (fun x => (s.worlds.any fun w => w.2.ranges.any fun y => (withTwin y).any fun z => meets x.1 x.2 z.1 z.2)
        || (bankSetsOf x.1 x.2).any fun b => (s.bankSet b).fw)
    || (match rs.head? with
      | some x => !ctabIn x ctab n
      | none => true)
/-- An entry of a ROUTE block. -/
def State.routeEntry (s : State) (r : WReq) (i : Nat) : Nat := leNat (s.fwRead (reqBlk r + 16 + 16 * i) 16)
/-- Writes one entry of a Route port (R331). -/
def Route.put (t : Route) (e : Nat) : Route :=
  let n := e % 32
  let p : Port := (tget t.ports n).getD {}
  let w : BitVec 64 := BitVec.ofNat 64 e
  let i := e / 64 % 256
  let q : Port := if e / 32 % 2 = 0 then { p with xlate := tput p.xlate i w } else { p with reserve := tput p.reserve i w }
  { t with ports := tput t.ports n q }
/-- The sum of the reservations of a port in a direction whose field begins at a bit. -/
def Port.reserved (p : Port) (lo : Nat) : Nat :=
  ((p.reserve.filter fun e => e.2.getLsbD 16).map fun e => e.2.toNat / 2 ^ lo % 512).foldl (· + ·) 0
/-- Whether a ROUTE block is bad (R450, code 0x08). -/
def State.routeBad (s : State) (r : WReq) : Bool :=
  let g0 := leNat (s.fwRead (reqBlk r) 16)
  let es := (List.range g0).map fun i => s.routeEntry r i
  decide (g0 = 0) || decide (1023 < g0) || es.any (fun e => e / 2 ^ 14 % 4 != 0 || (if e / 32 % 2 = 0 then e / 2 ^ 51 != 0 else e / 2 ^ 47 != 0))
    || (es.foldl (fun (x : Route × Bool) e =>
        let t := x.1.put e
        let p : Port := (tget t.ports (e % 32)).getD {}
        (t, x.2 || decide (448 < p.reserved 29) || decide (448 < p.reserved 38))) (s.route, false)).2
/-- The nonce that the token of a request carries. -/
def State.tokenNonce (s : State) (r : WReq) : BitVec 512 := BitVec.ofNat 512 (leNat (((s.fwRead (reqBlk r) 1024).drop 72).take 64))
/-- The outstanding nonce and the checks of a debug token (R340). -/
def State.tokenOk (s : State) (r : WReq) : Bool :=
  let t := s.fwRead (reqBlk r) 1024
  let chain := s.fwRead (reqBlk r + 1024) (reqArg0 r)
  let f (lo n : Nat) : Nat := leNat ((t.drop lo).take n)
  let scope := f 4 4
  f 0 2 == 1 && f 2 2 == 0 && decide (scope < 8) && f 200 312 == 0 && !((scope / 2 % 2 == 1 || scope / 4 % 2 == 1) && scope % 2 == 0)
    && f 8 64 == Config.deviceHash.toNat && s.mgmt.nonce == some (s.tokenNonce r)
    && f 136 64 == (Config.chainKeyHash chain).toNat && Config.tokenVerifies t chain

/-! ## What the host may do with an SP's state (R346) -/

inductive Rights where
  | lw | lr | im | si | no
  deriving DecidableEq, Repr
/-- A scope mask as it stands for a world: the token for standard worlds, the consent of a protected one. -/
def State.debugScope (s : State) (w : World) : Nat := match w.mode with
  | .standard => (s.mgmt.token.getD 0).toNat % 8
  | .protected_ => (w.consent.getD 0).toNat
  | .forming => 0
  | .departing => 0
/-- The debug state of a world as a report tells it (R344, R346): locked, token-unlocked or consented, with the scope. -/
def State.debugState (s : State) (w : World) : Nat := match w.consent, s.mgmt.token with
  | some m, _ => 16 + m.toNat
  | none, some m => 8 + m.toNat % 8
  | none, none => 0
/-- The code of R346 for a world and an SP of it. -/
def State.rights (s : State) (w : World) (spn : Nat) : Rights :=
  let m := s.debugScope w
  let write := m % 2 == 1 && (m / 2 % 2 == 1 || m / 4 % 2 == 1)
  match w.mode with
  | .standard => if (s.sp spn).power == .off then .im else if write then .lw else .lr
  | .protected_ => if (s.sp spn).power == .off || m % 2 == 0 then .si else if write then .lw else .lr
  | .forming => .no
  | .departing => .no
/-- The SP that IMAGE names: the lowest of SPMASK. -/
def imageSp (r : WReq) : Nat := (reqSps r).headD (4 * reqCore r)
/-- The images that hold an SP's state: the saved ones of its workgroups, or its temper image. -/
def State.imagesOf (s : State) (spn : Nat) (saved : Bool) : List Image :=
  if saved then (s.wgs.filter fun g => g.2.phase == .saved && g.2.sps.contains spn).map fun g => g.2.image
  else (s.sp spn).image.toList
/-- The key of the residual code that a workgroup runs. -/
def State.residualKey (s : State) (g : Wg) : Option (BitVec 256) := match tget s.launches g.launch with
  | some l => if tget l.code (dieOf (g.sps.headD 0)) == some .residual then some l.key else none
  | none => none
/-- A code address as a spawn record holds it: in residual code a residual address (R296). -/
def recordAddr (key : Option (BitVec 256)) (a : Addr) : Nat := match key with
  | some k => (Config.residualAt k a).toNat
  | none => a
/-- A spawn record (R87): a fibre of an image, its convoy there when it is in one, its workgroup, and the residual code it runs. Its PC and
its return entries are addresses of that code (R296). -/
def spawnRecord (im : Image) (i : Nat) (f : Fibre) (g : Wg) (key : Option (BitVec 256)) : Nat :=
  let v := (im.convoys.find? fun v => v.2.fib.contains (some i)).map (·.2)
  let at_ (lo n x : Nat) : Nat := x % 2 ^ n * 2 ^ lo
  let cnt (n : Nat) (x : Cls) : Nat := at_ (128 + 6 * n) 6 (f.cnt.get x).toNat
  let stk := f.rstk.reverse
  let entry (n : Nat) : Nat := at_ (384 + 64 * n) 52 ((stk[n]?.map (recordAddr key)).getD (Config.staleEntry i n).toNat)
  at_ 0 52 (recordAddr key ((v.map (·.hdr)).getD f.pc)) + at_ 52 8 f.pred.toNat + at_ 64 8 f.wbase + at_ 72 9 f.wsize + at_ 81 6 f.ref.toNat
    + at_ 88 8 ((v.map (·.fpstat)).getD f.fpstat).toNat + at_ 96 32 g.wgid.toNat
    + cnt 0 .ecp + cnt 1 .egs + cnt 2 .emx + cnt 3 .ecl + cnt 4 .enm + cnt 5 .eat
    + at_ 164 3 stk.length + at_ 167 8 f.frames.length + at_ 176 16 f.fidx + at_ 192 12 g.colour + at_ 204 8 g.gen.toNat + at_ 212 9 f.lane
    + at_ 256 52 f.regpc + at_ 320 16 f.regcnt.toNat + at_ 336 24 (Config.unifIndex i).toNat + entry 0 + entry 1 + entry 2 + entry 3
/-- The spawn records of an SP's image. -/
def State.spawnRecords (s : State) (spn : Nat) (saved : Bool) : List Nat :=
  (s.imagesOf spn saved).flatMap fun im => (im.fibres.filter fun f => f.2.spn == spn).filterMap fun f =>
    (tget s.wgs f.2.wg).map fun g => spawnRecord im f.1 f.2 g (s.residualKey g)
/-- Bytes of an SP's image: register rows, tiles, progress words, spawn records, and what else firmware keeps (R310; log entry 48). -/
def State.imageLen (s : State) (spn : Nat) (saved : Bool) : Nat :=
  imageBytesOf + 128 + 128 * (s.spawnRecords spn saved).length + Config.imageTail.toNat
/-- The byte of an SP's image at an offset. -/
def State.imageAt (s : State) (spn : Nat) (saved : Bool) (i : Nat) : Byte :=
  let ims := s.imagesOf spn saved
  let byte (a : Addr) : Byte := (ims.findSome? fun im => tget im.bytes a).getD 0
  if i < 0x8_0000 then byte (regAddr spn 0 0 + i)
  else if i < imageBytesOf then byte (tileAddr spn 0 (i - 0x8_0000))
  else if i < imageBytesOf + 128 then
    let j := i - imageBytesOf
    let rank (g : Wg) : Nat := g.sps.idxOf spn
    let w : DWord := if saved then
        ((s.wgs.filter fun g => g.2.phase == .saved && g.2.sps.contains spn).findSome? fun g => tget g.2.image.acprog (16 * rank g.2 + j / 8)).getD 0
      else (ims.findSome? fun im => tget im.acprog (j / 8)).getD 0
    BitVec.ofNat 8 (w.toNat / 2 ^ (8 * (j % 8)))
  else
    let j := i - (imageBytesOf + 128)
    match (s.spawnRecords spn saved)[j / 128]? with
    | some x => BitVec.ofNat 8 (x / 2 ^ (8 * (j % 128)))
    | none => Config.imageByte s.free i
/-- Whether the image that IMAGE copies is the sealed one. -/
def State.sealedImage (s : State) (r : WReq) (w : World) : Bool := s.rights w (imageSp r) == .si

/-- The lowest refusal code of a request (R450). -/
def State.reqCode (s : State) (r : WReq) : Option Nat :=
  let op := reqOp r
  let c := reqColour r
  let w := s.reqWorld r
  let tenant := s.worlds.any fun x => x.1 != s.mgmt.hyp
  firstCause [(reqShape r, 0x01), (!(if r.svc.isSome then svcOps else fwOps).contains op, 0x02),
    (if op = 1 then w.isSome || c == 0 || c == 4095 else w.isNone, 0x03),
    (op == 1 && (decide (256 ≤ s.worlds.length) || s.worlds.any fun x => x.2.vd == reqVd r), 0x04),
    ((op == 2 && (reqSps r).any fun p => (s.sp p).owner != 0) || (op == 4 && (reqSps r).any fun p => (s.sp p).owner != c)
      || (op == 3 && (match (reqSps r).head? with
        | none => true
        | some p => (s.sp p).owner != c || (List.range 64).any fun b => reqArg0 r / 2 ^ b % 2 == 1 && (match s.fence (reqCore r) b with
          | some q => (s.sp q).owner != c
          | none => false))), 0x05),
    (s.blkBad r, 0x06), (op == 1 && s.formBad r, 0x07), (op == 8 && s.routeBad r, 0x08), (op == 9 && !s.tokenOk r, 0x09),
    (((op == 0x20 || op == 0x21) && (match w with | some x => x.mode == .standard | none => false))
      || ((op == 6 || op == 7) && c == s.mgmt.hyp), 0x0A),
    (op != 0x0B && (match w with | some x => x.mode == .departing | none => false), 0x0B),
    (op == 0x0D && (match w with
      | some x => (s.sp (imageSp r)).owner != c || (s.rights x (imageSp r) != .im && s.rights x (imageSp r) != .si)
          || decide (reqArg0 r < s.imageLen (imageSp r) (!s.sealedImage r x))
      | none => true), 0x0C),
    ((op == 0x0E && (tenant || reqArg0 r % 2 == 1)) || (op == 1 && s.host.mode == 2), 0x0D)]
/-- Firmware reads a request's argument block. -/
def State.readBlk (s : State) (r : WReq) (n : Nat) : State :=
  if s.reqPlace r (reqBlk r) n then s.passRd (s.reqParty r) none (reqBlk r) n else s
/-- A protected formation meets every acceptance window that is open (R342, R453). -/
def State.excludeWindows (s : State) : State :=
  { s with mgmt := { s.mgmt with windows := s.mgmt.windows.map fun w => (w.1, (w.2.1, w.2.2.1, true)) } }
/-- A token that is refused uses up its nonce (R453); no other refusal changes the nonce that is outstanding (R449). -/
def State.useNonce (s : State) (r : WReq) (code : Nat) : State :=
  if code = 9 ∧ s.mgmt.nonce = some (s.tokenNonce r) then { s with mgmt := { s.mgmt with nonce := none } } else s
/-- What the memory of a request still waits for: its queue's, and that of BLK (R118). -/
def State.reqAwaits (s : State) (r : WReq) : Option State := match s.reqQueue r with
  | some b =>
    let n := (reqBlkLen s r).getD 0
    s.awaits ([(slotAddr b ((s.qhdr b).crsv % (s.qhdr b).cap), 64)] ++ (if s.reqPlace r (reqBlk r) n then [(reqBlk r, n)] else [])) [(b, 64)]
  | none => none
/-- Takes a request of one operation: refused, or carried out. A request with no assigned operation is taken as FORM is. -/
def takeReq (r : WReq) (op : Nat) (s : State) (k : State → State) : Result :=
  let mine := reqOp r == op || (op == 1 && !(if r.svc.isSome then svcOps else fwOps).contains (reqOp r))
  if !mine || !s.atHead r then .next s
  else match s.reqAwaits r with
  | some t => .next t
  | none =>
    let t := (s.popReq r).readBlk r ((reqBlkLen s r).getD 0)
    let u := if reqOp r = 1 ∧ reqArg0 r % 2 = 1 then t.excludeWindows else t
    match s.reqCode r with
    | some n => .next ((u.useNonce r n).refuseReq r n)
    | none => .next (k u)
/-- Whether a request is one of an operation that its world is carrying out. -/
def State.under (s : State) (op : Nat) (r : WReq) : Option World := match s.reqWorld r with
  | some w => if reqOp r = op ∧ w.waiting = some r then some w else none
  | none => none
/-- A request that has finished. -/
def State.doneReq (s : State) (r : WReq) : State :=
  (s.modWorld (reqColour r) fun w => { w with waiting := if w.waiting = some r then none else w.waiting }).wstat r 1

/-! ## FORM (R314, R317, R323–R325, R338, R344, R452) -/

def permRoot : BitVec 16 := permLd ||| permSt ||| permLdk ||| permStk ||| permDeleg ||| permAtom ||| permNmc ||| permExport
/-- Writes the roots of a world's capability table under its current generation (R317); those of the hypervisor's world hold MAP too, by which
it writes the extent map (R49, R50, R358). -/
def State.writeRoots (s : State) (c : Nat) (w : World) : State :=
  let col : BitVec 12 := BitVec.ofNat 12 c
  let g := s.gen c
  let n := w.ranges.length
  let root (r : Addr × Nat × Bool × Bool) : Cap :=
    mkCap kindData false 0 col g (permRoot ||| (if r.2.2.1 then permTwin else 0) ||| (if c = s.mgmt.hyp then permMap else 0)) r.1 r.2.1
  let r0 := w.ranges.headD (0, 4096, false, false)
  let s1 := s.fwCap c (w.ctab + 32) (mkCap kindQueue false 0 col g (permLd ||| permSt) (r0.1 + r0.2.1 - 4096) 4096)
  let s2 := ((List.range n).zip w.ranges).foldl (fun s x => s.fwCap c (w.ctab + 16 * (3 + x.1)) (root x.2)) s1
  s2.fwCap c (w.ctab + 16 * (n + 3)) (mkCap kindData false 0 col g (permSeal ||| permUnseal) 0x040 0x7C0)
/-- The counters of a colour start at 0 (R337). -/
def State.zeroCounters (s : State) (c : Nat) : State :=
  { s with host := { s.host with counters := s.host.counters.filter fun x => x.1 / 64 != c } }
/-- Creates a world. -/
def State.newWorld (s : State) (r : WReq) (mode : WorldMode) : State :=
  let c := reqColour r
  let w : World := { vd := reqVd r, mode := mode, ranges := s.formRanges r, ctab := s.formCtab r, allow := BitVec.ofNat 64 (reqArg1 r) }
  let s1 := ({ s with worlds := tput s.worlds c w, gens := tput s.gens c (s.gen c) }).zeroCounters c
  { s1 with host := { s1.host with lost := tdel s1.host.lost c } }.writeRoots c w
/-- The measurement of a protected world: its formation block and MEASURE ranges (R344). -/
def State.measure (s : State) (r : WReq) : BitVec 512 :=
  let rs := s.formRanges r
  Config.sha512 (s.fwRead (reqBlk r) (16 * (1 + rs.length)) ++ (rs.filter fun x => x.2.2.2).flatMap fun x => s.rdBytes x.1 x.2.1)
/-- R317. A protected world is forming until its measurement stands and DONE is written. -/
def execFormReq (r : WReq) (s : State) : Result := match s.under 1 r with
  | some w =>
    if w.mode == .forming then
      .next ((s.modWorld (reqColour r) fun w => { w with mode := .protected_, measurement := s.measure r }).doneReq r)
    else .next s
  | none => takeReq r 1 s fun s =>
    if reqArg0 r % 2 = 1 then (s.newWorld r .forming).modWorld (reqColour r) fun w => { w with waiting := some r }
    else (s.newWorld r .standard).doneReq r

/-! ## GRANT, FENCE and RELEASE (R102, R311, R316, R320, R321) -/

/-- R316. -/
def execGrantReq (r : WReq) (s : State) : Result := takeReq r 2 s fun s =>
  ((reqSps r).foldl (fun s p => s.modSp p fun q => { q with owner := reqColour r, power := .on }) s).doneReq r
/-- Flash-clears a bank; no undo log holds its lines any more. -/
def State.quenchBank (s : State) (core b : Nat) : State :=
  let s1 := s.zeroRange (bankAddr core b) 0x2_0000
  { s1 with sps := s1.sps.map fun p => (p.1, { p.2 with lines := p.2.lines.filter fun l => !inRanges [(bankAddr core b, 0x2_0000)] l.1 }) }
/-- Writes the fence of a bank. -/
def State.setFence (s : State) (core b f : Nat) : State := s.modCore core fun k =>
  let w : Word := (tget k.bfence (b / 8)).getD 0
  let sh := 4 * (b % 8)
  { k with bfence := tput k.bfence (b / 8) ((w &&& ~~~(0xF#32 <<< sh)) ||| (BitVec.ofNat 32 f <<< sh)) }
/-- R316, R320: quench, unless the world holds the bank already; then the fence. -/
def execFenceRequest (r : WReq) (s : State) : Result := takeReq r 3 s fun s =>
  let core := reqCore r
  let p := (reqSps r).headD 0
  let one (s : State) (b : Nat) : State := match s.fence core b with
    | some _ => s.setFence core b (8 + p % 4)
    | none => (s.quenchBank core b).setFence core b (8 + p % 4)
  (((List.range 64).filter fun b => reqArg0 r / 2 ^ b % 2 == 1).foldl one s).doneReq r
/-- Quenches an SP (R321): its rows, tiles, progress words, image and log. -/
def State.quenchSp (s : State) (p : Nat) : State :=
  ((spRanges p).foldl (fun s r => s.zeroRange r.1 r.2) s).modSp p fun q =>
    { q with acprog := [], image := none, lines := [], events := [], teCount := 0, halted := false, halting := false, stepping := false, stepOf := none,
             pend := [], tbuf := [] }
/-- Quenches some SPs and the banks fenced to them, which then have no owner and no fence. -/
def State.freeSps (s : State) (ps : List Nat) : State := ps.foldl (fun s p =>
  let banks := (List.range 64).filter fun b => s.fence (coreOf p) b == some p
  let s1 := banks.foldl (fun s b => (s.quenchBank (coreOf p) b).setFence (coreOf p) b 0) (s.quenchSp p)
  s1.modSp p fun q => { q with owner := 0 }) s
/-- The SPs that go with some SPs in a rollback: those of every workgroup on them. -/
def State.withPeers (s : State) (ps : List Nat) : List Nat :=
  (ps ++ (s.wgs.filter fun g => g.2.resident && g.2.sps.any fun p => ps.contains p).flatMap fun g => g.2.sps).eraseDups
/-- Stops some SPs for a save (R311). -/
def State.stopSps (s : State) (ps : List Nat) : State := (s.withPeers ps).foldl (fun s p =>
  if (s.sp p).hold.isSome then s else s.stopSp p 0) s
/-- Rolls some SPs back and saves the workgroups on them, each re-queued; their images hold their banks (R310, R311, R448). -/
def State.saveSps (s : State) (ps : List Nat) : State :=
  let all := s.withPeers ps
  let ws := s.wgsOn ps
  let s1 := all.foldl (fun s p => (s.rollbackSp p).modSp p fun q => { q with hold := none }) s
  let s2 := ws.foldl (fun s w => match tget s.wgs w with
    | some g => (s.saveRolled w).requeue w g.launch
    | none => s) s1
  (s2.wgs.filter fun g => g.2.phase == .saved && g.2.sps.any fun p => ps.contains p).foldl (fun s g => s.sealBanks g.1) s2
/-- Whether the SPs of a stop are quiet. -/
def State.quietStop (s : State) (ps : List Nat) : Bool := s.quietSps (s.withPeers ps)
/-- R311, R316: rollback and save, then quench. -/
def execReleaseReq (r : WReq) (s : State) : Result :=
  let ps := reqSps r
  let finish (s : State) : State := if s.quietStop ps then ((s.saveSps ps).freeSps ps).doneReq r else s
  match s.under 4 r with
  | some _ => .next (finish s)
  | none => takeReq r 4 s fun s => finish ((s.stopSps ps).modWorld (reqColour r) fun w => { w with waiting := some r })

/-! ## STOP, RESET and DEPART (R326–R329, R445, R446, R451, R473) -/

/-- The SPs of a world. -/
def State.spsOf (s : State) (c : Nat) : List Nat := (s.sps.filter fun p => p.2.owner == c).map (·.1)
/-- Whether everything a world does has come to rest: its SPs, and the commands that run for it elsewhere (R326). -/
def State.quietWorld (s : State) (c : Nat) : Bool := s.quietStop (s.spsOf c) && s.cmds.all fun m => !(m.2.live && m.2.colour == c)
/-- Dirty pool lines of a colour are written back (R120, R326). -/
def State.flushPool (s : State) (c : Nat) : State :=
  s.writeBack (fun x => x.colour == c && decide (0x80_0000_0000 ≤ x.line)) fun _ => false
/-- The dirty-extent report (R327). -/
def State.dirtyReport (s : State) (r : WReq) (n : Nat) : State := match s.reqWorld r with
  | none => s
  | some w =>
    let c := reqColour r
    let ext := w.written.map (·.1)
    let fit := min ext.length ((n - 16) / 8)
    let g0 := fit % 2 ^ 32 + c * 2 ^ 32 + (s.gen c).toNat * 2 ^ 44 + (if fit < ext.length then 2 ^ 63 else 0)
    ((s.fwWrite (s.reqParty r) (reqBlk r) (leBytes 16 g0 ++ (ext.take fit).flatMap fun e => leBytes 8 e))).modWorld c fun w =>
      { w with written := [] }
/-- Releases the halts on a world's SPs: convoys resume at their trap points (R453). -/
def State.releaseHalts (s : State) (c : Nat) : State :=
  let ps := s.spsOf c
  let s1 := ps.foldl (fun s p => s.modSp p fun q => { q with halted := false, halting := false, stepping := false, stepOf := none }) s
  let go (v : Nat × Convoy) : Nat × Convoy :=
    if ps.contains v.2.spn && v.2.wait == .halted then (v.1, { v.2 with wait := .clause }) else v
  ps.foldl (fun s p => s.noteRun p) { s1 with convoys := s1.convoys.map go }
/-- R473: ends the launches of a colour: those with work placed with a completion word and a record, the others as rejected. The records of
traps that are still to be delivered go first, and a launch that was being aborted has its slots broken (R385, R387). -/
def State.endLaunches (s : State) (c : Nat) : State :=
  (s.launches.filter fun l => l.2.colour == c).foldl (fun s l =>
    let s0 : State := (s.reportsOf l.1 ++ l.2.recs ++ s.entryRecsOf l.1 l.2).foldl (fun (s : State) r => s.record r true) (if l.2.aborted.isSome then s.breakSlots l.1 else s)
    let s1 : State :=
      if (s.wgsOf l.1).isEmpty ∧ l.2.next = 0 then s0.wbrej c 0x05 0
      else (s0.completion l.2 0x40000038).record { source := 0x04, cls := 0x38, colour := c, recov := 0x6 } false
    let s2 := (s1.wgsOf l.1).foldl (fun s x => s.dropWg x.1) s1
    { s2.freeSlots l.1 with launches := tdel s2.launches l.1 }) s
/-- The first step of a stop: no record is popped, and issue stops on every SP of the world. -/
def State.beginStop (s : State) (r : WReq) : State :=
  let c := reqColour r
  (s.stopSps (s.spsOf c)).modWorld c fun w => { w with stopping := true, waiting := some r }
/-- The steps of a stop, once the world's commands have ended: saves, launches ended under RESET and DEPART, write-backs, the report
and STOPPED. -/
def State.endStop (s : State) (r : WReq) (n : Nat) : State :=
  let c := reqColour r
  let s1 := s.saveSps (s.spsOf c)
  let s2 := (if reqOp r = 5 then s1 else s1.endLaunches c).flushPool c
  ((if n = 0 then s2 else s2.dirtyReport r n).wstat r 2).modWorld c fun w => { w with stopping := false }
/-- R326. Waybills not yet placed stay ahead of their queue's records, and saved workgroups are restored. -/
def execStopReq (r : WReq) (s : State) : Result :=
  let finish (s : State) : State :=
    if s.quietWorld (reqColour r) then (s.endStop r (reqArg0 r)).modWorld (reqColour r) fun w => { w with waiting := none } else s
  match s.under 5 r with
  | some w => if w.stopping then .next (finish s) else .next s
  | none => takeReq r 5 s fun s => finish (s.beginStop r)
/-- A key erase of a colour: its key slot is overwritten, and every page of its ranges and their twins is marked (R323). -/
def State.eraseKey (s : State) (c : Nat) : State := match tget s.worlds c with
  | none => s
  | some w =>
    let s1 := (w.ranges.flatMap withTwin).foldl (fun s r => s.markPages r.1 r.2) s
    { s1 with egens := tput s1.egens c (s1.gen c)
              mgmt := { s1.mgmt with epochs := tput s1.mgmt.epochs c ((tget s1.mgmt.epochs c).getD 0 + 1) } }
/-- Sends a recall or a departure notice to the packages of a colour's export map, which are then awaited. -/
def State.noticeAll (s : State) (c : Nat) (m : Nat → OutMsg) : State :=
  let ps := s.exportsOf c
  (ps.foldl (fun s q => s.send (m q)) s).modWorld c fun w => { w with awaits := ps }
/-- The bindings of a colour take its generation (R446). -/
def State.retagBindings (s : State) (c : Nat) : State :=
  let g := s.gen c
  let cap (k : Cap) : BitVec 128 := (k.bits &&& ~~~(0xFF#128 <<< 91)) ||| (g.setWidth 128 <<< 91)
  { s with host := { s.host with binds := s.host.binds.map fun b =>
      if b.2.colour == c && b.2.qtag then
        let q := cap b.2.qcap
        let t := if b.2.ctag then cap b.2.ctab else b.2.ctab.bits
        (b.1, { b.2 with bits := (b.2.bits >>> 256 <<< 256) ||| (t.setWidth 512 <<< 128) ||| q.setWidth 512 })
      else b } }
/-- The generation advance of RESET (R328): with a key erase when the new generation would equal the erase generation, or ERASE. -/
def State.advanceGen (s : State) (r : WReq) : State := match s.reqWorld r with
  | none => s
  | some w =>
    let c := reqColour r
    let g := s.gen c + 1
    let s1 := { s with gens := tput s.gens c g }
    let s2 := if g = (tget s.egens c).getD 0 ∨ reqArg0 r % 2 = 1 then s1.eraseKey c else s1
    ((s2.modWorld c fun w => { w with exports := [], consent := none }).writeRoots c w).retagBindings c
/-- R328. -/
def execResetReq (r : WReq) (s : State) : Result :=
  let c := reqColour r
  let last (s : State) : State := match tget s.worlds c with
    | some w => if w.awaits.isEmpty then (s.advanceGen r).doneReq r else s
    | none => s
  let stopped (s : State) : State :=
    if s.quietWorld c then
      last (((s.endStop r (reqArg1 r)).noticeAll c fun q => .recall q c [(0, 2 ^ 52)]).count c 5 4 (s.exportsOf c).length)
    else s
  match s.under 6 r with
  | some w => if w.stopping then .next (stopped s) else .next (last s)
  | none => takeReq r 6 s fun s => stopped ((s.releaseHalts c).beginStop r)
/-- What a departure clears in the package: SPs, banks, MSC lines, Anvil entries, translations, reservations and logs. -/
def State.departQuench (s : State) (c : Nat) : State :=
  let s1 := s.freeSps (s.spsOf c)
  let keep (k : BitVec 256) : Bool := (k.extractLsb' 200 12).toNat != c
  let clean (p : Port) : Port :=
    { p with xlate := p.xlate.filter fun e => !(e.2.getLsbD 16 && (e.2.extractLsb' 39 12).toNat == c)
             reserve := p.reserve.filter fun e => !(e.2.getLsbD 16 && (e.2.extractLsb' 17 12).toNat == c) }
  { s1 with
    msc := { s1.msc with lines := s1.msc.lines.filter fun x => x.colour != c }
    anvil := { die := s1.anvil.die.map fun d => (d.1, d.2.filter fun x => keep x.key), store := s1.anvil.store.filter fun x => keep x.key }
    route := { s1.route with ports := s1.route.ports.map fun p => (p.1, clean p.2) } }
/-- R460: an unreachable peer that no port maps to a colour any more is freed of its acknowledgements for it, and leaves its export map. -/
def State.freePeer (s : State) (c q : Nat) : State :=
  let s1 := s.modWorld c fun w => { w with exports := w.exports.filter (· != q), awaits := w.awaits.filter (· != q) }
  let of (n : Nat) : Bool := s.rev.entries.any fun e => e.pass == n && e.colours.contains c
  let passes : Tbl Pass := s1.rev.passes.map fun (p : Nat × Pass) =>
    if of p.1 then (p.1, { p.2 with recalls := p.2.recalls.filter (· != (q, c)) }) else p
  { s1 with rev := { s1.rev with passes := passes } }.record
    { source := 0x1A, cls := 0x37, colour := c, recov := 0 } true
/-- Remote commands of a peer that run here for a colour. -/
def State.peerBusy (s : State) (c q : Nat) : Bool := s.cmds.any fun m => m.2.live && m.2.colour == c && m.2.peer == some q
/-- R329, R460: a departing colour's translations are invalid, which frees each unreachable peer once the remote commands accepted from
it have completed. -/
def State.freeGone (s : State) (c : Nat) : State := match tget s.worlds c with
  | none => s
  | some w => (w.awaits.filter fun q => s.unreachable c q && !s.peerBusy c q).foldl (fun s q => s.freePeer c q) s
/-- The end of a departure: the generation advances, and the colour is free. -/
def State.endDepart (s : State) (r : WReq) : State :=
  let c := reqColour r
  let s1 := { s with gens := tput s.gens c (s.gen c + 1) }
  (({ s1 with worlds := tdel s1.worlds c }).wstat r 1)
/-- R316, R329. -/
def execDepartReq (r : WReq) (s : State) : Result :=
  let c := reqColour r
  let last (s : State) : State :=
    let t := s.freeGone c
    match tget t.worlds c with
    | some w => if w.awaits.isEmpty then t.endDepart r else t
    | none => t
  let stopped (s : State) : State :=
    if s.quietWorld c then
      let s1 := (s.endStop r (reqArg1 r)).modWorld c fun w => { w with mode := .departing, consent := none }
      last ((((s1.departQuench c).eraseKey c).noticeAll c fun q => .departure q c).modWorld c fun w => { w with exports := [], key := false })
    else s
  match s.under 7 r with
  | some w => if w.stopping then .next (stopped s) else .next (last s)
  | none => takeReq r 7 s fun s => stopped ((s.releaseHalts c).beginStop r)

/-! ## ROUTE (R330, R331, R460) -/

/-- The local colour to which a port maps a peer's colour (R63, R330). -/
def State.translate (s : State) (port peer colour : Nat) : Option Nat :=
  let p : Port := (tget s.route.ports port).getD {}
  (p.xlate.find? fun e => e.2.getLsbD 16 && (e.2.extractLsb' 17 10).toNat == peer && (e.2.extractLsb' 27 12).toNat == colour).map fun e =>
    (e.2.extractLsb' 39 12).toNat
/-- Whether some port maps a colour of a peer to a local colour. -/
def State.mapped (s : State) (peer colour : Nat) : Bool := s.route.ports.any fun p => p.2.xlate.any fun e =>
  e.2.getLsbD 16 && (e.2.extractLsb' 17 10).toNat == peer && (e.2.extractLsb' 39 12).toNat == colour
/-- Frees every colour of the unreachable peers that a ROUTE has unmapped. -/
def State.freePeers (old s : State) : State :=
  (s.worlds.flatMap fun w => (w.2.exports ++ w.2.awaits).eraseDups.map fun q => (w.1, q)).foldl (fun s x =>
    if s.unreachable x.1 x.2 && old.mapped x.2 x.1 && !s.mapped x.2 x.1 then s.freePeer x.1 x.2 else s) s
/-- R331, R460: a write that unmaps a peer's colour waits for the remote commands accepted under it. -/
def execRouteReq (r : WReq) (s : State) : Result :=
  let n := leNat (s.fwRead (reqBlk r) 2)
  let new : Route := ((List.range n).map fun i => s.routeEntry r i).foldl (fun t e => t.put e) s.route
  let t : State := { s with route := new }
  let waits := s.reqCode r == none && s.worlds.any fun w => (w.2.exports ++ w.2.awaits).any fun q =>
    s.mapped q w.1 && !t.mapped q w.1 && s.peerBusy w.1 q
  if waits then .next s
  else takeReq r 8 s fun s =>
    let s1 : State := { s with route := ((List.range n).map fun i => s.routeEntry r i).foldl (fun t e => t.put e) s.route }
    (State.freePeers s s1).doneReq r

/-! ## Tokens, attestation and images (R339–R347, R453) -/

/-- The acceptance window of a token begins: its nonce and scope, and whether a protected formation runs now. -/
def State.openWindow (s : State) (r : WReq) : State :=
  let nonce := s.tokenNonce r
  let scope : Word := BitVec.ofNat 32 (leNat (s.fwRead (reqBlk r + 4) 4))
  let s1 := s.modWorld (reqColour r) fun w => { w with waiting := some r }
  { s1 with mgmt := { s1.mgmt with windows := tput s1.mgmt.windows (reqColour r) (nonce, scope, s1.worlds.any fun w => w.2.mode == .forming) } }
/-- The acceptance window ends: the token is in force, its nonce is used up, and the status tells of a protected formation that met it. -/
def State.closeWindow (s : State) (r : WReq) : State := match tget s.mgmt.windows (reqColour r) with
  | none => s
  | some (nonce, scope, met) =>
    let s1 := s.modWorld (reqColour r) fun w => { w with waiting := none }
    let rest := if s1.mgmt.nonce = some nonce then none else s1.mgmt.nonce
    { s1 with mgmt := { s1.mgmt with token := some scope, nonce := rest, windows := tdel s1.mgmt.windows (reqColour r) } }.wstat r
      (if met then 3 else 1)
/-- R340, R342, R453: firmware verifies the token between taking the request and writing its status. -/
def execUnlockReq (r : WReq) (s : State) : Result := match s.under 9 r with
  | some _ => .next (s.closeWindow r)
  | none => takeReq r 9 s fun s => s.openWindow r
/-- R316, R453. -/
def execRelockReq (r : WReq) (s : State) : Result := takeReq r 0x0A s fun s =>
  let s1 := { s with mgmt := { s.mgmt with token := none } }
  ((s1.worlds.filter fun w => w.2.mode == .standard).foldl (fun s w => s.releaseHalts w.1) (if s.mgmt.token.isSome then s1 else s)).doneReq r
/-- The state of a world in an attestation report. -/
def modeNum : WorldMode → Nat
  | .standard => 0
  | .forming => 1
  | .protected_ => 2
  | .departing => 3
/-- The bytes from which the configuration digest is made. -/
def State.configBytes (s : State) (c : Nat) (w : World) : List Byte :=
  (s.spsOf c).flatMap (fun p => leBytes 4 p) ++ leBytes 4 w.vd ++ leBytes 4 (s.mscRegs c).1.toNat ++ leBytes 4 (s.mscRegs c).2.toNat
    ++ (s.route.ports.flatMap fun p => (p.2.reserve.filter fun e => e.2.getLsbD 16 && (e.2.extractLsb' 17 12).toNat == c).flatMap fun e => leBytes 8 e.2.toNat)
    ++ leBytes 8 w.allow.toNat
/-- Bytes 0–511 of an attestation report (R344). -/
def State.report (s : State) (r : WReq) (w : World) : List Byte :=
  let c := reqColour r
  let head := Config.attestHead (c * 2 ^ 32 + (s.gen c).toNat * 2 ^ 16 + modeNum w.mode * 2 ^ 8 + s.debugState w)
  leBytes 2 1 ++ leBytes 14 head.toNat ++ bytes64 Config.deviceHash ++ bytes64 s.mgmt.measured ++ bytes64 w.measurement
    ++ bytes64 (Config.sha512 (s.configBytes c w)) ++ s.fwRead (reqBlk r) 64 ++ leBytes 176 0
/-- R344. -/
def execAttestReq (r : WReq) (s : State) : Result := takeReq r 0x0B s fun s => match s.reqWorld r with
  | none => s
  | some w =>
    let b := s.report r w
    (s.fwWrite (s.reqParty r) (reqBlk r) (b ++ leBytes 512 (Config.deviceSign (Config.sha512 b)).toNat)).doneReq r
/-- R316, R340. -/
def execNonceReq (r : WReq) (s : State) : Result := takeReq r 0x0C s fun s =>
  let n := Config.nonce s.free
  let s1 := { s.bump with mgmt := { s.mgmt with nonce := some n } }
  (s1.fwWrite (s.reqParty r) (reqBlk r) (bytes64 n)).doneReq r
/-- R347. -/
def execImageReq (r : WReq) (s : State) : Result := takeReq r 0x0D s fun s => match s.reqWorld r with
  | none => s
  | some w =>
    let p := imageSp r
    let sealed_ := s.sealedImage r w
    let b := (List.range (s.imageLen p !sealed_)).map fun i =>
      if sealed_ then Config.sealByte s.free i (s.imageAt p false i) else s.imageAt p true i
    (s.bump.fwWrite (s.reqParty r) (reqBlk r) b).doneReq r
/-- R316, R370. -/
def execModeReq (r : WReq) (s : State) : Result := takeReq r 0x0E s fun s =>
  ({ s with host := { s.host with mode := BitVec.ofNat 2 (reqArg0 r) } }).doneReq r
/-- R343. -/
def execConsentReq (r : WReq) (s : State) : Result := takeReq r 0x20 s fun s =>
  (s.modWorld (reqColour r) fun w => { w with consent := some (BitVec.ofNat 3 (reqArg0 r)) }).doneReq r
/-- R343, R453. -/
def execWithdrawReq (r : WReq) (s : State) : Result := takeReq r 0x21 s fun s =>
  ((s.modWorld (reqColour r) fun w => { w with consent := none }).releaseHalts (reqColour r)).doneReq r

end Sys2Proof.Machine
end

