-- ==== Sys2Proof/Machine/Sweep.lean ====
section
/-! DEFINITION. Sweep passes and recalls (R68–R71, R267, R372, R430). -/

namespace Sys2Proof.Machine

/-! ## Clearing caught tags (R69) -/

/-- A capability as a sweep by some entries leaves it. -/
def sweepCap (es : List RevEntry) (k : Cap) : Cap := { k with tag := k.tag && !es.any fun e => e.catches k }
/-- A granule with its tag, as a record holds it. -/
def sweepSlot (es : List RevEntry) (x : BitVec 128 × Bool) : BitVec 128 × Bool := (x.1, (sweepCap es ⟨x.1, x.2⟩).tag)
/-- Uniform capability registers. -/
def sweepUnif (es : List RevEntry) (u : Unif) : Unif :=
  { u with kt := (List.range 16).foldl (fun (kt : BitVec 16) n =>
      if kt.getLsbD n && !(sweepCap es (u.rdK n)).tag then kt &&& ~~~(1#16 <<< n) else kt) u.kt }
/-- Tags of a table of bytes. -/
def sweepTags (es : List RevEntry) (bytes : Tbl Byte) (here : Addr → Bool) (tags : Tbl Unit) : Tbl Unit := tags.filter fun t =>
  !here t.1 || (sweepCap es ⟨BitVec.ofNat 128 (leNat ((List.range 16).map fun i => (tget bytes (t.1 + i)).getD unlistedByte)), true⟩).tag
/-- A fibre's spawn record. -/
def sweepFibre (es : List RevEntry) (f : Fibre) : Fibre :=
  { f with unif := sweepUnif es f.unif, popped := f.popped.map fun p => (p.1, p.2.map (sweepSlot es)) }
/-- What a waiting instruction has read. A queue operation that holds a reservation was checked when it took it, and the pass waits for it
(R70, R429). -/
def sweepWait (es : List RevEntry) (w : Wait) : Wait := match w with
  | .queue q => .queue { q with kq := if q.start.isSome then q.kq else sweepCap es q.kq, kr := sweepCap es q.kr }
  | .remote r => .remote { r with buf := r.buf.map fun b => (sweepCap es b.1, b.2) }
  | .wsig x => .wsig { x with remote := x.remote.map (sweepCap es) }
  | x => x
def sweepConvoy (es : List RevEntry) (v : Convoy) : Convoy := { v with u := sweepUnif es v.u, wait := sweepWait es v.wait }
def sweepEvent (es : List RevEntry) (e : LogEvent) : LogEvent := { e with slots := e.slots.map (sweepSlot es) }
/-- An image: rows, snapshots, convoys, records and banks. -/
def sweepImage (es : List RevEntry) (im : Image) : Image :=
  { im with
    tags := sweepTags es im.bytes (fun _ => true) im.tags
    fibres := im.fibres.map fun f => (f.1, sweepFibre es f.2)
    convoys := im.convoys.map fun v => (v.1, sweepConvoy es v.2)
    events := im.events.map fun e => (e.1, sweepEvent es e.2)
    banks := im.banks.map fun b => { b with tags := sweepTags es b.bytes (fun _ => true) b.tags } }
/-- A line of an undo log: its tags are those of the granules of its old bytes. -/
def sweepLine (es : List RevEntry) (l : Addr × List Byte × Tbl Unit) : Addr × List Byte × Tbl Unit :=
  (l.1, l.2.1, sweepTags es (((List.range 128).zip l.2.1).map fun b => (l.1 + b.1, b.2)) (fun _ => true) l.2.2)
def sweepSp (es : List RevEntry) (p : Sp) : Sp :=
  { p with image := p.image.map (sweepImage es), lines := p.lines.map (sweepLine es), events := p.events.map (sweepEvent es) }
/-- The die whose sweep engine covers an address: that of the core, or of the HBM stack. -/
def sweepDie (a : Addr) : Nat := match onchip a with
  | some (c, _) => c / 16
  | none => hbmStack a / 2
/-- One die's engine clears the tags that some entries catch in its stores; the local writes that wait there are performed first, so that
no tag it clears is still to be read beside them (R69, R372). -/
def State.sweepDieOf (s0 : State) (die : Nat) (es : List RevEntry) : State :=
  let spIn (p : Nat) : Bool := dieOf p == die
  let s := ((s0.sps.map (·.1)).filter spIn).foldl (fun s p => s.drainSp p) s0
  let s1 : State := { s with
    tags := sweepTags es s.mem (fun a => sweepDie a == die) s.tags
    fibres := s.fibres.map fun f => if spIn f.2.spn then (f.1, sweepFibre es f.2) else f
    convoys := s.convoys.map fun v => if spIn v.2.spn then (v.1, sweepConvoy es v.2) else v
    sps := s.sps.map fun p => if spIn p.1 then (p.1, sweepSp es p.2) else p }
  let s2 : State := { s1 with
    wgs := s1.wgs.map fun g => if spIn (g.2.sps.headD 0) then (g.1, { g.2 with image := sweepImage es g.2.image }) else g }
  { s2 with
    launches := s2.launches.map fun l => if l.2.home == die then (l.1, { l.2 with g := l.2.g.map (sweepCap es) }) else l
    host := { s2.host with binds := s2.host.binds.map fun b =>
      if b.2.home == die then (b.1, { b.2 with qtag := (sweepCap es b.2.qcap).tag, ctag := (sweepCap es b.2.ctab).tag }) else b } }
/-- The entries of a pass. -/
def State.entriesIn (s : State) (n : Nat) : List RevEntry := s.rev.entries.filter fun e => e.pass == n

/-! ## The life of a pass (R70, R267, R430) -/

/-- R267. -/
def execSweepBeginTimer (n : Nat) (s : State) : Result := match tget s.rev.passes n with
  | none => .next s
  | some p => if !p.begun ∧ p.opened + 1024 ≤ s.now p.die then .next (s.beginPass n) else .next s
/-- R69. -/
def execSweepEngineFinish (die n : Nat) (s : State) : Result := match tget s.rev.passes n with
  | none => .next s
  | some p =>
    if p.begun ∧ die < 4 ∧ !p.finished.getLsbD die then
      .next ((s.sweepDieOf die (s.entriesIn n)).modPass n fun p => { p with finished := p.finished ||| (1#4 <<< die) })
    else .next s
/-- What a bale becomes under a local colour. -/
def State.unbaled (s : State) (peer x : Nat) (k : Cap) : Cap :=
  ⟨capBits k.kind true (BitVec.ofNat 12 (0x800 + peer)) (BitVec.ofNat 12 x) (s.gen x) k.perms k.e k.m k.base, true⟩
/-- The capability that a bale becomes, through the revocation filter (R63, R68). -/
def State.unbale (s : State) (peer x : Nat) (k : Cap) : Cap := s.filter (s.unbaled peer x k)
/-- The capabilities in use that no sweep reaches (R70): the queue capability of an instruction that holds a reservation there, and what
bales become that wait at a port. -/
def State.inUse (s : State) : List Cap :=
  (s.convoys.filterMap fun v => match v.2.wait with
    | .queue w => if w.start.isSome then some w.kq else none
    | _ => none) ++
  s.held.filterMap fun h => match h with
    | .bale m => (s.translate m.port m.peer (Cap.mk m.bits true).colour.toNat).map fun x => s.unbaled m.peer x ⟨m.bits, true⟩
    | _ => none
/-- Whether a pass can close (R70). -/
def State.closable (s : State) (n : Nat) (p : Pass) : Bool :=
  p.begun && p.finished == 15 && p.recalls.isEmpty &&
    (s.entriesIn n).all fun e => (s.usersOf e).isEmpty && s.inUse.all fun k => !e.catches k
/-- The sweep engine writes a signal word, by a release at `.pkg`, or over a Route port. -/
def State.sweepSig (s : State) (x : Cap × Nat) (n : Nat) : State :=
  let v : Word := BitVec.ofNat 32 n
  match x.1.remote with
  | some q => s.send (.access q x.1.colour.toNat 0 x.1 (.write x.2 (leBytes 4 v.toNat)))
  | none =>
    let a := x.1.lo + x.2
    let s1 := (s.logWrite a 4).post32 x.1.colour.toNat a v none
    if x.1.has permTwin && decide (a < 0x40_0000_0000) then s1.post32 x.1.colour.toNat (twinOf a) v none else s1
/-- The lines of this package's scratchpads that the signal words of a pass go to: they wait for room in the logs (R390). -/
def Pass.sigLines (p : Pass) : List Addr :=
  (p.sigs.filter fun x => x.1.remote.isNone).flatMap fun x => linesOf (x.1.lo + x.2) 4
/-- R70, R71: the lowest open pass closes: its signal words, SWEEPDONE, and the acknowledgement of a recall; convoys that waited for
room in the set issue again. -/
def execPassClose (s : State) : Result := match s.rev.passes with
  | [] => .next s
  | (n, p) :: rest =>
    if !s.closable n p || !(p.sigs.isEmpty || s.logRoom p.sigLines 0 0) then .next s
    else
      let s1 : State := { s with rev := { s.rev with passes := rest, sweepdone := BitVec.ofNat 32 n,
                                                     entries := s.rev.entries.filter fun e => e.pass != n } }
      let s2 := p.sigs.foldl (fun s x => s.sweepSig x n) s1
      let s3 := match p.ack with
        | some (owner, c) => s2.send (.answer owner c 0 [])
        | none => s2
      .next { s3 with convoys := s3.convoys.map fun v => if v.2.wait == .revoke then (v.1, { v.2 with wait := .run }) else v }
/-- R430. -/
def execPassOpenTimer (n : Nat) (s : State) : Result := match tget s.rev.passes n with
  | none => .next s
  | some p =>
    if !p.recalls.isEmpty ∧ p.opened + 2 ^ 24 * (p.warned + 1) ≤ s.now p.die then
      let c := ((s.entriesIn n).head?.bind fun e => e.colours.head?).getD 0
      .next ((s.modPass n fun p => { p with warned := p.warned + 1 }).record
        { source := 0x1A, cls := 0x39, colour := c, recov := 0xD } false)
    else .next s

/-! ## Recalls (R71, R328, R372) -/

/-- The local colours to which a port maps a peer's colour. -/
def State.translations (s : State) (port peer colour : Nat) : List Nat :=
  let p : Port := (tget s.route.ports port).getD {}
  (p.xlate.filter fun e => e.2.getLsbD 16 && (e.2.extractLsb' 17 10).toNat == peer && (e.2.extractLsb' 27 12).toNat == colour).map fun e =>
    (e.2.extractLsb' 39 12).toNat
/-- Entries for recalls that are held. -/
def State.recallsHeld (s : State) : Nat := (s.rev.entries.filter fun e => e.owner.isSome).length
/-- A recall is accepted: it opens a pass of its own, which begins at once, with an entry for each of its ranges. -/
def State.openRecall (s : State) (m : RecallMsg) : State :=
  let n := s.rev.next
  let cs := s.translations m.port m.owner m.colour
  let p : Pass := { opened := s.now 0, die := 0, begun := true, ack := some (m.owner, m.colour) }
  let s1 : State := { s with rev := { s.rev with next := n + 1, passes := s.rev.passes ++ [(n, p)] } }
  m.ranges.foldl (fun (s : State) r => s.addEntry { base := r.1, len := r.2, colours := cs, pass := n, owner := some m.owner }) s1
/-- A recall waits for entries: too few of those for recalls are free, and some are held (log entry 80). -/
def State.recallWaits (s : State) (m : RecallMsg) : Bool := decide (recallEntries < s.recallsHeld + m.ranges.length) && s.recallsHeld != 0
/-- An earlier recall waits at the port. -/
def State.recallAhead (s : State) (m : RecallMsg) : Bool := s.held.any fun e => match e with
  | .recall x => x.port == m.port
  | _ => false
/-- R71: while too few of the entries for recalls are free, a recall waits at the port; later recalls of the port wait behind it. -/
def execRecallReceive (m : RecallMsg) (s : State) : Result :=
  s.onPort m.port ((s.translations m.port m.owner m.colour).headD 0) ⟨m.owner, m.colour⟩ m.seq fun t =>
    if s.recallWaits m || s.recallAhead m then { t with held := t.held ++ [.recall m] } else t.openRecall m
/-- The number by which an acknowledgement names a RESET's recall of a colour; smaller numbers are passes. -/
def resetAck (colour : Nat) : Nat := 2 ^ 32 + colour
/-- R372, R328: an acknowledgement reaches the owner. -/
def execRecallAckReceive (m : Arrival) (n : Nat) (s : State) : Result :=
  .next (s.once m.on m.seq fun s =>
    if n < 2 ^ 32 then s.modPass n fun p => { p with recalls := p.recalls.erase (m.on.peer, m.on.colour) }
    else s.modWorld (n - 2 ^ 32) fun w => { w with awaits := w.awaits.filter (· != m.on.peer) })

end Sys2Proof.Machine
end

