-- ==== Sys2Proof/Machine/Route.lean ====
section
/-! DEFINITION. What the Route ports do: arriving bales, remote commands and forwarded accesses (R63–R65), departure notices (R329),
cancellations (R431), arrivals and contributions of `.pod` slots (R91, R301), and the links (R363, R364, R457–R459). -/

namespace Sys2Proof.Machine

/-- The number that stands for no SP of the package, in a command run for a peer. -/
def noSp : Nat := 256

/-! ## Bales (R63) -/

/-- A capability for what a peer's capability names here, for the owner's colour and generation. -/
def State.ownedCap (s : State) (x : Nat) (kind : BitVec 4) (perms : BitVec 16) (base len : Nat) : Cap :=
  mkCap kind false 0 (BitVec.ofNat 12 x) (s.gen x) perms base len
/-- The unfinished remote command of this package that an arriving message names, with its local capability: it was sent to the package
that the message comes from (R64). -/
def State.localEnd (s : State) (peer k : Nat) : Option (Cmd × Cap) := match tget s.cmds k with
  | some m => (match m.op with
    | .block b (some l) => if b.remote == some peer && (m.phase == .running || m.phase == .cancelling) then some (m, l) else none
    | _ => none)
  | none => none
/-- Through which capability, under which colour, a bale is written: the carrying transfer's, as it stands here, or the local capability of
the remote command that it comes for (R63–R65). -/
def State.baleEnd (s : State) (m : BaleMsg) : Option (Nat × Cap) := match m.cmd with
  | some k => (s.localEnd m.peer k).map fun e => (e.1.colour, e.2)
  | none => (s.translate m.port m.peer m.colour).map fun x => (x, s.ownedCap x kindData m.perms m.base m.len)
/-- The address of a bale's granule. -/
def State.baleAt (s : State) (m : BaleMsg) : Addr := ((s.baleEnd m).map fun e => e.2.lo + m.off).getD 0
/-- Writes a granule that arrives over a port. -/
def State.putGranule (s : State) (colour a : Addr) (k : Cap) : State :=
  (((s.wakeRange a 16).logWrite a 16).passWr colour none a 16).wrCaps a [k]
/-- A BALEREF record (R439). -/
def State.baleRef (s : State) : State := s.record { source := 0x1A, cls := 0x3A, colour := 0, recov := 0 } false
/-- Whether a bale's granule can be written: the check of the port where it takes effect (R55, R359). -/
def State.baleFits (s : State) (x : Nat) (d : Cap) (m : BaleMsg) : Bool :=
  (s.useCause x d {} permSt true m.off 16).isNone && (d.lo + m.off) % 16 == 0
/-- A bale is written, or refused: its granule is written without the tag. It keeps its tag only where the transfer's end has STK (R54), and
in storage of the colour that it becomes (R56). -/
def State.landBale (s : State) (m : BaleMsg) : State :=
  let k : Cap := ⟨m.bits, true⟩
  match s.baleEnd m with
  | none => s
  | some (x, d) =>
    let put (s : State) (c : Cap) : State := if s.baleFits x d m then s.putGranule x (d.lo + m.off) c else s
    match s.translate m.port m.peer k.colour.toNat with
    | none => (put s k.untag).baleRef
    | some y => (put s (if y = x ∧ d.has permStk then s.unbale m.peer y k else k.untag)).count y 5 3 1
/-- The PCIe port, whose accesses are performed in the order of arrival (R140). -/
def hostKey : Nat × Nat × Nat := (32, 0, 0)
/-- What waits at a port, in the order of arrival: an event of the port is held while an earlier one of the same peer and colour is, or
while it cannot be served yet. -/
def heldKey : Held → Option (Nat × Nat × Nat)
  | .bale m => some (m.port, m.peer, m.colour)
  | .command m => some (m.port, m.peer, m.colour)
  | .access m => match m.acc with
    | .qpush _ _ => none
    | .qpop _ => none
    | _ => some (m.port, m.peer, m.colour)
  | .hostWrite _ _ => some hostKey
  | .hostRead _ _ => some hostKey
  | .register _ _ => some hostKey
  | .extinv _ => some hostKey
  | .bind _ => some hostKey
  | .counter _ _ _ => some hostKey
  | .aperture _ => some hostKey
  | .halt _ => some hostKey
  | .step _ => some hostKey
  | .run _ => some hostKey
  | .recall _ => none
/-- Whether what waits at a port holds back a later event there: one of the same peer and colour, a bale any later bale of its port (R63),
a recall any later recall of its port (R71). -/
def Held.blocks (e i : Held) : Bool := match e, i with
  | .bale m, .bale x => m.port == x.port
  | .recall m, .recall x => m.port == x.port
  | _, _ => (heldKey i).isSome && heldKey e == heldKey i
/-- An event is held behind others. -/
def State.behind (s : State) (i : Held) : Bool := s.held.any fun e => e.blocks i
/-- Serves an event at a port, or holds it there; `serve` answers none while it waits, with what its wait begins. -/
def State.atPort (s : State) (i : Held) (serve : State → Option State) (wake : State → State) : State :=
  if s.behind i then { s with held := s.held ++ [i] }
  else match serve s with
    | some t => t
    | none => { wake s with held := s.held ++ [i] }
/-- The wakes that ranges of an access begin. -/
def State.wakeRanges (s : State) (rd wr : List (Addr × Nat)) : State := (s.awaits rd wr).getD s
/-- Whether the undo logs have room for what an access of a port writes. -/
def State.accRoom (s : State) (a n : Nat) : Bool := s.logRoom (linesOf a n) noSp 0
/-- The granule that a bale is to be written to, when it has a place. -/
def State.balePlace (s : State) (m : BaleMsg) : List (Addr × Nat) := match s.baleEnd m with
  | some (x, d) => if s.baleFits x d m then [(d.lo + m.off, 16)] else []
  | none => []
/-- Serves a bale once its place is awake and a log has room for it. -/
def State.serveBale (s : State) (m : BaleMsg) : Option State :=
  if (s.awaits [] (s.balePlace m)).isSome || (s.balePlace m).any (fun r => !s.accRoom r.1 r.2) then none else some (s.landBale m)
/-- R63, R439. -/
def execBaleReceive (m : BaleMsg) (s : State) : Result :=
  s.onPort m.port ((s.translate m.port m.peer m.colour).getD 0) ⟨m.peer, m.colour⟩ m.seq fun s =>
    s.atPort (.bale m) (fun s => s.serveBale m) fun s => s.wakeRanges [] (s.balePlace m)

/-! ## Remote commands (R64, R431) -/

/-- The command capability by which a peer's command names its block here: its own was checked at the peer, and is checked here for
the owner's colour and generation. -/
def State.peerBlockCap (s : State) (x block : Nat) : Cap :=
  mkCap kindCmd true 1 (BitVec.ofNat 12 x) (s.gen x) (permLd ||| permSt) block 64
/-- What a use of the local capability of a remote command may ask of it: its own package checks it (R64). -/
def permEnd : BitVec 16 := permLd ||| permSt ||| permLdk ||| permStk ||| permAtom ||| permNmc ||| permPeer
/-- The local capability of a remote command, as it stands for granule 2 at its block. -/
def State.peerEnd (s : State) (x peer len : Nat) : Option Cap :=
  if len = 0 then none
  else some (mkCap kindData true (BitVec.ofNat 12 (0x800 + peer)) (BitVec.ofNat 12 x) (s.gen x) permEnd 0 len)
/-- The command that runs a peer's block. -/
def State.peerCmd (s : State) (x : Nat) (m : RemoteCmdMsg) : Cmd where
  cls := .ecp
  op := .block (s.peerBlockCap x m.block) (s.peerEnd x m.peer m.localLen)
  core := coreOf noSp
  spn := noSp
  wg := s.ids
  colour := x
  gen := s.gen x
  convoy := s.ids
  fibres := []
  pc := 0
  wi := 0
  regcnt := 0
  seq := 0
  want := (CmdOp.block (s.peerBlockCap x m.block) none).entries noSp 0
  status := 0
  peer := some m.peer
  peerCmd := m.cmd
/-- A remote command is accepted here, or refused for want of a translation. -/
def State.serveCommand (s : State) (m : RemoteCmdMsg) : State := match s.translate m.port m.peer m.colour with
  | none => s.send (.answer m.peer m.colour 0x8010 [])
  | some x => { s.nextId with cmds := tput s.cmds s.ids (s.peerCmd x m) }.takeEntries s.ids
/-- R64, R421. -/
def execRemoteCommandReceive (m : RemoteCmdMsg) (s : State) : Result :=
  s.onPort m.port ((s.translate m.port m.peer m.colour).getD 0) ⟨m.peer, m.colour⟩ m.seq fun s =>
    s.atPort (.command m) (fun s => some (s.serveCommand m)) fun s => s
/-- The unfinished command that runs a block for a peer. -/
def State.peerRuns (s : State) (m : RemoteCmdMsg) : Option Nat :=
  (s.cmds.find? fun y => y.2.peer == some m.peer && y.2.live && y.2.phase != .performed && (match y.2.op with
    | .block b _ => b.lo == m.block
    | _ => false)).map (·.1)
/-- A command of a peer that has not been accepted yet is no longer held for it. -/
def State.dropHeld (s : State) (m : RemoteCmdMsg) : State :=
  { s with held := s.held.filter fun e => match e with
      | .command x => !(x.peer == m.peer && x.colour == m.colour && x.block == m.block)
      | _ => true }
/-- R431: the block's command stops, as a cancelled one does, and the peer is told. -/
def execRemoteCancelReceive (m : RemoteCmdMsg) (s : State) : Result :=
  s.onPort m.port ((s.translate m.port m.peer m.colour).getD 0) ⟨m.peer, m.colour⟩ m.seq fun s =>
    let s1 := s.dropHeld m
    (match s1.peerRuns m with
      | some k => s1.cancel k
      | none => s1).send (.answer m.peer m.colour 4 [])
/-- R431. -/
def execRemoteCancelAckReceive (a : CancelAck) (s : State) : Result :=
  .next (s.once a.at_.on a.at_.seq fun s => match tget s.cmds a.cmd with
    | none => s
    | some m => if m.phase == .cancelling then s.dropCmd a.cmd m else s)

/-! ## Forwarded accesses (R65) -/

/-- What a peer's capability names here. -/
def State.ownerCap (s : State) (x : Nat) (kind : BitVec 4) (m : RemoteAccMsg) : Cap := s.ownedCap x kind m.perms m.base m.len
/-- The reply to a forwarded access: STATUS 0x0002, 0x0003 for a lost line, or 0x8000 and the cause. -/
def State.reply (s : State) (m : RemoteAccMsg) (status : Nat) (bytes : List Byte) : State :=
  s.send (.answer m.peer m.colour status bytes)
/-- The granules of a record as they are written here: a bale among them becomes a remote capability where the port translates its colour
and the queue keeps tags, and is refused where it does not (R54, R63). -/
def State.landSlots (s : State) (m : RemoteAccMsg) (l : List (BitVec 128 × Bool)) : List Cap := l.map fun g =>
  let k : Cap := ⟨g.1, g.2⟩
  match s.translate m.port m.peer k.colour.toNat with
  | some x => if g.2 && m.perms &&& permStk == permStk then s.unbale m.peer x k else k.untag
  | none => k.untag
/-- The bales of a record are counted, or recorded as refused (R337, R439). -/
def State.noteSlots (s : State) (m : RemoteAccMsg) (l : List (BitVec 128 × Bool)) : State := (l.filter (·.2)).foldl (fun s g =>
  match s.translate m.port m.peer (Cap.mk g.1 true).colour.toNat with
  | some x => s.count x 5 3 1
  | none => s.baleRef) s
/-- A push of a peer: none while it waits. -/
def State.peerPush (s : State) (x : Nat) (m : RemoteAccMsg) (slots : List (BitVec 128 × Bool)) (nb : Bool) : Option State :=
  let k := s.ownerCap x kindQueue m
  let b := k.lo
  let h := s.qhdr b
  let n := slots.length / 4
  let slot := slotAddr b (h.first h.rsv n)
  let ag := plainAgent x
  match s.queueCause x k (permLd ||| permSt) 0 64 with
  | some c => some (s.reply m (0x8000 + c) [])
  | none =>
    if s.headerLost x b then some ((s.readLines ag .at_ b 64).1.reply m 3 [])
    else if s.headerBad b then some ((s.headerFault ag 0x1A b).reply m 0x800C [])
    else if h.cap < n then some ((s.onHeader ag k fun s => s.qerr b 0x0B (h.rsv % h.cap)).reply m 2 [0])
    else if !h.room n then (if nb then some (s.reply m 2 [0]) else none)
    else match s.queueCause x k (permLd ||| permSt) (slot - b) (64 * n) with
      | some c => some (s.reply m (0x8000 + c) [])
      | none =>
        if h.tail ≠ h.rsv || !s.accRoom b 64 || !s.accRoom slot (64 * n) then none
        else
          let s1 := s.onQueue ag b (if h.pad n = 0 then 64 else slotAddr b (h.rsv % h.cap) + 64 - b) fun s => (s.qreserve b n).2
          let s2 := s1.onQueue ag slot (64 * n) fun s => s.qfill b h.rsv n (s1.landSlots m slots)
          some (((s2.noteSlots m slots).onHeader ag k fun s => s.qpublish b h.rsv n).reply m 2 [1])
/-- A pop of a peer: skip records and rejected ones are released on the way; none while it waits. -/
def State.peerPop (x : Nat) (m : RemoteAccMsg) (nb : Bool) : Nat → State → Option State
  | 0, _ => none
  | fuel + 1, s =>
    let k := s.ownerCap x kindQueue m
    let b := k.lo
    let h := s.qhdr b
    let ag := plainAgent x
    match s.queueCause x k (permLd ||| permSt) 0 64 with
    | some c => some (s.reply m (0x8000 + c) [])
    | none =>
      if s.headerLost x b then some ((s.readLines ag .at_ b 64).1.reply m 3 [])
      else if s.headerBad b then some ((s.headerFault ag 0x1A b).reply m 0x800C [])
      else if h.crsv = h.tail then (if nb then some (s.reply m 2 []) else none)
      else if h.head ≠ h.crsv || !s.accRoom b 64 then none
      else
        let f := s.found b
        let a := slotAddr b (h.crsv % h.cap)
        let free (n : Nat) (s : State) : State := s.onHeader ag k fun s => s.consume b h.crsv n
        if f.cause ≠ 0 then State.peerPop x m nb fuel (free f.k (s.onHeader ag k fun s => s.qerr b f.cause (h.crsv % h.cap)))
        else if f.skip then State.peerPop x m nb fuel (free f.k s)
        else match s.queueCause x k (permLd ||| permSt) (a - b) (64 * f.m) with
          | some c => some (s.reply m (0x8000 + c) [])
          | none =>
            let r := s.readLines ag .rd a (64 * f.m)
            some ((free f.m r.1).reply m 2 ((r.1.bytesAt ag r.2 a (64 * f.m)).map fun y => y.getD 0))
/-- One access that a peer makes through a capability of this package: its checks, its effect and the reply; `refuse` is what a refusal
does. None while it waits at the port, and of what is no access of memory. -/
def State.endAccess (s : State) (ag : Agent) (k : Cap) (w : Reach) (m : RemoteAccMsg) (refuse : State → Nat → Addr → State) : Option State :=
  let checked (w : Reach) (perms : BitVec 16) (write : Bool) (off n align : Nat) (go : Option State) : Option State :=
    match s.useCause ag.colour k w perms write off n with
    | some c => some (refuse (s.extentRec ag c (k.lo + off)) c (k.lo + off))
    | none =>
      if (k.lo + off) % align ≠ 0 then some (refuse s 0x0C (k.lo + off))
      else if write && !s.accRoom (k.lo + off) n then none
      else go
  match m.acc with
  | .read off n => checked w permLd false off n 1 (
      let r := s.readLines ag .rd (k.lo + off) n
      some (r.1.reply m (if r.2.isEmpty then 2 else 3) ((r.1.bytesAt ag r.2 (k.lo + off) n).map fun y => y.getD 0)))
  | .write off bs => checked w permSt true off bs.length 1 (
      let r := s.writeRange ag (k.has permTwin) (k.lo + off) (bs.map some) []
      some (r.1.reply m (if r.2 then 3 else 2) []))
  | .atomic off fn w64 u a b =>
    let n := if w64 then 8 else 4
    checked { host := false } (permLd ||| permSt ||| permAtom) true off n n (
      let r := s.rmw ag (k.has permTwin) (k.lo + off) n fun y => atomNew fn w64 u y a b
      some (r.1.reply m (if r.2.2.2 then 3 else 2) (leBytes n r.2.1.toNat)))
  | .update off fn alpha beta g =>
    checked { pool := false, host := false, spad := false } (permLd ||| permSt ||| permNmc) true off 128 128 (
      let r := (s.nmcFlush k off 128).updateLine ag (k.has permTwin) (k.lo + off) 0 alpha beta fn fun s => (s, some g)
      some (r.1.reply m (if r.2.1 then 3 else 2) []))
  | .qpush _ _ => none
  | .qpop _ => none
  | .qslots => none
  | .claim _ _ _ => none
  | .done _ => none
/-- One forwarded access, under the owner's colour; none while it waits at the port. What a remote command alone may ask is answered with
SEALED (R65). -/
def State.peerAccess (s : State) (x : Nat) (m : RemoteAccMsg) : Option State :=
  match m.acc with
  | .read _ _ => s.endAccess (plainAgent x) (s.ownerCap x kindData m) {} m fun s c _ => s.reply m (0x8000 + c) []
  | .write _ _ => s.endAccess (plainAgent x) (s.ownerCap x kindData m) {} m fun s c _ => s.reply m (0x8000 + c) []
  | .atomic _ _ _ _ _ _ => s.endAccess (plainAgent x) (s.ownerCap x kindData m) {} m fun s c _ => s.reply m (0x8000 + c) []
  | .update _ _ _ _ _ => some (s.reply m 0x8003 [])
  | .claim _ _ _ => some (s.reply m 0x8003 [])
  | .done _ => some (s.reply m 0x8003 [])
  | .qpush slots nb => s.peerPush x m slots nb
  | .qpop nb => State.peerPop x m nb popFuel s
  | .qslots =>
    let q := s.ownerCap x kindQueue m
    match s.queueCause x q permLd 0 64 with
    | some c => some (s.reply m (0x8000 + c) [])
    | none =>
      if s.headerLost x q.lo then some ((s.readLines (plainAgent x) .at_ q.lo 64).1.reply m 3 [])
      else if s.headerBad q.lo then some ((s.headerFault (plainAgent x) 0x1A q.lo).reply m 0x800C [])
      else some (s.reply m 2 (leBytes 4 (s.qhdr q.lo).free))
/-- A peer's access through the local capability of a remote command of this package, under the command's own colour (R64): its bytes are
checked by the local engine before any moves, a refusal ends the command, and `done` answers it. One that names no such command does
nothing (log entry 9). -/
def State.localAccess (s : State) (k : Nat) (m : RemoteAccMsg) : Option State := match s.localEnd m.peer k with
  | none => some s
  | some (c, l) => match m.acc with
    | .claim write perms runs =>
      (match s.useRefusal c.colour { k := l, perms := perms, write := write, reach := { rx := true }, ranges := runs } with
        | some x => some (s.refuseRemote k c m.peer x.1 x.2)
        | none => some s)
    | .done st => some (s.modCmd k fun c => { c with answer := some st })
    | _ => (s.wakeRange l.lo l.len).endAccess (s.cmdAgent c) l { rx := true } m fun s n a => s.refuseRemote k c m.peer n a
/-- The bytes that a forwarded access reads and writes: of a queue, its header and the record at its index. -/
def State.accRanges (s : State) (m : RemoteAccMsg) : List (Addr × Nat) × List (Addr × Nat) :=
  let h := s.qhdr m.base
  let base := ((m.cmd.bind fun k => s.localEnd m.peer k).map fun e => e.2.lo).getD m.base
  match m.acc with
  | .read off n => ([(base + off, n)], [])
  | .write off bs => ([], [(base + off, bs.length)])
  | .atomic off _ w64 _ _ _ => ([], [(base + off, if w64 then 8 else 4)])
  | .update off _ _ _ _ => ([], [(base + off, 128)])
  | .claim _ _ _ => ([], [])
  | .done _ => ([], [])
  | .qpush slots _ => ([], [(m.base, 64), (slotAddr m.base (h.first h.rsv (slots.length / 4)), 16 * slots.length)])
  | .qpop _ => ([(slotAddr m.base (h.crsv % h.cap), 64)], [(m.base, 64)])
  | .qslots => ([(m.base, 64)], [])
/-- Serves a forwarded access: refused without a translation, else performed once its bank sets are awake and it can go on. -/
def State.serveAccess (s : State) (m : RemoteAccMsg) : Option State :=
  let awake : Bool := (s.awaits (s.accRanges m).1 (s.accRanges m).2).isNone
  match m.cmd, s.translate m.port m.peer m.colour with
  | some k, _ => if awake then s.localAccess k m else none
  | none, none => some (s.reply m 0x8010 [])
  | none, some x => if awake then s.peerAccess x m else none
/-- R65. -/
def execRemoteAccessReceive (m : RemoteAccMsg) (s : State) : Result :=
  s.onPort m.port ((s.translate m.port m.peer m.colour).getD 0) ⟨m.peer, m.colour⟩ m.seq fun s =>
    s.atPort (.access m) (fun s => s.serveAccess m) fun s => s.wakeRanges (s.accRanges m).1 (s.accRanges m).2

/-! ## Departures (R329) -/

/-- R329. -/
def execDepartureNoticeReceive (port : Nat) (x : PeerStream) (seq : Nat) (s : State) : Result :=
  let c := (s.translate port x.peer x.colour).getD 0
  s.onPort port c x seq fun s =>
    let s1 := s.modPort port fun p => { p with xlate := p.xlate.filter fun e =>
      !(e.2.getLsbD 16 && (e.2.extractLsb' 17 10).toNat == x.peer && (e.2.extractLsb' 27 12).toNat == x.colour) }
    (s1.record { source := 0x1A, cls := 0x37, colour := c, recov := 0 } false).send (.answer x.peer x.colour 2 [])
/-- R329. -/
def execDepartureNoticeAckReceive (x : PeerStream) (seq : Nat) (s : State) : Result :=
  .next (s.once x seq fun s => s.modWorld x.colour fun w => { w with awaits := w.awaits.filter (· != x.peer) })

/-! ## `.pod` slots (R91, R301) -/

/-- R91: an arrival from another package; the P-th flips the phase. -/
def execPodBarrierArrivalReceive (x : PeerStream) (seq join : Nat) (s : State) : Result :=
  .next (s.once x seq fun s => match tfind s.bars fun b => b.scope == .pod && b.colour == x.colour && b.join == join with
    | none => s
    | some (k, b) =>
      if b.broken then s
      else if b.arrived.length + b.peers + 1 < b.p then { s with bars := tput s.bars k { b with peers := b.peers + 1 } }
      else { s with bars := tput s.bars k { b with arrived := [], peers := 0, phase := b.phase + 1 } }.releaseBar (some k) none)
/-- R301: a contribution of another package joins the phase, or the next one where that is full. -/
def execPodCollectiveContributionReceive (m : PodClxMsg) (s : State) : Result :=
  .next (s.once ⟨m.peer, m.colour⟩ m.seq fun s => match tfind s.clxs fun b => b.scope == .pod && b.colour == m.colour && b.join == m.join with
    | none => s
    | some (k, b) =>
      let p : Contribution := { rank := m.rank, fn := m.fn, i32 := m.i32, data := m.data.map some, cmd := none }
      { s with clxs := tput s.clxs k (b.join_ p) })

/-! ## Links (R363, R364, R457–R459) -/

/-- A LINK record for the hypervisor. -/
def State.linkNote (s : State) : State := s.record { source := 0x1A, cls := 0x35, colour := 0, recov := 0 } false
/-- Messages that wait for a port, or whose port is down, take the port of R458. -/
def State.reroute (s : State) : State :=
  { s with route := { s.route with out := s.route.out.map fun x =>
      let d := x.msg.dest
      match x.port with
      | some p => if (s.port p).up then x else { x with port := s.portFor d.2 d.1 }
      | none => { x with port := s.portFor d.2 d.1 } } }
/-- Whether the written mask of a package holds a port. -/
def State.maskHas (s : State) (q port : Nat) : Bool := ((tget s.route.routem q).getD 0).getLsbD port
/-- A port is down: its traffic moves to the ports that are up, and packages without one are timed from now. -/
def State.portDown (s : State) (port : Nat) : State :=
  let s1 := (s.modPort port fun p => { p with up := false, retrain := none, fails := 0, key := none }).linkNote
  let dead := (s1.route.routem.map (·.1)).filter fun q => s1.maskHas q port && (s1.upPorts ((tget s1.route.routem q).getD 0)).isEmpty
  let t : Tbl (Nat × Nat) := dead.foldl (fun t q => tput t q (port, s.now (13 + port))) s1.route.down
  { s1 with route := { s1.route with down := t } }.reroute
/-- A port is up, under a fresh pair key, with its counters at 0: the packages it leads to are reachable. -/
def State.portUp (s : State) (port peer : Nat) (key : BitVec 256) (signed sealedKey : BitVec 4096) : State :=
  let s1 := s.modPort port fun p =>
    { p with up := true, retrain := none, fails := 0, peer := some peer, key := some key, signed := signed, sealedKey := sealedKey, tx := 0, rx := 0 }
  { s1 with route := { s1.route with gone := s1.route.gone.filter fun q => !s1.maskHas q port
                                     down := s1.route.down.filter fun q => !s1.maskHas q.1 port } }.reroute
/-- A link begins to retrain: its traffic waits (R457). -/
def State.beginRetrain (s : State) (port : Nat) : State :=
  (s.modPort port fun p => { p with fails := 0, retrain := some (s.now (13 + port)) }).linkNote
/-- R457. -/
def execFlitTagFail (port colour : Nat) (s : State) : Result :=
  if !s.linkOpen port then .next s
  else
    let s1 := (s.count colour 5 5 1).modPort port fun p => { p with tx := p.tx + 1 }
    let n := (s.port port).fails + 1
    if n < 8 then .next (s1.modPort port fun p => { p with fails := n })
    else .next (s1.beginRetrain port)
/-- The nonce by which a port trains: the n-th of the management controller. -/
def State.trainNonce (s : State) : BitVec 512 := Config.nonce s.free
/-- Whether a peer proves its identity: its chain, and its signature of our nonce (R364, steps 1 and 2). -/
def State.trainOk (s : State) (m : TrainMsg) : Bool := Config.chainVerifies m.chain && Config.nonceVerifies m.chain s.trainNonce m.signature
/-- The pair key: generated by the port of the lower package number, and sent by it to the other (R364, step 3). -/
def State.pairKeyFor (s : State) (peer : Nat) (m : TrainMsg) : BitVec 256 := if s.route.pkg < peer then Config.pairKey s.free else Config.openKey m.sealedKey
/-- What our port sends in step 3: the pair key under the peer's identity key, where ours is the lower package number. -/
def State.keySent (s : State) (peer : Nat) (m : TrainMsg) : BitVec 4096 :=
  if s.route.pkg < peer then Config.sealKey m.chain (Config.pairKey s.free) else 0
/-- R364, R458: training ends: the port is up when its peer's identity verifies, else it is down. -/
def execLinkTraining (port peer : Nat) (m : TrainMsg) (s : State) : Result :=
  if 32 ≤ port || s.linkOpen port then .next s
  else if s.trainOk m then
    .next (s.bump.portUp port peer (s.pairKeyFor peer m) (Config.deviceSign (Config.sha512 (leBytes 64 m.nonce.toNat))) (s.keySent peer m))
  else if (s.port port).up then .next (s.bump.portDown port) else .next s.bump
/-- R457, R458: a retrain that takes too long leaves the port down; a counter that has reached 2^63 begins one. -/
def execRetrainTimeout (port : Nat) (s : State) : Result := match (s.port port).retrain with
  | some t => if t + 2 ^ 26 ≤ s.now (13 + port) then .next (s.portDown port) else .next s
  | none =>
    if (s.port port).up ∧ (2 ^ 63 ≤ (s.port port).tx ∨ 2 ^ 63 ≤ (s.port port).rx) then .next (s.beginRetrain port) else .next s
/-- Whether a command has sent something to a package: itself, one of its accesses, or a bale. -/
def State.sentTo (s : State) (k q : Nat) : Bool := s.route.out.any fun x => x.port.isSome && (match x.msg with
  | .command p _ w _ _ => p == q && w == k
  | .access p _ w _ _ => p == q && w == k
  | .bale p _ w _ _ _ => p == q && w == k
  | _ => false)
/-- R459: what becomes of a command to a package that is unreachable. -/
def State.strand (s : State) (k : Nat) (m : Cmd) (q : Nat) : State :=
  let lost (s : State) : State := s.record { source := 0x1A, cls := 0x35, colour := m.colour, recov := 0xA, addr := (m.inner.getD m.op).firstAddr } true
  if (m.inner.getD m.op).peer != some q then s
  else match m.phase with
    | .running => if s.sentTo k q then (lost s).finish k 3 none else s.refuseCmd k m 0x09 (m.inner.getD m.op).firstAddr
    | .cancelling => (lost s).dropCmd k m
    | .queued => s
    | .blocked => s
    | .performed => s
    | .counted => s
/-- R459: a queue instruction that awaits a package ends. -/
def State.strandWait (s : State) (c : Nat) (v : Convoy) (q : Nat) : State := match v.wait with
  | .remote w => if w.pkg = q then s.takeAck c v w { cause := 0x09, ok := false, val := 0, slots := [] } else s
  | _ => s
/-- R459. -/
def execUnreachableTimeout (peer : Nat) (s : State) : Result :=
  let mask : Word := (tget s.route.routem peer).getD 0
  let from_ : Nat × Nat := (tget s.route.down peer).getD ((((List.range 32).find? fun n => mask.getLsbD n).getD 0), 0)
  if mask = 0 || s.route.gone.contains peer || !(s.upPorts mask).isEmpty || decide (s.now (13 + from_.1) < from_.2 + 2 ^ 26) then .next s
  else
    let s1 : State := { s with route := { s.route with gone := peer :: s.route.gone } }
    let s2 := s1.cmds.foldl (fun s m => s.strand m.1 m.2 peer) s1
    let s3 := s2.convoys.foldl (fun s v => s.strandWait v.1 v.2 peer) s2
    .next { s3 with route := { s3.route with out := s3.route.out.filter fun x => x.msg.dest.1 != peer } }
/-- R363: the flits on the old port are acknowledged, and the mask written takes effect for a colour. -/
def execRoutemSwitch (peer colour : Nat) (s : State) : Result := match tget s.route.inForce (4096 * peer + colour) with
  | none => .next s
  | some _ =>
    let rest := s.route.out.filter fun x => x.port.isNone || x.msg.dest != (peer, colour)
    .next { s with route := { s.route with inForce := tdel s.route.inForce (4096 * peer + colour), out := rest } }.reroute
/-- The colours whose traffic to a package is on a port now. -/
def State.coloursTo (s : State) (q : Nat) : List Nat :=
  (s.route.out.filterMap fun x => if x.port.isSome ∧ x.msg.dest.1 = q then some x.msg.dest.2 else none).eraseDups
/-- Whether a convoy's forwarded access to a package is still to be sent. -/
def State.unsent (s : State) (c q : Nat) : Bool := s.route.out.any fun x => x.port.isNone && (match x.msg with
  | .access p _ w _ _ => p == q && w == c
  | _ => false)
/-- Mask 0 refuses at once what is still to be sent to a package (R363, R459). -/
def State.refuseTraffic (s : State) (q : Nat) : State :=
  let s1 := s.cmds.foldl (fun s m => if m.2.phase == .running && !s.sentTo m.1 q && (m.2.inner.getD m.2.op).peer == some q
    then (s.noRoute m.2.colour q).strand m.1 m.2 q else s) s
  let s2 := s1.convoys.foldl (fun s v => if s.unsent v.1 q then s.strandWait v.1 v.2 q else s) s1
  { s2 with route := { s2.route with out := s2.route.out.filter fun x => !(x.port.isNone && x.msg.dest.1 == q) } }
/-- A write of ROUTEM: colours with flits on a port keep the old mask until they switch (R363). -/
def State.writeRoutem (s0 : State) (q : Nat) (v : Word) : State :=
  let old : Word := (tget s0.route.routem q).getD 0
  let s := if v = 0 then { s0 with route := { s0.route with routem := tset 0 s0.route.routem q v } }.refuseTraffic q else s0
  let f : Tbl Word := (s.coloursTo q).foldl (fun t c => if (tget t (4096 * q + c)).isSome then t else tput t (4096 * q + c) old) s.route.inForce
  { s with route := { s.route with routem := tset 0 s.route.routem q v, inForce := f } }.reroute

end Sys2Proof.Machine
end

