-- ==== Sys2Proof/Machine/Memory.lean ====
section
/-! DEFINITION. What happens in the memory system by itself: bank sets (R116–R119), pool lines (R120, R356), row counts (R334), marked
pages (R324), the registers of the memory-side cache and the power map (R111–R114, R119), spares of pseudo-channels (R396), and the
power and clocks of SPs and dies (R319, R463, R471). -/

namespace Sys2Proof.Machine

/-! ## Bank sets (R117–R119) -/

/-- The idle counts to P1 and to P2 at a level; none where a set never leaves. -/
def idleCounts : Nat → Option Nat × Option Nat
  | 0 => (some 512, some 65536)
  | 1 => (some 2048, some 262144)
  | 2 => (some 8192, some 1048576)
  | 3 => (some 32768, none)
  | 4 => (some 131072, none)
  | _ => (none, none)
/-- Whether a bank set that may sleep has been idle for a count. -/
def State.idleFor (s : State) (g : Nat) (n : Option Nat) : Bool := match n with
  | some n => decide (g < 86) && (s.bankSet g).alloc && (s.bankSet g).waking.isNone && decide ((s.bankSet g).last + n ≤ s.now bankDomain)
  | none => false
/-- R117. -/
def execBankSetIdleP1 (g : Nat) (s : State) : Result :=
  if (s.bankSet g).state = 0 && s.idleFor g (idleCounts (s.level g)).1 then .next (s.modBank g fun b => { b with state := 1 }) else .next s
/-- R117. -/
def execBankSetIdleP2 (g : Nat) (s : State) : Result :=
  if (s.bankSet g).state.toNat < 2 && s.idleFor g (idleCounts (s.level g)).2 then .next (s.modBank g fun b => { b with state := 2 })
  else .next s
/-- Memory-controller cycles of a wake. -/
def wakeCycles (st : BitVec 2) : Nat := match st.toNat with
  | 1 => 48
  | 2 => 720
  | 3 => 32000
  | _ => 0
/-- The writes that waited for a bank set are performed, in their order; one whose other bank set still sleeps goes on waiting. A record whose
queue is found at fault then adds its QFAULT record (R464). -/
def State.settlePosted (s : State) (g : Nat) : State :=
  let mine (p : Posted) : Bool := p.addr / gib6 == g
  (s.hbm.posted.filter mine).foldl (fun s p => match p.what with
      | .word v vector => s.post32 p.colour p.addr v vector
      | .status st resume => s.blockStatus p.colour p.addr st resume
      | .record r gen seq =>
        let x := s.deliver p.colour r gen seq
        if x.2 && p.colour != s.mgmt.hyp then x.1.record { source := 0x09, cls := 0x31, colour := p.colour, recov := 0 } false else x.1)
    { s with hbm := { s.hbm with posted := s.hbm.posted.filter fun p => !mine p } }
/-- R118. -/
def execBankSetWakeDone (g : Nat) (s : State) : Result := match (s.bankSet g).waking with
  | none => .next s
  | some t =>
    if t + wakeCycles (s.bankSet g).state ≤ s.now bankDomain then
      .next (((s.modBank g fun b => { b with state := 0, waking := none, last := s.now bankDomain }).countWake g (s.bankSet g).state).settlePosted g)
    else .next s
/-- R119, R116. -/
def execPmapAllocWrite (g : Nat) (val : Word) (s : State) : Result := if g < 86 then .next (s.setPmap g val) else .next s

/-! ## Pool lines (R120, R356) -/

/-- R120. -/
def execPoolDirtyTimeout (line : Nat) (s : State) : Result :=
  let due (x : MscLine) : Bool := x.line == line && decide (0x80_0000_0000 ≤ line) && (match x.dirty with
    | some t => decide (t + 65536 ≤ s.now (sliceDomain x.slice))
    | none => false)
  if s.msc.lines.any due then .next (s.writeBack due fun _ => false) else .next s
/-- R356. -/
def execBackInvalidateSnoop (line : Nat) (s : State) : Result :=
  let it (x : MscLine) : Bool := x.line == line && decide (0x80_0000_0000 ≤ line)
  .next (s.writeBack it it)

/-! ## Row activations (R334) -/

/-- Memory-controller cycles of a period. -/
def rowPeriod : Nat := 51200000
/-- R334: the counts of a period end, and with them its throttles. -/
def execThrottlePeriodEnd (die : Nat) (s : State) : Result :=
  if 4 ≤ die ∨ s.now (4 + die) < (tget s.hbm.periods die).getD 0 + rowPeriod then .next s
  else
    let here (r : Nat) : Bool := hbmStack r / 2 == die
    .next { s with hbm := { s.hbm with rows := s.hbm.rows.filter fun r => !here r.1, periods := tput s.hbm.periods die (s.now (4 + die)) } }

/-! ## Marked pages (R324) -/

/-- The colour whose key a page is filled under: that of the world whose range, or its twin, holds it. -/
def State.pageColour (s : State) (page : Nat) : Nat :=
  ((s.worlds.find? fun w => (w.2.ranges.flatMap withTwin).any fun r => decide (r.1 ≤ page * pageBytes) && decide (page * pageBytes < r.1 + r.2)).map
    (·.1)).getD 0
/-- R324: the page's lines stand as zeros, it is no longer marked, and a held write can be performed. -/
def execPageZeroFillDone (page : Nat) (s : State) : Result :=
  if (tget s.hbm.zeroing page).isSome then .next (s.fillPages (s.pageColour page) [page]) else .next s
/-- R324: the scrub overwrites stored bits that no read returns; the page stays marked. -/
def execScrubPage (_page : Nat) (s : State) : Result := .next s

/-! ## Registers of the memory-side cache (R111–R114) -/

/-- R113. -/
def execMscMaskWrite (num : Nat) (val : Word) (s : State) : Result := match sysReg num with
  | some (.vda v) => .next (s.writeSys 0 val (.vda v))
  | some (.vdb v) => .next (s.writeSys 0 val (.vdb v))
  | _ => .next s
/-- R113. -/
def execMscreclWrite (val : Word) (s : State) : Result := .next (s.setRecl val)
/-- R113. -/
def execMscreclDone (s : State) : Result := .next s.endReclaim
/-- R114. -/
def execMscMonitorEnable (m : Nat) (val : Word) (s : State) : Result := if m < 4 then .next (s.setMonS m val) else .next s

/-! ## Pseudo-channels (R115, R396) -/

/-- The pseudo-channel of an HBM address within its stack (R115). -/
def pseudoChannel (a : Addr) : Nat := a / 2 ^ 11 % 2 ^ 28 % 192
/-- Spares of a stack (R7, R462). -/
def sparesPerStack : Nat := 8
/-- A line whose copy to the spare failed its check: served from the pair's other copy, or lost (R396, R434, R436). -/
def State.spareLine (s : State) (l : Addr) : State :=
  if s.inMarked l || (tget s.hbm.lost l).isSome then s
  else match (s.mate l).filter fun m => s.sound m with
    | some m =>
      let t := s.copyLine m l
      { t with hbm := { t.hbm with bad := tdel t.hbm.bad l } }.record
        { source := 0x16, cls := 0x11, colour := s.pageColour (l / pageBytes), recov := 0x9, addr := s.primary l } false
    | none =>
      { s with hbm := { s.hbm with bad := tdel s.hbm.bad l, lost := tput s.hbm.lost l (if tget s.hbm.bad l = some true then .mac else .ecc) } }
/-- R396: the chunks of a channel that cannot be read are given; so are lines that fail already. -/
def execPseudoChannelSpare (stack ch : Nat) (unreadable : List Nat) (s : State) : Result :=
  if 8 ≤ stack ∨ 192 ≤ ch ∨ sparesPerStack ≤ (s.hbm.spared.filter fun x => x.1 == stack).length then .next s
  else
    let here (a : Nat) : Bool := decide (a < 0x80_0000_0000) && hbmStack a == stack && pseudoChannel a == ch
    let named : List Nat := unreadable.flatMap fun a => [a / 256 * 256, a / 256 * 256 + 128]
    let failing : List Nat := s.hbm.bad.map fun x => x.1
    let ls := (named ++ failing).filter here
    let s1 := ls.eraseDups.foldl (fun s l => s.spareLine l) s
    let s2 := { s1 with hbm := { s1.hbm with spared := s1.hbm.spared ++ [(stack, ch)] } }
    .next (s2.record { source := 0x16, cls := 0x11, colour := 0, recov := 0xC, addr := (ls.head?).getD 0 } false)

/-! ## Power and clocks (R319, R371, R463, R471) -/

/-- R319. -/
def execSpClockGate (spn : Nat) (s : State) : Result :=
  if (s.sp spn).power == .on && (s.readyOn (some spn)).isEmpty && decide ((s.sp spn).idleSince + 4096 ≤ s.now (dieOf spn)) then
    .next (s.modSp spn fun p => { p with power := .gated })
  else .next s
/-- Whether some workgroup is resident on an SP. -/
def State.occupied (s : State) (spn : Nat) : Bool := s.wgs.any fun g => g.2.resident && g.2.sps.contains spn
/-- Whether an SP may be put off: no world owns it, or each of its workgroups, of which it has some, is saved (R319). -/
def State.mayPutOff (s : State) (spn : Nat) : Bool :=
  (s.sp spn).owner == 0 || ((s.wgs.any fun g => g.2.sps.contains spn) && s.wgs.all fun g => !g.2.sps.contains spn || g.2.phase == .saved)
/-- R319: into retention after 2^20 core cycles without a resident workgroup; from there off, when firmware puts it off: its rows, tiles
and progress words are quenched at its next use (R321; log entry 82). -/
def execSpRetention (spn : Nat) (s : State) : Result :=
  if (s.sp spn).power == .retention then
    if s.mayPutOff spn && Config.putsOff s.free then
      .next (((spRanges spn).foldl (fun s r => s.zeroRange r.1 r.2) s).modSp spn fun p => { p with power := .off, acprog := [], pend := [], tbuf := [] })
    else .next s
  else if ((s.sp spn).power == .on || (s.sp spn).power == .gated) && !s.occupied spn
      && decide ((s.sp spn).freeSince + 2 ^ 20 ≤ s.now (dieOf spn)) then
    .next (s.modSp spn fun p => { p with power := .retention, temperiv := p.every, heldIv := none })
  else .next s
/-- The nominal core clock in MHz (R11). -/
def nominalMhz : Nat := 1100
/-- R471: the change stands from the next core cycle; every count of cycles is unchanged. -/
def execClockChange (die mhz : Nat) (s : State) : Result :=
  if die < 4 ∧ 0 < mhz ∧ mhz ≤ nominalMhz then .next { s with mhz := tput s.mhz die mhz } else .next s
/-- The die in whose core cycles a world's stop is timed: that of its first SP. -/
def State.worldDie (s : State) (c : Nat) : Nat := dieOf ((s.spsOf c).headD 0)
/-- Firmware begins to stop a world at the junction limit. -/
def State.thermalBegin (s : State) (c : Nat) : State :=
  let t := ((s.releaseHalts c).stopSps (s.spsOf c)).modWorld c fun w => { w with stopping := true }
  { t with mgmt := { t.mgmt with stops := tput t.mgmt.stops c (s.now (s.worldDie c)) } }
/-- A world's stop completes: its saves, the end of its launches under RESET and DEPART (R473), its write-backs, and where a request asked for it the dirty-extent report (R327) and STOPPED. -/
def State.thermalEnd (s : State) (c : Nat) : State :=
  let s0 := s.saveSps (s.spsOf c)
  let ends := match (tget s0.worlds c).bind (·.waiting) with
    | some r => reqOp r == 6 || reqOp r == 7
    | none => false
  let s1 := (if ends then s0.endLaunches c else s0).flushPool c
  let s2 := match (tget s1.worlds c).bind (·.waiting) with
    | some r =>
      let n := if reqOp r = 5 then reqArg0 r else if reqOp r = 6 ∨ reqOp r = 7 then reqArg1 r else 0
      if reqOp r = 5 ∨ reqOp r = 6 ∨ reqOp r = 7 then (if n = 0 then s1 else s1.dirtyReport r n).wstat r 2 else s1
    | none => s1
  { s2 with mgmt := { s2.mgmt with stops := tdel s2.mgmt.stops c } }
/-- The compute dies lose power: nothing of theirs is left, and no world exists (R463, R370). -/
def State.powerOff (s : State) : State :=
  let off (a : Addr) : Bool := (onchip a).isSome
  { s with
    ev := [], turn := [], cur := none
    mem := s.mem.filter fun x => !off x.1
    tags := s.tags.filter fun x => !off x.1
    fibres := [], convoys := [], serais := [], outside := [], wgs := [], launches := [], cmds := [], bars := [], clxs := [], worlds := []
    cores := s.cores.map fun c => (c.1, { spare := c.2.spare, dead := c.2.dead })
    sps := (List.range 256).map fun p => (p, { power := .off })
    host := { s.host with mode := 3, bootstat := (s.host.bootstat &&& 0xFFFFFF0F) ||| 0xA0, booted := false, binds := [] }
    mgmt := { s.mgmt with stops := [], thermal := false } }
/-- Once no stop is left: the THERMAL record, recovery and power-down. -/
def State.thermalSettle (s : State) : State :=
  if s.mgmt.thermal && s.mgmt.stops.isEmpty then
    (s.record { source := 0x09, cls := 0x36, colour := 0, recov := 0 } false).powerOff
  else s
/-- R463: every world stops; then those whose stop is complete end. -/
def execThermalStop (_die : Nat) (s : State) : Result :=
  let s1 := if s.mgmt.thermal then s
    else (s.worlds.map (·.1)).foldl (fun s c => s.thermalBegin c) { s with mgmt := { s.mgmt with thermal := true } }
  let s2 := (s1.mgmt.stops.map (·.1)).foldl (fun s c => if s.quietWorld c then s.thermalEnd c else s) s1
  .next s2.thermalSettle
/-- R463: a world whose stop is not finished in time is cut off. -/
def execStopTimeout (colour : Nat) (s : State) : Result := match tget s.mgmt.stops colour with
  | none => .next s
  | some t =>
    if t + 2 ^ 24 ≤ s.now (s.worldDie colour) then
      .next { s with mgmt := { s.mgmt with stops := tdel s.mgmt.stops colour } }.thermalSettle
    else .next s

end Sys2Proof.Machine
end

