-- ==== Sys2Proof/Machine/Port.lean ====
section
/-! DEFINITION. The PCIe host port (R140, R346, R347, R350–R355, R361, R454, R461): BAR0, the apertures of BAR2, counters (R336–R338),
bindings, and debugging. -/

namespace Sys2Proof.Machine

/-! ## The port (R350, R366, R370, R461, R462) -/

/-- Whether a BAR0 access reaches an offset: not before phase 7 or while the link is down; in recovery the port registers and the
certificate chain alone, for reads. -/
def State.barOpen (s : State) (write : Bool) (off : Nat) : Bool :=
  s.host.linkUp && s.host.mode != 1 && (s.host.mode != 3 ||
    (!write && (decide (0x110_0000 ≤ off ∧ off < 0x110_1000) || decide (0x140_0000 ≤ off ∧ off < 0x140_1000))))
/-- What a refused read returns: bit 63 of each 64-bit word (R454). -/
def refusedBytes (n : Nat) : List Byte := (List.range n).map fun i => if i % 8 = 7 then 0x80 else 0
/-- Answers a host read. -/
def State.answer (s : State) (bs : List Byte) : State := { s with host := { s.host with answers := s.host.answers ++ [bs] } }

/-! ## Counters and sensors (R336–R338, R454) -/

/-- The lowest core clock among the dies of a world's SPs, in MHz. -/
def State.lowestMhz (s : State) (c : Nat) : Nat :=
  ((s.spsOf c).map fun p => (tget s.mhz (dieOf p)).getD nominalMhz).foldl min nominalMhz
/-- A monitor's count for a world: 0 while it does not watch the world's VD. -/
def State.monitorFor (s : State) (w : World) (m : Nat) (v : Word) : DWord :=
  let r : Word := (tget s.msc.monS m).getD 0
  if r.getLsbD 31 && (r.extractLsb' 0 8).toNat == w.vd then v.setWidth 64 else 0
/-- Word n of a group as the port reads it for a world (R337; log entry 13 for sensors and what depends on time). -/
def State.counterWord (s : State) (c : Nat) (w : World) (group n : Nat) : DWord :=
  let kept : DWord := (tget s.host.counters (counterKey c group n)).getD 0
  match group, n with
  | 2, n => if n < 4 then s.monitorFor w n (s.monLines n) else s.monitorFor w (n - 4) ((tget s.msc.monH (n - 4)).getD 0)
  | 4, 0 => (Config.sensor (2 * s.free)).setWidth 64
  | 4, 1 => (Config.sensor (2 * s.free + 1)).setWidth 64
  | 4, 4 => BitVec.ofNat 64 (s.lowestMhz c)
  | 4, 6 => 0
  | 4, 7 => BitVec.ofNat 64 (s.host.errors % 2 ^ 63)
  | 5, 6 => 0
  | 5, 7 => 0
  | _, _ => if group < 6 then kept else 0
/-- A host read of a counter word of a VD: the state, and the word. -/
def State.readCounter (s : State) (vd group n : Nat) : State × DWord := match tfind s.worlds fun w => w.vd == vd with
  | none => (s, 0)
  | some (c, w) => if w.allow.getLsbD group then (s, s.counterWord c w group n) else (s.deny c group, 0x8000_0000_0000_0000)
/-- Holds a host access behind an earlier one, or performs it, or holds it while `serve` answers none (R140). -/
def State.atHost (s : State) (i : Held) (serve : State → Option State) : Result := .next (s.atPort i serve fun s => s)
/-- R338. -/
def execCounterRead (vd group n : Nat) (s : State) : Result :=
  if s.barOpen false 0x100_0000 && decide (vd < 256 ∧ group < 64 ∧ n < 8) then
    s.atHost (.counter vd group n) fun s =>
      let r := s.readCounter vd group n
      some (r.1.answer (leBytes 8 r.2.toNat))
  else if s.host.linkUp && s.host.mode == 3 then .next (s.answer (List.replicate 8 0))
  else .next s

/-! ## System registers as the host reaches them (R351) -/

/-- Whether a live read, and a live write, of an SP's state is allowed for its owner (R346). -/
def State.liveRead (s : State) (spn : Nat) : Bool := match tget s.worlds (s.sp spn).owner with
  | some w => s.rights w spn == .lw || s.rights w spn == .lr
  | none => true
def State.liveWrite (s : State) (spn : Nat) : Bool := match tget s.worlds (s.sp spn).owner with
  | some w => s.rights w spn == .lw
  | none => false
/-- The convoy of an SP whose registers a host access reaches: a register of a convoy or workgroup has as many values as the SP has
convoys, and the spec does not say which is meant (log entry 10). -/
def State.hostConvoy (s : State) (spn : Nat) : Option (Nat × Convoy) :=
  let l := s.convoys.filter fun v => v.2.spn == spn
  l[Config.hostConvoy s.free % l.length]?
/-- The bits of a register of a convoy or workgroup that are not reserved (R74, R117, R284). -/
def SysReg.fields : SysReg → Word
  | .wgid => 0xFFFFFFFF
  | .fpstat => 0xFF
  | .bwphase => 7
  | .lncur => 0xFFFFFFFF
  | .repcnt => 0x3F
  | .mxseq => 0x1FF
  | _ => 0
/-- What such a register holds where no convoy of the SP has one: its reset value; WGID and BWPHASE, which come from a launch, are free
(R29, R74, R117, R281, R284). -/
def State.noConvoyReg (s : State) : SysReg → Word
  | .wgid => (Config.freeWord s.free).setWidth 32
  | .bwphase => (Config.freeWord s.free).setWidth 32
  | _ => 0
/-- What a host read gives of such a register: the chosen convoy's value, or that of an SP without convoys. -/
def State.hostConvoyReg (s : State) (spn : Nat) (r : SysReg) : Word :=
  (((s.hostConvoy spn).bind fun v => s.convoyReg v.2 r).getD (s.noConvoyReg r)) &&& r.fields
/-- Whether a register is state of an SP's world, which R346 governs (log entry 10). -/
def SysReg.live : SysReg → Bool
  | .acprog _ _ => true
  | .wgid => true
  | .fpstat => true
  | .bwphase => true
  | .lncur => true
  | .repcnt => true
  | .mxseq => true
  | _ => false
/-- A read of a system register in the host view (R351, R454); a live one wakes the SP (R319, R346). -/
def State.hostSys (s : State) (spn num : Nat) : State × DWord := match sysReg num with
  | none => (s, 0)
  | some r =>
    if r.live && !s.liveRead spn then (s, 0x8000_0000_0000_0000)
    else match r with
      | .locid => (s, 0)
      | .fibid => (s, 0)
      | r => ((if r.live then s.wakeSp spn else s).denyFor r, ((s.readSys spn true r).getD (s.hostConvoyReg spn r)).setWidth 64)
/-- Replaces a half of a progress word; its reserved bits read 0 (R3, R284). -/
def acHalf (w : DWord) (high : Bool) (v : Word) : DWord :=
  if high then (v &&& 0xFFFF1FFF) ++ w.extractLsb' 0 32 else w.extractLsb' 32 32 ++ (v &&& 0x07FFFFFF)
/-- A write of a system register in the host view. Registers of the tenant view's own state, and under R346 the progress words, are
written where the host may write the SP's state (R1, R346, R347; log entry 10). -/
def State.hostSysWrite (s : State) (spn num : Nat) (v : Word) : State := match sysReg num with
  | none => s
  | some r => match r with
    | .fpstat => if s.liveWrite spn then (match s.hostConvoy spn with
        | some c => (s.wakeSp spn).modConvoy c.1 fun x => { x with fpstat := v.setWidth 8 }
        | none => s) else s
    | .bwphase => if s.liveWrite spn then (match s.hostConvoy spn with
        | some c => (s.wakeSp spn).setBwphase c.2.wg (v.setWidth 3)
        | none => s) else s
    | .acprog t high => if s.liveWrite spn then (s.wakeSp spn).setAcprog spn t (acHalf (s.acprog spn t) high v) else s
    | .temperiv => if ((tget s.worlds (s.sp spn).owner).map (·.mode)) == some .departing then s else s.writeSys spn v .temperiv
    | r => if r.writable true then s.writeSys spn v r else s

/-! ## Bindings (R287, R355) -/

/-- Whether 128 bits meet R46 and are canonical (R48). -/
def Cap.wellBits (k : Cap) : Bool :=
  decide (k.e.toNat ≤ 35) && k.lo % 2 ^ k.e.toNat == 0 && decide (k.lo + k.len ≤ 2 ^ 52) && (k.perms &&& 0xC000) == 0
    && k.e.toNat == canonE k.lo k.len
/-- What a bind request asks of a capability's bits. -/
def State.bindable (s : State) (b : Binding) (k : Cap) (kind : BitVec 4) (perms : BitVec 16) (host : Bool) : Bool :=
  k.colour.toNat == b.colour && k.gen == s.gen b.colour && !k.isSealed && k.wellBits && k.kind == kind && k.has perms
    && (s.inWorld b.colour k.lo k.len || (host && inHost k.lo k.len))
/-- A binding after a bind request. -/
def State.bindCheck (s : State) (b : Binding) : Binding :=
  if s.bindable b b.qcap kindQueue (permLd ||| permSt) true
      && (b.ctab.bits == 0 || s.bindable b b.ctab kindData (permLd ||| permLdk) false) then
    { b.setEn true with qtag := true, ctag := b.ctab.bits != 0 }
  else b.setEn false
/-- R355. -/
def execBindRequest (i : Nat) (s : State) : Result :=
  if i < 64 ∧ s.barOpen true 0x120_0000 then s.atHost (.bind i) fun s => some (s.putBinding i (s.bindCheck (s.binding i)))
  else .next s
/-- Replaces bytes of a 512-bit record from a byte on. -/
def mergeBits (w : BitVec 512) (o : Nat) (bs : List Byte) : BitVec 512 :=
  let old := leBytes 64 w.toNat
  BitVec.ofNat 512 (leNat (old.take o ++ bs ++ old.drop (o + bs.length)))
/-- A host write into a binding: bytes it touches in QCAP and CTAB carry no tag; a 1 written to EN is a bind request. -/
def State.bindWrite (s : State) (i o : Nat) (bs : List Byte) : State :=
  let b := s.binding i
  let w := mergeBits b.bits o bs &&& BitVec.ofNat 512 (2 ^ 279 - 1)
  let b1 : Binding := { bits := w, qtag := b.qtag && decide (16 ≤ o), ctag := b.ctag && (decide (32 ≤ o) || decide (o + bs.length ≤ 16)) }
  if decide (o ≤ 34) && decide (34 < o + bs.length) && w.getLsbD 278 then s.putBinding i (s.bindCheck b1) else s.putBinding i b1

/-! ## The extent caches (R360, R361) -/

/-- Whether an invalidation names a cached leaf. -/
def extNamed (v : DWord) (x : Nat × Addr × DWord) : Bool :=
  let base := (v.extractLsb' 21 31).toNat * 2 ^ 21
  let pool := decide (base < 0x2_0000_0000_0000)
  let w := if pool then base - 0x1_0000_0000_0000 else base - 0x2_0000_0000_0000
  let lo := x.2.1 / 2 ^ 21 * 2 ^ 21
  let n := if x.2.1 % 2 = 1 then 2 ^ 30 else 2 ^ 21
  v.getLsbD 62 || (decide (x.1 < 4) == pool &&
    (if v.getLsbD 61 then meets (w / 2 ^ 30 * 2 ^ 30) (2 ^ 30) lo n else meets w (2 ^ 21) lo n))
/-- An accepted write of EXTINV. -/
def State.startExtinv (s : State) (v : DWord) : State :=
  { s with host := { s.host with extInv := 0x8000_0000_0000_0000#64 ||| (v &&& 0x600F_FFFF_FFE0_0000)
                                 extCache := s.host.extCache.filter fun x => !extNamed v x } }
/-- R361: a write while BUSY is 1 waits. -/
def State.serveExtinv (s : State) (v : DWord) : Option State := if s.host.extInv.getLsbD 63 then none else some (s.startExtinv v)
/-- R361: a write while BUSY is 1 is held until BUSY clears. -/
def execExtinvWrite (val : DWord) (s : State) : Result :=
  if !s.barOpen true 0x110_0030 then .next s else s.atHost (.extinv val) fun s => s.serveExtinv val
/-- R361. -/
def execExtinvDone (s : State) : Result :=
  .next { s with host := { s.host with extInv := s.host.extInv &&& 0x7FFF_FFFF_FFFF_FFFF } }

/-! ## Halts (R346, R347, R388) -/

/-- Whether the host may halt and step an SP. -/
def State.haltRight (s : State) (spn : Nat) : Bool := match tget s.worlds (s.sp spn).owner with
  | some w => decide (spn < 256) && s.rights w spn == .lw
  | none => false
/-- A write of HALT: the SP wakes, and its convoys halt at their next clause boundaries. -/
def State.halts (s : State) (spn : Nat) : State :=
  if s.haltRight spn && !(s.sp spn).halted then
    (s.modSp spn fun p => { p with halting := true, stepping := false, power := .on }).settleHalt spn
  else s
/-- Whether a workgroup on an SP is being saved: its commands end for a move, or every convoy of it has stopped (R309, R312). -/
def State.beingSaved (s : State) (spn : Nat) : Bool := s.wgs.any fun g => g.2.sps.contains spn && (match g.2.phase with
  | .moving _ => true
  | .yielding _ => (s.convoysOf g.1).all fun v => v.2.stopped
  | _ => false)
/-- R448: a HALT that meets a save waits for the restored SP. -/
def State.serveHalt (s : State) (spn : Nat) : Option State :=
  if s.haltRight spn && s.beingSaved spn then none else some (s.halts spn)
/-- A HALT as a register write brings it. -/
def State.postHalt (s : State) (spn : Nat) : State := (s.serveHalt spn).getD { s with held := s.held ++ [.halt spn] }
/-- A write of STEP. -/
def State.steps (s : State) (spn : Nat) : State :=
  if s.haltRight spn && (s.sp spn).halted then s.modSp spn fun p => { p with stepping := true } else s
/-- A write of RUN. -/
def State.runs (s : State) (spn : Nat) : State :=
  if s.haltRight spn && (s.sp spn).halted then ((s.modSp spn fun p => { p with halted := false, stepping := false, stepOf := none }).noteRun spn) else s
/-- R347. -/
def execDbgctlHalt (spn : Nat) (s : State) : Result := s.atHost (.halt spn) fun s => s.serveHalt spn
/-- R347. -/
def execDbgctlStep (spn : Nat) (s : State) : Result := s.atHost (.step spn) fun s => some (s.steps spn)
/-- R347. -/
def execDbgctlRun (spn : Nat) (s : State) : Result := s.atHost (.run spn) fun s => some (s.runs spn)
/-- The halt of an SP under way goes on: its convoys reach their clause boundaries (R346). -/
def haltGoesOn (spn : Nat) (s : State) : Result := .next (s.settleHalt spn)

/-! ## BAR0 (R350–R352) -/

/-- A port register, as it reads. -/
def State.portReg (s : State) (o : Nat) : DWord :=
  if o < 0x20 then (tget s.host.hap (o / 8)).getD 0
  else if o = 0x20 then s.host.extRootP
  else if o = 0x28 then s.host.extRootH
  else if o = 0x30 then s.host.extInv
  else if o = 0x38 then BitVec.ofNat 64 (s.mgmt.svn.toNat * 2 ^ 32 + s.host.bootstat.toNat)
  else if o = 0x40 then s.host.mode.setWidth 64
  else if 0x100 ≤ o ∧ o < 0x900 then
    let p := s.sp ((o - 0x100) / 8)
    BitVec.ofNat 64 (p.owner * 2 ^ 52 + if p.halted then 1 else 0)
  else 0
/-- The 64 bytes of a command slot as the host reads them (R249). -/
def State.slotWord (s : State) (core x k : Nat) : BitVec 512 :=
  match s.cmds.find? fun m => m.2.core == core && m.2.cls.idx == x && m.2.slot == some k && m.2.live with
  | some (_, m) => s.slotSeen m
  | none => (tget (s.core core).slots (x * 64 + k)).getD 0
/-- A 64-bit word of BAR0, at an offset that is a multiple of 8. -/
def State.barWord (s : State) (off : Nat) : State × DWord :=
  if off < 0x100_0000 then
    let c := off / 0x4_0000
    s.hostSys (4 * c + off / 0x1_0000 % 4) (off % 0x1_0000 / 8)
  else if off < 0x110_0000 then s.readCounter ((off - 0x100_0000) / 0x1000) (off % 0x1000 / 0x40) (off % 0x40 / 8)
  else if off < 0x110_1000 then (s, s.portReg (off - 0x110_0000))
  else if 0x120_0000 ≤ off ∧ off < 0x120_1000 then
    (s, (s.binding ((off - 0x120_0000) / 64)).bits.extractLsb' (off % 64 * 8) 64)
  else if 0x130_0000 ≤ off ∧ off < 0x130_1040 then
    let a := s.host.fwq + (off - 0x130_0000)
    (s.passRd 0 none a 8, s.rd64 a)
  else if 0x140_0000 ≤ off ∧ off < 0x140_1000 then
    (s, BitVec.ofNat 64 (leNat ((List.range 8).map fun i => Config.certByte (off - 0x140_0000 + i))))
  else if 0x150_0000 ≤ off ∧ off < 0x150_1000 then
    let p := (off - 0x150_0000) / 4
    (s, BitVec.ofNat 64 (((tget s.route.routem p).getD 0).toNat + ((tget s.route.routem (p + 1)).getD 0).toNat * 2 ^ 32))
  else if 0x160_0000 ≤ off ∧ off < 0x180_0000 then
    let o := off - 0x160_0000
    (s, if o % 0x8000 / 0x1000 < 6 then (s.slotWord (o / 0x8000) (o % 0x8000 / 0x1000) (o % 0x1000 / 64)).extractLsb' (o % 64 * 8) 64 else 0)
  else (s, 0)
/-- Reads n bytes of BAR0. -/
def State.barRead (s : State) (off n : Nat) : State × List Byte :=
  let first := off / 8
  let r := (List.range (ceilDiv (off % 8 + n) 8)).foldl (fun (x : State × List Byte) i =>
    let y := x.1.barWord (8 * (first + i))
    (y.1, x.2 ++ leBytes 8 y.2.toNat)) (s, [])
  (r.1, (r.2.drop (off % 8)).take n)
/-- The bytes of the firmware request queue that a BAR0 access reaches (R354). -/
def State.fwqRange (s : State) (off n : Nat) : List (Addr × Nat) :=
  if 0x130_0000 ≤ off ∧ off < 0x130_1040 then [(s.host.fwq + (off - 0x130_0000), n)] else []
/-- Serves a host read once the memory it reaches is awake (R118). -/
def State.serveRead (s : State) (off n : Nat) : Option State :=
  if (s.awaits (s.fwqRange off n) []).isSome then none
  else let r := s.barRead off n; some (r.1.answer r.2)
/-- Where the host's configuration reads stand among its reads: byte a of the function's configuration space at this number plus a. -/
def configSpace : Nat := 2 ^ 32
/-- A configuration read: answered with Configuration Request Retry Status, a completion without data, until phase 7; then with the bytes
of the function's configuration space, which PCIe gives (R349, R366). -/
def State.configRead (s : State) (a n : Nat) : State :=
  s.answer (if s.host.mode = 1 then [] else (List.range n).map fun i => Config.configByte s.free (a + i))
/-- R140, R350, R366: the answer to a host read; none comes back over a link that is down, or of a BAR before phase 7. -/
def execHostReadReceive (off n : Nat) (s : State) : Result :=
  if configSpace ≤ off then (if s.host.linkUp then .next (s.configRead (off - configSpace) n) else .next s)
  else if s.barOpen false off then
    .next (s.atPort (.hostRead off n) (fun s => s.serveRead off n) fun s => s.wakeRanges (s.fwqRange off n) [])
  else if s.host.linkUp && s.host.mode == 3 then .next (s.answer (List.replicate n 0))
  else .next s
/-- A write of the 64-bit register at an offset. -/
def State.regPut (s : State) (off : Nat) (v : DWord) : State :=
  if off < 0x100_0000 then s.hostSysWrite (4 * (off / 0x4_0000) + off / 0x1_0000 % 4) (off % 0x1_0000 / 8) (v.setWidth 32)
  else
    let o := off - 0x110_0000
    if o < 0x20 then { s with host := { s.host with hap := tput s.host.hap (o / 8) (v &&& 0x000F_FFFC_0000_1FFF) } }
    else if o = 0x20 then { s with host := { s.host with extRootP := v &&& 0x8000_007F_FFFF_F000 } }
    else if o = 0x28 then { s with host := { s.host with extRootH := v &&& 0x8000_007F_FFFF_F000 } }
    else if o = 0x30 then s.startExtinv v
    else if 0x100 ≤ o ∧ o < 0x900 then
      let p := (o - 0x100) / 8
      let s1 := if v.getLsbD 0 && !(s.sp p).halted then s.postHalt p else s
      let s2 := if v.getLsbD 1 then s1.steps p else s1
      if v.getLsbD 2 then s2.runs p else s2
    else s
/-- Whether a write of some bytes touches EXTINV. -/
def touchesExtinv (off n : Nat) : Bool := meets off n 0x110_0030 8
/-- Whether an offset holds a 64-bit register that the host may write. -/
def regSpace (off : Nat) : Bool := decide (off < 0x100_0000) || decide (0x110_0000 ≤ off ∧ off < 0x110_1000)
/-- A register write; one of EXTINV waits while BUSY is 1 (R361). A mask of ROUTEM is 32 bits wide. -/
def State.serveRegister (s : State) (off : Nat) (v : DWord) : Option State :=
  if regSpace off && decide (off % 8 = 0) then
    if touchesExtinv off 8 && s.host.extInv.getLsbD 63 then none else some (s.regPut off v)
  else if 0x150_0000 ≤ off ∧ off < 0x150_1000 ∧ off % 4 = 0 then some (s.writeRoutem ((off - 0x150_0000) / 4) (v.setWidth 32))
  else some s
/-- R351, R352, R363. -/
def execRegisterWrite (off : Nat) (val : DWord) (s : State) : Result :=
  if !s.barOpen true off then .next s else s.atHost (.register off val) fun s => s.serveRegister off val
/-- The pieces of a write in units of u bytes: the unit's offset, the place in it, the bytes. -/
def pieces (u off : Nat) (bs : List Byte) : List (Nat × Nat × List Byte) :=
  (List.range (ceilDiv (off % u + bs.length) u)).map fun i =>
    let a := (off / u + i) * u
    let lo := max a off
    (a, lo - a, ((bs.drop (lo - off)).take (min (a + u) (off + bs.length) - lo)))
/-- A value of n bytes with some of them replaced. -/
def mergeNat (n old o : Nat) (bs : List Byte) : Nat :=
  let l := leBytes n old
  leNat (l.take o ++ bs ++ l.drop (o + bs.length))
/-- Serves a host write; one of EXTINV waits while BUSY is 1, one of the firmware request queue until its memory is awake (R118, R361). -/
def State.serveWrite (s : State) (off : Nat) (bytes : List Byte) : Option State :=
  if (touchesExtinv off bytes.length && s.host.extInv.getLsbD 63) || (s.awaits [] (s.fwqRange off bytes.length)).isSome then none
  else if regSpace off then
    some ((pieces 8 off bytes).foldl (fun s p =>
      if regSpace p.1 then s.regPut p.1 (BitVec.ofNat 64 (mergeNat 8 (s.barWord p.1).2.toNat p.2.1 p.2.2)) else s) s)
  else if 0x120_0000 ≤ off ∧ off + bytes.length ≤ 0x120_1000 then
    some ((pieces 64 off bytes).foldl (fun s p => s.bindWrite ((p.1 - 0x120_0000) / 64) p.2.1 p.2.2) s)
  else if 0x130_0000 ≤ off ∧ off + bytes.length ≤ 0x130_1040 then
    let a := s.host.fwq + (off - 0x130_0000)
    some ((s.passWr 0 none a bytes.length).wrBytes a bytes)
  else if 0x150_0000 ≤ off ∧ off + bytes.length ≤ 0x150_1000 then
    some ((pieces 4 off bytes).foldl (fun s p =>
      let q := (p.1 - 0x150_0000) / 4
      let old : Word := (tget s.route.routem q).getD 0
      s.writeRoutem q (BitVec.ofNat 32 (mergeNat 4 old.toNat p.2.1 p.2.2))) s)
  else some s
/-- R140, R350, R354: a host write is performed in the order of arrival. -/
def execHostWriteReceive (off : Nat) (bytes : List Byte) (s : State) : Result :=
  if !s.barOpen true off then .next s
  else .next (s.atPort (.hostWrite off bytes) (fun s => s.serveWrite off bytes) fun s => s.wakeRanges [] (s.fwqRange off bytes.length))

/-! ## Apertures (R346, R347, R352, R353) -/

/-- Whether the host may reach one address for a colour. -/
def State.apByte (s : State) (c : Nat) (write : Bool) (a : Addr) : Bool := match tget s.worlds c with
  | none => false
  | some w =>
    let m := s.debugScope w
    let live := m % 2 == 1 && (!write || m / 2 % 2 == 1 || m / 4 % 2 == 1)
    decide (c ≠ 0) && decide (c ≠ 4095) && w.mode != .forming && w.mode != .departing && (match window a with
      | .hbm => (w.mode != .protected_ || live) && (s.bankSet (a / gib6)).alloc
      | .pool => (w.mode != .protected_ || live) && (match s.phys c write a with | .ok _ => true | .error _ => false)
      | .host => (w.mode != .protected_ || live) && (match s.phys c write a with | .ok _ => true | .error _ => false)
      | .unmapped => false
      | _ => match s.spAt a with
        | some p => (s.sp p).owner == c && (s.rights w p == .lw || (!write && s.rights w p == .lr))
        | none => false)
/-- The colour under whose key an HBM line that is not marked stands: as noted, else that of the world whose range or twin holds it, else
firmware's in its own sets; none where no world has stored it (R322, R323). -/
def State.lineKey (s : State) (l : Addr) : Option Nat :=
  if s.inMarked l then none
  else match tget s.hbm.keyed l with
    | some c => some c
    | none =>
      if (s.bankSet (l / gib6)).fw then some 0
      else (s.worlds.find? fun w => (w.2.ranges.flatMap withTwin).any fun r => decide (r.1 ≤ l) && decide (l < r.1 + r.2)).map (·.1)
/-- Notes the keys of HBM lines that an aperture of another colour is about to reach, and of their twins: their MACs fail for it (R322,
R353; log entry 49). -/
def State.noteKeys (s : State) (c : Nat) (ls : List Addr) : State := (ls.flatMap fun l => [l, twinOf l]).foldl (fun s l => match s.lineKey l with
  | some k => if k = c then s else { s with hbm := { s.hbm with keyed := tput s.hbm.keyed l k } }
  | none => s) s
/-- The lines of HBM that an aperture has written for a colour stand under that colour's key where they are not its world's. -/
def State.takeKeys (s : State) (c : Nat) (ls : List Addr) : State := ls.foldl (fun s l =>
  if s.pageColour (l / pageBytes) = c ∨ (tget s.hbm.lost l).isSome then s else { s with hbm := { s.hbm with keyed := tput s.hbm.keyed l c } }) s
/-- The range of an aperture access: its place, colour and length. -/
def State.apRange (s : State) (m : ApMsg) : Addr × Nat × Nat :=
  let r : DWord := (tget s.host.hap m.ap).getD 0
  ((r.extractLsb' 34 18).toNat * 2 ^ 34 + m.off, (r.extractLsb' 0 12).toNat, match m.write with
    | some bs => bs.length
    | none => m.n)
/-- Whether an aperture access is served at all (R352, R353, R370). -/
def State.apOk (s : State) (m : ApMsg) : Bool :=
  let x := s.apRange m
  decide (m.ap < 4) && ((tget s.host.hap m.ap).getD 0 : DWord).getLsbD 12 && decide (m.off + x.2.2 ≤ 2 ^ 34) && s.host.mode != 3
    && (List.range x.2.2).all fun i => s.apByte x.2.1 m.write.isSome (x.1 + i)
/-- What an aperture access waits for in HBM (R118, R324). -/
def State.apAwaits (s : State) (m : ApMsg) : List (Addr × Nat) × List (Addr × Nat) :=
  let x := s.apRange m
  if !s.apOk m then ([], []) else if m.write.isSome then ([], [(x.1, x.2.2)]) else ([(x.1, x.2.2)], [])
/-- Serves an aperture access: on behalf of its colour, without tags (R52), or refused (R454). -/
def State.serveAperture (s : State) (m : ApMsg) : Option State :=
  let (a, c, n) := s.apRange m
  let ls := (linesOf a n).filter fun l => decide (l < 0x80_0000_0000)
  let w := s.apAwaits m
  if (s.awaits w.1 w.2).isSome then none
  else match s.apOk m, m.write with
    | false, some _ => some s
    | false, none => some (s.answer (if s.host.mode == 3 then List.replicate n 0 else refusedBytes n))
    | true, some bs => some ((((s.wakeRange a n).noteKeys c ls).writeRange (plainAgent c) false a (bs.map some) []).1.takeKeys c ls)
    | true, none =>
      let x := ((s.wakeRange a n).noteKeys c ls).readLines (plainAgent c) .rd a n
      some (x.1.answer ((x.1.bytesAt (plainAgent c) x.2 a n).map fun b => b.getD 0))
/-- R353. -/
def execApertureAccess (m : ApMsg) (s : State) : Result :=
  if !s.host.linkUp || s.host.mode == 1 then .next s
  else .next (s.atPort (.aperture m) (fun s => s.serveAperture m) fun s => s.wakeRanges (s.apAwaits m).1 (s.apAwaits m).2)

/-! ## The link (R461) -/

/-- R461. -/
def execPcieLinkDown (s : State) : Result := .next { s with host := { s.host with linkUp := false } }
/-- R461: waiting pops go on, and nothing lost is repeated. -/
def execPcieLinkUp (s : State) : Result := .next { s with host := { s.host with linkUp := true } }

end Sys2Proof.Machine
end

