-- ==== Sys2Proof/Machine/Boot.lean ====
section
/-! DEFINITION. Cold reset and boot (R2, R7, R116, R317, R354, R362, R366, R367, R370, R462). -/

namespace Sys2Proof.Machine

/-! ## The firmware image (R367, R462) -/

/-- The bytes of an image: its header, then its body. -/
def signedBytes (x : BootImage) : List Byte := Config.imageHeader x.version x.svn x.length x.hash ++ x.body
/-- Why an image is not accepted: its signature under the fused root key, its body's hash, its security version. -/
def imageCause (x : BootImage) (minSvn : Word) : Option (BitVec 4) :=
  if Config.sha512 x.key != Config.rootKeyHash || !Config.imageVerifies x.key (Config.sha512 (signedBytes x)) x.signature then some 0x2
  else if Config.sha512 x.body != x.hash then some 0x3
  else if x.svn < minSvn then some 0x4
  else none
/-- The image that the management controller accepts: of slot 0, else of slot 1; else the cause of the last slot that can be read. -/
def bootImage (b : BootCfg) (minSvn : Word) : Except (BitVec 4) BootImage :=
  let tries := (b.slots.take 2).filterMap fun x => x
  match tries.find? fun x => (imageCause x minSvn).isNone with
  | some x => .ok x
  | none => .error ((tries.getLast?.bind fun x => imageCause x minSvn).getD 0x1)

/-! ## Spares (R7, R366, R462) -/

/-- The cores of a die that have been retired, then those that have failed or fail the test of phase 5: a core whose spare has failed too
counts for both. -/
def State.failedCores (s : State) (b : BootCfg) (die : Nat) : List Nat :=
  let retired := (s.cores.filter fun c => c.2.spare).map (·.1)
  let failing := ((s.cores.filter fun c => c.2.dead || c.2.failing).map (·.1) ++ b.cores.filter fun c => decide (c < 64)).eraseDups
  (retired ++ failing).filter fun c => c / 16 == die
/-- The pseudo-channels that have been retired, each as often as a spare took its place, and those that fail the test of phase 5. -/
def State.failedChannels (s : State) (b : BootCfg) : List (Nat × Nat) :=
  s.hbm.spared ++ (b.channels.filter fun x => decide (x.1 < 8 ∧ x.2 < 192)).eraseDups

/-! ## The phases (R366) -/

/-- FAIL and PHASE of a boot that fails: the phases pass in order. -/
def State.bootFail (s : State) (b : BootCfg) : Option (BitVec 4 × BitVec 4) :=
  if !b.fuses then some (0x9, 1)
  else match bootImage b s.mgmt.minSvn with
    | .error c => some (c, 2)
    | .ok _ =>
      if !b.memory then some (0x5, 3)
      else if !b.links then some (0x6, 4)
      else if (List.range 4).any fun d => decide (1 < (s.failedCores b d).length) then some (0x7, 5)
      else if (List.range 8).any fun k => decide (sparesPerStack < ((s.failedChannels b).filter fun x => x.1 == k).length) then some (0x8, 5)
      else none
/-- What outlasts a cold reset: the fused minimum security version, the pod's number, the units that are retired; free values and names go
on. -/
def State.cold (s : State) (b : BootCfg) : State :=
  { State.reset with
    free := s.free, ids := s.ids
    cores := s.cores.map fun c => (c.1, { spare := c.2.spare, dead := c.2.dead })
    hbm := { State.reset.hbm with spared := s.hbm.spared }
    mgmt := { State.reset.mgmt with minSvn := s.mgmt.minSvn }
    route := { State.reset.route with pkg := b.pkg.toNat } }
/-- Phase 5: every failing core and pseudo-channel is replaced by its spare (R7). -/
def State.replace (s : State) (b : BootCfg) : State :=
  { s with
    cores := (List.range 4).flatMap fun d => (s.failedCores b d).map fun c => (c, { spare := true })
    hbm := { s.hbm with spared := s.failedChannels b } }
/-- The bank sets that firmware chooses; it needs one, and leaves one. -/
def firmwareSets (b : BootCfg) : List Nat := match ((b.fwSets.filter fun g => decide (g < 86)).eraseDups).take 85 with
  | [] => [0]
  | l => l
/-- The bank sets that hold firmware memory are in P0; those without data are off (R116). -/
def bootSets (b : BootCfg) : Tbl BankSet := (List.range 86).map fun g =>
  (g, if (firmwareSets b).contains g then { alloc := true, fw := true, state := 0 } else { alloc := false, fw := false, state := 3 })
/-- The firmware request queue stands in the first of those sets, at a 64-byte slot that firmware chooses (R354). -/
def queuePlace (b : BootCfg) : Addr :=
  let g := (firmwareSets b).headD 0
  g * gib6 + b.fwq / 64 % ((min gib6 (0x80_0000_0000 - g * gib6) - 0x1040) / 64 + 1) * 64
/-- A bank set that holds data from now on: woken from P3 with its pages marked (R119); firmware waits for the wake. -/
def State.openSet (s : State) (g : Nat) : State :=
  if (s.bankSet g).alloc then s else (s.setAlloc g true).modBank g fun x => { x with state := 0, waking := none, last := s.now bankDomain }
/-- The colour of the hypervisor's world: the one that firmware's configuration names, where R314 lets a world have it. -/
def hypColour (b : BootCfg) : Nat := if 0 < b.hyp ∧ b.hyp < 4095 then b.hyp else 1
/-- The ranges of the hypervisor's world: those of firmware's configuration that R317 lets a world have, each apart from firmware's memory
and from those before it; one page of the first bank set left where it names none (log entry 73). -/
def hypRanges (b : BootCfg) : List (Addr × Nat × Bool × Bool) :=
  let fw := firmwareSets b
  let ok (l : List (Addr × Nat × Bool × Bool)) (x : Addr × Nat × Bool × Bool) : Bool := !rangeBad x && x.2.1 % 65536 == 0 &&
    (withTwin x).all fun y => (bankSetsOf y.1 y.2).all (fun g => !fw.contains g) && (l.flatMap withTwin).all fun z => !meets y.1 y.2 z.1 z.2
  match (b.hypRanges.map fun r => (r.1, r.2.1, r.2.2, false)).foldl (fun l x => if ok l x && decide (l.length < 64) then l ++ [x] else l) [] with
  | [] => [(((List.range 86).find? fun g => !fw.contains g).getD 0 * gib6, 0x1_0000, false, false)]
  | l => l
/-- Where its capability table stands. -/
def hypCtab (b : BootCfg) : Addr := match hypRanges b with
  | [] => 0
  | x :: r => if ctabIn x b.hypCtab (r.length + 1) then b.hypCtab else x.1
/-- The hypervisor's world (R366, phase 6): VD 0, standard, its ranges allocated, its roots, and entry 0 for the request queue. -/
def State.formHyp (s : State) (b : BootCfg) : State :=
  let w : World := { vd := 0, ranges := hypRanges b, ctab := hypCtab b, allow := 0xFFFFFFFFFFFFFFFF }
  let gs := (w.ranges.flatMap withTwin).flatMap fun r => bankSetsOf r.1 r.2
  let s1 := gs.eraseDups.foldl (fun s g => s.openSet g) s
  let c := hypColour b
  let s2 := { s1 with worlds := [(c, w)], mgmt := { s1.mgmt with hyp := c } }.writeRoots c w
  s2.fwCap c w.ctab (mkCap kindQueue false 0 (BitVec.ofNat 12 c) (s2.gen c) (permLd ||| permSt) (queuePlace b) (64 + 64 * 64))
/-- R366, R367, R462: the phases pass in order to the open port in service mode, or to recovery. -/
def execColdReset (b : BootCfg) (s : State) : Result :=
  let t := s.cold b
  match s.bootFail b, bootImage b s.mgmt.minSvn with
  | none, .ok x =>
    let t1 := { t.replace b with hbm := { (t.replace b).hbm with sets := bootSets b } }.formHyp b
    let t2 := t1.putQword (queuePlace b) 0 64
    .next { t2 with
      host := { t2.host with mode := 0, bootstat := 7, fwq := (queuePlace b), booted := true }
      mgmt := { t2.mgmt with svn := x.svn, minSvn := x.svn, measured := Config.sha512 (signedBytes x ++ [Config.anvRev]) } }
  | o, _ =>
    let f := o.getD (0x1, 2)
    .next { t with host := { t.host with mode := 3, bootstat := f.1.setWidth 32 <<< 4 ||| f.2.setWidth 32 } }

end Sys2Proof.Machine
end

