-- ==== Sys2Proof/Machine/CapInstr.lean ====
section
/-! DEFINITION. The capability instructions (R228–R238): each in its per-lane and its uniform form. -/

namespace Sys2Proof.Machine

/-! ## Operands (R228) -/

/-- The registers of capability operands of the per-lane form; class KS names none. -/
def capRegs (uf ua : Bool) (a : BitVec 6) : List RegUse := if uf || ua then [] else kRegs a false
/-- The destination's registers. -/
def capDst (uf : Bool) (d : BitVec 6) : List RegUse := if uf then [] else kRegs d true
/-- Registers and latches of an integer operand. -/
def capInt (uf : Bool) (x : VSrc) (w64 : Bool) : List RegUse := if uf then [] else vregs x w64
def capLat (uf : Bool) (x : VSrc) : List (BitVec 2) := if uf then [] else vlatches x
/-- A capability operand: of lane l, or of the convoy. -/
def State.capOf (s : State) (v : Convoy) (l : Ln) (uni : Bool) (a : BitVec 6) : Cap :=
  if uni then v.u.rdK a.toNat else s.rdK l.f a.toNat
/-- An integer operand: of lane l, or of the convoy. -/
def State.capIntOf (s : State) (v : Convoy) (l : Ln) (uf w64 : Bool) (lit : DWord) (x : VSrc) : DWord :=
  if uf then uval v.u w64 lit x else s.src v l w64 lit x
/-- A form that writes a capability: in every active lane, or once when some lane is active (R178, R228). -/
def capForm (s : State) (c : Ctl) (uf : Bool) (d : BitVec 6) (regs : List RegUse) (lat : List (BitVec 2)) (n : Nat)
    (f : Convoy → Ln → Cap) : Result :=
  issue s c (regs ++ capDst uf d) lat fun i v act =>
    ((if uf then act.take 1 else act).foldl
      (fun t l => if uf then t.wrKs i d.toNat (f v l) else t.wrK l.f d.toNat (f v l)) s).advance i n

/-! ## Derivations (R229–R233, R236) -/

/-- R230. -/
def execCsub (o : CsubOp) (s : State) : Result :=
  let ls := lits o.c.lit false o.off.isLit o.len.isLit
  capForm s o.c o.uf o.d (capRegs o.uf o.ua o.a ++ capInt o.uf o.off true ++ capInt o.uf o.len true)
    (capLat o.uf o.off ++ capLat o.uf o.len) (wordsOf (o.off.isLit || o.len.isLit)) fun v l =>
      s.csub (s.capOf v l (o.uf || o.ua) o.a) (s.capIntOf v l o.uf true ls.2.1 o.off).toNat
        (s.capIntOf v l o.uf true ls.2.2 o.len).toNat o.exact
/-- R231. -/
def execCperm (o : CapVOp) (s : State) : Result :=
  capForm s o.c o.uf o.d (capRegs o.uf o.ua o.a ++ capInt o.uf o.x false) (capLat o.uf o.x) (wordsOf o.x.isLit) fun v l =>
    s.cperm (s.capOf v l (o.uf || o.ua) o.a) ((s.capIntOf v l o.uf false o.c.lit o.x).setWidth 32)
/-- R232. -/
def execCseal (o : CsealOp) (s : State) : Result :=
  capForm s o.c o.uf o.d (capRegs o.uf o.ua o.a ++ capRegs o.uf o.ub o.s ++ capInt o.uf o.t false) (capLat o.uf o.t)
    (wordsOf o.t.isLit) fun v l =>
      s.cseal (s.colourOf v) (s.capOf v l (o.uf || o.ua) o.a) (s.capOf v l (o.uf || o.ub) o.s)
        ((s.capIntOf v l o.uf false o.c.lit o.t).setWidth 32)
/-- R232. -/
def execCunseal (o : CunsealOp) (s : State) : Result :=
  capForm s o.c o.uf o.d (capRegs o.uf o.ua o.a ++ capRegs o.uf o.ub o.s) [] 1 fun v l =>
    s.cunseal (s.colourOf v) (s.capOf v l (o.uf || o.ua) o.a) (s.capOf v l (o.uf || o.ub) o.s)
/-- R233. -/
def execCbale (o : CapVOp) (s : State) : Result :=
  capForm s o.c o.uf o.d (capRegs o.uf o.ua o.a ++ capInt o.uf o.x false) (capLat o.uf o.x) (wordsOf o.x.isLit) fun v l =>
    s.cbale (s.capOf v l (o.uf || o.ua) o.a) ((s.capIntOf v l o.uf false o.c.lit o.x).setWidth 32)
/-- R236. -/
def execCnull (o : CnullOp) (s : State) : Result := capForm s o.c o.uf o.d [] [] 1 fun _ _ => nullCap

/-! ## Inspection (R234, R235) -/

/-- The bit of R234. -/
def State.ctestBit (s : State) (colour : Nat) (live : Bool) (k : Cap) : Bool := if live then s.live k colour else k.tag
/-- R234. -/
def execCtest (o : CtestOp) (s : State) : Result :=
  issue s o.c (capRegs o.uf o.ua o.a) [] fun i v act =>
    let bit (l : Ln) : Bool := s.ctestBit (s.colourOf v) o.live (s.capOf v l (o.uf || o.ua) o.a)
    (if o.uf then (act.take 1).foldl (fun t l => t.wrQ i (o.d.setWidth 2) (bit l)) s
     else act.foldl (fun t l => t.wrP l.id o.d (bit l)) s).advance i 1
/-- The fields of 64 bits. -/
def fieldWide (f : CField) : Bool := f == .base || f == .len || f == .top
/-- R235. -/
def execCget (o : CgetOp) (s : State) : Result :=
  let w := fieldWide o.field
  match o.d with
  | .lane d => issue s o.c (capRegs false o.ua o.a ++ dregs d w) [] fun i v act =>
      (s.dsts i w d (act.map fun l => (l, (s.capOf v l o.ua o.a).field o.field))).advance i 1
  | .uni n => issue s o.c [] [] fun i v act =>
      let x := (v.u.rdK o.a.toNat).field o.field
      ((act.take 1).foldl (fun t _ => t.modU i fun u => if w then u.wr64 n.toNat x else u.wr n.toNat (x.setWidth 32)) s).advance i 1

/-! ## cdeleg (R237, R238) -/

/-- The header registers of cdeleg: eight words. -/
def State.headerOf (s : State) (v : Convoy) (l : Ln) (uf : Bool) (xq : BitVec 6) : List Word :=
  (List.range 8).map fun j => if uf then v.u.rd (4 * xq.toNat + j) else s.rdV l.f (4 * xq.toNat + j)
/-- The capability granule of a block: the tag needs DELEG, and an unsealed, uncaught capability. -/
def State.blockCap (s : State) (k : Cap) : Cap := s.filter { k with tag := k.tag && k.has permDeleg && !k.isSealed }
/-- The four granules of a block. -/
def State.blockOf (s : State) (h : List Word) (ks kt : Cap) : List Cap :=
  let w (j : Nat) : Word := h.getD j 0
  [⟨0#32 ++ w 2 ++ 0#32 ++ (w 0).extractLsb' 16 16 ++ 0#8 ++ (w 0).extractLsb' 0 8, false⟩, s.blockCap ks, s.blockCap kt,
   ⟨w 7 ++ w 6 ++ w 5 ++ w 4, false⟩]
/-- The CMD capability for a block at a. -/
def cmdCap (kb : Cap) (op : BitVec 8) (a : Addr) : Cap :=
  ⟨capBits kindCmd true (op.setWidth 12) kb.colour kb.gen (kb.perms &&& (permDeleg ||| permTwin ||| permExport)) 0 63 (BitVec.ofNat 52 a),
   true⟩
/-- Local writes of granules by a fibre. -/
def State.storeCaps (s : State) (spn who a : Nat) : List Cap → State
  | [] => s
  | k :: ks => (s.storeCapBy spn who a k).storeCaps spn who (a + 16) ks
/-- The effect of cdeleg in a lane. -/
def State.delegLane (t s : State) (c : Nat) (v : Convoy) (o : CdelegOp) (x : LaneAcc) : State :=
  let h := s.headerOf v x.l o.uf o.xq
  let op := (h.getD 0 0).extractLsb' 0 8
  let ok := decide (1 ≤ op.toNat) && decide (op.toNat ≤ 7)
  let t1 := if ok then t.storeCaps v.spn x.l.id x.a (s.blockOf h (s.capOf v x.l o.uf o.ksrc) (s.capOf v x.l o.uf o.kdst)) else t
  let k := if ok then cmdCap x.k op x.a else nullCap
  if o.uf then t1.wrKs c o.d.toNat k else t1.wrK x.l.f o.d.toNat k
/-- R237. -/
def execCdeleg (o : CdelegOp) (s : State) : Result :=
  let regs := if o.uf then [] else capRegs false o.ua o.kb ++ kRegs o.ksrc false ++ kRegs o.kdst false ++ [⟨4 * o.xq.toNat, 8, false⟩]
  issue s o.c (regs ++ capDst o.uf o.d) [] fun i v act =>
    let act' := if o.uf then act.take 1 else act
    let r := act'.map fun l =>
      let kb := s.capOf v l (o.uf || o.ua) o.kb
      let off := 64 * (o.blk.toNat + if o.ua && !o.uf then l.pos else 0)
      (⟨l, kb.lo + off, kb, misaligned (kb.lo + off) 64
        (s.scratch (coreOf v.spn) (s.colourOf v) kb off 64 (permSt ||| permStk ||| permDeleg))⟩ : LaneAcc)
    localAccess s i v r 64 true 0 ((r.foldl (fun t x => t.delegLane s i v o x) s).advance i 1)

end Sys2Proof.Machine
end

