-- ==== Sys2Proof/Machine/Transc.lean ====
section
/-! DEFINITION. The special functions of R197: each computed in fixed point with 512 fractional bits, then rounded once (log entry 7).
Each answers a magnitude in [m, m + 1) × 2^e, exact unless it says so. -/

namespace Sys2Proof.Machine

/-! ## Fixed point -/

/-- Fractional bits. -/
def fxBits : Nat := 512
def fxOne : Int := 2 ^ fxBits
/-- Product of fixed-point numbers, rounded down. -/
def fxMul (a b : Int) : Int := a * b / fxOne
/-- Σ pw · sqʲ / (k + 2j): with sq = x² the series of atanh, with −x² that of atan. -/
def oddSeries (sq : Int) : Nat → Nat → Int → Int → Int
  | 0, _, _, acc => acc
  | f + 1, k, pw, acc => oddSeries sq f (k + 2) (fxMul pw sq) (acc + pw / k)
/-- Σ tᵏ/k! from a term on. -/
def expSeries (t : Int) : Nat → Nat → Int → Int → Int
  | 0, _, _, acc => acc
  | f + 1, k, term, acc => expSeries t f (k + 1) (fxMul term t / k) (acc + term)
/-- The alternating series of sine (k = 1, from r) and cosine (k = 0, from 1). -/
def trigSeries (sq : Int) : Nat → Nat → Int → Int → Int
  | 0, _, _, acc => acc
  | f + 1, k, term, acc => trigSeries sq f (k + 2) (-(fxMul term sq / ((k + 1) * (k + 2) : Nat))) (acc + term)
/-- atanh x for |x| ≤ 1/3. -/
def fxAtanh (x : Int) : Int := oddSeries (fxMul x x) 170 1 x 0
def fxLn2 : Int := 2 * fxAtanh (fxOne / 3)
/-- π by Machin's formula. -/
def fxPi : Int :=
  16 * oddSeries (-(fxOne / 25)) 120 1 (fxOne / 5) 0 - 4 * oddSeries (-(fxOne / 57121)) 40 1 (fxOne / 239) 0
/-- eᵗ for 0 ≤ t < 0.7. -/
def fxExp (t : Int) : Int := expSeries t 110 1 fxOne 0
/-- A finite value over 2^−512; exact for every FP32. -/
def toFx (neg : Bool) (m : Nat) (e : Int) : Int := scaled neg m e (-(fxBits : Int))
/-- The square root rounded down, of numbers below 4^fuel. -/
def isqrt (n : Nat) : Nat → Nat → Nat
  | 0, r => r
  | f + 1, r => isqrt n f (if (r + 2 ^ f) * (r + 2 ^ f) ≤ n then r + 2 ^ f else r)

/-! ## The functions -/

/-- A result before rounding: sign, magnitude, exponent, and whether it lies above m × 2^e. -/
structure Approx where
  neg : Bool
  m : Nat
  e : Int
  st : Bool
  deriving DecidableEq, Repr

/-- A fixed-point result that is not exact. -/
def fxApprox (x : Int) : Approx := ⟨decide (x < 0), x.natAbs, -(fxBits : Int), true⟩
/-- 1 / x. -/
def apRcp (neg : Bool) (m : Nat) (e : Int) : Approx := ⟨neg, 2 ^ 100 / m, -e - 100, 2 ^ 100 % m != 0⟩
/-- √x, from an even exponent. -/
def apSqrt (m : Nat) (e : Int) : Approx :=
  let m' := if e % 2 = 0 then m else 2 * m
  let e' := if e % 2 = 0 then e else e - 1
  let r := isqrt (m' * 2 ^ 120) 80 0
  ⟨false, r, e' / 2 - 60, r * r != m' * 2 ^ 120⟩
/-- 1 / √x. -/
def apRsq (m : Nat) (e : Int) : Approx :=
  let m' := if e % 2 = 0 then m else 2 * m
  let e' := if e % 2 = 0 then e else e - 1
  let r := isqrt (2 ^ 200 / m') 101 0
  ⟨false, r, -(e' / 2) - 100, r * r * m' != 2 ^ 200⟩
/-- 2^x. -/
def apEx2 (neg : Bool) (m : Nat) (e : Int) : Approx :=
  let x := toFx neg m e
  if x > 200 * fxOne then ⟨false, 1, 300, true⟩
  else if x < -200 * fxOne then ⟨false, 1, -300, true⟩
  else
    let i := x / fxOne
    let f := x % fxOne
    if f = 0 then ⟨false, 1, i, false⟩ else ⟨false, (fxExp (fxMul f fxLn2)).natAbs, i - fxBits, true⟩
/-- log2 x for x > 0. -/
def apLg2 (m : Nat) (e : Int) : Approx :=
  let n := m.log2
  let k : Int := e + n
  let z : Int := m * 2 ^ (fxBits - n)
  if z = fxOne then ⟨decide (k < 0), k.natAbs, 0, false⟩
  else fxApprox (k * fxOne + 2 * fxAtanh ((z - fxOne) * fxOne / (z + fxOne)) * fxOne / fxLn2)
/-- The quadrant of |x| and the rest, in fixed point. -/
def reduceTrig (m : Nat) (e : Int) : Int × Int :=
  let x := toFx false m e
  let h := fxPi / 2
  (x / h % 4, x % h)
def fxSin (r : Int) : Int := trigSeries (fxMul r r) 60 1 r 0
def fxCos (r : Int) : Int := trigSeries (fxMul r r) 60 0 fxOne 0
/-- sin x. -/
def apSin (neg : Bool) (m : Nat) (e : Int) : Approx :=
  let q := reduceTrig m e
  let v := if q.1 = 0 then fxSin q.2 else if q.1 = 1 then fxCos q.2 else if q.1 = 2 then -fxSin q.2 else -fxCos q.2
  fxApprox (if neg then -v else v)
/-- cos x. -/
def apCos (m : Nat) (e : Int) : Approx :=
  let q := reduceTrig m e
  fxApprox (if q.1 = 0 then fxCos q.2 else if q.1 = 1 then -fxSin q.2 else if q.1 = 2 then -fxCos q.2 else fxSin q.2)
/-- tanh x = (e^2x − 1) / (e^2x + 1). -/
def apTanh (neg : Bool) (m : Nat) (e : Int) : Approx :=
  let x := toFx false m e
  if x > 20 * fxOne then ⟨neg, 2 ^ 60 - 1, -60, true⟩
  else
    let k := 2 * x / fxLn2
    let y := fxExp (2 * x - k * fxLn2) * 2 ^ k.toNat
    { fxApprox ((y - fxOne) * fxOne / (y + fxOne)) with neg := neg }

/-! ## With the special inputs of R197 -/

/-- The rounding of a result. -/
def roundApprox (a : Approx) : Word × BitVec 8 :=
  if a.m = 0 && !a.st then (if a.neg then 0x80000000 else 0, 0)
  else let r := roundMag fp32 .rn a.neg a.m a.e a.st; (BitVec.ofNat 32 r.1, r.2)
def posInf : Word := 0x7F800000
def negInf : Word := 0xFF800000
/-- A signed infinity and a signed zero. -/
def infOf (n : Bool) : Word := if n then negInf else posInf
def zeroOf (n : Bool) : Word := if n then 0x80000000 else 0
/-- The special functions. -/
inductive SpecFn where
  | rcp | rsq | sqrt | ex2 | lg2 | sin | cos | tanh
  deriving DecidableEq, Repr
/-- R197 on a nonzero finite value. -/
def specFin (fn : SpecFn) (neg : Bool) (m : Nat) (e : Int) : Word × BitVec 8 := match fn with
  | .rcp => roundApprox (apRcp neg m e)
  | .rsq => if neg then (canon32, flNV) else roundApprox (apRsq m e)
  | .sqrt => if neg then (canon32, flNV) else roundApprox (apSqrt m e)
  | .ex2 => roundApprox (apEx2 neg m e)
  | .lg2 => if neg then (canon32, flNV) else roundApprox (apLg2 m e)
  | .sin => roundApprox (apSin neg m e)
  | .cos => roundApprox (apCos m e)
  | .tanh => roundApprox (apTanh neg m e)
/-- R197 on a zero. -/
def specZero (fn : SpecFn) (neg : Bool) : Word × BitVec 8 := match fn with
  | .rcp => (infOf neg, flDZ)
  | .rsq => (infOf neg, flDZ)
  | .sqrt => (zeroOf neg, 0)
  | .ex2 => (0x3F800000, 0)
  | .lg2 => (negInf, flDZ)
  | .sin => (zeroOf neg, 0)
  | .cos => (0x3F800000, 0)
  | .tanh => (zeroOf neg, 0)
/-- R197 on an infinity. -/
def specInf (fn : SpecFn) (neg : Bool) : Word × BitVec 8 := match fn with
  | .rcp => (zeroOf neg, 0)
  | .rsq => if neg then (canon32, flNV) else (0, 0)
  | .sqrt => if neg then (canon32, flNV) else (posInf, 0)
  | .ex2 => if neg then (0, 0) else (posInf, 0)
  | .lg2 => if neg then (canon32, flNV) else (posInf, 0)
  | .sin => (canon32, flNV)
  | .cos => (canon32, flNV)
  | .tanh => (if neg then 0xBF800000 else 0x3F800000, 0)
/-- R197. -/
def special (fn : SpecFn) (x : Word) : Word × BitVec 8 := match fv x with
  | .nan => (canon32, flNV)
  | .inf n => specInf fn n
  | .fin n m e => if m = 0 then specZero fn n else specFin fn n m e

end Sys2Proof.Machine
end

