-- ==== Sys2Proof/Machine/Float.lean ====
section
/-! DEFINITION. The floating-point group (R190–R198). -/

namespace Sys2Proof.Machine

/-! ## Shapes of the forms -/

/-- A 32-bit result with flags, as compute takes it. -/
def wide (r : Word × BitVec 8) : DWord × BitVec 8 := (r.1.setWidth 64, r.2)
/-- A two-operand FP32 form. -/
def fpBin (s : State) (o : FBin) (f : Word → Word → Word × BitVec 8) : Result :=
  let ls := lits o.c.lit o.a.isLit o.b.isLit false
  compute s o.c (vregs o.a false ++ vregs o.b false) (vlatches o.a ++ vlatches o.b) false o.d (wordsOf o.lits) fun v _ l =>
    wide (f (s.src32 v l ls.1 o.a) (s.src32 v l ls.2.1 o.b))
/-- A three-operand form. -/
def fpTri (s : State) (o : FTri) (f : Word → Word → Word → Word × BitVec 8) : Result :=
  let ls := lits o.c.lit o.a.isLit o.b.isLit o.e.isLit
  compute s o.c (vregs o.a false ++ vregs o.b false ++ vregs o.e false) (vlatches o.a ++ vlatches o.b ++ vlatches o.e) false o.d
    (wordsOf o.lits) fun v _ l => wide (f (s.src32 v l ls.1 o.a) (s.src32 v l ls.2.1 o.b) (s.src32 v l ls.2.2 o.e))
/-- A one-operand form. -/
def fpUn (s : State) (o : FUn) (f : Word → Word × BitVec 8) : Result :=
  compute s o.c (vregs o.a false) (vlatches o.a) false o.d (wordsOf o.lits) fun v _ l => wide (f (s.src32 v l o.c.lit o.a))
/-- fcmp. -/
def fpCmp (s : State) (o : FCmp) (f : Word → Word → Bool × BitVec 8) : Result :=
  let ls := lits o.c.lit o.a.isLit o.b.isLit false
  computeP s o.c (vregs o.a false ++ vregs o.b false) (vlatches o.a ++ vlatches o.b) o.p (wordsOf o.lits) fun v l =>
    f (s.src32 v l ls.1 o.a) (s.src32 v l ls.2.1 o.b)

/-! ## Functions -/

/-- fsub: the sum with −B. -/
def fsub32 (a b : Word) : Word × BitVec 8 := rne ((fv a).add (fv b).negate)
/-- The relations of R193. -/
def fcmpRel (cc : FCC) (a b : FV) : Bool × BitVec 8 :=
  let un := a.isNan || b.isNan
  match cc with
  | .eq => (!un && !a.lt b && !b.lt a, 0)
  | .ne => (un || a.lt b || b.lt a, 0)
  | .lt => (a.lt b, if un then flNV else 0)
  | .le => (!un && !b.lt a, if un then flNV else 0)
  | .gt => (b.lt a, if un then flNV else 0)
  | .ge => (!un && !a.lt b, if un then flNV else 0)
  | .un => (un, 0)
  | .ord => (!un, 0)
/-- The one-hot class of R194. -/
def fclassBit (x : Word) : Nat := match fv x with
  | .nan => if x.getLsbD 22 then 9 else 8
  | .inf n => if n then 0 else 7
  | .fin n m _ =>
    if m = 0 then (if n then 3 else 4)
    else if m < 2 ^ 23 then (if n then 2 else 5)
    else if n then 1 else 6
/-- R195: a value rounded to an integer, written as FP32; no flag but NV. -/
def frndInt (rm : RM) (x : Word) : Word × BitVec 8 := match fv x with
  | .nan => (canon32, flNV)
  | .inf _ => (x, 0)
  | .fin n m e =>
    if 0 ≤ e ∨ m = 0 then (x, 0)
    else
      let q := (roundUnit rm n m e false 0).1
      (BitVec.ofNat 32 (roundTo fp32 .rn (.fin n q 0)).1, 0)
/-- R196: the scale by a clamped power of two. -/
def fscale32 (a k : Word) : Word × BitVec 8 := match fv a with
  | .nan => (canon32, flNV)
  | .inf _ => (a, 0)
  | .fin n m e => if m = 0 then (a, 0) else rne (.fin n m (e + max (-512) (min k.toInt 512)))
/-- The format of a packed form (R198). -/
def halfFmt (f16 : Bool) : FpFmt := if f16 then fp16 else bf16
/-- One packed element. -/
def half (x : Word) (e : Nat) : Nat := x.toNat / 2 ^ (16 * e) % 2 ^ 16
/-- A packed form: both elements, each rounded once in its own format. -/
def packed (f : FpFmt) (g : Nat → FV) : Word × BitVec 8 :=
  let r0 := roundTo f .rn (g 0)
  let r1 := roundTo f .rn (g 1)
  (BitVec.ofNat 32 (r1.1 * 2 ^ 16 + r0.1), r0.2 ||| r1.2)
/-- hadd2 and hmul2. -/
def hBin (s : State) (o : HBin) (g : FV → FV → FV) : Result :=
  let F := halfFmt o.f16
  let ls := lits o.c.lit o.a.isLit o.b.isLit false
  compute s o.c (vregs o.a false ++ vregs o.b false) (vlatches o.a ++ vlatches o.b) false o.d (wordsOf o.lits) fun v _ l =>
    let a := s.src32 v l ls.1 o.a
    let b := s.src32 v l ls.2.1 o.b
    wide (packed F fun e => g (widen F (half a e)) (widen F (half b e)))

/-! ## The forms -/

/-- R191. -/
def execFadd (o : FBin) (s : State) : Result := fpBin s o fadd32
/-- R191. -/
def execFsub (o : FBin) (s : State) : Result := fpBin s o fsub32
/-- R191. -/
def execFmul (o : FBin) (s : State) : Result := fpBin s o fmul32
/-- R191. -/
def execFfma (o : FTri) (s : State) : Result := fpTri s o ffma32
/-- R192. -/
def execFmin (o : FBin) (s : State) : Result := fpBin s o (fminmax false)
/-- R192. -/
def execFmax (o : FBin) (s : State) : Result := fpBin s o (fminmax true)
/-- R193. -/
def execFcmp (o : FCmp) (s : State) : Result := fpCmp s o fun a b => fcmpRel o.cc (fv a) (fv b)
/-- R194. -/
def execFclass (o : FUn) (s : State) : Result := fpUn s o fun x => (1 <<< fclassBit x, 0)
/-- R195. -/
def execFfloor (o : FUn) (s : State) : Result := fpUn s o (frndInt .rd)
/-- R195. -/
def execFceil (o : FUn) (s : State) : Result := fpUn s o (frndInt .ru)
/-- R195. -/
def execFtrunc (o : FUn) (s : State) : Result := fpUn s o (frndInt .rz)
/-- R195. -/
def execFrint (o : FUn) (s : State) : Result := fpUn s o (frndInt .rn)
/-- R196. -/
def execFscale (o : FBin) (s : State) : Result := fpBin s o fscale32
/-- R197. -/
def execFrcp (o : FUn) (s : State) : Result := fpUn s o (special .rcp)
/-- R197. -/
def execFrsq (o : FUn) (s : State) : Result := fpUn s o (special .rsq)
/-- R197. -/
def execFsqrt (o : FUn) (s : State) : Result := fpUn s o (special .sqrt)
/-- R197. -/
def execFex2 (o : FUn) (s : State) : Result := fpUn s o (special .ex2)
/-- R197. -/
def execFlg2 (o : FUn) (s : State) : Result := fpUn s o (special .lg2)
/-- R197. -/
def execFsin (o : FUn) (s : State) : Result := fpUn s o (special .sin)
/-- R197. -/
def execFcos (o : FUn) (s : State) : Result := fpUn s o (special .cos)
/-- R197. -/
def execFtanh (o : FUn) (s : State) : Result := fpUn s o (special .tanh)
/-- R198. -/
def execHadd2 (o : HBin) (s : State) : Result := hBin s o FV.add
/-- R198. -/
def execHmul2 (o : HBin) (s : State) : Result := hBin s o FV.mul
/-- R198. -/
def execHfma2 (o : HTri) (s : State) : Result :=
  let F := halfFmt o.f16
  let ls := lits o.c.lit o.a.isLit o.b.isLit o.e.isLit
  compute s o.c (vregs o.a false ++ vregs o.b false ++ vregs o.e false) (vlatches o.a ++ vlatches o.b ++ vlatches o.e) false o.d
    (wordsOf o.lits) fun v _ l =>
      let a := s.src32 v l ls.1 o.a
      let b := s.src32 v l ls.2.1 o.b
      let c := s.src32 v l ls.2.2 o.e
      wide (packed F fun e => ((widen F (half a e)).mul (widen F (half b e))).add (widen F (half c e)))

end Sys2Proof.Machine
end

