-- ==== Sys2Proof/Machine/Convert.lean ====
section
/-! DEFINITION. The conversion and scaling group but for sacc (R199–R203). -/

namespace Sys2Proof.Machine

/-! ## cvt (R200, R201) -/

/-- Puts 16 bits into the half that HALF names. -/
def putHalf (old : Word) (hi : Bool) (h : Nat) : Word :=
  if hi then BitVec.ofNat 16 h ++ old.extractLsb' 0 16 else old.extractLsb' 16 16 ++ BitVec.ofNat 16 h
/-- The half that HALF names. -/
def getHalf (x : Word) (hi : Bool) : Nat := half x (if hi then 1 else 0)
/-- BF16 or FP16 to FP32: exact, no flag. -/
def cvtUp (f : FpFmt) (h : Nat) : Word := match widen f h with
  | .nan => canon32
  | .inf n => BitVec.ofNat 32 (roundTo fp32 .rn (.inf n)).1
  | .fin n m e => BitVec.ofNat 32 (roundTo fp32 .rn (.fin n m e)).1
/-- FP32 to an integer of n bits between lo and hi. -/
def cvtInt (rm : RM) (n : Nat) (lo hi : Int) (x : Word) : BitVec n × BitVec 8 := match fv x with
  | .nan => (0, flNV)
  | .inf neg => (BitVec.ofInt n (if neg then lo else hi), flNV)
  | .fin neg m e =>
    let r := roundInt rm neg m e
    if r.1 < lo then (BitVec.ofInt n lo, flNV)
    else if hi < r.1 then (BitVec.ofInt n hi, flNV)
    else (BitVec.ofInt n r.1, if r.2 then flNX else 0)
/-- An integer to FP32. -/
def cvtFromInt (rm : RM) (x : Int) : Word × BitVec 8 :=
  let r := roundTo fp32 rm (FV.ofInt x)
  (BitVec.ofNat 32 r.1, r.2)
/-- Whether a pair reads, or writes, a 64-bit operand. -/
def cvtSrc64 (p : CvtPair) : Bool := p == .s64_f32
def cvtDst64 (p : CvtPair) : Bool := p == .f32_s64
/-- R201: the result in the low half, or the whole pair, from the source and the old destination. -/
def cvtVal (p : CvtPair) (hi : Bool) (rm : RM) (x old : DWord) : DWord × BitVec 8 :=
  let w : Word := x.setWidth 32
  match p with
  | .bf16_f32 => ((cvtUp bf16 (getHalf w hi)).setWidth 64, 0)
  | .f16_f32 => ((cvtUp fp16 (getHalf w hi)).setWidth 64, 0)
  | .f32_bf16 => let r := roundTo bf16 rm (fv w); wide (putHalf (old.setWidth 32) hi r.1, r.2)
  | .f32_f16 => let r := roundTo fp16 rm (fv w); wide (putHalf (old.setWidth 32) hi r.1, r.2)
  | .f32_s32 => wide (cvtInt rm 32 (-2 ^ 31) (2 ^ 31 - 1) w)
  | .f32_u32 => wide (cvtInt rm 32 0 (2 ^ 32 - 1) w)
  | .f32_s64 => cvtInt rm 64 (-2 ^ 63) (2 ^ 63 - 1) w
  | .s32_f32 => wide (cvtFromInt rm w.toInt)
  | .u32_f32 => wide (cvtFromInt rm w.toNat)
  | .s64_f32 => wide (cvtFromInt rm x.toInt)
/-- R201. -/
def execCvt (o : CvtOp) (s : State) : Result :=
  compute s o.c (vregs o.a (cvtSrc64 o.pair)) (vlatches o.a) (cvtDst64 o.pair) o.d (wordsOf o.lits) fun v _ l =>
    cvtVal o.pair o.hi o.rm (s.src v l (cvtSrc64 o.pair) o.c.lit o.a) (s.old v l false o.d)

/-! ## The quantise forms (R202) and dqnt (R203) -/

/-- Replaces an element of a word. -/
def putElem (old : Word) (bits pos code : Nat) : Word :=
  let m : Word := BitVec.ofNat 32 ((2 ^ bits - 1) * 2 ^ (bits * pos))
  (old &&& ~~~m) ||| (BitVec.ofNat 32 (code * 2 ^ (bits * pos)) &&& m)
/-- R202. -/
def quantise (s : State) (o : QntOp) (q : QFmt) : Result :=
  let ls := lits o.c.lit o.a.isLit o.scale.isLit false
  compute s o.c (vregs o.a false ++ vregs o.scale false) (vlatches o.a ++ vlatches o.scale) false o.d (wordsOf o.lits) fun v _ l =>
    let r := narrowTo q o.rm ((fv (s.src32 v l ls.1 o.a)).mul (fv (s.src32 v l ls.2.1 o.scale)))
    wide (putElem ((s.old v l false o.d).setWidth 32) (elemBits q) o.pos.toNat r.1, r.2)
/-- R202. -/
def execQntE4m3 (o : QntOp) (s : State) : Result := quantise s o .e4m3
/-- R202. -/
def execQntE5m2 (o : QntOp) (s : State) : Result := quantise s o .e5m2
/-- R202, R34. -/
def execQntE2m1 (o : QntOp) (s : State) : Result := quantise s o .e2m1
/-- R202. -/
def execQntI8 (o : QntOp) (s : State) : Result := quantise s o .i8
/-- R202. -/
def execQntT2 (o : QntOp) (s : State) : Result := quantise s o .t2
/-- R203: TRV of the element stands beside the flags of the product. -/
def execDqnt (o : DqntOp) (s : State) : Result :=
  let ls := lits o.c.lit o.a.isLit o.scale.isLit false
  compute s o.c (vregs o.a false ++ vregs o.scale false) (vlatches o.a ++ vlatches o.scale) false o.d (wordsOf o.lits) fun v _ l =>
    let x := (s.src32 v l ls.1 o.a).toNat / 2 ^ (elemBits o.fmt * o.pos.toNat) % 2 ^ elemBits o.fmt
    let e := elemVal o.fmt x
    let r := rne (e.1.mul (fv (s.src32 v l ls.2.1 o.scale)))
    wide (r.1, r.2 ||| e.2)

end Sys2Proof.Machine
end

