-- ==== Sys2Proof/Machine/CrossLane.lean ====
section
/-! DEFINITION. The cross-lane group (R206–R214). -/

namespace Sys2Proof.Machine

/-! ## Values of other positions (R206) -/

/-- A V source at any position that holds a fibre; a register outside that fibre's window contributes 0. -/
def State.valueAt (s : State) (v : Convoy) (lit : DWord) (a : VSrc) (x : Nat) : Option Word :=
  match (v.at_ x).bind fun i => (tget s.fibres i).map fun f => (i, f) with
  | none => none
  | some (i, f) => match a with
    | .v n => if n.toNat < f.wsize then some (s.rdV f n.toNat) else some 0
    | _ => some (s.src32 v ⟨x, i, f⟩ lit a)

/-! ## shfl, ballot, vote, bcast (R207–R210) -/

/-- The source position of shfl. -/
def shflSrc (m : ShflMode) (len x k : Nat) : Nat :=
  let base := x / len * len
  match m with
  | .at => base + k % len
  | .rot => base + (x - base + len - k % len) % len
  | .swap => base + ((x - base) ^^^ (k % len))
  | .rev => base + (len - 1 - (x - base))
/-- What shfl delivers to a lane. -/
def State.shflValue (s : State) (v : Convoy) (o : ShflOp) (l : Ln) : DWord :=
  let ls := lits o.c.lit o.a.isLit o.b.isLit false
  let k := (s.src32 v l ls.2.1 o.b).toNat
  ((s.valueAt v ls.1 o.a (shflSrc o.mode (4 * 2 ^ o.grp.toNat) l.pos k)).getD (s.src32 v l ls.1 o.a)).setWidth 64
/-- Holds a word that reads the registers of every position (R178, R206), else performs it. -/
def State.orHeld (s : State) (i : Nat) (v : Convoy) (rs : List (Addr × Addr × Bool)) (k : State) : State :=
  if s.rangesHeld (coreOf v.spn) rs then s.hold i (.access (coreOf v.spn) rs) else k
/-- R207. -/
def execShfl (o : ShflOp) (s : State) : Result :=
  issue s o.c (vregs o.a false ++ vregs o.b false ++ dregs o.d false) (vlatches o.a ++ vlatches o.b) fun i v act =>
    s.orHeld i v (s.otherRanges v (vregs o.a false))
      ((s.dsts i false o.d (act.map fun l => (l, s.shflValue v o l))).advance i (wordsOf o.lits))
/-- R208: the mask of an octet for the lane at position p. -/
def ballotMask (act : List Ln) (pr : BitVec 3) (part : Part) (p : Nat) : Nat :=
  let g := p / 32 * 32
  (act.filterMap fun m =>
    if g ≤ m.pos && decide (m.pos < g + 32) && m.f.rdP pr && (match part with
      | .whole => true
      | .below => decide (m.pos < p)
      | .above => decide (p < m.pos)) then some (2 ^ (m.pos - g)) else none).foldl (· + ·) 0
/-- R208. -/
def execBallot (o : BallotOp) (s : State) : Result :=
  compute s o.c [] [] false o.d 1 fun _ act l => (BitVec.ofNat 64 (ballotMask act o.p o.part l.pos), 0)
/-- The tests of R209 on the count c1 of a active lanes. -/
def voteTest (u : Unif) (lit : DWord) (m : VoteMode) (a c1 : Nat) : Bool := match m with
  | .none => decide (c1 = 0)
  | .some => decide (1 ≤ c1)
  | .every => decide (c1 = a)
  | .same => decide (c1 = 0 ∨ c1 = a)
  | .most => decide (a < 2 * c1)
  | .quorum x => decide ((sval u lit x).toNat ≤ c1)
/-- R209. -/
def execVote (o : VoteOp) (s : State) : Result :=
  issue s o.c [] [] fun i v act =>
    let c1 := (act.filter fun l => l.f.rdP o.p).length
    (s.wrQ i o.q (voteTest v.u o.c.lit o.mode act.length c1)).advance i (wordsOf o.lits)
/-- R210. -/
def execBcast (o : BcastOp) (s : State) : Result :=
  issue s o.c (vregs o.a false) (vlatches o.a) fun i v act =>
    let n := wordsOf o.lits
    if o.first then
      match act.head? with
      | some l => (s.wrS i o.sd.toNat (s.src32 v l o.c.lit o.a)).advance i n
      | none => s.advance i n
    else s.orHeld i v (s.otherRanges v (vregs o.a false))
      ((s.wrS i o.sd.toNat ((s.valueAt v o.c.lit o.a o.pos.toNat).getD 0)).advance i n)

/-! ## red and scan (R40–R43, R211, R212) -/

/-- A value in a tree, and whether it was formed from identities alone. -/
structure Term where
  x : Word
  idn : Bool
  deriving DecidableEq, Repr
/-- The identity of an operation (R40, R211). -/
def redIdentity : RedFn → Word
  | .fadd => 0x80000000
  | .iadd => 0
  | .fmin => 0x7F800000
  | .fmax => 0xFF800000
  | .smin => 0x7FFFFFFF
  | .smax => 0x80000000
  | .umin => 0xFFFFFFFF
  | .umax => 0
  | .and => 0xFFFFFFFF
  | .or => 0
  | .xor => 0
/-- FP min or max where an identity never displaces a NaN (R41). -/
def redMinMax (mx : Bool) (a b : Term) : Word × BitVec 8 :=
  if (a.idn && (fv b.x).isNan) || (b.idn && (fv a.x).isNan) then (canon32, flNV) else fminmax mx a.x b.x
/-- One step of a tree or a prefix. -/
def redStep (fn : RedFn) (a b : Term) : Word × BitVec 8 := match fn with
  | .fadd => fadd32 a.x b.x
  | .iadd => (a.x + b.x, 0)
  | .fmin => redMinMax false a b
  | .fmax => redMinMax true a b
  | .smin => (if a.x.toInt ≤ b.x.toInt then a.x else b.x, 0)
  | .smax => (if a.x.toInt ≤ b.x.toInt then b.x else a.x, 0)
  | .umin => (if a.x.toNat ≤ b.x.toNat then a.x else b.x, 0)
  | .umax => (if a.x.toNat ≤ b.x.toNat then b.x else a.x, 0)
  | .and => (a.x &&& b.x, 0)
  | .or => (a.x ||| b.x, 0)
  | .xor => (a.x ^^^ b.x, 0)
/-- The combination of two terms with the flags so far. -/
def redJoin (fn : RedFn) (a b : Term) : Term × BitVec 8 := let r := redStep fn a b; (⟨r.1, a.idn && b.idn⟩, r.2)
/-- One level of the tree: neighbours join, the lower position on the left. -/
def redLevel (fn : RedFn) : List Term → List Term × BitVec 8
  | a :: b :: r =>
    let j := redJoin fn a b
    let t := redLevel fn r
    (j.1 :: t.1, j.2 ||| t.2)
  | [a] => ([a], 0)
  | [] => ([], 0)
/-- Levels of the tree. -/
def redTree (fn : RedFn) : Nat → List Term × BitVec 8 → List Term × BitVec 8
  | 0, x => x
  | n + 1, x => let y := redLevel fn x.1; redTree fn n (y.1, x.2 ||| y.2)
/-- Whether a reduction works on FP32 values. -/
def redFp : RedFn → Bool
  | .fadd => true
  | .fmin => true
  | .fmax => true
  | _ => false
/-- A prefix as it is delivered: a NaN as the canonical one, also where no step has joined it with another value (R26; log entry 72). -/
def scanOut (fn : RedFn) (x : Word) : Word := if redFp fn && (fv x).isNan then canon32 else x
/-- One prefix step at distance d (R42). -/
def scanStep (fn : RedFn) (d : Nat) (x : List Term × BitVec 8) : List Term × BitVec 8 :=
  let nil : Term := ⟨redIdentity fn, true⟩
  let r := (List.range x.1.length).map fun p =>
    if p < d then (x.1.getD p nil, 0) else redJoin fn (x.1.getD (p - d) nil) (x.1.getD p nil)
  (r.map (·.1), x.2 ||| orFlags (r.map (·.2)))
/-- The 64 terms of group g: active values, else identities (R40). -/
def State.terms (s : State) (v : Convoy) (act : List Ln) (lit : DWord) (fn : RedFn) (a : VSrc) (g : Nat) : List Term :=
  (List.range 64).map fun p => match act.find? fun l => l.pos == 64 * g + p with
    | some l => ⟨s.src32 v l lit a, false⟩
    | none => ⟨redIdentity fn, true⟩
/-- The groups that have an active position, each with its delivered values by position and its flags. -/
def groupsOf (v : Convoy) (act : List Ln) (f : Nat → List Word × BitVec 8) : List (Nat × List Word × BitVec 8) :=
  ((List.range (ceilDiv v.positions 64)).filter fun g => act.any fun l => l.pos / 64 == g).map fun g => (g, f g)
/-- A group's value for each active lane, and all flags. -/
def redResult (gs : List (Nat × List Word × BitVec 8)) (l : Ln) : DWord × BitVec 8 :=
  match gs.find? fun g => g.1 == l.pos / 64 with
  | some g => ((g.2.1.getD (l.pos % 64) 0).setWidth 64, g.2.2)
  | none => (0, 0)
/-- R212: the tree of each group, delivered to every active lane. -/
def execRed (o : RedOp) (s : State) : Result :=
  issue s o.c (vregs o.a false ++ dregs o.d false) (vlatches o.a) fun i v act =>
    let gs := groupsOf v act fun g =>
      let r := redTree o.fn 6 (s.terms v act o.c.lit o.fn o.a g, 0)
      (List.replicate 64 (r.1.headD ⟨0, true⟩).x, r.2)
    let r := act.map fun l => (l, redResult gs l)
    ((s.dsts i false o.d (r.map fun x => (x.1, x.2.1))).setFlags i (orFlags (r.map fun x => x.2.2))).advance i (wordsOf o.lits)
/-- R212: the prefixes of each group; the exclusive form shifts them by one position. -/
def execScan (o : RedOp) (s : State) : Result :=
  issue s o.c (vregs o.a false ++ dregs o.d false) (vlatches o.a) fun i v act =>
    let gs := groupsOf v act fun g =>
      let r := [1, 2, 4, 8, 16, 32].foldl (fun x d => scanStep o.fn d x) (s.terms v act o.c.lit o.fn o.a g, 0)
      let xs := r.1.map fun x => scanOut o.fn x.x
      (if o.excl then redIdentity o.fn :: xs else xs, r.2)
    let r := act.map fun l => (l, redResult gs l)
    ((s.dsts i false o.d (r.map fun x => (x.1, x.2.1))).setFlags i (orFlags (r.map fun x => x.2.2))).advance i (wordsOf o.lits)

/-! ## cmpst and expld (R213, R214, R409) -/

/-- The words of cmpst in order from word n: each checked and written; a refusal ends it with the words before it written. -/
def State.cmpstWords (s : State) (c : Nat) (v : Convoy) (k : Cap) (o : Nat) : List (Nat × Word) → Nat → State × Bool
  | [], _ => (s, true)
  | (p, x) :: xs, n =>
    let a := k.lo + o + 4 * n
    match s.scratch (coreOf v.spn) (s.colourOf v) k (o + 4 * n) 4 permSt, decide (a % 4 = 0) with
    | none, true => (s.storeBy v.spn ((v.at_ p).getD 0) a (leBytes 4 x.toNat)).cmpstWords c v k o xs (n + 1)
    | _, false => (s.refuse c 0x022 p a n, false)
    | some b, true => (s.refuse c b.1 p a n, false)
/-- R213. The words that will be written wait for the scoreboard and the undo log first. -/
def execCmpst (o : CmpstOp) (s : State) : Result :=
  let ls := lits o.c.lit o.a.isLit false o.so.isLit
  issue s o.c (vregs o.a false) (vlatches o.a) fun i v act =>
    let k := v.u.rdK o.ks.toNat
    let off := (sval v.u ls.2.2 o.so).toNat + o.off.toNat
    let rs := act.mapIdx fun n _ => (k.lo + off + 4 * n, k.lo + off + 4 * n + 4, true)
    if s.rangesHeld (coreOf v.spn) rs then s.hold i (.access (coreOf v.spn) rs)
    else if !s.logRoom (linesOf (k.lo + off) (4 * act.length)) v.spn 0 then s.holdLog i ((act.head?.map (·.pos)).getD 0)
    else
      let r := s.cmpstWords i v k off (act.map fun l => (l.pos, s.src32 v l ls.1 o.a)) 0
      if r.2 then ((r.1.wrS i o.sd.toNat (BitVec.ofNat 32 act.length)).advance i (wordsOf o.lits)).wakeAll rs else r.1
/-- R214: every word is checked as one access before any lane is written. -/
def execExpld (o : ExpldOp) (s : State) : Result :=
  issue s o.c (dregs o.d false) [] fun i v act =>
    let k := v.u.rdK o.ks.toNat
    let off := (sval v.u o.c.lit o.so).toNat + o.off.toNat
    let a := k.lo + off
    let n := 4 * act.length
    if act.isEmpty then s.advance i (wordsOf o.lits)
    else match misaligned a 4 (s.scratch (coreOf v.spn) (s.colourOf v) k off n permLd) with
      | some b => s.refuse i b.1 ((act.head?.map (·.pos)).getD 0) b.2 0
      | none =>
        let rs := [(a, a + n, false)]
        if s.rangesHeld (coreOf v.spn) rs then s.hold i (.access (coreOf v.spn) rs)
        else ((s.dsts i false o.d (act.mapIdx fun j l => (l, BitVec.ofNat 64 (s.seenNat (some l.id) (a + 4 * j) 4)))).advance i
          (wordsOf o.lits)).wakeAll rs

end Sys2Proof.Machine
end

