-- ==== Sys2Proof/Machine/Int.lean ====
section
/-! DEFINITION. The integer group (R181–R189). -/

namespace Sys2Proof.Machine

/-! ## Values of N bits -/

/-- A function of N-bit values applied at N = 64 or 32; a 32-bit value stands in the low half. -/
def atN (w64 : Bool) (f : (n : Nat) → BitVec n → BitVec n → BitVec n) (a b : DWord) : DWord :=
  if w64 then f 64 a b else (f 32 (a.setWidth 32) (b.setWidth 32)).setWidth 64
/-- The integer an N-bit value encodes (R175, Int and Uint). -/
def intOf (n : Nat) (u : Bool) (a : BitVec n) : Int := if u then a.toNat else a.toInt
/-- Saturate to the N-bit range (R183). -/
def satN (n : Nat) (u : Bool) (x : Int) : BitVec n :=
  if u then BitVec.ofInt n (max 0 (min x (2 ^ n - 1))) else BitVec.ofInt n (max (-2 ^ (n - 1)) (min x (2 ^ (n - 1) - 1)))
/-- An exact result wrapped, or saturated under SAT. -/
def wrapSat (n : Nat) (sat u : Bool) (x : Int) : BitVec n := if sat then satN n u x else BitVec.ofInt n x

/-! ## Shapes of the forms -/

/-- A two-operand form (R183); `wb` tells whether operand B is a pair in a .64 form. -/
def intBin (s : State) (o : IBin) (w64 wb : Bool) (f : DWord → DWord → DWord) : Result :=
  let ls := lits o.c.lit o.a.isLit o.b.isLit false
  compute s o.c (vregs o.a w64 ++ bregs o.b (w64 && wb)) (vlatches o.a ++ blatches o.b) w64 o.d (wordsOf o.lits) fun v _ l =>
    (f (s.src v l w64 ls.1 o.a) (s.bsrc v l (w64 && wb) ls.2.1 o.b), 0)
/-- A one-operand form (R186); `wd` tells whether the destination is a pair. -/
def intUn (s : State) (o : IUn) (w64 wd : Bool) (f : DWord → DWord) : Result :=
  compute s o.c (vregs o.a w64) (vlatches o.a) wd o.d (wordsOf o.lits) fun v _ l => (f (s.src v l w64 o.c.lit o.a), 0)
/-- imad (R184). -/
def intMad (s : State) (o : IMad) (w64 : Bool) : Result :=
  let ls := lits o.c.lit o.a.isLit o.b.isLit o.e.isLit
  let f (n : Nat) (a b c : BitVec n) : BitVec n :=
    wrapSat n o.sat o.u (intOf n o.u a * intOf n o.u b + intOf n o.u c)
  compute s o.c (vregs o.a w64 ++ bregs o.b w64 ++ vregs o.e w64) (vlatches o.a ++ blatches o.b ++ vlatches o.e) w64 o.d
    (wordsOf o.lits) fun v _ l =>
      let a := s.src v l w64 ls.1 o.a
      let b := s.bsrc v l w64 ls.2.1 o.b
      let c := s.src v l w64 ls.2.2 o.e
      (if w64 then f 64 a b c else (f 32 (a.setWidth 32) (b.setWidth 32) (c.setWidth 32)).setWidth 64, 0)
/-- bfx and bfi (R187): `f` takes the operand, the old destination, P and W. -/
def intField (s : State) (o : IBf) (w64 : Bool) (f : DWord → DWord → Nat → Nat → DWord) : Result :=
  let ls := lits o.c.lit o.a.isLit o.pos.isLit o.wid.isLit
  compute s o.c (vregs o.a w64 ++ vregs o.pos false ++ vregs o.wid false) (vlatches o.a ++ vlatches o.pos ++ vlatches o.wid) w64
    o.d (wordsOf o.lits) fun v _ l =>
      (f (s.src v l w64 ls.1 o.a) (s.old v l w64 o.d) (s.src32 v l ls.2.1 o.pos).toNat (s.src32 v l ls.2.2 o.wid).toNat, 0)
/-- sel (R188). -/
def intSel (s : State) (o : ISel) (w64 : Bool) : Result :=
  let ls := lits o.c.lit o.a.isLit o.b.isLit false
  compute s o.c (vregs o.a w64 ++ vregs o.b w64) (vlatches o.a ++ vlatches o.b) w64 o.d (wordsOf o.lits) fun v _ l =>
    (if l.f.rdP o.p then s.src v l w64 ls.1 o.a else s.src v l w64 ls.2.1 o.b, 0)
/-- A relation of icmp. -/
def icmpRel (cc : ICC) (a b : Int) : Bool := match cc with
  | .eq => decide (a = b)
  | .ne => decide (a ≠ b)
  | .lt => decide (a < b)
  | .le => decide (a ≤ b)
  | .gt => decide (b < a)
  | .ge => decide (b ≤ a)
/-- icmp (R189). -/
def intCmp (s : State) (o : ICmp) (w64 : Bool) : Result :=
  let ls := lits o.c.lit o.a.isLit o.b.isLit false
  computeP s o.c (vregs o.a w64 ++ bregs o.b w64) (vlatches o.a ++ blatches o.b) o.p (wordsOf o.lits) fun v l =>
    let a := s.src v l w64 ls.1 o.a
    let b := s.bsrc v l w64 ls.2.1 o.b
    (if w64 then icmpRel o.cc (intOf 64 o.u a) (intOf 64 o.u b)
     else icmpRel o.cc (intOf 32 o.u (a.setWidth 32)) (intOf 32 o.u (b.setWidth 32)), 0)
/-- movi (R188). -/
def intMovi (s : State) (o : IMovi) (w64 : Bool) : Result :=
  let x := if o.imm = 0x10_0000 then (if w64 then o.c.lit else (o.c.lit.setWidth 32).setWidth 64)
           else if w64 then o.imm.signExtend 64 else (o.imm.signExtend 32).setWidth 64
  compute s o.c [] [] w64 o.d (wordsOf (decide (o.imm = 0x10_0000))) fun _ _ _ => (x, 0)

/-! ## Functions of the table of R183 -/

/-- imulh: bits 2N−1:N of the exact product. -/
def mulHigh (n : Nat) (u : Bool) (a b : BitVec n) : BitVec n := BitVec.ofInt n (intOf n u a * intOf n u b / 2 ^ n)
/-- idiv (R185). -/
def divN (n : Nat) (u : Bool) (a b : BitVec n) : BitVec n :=
  if b = 0 then BitVec.allOnes n else BitVec.ofInt n (Int.tdiv (intOf n u a) (intOf n u b))
/-- irem (R185). -/
def remN (n : Nat) (u : Bool) (a b : BitVec n) : BitVec n :=
  if b = 0 then a else BitVec.ofInt n (Int.tmod (intOf n u a) (intOf n u b))
def minN (n : Nat) (u : Bool) (a b : BitVec n) : BitVec n := if intOf n u a ≤ intOf n u b then a else b
def maxN (n : Nat) (u : Bool) (a b : BitVec n) : BitVec n := if intOf n u a ≤ intOf n u b then b else a
/-- The shift amount b mod N. -/
def amount (n : Nat) (b : BitVec n) : Nat := b.toNat % n
/-- The number of 1 bits. -/
def onesOf (n : Nat) (a : BitVec n) : Nat := ((List.range n).filter fun i => a.getLsbD i).length
/-- The number of leading 0 bits. -/
def leadZeros (n : Nat) (a : BitVec n) : Nat := (((List.range n).find? fun i => a.getLsbD (n - 1 - i))).getD n
/-- The number of trailing 0 bits. -/
def trailZeros (n : Nat) (a : BitVec n) : Nat := ((List.range n).find? fun i => a.getLsbD i).getD n
/-- The width of a field once cut at bit N−1, 0 when it is empty (R187). -/
def fieldWidth (n p w : Nat) : Nat := if p ≥ n then 0 else min w (n - p)
/-- bfx. -/
def fieldGet (n : Nat) (u : Bool) (a : BitVec n) (p w : Nat) : BitVec n :=
  let k := fieldWidth n p w
  if k = 0 then 0 else if u then (a.extractLsb' p k).setWidth n else (a.extractLsb' p k).signExtend n
/-- bfi. -/
def fieldPut (n : Nat) (a d : BitVec n) (p w : Nat) : BitVec n :=
  let m := BitVec.ofNat n ((2 ^ fieldWidth n p w - 1) * 2 ^ p)
  (d &&& ~~~m) ||| ((a <<< p) &&& m)
/-- A one-operand function at N = 64 or 32. -/
def atN1 (w64 : Bool) (f : (n : Nat) → BitVec n → BitVec n) (a : DWord) : DWord :=
  if w64 then f 64 a else (f 32 (a.setWidth 32)).setWidth 64
/-- A count of an N-bit operand, written as 32 bits. -/
def countN (w64 : Bool) (f : (n : Nat) → BitVec n → Nat) (a : DWord) : DWord :=
  BitVec.ofNat 64 (if w64 then f 64 a else f 32 (a.setWidth 32))

/-! ## The forms -/
/-- R183. -/
def execIadd (o : IBin) (s : State) : Result :=
  intBin s o false true (atN false fun n a b => wrapSat n o.sat o.u (intOf n o.u a + intOf n o.u b))
/-- R183. -/
def execIadd64 (o : IBin) (s : State) : Result :=
  intBin s o true true (atN true fun n a b => wrapSat n o.sat o.u (intOf n o.u a + intOf n o.u b))
/-- R183. -/
def execIsub (o : IBin) (s : State) : Result :=
  intBin s o false true (atN false fun n a b => wrapSat n o.sat o.u (intOf n o.u a - intOf n o.u b))
/-- R183. -/
def execIsub64 (o : IBin) (s : State) : Result :=
  intBin s o true true (atN true fun n a b => wrapSat n o.sat o.u (intOf n o.u a - intOf n o.u b))
/-- R183. -/
def execImul (o : IBin) (s : State) : Result :=
  intBin s o false true (atN false fun n a b => wrapSat n o.sat o.u (intOf n o.u a * intOf n o.u b))
/-- R183. -/
def execImul64 (o : IBin) (s : State) : Result :=
  intBin s o true true (atN true fun n a b => wrapSat n o.sat o.u (intOf n o.u a * intOf n o.u b))
/-- R183. -/
def execImulh (o : IBin) (s : State) : Result :=
  intBin s o false true (atN false fun n a b => mulHigh n o.u a b)
/-- R183. -/
def execImulh64 (o : IBin) (s : State) : Result :=
  intBin s o true true (atN true fun n a b => mulHigh n o.u a b)
/-- R184. -/
def execImad (o : IMad) (s : State) : Result := intMad s o false
/-- R184. -/
def execImad64 (o : IMad) (s : State) : Result := intMad s o true
/-- R185. -/
def execIdiv (o : IBin) (s : State) : Result :=
  intBin s o false true (atN false fun n a b => divN n o.u a b)
/-- R185. -/
def execIdiv64 (o : IBin) (s : State) : Result :=
  intBin s o true true (atN true fun n a b => divN n o.u a b)
/-- R185. -/
def execIrem (o : IBin) (s : State) : Result :=
  intBin s o false true (atN false fun n a b => remN n o.u a b)
/-- R185. -/
def execIrem64 (o : IBin) (s : State) : Result :=
  intBin s o true true (atN true fun n a b => remN n o.u a b)
/-- R186. -/
def execIabs (o : IUn) (s : State) : Result := intUn s o false false (atN1 false fun n a => wrapSat n o.sat false a.toInt.natAbs)
/-- R186. -/
def execIabs64 (o : IUn) (s : State) : Result := intUn s o true true (atN1 true fun n a => wrapSat n o.sat false a.toInt.natAbs)
/-- R186. -/
def execIneg (o : IUn) (s : State) : Result := intUn s o false false (atN1 false fun n a => wrapSat n o.sat false (-a.toInt))
/-- R186. -/
def execIneg64 (o : IUn) (s : State) : Result := intUn s o true true (atN1 true fun n a => wrapSat n o.sat false (-a.toInt))
/-- R183. -/
def execImin (o : IBin) (s : State) : Result :=
  intBin s o false true (atN false fun n a b => minN n o.u a b)
/-- R183. -/
def execImin64 (o : IBin) (s : State) : Result :=
  intBin s o true true (atN true fun n a b => minN n o.u a b)
/-- R183. -/
def execImax (o : IBin) (s : State) : Result :=
  intBin s o false true (atN false fun n a b => maxN n o.u a b)
/-- R183. -/
def execImax64 (o : IBin) (s : State) : Result :=
  intBin s o true true (atN true fun n a b => maxN n o.u a b)
/-- R183. -/
def execAndOp (o : IBin) (s : State) : Result :=
  intBin s o false true (atN false fun _ a b => a &&& b)
/-- R183. -/
def execAndOp64 (o : IBin) (s : State) : Result :=
  intBin s o true true (atN true fun _ a b => a &&& b)
/-- R183. -/
def execOrOp (o : IBin) (s : State) : Result :=
  intBin s o false true (atN false fun _ a b => a ||| b)
/-- R183. -/
def execOrOp64 (o : IBin) (s : State) : Result :=
  intBin s o true true (atN true fun _ a b => a ||| b)
/-- R183. -/
def execXorOp (o : IBin) (s : State) : Result :=
  intBin s o false true (atN false fun _ a b => a ^^^ b)
/-- R183. -/
def execXorOp64 (o : IBin) (s : State) : Result :=
  intBin s o true true (atN true fun _ a b => a ^^^ b)
/-- R183. -/
def execAndn (o : IBin) (s : State) : Result :=
  intBin s o false true (atN false fun _ a b => a &&& ~~~b)
/-- R183. -/
def execAndn64 (o : IBin) (s : State) : Result :=
  intBin s o true true (atN true fun _ a b => a &&& ~~~b)
/-- R186. -/
def execNotOp (o : IUn) (s : State) : Result := intUn s o false false (atN1 false fun _ a => ~~~a)
/-- R186. -/
def execNotOp64 (o : IUn) (s : State) : Result := intUn s o true true (atN1 true fun _ a => ~~~a)
/-- R183. The amount is 32 bits wide in both forms. -/
def execShl (o : IBin) (s : State) : Result :=
  intBin s o false false (atN false fun n a b => a <<< amount n b)
/-- R183. The amount is 32 bits wide in both forms. -/
def execShl64 (o : IBin) (s : State) : Result :=
  intBin s o true false (atN true fun n a b => a <<< amount n b)
/-- R183. -/
def execShr (o : IBin) (s : State) : Result :=
  intBin s o false false (atN false fun n a b => a >>> amount n b)
/-- R183. -/
def execShr64 (o : IBin) (s : State) : Result :=
  intBin s o true false (atN true fun n a b => a >>> amount n b)
/-- R183. -/
def execSar (o : IBin) (s : State) : Result :=
  intBin s o false false (atN false fun n a b => a.sshiftRight (amount n b))
/-- R183. -/
def execSar64 (o : IBin) (s : State) : Result :=
  intBin s o true false (atN true fun n a b => a.sshiftRight (amount n b))
/-- R183. -/
def execRol (o : IBin) (s : State) : Result :=
  intBin s o false false (atN false fun n a b => a.rotateLeft (amount n b))
/-- R183. -/
def execRol64 (o : IBin) (s : State) : Result :=
  intBin s o true false (atN true fun n a b => a.rotateLeft (amount n b))
/-- R186. The destination is 32 bits wide. -/
def execPopc (o : IUn) (s : State) : Result := intUn s o false false (countN false onesOf)
/-- R186. The destination is 32 bits wide. -/
def execPopc64 (o : IUn) (s : State) : Result := intUn s o true false (countN true onesOf)
/-- R186. The destination is 32 bits wide. -/
def execClz (o : IUn) (s : State) : Result := intUn s o false false (countN false leadZeros)
/-- R186. The destination is 32 bits wide. -/
def execClz64 (o : IUn) (s : State) : Result := intUn s o true false (countN true leadZeros)
/-- R186. The destination is 32 bits wide. -/
def execCtz (o : IUn) (s : State) : Result := intUn s o false false (countN false trailZeros)
/-- R186. The destination is 32 bits wide. -/
def execCtz64 (o : IUn) (s : State) : Result := intUn s o true false (countN true trailZeros)
/-- R186. -/
def execBrev (o : IUn) (s : State) : Result := intUn s o false false (atN1 false fun _ a => a.reverse)
/-- R186. -/
def execBrev64 (o : IUn) (s : State) : Result := intUn s o true true (atN1 true fun _ a => a.reverse)
/-- R187. -/
def execBfx (o : IBf) (s : State) : Result :=
  intField s o false fun a _ p w => (fieldGet 32 o.u (a.setWidth 32) p w).setWidth 64
/-- R187. -/
def execBfx64 (o : IBf) (s : State) : Result := intField s o true fun a _ p w => fieldGet 64 o.u a p w
/-- R187. -/
def execBfi (o : IBf) (s : State) : Result :=
  intField s o false fun a d p w => (fieldPut 32 (a.setWidth 32) (d.setWidth 32) p w).setWidth 64
/-- R187. -/
def execBfi64 (o : IBf) (s : State) : Result := intField s o true fun a d p w => fieldPut 64 a d p w
/-- R188. -/
def execSelOp (o : ISel) (s : State) : Result := intSel s o false
/-- R188. -/
def execSelOp64 (o : ISel) (s : State) : Result := intSel s o true
/-- R189. -/
def execIcmp (o : ICmp) (s : State) : Result := intCmp s o false
/-- R189. -/
def execIcmp64 (o : ICmp) (s : State) : Result := intCmp s o true
/-- R188. -/
def execMovOp (o : IUn) (s : State) : Result := intUn s o false false (atN1 false fun _ a => a)
/-- R188. -/
def execMovOp64 (o : IUn) (s : State) : Result := intUn s o true true (atN1 true fun _ a => a)
/-- R188. -/
def execMovi (o : IMovi) (s : State) : Result := intMovi s o false
/-- R188. -/
def execMovi64 (o : IMovi) (s : State) : Result := intMovi s o true

end Sys2Proof.Machine
end

