-- ==== Sys2Proof/Machine/LoopNest.lean ====
section
/-! DEFINITION. The loop-nest instruction (R161–R163, R279, R280), one element a step since it can be interrupted between any two,
and the repeat prefix (R158–R160, R406). -/

namespace Sys2Proof.Machine

/-! ## Elements -/

/-- Size(T). -/
def lnSize : LnTy → Nat
  | .f32 => 4
  | .i32 => 4
  | .bf16 => 2
  | .f16 => 2
/-- The floating format of a TYPE, none for i32. -/
def lnFmt : LnTy → Option FpFmt
  | .f32 => some fp32
  | .i32 => none
  | .bf16 => some bf16
  | .f16 => some fp16
/-- Which operands an OP reads: D, A, B (R279). -/
def lnReads : LnFn → Bool × Bool × Bool
  | .copy => (false, true, false)
  | .add => (false, true, true)
  | .sub => (false, true, true)
  | .mul => (false, true, true)
  | .min => (false, true, true)
  | .max => (false, true, true)
  | .mac => (true, true, true)
  | .accadd => (true, true, false)
  | .accmax => (true, true, false)
  | .accmin => (true, true, false)
/-- fmin and fmax of a format (R192). -/
def minmaxF (f : FpFmt) (mx : Bool) (a b : Nat) : Nat × BitVec 8 :=
  match (widen f a).isNan, (widen f b).isNan with
  | true, true => (f.canon, flNV)
  | true, false => (b, flNV)
  | false, true => (a, flNV)
  | false, false => (if fvBelow (widen f a) (widen f b) then (if mx then b else a) else (if mx then a else b), 0)
/-- The element effect in a floating format. -/
def lnFp (f : FpFmt) (fn : LnFn) (d a b : Nat) : Nat × BitVec 8 :=
  let v := widen f
  match fn with
  | .copy => (a, 0)
  | .add => roundTo f .rn ((v a).add (v b))
  | .sub => roundTo f .rn ((v a).add (v b).negate)
  | .mul => roundTo f .rn ((v a).mul (v b))
  | .min => minmaxF f false a b
  | .max => minmaxF f true a b
  | .mac => roundTo f .rn ((v d).add ((v a).mul (v b)))
  | .accadd => roundTo f .rn ((v d).add (v a))
  | .accmax => minmaxF f true d a
  | .accmin => minmaxF f false d a
/-- The element effect on INT32. -/
def lnInt (fn : LnFn) (d a b : Word) : Word := match fn with
  | .copy => a
  | .add => a + b
  | .sub => a - b
  | .mul => a * b
  | .min => if a.toInt ≤ b.toInt then a else b
  | .max => if a.toInt ≤ b.toInt then b else a
  | .mac => d + a * b
  | .accadd => d + a
  | .accmax => if d.toInt ≤ a.toInt then a else d
  | .accmin => if d.toInt ≤ a.toInt then d else a
/-- The element effect. -/
def lnApply (ty : LnTy) (fn : LnFn) (d a b : Nat) : Nat × BitVec 8 := match lnFmt ty with
  | some f => lnFp f fn d a b
  | none => ((lnInt fn (BitVec.ofNat 32 d) (BitVec.ofNat 32 a) (BitVec.ofNat 32 b)).toNat, 0)

/-! ## Visiting (R163) -/

/-- The number of elements. -/
def lnCount (o : LnestOp) : Nat := (o.levels.map fun l => l.ext.toNat + 1).foldl (· * ·) 1
/-- The signed element offset of element e, by the strides that `st` picks, level 0 fastest. -/
def lnOffset (st : LnLevel → BitVec 10) : List LnLevel → Nat → Int
  | [], _ => 0
  | l :: r, e => ((e % (l.ext.toNat + 1) : Nat) : Int) * (st l).toInt + lnOffset st r (e / (l.ext.toNat + 1))
/-- One access of an element: its address, and the code and ADDR of a refusal. A negative offset is out of bounds (R163), and ADDR is the
address it gives, of 52 bits (R424). -/
def State.lnAcc (s : State) (v : Convoy) (k : Cap) (off : Int) (n : Nat) (perms : BitVec 16) : Addr × Option (Nat × Addr) :=
  if off < 0 then
    let a := (((k.lo : Int) + off) % 2 ^ 52).toNat
    (a, misaligned a n ((s.scratch (coreOf v.spn) (s.colourOf v) k (2 ^ 64) n perms).map fun x => (x.1, a)))
  else
    let a := k.lo + off.toNat
    (a, misaligned a n (s.scratch (coreOf v.spn) (s.colourOf v) k off.toNat n perms))
/-- The refusal with the lowest code. -/
def lowestBad : List (Option (Nat × Addr)) → Option (Nat × Addr)
  | [] => none
  | none :: r => lowestBad r
  | some x :: r => match lowestBad r with
    | some y => if y.1 < x.1 then some y else some x
    | none => some x
/-- R163, R280: performs element LNCUR. -/
def execLnest (o : LnestOp) (s : State) : Result :=
  issueWide s fun i v _ =>
    let e := v.lncur.toNat
    let n := lnSize o.ty
    let off (r : BitVec 6) (st : LnLevel → BitVec 10) : Int := ((v.u.rd r.toNat).toNat : Int) + lnOffset st o.levels e * n
    let rd := lnReads o.fn
    let d := s.lnAcc v (v.u.rdK o.kd.toNat) (off o.od (·.sd)) n (if rd.1 then permLd ||| permSt else permSt)
    let a := s.lnAcc v (v.u.rdK o.ka.toNat) (off o.oa (·.sa)) n permLd
    let b := s.lnAcc v (v.u.rdK o.kb.toNat) (off o.ob (·.sb)) n permLd
    match lowestBad [a.2, if rd.2.2 then b.2 else none, d.2] with
    | some x => s.refuse i x.1 0 x.2 e
    | none =>
      let rs := (d.1, d.1 + n, true) :: (a.1, a.1 + n, false) :: (if rd.2.2 then [(b.1, b.1 + n, false)] else [])
      if s.rangesHeld (coreOf v.spn) rs then s.hold i (.access (coreOf v.spn) rs)
      else if !s.logRoom (linesOf d.1 n) v.spn 0 then s.holdLog i 0
      else
        let me := s.firstFibre v
        let get (x : Addr) : Nat := s.seenNat (some me) x n
        let r := lnApply o.ty o.fn (get d.1) (get a.1) (if rd.2.2 then get b.1 else 0)
        let s1 := ((s.storeBy v.spn me d.1 (leBytes n r.1)).setFlags i r.2).wakeAll rs
        if e + 1 < lnCount o then (s1.modConvoy i fun v => { v with lncur := BitVec.ofNat 32 (e + 1), wait := .run }).issued i
        else (s1.modConvoy i fun v => { v with lncur := 0 }).advance i 4

/-! ## rep (R158–R160) -/

/-- R159: the next word issues CNT + 1 times. Misuse raises ILLEGAL 0x018 before any issue (R406). -/
def execRepOp (o : RepOp) (s : State) : Result :=
  issueWide s fun i v _ =>
    match (tget s.wgs v.wg).map fun g => s.fetchWords g (v.hdr + 8 * (2 + v.wi)) (v.words - (v.wi + 1)) with
    | some (w :: ws) =>
      if repMisuse o w (ws.headD 0) then s.illegal i 0x018 0
      else (s.modConvoy i fun v => { v with rep := some o.enc, repcnt := 0, wi := v.wi + 1, wait := .run }).issued i
    | _ => s.trap i (fetchTrap v.hdr 0x211)

end Sys2Proof.Machine
end

