-- ==== Sys2Proof/Machine/Dispatch.lean ====
section
/-! DEFINITION. One arm for each constructor of Instr: one direct call of its meaning. -/

namespace Sys2Proof.Machine

/-- The meaning of every step of the machine. -/
def exec (i : Instr) (s : State) : Host.Outcome State Fault Refusal :=
  match i with
  | .iadd o => Sys2Proof.Machine.execIadd o s
  | .iadd64 o => Sys2Proof.Machine.execIadd64 o s
  | .isub o => Sys2Proof.Machine.execIsub o s
  | .isub64 o => Sys2Proof.Machine.execIsub64 o s
  | .imul o => Sys2Proof.Machine.execImul o s
  | .imul64 o => Sys2Proof.Machine.execImul64 o s
  | .imulh o => Sys2Proof.Machine.execImulh o s
  | .imulh64 o => Sys2Proof.Machine.execImulh64 o s
  | .imad o => Sys2Proof.Machine.execImad o s
  | .imad64 o => Sys2Proof.Machine.execImad64 o s
  | .idiv o => Sys2Proof.Machine.execIdiv o s
  | .idiv64 o => Sys2Proof.Machine.execIdiv64 o s
  | .irem o => Sys2Proof.Machine.execIrem o s
  | .irem64 o => Sys2Proof.Machine.execIrem64 o s
  | .iabs o => Sys2Proof.Machine.execIabs o s
  | .iabs64 o => Sys2Proof.Machine.execIabs64 o s
  | .ineg o => Sys2Proof.Machine.execIneg o s
  | .ineg64 o => Sys2Proof.Machine.execIneg64 o s
  | .imin o => Sys2Proof.Machine.execImin o s
  | .imin64 o => Sys2Proof.Machine.execImin64 o s
  | .imax o => Sys2Proof.Machine.execImax o s
  | .imax64 o => Sys2Proof.Machine.execImax64 o s
  | .andOp o => Sys2Proof.Machine.execAndOp o s
  | .andOp64 o => Sys2Proof.Machine.execAndOp64 o s
  | .orOp o => Sys2Proof.Machine.execOrOp o s
  | .orOp64 o => Sys2Proof.Machine.execOrOp64 o s
  | .xorOp o => Sys2Proof.Machine.execXorOp o s
  | .xorOp64 o => Sys2Proof.Machine.execXorOp64 o s
  | .andn o => Sys2Proof.Machine.execAndn o s
  | .andn64 o => Sys2Proof.Machine.execAndn64 o s
  | .notOp o => Sys2Proof.Machine.execNotOp o s
  | .notOp64 o => Sys2Proof.Machine.execNotOp64 o s
  | .shl o => Sys2Proof.Machine.execShl o s
  | .shl64 o => Sys2Proof.Machine.execShl64 o s
  | .shr o => Sys2Proof.Machine.execShr o s
  | .shr64 o => Sys2Proof.Machine.execShr64 o s
  | .sar o => Sys2Proof.Machine.execSar o s
  | .sar64 o => Sys2Proof.Machine.execSar64 o s
  | .rol o => Sys2Proof.Machine.execRol o s
  | .rol64 o => Sys2Proof.Machine.execRol64 o s
  | .popc o => Sys2Proof.Machine.execPopc o s
  | .popc64 o => Sys2Proof.Machine.execPopc64 o s
  | .clz o => Sys2Proof.Machine.execClz o s
  | .clz64 o => Sys2Proof.Machine.execClz64 o s
  | .ctz o => Sys2Proof.Machine.execCtz o s
  | .ctz64 o => Sys2Proof.Machine.execCtz64 o s
  | .brev o => Sys2Proof.Machine.execBrev o s
  | .brev64 o => Sys2Proof.Machine.execBrev64 o s
  | .bfx o => Sys2Proof.Machine.execBfx o s
  | .bfx64 o => Sys2Proof.Machine.execBfx64 o s
  | .bfi o => Sys2Proof.Machine.execBfi o s
  | .bfi64 o => Sys2Proof.Machine.execBfi64 o s
  | .selOp o => Sys2Proof.Machine.execSelOp o s
  | .selOp64 o => Sys2Proof.Machine.execSelOp64 o s
  | .icmp o => Sys2Proof.Machine.execIcmp o s
  | .icmp64 o => Sys2Proof.Machine.execIcmp64 o s
  | .movOp o => Sys2Proof.Machine.execMovOp o s
  | .movOp64 o => Sys2Proof.Machine.execMovOp64 o s
  | .movi o => Sys2Proof.Machine.execMovi o s
  | .movi64 o => Sys2Proof.Machine.execMovi64 o s
  | .fadd o => Sys2Proof.Machine.execFadd o s
  | .fsub o => Sys2Proof.Machine.execFsub o s
  | .fmul o => Sys2Proof.Machine.execFmul o s
  | .ffma o => Sys2Proof.Machine.execFfma o s
  | .fmin o => Sys2Proof.Machine.execFmin o s
  | .fmax o => Sys2Proof.Machine.execFmax o s
  | .fcmp o => Sys2Proof.Machine.execFcmp o s
  | .fclass o => Sys2Proof.Machine.execFclass o s
  | .ffloor o => Sys2Proof.Machine.execFfloor o s
  | .fceil o => Sys2Proof.Machine.execFceil o s
  | .ftrunc o => Sys2Proof.Machine.execFtrunc o s
  | .frint o => Sys2Proof.Machine.execFrint o s
  | .fscale o => Sys2Proof.Machine.execFscale o s
  | .frcp o => Sys2Proof.Machine.execFrcp o s
  | .frsq o => Sys2Proof.Machine.execFrsq o s
  | .fsqrt o => Sys2Proof.Machine.execFsqrt o s
  | .fex2 o => Sys2Proof.Machine.execFex2 o s
  | .flg2 o => Sys2Proof.Machine.execFlg2 o s
  | .fsin o => Sys2Proof.Machine.execFsin o s
  | .fcos o => Sys2Proof.Machine.execFcos o s
  | .ftanh o => Sys2Proof.Machine.execFtanh o s
  | .hadd2 o => Sys2Proof.Machine.execHadd2 o s
  | .hmul2 o => Sys2Proof.Machine.execHmul2 o s
  | .hfma2 o => Sys2Proof.Machine.execHfma2 o s
  | .cvt o => Sys2Proof.Machine.execCvt o s
  | .qntE4m3 o => Sys2Proof.Machine.execQntE4m3 o s
  | .qntE5m2 o => Sys2Proof.Machine.execQntE5m2 o s
  | .qntE2m1 o => Sys2Proof.Machine.execQntE2m1 o s
  | .qntI8 o => Sys2Proof.Machine.execQntI8 o s
  | .qntT2 o => Sys2Proof.Machine.execQntT2 o s
  | .dqnt o => Sys2Proof.Machine.execDqnt o s
  | .sacc o => Sys2Proof.Machine.execSacc o s
  | .saccV o => Sys2Proof.Machine.execSaccV o s
  | .shfl o => Sys2Proof.Machine.execShfl o s
  | .ballot o => Sys2Proof.Machine.execBallot o s
  | .vote o => Sys2Proof.Machine.execVote o s
  | .bcast o => Sys2Proof.Machine.execBcast o s
  | .red o => Sys2Proof.Machine.execRed o s
  | .scan o => Sys2Proof.Machine.execScan o s
  | .cmpst o => Sys2Proof.Machine.execCmpst o s
  | .expld o => Sys2Proof.Machine.execExpld o s
  | .ld o => Sys2Proof.Machine.execLd o s
  | .st o => Sys2Proof.Machine.execSt o s
  | .ldk o => Sys2Proof.Machine.execLdk o s
  | .stk o => Sys2Proof.Machine.execStk o s
  | .aadd o => Sys2Proof.Machine.execAadd o s
  | .amin o => Sys2Proof.Machine.execAmin o s
  | .amax o => Sys2Proof.Machine.execAmax o s
  | .aand o => Sys2Proof.Machine.execAand o s
  | .aor o => Sys2Proof.Machine.execAor o s
  | .axor o => Sys2Proof.Machine.execAxor o s
  | .axch o => Sys2Proof.Machine.execAxch o s
  | .acas o => Sys2Proof.Machine.execAcas o s
  | .fenceOp o => Sys2Proof.Machine.execFenceOp o s
  | .csub o => Sys2Proof.Machine.execCsub o s
  | .cperm o => Sys2Proof.Machine.execCperm o s
  | .cseal o => Sys2Proof.Machine.execCseal o s
  | .cunseal o => Sys2Proof.Machine.execCunseal o s
  | .cbale o => Sys2Proof.Machine.execCbale o s
  | .ctest o => Sys2Proof.Machine.execCtest o s
  | .cget o => Sys2Proof.Machine.execCget o s
  | .cnull o => Sys2Proof.Machine.execCnull o s
  | .cdeleg o => Sys2Proof.Machine.execCdeleg o s
  | .cpy o => Sys2Proof.Machine.execCpy o s
  | .cpyCmd o => Sys2Proof.Machine.execCpyCmd o s
  | .gat o => Sys2Proof.Machine.execGat o s
  | .sct o => Sys2Proof.Machine.execSct o s
  | .mmaE4m3 o => Sys2Proof.Machine.execMmaE4m3 o s
  | .mmaE5m2 o => Sys2Proof.Machine.execMmaE5m2 o s
  | .mmaE2m1 o => Sys2Proof.Machine.execMmaE2m1 o s
  | .mmaBf16 o => Sys2Proof.Machine.execMmaBf16 o s
  | .mmaI8 o => Sys2Proof.Machine.execMmaI8 o s
  | .mmaT8 o => Sys2Proof.Machine.execMmaT8 o s
  | .mmacE4m3 o => Sys2Proof.Machine.execMmacE4m3 o s
  | .mmacE5m2 o => Sys2Proof.Machine.execMmacE5m2 o s
  | .mmacE2m1 o => Sys2Proof.Machine.execMmacE2m1 o s
  | .mmacBf16 o => Sys2Proof.Machine.execMmacBf16 o s
  | .mmacI8 o => Sys2Proof.Machine.execMmacI8 o s
  | .mmacT8 o => Sys2Proof.Machine.execMmacT8 o s
  | .aclr o => Sys2Proof.Machine.execAclr o s
  | .ald o => Sys2Proof.Machine.execAld o s
  | .ast o => Sys2Proof.Machine.execAst o s
  | .clx o => Sys2Proof.Machine.execClx o s
  | .nmc o => Sys2Proof.Machine.execNmc o s
  | .gatm o => Sys2Proof.Machine.execGatm o s
  | .sig o => Sys2Proof.Machine.execSig o s
  | .wsig o => Sys2Proof.Machine.execWsig o s
  | .waitc o => Sys2Proof.Machine.execWaitc o s
  | .revoke o => Sys2Proof.Machine.execRevoke o s
  | .stage o => Sys2Proof.Machine.execStage o s
  | .wb o => Sys2Proof.Machine.execWb o s
  | .bra o => Sys2Proof.Machine.execBra o s
  | .brc o => Sys2Proof.Machine.execBrc o s
  | .brx o => Sys2Proof.Machine.execBrx o s
  | .callOp o => Sys2Proof.Machine.execCallOp o s
  | .calli o => Sys2Proof.Machine.execCalli o s
  | .ret c => Sys2Proof.Machine.execRet c s
  | .regionOp o => Sys2Proof.Machine.execRegionOp o s
  | .yieldOp c => Sys2Proof.Machine.execYieldOp c s
  | .fuse c => Sys2Proof.Machine.execFuse c s
  | .spawn o => Sys2Proof.Machine.execSpawn o s
  | .endOp c => Sys2Proof.Machine.execEndOp c s
  | .bar o => Sys2Proof.Machine.execBar o s
  | .grow o => Sys2Proof.Machine.execGrow o s
  | .shrink o => Sys2Proof.Machine.execShrink o s
  | .launchOp o => Sys2Proof.Machine.execLaunchOp o s
  | .qpush o => Sys2Proof.Machine.execQpush o s
  | .qpop o => Sys2Proof.Machine.execQpop o s
  | .qslots o => Sys2Proof.Machine.execQslots o s
  | .lnest o => Sys2Proof.Machine.execLnest o s
  | .repOp o => Sys2Proof.Machine.execRepOp o s
  | .nopOp c => Sys2Proof.Machine.execNopOp c s
  | .trapOp o => Sys2Proof.Machine.execTrapOp o s
  | .sysrd o => Sys2Proof.Machine.execSysrd o s
  | .syswr o => Sys2Proof.Machine.execSyswr o s
  | .unassignedOpcodeIssue w => Sys2Proof.Machine.execUnassignedOpcodeIssue w s
  | .clauseWaitMet c => Sys2Proof.Machine.execClauseWaitMet c s
  | .seraiLaunchFull k => Sys2Proof.Machine.execSeraiLaunchFull k s
  | .seraiTimer k => Sys2Proof.Machine.execSeraiTimer k s
  | .seraiLaunchDrained k => Sys2Proof.Machine.execSeraiLaunchDrained k s
  | .seraiLaunchCapacity spn => Sys2Proof.Machine.execSeraiLaunchCapacity spn s
  | .convoyAged c => Sys2Proof.Machine.execConvoyAged c s
  | .issueCounterRoom c => Sys2Proof.Machine.execIssueCounterRoom c s
  | .localAccessResume c => Sys2Proof.Machine.execLocalAccessResume c s
  | .engineAccept c => Sys2Proof.Machine.execEngineAccept c s
  | .commandBegin k => Sys2Proof.Machine.execCommandBegin k s
  | .blockTakeRetry k => Sys2Proof.Machine.execBlockTakeRetry k s
  | .copyComplete k fails => Sys2Proof.Machine.execCopyComplete k fails s
  | .gatherScatterComplete k fails => Sys2Proof.Machine.execGatherScatterComplete k fails s
  | .matrixComplete k => Sys2Proof.Machine.execMatrixComplete k s
  | .collectiveComplete k => Sys2Proof.Machine.execCollectiveComplete k s
  | .nearMemoryComplete k fails => Sys2Proof.Machine.execNearMemoryComplete k fails s
  | .atomicSignalComplete k => Sys2Proof.Machine.execAtomicSignalComplete k s
  | .wsigReread c => Sys2Proof.Machine.execWsigReread c s
  | .wsigTimeout c => Sys2Proof.Machine.execWsigTimeout c s
  | .waitcRelease c => Sys2Proof.Machine.execWaitcRelease c s
  | .fenceDone c => Sys2Proof.Machine.execFenceDone c s
  | .qpushRetry c => Sys2Proof.Machine.execQpushRetry c s
  | .qpopRetry c => Sys2Proof.Machine.execQpopRetry c s
  | .growGrant core => Sys2Proof.Machine.execGrowGrant core s
  | .growDeadlockEvict core => Sys2Proof.Machine.execGrowDeadlockEvict core s
  | .returnFrameTimeout c => Sys2Proof.Machine.execReturnFrameTimeout c s
  | .replayWaitExpiry c => Sys2Proof.Machine.execReplayWaitExpiry c s
  | .waybillPop die => Sys2Proof.Machine.execWaybillPop die s
  | .anvilSpecialiseDone l die => Sys2Proof.Machine.execAnvilSpecialiseDone l die s
  | .anvilBudgetExpiry l die => Sys2Proof.Machine.execAnvilBudgetExpiry l die s
  | .placement l => Sys2Proof.Machine.execPlacement l s
  | .stagingComplete w => Sys2Proof.Machine.execStagingComplete w s
  | .workgroupComplete w => Sys2Proof.Machine.execWorkgroupComplete w s
  | .wbackComplete w => Sys2Proof.Machine.execWbackComplete w s
  | .deadlineExpiry l => Sys2Proof.Machine.execDeadlineExpiry l s
  | .yieldRequest l => Sys2Proof.Machine.execYieldRequest l s
  | .yieldDeadlineExpiry w => Sys2Proof.Machine.execYieldDeadlineExpiry w s
  | .workgroupSaveDone w => Sys2Proof.Machine.execWorkgroupSaveDone w s
  | .workgroupRestore w => Sys2Proof.Machine.execWorkgroupRestore w s
  | .migrationStart w => Sys2Proof.Machine.execMigrationStart w s
  | .migrationRetry w => Sys2Proof.Machine.execMigrationRetry w s
  | .migrationComplete w => Sys2Proof.Machine.execMigrationComplete w s
  | .logfullExpiry c => Sys2Proof.Machine.execLogfullExpiry c s
  | .softError spn e => Sys2Proof.Machine.execSoftError spn e s
  | .hardFailure core => Sys2Proof.Machine.execHardFailure core s
  | .pseudoChannelSpare stack ch unreadable => Sys2Proof.Machine.execPseudoChannelSpare stack ch unreadable s
  | .sweepBeginTimer n => Sys2Proof.Machine.execSweepBeginTimer n s
  | .sweepEngineFinish die n => Sys2Proof.Machine.execSweepEngineFinish die n s
  | .passClose => Sys2Proof.Machine.execPassClose s
  | .recallReceive m => Sys2Proof.Machine.execRecallReceive m s
  | .recallAckReceive m n => Sys2Proof.Machine.execRecallAckReceive m n s
  | .passOpenTimer n => Sys2Proof.Machine.execPassOpenTimer n s
  | .baleReceive m => Sys2Proof.Machine.execBaleReceive m s
  | .remoteCommandReceive m => Sys2Proof.Machine.execRemoteCommandReceive m s
  | .remoteAccessReceive m => Sys2Proof.Machine.execRemoteAccessReceive m s
  | .departureNoticeReceive port x seq => Sys2Proof.Machine.execDepartureNoticeReceive port x seq s
  | .flitTagFail port colour => Sys2Proof.Machine.execFlitTagFail port colour s
  | .linkTraining port peer m => Sys2Proof.Machine.execLinkTraining port peer m s
  | .retrainTimeout port => Sys2Proof.Machine.execRetrainTimeout port s
  | .unreachableTimeout peer => Sys2Proof.Machine.execUnreachableTimeout peer s
  | .routemSwitch peer colour => Sys2Proof.Machine.execRoutemSwitch peer colour s
  | .bankSetIdleP1 g => Sys2Proof.Machine.execBankSetIdleP1 g s
  | .bankSetIdleP2 g => Sys2Proof.Machine.execBankSetIdleP2 g s
  | .bankSetWakeDone g => Sys2Proof.Machine.execBankSetWakeDone g s
  | .poolDirtyTimeout line => Sys2Proof.Machine.execPoolDirtyTimeout line s
  | .backInvalidateSnoop line => Sys2Proof.Machine.execBackInvalidateSnoop line s
  | .throttlePeriodEnd die => Sys2Proof.Machine.execThrottlePeriodEnd die s
  | .pageZeroFillDone page => Sys2Proof.Machine.execPageZeroFillDone page s
  | .scrubPage page => Sys2Proof.Machine.execScrubPage page s
  | .hostWriteReceive off bytes => Sys2Proof.Machine.execHostWriteReceive off bytes s
  | .hostReadReceive off n => Sys2Proof.Machine.execHostReadReceive off n s
  | .apertureAccess m => Sys2Proof.Machine.execApertureAccess m s
  | .counterRead vd group n => Sys2Proof.Machine.execCounterRead vd group n s
  | .registerWrite off val => Sys2Proof.Machine.execRegisterWrite off val s
  | .bindRequest n => Sys2Proof.Machine.execBindRequest n s
  | .extinvWrite val => Sys2Proof.Machine.execExtinvWrite val s
  | .extinvDone => Sys2Proof.Machine.execExtinvDone s
  | .mscMaskWrite num val => Sys2Proof.Machine.execMscMaskWrite num val s
  | .mscreclWrite val => Sys2Proof.Machine.execMscreclWrite val s
  | .mscreclDone => Sys2Proof.Machine.execMscreclDone s
  | .mscMonitorEnable m val => Sys2Proof.Machine.execMscMonitorEnable m val s
  | .pmapAllocWrite g val => Sys2Proof.Machine.execPmapAllocWrite g val s
  | .dbgctlHalt spn => Sys2Proof.Machine.execDbgctlHalt spn s
  | .dbgctlStep spn => Sys2Proof.Machine.execDbgctlStep spn s
  | .dbgctlRun spn => Sys2Proof.Machine.execDbgctlRun spn s
  | .formReq r => Sys2Proof.Machine.execFormReq r s
  | .grantReq r => Sys2Proof.Machine.execGrantReq r s
  | .fenceRequest r => Sys2Proof.Machine.execFenceRequest r s
  | .releaseReq r => Sys2Proof.Machine.execReleaseReq r s
  | .stopReq r => Sys2Proof.Machine.execStopReq r s
  | .resetReq r => Sys2Proof.Machine.execResetReq r s
  | .departReq r => Sys2Proof.Machine.execDepartReq r s
  | .routeReq r => Sys2Proof.Machine.execRouteReq r s
  | .unlockReq r => Sys2Proof.Machine.execUnlockReq r s
  | .relockReq r => Sys2Proof.Machine.execRelockReq r s
  | .attestReq r => Sys2Proof.Machine.execAttestReq r s
  | .nonceReq r => Sys2Proof.Machine.execNonceReq r s
  | .imageReq r => Sys2Proof.Machine.execImageReq r s
  | .modeReq r => Sys2Proof.Machine.execModeReq r s
  | .consentReq r => Sys2Proof.Machine.execConsentReq r s
  | .withdrawReq r => Sys2Proof.Machine.execWithdrawReq r s
  | .coldReset b => Sys2Proof.Machine.execColdReset b s
  | .clockChange die mhz => Sys2Proof.Machine.execClockChange die mhz s
  | .thermalStop die => Sys2Proof.Machine.execThermalStop die s
  | .stopTimeout colour => Sys2Proof.Machine.execStopTimeout colour s
  | .spClockGate spn => Sys2Proof.Machine.execSpClockGate spn s
  | .spRetention spn => Sys2Proof.Machine.execSpRetention spn s
  | .pcieLinkDown => Sys2Proof.Machine.execPcieLinkDown s
  | .pcieLinkUp => Sys2Proof.Machine.execPcieLinkUp s
  | .forwardedQueueAckReceive c a => Sys2Proof.Machine.execForwardedQueueAckReceive c a s
  | .departureNoticeAckReceive x seq => Sys2Proof.Machine.execDepartureNoticeAckReceive x seq s
  | .remoteCancelReceive m => Sys2Proof.Machine.execRemoteCancelReceive m s
  | .remoteCancelAckReceive m => Sys2Proof.Machine.execRemoteCancelAckReceive m s
  | .podBarrierArrivalReceive x seq join => Sys2Proof.Machine.execPodBarrierArrivalReceive x seq join s
  | .podCollectiveContributionReceive m => Sys2Proof.Machine.execPodCollectiveContributionReceive m s

end Sys2Proof.Machine
end

