-- ==== Sys2Proof/Machine/Own.lean ====
section
/-! DEFINITION. What the package's own units do by themselves: the steps that may be due, from a place on that moves with every step (log
entry 3). Each is the meaning of one of the events of the opcode table, or serves what waits at a port. -/

namespace Sys2Proof.Machine

/-- A step that may be due. -/
abbrev OwnStep := State → Result

/-- The step a held convoy waits for. -/
def heldStep (c : Nat) (v : Convoy) : List OwnStep := match v.wait with
  | .run => []
  | .clause => []
  | .room _ => [execIssueCounterRoom c]
  | .access _ _ => [execLocalAccessResume c]
  | .accept _ => [execEngineAccept c]
  | .wsig _ => [execWsigReread c, execWsigTimeout c]
  | .waitc _ _ => [execWaitcRelease c]
  | .fence _ _ => [execFenceDone c]
  | .queue w => if w.push then [execQpushRetry c] else [execQpopRetry c]
  | .remote _ => []
  | .revoke => []
  | .grow _ _ _ => [execGrowGrant (coreOf v.spn), execGrowDeadlockEvict (coreOf v.spn)]
  | .spawn _ _ _ _ => [execGrowGrant (coreOf v.spn), execGrowDeadlockEvict (coreOf v.spn)]
  | .frame _ _ => [execReturnFrameTimeout c]
  | .replay _ => [execReplayWaitExpiry c]
  | .bar _ _ => []
  | .yielded => []
  | .aborted => []
  | .log _ => []
  | .halted => []
/-- The step a command waits for. -/
def cmdStep (k : Nat) (m : Cmd) : List OwnStep := match m.phase with
  | .queued => [execCommandBegin k]
  | .blocked => [execBlockTakeRetry k]
  | .running => match m.cls with
    | .ecp => [execCopyComplete k []]
    | .egs => [execGatherScatterComplete k []]
    | .emx => [execMatrixComplete k]
    | .ecl => [execCollectiveComplete k]
    | .enm => [execNearMemoryComplete k []]
    | .eat => [execAtomicSignalComplete k]
  | .cancelling => []
  | .performed => []
  | .counted => []
/-- The steps of a serai. -/
def seraiSteps (x : Serai) : List OwnStep :=
  let k : SeraiKey := ⟨x.spn, x.wg, x.entry⟩
  [execSeraiLaunchFull k, execSeraiTimer k, execSeraiLaunchDrained k, execSeraiLaunchCapacity x.spn]
/-- The steps of a workgroup. -/
def wgSteps (w : Nat) : List OwnStep :=
  [execStagingComplete w, execWorkgroupComplete w, execWbackComplete w, execYieldDeadlineExpiry w, execWorkgroupSaveDone w,
   execWorkgroupRestore w, execMigrationRetry w, execMigrationComplete w]
/-- The steps of a launch. -/
def launchSteps (l : Nat) : List OwnStep :=
  (List.range 4).flatMap (fun d => [execAnvilSpecialiseDone l d, execAnvilBudgetExpiry l d])
    ++ [execPlacement l, execDeadlineExpiry l, execYieldRequest l]
/-- The steps of a sweep pass. -/
def passSteps (n : Nat) : List OwnStep :=
  [execSweepBeginTimer n] ++ ((List.range 4).map fun d => execSweepEngineFinish d n) ++ [execPassOpenTimer n]
/-- The end of a single step whose instruction waited (R388). -/
def stepEnds (p : Nat) (s : State) : Result := .next (s.settleStep p)
/-- The steps of an SP: a rollback or a halt under way, and its power. -/
def spSteps (p : Nat) (x : Sp) : List OwnStep :=
  (match x.hold with
   | some src => if src = 0 then [] else [execSoftError p { item := 0, source := 0 }]
   | none => []) ++ (if x.halting then [haltGoesOn p] else []) ++ (if x.stepping && x.stepOf.isSome then [stepEnds p] else []) ++ [execSpClockGate p, execSpRetention p]
/-- The steps that may answer a request: that of its operation is enabled. -/
def reqSteps (r : WReq) : List OwnStep :=
  [execFormReq r, execGrantReq r, execFenceRequest r, execReleaseReq r, execStopReq r, execResetReq r, execDepartReq r, execRouteReq r,
   execUnlockReq r, execRelockReq r, execAttestReq r, execNonceReq r, execImageReq r, execModeReq r, execConsentReq r, execWithdrawReq r]
/-- The requests at the heads of the firmware request queue and of the service queues, and those being carried out. -/
def State.requests (s : State) : List WReq :=
  let head (c : Option Nat) : List WReq := match (s.reqQueue ⟨0, c⟩).bind s.headWReq with
    | some b => [⟨b, c⟩]
    | none => []
  head none ++ s.worlds.flatMap fun w => head (some w.1) ++ w.2.waiting.toList
/-- Serves what waits at a port; none while it still waits. -/
def serveHeld (h : Held) (s : State) : Option State := match h with
  | .recall m => if s.recallWaits m then none else some (s.openRecall m)
  | .bale m => s.serveBale m
  | .command m => some (s.serveCommand m)
  | .access m => s.serveAccess m
  | .hostRead off n => s.serveRead off n
  | .hostWrite off bytes => s.serveWrite off bytes
  | .register off val => s.serveRegister off val
  | .extinv val => s.serveExtinv val
  | .bind i => some (s.putBinding i (s.bindCheck (s.binding i)))
  | .counter vd group n => let r := s.readCounter vd group n; some (r.1.answer (leBytes 8 r.2.toNat))
  | .aperture m => s.serveAperture m
  | .halt p => s.serveHalt p
  | .step p => some (s.steps p)
  | .run p => some (s.runs p)
/-- What waits is served once it can be, when nothing that waits before it holds it back. -/
def heldRetry (h : Held) (s : State) : Result :=
  if (s.held.takeWhile (· != h)).any fun e => e.blocks h then .next s
  else match serveHeld h { s with held := s.held.erase h } with
    | some t => .next t
    | none => .next s
/-- The steps that may be due, in order. -/
def State.pending (s : State) : List OwnStep :=
  s.cmds.flatMap (fun x => cmdStep x.1 x.2)
    ++ s.held.map heldRetry
    ++ s.convoys.flatMap (fun x => heldStep x.1 x.2)
    ++ s.convoys.flatMap (fun x => [execConvoyAged x.1, execLogfullExpiry x.1])
    ++ s.serais.flatMap seraiSteps
    ++ s.wgs.flatMap (fun x => wgSteps x.1)
    ++ s.launches.flatMap (fun x => launchSteps x.1)
    ++ (List.range 4).map execWaybillPop
    ++ s.requests.flatMap reqSteps
    ++ s.rev.passes.flatMap (fun x => passSteps x.1)
    ++ [execPassClose, execExtinvDone, execMscreclDone]
    ++ s.hbm.sets.map (fun x => execBankSetWakeDone x.1)
    ++ s.hbm.zeroing.map (fun x => execPageZeroFillDone x.1)
    ++ (s.cores.filter fun c => c.2.failing).map (fun c => execHardFailure c.1)
    ++ (if s.mgmt.thermal then [execThermalStop 0] else [])
    ++ s.mgmt.stops.map (fun x => execStopTimeout x.1)
    ++ s.route.ports.map (fun x => execRetrainTimeout x.1)
    ++ s.route.down.map (fun x => execUnreachableTimeout x.1)
    ++ s.msc.lines.map (fun x => execPoolDirtyTimeout x.line)
    ++ (List.range 4).map execThrottlePeriodEnd
    ++ s.sps.flatMap (fun x => spSteps x.1 x.2)
    ++ s.hbm.sets.flatMap (fun x => [execBankSetIdleP1 x.1, execBankSetIdleP2 x.1])
/-- Whether a step does something at a state. -/
def changes (s : State) (f : OwnStep) : Bool := match f s with
  | .next t => decide (t ≠ s)
  | .fault _ => true
  | .refused _ => true
/-- The next step that is due, in turn; none when time alone passes. -/
def State.due (s : State) : Option OwnStep :=
  let l := s.pending
  let k := s.free % l.length
  (l.drop k ++ l.take k).find? (changes s)

end Sys2Proof.Machine
end

