-- ==== Sys2Proof/Machine/Step.lean ====
section
/-! DEFINITION. One step of the package: the next step of the agenda; else the issue of one instruction of the convoy that R304
chooses, or a step of one of the package's own units, by turns, so that neither holds the other back (R98). -/

namespace Sys2Proof.Machine

/-- What follows an issue on an SP that a debugger single-steps. -/
def afterIssue (c spn : Nat) (o : Result) : Result := match o with
  | .next s => .next (s.afterStep c spn)
  | .fault f => .fault f
  | .refused r => .refused r

/-- Issues the current word of the chosen convoy. -/
def issueStep (s : State) (c : Nat) (v : Convoy) : Result := match v.wait, tget s.wgs v.wg with
  | .run, some g => match s.fetchInstr v g with
    | .instr i => afterIssue c v.spn (exec i s)
    | .stop t => .next (s.trap c t)
  | _, _ => exec (.clauseWaitMet c) s

/-- A convoy issues, when one is ready. -/
def issueOne (s : State) : Option Result := (s.pick).map fun x => issueStep (s.chosen x.1 x.2) x.1 x.2
/-- A unit of the package acts, when a step of one is due. -/
def ownOne (s : State) : Option Result := s.due.map fun f => f { s with own := false }

/-- One step. -/
def step (s : State) : Host.Outcome State Fault Refusal :=
  let t := s.tick
  match s.ev with
  | e :: rest => exec e { t with ev := rest }
  | [] => ((if s.own then ownOne t <|> issueOne t else issueOne t <|> ownOne t)).getD (.next t)

/-- A state whose next step fetches and runs the given words: a launch of one workgroup of one fibre on SP 0, its convoy inside a
clause of four words in HBM (log entry 11). -/
def State.withFetchWord (s : State) (_nbits w : Nat) : State :=
  let a : Addr := 0x1_0000
  let hdr : DWord := 0xFE3F_C000_0E00_0000
  let s1 := (s.wrRaw a (leBytes 8 hdr.toNat)).wrRaw (a + 8) (leBytes 32 (w % 2 ^ 256))
  let f := s.ids
  { s1 with
    ev := []
    turn := []
    cur := none
    held := []
    own := false
    ids := s.ids + 4
    fibres := tput s.fibres f { wg := f + 2, fidx := 0, spn := 0, lane := 0, wbase := 0, wsize := 256, pc := a, regpc := a,
                                regcnt := 1, rwsize := 256 }
    convoys := [(f + 1, { spn := 0, wg := f + 2, slices := [0], fib := [some f, none, none, none], hdr := a, words := 4,
                          inCl := true, wait := .run })]
    wgs := tput s.wgs (f + 2) { launch := f + 3, wgid := 0, sps := [0], colour := 1, gen := s.gen 1, prio := 0, bwphase := 0,
                                ranges := [(a, 40)], phase := .running, staged := true }
    launches := tput s.launches (f + 3) { g := [], binding := 0, colour := 1, gen := s.gen 1, home := 0, acquired := 0, next := 1,
                                          entered := true }
    hbm := { s.hbm with sets := tput s.hbm.sets 0 { alloc := true, state := 0 } }
    sps := tput s.sps 0 { s.sp 0 with owner := 1, halted := false, halting := false, stepping := false, stepOf := none } }

end Sys2Proof.Machine
end

