-- ==== Sys2Proof/Safety.lean ====
section
/-! DEFINITION. What counts as a safe state, and the terms of the whole-machine statements. -/

namespace Sys2Proof.Machine

/-! ## The store and the agenda -/

/-- Whether a step needs a convoy chosen to issue it: the instruction words. -/
def needsConvoy (i : Instr) : Bool := i.isWord || (match i with
  | .unassignedOpcodeIssue _ => true
  | _ => false)
/-- The agenda holds events alone. -/
def State.eventsOnly (s : State) : Bool := s.ev.all fun e => !needsConvoy e
/-- The canonical form of the store: bytes canonical, tags rising and on granules alone (R52). -/
def State.storeWf (s : State) : Bool := Memory.wf s.mem && rises s.tags && s.tags.all fun t => t.1 % 16 == 0

/-! ## An instruction word that nothing holds back -/

/-- Convoy `i`, chosen to issue, stands at a word that names these registers and latches, and nothing stops it: each latch was
written (R405), each register lies in the window of every active lane (R404), no engine holds their bytes (R21, R108, R263). -/
def State.goes (s : State) (i : Nat) (v : Convoy) (c : Ctl) (regs : List RegUse) (lat : List (BitVec 2)) : Prop :=
  s.cur = some i ∧ tget s.convoys i = some v ∧ latchBad v lat = false ∧ windowBad (s.active v c.g) regs = none ∧
    s.rangesHeld (coreOf v.spn) (regRanges (s.active v c.g) regs) = false
/-- A region-ending word that nothing stops: its fall-through clause is as R400 asks, and no refusal bit is set (R425). -/
def State.goesEnd (s : State) (i : Nat) (v : Convoy) (c : Ctl) (regs : List RegUse) (lat : List (BitVec 2)) (n : Nat) : Prop :=
  s.goes i v c regs lat ∧ s.fallBad v n = none ∧ s.refOf v allCls = none
/-- The state after an instruction that answers a value and flags in each of some lanes: the values stand in the destination, the
flags are set, the convoy is past the word. -/
def State.retire (s : State) (i : Nat) (wd : Bool) (d : VDst) (words : Nat) (r : List (Ln × DWord × BitVec 8)) : State :=
  ((s.dsts i wd d (r.map fun x => (x.1, x.2.1))).setFlags i (orFlags (r.map fun x => x.2.2))).advance i words
/-- The same for an instruction that answers a predicate. -/
def State.retireP (s : State) (i : Nat) (p : BitVec 3) (words : Nat) (r : List (Ln × Bool × BitVec 8)) : State :=
  ((r.foldl (fun s x => s.wrP x.1.id p x.2.1) s).setFlags i (orFlags (r.map fun x => x.2.2))).advance i words

/-! ## Instructions whose one result is a V destination in every active lane -/

/-- What such an instruction names: guard, source registers and latches, whether the destination is a pair, the destination, its
words. -/
structure LaneForm where
  c : Ctl
  regs : List RegUse
  lat : List (BitVec 2)
  wd : Bool
  d : VDst
  words : Nat
  deriving DecidableEq, Repr
/-- Those instructions: the integer, floating-point, conversion and cross-lane forms that write V, and region. -/
def laneForm : Instr → Option LaneForm
  | .iadd o => some ⟨o.c, vregs o.a false ++ bregs o.b false, vlatches o.a ++ blatches o.b, false, o.d, wordsOf o.lits⟩
  | .iadd64 o => some ⟨o.c, vregs o.a true ++ bregs o.b true, vlatches o.a ++ blatches o.b, true, o.d, wordsOf o.lits⟩
  | .isub o => some ⟨o.c, vregs o.a false ++ bregs o.b false, vlatches o.a ++ blatches o.b, false, o.d, wordsOf o.lits⟩
  | .isub64 o => some ⟨o.c, vregs o.a true ++ bregs o.b true, vlatches o.a ++ blatches o.b, true, o.d, wordsOf o.lits⟩
  | .imul o => some ⟨o.c, vregs o.a false ++ bregs o.b false, vlatches o.a ++ blatches o.b, false, o.d, wordsOf o.lits⟩
  | .imul64 o => some ⟨o.c, vregs o.a true ++ bregs o.b true, vlatches o.a ++ blatches o.b, true, o.d, wordsOf o.lits⟩
  | .imulh o => some ⟨o.c, vregs o.a false ++ bregs o.b false, vlatches o.a ++ blatches o.b, false, o.d, wordsOf o.lits⟩
  | .imulh64 o => some ⟨o.c, vregs o.a true ++ bregs o.b true, vlatches o.a ++ blatches o.b, true, o.d, wordsOf o.lits⟩
  | .idiv o => some ⟨o.c, vregs o.a false ++ bregs o.b false, vlatches o.a ++ blatches o.b, false, o.d, wordsOf o.lits⟩
  | .idiv64 o => some ⟨o.c, vregs o.a true ++ bregs o.b true, vlatches o.a ++ blatches o.b, true, o.d, wordsOf o.lits⟩
  | .irem o => some ⟨o.c, vregs o.a false ++ bregs o.b false, vlatches o.a ++ blatches o.b, false, o.d, wordsOf o.lits⟩
  | .irem64 o => some ⟨o.c, vregs o.a true ++ bregs o.b true, vlatches o.a ++ blatches o.b, true, o.d, wordsOf o.lits⟩
  | .imin o => some ⟨o.c, vregs o.a false ++ bregs o.b false, vlatches o.a ++ blatches o.b, false, o.d, wordsOf o.lits⟩
  | .imin64 o => some ⟨o.c, vregs o.a true ++ bregs o.b true, vlatches o.a ++ blatches o.b, true, o.d, wordsOf o.lits⟩
  | .imax o => some ⟨o.c, vregs o.a false ++ bregs o.b false, vlatches o.a ++ blatches o.b, false, o.d, wordsOf o.lits⟩
  | .imax64 o => some ⟨o.c, vregs o.a true ++ bregs o.b true, vlatches o.a ++ blatches o.b, true, o.d, wordsOf o.lits⟩
  | .andOp o => some ⟨o.c, vregs o.a false ++ bregs o.b false, vlatches o.a ++ blatches o.b, false, o.d, wordsOf o.lits⟩
  | .andOp64 o => some ⟨o.c, vregs o.a true ++ bregs o.b true, vlatches o.a ++ blatches o.b, true, o.d, wordsOf o.lits⟩
  | .orOp o => some ⟨o.c, vregs o.a false ++ bregs o.b false, vlatches o.a ++ blatches o.b, false, o.d, wordsOf o.lits⟩
  | .orOp64 o => some ⟨o.c, vregs o.a true ++ bregs o.b true, vlatches o.a ++ blatches o.b, true, o.d, wordsOf o.lits⟩
  | .xorOp o => some ⟨o.c, vregs o.a false ++ bregs o.b false, vlatches o.a ++ blatches o.b, false, o.d, wordsOf o.lits⟩
  | .xorOp64 o => some ⟨o.c, vregs o.a true ++ bregs o.b true, vlatches o.a ++ blatches o.b, true, o.d, wordsOf o.lits⟩
  | .andn o => some ⟨o.c, vregs o.a false ++ bregs o.b false, vlatches o.a ++ blatches o.b, false, o.d, wordsOf o.lits⟩
  | .andn64 o => some ⟨o.c, vregs o.a true ++ bregs o.b true, vlatches o.a ++ blatches o.b, true, o.d, wordsOf o.lits⟩
  | .shl o => some ⟨o.c, vregs o.a false ++ bregs o.b false, vlatches o.a ++ blatches o.b, false, o.d, wordsOf o.lits⟩
  | .shl64 o => some ⟨o.c, vregs o.a true ++ bregs o.b false, vlatches o.a ++ blatches o.b, true, o.d, wordsOf o.lits⟩
  | .shr o => some ⟨o.c, vregs o.a false ++ bregs o.b false, vlatches o.a ++ blatches o.b, false, o.d, wordsOf o.lits⟩
  | .shr64 o => some ⟨o.c, vregs o.a true ++ bregs o.b false, vlatches o.a ++ blatches o.b, true, o.d, wordsOf o.lits⟩
  | .sar o => some ⟨o.c, vregs o.a false ++ bregs o.b false, vlatches o.a ++ blatches o.b, false, o.d, wordsOf o.lits⟩
  | .sar64 o => some ⟨o.c, vregs o.a true ++ bregs o.b false, vlatches o.a ++ blatches o.b, true, o.d, wordsOf o.lits⟩
  | .rol o => some ⟨o.c, vregs o.a false ++ bregs o.b false, vlatches o.a ++ blatches o.b, false, o.d, wordsOf o.lits⟩
  | .rol64 o => some ⟨o.c, vregs o.a true ++ bregs o.b false, vlatches o.a ++ blatches o.b, true, o.d, wordsOf o.lits⟩
  | .iabs o => some ⟨o.c, vregs o.a false, vlatches o.a, false, o.d, wordsOf o.lits⟩
  | .iabs64 o => some ⟨o.c, vregs o.a true, vlatches o.a, true, o.d, wordsOf o.lits⟩
  | .ineg o => some ⟨o.c, vregs o.a false, vlatches o.a, false, o.d, wordsOf o.lits⟩
  | .ineg64 o => some ⟨o.c, vregs o.a true, vlatches o.a, true, o.d, wordsOf o.lits⟩
  | .notOp o => some ⟨o.c, vregs o.a false, vlatches o.a, false, o.d, wordsOf o.lits⟩
  | .notOp64 o => some ⟨o.c, vregs o.a true, vlatches o.a, true, o.d, wordsOf o.lits⟩
  | .brev o => some ⟨o.c, vregs o.a false, vlatches o.a, false, o.d, wordsOf o.lits⟩
  | .brev64 o => some ⟨o.c, vregs o.a true, vlatches o.a, true, o.d, wordsOf o.lits⟩
  | .movOp o => some ⟨o.c, vregs o.a false, vlatches o.a, false, o.d, wordsOf o.lits⟩
  | .movOp64 o => some ⟨o.c, vregs o.a true, vlatches o.a, true, o.d, wordsOf o.lits⟩
  | .popc o => some ⟨o.c, vregs o.a false, vlatches o.a, false, o.d, wordsOf o.lits⟩
  | .popc64 o => some ⟨o.c, vregs o.a true, vlatches o.a, false, o.d, wordsOf o.lits⟩
  | .clz o => some ⟨o.c, vregs o.a false, vlatches o.a, false, o.d, wordsOf o.lits⟩
  | .clz64 o => some ⟨o.c, vregs o.a true, vlatches o.a, false, o.d, wordsOf o.lits⟩
  | .ctz o => some ⟨o.c, vregs o.a false, vlatches o.a, false, o.d, wordsOf o.lits⟩
  | .ctz64 o => some ⟨o.c, vregs o.a true, vlatches o.a, false, o.d, wordsOf o.lits⟩
  | .imad o => some ⟨o.c, vregs o.a false ++ bregs o.b false ++ vregs o.e false, vlatches o.a ++ blatches o.b ++ vlatches o.e, false, o.d, wordsOf o.lits⟩
  | .imad64 o => some ⟨o.c, vregs o.a true ++ bregs o.b true ++ vregs o.e true, vlatches o.a ++ blatches o.b ++ vlatches o.e, true, o.d, wordsOf o.lits⟩
  | .bfx o => some ⟨o.c, vregs o.a false ++ vregs o.pos false ++ vregs o.wid false, vlatches o.a ++ vlatches o.pos ++ vlatches o.wid, false, o.d, wordsOf o.lits⟩
  | .bfx64 o => some ⟨o.c, vregs o.a true ++ vregs o.pos false ++ vregs o.wid false, vlatches o.a ++ vlatches o.pos ++ vlatches o.wid, true, o.d, wordsOf o.lits⟩
  | .bfi o => some ⟨o.c, vregs o.a false ++ vregs o.pos false ++ vregs o.wid false, vlatches o.a ++ vlatches o.pos ++ vlatches o.wid, false, o.d, wordsOf o.lits⟩
  | .bfi64 o => some ⟨o.c, vregs o.a true ++ vregs o.pos false ++ vregs o.wid false, vlatches o.a ++ vlatches o.pos ++ vlatches o.wid, true, o.d, wordsOf o.lits⟩
  | .selOp o => some ⟨o.c, vregs o.a false ++ vregs o.b false, vlatches o.a ++ vlatches o.b, false, o.d, wordsOf o.lits⟩
  | .selOp64 o => some ⟨o.c, vregs o.a true ++ vregs o.b true, vlatches o.a ++ vlatches o.b, true, o.d, wordsOf o.lits⟩
  | .movi o => some ⟨o.c, [], [], false, o.d, wordsOf o.lits⟩
  | .movi64 o => some ⟨o.c, [], [], true, o.d, wordsOf o.lits⟩
  | .fadd o => some ⟨o.c, vregs o.a false ++ vregs o.b false, vlatches o.a ++ vlatches o.b, false, o.d, wordsOf o.lits⟩
  | .fsub o => some ⟨o.c, vregs o.a false ++ vregs o.b false, vlatches o.a ++ vlatches o.b, false, o.d, wordsOf o.lits⟩
  | .fmul o => some ⟨o.c, vregs o.a false ++ vregs o.b false, vlatches o.a ++ vlatches o.b, false, o.d, wordsOf o.lits⟩
  | .fmin o => some ⟨o.c, vregs o.a false ++ vregs o.b false, vlatches o.a ++ vlatches o.b, false, o.d, wordsOf o.lits⟩
  | .fmax o => some ⟨o.c, vregs o.a false ++ vregs o.b false, vlatches o.a ++ vlatches o.b, false, o.d, wordsOf o.lits⟩
  | .fscale o => some ⟨o.c, vregs o.a false ++ vregs o.b false, vlatches o.a ++ vlatches o.b, false, o.d, wordsOf o.lits⟩
  | .hadd2 o => some ⟨o.c, vregs o.a false ++ vregs o.b false, vlatches o.a ++ vlatches o.b, false, o.d, wordsOf o.lits⟩
  | .hmul2 o => some ⟨o.c, vregs o.a false ++ vregs o.b false, vlatches o.a ++ vlatches o.b, false, o.d, wordsOf o.lits⟩
  | .shfl o => some ⟨o.c, vregs o.a false ++ vregs o.b false, vlatches o.a ++ vlatches o.b, false, o.d, wordsOf o.lits⟩
  | .ffma o => some ⟨o.c, vregs o.a false ++ vregs o.b false ++ vregs o.e false, vlatches o.a ++ vlatches o.b ++ vlatches o.e, false, o.d, wordsOf o.lits⟩
  | .hfma2 o => some ⟨o.c, vregs o.a false ++ vregs o.b false ++ vregs o.e false, vlatches o.a ++ vlatches o.b ++ vlatches o.e, false, o.d, wordsOf o.lits⟩
  | .fclass o => some ⟨o.c, vregs o.a false, vlatches o.a, false, o.d, wordsOf o.lits⟩
  | .ffloor o => some ⟨o.c, vregs o.a false, vlatches o.a, false, o.d, wordsOf o.lits⟩
  | .fceil o => some ⟨o.c, vregs o.a false, vlatches o.a, false, o.d, wordsOf o.lits⟩
  | .ftrunc o => some ⟨o.c, vregs o.a false, vlatches o.a, false, o.d, wordsOf o.lits⟩
  | .frint o => some ⟨o.c, vregs o.a false, vlatches o.a, false, o.d, wordsOf o.lits⟩
  | .frcp o => some ⟨o.c, vregs o.a false, vlatches o.a, false, o.d, wordsOf o.lits⟩
  | .frsq o => some ⟨o.c, vregs o.a false, vlatches o.a, false, o.d, wordsOf o.lits⟩
  | .fsqrt o => some ⟨o.c, vregs o.a false, vlatches o.a, false, o.d, wordsOf o.lits⟩
  | .fex2 o => some ⟨o.c, vregs o.a false, vlatches o.a, false, o.d, wordsOf o.lits⟩
  | .flg2 o => some ⟨o.c, vregs o.a false, vlatches o.a, false, o.d, wordsOf o.lits⟩
  | .fsin o => some ⟨o.c, vregs o.a false, vlatches o.a, false, o.d, wordsOf o.lits⟩
  | .fcos o => some ⟨o.c, vregs o.a false, vlatches o.a, false, o.d, wordsOf o.lits⟩
  | .ftanh o => some ⟨o.c, vregs o.a false, vlatches o.a, false, o.d, wordsOf o.lits⟩
  | .red o => some ⟨o.c, vregs o.a false, vlatches o.a, false, o.d, wordsOf o.lits⟩
  | .scan o => some ⟨o.c, vregs o.a false, vlatches o.a, false, o.d, wordsOf o.lits⟩
  | .qntE4m3 o => some ⟨o.c, vregs o.a false ++ vregs o.scale false, vlatches o.a ++ vlatches o.scale, false, o.d, wordsOf o.lits⟩
  | .qntE5m2 o => some ⟨o.c, vregs o.a false ++ vregs o.scale false, vlatches o.a ++ vlatches o.scale, false, o.d, wordsOf o.lits⟩
  | .qntE2m1 o => some ⟨o.c, vregs o.a false ++ vregs o.scale false, vlatches o.a ++ vlatches o.scale, false, o.d, wordsOf o.lits⟩
  | .qntI8 o => some ⟨o.c, vregs o.a false ++ vregs o.scale false, vlatches o.a ++ vlatches o.scale, false, o.d, wordsOf o.lits⟩
  | .qntT2 o => some ⟨o.c, vregs o.a false ++ vregs o.scale false, vlatches o.a ++ vlatches o.scale, false, o.d, wordsOf o.lits⟩
  | .dqnt o => some ⟨o.c, vregs o.a false ++ vregs o.scale false, vlatches o.a ++ vlatches o.scale, false, o.d, wordsOf o.lits⟩
  | .cvt o => some ⟨o.c, vregs o.a (cvtSrc64 o.pair), vlatches o.a, cvtDst64 o.pair, o.d, wordsOf o.lits⟩
  | .ballot o => some ⟨o.c, [], [], false, o.d, 1⟩
  | .regionOp o => some ⟨o.c, [], [], false, o.d, 1⟩
  | _ => none
/-- The registers that a lane form reads at positions beyond the active lanes (R206). -/
def crossRegs : Instr → List RegUse
  | .shfl o => vregs o.a false
  | _ => []
/-- Nothing holds a lane form back. -/
def LaneForm.goes (F : LaneForm) (s : State) (i : Nat) (v : Convoy) : Prop := s.goes i v F.c (F.regs ++ dregs F.d F.wd) F.lat
/-- Whether an address is one of the destination's bytes in a lane. -/
def LaneForm.writes (F : LaneForm) (l : Ln) (a : Addr) : Bool := match F.d with
  | .v n => decide (l.f.reg n.toNat ≤ a) && decide (a < l.f.reg n.toNat + (if F.wd then 8 else 4))
  | .b _ => false

/-- What R46 says of every tagged capability. -/
def Cap.Wf (k : Cap) : Prop :=
  k.e.toNat ≤ 35 ∧ k.lo % 2 ^ k.e.toNat = 0 ∧ k.lo + k.len ≤ 2 ^ 52 ∧ k.perms &&& 0xC000 = 0

/-! ## Engine instructions -/

/-- Nothing holds back the command of an engine instruction: MXSEQ is not full (R245), every counter has room (R78), a slot of the class
is free, and the scoreboard has room for its operands (R107, R249). -/
def State.engineGoes (s : State) (v : Convoy) (cls : Cls) (op : CmdOp) : Prop :=
  ¬(cls = .emx ∧ v.u.mxseq.getLsbD 8 = true) ∧ ((s.lanes v).any fun l => l.f.cnt.get cls == 63) = false ∧
    (s.freeSlot (coreOf v.spn) cls).isSome = true ∧ s.entryRoom (coreOf v.spn) (s.acceptEntries v op) = true
/-- No event of a fibre of the convoy is looked up, and the undo log has room for one of each (R389–R391). -/
def State.freshEvents (s : State) (v : Convoy) : Prop :=
  ((s.lanes v).head?.bind fun l => s.lookup l.f) = none ∧ s.logRoom [] v.spn (s.lanes v).length = true

/-! ## Queue instructions -/

/-- A push may reach its queue and its buffer, its header is consistent, and the undo log has room, and the memory is awake (R277, R443, R390, R118). -/
def State.pushReach (s : State) (v : Convoy) (w : QueueWait) : Prop :=
  let b := w.kq.lo
  let h := s.qhdr b
  s.queueCause (s.colourOf v) w.kq (permLd ||| permSt) 0 64 = none ∧ s.bufCause (s.colourOf v) w.kr false w.off (64 * w.n) = none ∧
    s.headerLost (s.colourOf v) b = false ∧ s.headerBad b = false ∧
    s.logRoom (linesOf b 64 ++ (if h.pad w.n = 0 then [] else linesOf (slotAddr b (h.rsv % h.cap)) 64)
      ++ linesOf (slotAddr b (h.first h.rsv w.n)) (64 * w.n)) v.spn (s.lanes v).length = true ∧
    s.awaits [(w.kr.lo + w.off, 64 * w.n)] [(b, 64), (slotAddr b (h.first h.rsv w.n), 64 * w.n)] = none
/-- There is room for the record and its pad, and the slots may be reached. -/
def State.pushRoom (s : State) (v : Convoy) (w : QueueWait) : Prop :=
  let b := w.kq.lo
  let h := s.qhdr b
  s.pushReach v w ∧ w.n ≤ h.cap ∧ h.room w.n = true ∧
    (h.pad w.n ≠ 0 → s.queueCause (s.colourOf v) w.kq (permLd ||| permSt) (64 + 64 * (h.rsv % h.cap)) 64 = none) ∧
    s.queueCause (s.colourOf v) w.kq (permLd ||| permSt) (slotAddr b (h.first h.rsv w.n) - b) (64 * w.n) = none

end Sys2Proof.Machine
end

