-- ==== Sys2Proof/Certificates/Slice0/Obligations.lean ====
section
/-! DEFINITION. The statements for the provers. The completion statements give the state that follows an instruction under conditions on
the state and the operands alone; the others say what those states hold. -/

open Sys2Proof Sys2Proof.Machine

/-! ## The integer group (R181–R189): results, and completion -/

/-- R183, R185: the two-operand forms of 32 bits, in every active lane; shifts take the amount mod 32, a quotient by 0 is all ones. -/
def Obligations.IntTwoOperand32 : Prop :=
  ∀ (s : State) (i : Nat) (v : Convoy) (o : IBin),
    s.goes i v o.c (vregs o.a false ++ bregs o.b false ++ dregs o.d false) (vlatches o.a ++ blatches o.b) →
    let ls := lits o.c.lit o.a.isLit o.b.isLit false
    let out (f : Word → Word → Word) : Result := .next (s.retire i false o.d (wordsOf o.lits) ((s.active v o.c.g).map fun l =>
      (l, (f (s.src32 v l ls.1 o.a) ((s.bsrc v l false ls.2.1 o.b).setWidth 32)).setWidth 64, 0)))
    exec (.iadd o) s = out (fun a b => if o.sat then satN 32 o.u (intOf 32 o.u a + intOf 32 o.u b) else a + b) ∧
    exec (.isub o) s = out (fun a b => if o.sat then satN 32 o.u (intOf 32 o.u a - intOf 32 o.u b) else a - b) ∧
    exec (.imul o) s = out (fun a b => if o.sat then satN 32 o.u (intOf 32 o.u a * intOf 32 o.u b) else a * b) ∧
    exec (.imulh o) s = out (fun a b => if o.u then (a.setWidth 64 * b.setWidth 64).extractLsb' 32 32
      else (a.signExtend 64 * b.signExtend 64).extractLsb' 32 32) ∧
    exec (.idiv o) s = out (fun a b => if b = 0 then BitVec.allOnes 32 else if o.u then a / b else a.sdiv b) ∧
    exec (.irem o) s = out (fun a b => if b = 0 then a else if o.u then a % b else a.srem b) ∧
    exec (.imin o) s = out (fun a b => if (if o.u then a.ule b else a.sle b) then a else b) ∧
    exec (.imax o) s = out (fun a b => if (if o.u then a.ule b else a.sle b) then b else a) ∧
    exec (.andOp o) s = out (fun a b => a &&& b) ∧
    exec (.orOp o) s = out (fun a b => a ||| b) ∧
    exec (.xorOp o) s = out (fun a b => a ^^^ b) ∧
    exec (.andn o) s = out (fun a b => a &&& ~~~b) ∧
    exec (.shl o) s = out (fun a b => a <<< (b.toNat % 32)) ∧
    exec (.shr o) s = out (fun a b => a >>> (b.toNat % 32)) ∧
    exec (.sar o) s = out (fun a b => a.sshiftRight (b.toNat % 32)) ∧
    exec (.rol o) s = out (fun a b => a.rotateLeft (b.toNat % 32))

/-- R183, R185: the two-operand forms of 64 bits but for shifts. R183: the shifts of 64 bits, whose amount is 32 bits wide and taken mod
64. -/
def Obligations.IntTwoOperand64 : Prop :=
  (∀ (s : State) (i : Nat) (v : Convoy) (o : IBin),
     s.goes i v o.c (vregs o.a true ++ bregs o.b true ++ dregs o.d true) (vlatches o.a ++ blatches o.b) →
     let ls := lits o.c.lit o.a.isLit o.b.isLit false
     let out (f : DWord → DWord → DWord) : Result := .next (s.retire i true o.d (wordsOf o.lits) ((s.active v o.c.g).map fun l =>
       (l, f (s.src v l true ls.1 o.a) (s.bsrc v l true ls.2.1 o.b), 0)))
     exec (.iadd64 o) s = out (fun a b => if o.sat then satN 64 o.u (intOf 64 o.u a + intOf 64 o.u b) else a + b) ∧
     exec (.isub64 o) s = out (fun a b => if o.sat then satN 64 o.u (intOf 64 o.u a - intOf 64 o.u b) else a - b) ∧
     exec (.imul64 o) s = out (fun a b => if o.sat then satN 64 o.u (intOf 64 o.u a * intOf 64 o.u b) else a * b) ∧
     exec (.imulh64 o) s = out (fun a b => if o.u then (a.setWidth 128 * b.setWidth 128).extractLsb' 64 64
       else (a.signExtend 128 * b.signExtend 128).extractLsb' 64 64) ∧
     exec (.idiv64 o) s = out (fun a b => if b = 0 then BitVec.allOnes 64 else if o.u then a / b else a.sdiv b) ∧
     exec (.irem64 o) s = out (fun a b => if b = 0 then a else if o.u then a % b else a.srem b) ∧
     exec (.imin64 o) s = out (fun a b => if (if o.u then a.ule b else a.sle b) then a else b) ∧
     exec (.imax64 o) s = out (fun a b => if (if o.u then a.ule b else a.sle b) then b else a) ∧
     exec (.andOp64 o) s = out (fun a b => a &&& b) ∧
     exec (.orOp64 o) s = out (fun a b => a ||| b) ∧
     exec (.xorOp64 o) s = out (fun a b => a ^^^ b) ∧
     exec (.andn64 o) s = out (fun a b => a &&& ~~~b)) ∧
  (∀ (s : State) (i : Nat) (v : Convoy) (o : IBin),
     s.goes i v o.c (vregs o.a true ++ bregs o.b false ++ dregs o.d true) (vlatches o.a ++ blatches o.b) →
     let ls := lits o.c.lit o.a.isLit o.b.isLit false
     let out (f : DWord → Nat → DWord) : Result := .next (s.retire i true o.d (wordsOf o.lits) ((s.active v o.c.g).map fun l =>
       (l, f (s.src v l true ls.1 o.a) (((s.bsrc v l false ls.2.1 o.b).setWidth 32).toNat % 64), 0)))
     exec (.shl64 o) s = out (fun a n => a <<< n) ∧
     exec (.shr64 o) s = out (fun a n => a >>> n) ∧
     exec (.sar64 o) s = out (fun a n => a.sshiftRight n) ∧
     exec (.rol64 o) s = out (fun a n => a.rotateLeft n))

/-- R186: the one-operand forms of 32 bits; the most negative number stays as it is unless SAT is set. R186: the one-operand forms of 64
bits; the counts are written as 32 bits. -/
def Obligations.IntOneOperand : Prop :=
  (∀ (s : State) (i : Nat) (v : Convoy) (o : IUn),
     s.goes i v o.c (vregs o.a false ++ dregs o.d false) (vlatches o.a) →
     let out (f : Word → Word) : Result := .next (s.retire i false o.d (wordsOf o.lits) ((s.active v o.c.g).map fun l =>
       (l, (f (s.src32 v l o.c.lit o.a)).setWidth 64, 0)))
     exec (.iabs o) s = out (fun a => if a = 0x80000000 then (if o.sat then 0x7FFFFFFF else a) else if a.msb then -a else a) ∧
     exec (.ineg o) s = out (fun a => if a = 0x80000000 ∧ o.sat = true then 0x7FFFFFFF else -a) ∧
     exec (.notOp o) s = out (fun a => ~~~a) ∧
     exec (.popc o) s = out (fun a => a.cpop) ∧
     exec (.clz o) s = out (fun a => a.clz) ∧
     exec (.ctz o) s = out (fun a => a.ctz) ∧
     exec (.brev o) s = out (fun a => a.reverse) ∧
     exec (.movOp o) s = out (fun a => a)) ∧
  (∀ (s : State) (i : Nat) (v : Convoy) (o : IUn),
     let out (wd : Bool) (f : DWord → DWord) : Result := .next (s.retire i wd o.d (wordsOf o.lits) ((s.active v o.c.g).map fun l =>
       (l, f (s.src v l true o.c.lit o.a), 0)))
     (s.goes i v o.c (vregs o.a true ++ dregs o.d true) (vlatches o.a) →
       exec (.iabs64 o) s = out true (fun a =>
         if a = 0x8000000000000000 then (if o.sat then 0x7FFFFFFFFFFFFFFF else a) else if a.msb then -a else a) ∧
       exec (.ineg64 o) s = out true (fun a => if a = 0x8000000000000000 ∧ o.sat = true then 0x7FFFFFFFFFFFFFFF else -a) ∧
       exec (.notOp64 o) s = out true (fun a => ~~~a) ∧
       exec (.brev64 o) s = out true (fun a => a.reverse) ∧
       exec (.movOp64 o) s = out true (fun a => a)) ∧
     (s.goes i v o.c (vregs o.a true ++ dregs o.d false) (vlatches o.a) →
       exec (.popc64 o) s = out false (fun a => a.cpop) ∧
       exec (.clz64 o) s = out false (fun a => a.clz) ∧
       exec (.ctz64 o) s = out false (fun a => a.ctz)))

/-- R184, R187: multiply-add, and the bit-field forms with the field cut at the width. R188, R189: sel, movi and icmp in both widths. -/
def Obligations.IntOtherForms : Prop :=
  (∀ (s : State) (i : Nat) (v : Convoy) (m : IMad) (o : IBf),
     let lm := lits m.c.lit m.a.isLit m.b.isLit m.e.isLit
     let lf := lits o.c.lit o.a.isLit o.pos.isLit o.wid.isLit
     let out (w : Bool) (f : DWord → DWord → Nat → Nat → DWord) : Result :=
       .next (s.retire i w o.d (wordsOf o.lits) ((s.active v o.c.g).map fun l =>
         (l, f (s.src v l w lf.1 o.a) (s.old v l w o.d) (s.src32 v l lf.2.1 o.pos).toNat (s.src32 v l lf.2.2 o.wid).toNat, 0)))
     (s.goes i v m.c (vregs m.a false ++ bregs m.b false ++ vregs m.e false ++ dregs m.d false)
         (vlatches m.a ++ blatches m.b ++ vlatches m.e) →
       exec (.imad m) s = .next (s.retire i false m.d (wordsOf m.lits) ((s.active v m.c.g).map fun l =>
         let a := s.src32 v l lm.1 m.a
         let b := (s.bsrc v l false lm.2.1 m.b).setWidth 32
         let c := s.src32 v l lm.2.2 m.e
         (l, (if m.sat then satN 32 m.u (intOf 32 m.u a * intOf 32 m.u b + intOf 32 m.u c) else a * b + c).setWidth 64, 0)))) ∧
     (s.goes i v m.c (vregs m.a true ++ bregs m.b true ++ vregs m.e true ++ dregs m.d true)
         (vlatches m.a ++ blatches m.b ++ vlatches m.e) →
       exec (.imad64 m) s = .next (s.retire i true m.d (wordsOf m.lits) ((s.active v m.c.g).map fun l =>
         let a := s.src v l true lm.1 m.a
         let b := s.bsrc v l true lm.2.1 m.b
         let c := s.src v l true lm.2.2 m.e
         (l, if m.sat then satN 64 m.u (intOf 64 m.u a * intOf 64 m.u b + intOf 64 m.u c) else a * b + c, 0)))) ∧
     (∀ w, s.goes i v o.c (vregs o.a w ++ vregs o.pos false ++ vregs o.wid false ++ dregs o.d w)
         (vlatches o.a ++ vlatches o.pos ++ vlatches o.wid) →
       (w = false →
         exec (.bfx o) s = out false (fun a _ p n => (fieldGet 32 o.u (a.setWidth 32) p n).setWidth 64) ∧
         exec (.bfi o) s = out false (fun a d p n => (fieldPut 32 (a.setWidth 32) (d.setWidth 32) p n).setWidth 64)) ∧
       (w = true →
         exec (.bfx64 o) s = out true (fun a _ p n => fieldGet 64 o.u a p n) ∧
         exec (.bfi64 o) s = out true (fun a d p n => fieldPut 64 a d p n)))) ∧
  (∀ (s : State) (i : Nat) (v : Convoy) (w : Bool) (e : ISel) (m : IMovi) (o : ICmp),
     let le := lits e.c.lit e.a.isLit e.b.isLit false
     let lo := lits o.c.lit o.a.isLit o.b.isLit false
     (s.goes i v e.c (vregs e.a w ++ vregs e.b w ++ dregs e.d w) (vlatches e.a ++ vlatches e.b) →
       exec (if w then .selOp64 e else .selOp e) s = .next (s.retire i w e.d (wordsOf e.lits) ((s.active v e.c.g).map fun l =>
         (l, if l.f.rdP e.p then s.src v l w le.1 e.a else s.src v l w le.2.1 e.b, 0)))) ∧
     (s.goes i v m.c (dregs m.d w) [] →
       exec (if w then .movi64 m else .movi m) s = .next (s.retire i w m.d (wordsOf m.lits) ((s.active v m.c.g).map fun l =>
         (l, (if m.imm = 0x100000 then (if w then m.c.lit else (m.c.lit.setWidth 32).setWidth 64)
              else if w then m.imm.signExtend 64 else (m.imm.signExtend 32).setWidth 64), 0)))) ∧
     (s.goes i v o.c (vregs o.a w ++ bregs o.b w) (vlatches o.a ++ blatches o.b) →
       let rel (x y : DWord) : Bool := match o.cc with
         | .eq => x == y
         | .ne => x != y
         | .lt => if o.u then x.ult y else x.slt y
         | .le => if o.u then x.ule y else x.sle y
         | .gt => if o.u then y.ult x else y.slt x
         | .ge => if o.u then y.ule x else y.sle x
       let ext (x : DWord) : DWord := if w then x else if o.u then (x.setWidth 32).setWidth 64 else (x.setWidth 32).signExtend 64
       exec (if w then .icmp64 o else .icmp o) s = .next (s.retireP i o.p (wordsOf o.lits) ((s.active v o.c.g).map fun l =>
         (l, rel (ext (s.src v l w lo.1 o.a)) (ext (s.bsrc v l w lo.2.1 o.b)), 0)))))

/-- R187: what a bit field holds, bit by bit: of a field of width n at bit p, cut at the width. -/
def Obligations.BitFields : Prop :=
  ∀ (w : Nat) (a d : BitVec w) (u : Bool) (p n k : Nat), k < w →
    (fieldPut w a d p n).getLsbD k = (if p ≤ k ∧ k < p + n then a.getLsbD (k - p) else d.getLsbD k) ∧
    (fieldGet w u a p n).getLsbD k = (if k < min n (w - p) then a.getLsbD (p + k)
      else !u && decide (0 < min n (w - p)) && a.getLsbD (p + min n (w - p) - 1))

/-! ## The floating-point and conversion groups (R190–R203) -/

/-- R191, R192, R196, R193: the FP32 forms of two and three operands: the exact value rounded once, min and max, the scale, the
relations. R198: the packed forms: both 16-bit elements, each rounded once. -/
def Obligations.FloatForms : Prop :=
  (∀ (s : State) (i : Nat) (v : Convoy) (o : FBin) (m : FTri) (q : FCmp),
     let ls := lits o.c.lit o.a.isLit o.b.isLit false
     let lm := lits m.c.lit m.a.isLit m.b.isLit m.e.isLit
     let lq := lits q.c.lit q.a.isLit q.b.isLit false
     let out (f : Word → Word → Word × BitVec 8) : Result :=
       .next (s.retire i false o.d (wordsOf o.lits) ((s.active v o.c.g).map fun l =>
         (l, wide (f (s.src32 v l ls.1 o.a) (s.src32 v l ls.2.1 o.b)))))
     (s.goes i v o.c (vregs o.a false ++ vregs o.b false ++ dregs o.d false) (vlatches o.a ++ vlatches o.b) →
       exec (.fadd o) s = out (fun a b => rne ((fv a).add (fv b))) ∧
       exec (.fsub o) s = out (fun a b => rne ((fv a).add (fv b).negate)) ∧
       exec (.fmul o) s = out (fun a b => rne ((fv a).mul (fv b))) ∧
       exec (.fmin o) s = out (fminmax false) ∧
       exec (.fmax o) s = out (fminmax true) ∧
       exec (.fscale o) s = out fscale32) ∧
     (s.goes i v m.c (vregs m.a false ++ vregs m.b false ++ vregs m.e false ++ dregs m.d false)
         (vlatches m.a ++ vlatches m.b ++ vlatches m.e) →
       exec (.ffma m) s = .next (s.retire i false m.d (wordsOf m.lits) ((s.active v m.c.g).map fun l =>
         (l, wide (rne (((fv (s.src32 v l lm.1 m.a)).mul (fv (s.src32 v l lm.2.1 m.b))).add (fv (s.src32 v l lm.2.2 m.e)))))))) ∧
     (s.goes i v q.c (vregs q.a false ++ vregs q.b false) (vlatches q.a ++ vlatches q.b) →
       exec (.fcmp q) s = .next (s.retireP i q.p (wordsOf q.lits) ((s.active v q.c.g).map fun l =>
         (l, fcmpRel q.cc (fv (s.src32 v l lq.1 q.a)) (fv (s.src32 v l lq.2.1 q.b))))))) ∧
  (∀ (s : State) (i : Nat) (v : Convoy) (o : HBin) (m : HTri),
     let ls := lits o.c.lit o.a.isLit o.b.isLit false
     let lm := lits m.c.lit m.a.isLit m.b.isLit m.e.isLit
     let val (f16 : Bool) (x : Word) (e : Nat) : FV := widen (halfFmt f16) ((x.extractLsb' (16 * e) 16).toNat)
     let out (g : FV → FV → FV) : Result := .next (s.retire i false o.d (wordsOf o.lits) ((s.active v o.c.g).map fun l =>
       (l, wide (packed (halfFmt o.f16) fun e =>
         g (val o.f16 (s.src32 v l ls.1 o.a) e) (val o.f16 (s.src32 v l ls.2.1 o.b) e)))))
     (s.goes i v o.c (vregs o.a false ++ vregs o.b false ++ dregs o.d false) (vlatches o.a ++ vlatches o.b) →
       exec (.hadd2 o) s = out FV.add ∧ exec (.hmul2 o) s = out FV.mul) ∧
     (s.goes i v m.c (vregs m.a false ++ vregs m.b false ++ vregs m.e false ++ dregs m.d false)
         (vlatches m.a ++ vlatches m.b ++ vlatches m.e) →
       exec (.hfma2 m) s = .next (s.retire i false m.d (wordsOf m.lits) ((s.active v m.c.g).map fun l =>
         (l, wide (packed (halfFmt m.f16) fun e => ((val m.f16 (s.src32 v l lm.1 m.a) e).mul
           (val m.f16 (s.src32 v l lm.2.1 m.b) e)).add (val m.f16 (s.src32 v l lm.2.2 m.e) e)))))))

/-- R194, R195, R197: the FP32 forms of one operand. -/
def Obligations.FloatUnary : Prop :=
  ∀ (s : State) (i : Nat) (v : Convoy) (o : FUn),
    s.goes i v o.c (vregs o.a false ++ dregs o.d false) (vlatches o.a) →
    let out (f : Word → Word × BitVec 8) : Result :=
      .next (s.retire i false o.d (wordsOf o.lits) ((s.active v o.c.g).map fun l => (l, wide (f (s.src32 v l o.c.lit o.a)))))
    exec (.fclass o) s = out (fun a => (BitVec.ofNat 32 (2 ^ fclassBit a), 0)) ∧
    exec (.ffloor o) s = out (frndInt .rd) ∧
    exec (.fceil o) s = out (frndInt .ru) ∧
    exec (.ftrunc o) s = out (frndInt .rz) ∧
    exec (.frint o) s = out (frndInt .rn) ∧
    exec (.frcp o) s = out (special .rcp) ∧
    exec (.frsq o) s = out (special .rsq) ∧
    exec (.fsqrt o) s = out (special .sqrt) ∧
    exec (.fex2 o) s = out (special .ex2) ∧
    exec (.flg2 o) s = out (special .lg2) ∧
    exec (.fsin o) s = out (special .sin) ∧
    exec (.fcos o) s = out (special .cos) ∧
    exec (.ftanh o) s = out (special .tanh)

/-- R200–R203: the conversions, the quantise forms and dqnt; an element goes into its place and the rest of the register stays. -/
def Obligations.Conversions : Prop :=
  ∀ (s : State) (i : Nat) (v : Convoy) (o : CvtOp) (m : QntOp) (q : DqntOp),
    let lm := lits m.c.lit m.a.isLit m.scale.isLit false
    let lq := lits q.c.lit q.a.isLit q.scale.isLit false
    let out (f : QFmt) : Result := .next (s.retire i false m.d (wordsOf m.lits) ((s.active v m.c.g).map fun l =>
      let r := narrowTo f m.rm ((fv (s.src32 v l lm.1 m.a)).mul (fv (s.src32 v l lm.2.1 m.scale)))
      (l, wide (putElem ((s.old v l false m.d).setWidth 32) (elemBits f) m.pos.toNat r.1, r.2))))
    (s.goes i v o.c (vregs o.a (cvtSrc64 o.pair) ++ dregs o.d (cvtDst64 o.pair)) (vlatches o.a) →
      exec (.cvt o) s = .next (s.retire i (cvtDst64 o.pair) o.d (wordsOf o.lits) ((s.active v o.c.g).map fun l =>
        (l, cvtVal o.pair o.hi o.rm (s.src v l (cvtSrc64 o.pair) o.c.lit o.a) (s.old v l false o.d))))) ∧
    (s.goes i v m.c (vregs m.a false ++ vregs m.scale false ++ dregs m.d false) (vlatches m.a ++ vlatches m.scale) →
      exec (.qntE4m3 m) s = out .e4m3 ∧ exec (.qntE5m2 m) s = out .e5m2 ∧ exec (.qntE2m1 m) s = out .e2m1 ∧
      exec (.qntI8 m) s = out .i8 ∧ exec (.qntT2 m) s = out .t2) ∧
    (s.goes i v q.c (vregs q.a false ++ vregs q.scale false ++ dregs q.d false) (vlatches q.a ++ vlatches q.scale) →
      exec (.dqnt q) s = .next (s.retire i false q.d (wordsOf q.lits) ((s.active v q.c.g).map fun l =>
        let e := elemVal q.fmt ((s.src32 v l lq.1 q.a).toNat / 2 ^ (elemBits q.fmt * q.pos.toNat) % 2 ^ elemBits q.fmt)
        let r := rne (e.1.mul (fv (s.src32 v l lq.2.1 q.scale)))
        (l, wide (r.1, r.2 ||| e.2)))))

/-! ## Cross-lane and local memory (R206–R227) -/

/-- R207–R212: the cross-lane forms in every active lane; vote and bcast write uniform state. R213, R214: cmpst whose every word is
written, and expld whose words may be read. -/
def Obligations.CrossLane : Prop :=
  (∀ (s : State) (i : Nat) (v : Convoy) (o : ShflOp) (m : BallotOp) (q : VoteOp) (b : BcastOp) (r : RedOp),
     let ls := lits o.c.lit o.a.isLit o.b.isLit false
     (s.goes i v o.c (vregs o.a false ++ vregs o.b false ++ dregs o.d false) (vlatches o.a ++ vlatches o.b) →
       s.rangesHeld (coreOf v.spn) (s.otherRanges v (vregs o.a false)) = false →
       exec (.shfl o) s = .next (s.retire i false o.d (wordsOf o.lits) ((s.active v o.c.g).map fun l =>
         let x := shflSrc o.mode (4 * 2 ^ o.grp.toNat) l.pos (s.src32 v l ls.2.1 o.b).toNat
         (l, ((s.valueAt v ls.1 o.a x).getD (s.src32 v l ls.1 o.a)).setWidth 64, 0)))) ∧
     (s.goes i v m.c (dregs m.d false) [] →
       exec (.ballot m) s = .next (s.retire i false m.d 1 ((s.active v m.c.g).map fun l =>
         (l, BitVec.ofNat 64 (ballotMask (s.active v m.c.g) m.p m.part l.pos), 0)))) ∧
     (s.goes i v q.c [] [] →
       let act := s.active v q.c.g
       exec (.vote q) s = .next ((s.wrQ i q.q (voteTest v.u q.c.lit q.mode act.length (act.filter fun l => l.f.rdP q.p).length)).advance i
         (wordsOf q.lits))) ∧
     (s.goes i v b.c (vregs b.a false) (vlatches b.a) →
       (b.first = true → ∀ l, (s.active v b.c.g).head? = some l →
         exec (.bcast b) s = .next ((s.wrS i b.sd.toNat (s.src32 v l b.c.lit b.a)).advance i (wordsOf b.lits))) ∧
       (b.first = true → (s.active v b.c.g).head? = none → exec (.bcast b) s = .next (s.advance i (wordsOf b.lits))) ∧
       (b.first = false → s.rangesHeld (coreOf v.spn) (s.otherRanges v (vregs b.a false)) = false → exec (.bcast b) s =
         .next ((s.wrS i b.sd.toNat ((s.valueAt v b.c.lit b.a b.pos.toNat).getD 0)).advance i (wordsOf b.lits)))) ∧
     (s.goes i v r.c (vregs r.a false ++ dregs r.d false) (vlatches r.a) →
       let act := s.active v r.c.g
       let out (f : Nat → List Word × BitVec 8) : Result :=
         .next (s.retire i false r.d (wordsOf r.lits) (act.map fun l => (l, redResult (groupsOf v act f) l)))
       exec (.red r) s = out (fun g =>
         let t := redTree r.fn 6 (s.terms v act r.c.lit r.fn r.a g, 0)
         (List.replicate 64 (t.1.headD ⟨0, true⟩).x, t.2)) ∧
       exec (.scan r) s = out (fun g =>
         let t := [1, 2, 4, 8, 16, 32].foldl (fun x d => scanStep r.fn d x) (s.terms v act r.c.lit r.fn r.a g, 0)
         let xs := t.1.map fun x => scanOut r.fn x.x
         (if r.excl then redIdentity r.fn :: xs else xs, t.2)))) ∧
  (∀ (s : State) (i : Nat) (v : Convoy) (o : CmpstOp) (e : ExpldOp),
     let ls := lits o.c.lit o.a.isLit false o.so.isLit
     let k := v.u.rdK o.ks.toNat
     let off := (sval v.u ls.2.2 o.so).toNat + o.off.toNat
     let act := s.active v o.c.g
     let words := act.map fun l => (l.pos, s.src32 v l ls.1 o.a)
     let rs := act.mapIdx fun n _ => (k.lo + off + 4 * n, k.lo + off + 4 * n + 4, true)
     let ke := v.u.rdK e.ks.toNat
     let offe := (sval v.u e.c.lit e.so).toNat + e.off.toNat
     let acte := s.active v e.c.g
     (s.goes i v o.c (vregs o.a false) (vlatches o.a) →
       s.rangesHeld (coreOf v.spn) rs = false →
       s.logRoom (linesOf (k.lo + off) (4 * act.length)) v.spn 0 = true →
       (s.cmpstWords i v k off words 0).2 = true →
       exec (.cmpst o) s = .next ((((s.cmpstWords i v k off words 0).1.wrS i o.sd.toNat (BitVec.ofNat 32 act.length)).advance i
         (wordsOf o.lits)).wakeAll rs)) ∧
     (s.goes i v e.c (dregs e.d false) [] → acte ≠ [] →
       misaligned (ke.lo + offe) 4 (s.scratch (coreOf v.spn) (s.colourOf v) ke offe (4 * acte.length) permLd) = none →
       s.rangesHeld (coreOf v.spn) [(ke.lo + offe, ke.lo + offe + 4 * acte.length, false)] = false →
       exec (.expld e) s = .next (((s.dsts i false e.d (acte.mapIdx fun j l =>
         (l, BitVec.ofNat 64 (s.seenNat (some l.id) (ke.lo + offe + 4 * j) 4)))).advance i (wordsOf e.lits)).wakeAll
           [(ke.lo + offe, ke.lo + offe + 4 * acte.length, false)])))

/-- R218–R222: loads and stores whose every lane passes its checks: the lanes act in ascending position. R221, R222: ldk and stk in both
forms, whose every lane passes its checks; the tag goes through the permission and the filter. -/
def Obligations.LoadStore : Prop :=
  (∀ (s : State) (i : Nat) (v : Convoy) (o : LdOp) (m : StOp),
     let n := szBytes o.sz
     let r := (s.active v o.c.g).map fun l => s.laneAcc v (s.colourOf v) o.addr.space l (s.offsetOf v l o.c.lit o.addr n) n permLd
     let ls := lits m.c.lit m.a.isLit false m.addr.isLit
     let k := szBytes m.sz
     let q := (s.active v m.c.g).map fun l => s.laneAcc v (s.colourOf v) m.addr.space l (s.offsetOf v l ls.2.2 m.addr k) k permSt
     (s.goes i v o.c (ldRegs o.d o.sz ++ aregs o.addr) (alatches o.addr) → (∀ x ∈ r, x.bad = none) →
       s.rangesHeld (coreOf v.spn) (accRanges r n false) = false →
       exec (.ld o) s = .next (((r.foldl (fun t x => t.ldInto i x o.sz o.sx o.d) (s.markLatch i o.d)).advance i (wordsOf o.lits)).wakeAll
         (accRanges r n false))) ∧
     (s.goes i v m.c (stRegs m.a m.sz ++ aregs m.addr) (vlatches m.a ++ alatches m.addr) → (∀ x ∈ q, x.bad = none) →
       s.rangesHeld (coreOf v.spn) (accRanges q k true) = false → s.logRoom (q.flatMap fun x => linesOf x.a k) v.spn 0 = true →
       exec (.st m) s = .next (((q.foldl (fun t x => t.storeBy v.spn x.l.id x.a (s.stBytes v x.l ls.1 m.sz m.a)) s).advance i
         (wordsOf m.lits)).wakeAll (accRanges q k true)))) ∧
  (∀ (s : State) (i : Nat) (v : Convoy) (o : LdkOp) (m : StkOp),
     let lanes := if o.ud then (s.active v o.c.g).take 1 else s.active v o.c.g
     let r := lanes.map fun l => s.laneAcc v (s.colourOf v) o.addr.space l (s.offsetOf v l o.c.lit o.addr 16) 16 permLd
     let q := (s.active v m.c.g).map fun l => s.laneAcc v (s.colourOf v) m.addr.space l (s.offsetOf v l m.c.lit m.addr 16) 16 permSt
     (s.goes i v o.c ((if o.ud then [] else kRegs o.d true) ++ aregs o.addr) (alatches o.addr) → (∀ x ∈ r, x.bad = none) →
       s.rangesHeld (coreOf v.spn) (accRanges r 16 false) = false →
       exec (.ldk o) s = .next (((r.foldl (fun t x =>
         let g := s.seenCap (some x.l.id) x.a
         let c := s.filter { g with tag := g.tag && x.k.has permLdk }
         if o.ud then t.wrKs i o.d.toNat c else t.wrK x.l.f o.d.toNat c) s).advance i (wordsOf o.lits)).wakeAll (accRanges r 16 false))) ∧
     (s.goes i v m.c ((if m.us then [] else kRegs m.a false) ++ aregs m.addr) (alatches m.addr) → (∀ x ∈ q, x.bad = none) →
       s.rangesHeld (coreOf v.spn) (accRanges q 16 true) = false → s.logRoom (q.flatMap fun x => linesOf x.a 16) v.spn 0 = true →
       exec (.stk m) s = .next (((q.foldl (fun t x =>
         let g := if m.us then v.u.rdK m.a.toNat else s.rdK x.l.f m.a.toNat
         t.storeCapBy v.spn x.l.id x.a (s.filter { g with tag := g.tag && x.k.has permStk })) s).advance i (wordsOf m.lits)).wakeAll
           (accRanges q 16 true))))

/-- R223–R225: the local atomics whose every lane passes its checks: one read-modify-write a lane, in ascending position, and the region
ends. R224: what an atomic leaves in a word: the function of the old word and the operand; cas stores only where they agree. -/
def Obligations.LocalAtomics : Prop :=
  (∀ (s : State) (i : Nat) (v : Convoy) (o : AtomOp) (fn : AtomFn),
     let n := if o.w64 then 8 else 4
     let ls := lits o.c.lit o.a.isLit false o.addr.isLit
     let r := (s.active v o.c.g).map fun l =>
       s.laneAcc v (s.colourOf v) o.addr.space l (s.offsetOf v l ls.2.2 o.addr n) n (permLd ||| permSt ||| permAtom)
     let ins : Instr := match fn with
       | .add => .aadd o
       | .min => .amin o
       | .max => .amax o
       | .and => .aand o
       | .or => .aor o
       | .xor => .axor o
       | .xch => .axch o
       | .cas => .acas o
     s.goesEnd i v o.c (dregs o.d o.w64 ++ atomRegs fn o.w64 o.a ++ aregs o.addr) (vlatches o.a ++ alatches o.addr) (wordsOf o.lits) →
     (∀ x ∈ r, x.bad = none) → s.rangesHeld (coreOf v.spn) (accRanges r n true) = false →
     s.logRoom (r.flatMap fun x => linesOf x.a n) v.spn (s.active v o.c.g).length = true →
     exec ins s = .next (((r.foldl (fun t x =>
       t.atomLane i x fn o.w64 o.u o.d (s.atomArgs v x.l ls.1 fn o.w64 o.a).1 (s.atomArgs v x.l ls.1 fn o.w64 o.a).2)
         (s.markLatch i o.d)).endRegion i (wordsOf o.lits)).wakeAll (accRanges r n true))) ∧
  (∀ (u : Bool) (w a b : Word),
     atomN 32 .add u w a b = w + a ∧
     (atomN 32 .min true w a b).toNat = min w.toNat a.toNat ∧ (atomN 32 .max true w a b).toNat = max w.toNat a.toNat ∧
     (atomN 32 .min false w a b).toInt = min w.toInt a.toInt ∧ (atomN 32 .max false w a b).toInt = max w.toInt a.toInt ∧
     atomN 32 .and u w a b = w &&& a ∧ atomN 32 .or u w a b = w ||| a ∧ atomN 32 .xor u w a b = w ^^^ a ∧
     atomN 32 .xch u w a b = a ∧ (w = a → atomN 32 .cas u w a b = b) ∧ (w ≠ a → atomN 32 .cas u w a b = w))

/-- R227, R108: fence, with lanes active and with none, its end, and the resumption of a held access. R265, R266: wsig whose word may be
read waits for it, or stops for a yield request; its reread and timeout; waitc. -/
def Obligations.Waits : Prop :=
  (∀ (s : State) (i : Nat) (v : Convoy) (o : FenceOp),
     (s.goes i v o.c [] [] → s.active v o.c.g = [] → exec (.fenceOp o) s = .next (s.advance i 1)) ∧
     (s.goes i v o.c [] [] → s.active v o.c.g ≠ [] → exec (.fenceOp o) s =
       .next ((s.release v.spn ((s.active v o.c.g).map (·.id)) o.scope).hold i (.fence o.scope 1))) ∧
     (∀ n, s.mover i = some v → v.wait = .fence o.scope n → exec (.fenceDone i) s = .next (s.advance i n)) ∧
     (∀ core l, tget s.convoys i = some v → v.wait = .access core l → s.rangesHeld core l = false →
       exec (.localAccessResume i) s = .next (s.hold i .run))) ∧
  (∀ (s : State) (i : Nat) (v : Convoy) (o : WsigOp) (m : WaitcOp),
     let ls := lits o.c.lit false o.o.isLit o.v.isLit
     let k := v.u.rdK o.k.toNat
     let off := (sval v.u ls.2.1 o.o).toNat
     let w : WsigWait := { addr := k.lo + off, remote := none, cc := o.cc, v := sval v.u ls.2.2 o.v, acq := o.acq.isSome, q := o.q,
                           tmo := o.tmo, since := s.now (dieOf v.spn), words := wordsOf o.lits }
     (s.goes i v o.c [] [] → k.remote = none → s.useCause (s.colourOf v) k {} permLd false off 4 = none → (k.lo + off) % 4 = 0 →
       exec (.wsig o) s = .next (s.hold i (if v.yreq then .yielded else .wsig w))) ∧
     (s.goes i v m.c [] [] →
       (m.cls = none → exec (.waitc m) s = .next (s.advance i 1)) ∧
       (∀ x, m.cls = some x → s.counter v x ≤ m.thr.toNat → s.hasRef v x = false →
         exec (.waitc m) s = .next ((s.observe v x m.thr.toNat).advance i 1)) ∧
       (∀ x, m.cls = some x → m.thr.toNat < s.counter v x →
         exec (.waitc m) s = .next (s.hold i (if v.yreq then .yielded else .waitc x m.thr.toNat)))) ∧
     (∀ y : WsigWait, s.mover i = some v → v.wait = .wsig y →
       (y.remote = none → s.awaits [(y.addr, 4)] [] = none →
         let r := (s.settleWrites v (entriesOn y.addr (y.addr + 4) false)).readWord (plainAgent (s.colourOf v)) .rd y.addr 4
         (wccHolds y.cc (BitVec.ofNat 32 r.2.1) y.v = true → exec (.wsigReread i) s = .next ((r.1.wrQ i y.q true).advance i y.words)) ∧
         (wccHolds y.cc (BitVec.ofNat 32 r.2.1) y.v = false → exec (.wsigReread i) s = .next (if r.2.2 then s else r.1))) ∧
       (y.tmo ≠ 0 → y.since + 2 ^ (y.tmo.toNat + 9) ≤ s.now (dieOf v.spn) →
         exec (.wsigTimeout i) s = .next ((s.wrQ i y.q false).advance i y.words))) ∧
     (∀ x n, s.mover i = some v → v.wait = .waitc x n → s.counter v x ≤ n → s.hasRef v x = false →
       exec (.waitcRelease i) s = .next (((s.hold i .run).observe v x n).advance i 1)))

/-! ## Capabilities (R228–R238) -/

/-- R229–R236: the derivations in their per-lane and uniform forms: the result goes into each active lane's register, or once into the
uniform register when some lane is active. R234, R235: ctest writes the tag, or whether the capability is alive, into a predicate or
`q`; cget a field. R237: cdeleg whose every lane's block may be written. -/
def Obligations.CapForms : Prop :=
  (∀ (s : State) (i : Nat) (v : Convoy) (o : CsubOp) (m : CapVOp) (e : CsealOp) (q : CunsealOp) (z : CnullOp),
     let ls := lits o.c.lit false o.off.isLit o.len.isLit
     let out (c : Ctl) (uf : Bool) (d : BitVec 6) (n : Nat) (f : Ln → Cap) : Result :=
       .next (((if uf then (s.active v c.g).take 1 else s.active v c.g).foldl
         (fun t l => if uf then t.wrKs i d.toNat (f l) else t.wrK l.f d.toNat (f l)) s).advance i n)
     (s.goes i v o.c (capRegs o.uf o.ua o.a ++ capInt o.uf o.off true ++ capInt o.uf o.len true ++ capDst o.uf o.d)
         (capLat o.uf o.off ++ capLat o.uf o.len) →
       exec (.csub o) s = out o.c o.uf o.d (wordsOf o.lits) (fun l =>
         s.csub (s.capOf v l (o.uf || o.ua) o.a) (s.capIntOf v l o.uf true ls.2.1 o.off).toNat
           (s.capIntOf v l o.uf true ls.2.2 o.len).toNat o.exact)) ∧
     (s.goes i v m.c (capRegs m.uf m.ua m.a ++ capInt m.uf m.x false ++ capDst m.uf m.d) (capLat m.uf m.x) →
       exec (.cperm m) s = out m.c m.uf m.d (wordsOf m.lits) (fun l =>
         s.cperm (s.capOf v l (m.uf || m.ua) m.a) ((s.capIntOf v l m.uf false m.c.lit m.x).setWidth 32)) ∧
       exec (.cbale m) s = out m.c m.uf m.d (wordsOf m.lits) (fun l =>
         s.cbale (s.capOf v l (m.uf || m.ua) m.a) ((s.capIntOf v l m.uf false m.c.lit m.x).setWidth 32))) ∧
     (s.goes i v e.c (capRegs e.uf e.ua e.a ++ capRegs e.uf e.ub e.s ++ capInt e.uf e.t false ++ capDst e.uf e.d) (capLat e.uf e.t) →
       exec (.cseal e) s = out e.c e.uf e.d (wordsOf e.lits) (fun l =>
         s.cseal (s.colourOf v) (s.capOf v l (e.uf || e.ua) e.a) (s.capOf v l (e.uf || e.ub) e.s)
           ((s.capIntOf v l e.uf false e.c.lit e.t).setWidth 32))) ∧
     (s.goes i v q.c (capRegs q.uf q.ua q.a ++ capRegs q.uf q.ub q.s ++ capDst q.uf q.d) [] →
       exec (.cunseal q) s = out q.c q.uf q.d 1 (fun l =>
         s.cunseal (s.colourOf v) (s.capOf v l (q.uf || q.ua) q.a) (s.capOf v l (q.uf || q.ub) q.s))) ∧
     (s.goes i v z.c (capDst z.uf z.d) [] → exec (.cnull z) s = out z.c z.uf z.d 1 (fun _ => nullCap))) ∧
  (∀ (s : State) (i : Nat) (v : Convoy) (o : CtestOp) (m : CgetOp),
     let bit (l : Ln) : Bool :=
       let k := s.capOf v l (o.uf || o.ua) o.a
       if o.live then s.live k (s.colourOf v) else k.tag
     (s.goes i v o.c (capRegs o.uf o.ua o.a) [] →
       (o.uf = false → exec (.ctest o) s = .next (((s.active v o.c.g).foldl (fun t l => t.wrP l.id o.d (bit l)) s).advance i 1)) ∧
       (o.uf = true → exec (.ctest o) s =
         .next ((((s.active v o.c.g).take 1).foldl (fun t l => t.wrQ i (o.d.setWidth 2) (bit l)) s).advance i 1))) ∧
     (∀ d, m.d = .lane d → s.goes i v m.c (capRegs false m.ua m.a ++ dregs d (fieldWide m.field)) [] →
       exec (.cget m) s = .next ((s.dsts i (fieldWide m.field) d
         ((s.active v m.c.g).map fun l => (l, (s.capOf v l m.ua m.a).field m.field))).advance i 1)) ∧
     (∀ n, m.d = .uni n → s.goes i v m.c [] [] →
       let x := (v.u.rdK m.a.toNat).field m.field
       exec (.cget m) s = .next ((((s.active v m.c.g).take 1).foldl (fun t _ => t.modU i fun u =>
         if fieldWide m.field then u.wr64 n.toNat x else u.wr n.toNat (x.setWidth 32)) s).advance i 1))) ∧
  (∀ (s : State) (i : Nat) (v : Convoy) (o : CdelegOp),
     let regs := if o.uf then [] else capRegs false o.ua o.kb ++ kRegs o.ksrc false ++ kRegs o.kdst false ++ [⟨4 * o.xq.toNat, 8, false⟩]
     let lanes := if o.uf then (s.active v o.c.g).take 1 else s.active v o.c.g
     let r := lanes.map fun l =>
       let kb := s.capOf v l (o.uf || o.ua) o.kb
       let off := 64 * (o.blk.toNat + if o.ua && !o.uf then l.pos else 0)
       (⟨l, kb.lo + off, kb, misaligned (kb.lo + off) 64
         (s.scratch (coreOf v.spn) (s.colourOf v) kb off 64 (permSt ||| permStk ||| permDeleg))⟩ : LaneAcc)
     s.goes i v o.c (regs ++ capDst o.uf o.d) [] → (∀ x ∈ r, x.bad = none) →
     s.rangesHeld (coreOf v.spn) (accRanges r 64 true) = false → s.logRoom (r.flatMap fun x => linesOf x.a 64) v.spn 0 = true →
     exec (.cdeleg o) s = .next (((r.foldl (fun t x => t.delegLane s i v o x) s).advance i 1).wakeAll (accRanges r 64 true)))

/-- R46, R229–R233, R50: a derivation of a capability that is as R46 says, when it gives a tagged result, gives one that is as R46 says,
within its source's range and permissions; its source is tagged and not caught. -/
def Obligations.DerivationsNarrow : Prop :=
  ∀ (s : State) (k q n : Cap) (colour off len : Nat) (exact : Bool) (x : Word), k.Wf → n.tag = true →
    n = s.csub k off len exact ∨ n = s.cperm k x ∨ n = s.cseal colour k q x ∨ n = s.cunseal colour k q ∨ n = s.cbale k x →
    n.Wf ∧ k.tag = true ∧ s.caught k = false ∧ k.lo ≤ n.lo ∧ n.lo + n.len ≤ k.lo + k.len ∧ n.perms &&& k.perms = n.perms ∧
      n.kind = k.kind ∧ n.colour = k.colour ∧ n.gen = k.gen

/-- R55: the check of a use passes exactly when every condition of the rule holds. -/
def Obligations.UseCheck : Prop :=
  ∀ (s : State) (colour : Nat) (c : Cap) (u : Use) (o n : Nat),
    s.capCause colour c u o n = none ↔
      c.tag = true ∧ c.kind ∈ u.kinds ∧ (c.isSealed = false ∨ u.sealOk = true) ∧ c.colour.toNat = colour ∧
        c.gen = s.gen c.colour.toNat ∧ s.caught c = false ∧ c.perms &&& u.perms = u.perms ∧ o + n ≤ c.len

/-! ## The engine group (R241–R267, R204) -/

/-- R248, R251–R253, R255: cpy, cpy.cmd, gat, sct, stage and wb: the command is accepted with the operands read at issue, every fibre's
counter is raised, and the convoy goes on. R391, R433: a cpy.cmd of a near-memory update, an atomic or a signal takes the keys of its
events, where they were not performed before. -/
def Obligations.EngineCopies : Prop :=
  ∀ (s : State) (i : Nat) (v : Convoy) (o : CpyOp) (m : CpyCmdOp) (g : GsOp) (e : StageOp) (w : WbOp),
    let out (slot : Bool) (cls : Cls) (n : Nat) (op : CmdOp) : Result := .next ((s.accepted i v (s.newCmd i v cls slot op [])).advance i n)
    let idx := (s.active v g.c.g).map fun l => (l.pos, (s.src32 v l g.c.lit g.idx).toNat)
    let all : State × List EventKey :=
      ((s.lanes v).map (·.id)).foldl (fun x j => ((x.1.takeKey j).1, x.2 ++ (x.1.takeKey j).2)) (s, [])
    let kc := v.u.rdK m.kc.toNat
    let loc := m.loc.map fun l => v.u.rdK l.toNat
    let ga := CmdOp.gather (v.u.rdK g.kd.toNat) (v.u.rdK g.ka.toNat) (v.u.rd64 g.p.toNat).toNat (v.u.rd64 (g.p.toNat + 2)).toNat
      (v.u.rd (g.p.toNat + 5)).toNat g.esz idx
    let sc := CmdOp.scatter (v.u.rdK g.kd.toNat) (v.u.rdK g.ka.toNat) (v.u.rd64 g.p.toNat).toNat (v.u.rd64 (g.p.toNat + 2)).toNat
      (v.u.rd (g.p.toNat + 5)).toNat g.esz idx
    let cp := CmdOp.cpy (v.u.rdK o.kd.toNat) (v.u.rdK o.ka.toNat) (v.u.rd64 o.p.toNat).toNat (v.u.rd64 (o.p.toNat + 2)).toNat
      (v.u.rd (o.p.toNat + 4)).toNat
    let st := CmdOp.stage (v.u.rdK e.k.toNat) (sval v.u e.c.lit e.i).toNat e.back
    let wb := CmdOp.wb (v.u.rdK w.k.toNat) (v.u.rd64 (w.p.toNat + 2)).toNat (v.u.rd (w.p.toNat + 4)).toNat w.inv
    (s.goes i v o.c [] [] → s.engineGoes v .ecp cp → exec (.cpy o) s = out true .ecp 1 cp) ∧
    (s.goes i v m.c [] [] → s.engineGoes v .ecp (.block kc loc) →
      (kc.remote ≠ none ∨ kc.otype.toNat < 5 ∨ 7 < kc.otype.toNat → exec (.cpyCmd m) s = out false .ecp 1 (.block kc loc)) ∧
      (kc.remote = none → 5 ≤ kc.otype.toNat → kc.otype.toNat ≤ 7 → s.freshEvents v → exec (.cpyCmd m) s =
        .next ((all.1.accepted i v (s.newCmd i v .ecp false (.block kc loc) all.2)).advance i 1))) ∧
    (s.goes i v g.c (vregs g.idx false) (vlatches g.idx) → s.engineGoes v .egs ga →
      exec (.gat g) s = out true .egs (wordsOf g.lits) ga) ∧
    (s.goes i v g.c (vregs g.idx false) (vlatches g.idx) → s.engineGoes v .egs sc →
      exec (.sct g) s = out true .egs (wordsOf g.lits) sc) ∧
    (s.goes i v e.c [] [] → s.engineGoes v .ecp st → exec (.stage e) s = out true .ecp (wordsOf e.lits) st) ∧
    (s.goes i v w.c [] [] → s.engineGoes v .ecp wb → exec (.wb w) s = out true .ecp 1 wb)

/-- R245, R258: mma and mmac in every format: the command is accepted, and MXSEQ is raised. R260, R204: the tile instructions aclr, ald,
ast and sacc. -/
def Obligations.EngineMatrix : Prop :=
  (∀ (s : State) (i : Nat) (v : Convoy) (o : MmaOp) (m : MmacOp),
     let out (op : CmdOp) : Result := .next ((s.accepted i v (s.newCmd i v .emx true op [])).advance i 1)
     let par (p : BitVec 6) : List Word := (List.range 8).map fun j => v.u.rd (p.toNat + j)
     let a (f : MxFmt) := CmdOp.mma f o.f16 o.ad.toNat (v.u.rdK o.ka.toNat) (v.u.rdK o.kb.toNat) (par o.p)
     let c (f : MxFmt) := CmdOp.mmac f m.f16 m.ad.toNat m.as.toNat (v.u.rdK m.kb.toNat) (par m.p)
     (s.goes i v o.c [] [] → ∀ x ∈ ([(.mmaE4m3 o, .e4m3), (.mmaE5m2 o, .e5m2), (.mmaE2m1 o, .e2m1), (.mmaBf16 o, .bf16), (.mmaI8 o, .i8),
         (.mmaT8 o, .t8)] : List (Instr × MxFmt)), s.engineGoes v .emx (a x.2) → exec x.1 s = out (a x.2)) ∧
     (s.goes i v m.c [] [] → ∀ x ∈ ([(.mmacE4m3 m, .e4m3), (.mmacE5m2 m, .e5m2), (.mmacE2m1 m, .e2m1), (.mmacBf16 m, .bf16), (.mmacI8 m, .i8),
         (.mmacT8 m, .t8)] : List (Instr × MxFmt)), s.engineGoes v .emx (c x.2) → exec x.1 s = out (c x.2))) ∧
  (∀ (s : State) (i : Nat) (v : Convoy) (z : AclrOp) (o : AldOp) (m : AstOp) (q : SaccOp) (r : SaccVOp),
     let out (slot : Bool) (n : Nat) (op : CmdOp) : Result := .next ((s.accepted i v (s.newCmd i v .emx slot op [])).advance i n)
     let par (p : BitVec 6) : List Word := (List.range 8).map fun j => v.u.rd (p.toNat + j)
     let al := CmdOp.ald o.ad.toNat (v.u.rdK o.ka.toNat) (par o.p)
     let at_ := CmdOp.ast (v.u.rdK m.kd.toNat) m.as.toNat (par m.p) m.fmt
     let sa := CmdOp.sacc q.ad.toNat q.ap.toNat (sval v.u q.c.lit q.scale) q.i32
     let sv := CmdOp.saccV r.ad.toNat r.ap.toNat (v.u.rdK r.ks.toNat) ((sval v.u r.c.lit r.o).toNat + 16 * r.off.toNat) r.i32
     (s.goes i v z.c [] [] → s.engineGoes v .emx (.aclr z.ad.toNat) → exec (.aclr z) s = out true 1 (.aclr z.ad.toNat)) ∧
     (s.goes i v o.c [] [] → s.engineGoes v .emx al → exec (.ald o) s = out true 1 al) ∧
     (s.goes i v m.c [] [] → s.engineGoes v .emx at_ → exec (.ast m) s = out true 1 at_) ∧
     (s.goes i v q.c [] [] → s.engineGoes v .emx sa → exec (.sacc q) s = out false (wordsOf q.lits) sa) ∧
     (s.goes i v r.c [] [] → s.engineGoes v .emx sv → exec (.saccV r) s = out false (wordsOf r.lits) sv)) ∧
  (∀ (s : State) (i : Nat) (v : Convoy) (slot : Bool) (op : CmdOp) (keys : List EventKey), tget s.convoys i = some v →
     ∃ w, tget (s.accepted i v (s.newCmd i v .emx slot op keys)).convoys i = some w ∧ w.u.mxseq = v.u.mxseq + 1)

/-- R261–R264: clx, nmc, gatm and sig, whose events were not performed before a rollback. -/
def Obligations.EngineRemote : Prop :=
  ∀ (s : State) (i : Nat) (v : Convoy) (o : ClxOp) (m : NmcOp) (g : GatmOp) (q : SigOp),
    let lq := lits q.c.lit false q.o.isLit q.v.isLit
    let keysOf (l : List Nat) : State × List EventKey :=
      l.foldl (fun x j => ((x.1.takeKey j).1, x.2 ++ (x.1.takeKey j).2)) (s, [])
    let all := keysOf ((s.lanes v).map (·.id))
    let cx := CmdOp.clx (v.u.rdK o.kd.toNat) (v.u.rdK o.ka.toNat) (v.u.rd64 o.p.toNat).toNat (v.u.rd64 (o.p.toNat + 2)).toNat
      (v.u.rd (o.p.toNat + 4)).toNat (v.u.rd (o.p.toNat + 5)) o.fn o.i32
    let nm := CmdOp.nmc (v.u.rdK m.kt.toNat) (v.u.rdK m.kg.toNat) (v.u.rd64 m.p.toNat).toNat (v.u.rd64 (m.p.toNat + 2)).toNat
      (v.u.rd (m.p.toNat + 4)).toNat (v.u.rd (m.p.toNat + 5)) (v.u.rd (m.p.toNat + 6)) m.fn
    let ga := CmdOp.gatm (v.u.rdK g.k.toNat) g.fn g.w64 g.u g.d (s.gatmLanes v (s.active v g.c.g) g)
    let sg := CmdOp.sig (v.u.rdK q.k.toNat) (sval v.u lq.2.1 q.o).toNat (sval v.u lq.2.2 q.v) q.add q.rel
    (s.goes i v o.c [] [] → s.engineGoes v .ecl cx →
      exec (.clx o) s = .next ((s.accepted i v (s.newCmd i v .ecl true cx [])).advance i 1)) ∧
    (s.goes i v m.c [] [] → s.engineGoes v .enm nm → s.freshEvents v →
      exec (.nmc m) s = .next ((all.1.accepted i v (s.newCmd i v .enm true nm all.2)).advance i 1)) ∧
    (∀ s1 op keys, s.goesEnd i v g.c (dregs g.d g.w64 ++ vregs g.o false ++ atomRegs g.fn g.w64 g.a) (vlatches g.o ++ vlatches g.a)
        (wordsOf g.lits) →
      s.engineGoes v .eat ga → gatmEvents g.w64 g.d s v (s.active v g.c.g) ga = some (s1, op, keys) →
      exec (.gatm g) s = .next ((s1.accepted i v (s.newCmd i v .eat true op keys)).endRegion i (wordsOf g.lits)) ∧
      (∀ l, s.active v g.c.g = [l] → s.lookup l.f = none → tget s.fibres l.id = some l.f →
        op = ga ∧ keys = [⟨l.f.fidx, l.f.regcnt, l.f.ordn⟩])) ∧
    (s.goesEnd i v q.c [] [] (wordsOf q.lits) → s.engineGoes v .eat sg → s.freshEvents v →
      exec (.sig q) s = .next ((all.1.accepted i v (s.newCmd i v .eat true sg all.2)).endRegion i (wordsOf q.lits)))

/-- R267, R68, R70: revoke enters its range into the revocation set, in the pass whose number it writes to the destination; from then on
the capability is caught. -/
def Obligations.RevokeCatches : Prop :=
  ∀ (s : State) (i : Nat) (v : Convoy) (o : RevokeOp),
    let k := v.u.rdK o.k.toNat
    s.goes i v o.c [] [] → o.sg = none → s.capCause (s.colourOf v) k { kinds := [kindData], perms := permDeleg } 0 0 = none →
    (s.rev.entries.filter fun e => e.owner.isNone).length < revokeEntries →
    ∃ t, exec (.revoke o) s = .next t ∧ t.caught k = true ∧
      (∃ e ∈ t.rev.entries, e.base = k.lo ∧ e.len = k.len ∧ e.colours = [k.colour.toNat] ∧ e.pass = (s.joinPass (dieOf v.spn)).1) ∧
      (∃ w, tget t.convoys i = some w ∧ w.u.rd o.sd.toNat = BitVec.ofNat 32 (s.joinPass (dieOf v.spn)).1)

/-! ## Control (R268–R285) -/

/-- R269, R149, R153: bra goes to its target, header + 8 × the immediate, or falls through when its condition fails; it never splits.
R269, R80, R268, R374: the forms resolved per lane: each active lane has its own target, the others fall through; a call pushes the
fall-through address, and a brx adds its code range. -/
def Obligations.Branches : Prop :=
  (∀ (s : State) (i : Nat) (v : Convoy) (o : BraOp), s.goes i v {} [] [] →
     let imm : Int := if o.imm = 0x100000 then o.c.lit.toInt else o.imm.toInt
     let target : Addr := (((v.hdr : Int) + 8 * imm) % 2 ^ 52).toNat
     let fall : Addr := v.hdr + 8 * (v.words + 1)
     let taken : Bool := match o.cond with
       | some (neg, q) => v.u.q.getLsbD q.toNat != neg
       | none => true
     ∃ t w, exec (.bra o) s = .next t ∧ tget t.convoys i = some w ∧ w.hdr = (if taken then target else fall) ∧ w.wi = 0 ∧
       w.wait = .clause ∧ w.fib = v.fib ∧ w.slices = v.slices ∧ w.u = v.u ∧ w.latw = 0 ∧ t.fibres = s.fibres ∧ t.mem = s.mem ∧
       t.tags = s.tags ∧ t.serais = s.serais) ∧
  (∀ (s : State) (i : Nat) (v : Convoy) (o : BrOp) (b : BrxOp) (c : Ctl) (g : Wg),
     let imm : Int := if o.imm = 0x100000 then o.c.lit.toInt else o.imm.toInt
     let target : Addr := (((v.hdr : Int) + 8 * imm) % 2 ^ 52).toNat
     let fall : Addr := v.hdr + 8 * (v.words + 1)
     let goTo (t : State) (ts : List (Ln × Addr)) : State := (t.issued i).resolve i ((s.lanes v).map fun l =>
       match ts.find? fun x => x.1.pos == l.pos with
       | some x => (l, x.2)
       | none => (l, fall))
     let pushes (t : State) (ts : List (Ln × Addr)) : State :=
       let need := (ts.filter fun x => x.1.f.needsFrame).length
       ts.foldl (fun s x => s.modFibre x.1.id fun f => f.push fall) (t.modSp v.spn fun p => { p with frames := p.frames + need })
     let room (ts : List (Ln × Addr)) : Prop := (∀ x ∈ ts, x.1.f.depth < 256) ∧
       (s.sp v.spn).frames + (ts.filter fun x => x.1.f.needsFrame).length ≤ framePool
     let at_ := (s.active v o.c.g).map fun l => (l, target)
     (s.goes i v o.c [] [] → exec (.brc o) s = .next (goTo s at_)) ∧
     (s.goes i v o.c [] [] → room at_ → exec (.callOp o) s = .next (goTo (pushes s at_) at_)) ∧
     (∀ ts rs, s.goes i v b.c (if b.uf then [] else kRegs b.k false ++ vregs b.o false) (if b.uf then [] else vlatches b.o) →
       tget s.wgs v.wg = some g → s.brxLanes v b g.ranges (s.active v b.c.g) = .ok (ts, rs) →
       let s1 := s.modWg v.wg fun g => { g with ranges := rs }
       exec (.brx b) s = .next (goTo s1 ts) ∧ (room ts → exec (.calli b) s = .next (goTo (pushes s1 ts) ts))) ∧
     (s.goes i v c [] [] → (∀ l ∈ s.active v c.g, l.f.depth ≠ 0) →
       exec (.ret c) s = .next (goTo (((s.active v c.g).foldl (fun t l => (t.modFibre l.id fun f => f.pop.2).modSp v.spn fun p =>
         { p with frames := p.frames + framesOf l.f.pop.2.frames.length - framesOf l.f.frames.length }) s).wakeFrames)
           ((s.active v c.g).map fun l => (l, l.f.pop.1)))))

/-- R269: any form whose chosen targets agree does not split: the convoy keeps its fibres and goes to that target. -/
def Obligations.NoSplitWhereTargetsAgree : Prop :=
  ∀ (s : State) (c : Nat) (v : Convoy) (ts : List (Ln × Addr)) (a : Addr),
    tget s.convoys c = some v → ts ≠ [] → (∀ x ∈ ts, x.2 = a ∧ x.1.pos < v.positions) →
    ∃ t w, s.resolve c ts = t ∧ tget t.convoys c = some w ∧ w.hdr = a ∧ w.fib = v.fib ∧ w.slices = v.slices ∧ w.wait = .clause ∧
      t.fibres = s.fibres ∧ t.serais = s.serais ∧ ∀ j, j ≠ c → tget t.convoys j = tget s.convoys j

/-- R88, R374, R375: the return stack is last in, first out, over its entries on chip and its frames. -/
def Obligations.ReturnStack : Prop :=
  ∀ (f : Fibre) (a : Addr), f.rstk.length ≤ 4 →
    (f.push a).pop.1 = a ∧ (f.push a).pop.2.rstk ++ (f.push a).pop.2.frames = f.rstk ++ f.frames ∧ (f.push a).depth = f.depth + 1 ∧
      (f.push a).rstk.length ≤ 4 ∧ (f.depth ≠ 0 → f.pop.2.depth + 1 = f.depth ∧ f.pop.1 = (f.rstk ++ f.frames).headD 0)

/-- R270, R85, R76, R381: region, yield, fuse, end, nop and trap of a convoy that holds no refusal bit. -/
def Obligations.FibreControl : Prop :=
  ∀ (s : State) (i : Nat) (v : Convoy) (o : RegionOp) (c : Ctl) (m : TrapOp) (g : Wg),
    (s.goes i v o.c (dregs o.d false) [] → exec (.regionOp o) s =
      .next (s.retire i false o.d 1 ((s.active v o.c.g).map fun l => (l, l.f.regcnt.setWidth 64, 0)))) ∧
    (s.goes i v {} [] [] → s.refOf v allCls = none →
      exec (.yieldOp c) s = .next (((s.modConvoy i fun v => { v.goto v.nextClause with wait := (if v.yreq then .yielded else .clause) }).issued
        i).count (s.wgColour v.wg) 0 6 (if v.yreq then 1 else 0)) ∧
      ∃ t, exec (.fuse c) s = .next t ∧ t.cur = none ∧ tget t.convoys i = none ∧ t.mem = s.mem) ∧
    (s.goes i v c [] [] → s.refOf v allCls = none → tget s.wgs v.wg = some g →
      exec (.endOp c) s = .next (((((((s.modConvoy i fun v => v.goto v.nextClause).issued i).endFibres i
        ((s.active v c.g).map (·.id))).dropEmpty i).settleBar v.wg)).settleAbort g.launch)) ∧
    (s.goes i v c [] [] → exec (.nopOp c) s = .next (s.advance i 1)) ∧
    (s.goes i v m.c [] [] → s.active v m.c.g = [] → exec (.trapOp m) s = .next (s.advance i 1)) ∧
    (s.goes i v m.c [] [] → 0x800 ≤ m.code.toNat → s.haltHeld (s.colourOf v) = false → exec (.trapOp m) s = .next (s.advance i 1)) ∧
    (∀ l, s.goes i v m.c [] [] → (s.active v m.c.g).head? = some l → m.code.toNat < 0x800 →
      exec (.trapOp m) s = .next (s.trap i { cls := 0x07, code := m.code.toNat, pos := l.pos })) ∧
    (∀ l, s.goes i v m.c [] [] → (s.active v m.c.g).head? = some l → 0x800 ≤ m.code.toNat → s.haltHeld (s.colourOf v) = true →
      exec (.trapOp m) s = .next (s.halt i m.code.toNat l.pos))

/-- R271, R273, R272, R306: grow and spawn whose rows are free, and those that wait, shrink, and bar at its scopes. -/
def Obligations.WindowsAndBarriers : Prop :=
  ∀ (s : State) (i : Nat) (v : Convoy) (o : GrowOp) (m : SpawnOp) (b : BarOp),
    let ids := (s.active v o.c.g).map (·.id)
    let rows := 8 * (m.sz8.toNat + 1)
    (s.goes i v o.c [] [] → (∀ l ∈ s.active v o.c.g, l.f.wbase + l.f.wsize + o.n.toNat ≤ 256) → (s.growAll o.n.toNat ids).2 = [] →
      exec (.grow o) s = .next ((s.growAll o.n.toNat ids).1.advance i 1)) ∧
    (s.goes i v o.c [] [] → (∀ l ∈ s.active v o.c.g, o.n.toNat + 8 ≤ l.f.wsize) →
      exec (.shrink o) s = .next (((s.active v o.c.g).foldl (fun t l => t.modFibre l.id fun f => { f with wsize := f.wsize - o.n.toNat }) s).advance
        i 1)) ∧
    (∀ ls, s.goes i v m.c (vregs m.a false) (vlatches m.a) → takeIndices (s.indicesHeld v.wg) (s.active v m.c.g) = .ok ls →
      let r := s.spawnAll v rows (labelOf v m.imm m.c.lit) (ls.map fun x => (x.1.pos, x.2, s.src32 v x.1 m.c.lit m.a))
      r.2 = [] → exec (.spawn m) s = .next (r.1.advance i (wordsOf m.lits))) ∧
    (s.goes i v {} [] [] →
      (b.scope = .convoy → exec (.bar b) s = .next (((s.releaseAll v .convoy).modConvoy i fun v => v.goto v.nextClause).issued i)) ∧
      (∀ g, b.scope = .core → tget s.wgs v.wg = some g →
        exec (.bar b) s = .next ((((s.releaseAll v .core).issued i).hold i (.bar none g.core)).settleBar v.wg)) ∧
      (∀ k x, b.scope ≠ .convoy → b.scope ≠ .core → s.barSlot v b.scope b.slot = some (k, x) → x.broken = false → s.freshEvents v →
        exec (.bar b) s = .next ((((((s.lanes v).foldl (fun t l => t.logEvent l.id [BitVec.ofNat 64 x.phase] []) s).releaseAll v x.scope).issued
          i).hold i (.bar (some k) x.phase)).settleBar v.wg)))

/-- R276–R278: launch, qpush, qpop and qslots on a queue of this package. -/
def Obligations.QueueInstructions : Prop :=
  ∀ (s : State) (i : Nat) (v : Convoy) (o : QpushOp) (m : LaunchOp) (p : QpopOp) (q : QslotsOp),
    let x : QueueWait := { push := true, nb := o.nb, launch := false, kq := v.u.rdK o.kq.toNat, kr := v.u.rdK o.kr.toNat,
                           off := (sval v.u o.c.lit o.so).toNat, n := o.n1.toNat + 1, q := some o.q, words := wordsOf o.so.isLit }
    let y : QueueWait := { push := true, nb := false, launch := true, kq := v.u.rdK m.kq.toNat, kr := v.u.rdK m.kr.toNat,
                           off := (sval v.u m.c.lit m.so).toNat, n := 4, q := none, words := wordsOf m.so.isLit }
    let z : QueueWait := { push := false, nb := p.nb, launch := false, kq := v.u.rdK p.kq.toNat, kr := v.u.rdK p.kr.toNat,
                           off := (sval v.u p.c.lit p.so).toNat, n := 0, q := some p.q, words := wordsOf p.so.isLit }
    let k := v.u.rdK q.kq.toNat
    let free (w : QueueWait) : Prop :=
      s.rangesHeld (coreOf v.spn) [(w.kr.lo + w.off, w.kr.lo + w.off + 64 * w.n, false)] = false ∧ w.kq.remote = none
    (s.goesEnd i v o.c [] [] (wordsOf o.so.isLit) → s.freshEvents v → free x →
      (s.pushRoom v x → exec (.qpush o) s = .next (s.reservePush i v x)) ∧
      (s.pushReach v x → x.n ≤ (s.qhdr x.kq.lo).cap → (s.qhdr x.kq.lo).room x.n = false → o.nb = true →
        exec (.qpush o) s = .next (((s.logWide v false).wrQ i o.q false).endRegion i (wordsOf o.so.isLit)))) ∧
    (s.goesEnd i v m.c [] [] (wordsOf m.so.isLit) → s.freshEvents v → free y → s.pushRoom v y →
      exec (.launchOp m) s = .next (s.reservePush i v y)) ∧
    (s.goes i v p.c [] [] → ((s.lanes v).head?.bind fun l => s.poppedBefore l.f) = none → z.kq.remote = none →
      s.queueCause (s.colourOf v) z.kq (permLd ||| permSt) 0 64 = none → s.headerLost (s.colourOf v) z.kq.lo = false → s.headerBad z.kq.lo = false →
      let h := s.qhdr z.kq.lo
      let f := s.found z.kq.lo
      (h.crsv = h.tail → p.nb = true → exec (.qpop p) s = .next
        ((((s.lanes v).foldl (fun t l => t.modFibre l.id fun f => { f with pops := f.pops + 1 }) s).wrQ i p.q false).advance i z.words)) ∧
      (h.crsv ≠ h.tail → h.head = h.crsv → f.cause = 0 → f.skip = false →
        s.awaits [(slotAddr z.kq.lo (h.crsv % h.cap), 64 * f.m)] [(z.kq.lo, 64), (z.kr.lo + z.off, 64 * f.m)] = none →
        s.queueCause (s.colourOf v) z.kq (permLd ||| permSt) (slotAddr z.kq.lo (h.crsv % h.cap) - z.kq.lo)
          (64 * min f.m (h.cap - h.crsv % h.cap)) = none →
        s.logRoom (linesOf z.kq.lo 64 ++ linesOf (z.kr.lo + z.off) (64 * f.m)) v.spn ((s.lanes v).length * (1 + 2 * f.m)) = true →
        s.rangesHeld (coreOf v.spn) [(z.kr.lo + z.off, z.kr.lo + z.off + 64 * f.m, true)] = false →
        exec (.qpop p) s = .next ((s.reservePop v z h.crsv f.m).takeRecord i v { z with n := f.m } h.crsv))) ∧
    (s.goes i v q.c [] [] → k.remote = none → s.queueCause (s.colourOf v) k permLd 0 64 = none → s.headerLost (s.colourOf v) k.lo = false → s.headerBad k.lo = false →
      s.awaits [(k.lo, 64)] [] = none →
      exec (.qslots q) s = .next (((s.readLines (s.convoyAgent v) .rd k.lo 64).1.wrS i q.sd.toNat
        (BitVec.ofNat 32 (s.qhdr k.lo).free)).advance i 1))

/-- R282, R418, R158, R163, R164: sysrd and syswr of a register that the view reaches, rep, one element of lnest, and a word with an
unassigned opcode. -/
def Obligations.SystemAndLoops : Prop :=
  ∀ (s : State) (i : Nat) (v : Convoy) (o : SysrdOp) (m : SyswrOp) (p : RepOp) (e : LnestOp) (w : DWord) (g : Wg),
    let x (l : Ln) : Word := s.src32 v l m.c.lit m.a
    (∀ r, s.goes i v o.c (dregs o.d false) [] → s.active v o.c.g ≠ [] → privCause (s.hostView v) false o.num.toNat = none →
      sysReg o.num.toNat = some r →
      exec (.sysrd o) s = .next (((s.denyFor r).dsts i false o.d ((s.active v o.c.g).map fun l =>
        (l, (s.sysValue v l (s.hostView v) r).setWidth 64))).advance i 1)) ∧
    (∀ l r, s.goes i v m.c (vregs m.a false) (vlatches m.a) → (s.active v m.c.g).head? = some l →
      privCause (s.hostView v) true m.num.toNat = none → sysReg m.num.toNat = some r →
      exec (.syswr m) s = .next ((match r with
        | .fpstat => s.modConvoy i fun v => { v with fpstat := (x l).setWidth 8 }
        | .bwphase => s.setBwphase v.wg ((x l).setWidth 3)
        | _ => s.writeSys v.spn (x l) r).advance i (wordsOf m.a.isLit))) ∧
    (∀ y ws, s.goes i v {} [] [] → tget s.wgs v.wg = some g →
      s.fetchWords g (v.hdr + 8 * (2 + v.wi)) (v.words - (v.wi + 1)) = y :: ws → repMisuse p y (ws.headD 0) = false →
      exec (.repOp p) s =
        .next ((s.modConvoy i fun v => { v with rep := some p.enc, repcnt := 0, wi := v.wi + 1, wait := .run }).issued i)) ∧
    (let n := v.lncur.toNat
     let sz := lnSize e.ty
     let off (r : BitVec 6) (st : LnLevel → BitVec 10) : Int := ((v.u.rd r.toNat).toNat : Int) + lnOffset st e.levels n * sz
     let rd := lnReads e.fn
     let d := s.lnAcc v (v.u.rdK e.kd.toNat) (off e.od (·.sd)) sz (if rd.1 then permLd ||| permSt else permSt)
     let a := s.lnAcc v (v.u.rdK e.ka.toNat) (off e.oa (·.sa)) sz permLd
     let b := s.lnAcc v (v.u.rdK e.kb.toNat) (off e.ob (·.sb)) sz permLd
     let me := s.firstFibre v
     let get (x : Addr) : Nat := s.seenNat (some me) x sz
     let r := lnApply e.ty e.fn (get d.1) (get a.1) (if rd.2.2 then get b.1 else 0)
     let rs := (d.1, d.1 + sz, true) :: (a.1, a.1 + sz, false) :: (if rd.2.2 then [(b.1, b.1 + sz, false)] else [])
     let s1 := ((s.storeBy v.spn me d.1 (leBytes sz r.1)).setFlags i r.2).wakeAll rs
     s.goes i v {} [] [] → d.2 = none → a.2 = none → (rd.2.2 = true → b.2 = none) →
     s.rangesHeld (coreOf v.spn) rs = false → s.logRoom (linesOf d.1 sz) v.spn 0 = true →
     exec (.lnest e) s = .next (if n + 1 < lnCount e
       then (s1.modConvoy i fun v => { v with lncur := BitVec.ofNat 32 (n + 1), wait := .run }).issued i
       else (s1.modConvoy i fun v => { v with lncur := 0 }).advance i 4)) ∧
    (s.cur = some i → exec (.unassignedOpcodeIssue w) s = .next (s.trap i { cls := 0x01, code := 0x010 }))

/-! ## Decoding and the step -/

/-- R144–R166, R230: words written out from the encodings decode to their instructions: `nop`, `end`, `mov v22, v1`, `ballot.below v4, p1`,
`rep 4, d=+1`,
`qnt.e4m3.ru v9, v1, s2, 3`; a reserved guard, a reserved binding time, an unassigned opcode. -/
def Obligations.DecodeWords : Prop :=
  decode 0x7500000000000000 [] = .ok (.nopOp {}) 1 ∧
  decode 0x7280000000000000 [] = .ok (.endOp {}) 1 ∧
  decode 0x0E80_0B00_4000_0000 [] = .ok (.movOp { c := {}, d := .v 22, a := .v 1 }) 1 ∧
  decode 0x74C0_0C00_4000_0000 [] = .ok (.repOp { bt := .dyn, cnt := 3, std := 1, sta := 0, stb := 0, stc := 0 }) 1 ∧
  decode 0x2040_0480_6840_000E [] = .ok (.qntE4m3 { c := {}, d := .v 9, a := .v 1, scale := .s 2, pos := 3, rm := .ru }) 1 ∧
  decode 0x7508000000000000 [] = .illegal 0x013 ∧
  decode 0x7530000000000000 [] = .illegal 0x011 ∧
  decode 0x0000000000000000 [] = .ok (.unassignedOpcodeIssue 0) 1

/-- R149–R166: decoding what the encoder writes of a well-formed instruction gives it back, with its length, whatever words follow. -/
def Obligations.DecodeOfEncode : Prop :=
  ∀ (i : Instr) (rest : List DWord), i.isWord = true → WellFormed i →
    ∃ w ws, encode i = w :: ws ∧ decode w (ws ++ rest) = .ok i (ws.length + 1)

/-- R149–R166: encoding what a word and the words after it decode to gives those words back: no bit of an encoding is dropped. R180,
R398: what the decoder answers is well formed. -/
def Obligations.EncodeOfDecode : Prop :=
  (∀ (w : DWord) (rest : List DWord) (i : Instr) (n : Nat), decode w rest = .ok i n → n - 1 ≤ rest.length →
     encode i = w :: rest.take (n - 1)) ∧
  (∀ (w : DWord) (rest : List DWord) (i : Instr) (n : Nat), decode w rest = .ok i n → WellFormed i ∧ 1 ≤ n ∧ n ≤ 4)

/-- R143, R304, R268, R158: with nothing on the agenda, and where it is the issue's turn or no unit of the package has a step due, a step
of a state in which a convoy is chosen that runs within a clause fetches the word at its place, decodes it, and is exec of the
instruction there; a single-stepped SP then halts. The agenda (log entry 3, the model's choice): its first event is the step, on the
state in which time has passed. -/
def Obligations.StepRunsDecoded : Prop :=
  (∀ (s : State) (c : Nat) (v : Convoy) (g : Wg) (w : DWord) (ws : List DWord) (i : Instr) (n : Nat),
     s.ev = [] → (s.own = false ∨ s.tick.due = none) → s.tick.pick = some (c, v) → v.wait = .run → v.rep = none →
     let t := s.tick.chosen c v
     tget t.wgs v.wg = some g → t.fetchWords g (v.hdr + 8 * (1 + v.wi)) (v.words - v.wi) = w :: ws → decode w ws = .ok i n →
     t.cur = some c ∧ step s = afterIssue c v.spn (exec i t) ∧
       (∀ u, exec i t = .next u → (u.sp v.spn).stepping = false → step s = .next u)) ∧
  (∀ (s : State) (e : Instr) (rest : List Instr), s.ev = e :: rest →
     step s = exec e { s.tick with ev := rest })

/-- R398–R400, R402: a word that the decoder refuses raises ILLEGAL with its lowest sub-cause, which is that of its fall-through clause
where the word would end its region and that clause is not one for it; a word that no code range holds raises
FETCH. -/
def Obligations.StepTrapsIllegal : Prop :=
  ∀ (s : State) (c : Nat) (v : Convoy) (g : Wg),
    s.ev = [] → (s.own = false ∨ s.tick.due = none) → s.tick.pick = some (c, v) → v.wait = .run → v.rep = none →
    let t := s.tick.chosen c v
    let ws := t.fetchWords g (v.hdr + 8 * (1 + v.wi)) (v.words - v.wi)
    tget t.wgs v.wg = some g →
    (∀ w r n, ws = w :: r → decode w r = .illegal n → (decodeAll w r).1.val.endsRegion = false →
      step s = .next (t.trap c { cls := 0x01, code := n })) ∧
    (∀ w r n, ws = w :: r → decode w r = .illegal n → (decodeAll w r).1.val.endsRegion = true →
      (t.fallBad v (decodeAll w r).2 = none → step s = .next (t.trap c { cls := 0x01, code := n })) ∧
      (∀ b, t.fallBad v (decodeAll w r).2 = some b → b.cls = 0x03 → step s = .next (t.trap c { cls := 0x01, code := n })) ∧
      (∀ b, t.fallBad v (decodeAll w r).2 = some b → b.cls = 0x01 → step s = .next (t.trap c { cls := 0x01, code := min b.code n }))) ∧
    (ws = [] → step s = .next (t.trap c { cls := 0x03, code := 0x211, pc := some v.hdr, wi := some 0 }))

/-! ## Reset and invariants -/

/-- R45, R366, R111, R113, R284: cold reset: no tag is set; nothing is resident; YDEADL is 65,536, TEMPERIV 256; every VD's masks are
empty but those of VD 0 and of firmware; every bank set is off and not allocated. The store's canonical form holds at reset. -/
def Obligations.ResetValues : Prop :=
  (let s := State.reset
   s.tags = [] ∧ s.convoys = [] ∧ s.fibres = [] ∧ s.wgs = [] ∧ s.launches = [] ∧ s.cmds = [] ∧ s.worlds = [] ∧ s.rev.entries = [] ∧
     (∀ p, (s.sp p).temperiv = 256) ∧ (∀ c, (s.core c).ydeadl = 0x10000) ∧ (∀ a, s.tagAt a = false) ∧
     (∀ g, (s.bankSet g).alloc = false ∧ (s.bankSet g).state = 3) ∧ s.msc.fwa = 0xFFFFFFFF ∧ s.msc.fwb = 0xFFFF ∧
     (∀ n, s.readSys 0 true (.vda n) = some (if n = 0 then 0xFFFFFFFF else 0) ∧ s.readSys 0 true (.vdb n) = some (if n = 0 then 0xFFFF else 0)) ∧
     (∀ c, s.gen c = 0) ∧ s.eventsOnly = true) ∧
  (State.reset.storeWf = true)

/-- R52: every step keeps the canonical form of the store: bytes rise by address without an entry that an unlisted byte reads as; tags
rise and stand on granules alone. -/
def Obligations.StepKeepsStore : Prop :=
  ∀ (s t : State), s.storeWf = true → step s = .next t → t.storeWf = true

/-- From every state whose agenda holds events alone, a step answers a next state, and that agenda again holds events alone: nothing
stops the machine. -/
def Obligations.StepNeverStops : Prop :=
  ∀ s : State, s.eventsOnly = true → ∃ t, step s = .next t ∧ t.eventsOnly = true

/-- R52: a read after a write of bytes gives those bytes, and leaves every other byte; the write clears the tag of every granule it
touches and of no other. R123, R52: a granule written with its tag reads back, bits and tag. -/
def Obligations.WriteThenRead : Prop :=
  (∀ (s : State) (a : Addr) (bs : List Byte),
     (s.wrBytes a bs).rdBytes a bs.length = bs ∧
     (∀ b, b < a ∨ a + bs.length ≤ b → (s.wrBytes a bs).rd8 b = s.rd8 b) ∧
     (∀ b, (s.wrBytes a bs).tagAt b = (s.tagAt b && !decide (granule b ∈ granules a bs.length)))) ∧
  (∀ (s : State) (a : Addr) (k : Cap), a % 16 = 0 → (s.wrCap a k).rdCap a = k)

/-! ## Frames -/

/-- R4, R178, R29: an instruction of laneForm that nothing holds back answers a state that differs only in its destination: no byte
outside the destination's register in an active lane changes, and no tag outside their granules; no fibre, no other convoy, and no
uniform register; flags are only set; every other part of the state is as before, but for the counter of issues. -/
def Obligations.LaneFormFrame : Prop :=
  ∀ (ins : Instr) (F : LaneForm) (s : State) (i : Nat) (v : Convoy), laneForm ins = some F → F.goes s i v →
    s.rangesHeld (coreOf v.spn) (s.otherRanges v (crossRegs ins)) = false →
    ∃ (t : State) (w : Convoy), exec ins s = .next t ∧ tget t.convoys i = some w ∧
      t = { s with mem := t.mem, tags := t.tags, convoys := t.convoys, free := s.free + 1,
                   host := { s.host with counters := t.host.counters } } ∧
      (∀ a, (∀ l ∈ s.active v F.c.g, F.writes l a = false) → t.rd8 a = s.rd8 a) ∧
      (∀ a, (∀ l ∈ s.active v F.c.g, ∀ b, F.writes l b = true → granule b ≠ granule a) → t.tagAt a = s.tagAt a) ∧
      (∀ j, j ≠ i → tget t.convoys j = tget s.convoys j) ∧
      w.spn = v.spn ∧ w.wg = v.wg ∧ w.slices = v.slices ∧ w.fib = v.fib ∧ w.u = v.u ∧ w.lncur = v.lncur ∧ v.fpstat ||| w.fpstat = w.fpstat

/-- R4, R178: what a V destination reads after lane results were written to it: in each lane the lane's own result, where the lanes'
registers are distinct. R152: what a latch reads after lane results were written to it, within the clause: a 64-bit result fills it, a
32-bit result its low half alone. -/
def Obligations.RetireWrites : Prop :=
  (∀ (s : State) (i : Nat) (n : BitVec 8) (words : Nat) (r : List (Ln × DWord × BitVec 8)),
     ((r.map fun x => x.1.f.reg n.toNat).Nodup → ∀ x ∈ r,
       (s.retire i false (.v n) words r).rdV x.1.f n.toNat = x.2.1.setWidth 32) ∧
     ((r.flatMap fun x => [x.1.f.reg n.toNat, x.1.f.reg (n.toNat + 1)]).Nodup → ∀ x ∈ r,
       (s.retire i true (.v n) words r).rdV64 x.1.f n.toNat = x.2.1)) ∧
  (∀ (s : State) (i : Nat) (v : Convoy) (n : BitVec 2) (r : List (Ln × DWord × BitVec 8)),
     tget s.convoys i = some v → (r.map fun x => x.1.pos).Nodup → ∀ x ∈ r,
       (∃ w, tget (s.dsts i true (.b n) (r.map fun y => (y.1, y.2.1))).convoys i = some w ∧ w.latw.getLsbD n.toNat = true ∧
         s.rdLatch w x.1.pos n = x.2.1) ∧
       (∃ w, tget (s.dsts i false (.b n) (r.map fun y => (y.1, y.2.1))).convoys i = some w ∧ w.latw.getLsbD n.toNat = true ∧
         s.rdHalf w x.1.pos n false = x.2.1.setWidth 32 ∧ s.rdHalf w x.1.pos n true = s.rdHalf v x.1.pos n true))

/-- R189, R193: icmp and fcmp change one predicate of the active lanes alone; no byte of memory and no register changes. -/
def Obligations.CompareFrame : Prop :=
  ∀ (s : State) (i : Nat) (v : Convoy) (c : Ctl) (p : BitVec 3) (words : Nat) (res : Ln → Bool × BitVec 8),
    tget s.convoys i = some v → ((s.active v c.g).map (·.id)).Nodup →
    let t := s.retireP i p words ((s.active v c.g).map fun l => (l, res l))
    t = { s with fibres := t.fibres, convoys := t.convoys, free := s.free + 1, host := { s.host with counters := t.host.counters } } ∧
    (∀ j, (∀ l ∈ s.active v c.g, l.id ≠ j) → tget t.fibres j = tget s.fibres j) ∧
    (∀ l ∈ s.active v c.g, tget s.fibres l.id = some l.f → ∃ f, tget t.fibres l.id = some f ∧ f = { l.f with pred := f.pred } ∧
      f.rdP p = (res l).1 ∧ ∀ q, q ≠ p → f.rdP q = l.f.rdP q) ∧
    (∀ j, j ≠ i → tget t.convoys j = tget s.convoys j) ∧ ∃ w, tget t.convoys i = some w ∧ w.u = v.u ∧ w.fib = v.fib

/-- R220, R222: a store and a capability store that complete change no byte outside the words they store, at the addresses that their
operands give, and no fibre; beside memory only the undo logs, the store queues and tile buffers, the power of SPs that wake (R389, R125, R133, R319), the issuing
convoy, and the counter of issues change. -/
def Obligations.StoreFrame : Prop :=
  ∀ (s : State) (i : Nat) (v : Convoy) (m : StOp) (q : StkOp),
    let ls := lits m.c.lit m.a.isLit false m.addr.isLit
    let k := szBytes m.sz
    let r := (s.active v m.c.g).map fun l => s.laneAcc v (s.colourOf v) m.addr.space l (s.offsetOf v l ls.2.2 m.addr k) k permSt
    let rq := (s.active v q.c.g).map fun l => s.laneAcc v (s.colourOf v) q.addr.space l (s.offsetOf v l q.c.lit q.addr 16) 16 permSt
    let frame (t : State) (n : Nat) (r : List LaneAcc) : Prop :=
      t = { s with mem := t.mem, tags := t.tags, convoys := t.convoys, sps := t.sps, free := s.free + 1,
                   host := { s.host with counters := t.host.counters } } ∧
      (∀ a, (∀ x ∈ r, a < x.a ∨ x.a + n ≤ a) → t.rd8 a = s.rd8 a) ∧
      (∀ a, (∀ x ∈ r, granule a ∉ granules x.a n) → t.tagAt a = s.tagAt a) ∧
      (∀ p, t.sp p = { s.sp p with lines := (t.sp p).lines, pend := (t.sp p).pend, tbuf := (t.sp p).tbuf, power := (t.sp p).power }) ∧
      (∀ j, j ≠ i → tget t.convoys j = tget s.convoys j) ∧
      ∃ w, tget t.convoys i = some w ∧ w.u = v.u ∧ w.fib = v.fib ∧ w.fpstat = v.fpstat
    (s.goes i v m.c (stRegs m.a m.sz ++ aregs m.addr) (vlatches m.a ++ alatches m.addr) → (∀ x ∈ r, x.bad = none) →
      s.rangesHeld (coreOf v.spn) (accRanges r k true) = false → s.logRoom (r.flatMap fun x => linesOf x.a k) v.spn 0 = true →
      ∃ t, exec (.st m) s = .next t ∧ frame t k r) ∧
    (s.goes i v q.c ((if q.us then [] else kRegs q.a false) ++ aregs q.addr) (alatches q.addr) → (∀ x ∈ rq, x.bad = none) →
      s.rangesHeld (coreOf v.spn) (accRanges rq 16 true) = false → s.logRoom (rq.flatMap fun x => linesOf x.a 16) v.spn 0 = true →
      ∃ t, exec (.stk q) s = .next t ∧ frame t 16 rq)

/-- R127, R128, R245: the acceptance of a command moves no byte and sets no tag: it adds the command, raises its class's counter in its
fibres, which remember a matrix command until they observe it complete (R129) and count a collective (R432), raises MXSEQ for a matrix
command, and moves the convoy on; earlier writes that overlap its operands, and those that its release covers, are performed (R127, R134). -/
def Obligations.AcceptFrame : Prop :=
  ∀ (s : State) (v : Convoy) (m : Cmd) (i n : Nat),
    let t := (s.accepted i v m).advance i n
    t = { s with ids := s.ids + 1, cmds := t.cmds, fibres := t.fibres, convoys := t.convoys, sps := t.sps, free := s.free + 1,
                 host := { s.host with counters := t.host.counters } } ∧
    tget t.cmds s.ids = some m ∧ (∀ k, k ≠ s.ids → tget t.cmds k = tget s.cmds k) ∧
    (∀ p, t.sp p = { s.sp p with pend := (t.sp p).pend, tbuf := (t.sp p).tbuf }) ∧
    (∀ j, j ≠ i → tget t.convoys j = tget s.convoys j) ∧
    (∀ w, tget s.convoys i = some w → ∃ x, tget t.convoys i = some x ∧ x.fib = w.fib ∧ x.fpstat = w.fpstat ∧
      x.u = { w.u with mxseq := if m.cls = .emx then w.u.mxseq + 1 else w.u.mxseq }) ∧
    (∀ j f, tget s.fibres j = some f → ∃ g, tget t.fibres j = some g ∧ g = { f with cnt := g.cnt, mx := g.mx, clxs := g.clxs }) ∧
    (m.fibres.Nodup → ∀ j ∈ m.fibres, ∀ f, tget s.fibres j = some f →
      ∃ g, tget t.fibres j = some g ∧ g.cnt = f.cnt.set (f.cnt.get m.cls + 1) m.cls)

/-! ## Traps (R381–R388) -/

/-- R384: where the fields of an error record stand. -/
def Obligations.RecordLayout : Prop :=
  ∀ (r : Rec) (gen : BitVec 8) (seq lost : Nat), let b := r.bits gen seq lost
    b.extractLsb' 0 8 = 0x01 ∧ b.extractLsb' 8 8 = 0 ∧ b.extractLsb' 16 16 = 0x0002 ∧ b.extractLsb' 32 8 = r.source ∧
    b.extractLsb' 40 8 = r.cls ∧ b.extractLsb' 48 12 = BitVec.ofNat 12 r.colour ∧ b.extractLsb' 60 4 = r.recov ∧
    b.extractLsb' 64 8 = gen ∧ b.extractLsb' 72 8 = BitVec.ofNat 8 r.spn ∧ b.extractLsb' 80 9 = BitVec.ofNat 9 r.pos ∧
    b.extractLsb' 89 7 = 0 ∧ b.extractLsb' 96 16 = r.regcnt ∧ b.extractLsb' 112 16 = r.code ∧
    b.extractLsb' 128 52 = BitVec.ofNat 52 r.pc ∧ b.extractLsb' 180 12 = 0 ∧ b.extractLsb' 192 64 = r.iter ∧
    b.extractLsb' 256 52 = BitVec.ofNat 52 r.addr ∧ b.extractLsb' 308 12 = 0 ∧ b.extractLsb' 320 32 = BitVec.ofNat 32 r.count ∧
    b.extractLsb' 352 32 = r.wgid ∧ b.extractLsb' 384 64 = BitVec.ofNat 64 seq ∧ b.extractLsb' 448 48 = 0 ∧
    b.extractLsb' 496 16 = BitVec.ofNat 16 lost

/-- R386, R95: a trap that replays cuts the convoy back to the region start of its lowest fibre and holds it there for 2^(10 + 4k) core
cycles, the k-th time. -/
def Obligations.TrapReplays : Prop :=
  ∀ (s : State) (c : Nat) (v : Convoy) (g : Wg) (x : TrapInfo) (l : Ln) (r : List Ln),
    tget s.convoys c = some v → tget s.wgs v.wg = some g → s.lanes v = l :: r → x.replay = true →
    (∀ m ∈ s.lanes v, m.f.replay < 3) →
    ∃ w, tget (s.trap c x).convoys c = some w ∧ w.hdr = l.f.regpc ∧ w.wi = 0 ∧ w.inCl = false ∧ w.rep = none ∧ w.u.mxseq = 0 ∧
      w.wait = .replay (s.now (dieOf v.spn) + 2 ^ (10 + 4 * (((s.lanes v).map fun m => m.f.replay).foldl max 0 + 1)))

/-- R387, R382, R385: any other trap aborts the launch: every fibre of the trapping convoy ends; the launch, while it is still there, is
aborted and keeps the trap's record, and once it has ended the record is written. -/
def Obligations.TrapAborts : Prop :=
  ∀ (s : State) (c : Nat) (v : Convoy) (g : Wg) (x : TrapInfo),
    tget s.convoys c = some v → tget s.wgs v.wg = some g → v.wait = .run →
    (x.replay = false ∨ ∃ l ∈ s.lanes v, 3 ≤ l.f.replay) →
    (∀ l ∈ s.lanes v, tget (s.trap c x).fibres l.id = none) ∧
    (∀ la, tget (s.trap c x).launches g.launch = some la → la.aborted.isSome = true ∧ ∃ f, trapRecord v f g x 0x6 ∈ la.recs) ∧
    (tget (s.trap c x).launches g.launch = none → s.mgmt.seq < (s.trap c x).mgmt.seq)

/-- R404, R405, R418, R410: where a form traps: an unwritten latch, a register beyond a window, a privileged register number, a misaligned
access. -/
def Obligations.FormsTrap : Prop :=
  ∀ (s : State) (i : Nat) (v : Convoy) (ins : Instr) (F : LaneForm) (o : SysrdOp) (m : SyswrOp) (d : LdOp),
    s.cur = some i → tget s.convoys i = some v →
    (laneForm ins = some F → latchBad v F.lat = true → exec ins s = .next (s.trap i { cls := 0x01, code := 0x017 })) ∧
    (∀ p, laneForm ins = some F → latchBad v F.lat = false → windowBad (s.active v F.c.g) (F.regs ++ dregs F.d F.wd) = some p →
      exec ins s = .next (s.trap i { cls := 0x01, code := 0x016, pos := p })) ∧
    (∀ l n, s.goes i v o.c (dregs o.d false) [] → (s.active v o.c.g).head? = some l → privCause (s.hostView v) false o.num.toNat = some n →
      exec (.sysrd o) s = .next (s.trap i { cls := 0x02, code := n, pos := l.pos })) ∧
    (∀ l n, s.goes i v m.c (vregs m.a false) (vlatches m.a) → (s.active v m.c.g).head? = some l →
      privCause (s.hostView v) true m.num.toNat = some n →
      exec (.syswr m) s = .next (s.trap i { cls := 0x02, code := n, pos := l.pos })) ∧
    (∀ l, s.goes i v d.c (ldRegs d.d d.sz ++ aregs d.addr) (alatches d.addr) → d.addr.space = .win → (s.active v d.c.g).head? = some l →
      (l.f.reg 0 + s.offsetOf v l d.c.lit d.addr (szBytes d.sz)) % szBytes d.sz ≠ 0 →
      s.offsetOf v l d.c.lit d.addr (szBytes d.sz) + szBytes d.sz ≤ 4 * l.f.wsize →
      exec (.ld d) s = .next (s.trap i { cls := 0x04, code := 0x022, pos := l.pos, addr := 0, count := 0, source := 0x02, replay := true }))

/-- R418: a tenant reads no register from 0x400 up and writes none that its view may not; the host's view ends at 0x800. -/
def Obligations.PrivilegeByView : Prop :=
  ∀ (n : Nat) (w : Bool),
    (0x400 ≤ n → privCause false w n = some 0x030) ∧ (0x800 ≤ n → privCause true w n = some 0x030) ∧
    (∀ h, privCause h w n = none → ∃ r, sysReg n = some r ∧ (w = true → r.writable h = true) ∧ n < (if h then 0x800 else 0x400))

/-! ## The Drover (R83, R84, R146, R304) -/

/-- R83, R84: a serai that may launch does, when it is full, when its oldest fibre has waited its time, when the convoys of its
workgroup on its SP all wait or have ended, and, the oldest of 64, when a fibre waits outside them; a launch of fibres that wait one to
a lane and slice is a convoy of all of them. R146, R425, R304: a clause whose waits hold, whose words are well formed and whose commands
find room begins, after its region's entry where it has one; a convoy that has waited 1,024 core cycles is aged. -/
def Obligations.DroverSteps : Prop :=
  (∀ (s : State) (k : SeraiKey) (x : Serai), s.seraiOf k = some x → s.mayLaunch x = true →
     (s.seraiSize x ≤ (s.seraiSlices x).length → exec (.seraiLaunchFull k) s = .next (s.launchSerai x)) ∧
     (∀ y, oldest x.fibres = some y → y.2 + x.timer ≤ s.now (dieOf x.spn) → exec (.seraiTimer k) s = .next (s.launchSerai x)) ∧
     ((∀ v ∈ s.convoys, v.2.wg = x.wg → v.2.spn = x.spn → v.2.wait = .yielded ∨ ∃ b p, v.2.wait = .bar b p) →
       exec (.seraiLaunchDrained k) s = .next (s.launchSerai x)) ∧
     (∀ r o f, (s.serais.filter fun y => y.spn == k.spn) = x :: r → (∀ y ∈ r, x.opened ≤ y.opened) → 63 ≤ r.length → o ∈ s.outside →
       tget s.fibres o.fib = some f → f.spn = k.spn → exec (.seraiLaunchCapacity k.spn) s = .next (s.launchSerai x)) ∧
     (∀ i f at_, x.fibres = [(i, at_)] → tget s.fibres i = some f → f.lane < 512 → x.size = some 1 →
       ∃ t v, exec (.seraiLaunchFull k) s = .next t ∧ tget t.convoys s.ids = some v ∧ v.hdr = x.entry ∧ v.slices = [f.lane / 4] ∧
         v.fib = (List.range 4).map (fun j => if j = f.lane % 4 then some i else none) ∧ v.u = f.unif ∧ v.wait = .clause)) ∧
  (∀ (s : State) (c : Nat) (v : Convoy), tget s.convoys c = some v →
     (∀ g w, v.wait = .clause → tget s.wgs v.wg = some g → s.aborted v = false → (s.sp v.spn).halting = false →
       s.fetchWord g v.hdr = some w → s.clauseBad v g = none →
       let h := Header.ofWord w
       let s0 := (s.markEntered g).passRd g.colour none v.hdr (clauseSpan h)
       let s1 := s0.observeHeader v h
       let s2 := if h.re then s1.regionEntry c else s1
       s.awaits [(v.hdr, clauseSpan h)] [] = none → s0.waitsHold v h = true →
       s1.refOf v ((waitCls h.wacls).toList ++ (waitCls h.wbcls).toList) = none → s2.mixRoom v h = true →
       exec (.clauseWaitMet c) s = .next (s2.beginClause c v h)) ∧
     (v.aged = false → s.ready v = true → v.since + 1024 ≤ s.now (dieOf v.spn) →
       exec (.convoyAged c) s = .next (s.modConvoy c fun v => { v with aged := true })))

/-- R78, R249, R386, R390, R414: the ends of the holds: an issue goes on once every counter has room, a command can be accepted, or
frames are free; a replay's wait ends at its time; a wait for the log, or for a frame, traps after YDEADL core cycles. R306, R307: the
core's requests for rows are served in their order as rows are free; when every convoy of a core waits for rows and none can be had, the
youngest workgroup is evicted, or, evicted again without progress, traps. -/
def Obligations.HoldsEnd : Prop :=
  (∀ (s : State) (c : Nat) (v : Convoy), tget s.convoys c = some v →
     let now := s.now (dieOf v.spn)
     let ydeadl := (s.core (coreOf v.spn)).ydeadl.toNat
     (∀ x, v.wait = .room x → (∀ l ∈ s.lanes v, l.f.cnt.get x ≠ 63) → exec (.issueCounterRoom c) s = .next (s.hold c .run)) ∧
     (∀ x, v.wait = .accept x → s.canAccept (coreOf v.spn) x = true → exec (.engineAccept c) s = .next (s.hold c .run)) ∧
     (∀ due, v.wait = .replay due → due ≤ now → v.yreq = false →
       s.mover c = some v →
       (∀ m ∈ s.cmds, (m.2.phase = .cancelling ∨ (m.2.live = true ∧ m.2.phase ≠ .performed ∧ m.2.inRegion (s.lanes v) = true ∧
           ∃ o ∈ s.opsOf m.2, o.engine = .enm)) → ∀ l ∈ s.lanes v, l.id ∉ m.2.fibres) →
       exec (.replayWaitExpiry c) s =
         .next (((((s.deliverReport c).hold c .clause).disperse c)).count (s.wgColour v.wg) 0 7 1)) ∧
     (∀ t, v.wait = .log t → s.mover c = some v → t + ydeadl ≤ now →
       exec (.logfullExpiry c) s = .next (s.trap c { cls := 0x09, code := 0, pos := v.waitPos })) ∧
     (∀ t n, v.wait = .frame t n → s.mover c = some v → (s.sp v.spn).frames + n ≤ framePool →
       exec (.returnFrameTimeout c) s = .next (s.hold c .run)) ∧
     (∀ t n, v.wait = .frame t n → s.mover c = some v → framePool < (s.sp v.spn).frames + n → t + ydeadl ≤ now →
       exec (.returnFrameTimeout c) s = .next (s.stackTrap c 0x051 v.waitPos))) ∧
  (∀ (s : State) (core : Nat),
     let q := (s.core core).grow
     let r := s.grantAll q
     (r.2 ≠ q → exec (.growGrant core) s = .next (r.1.modCore core fun k => { k with grow := r.2 })) ∧
     (∀ w g, q ≠ [] → r.2 = q → (∃ v ∈ s.convoys, coreOf v.2.spn = core) → (∀ v ∈ s.convoys, coreOf v.2.spn = core → v.2.wantsRows = true) →
       youngest ((s.residentOn core).filter fun g => s.evictable g.2) = some (w, g) → (∀ p ∈ g.sps, (s.sp p).hold = none) →
       (g.evicted ≠ some false → (∀ m ∈ s.cmds, m.2.wg = w → m.2.live = true →
           s.cancellable m.2 = true ∧ m.2.inRegion ((s.convoysOf w).flatMap fun v => s.lanes v.2) = true) →
         exec (.growDeadlockEvict core) s = .next (s.evict w g)) ∧
       (g.evicted = some false → exec (.growDeadlockEvict core) s =
         .next (((s.convoysOf w).filter fun v => v.2.wantsRows).foldl (fun t v =>
           t.trap v.1 { cls := 0x05, code := 0x041, pos := s.rowsPos v.2 }) s))))

/-! ## Commands (R128, R243–R249) -/

/-- R243, R427, R247: a queued command whose class's queue an earlier one has halted ends as 0x800F, in the block it has taken; one that nothing holds begins: refused by its
lowest cause, or running, a near-memory one with its lines out of the cache (R137); and a block in progress is taken once it is not.
R128, R246: a running command performs its operation as it completes, in the service mode or with no chunk before its last (R369): its
effect, then its flags, its status, and its counters. -/
def Obligations.Commands : Prop :=
  (∀ (s : State) (k : Nat) (m : Cmd), tget s.cmds k = some m →
     (m.phase = .queued → m.want = [] → s.queueHalted k m = true → (∀ b loc, m.op ≠ .block b loc) → (m.inner.getD m.op).destTile = none →
       exec (.commandBegin k) s = .next (s.finish k 0x800F none)) ∧
     (∀ b loc x, m.phase = .queued → m.want = [] → s.queueHalted k m = true → m.op = .block b loc → b.remote = none → m.inner = some x →
       x.destTile = none → exec (.commandBegin k) s = .next (s.finishBlock k b.lo 0x800F)) ∧
     (m.phase = .queued → m.want = [] → s.queueHalted k m = false → s.orderedHeld k m = false → s.entriesHeld k m.op m.entries = false → m.inner = none →
       (∀ b loc, m.op ≠ .block b loc) → (∀ l i b, m.op ≠ .stage l i b) → (∀ d a x y l r f i, m.op ≠ .clx d a x y l r f i) →
       (let rd := m.op.ranges (s.clxCount m.wg m.op) m.core false
        let wr := m.op.ranges (s.clxCount m.wg m.op) m.core true
        let go (s : State) : State := (((rd ++ wr).foldl (fun s r => s.wakeRange r.1 r.2) s).freshTile m m.op).modCmd k fun m =>
          { m with phase := .running, status := 1 }
        s.beginCause m m.op = none → s.awaits rd wr = none →
        ((∀ t g x y l a b f, m.op ≠ .nmc t g x y l a b f) → exec (.commandBegin k) s = .next (go s)) ∧
        (∀ t g x y l a b f, m.op = .nmc t g x y l a b f → exec (.commandBegin k) s = .next (go (s.nmcFlush t y l)))) ∧
       (∀ n a, s.beginCause m m.op = some (n, a) → n ≠ 0x0C → m.op.peer = none → n ≠ 0x0B →
         exec (.commandBegin k) s = .next (s.refuseCmd k m n a))) ∧
     (∀ b loc, m.phase = .blocked → m.op = .block b loc → (s.blockAt b.lo).status ≠ 1 →
       exec (.blockTakeRetry k) s = .next (s.takeBlock k m b loc))) ∧
  (∀ (s : State) (k : Nat) (m : Cmd) (fails : List LineFail) (d : Done), tget s.cmds k = some m → m.phase = .running →
     (s.host.mode = 0 ∨ (s.failLines fails).chunksLeft m (m.inner.getD m.op) ≤ 1) →
     (s.failLines fails).opAwaits m (m.inner.getD m.op) = none → (s.failLines fails).perform k m (m.inner.getD m.op) = some d →
     (m.cls = .ecp → exec (.copyComplete k fails) s = .next (d.s.complete k m d)) ∧
     (m.cls = .egs → exec (.gatherScatterComplete k fails) s = .next (d.s.complete k m d)) ∧
     (m.cls = .enm → exec (.nearMemoryComplete k fails) s = .next (d.s.complete k m d)) ∧
     (fails = [] → m.cls = .emx → exec (.matrixComplete k) s = .next (d.s.complete k m d)) ∧
     (fails = [] → m.cls = .ecl → exec (.collectiveComplete k) s = .next (d.s.complete k m d)) ∧
     (fails = [] → m.cls = .eat → exec (.atomicSignalComplete k) s = .next (d.s.complete k m d)) ∧
     (d.cause = none → d.fl = 0 → d.s.ordered m = false → m.inner = none → (∀ b l, m.op ≠ .block b l) →
       d.s.complete k m d = d.s.finish k (if d.lost || m.lost then 3 else 2) none))

/-! ## Queues and rows (R277, R278, R306, R307) -/

/-- R277, R278, R65: a waiting push publishes in the order of the reservations, or tries again; a waiting pop takes its record once HEAD
has reached it, or tries again; and the acknowledgement of a forwarded instruction gives its result. R65, R277, R278: the
acknowledgement of a forwarded qslots, of a forwarded push that was performed or turned away, and of a pop that found no record; R443: an
inconsistent header traps; R458: a duplicate is discarded. -/
def Obligations.QueueWaits : Prop :=
  (∀ (s : State) (c : Nat) (v : Convoy) (w : QueueWait) (st : Nat), tget s.convoys c = some v → v.wait = .queue w →
     (w.push = true → w.start = some st → (s.qhdr w.kq.lo).tail = st → exec (.qpushRetry c) s = .next (s.tryPublish c v w st)) ∧
     (w.push = true → w.start = none → s.mover c = some v → s.pushRoom v w → exec (.qpushRetry c) s = .next (s.reservePush c v w)) ∧
     (w.push = false → w.start = some st → (s.qhdr w.kq.lo).head = st → w.deliver = true →
       exec (.qpopRetry c) s = .next (s.takeRecord c v w st)) ∧
     (w.push = false → w.start = none → s.mover c = some v → s.queueCause (s.colourOf v) w.kq (permLd ||| permSt) 0 64 = none → s.headerLost (s.colourOf v) w.kq.lo = false → s.headerBad w.kq.lo = false →
       (s.qhdr w.kq.lo).crsv = (s.qhdr w.kq.lo).tail → w.nb = true →
       exec (.qpopRetry c) s = .next (s.endEmpty c v w.q w.words))) ∧
  (∀ (s : State) (c : Nat) (v : Convoy) (w : RemoteWait) (a : QueueAck) (m : Arrival), tget s.convoys c = some v → v.wait = .remote w →
     let t := s.received m.on m.seq
     (s.unseen m.on m.seq = false → exec (.forwardedQueueAckReceive c ⟨a, m⟩) s = .next s) ∧
     (s.unseen m.on m.seq = true → a.cause = 0x0C →
       exec (.forwardedQueueAckReceive c ⟨a, m⟩) s = .next (t.refusal c 0x0C 0 w.header 0)) ∧
     (∀ d, s.unseen m.on m.seq = true → w.sd = some d → a.cause ≠ 0x0C → exec (.forwardedQueueAckReceive c ⟨a, m⟩) s =
       .next ((t.wrS c d.toNat (if a.cause = 0 then a.val else 0)).advance c w.words)) ∧
     (s.unseen m.on m.seq = true → w.sd = none → w.buf = none → w.launch = false → a.cause = 0 →
       exec (.forwardedQueueAckReceive c ⟨a, m⟩) s = .next (((t.logWide v a.ok).setQ c w.q a.ok).endRegion c w.words)) ∧
     (∀ b, s.unseen m.on m.seq = true → w.sd = none → w.buf = some b → a.cause ≠ 0x0C → a.ok = false →
       exec (.forwardedQueueAckReceive c ⟨a, m⟩) s = .next (t.endEmpty c v w.q w.words)) ∧
     (∀ q n, s.endEmpty c v q n =
       (((s.lanes v).foldl (fun t l => t.modFibre l.id fun f => { f with pops := f.pops + 1 }) s).setQ c q false).advance c n))

/-! ## The scheduler (11) -/

/-- R287, R288, R294, R297, R302, R303, R472: a launch from its waybill to its placement and staging: the pop of the binding served next,
once its queue's memory is awake (R118); the Anvil's answer in its budget, or its negative entry, also where it abandons the key (R402); a
placement; the end of staging; and a deadline. -/
def Obligations.LaunchesBegin : Prop :=
  ∀ (s : State) (l w die i : Nat) (la : Launch) (g : Wg),
    let b := s.binding i
    let s1 := { s with host := { s.host with roundRobin := tput s.host.roundRobin die ((i + 1) % 64) } }
    (s.nextBinding die = some i → s1.bindBad b = false → (s1.qhdr b.qcap.lo).bad = false →
      s1.awaits (s1.popReads b) [(b.qcap.lo, 64)] = none →
      exec (.waybillPop die) s = .next (s1.popBound i b)) ∧
    (tget s.launches l = some la →
      (tget la.code die = some .pending → s.now la.home < la.acquired + 2 ^ 20 →
        (∀ x, s.specialise la = some x → exec (.anvilSpecialiseDone l die) s = .next (s.finishImage l die x)) ∧
        (s.specialise la = none → exec (.anvilSpecialiseDone l die) s = .next (s.abandonKey l die la))) ∧
      (tget la.code die = some .pending → la.acquired + 2 ^ 20 ≤ s.now la.home →
        exec (.anvilBudgetExpiry l die) s = .next (s.abandonKey l die la)) ∧
      (∀ x st, enterImage s.pinned anvilStore s.anvil.store x = some st → x.negative = false →
        let t := s.finishImage l die x
        t.anvil.store = st ∧ (t.anvil.store.find? fun y => y.key == x.key) = some x ∧
          tget t.launches l = some { la with code := tput la.code die .residual, loops := x.loops }) ∧
      (∀ st, (s.pinned la.key = false ∨ ∀ x ∈ s.anvil.store, x.key ≠ la.key) →
        enterImage s.pinned anvilStore s.anvil.store { key := la.key, bytes := negativeBytes, negative := true } = some st →
        let t := s.abandonKey l die la
        t.anvil = { s.anvil with store := st } ∧ tget t.launches l = some { la with code := tput la.code die .original }) ∧
      (∀ t, la.unplaced ≠ 0 → s.stoppingWorld la.colour = false → s.requeuedFirst la = false → s.outranked l la = false →
        s.tryPlace l la = some t → exec (.placement l) s = .next t) ∧
      (la.deadl ≠ 0 → la.late = false → 0 < la.unplaced → la.acquired + la.deadl ≤ s.now la.home →
        exec (.deadlineExpiry l) s = .next { s with launches := tput s.launches l { la with late := true } })) ∧
    (tget s.wgs w = some g → tget s.launches g.launch = some la → g.phase = .staging → s.busyWg w = false → la.aborted = none →
      s.refusedEntries w = [] → (tget la.code (dieOf (g.sps.headD 0)) = some .residual ∨ tget la.code (dieOf (g.sps.headD 0)) = some .original) →
      exec (.stagingComplete w) s = .next ((s.modWg w fun g => { g with phase := .running, staged := true }).arriveAll w []))

/-- R76, R298, R299, R303, R309, R310: a workgroup whose fibres have all ended writes back, and is then gone, its launch completed with its
last; a yield request, its deadline, the save, and the restore. -/
def Obligations.WorkgroupsEnd : Prop :=
  ∀ (s : State) (l w : Nat) (la : Launch) (g : Wg),
    (tget s.wgs w = some g → tget s.launches g.launch = some la → la.aborted = none →
      (g.phase = .running → s.busyWg w = false → s.fibresOf w = [] → (∀ p ∈ g.sps, (s.sp p).hold = none) →
        exec (.workgroupComplete w) s = .next (((s.drainEnded g.sps).modWg w fun g => { g with phase := .wback }).stageOps w g la true)) ∧
      (g.phase = .wback → s.busyWg w = false → s.refusedEntries w = [] →
        let s1 := s.dropWg w
        exec (.wbackComplete w) s = .next (State.endLaunch { s1 with launches := tmod s1.launches g.launch fun a =>
          { a with done := a.done + 1, wbad := a.wbad } } g.launch)) ∧
      (∀ sps, g.phase = .saved → w ∈ la.requeued → s.stoppingWorld g.colour = false →
        (la.cor = true ∨ ∀ x ∈ s.launches, x.2.colour = g.colour → x.2.unplaced = 0 ∨ s.effOf x.2 ≤ g.prio) →
        s.restorePlace w g = some sps →
        let s1 := s.loadWg w sps
        exec (.workgroupRestore w) s = .next { s1 with launches := tmod s1.launches g.launch fun a =>
          { a with requeued := a.requeued.filter (· != w) } })) ∧
    (∀ t, tget s.wgs w = some g → g.phase = .yielding t →
      (t + (s.core (coreOf (g.sps.headD 0))).ydeadl.toNat ≤ s.now (dieOf (g.sps.headD 0)) → g.haltAt = none →
        exec (.yieldDeadlineExpiry w) s =
          .next (((s.convoysOf w).filter fun v => !v.2.stopped && !v.2.finishing && !s.aborted v.2).foldl
            (fun s v => (s.cutBack v.1).hold v.1 .yielded) s)) ∧
      ((∀ v ∈ s.convoysOf w, v.2.stopped = true) → s.busyWg w = false → s.fibresOf w ≠ [] →
        exec (.workgroupSaveDone w) s = .next ((s.saveWg w).requeue w g.launch))) ∧
    (tget s.launches l = some la → la.unplaced ≠ 0 → s.stoppingWorld la.colour = false → s.yieldUnder la.colour = false →
      s.tryPlace l la = none →
      youngest (s.wgs.filter fun g => g.2.colour == la.colour && g.2.resident && decide (g.2.prio < s.effOf la)) = some (w, g) →
      (g.phase = .running ∨ g.phase = .staging) → (∀ p ∈ g.sps, (s.sp p).hold = none) → (∀ x, tget s.launches g.launch = some x → x.aborted = none) →
      exec (.yieldRequest l) s = .next (s.raiseYield w g))

/-- R312, R392–R395: a migration's start, its retry and its completion; a corrected error, which is counted alone; a soft error on an SP whose commands have ended, counted when it
is a new one; the third error in one item in 2^30 core cycles, or at one temper point, by which the core fails; and the failure of a core
that a spare serves, or that has none. -/
def Obligations.MovesAndFailures : Prop :=
  ∀ (s : State) (w spn core item : Nat) (src h : BitVec 8) (g : Wg),
    let now := s.now (dieOf (g.sps.headD 0))
    (s.movable w = some g → g.placed + g.haltedFor + 2 ^ 21 ≤ now → g.hot = none → exec (.migrationStart w) s = .next (s.beginMove w g)) ∧
    (∀ t, s.movable w = some g → g.hot = some t → ((s.target w g).isSome = true ∨ t + 2 ^ 21 ≤ now) →
      exec (.migrationRetry w) s = .next (s.beginMove w g)) ∧
    (∀ t, tget s.wgs w = some g → g.phase = .moving t → s.quietSps g.sps = true →
      exec (.migrationComplete w) s = .next (((g.sps.foldl (fun s p => s.rollbackSp p) s).saveRolled w).moveTo w t)) ∧
    (let sps := s.ownedOn (coreOf spn) (s.sp spn).owner
     let s0 := if src = 0 then s else s.noteSoft (coreOf spn) item sps
     h ≠ 0 → (s.sp spn).hold = some h → s0.quietSps sps = true →
      exec (.softError spn { item := item, source := src }) s = .next ((sps.foldl (fun s p => s.modSp p fun q => { q with hold := none })
        (sps.foldl (fun s p => s.rollbackSp p) s0)).record
          { source := h, cls := 0x11, colour := (s.sp spn).owner, recov := 0x2, spn := spn } false)) ∧
    (exec (.softError spn { item := item, source := src, corrected := true }) s = .next (s.modSp spn fun p => { p with errs := p.errs + 1 })) ∧
    (∀ sps : List Nat, sps.Nodup →
      (2 ≤ ((s.core core).softs.filter fun e => decide (s.now (core / 16) < e.2 + 2 ^ 30)).countP (fun e => e.1 == item) ∨
        ∃ p ∈ sps, 2 ≤ (s.sp p).rolls) → ((s.noteSoft core item sps).core core).failing = true) ∧
    (let sps := (List.range 4).map fun i => 4 * core + i
     core < 64 → (s.core core).dead = false → (∀ p ∈ sps, (s.sp p).hold.isSome = true) → s.quietSps sps = true →
     let s2 := sps.foldl (fun s p => (s.rollbackSp p).modSp p fun q => { q with hold := none })
       (s.modCore core fun c => { c with failing := true })
     ((∀ i < 16, (s.core (core / 16 * 16 + i)).spare = false) → exec (.hardFailure core) s =
       .next ((s2.modCore core fun c => { c with spare := true, failing := false, softs := [] }).hardRecs core)) ∧
     (∀ i < 16, (s.core (core / 16 * 16 + i)).spare = true → exec (.hardFailure core) s =
       .next (((s2.wgsOn sps).foldl (fun s w => s.moveOff core w) s2).modCore core fun c => { c with dead := true, failing := false })))

/-! ## Sweeps, Route and links -/

/-- R267, R69–R71, R372, R430: a pass begins its sweep after 1,024 core cycles; each die's engine clears the tags its entries catch; the
pass that can close closes; a recall opens a pass of its own with an entry for each range, or waits at the port while too few entries
are free (log entry 80); acknowledgements are taken off one by one, a duplicate discarded; a pass open too long is recorded. -/
def Obligations.Sweeps : Prop :=
  ∀ (s : State) (n die : Nat) (p : Pass) (m : RecallMsg) (a : Arrival),
    (tget s.rev.passes n = some p →
      (p.begun = false → p.opened + 1024 ≤ s.now p.die → exec (.sweepBeginTimer n) s = .next (s.beginPass n)) ∧
      (p.begun = true → die < 4 → p.finished.getLsbD die = false → exec (.sweepEngineFinish die n) s =
        .next ((s.sweepDieOf die (s.entriesIn n)).modPass n fun p => { p with finished := p.finished ||| (1#4 <<< die) })) ∧
      (p.recalls ≠ [] → p.opened + 2 ^ 24 * (p.warned + 1) ≤ s.now p.die → exec (.passOpenTimer n) s =
        .next ((s.modPass n fun p => { p with warned := p.warned + 1 }).record
          { source := 0x1A, cls := 0x39, colour := ((s.entriesIn n).head?.bind fun e => e.colours.head?).getD 0, recov := 0xD } false))) ∧
    (∀ rest, s.rev.passes = (n, p) :: rest → s.closable n p = true → p.sigs = [] → p.ack = none →
      exec .passClose s = .next { s with
        rev := { s.rev with passes := rest, sweepdone := BitVec.ofNat 32 n, entries := s.rev.entries.filter fun e => e.pass != n }
        convoys := s.convoys.map fun v => if v.2.wait == .revoke then (v.1, { v.2 with wait := .run }) else v }) ∧
    (s.linkOpen m.port = true → s.unseen ⟨m.owner, m.colour⟩ m.seq = true →
      (s.recallWaits m = false → s.recallAhead m = false →
        ∃ t q, exec (.recallReceive m) s = .next t ∧ t.rev.next = s.rev.next + 1 ∧
          t.rev.passes = s.rev.passes ++ [(s.rev.next, q)] ∧ q.begun = true ∧ q.ack = some (m.owner, m.colour) ∧ q.recalls = [] ∧
          t.rev.entries = s.rev.entries ++ m.ranges.map fun r =>
            { base := r.1, len := r.2, colours := s.translations m.port m.owner m.colour, pass := s.rev.next, owner := some m.owner }) ∧
      ((s.recallWaits m = true ∨ s.recallAhead m = true) →
        ∃ t, exec (.recallReceive m) s = .next t ∧ t.held = s.held ++ [.recall m] ∧ t.rev = s.rev)) ∧
    (s.unseen a.on a.seq = true → n < 2 ^ 32 → exec (.recallAckReceive a n) s =
      .next ((s.received a.on a.seq).modPass n fun p => { p with recalls := p.recalls.erase (a.on.peer, a.on.colour) })) ∧
    (s.unseen a.on a.seq = true → 2 ^ 32 ≤ n → exec (.recallAckReceive a n) s =
      .next ((s.received a.on a.seq).modWorld (n - 2 ^ 32) fun w => { w with awaits := w.awaits.filter (· != a.on.peer) })) ∧
    (s.unseen a.on a.seq = false → exec (.recallAckReceive a n) s = .next s)

/-- R69: after a die's engine has finished, no tag that a pass's entries catch stands in the memory it covers; other tags there stand. -/
def Obligations.SweepClears : Prop :=
  ∀ (s : State) (die : Nat) (es : List RevEntry) (a : Addr), s.storeWf = true → a % 16 = 0 →
    (s.sweepDieOf die es).tagAt a = (s.tagAt a && !(sweepDie a == die && es.any fun e => e.catches (s.rdCap a)))

/-- R63–R65, R91, R301, R329, R431: what arrives over a port that is open, with nothing of its sender waiting there and its memory awake:
a bale under a mapped colour or not; remote commands; the cancellation of one, which stops the block's command if it runs here, and is
answered in every case; accesses, departure notices and their acknowledgements; arrivals and contributions to `.pod` slots. Each message
is the first with its number in its stream. -/
def Obligations.RouteReceives : Prop :=
  ∀ (s : State) (port peer colour seq k join : Nat) (b : BaleMsg) (r : RemoteCmdMsg) (a : RemoteAccMsg) (q : PodClxMsg),
    (s.linkOpen b.port = true → s.unseen ⟨b.peer, b.colour⟩ b.seq = true →
      let s1 := (s.arrived b.port ((s.translate b.port b.peer b.colour).getD 0)).received ⟨b.peer, b.colour⟩ b.seq
      s1.behind (.bale b) = false → s1.awaits [] (s1.balePlace b) = none → (∀ r ∈ s1.balePlace b, s1.accRoom r.1 r.2 = true) →
      ∀ x d, s1.baleEnd b = some (x, d) → s1.baleFits x d b = true →
        (s1.translate b.port b.peer (Cap.colour ⟨b.bits, true⟩).toNat = some x → d.has permStk = true → exec (.baleReceive b) s =
          .next ((s1.putGranule x (d.lo + b.off) (s1.unbale b.peer x ⟨b.bits, true⟩)).count x 5 3 1)) ∧
        (s1.translate b.port b.peer (Cap.colour ⟨b.bits, true⟩).toNat = none → exec (.baleReceive b) s =
          .next ((s1.putGranule x (d.lo + b.off) ⟨b.bits, false⟩).record { source := 0x1A, cls := 0x3A, colour := 0, recov := 0 } false))) ∧
    (s.linkOpen r.port = true → s.unseen ⟨r.peer, r.colour⟩ r.seq = true → s.behind (.command r) = false →
      (∀ x, s.translate r.port r.peer r.colour = some x → ∃ t es ws, exec (.remoteCommandReceive r) s = .next t ∧
        tget t.cmds s.ids = some { s.peerCmd x r with entries := es, want := ws } ∧ t.ids = s.ids + 1 ∧ t.mem = s.mem) ∧
      (s.translate r.port r.peer r.colour = none →
        exec (.remoteCommandReceive r) s =
          .next (((s.arrived r.port 0).received ⟨r.peer, r.colour⟩ r.seq).send (.answer r.peer r.colour 0x8010 [])))) ∧
    (s.linkOpen r.port = true → s.unseen ⟨r.peer, r.colour⟩ r.seq = true →
      let s1 := ((s.arrived r.port ((s.translate r.port r.peer r.colour).getD 0)).received ⟨r.peer, r.colour⟩ r.seq).dropHeld r
      (∀ j, s1.peerRuns r = some j →
        exec (.remoteCancelReceive r) s = .next ((s1.cancel j).send (.answer r.peer r.colour 4 []))) ∧
      (s1.peerRuns r = none → exec (.remoteCancelReceive r) s = .next (s1.send (.answer r.peer r.colour 4 [])))) ∧
    (∀ m, s.unseen ⟨peer, colour⟩ seq = true → tget s.cmds k = some m → m.phase = .cancelling →
      exec (.remoteCancelAckReceive ⟨k, ⟨⟨peer, colour⟩, seq⟩⟩) s = .next ((s.received ⟨peer, colour⟩ seq).dropCmd k m)) ∧
    (s.linkOpen a.port = true → s.unseen ⟨a.peer, a.colour⟩ a.seq = true → s.behind (.access a) = false →
      let s1 := (s.arrived a.port ((s.translate a.port a.peer a.colour).getD 0)).received ⟨a.peer, a.colour⟩ a.seq
      (∀ n c l st, a.cmd = some n → a.acc = .done st → s1.localEnd a.peer n = some (c, l) →
        exec (.remoteAccessReceive a) s = .next (s1.modCmd n fun c => { c with answer := some st }))) ∧
    (s.linkOpen a.port = true → s.unseen ⟨a.peer, a.colour⟩ a.seq = true → s.behind (.access a) = false → a.cmd = none →
      (s.translate a.port a.peer a.colour = none → exec (.remoteAccessReceive a) s =
        .next (((s.arrived a.port 0).received ⟨a.peer, a.colour⟩ a.seq).reply a 0x8010 [])) ∧
      (∀ x t, s.translate a.port a.peer a.colour = some x → s.awaits (s.accRanges a).1 (s.accRanges a).2 = none →
        ((s.arrived a.port x).received ⟨a.peer, a.colour⟩ a.seq).peerAccess x a = some t → exec (.remoteAccessReceive a) s = .next t)) ∧
    (s.linkOpen port = true → s.unseen ⟨peer, colour⟩ seq = true →
      ∃ t, exec (.departureNoticeReceive port ⟨peer, colour⟩ seq) s = .next t ∧ t.translate port peer colour = none) ∧
    (s.unseen ⟨peer, colour⟩ seq = true → exec (.departureNoticeAckReceive ⟨peer, colour⟩ seq) s =
      .next ((s.received ⟨peer, colour⟩ seq).modWorld colour fun w => { w with awaits := w.awaits.filter (· != peer) })) ∧
    (∀ n x, s.unseen ⟨peer, colour⟩ seq = true →
      (tfind s.bars fun y => y.scope == .pod && y.colour == colour && y.join == join) = some (n, x) → x.broken = false →
      let s1 := s.received ⟨peer, colour⟩ seq
      (x.arrived.length + x.peers + 1 < x.p → exec (.podBarrierArrivalReceive ⟨peer, colour⟩ seq join) s =
        .next { s1 with bars := tput s.bars n { x with peers := x.peers + 1 } }) ∧
      (x.p ≤ x.arrived.length + x.peers + 1 → exec (.podBarrierArrivalReceive ⟨peer, colour⟩ seq join) s =
        .next ({ s1 with bars := tput s.bars n { x with arrived := [], peers := 0, phase := x.phase + 1 } }.releaseBar (some n) none))) ∧
    (∀ n x, s.unseen ⟨q.peer, q.colour⟩ q.seq = true →
      (tfind s.clxs fun y => y.scope == .pod && y.colour == q.colour && y.join == q.join) = some (n, x) →
      let s1 := s.received ⟨q.peer, q.colour⟩ q.seq
      let p : Contribution := { rank := q.rank, fn := q.fn, i32 := q.i32, data := q.data.map some, cmd := none }
      (x.full = false → exec (.podCollectiveContributionReceive q) s =
        .next { s1 with clxs := tput s.clxs n { x with parts := x.parts ++ [p] } }) ∧
      (x.full = true → exec (.podCollectiveContributionReceive q) s =
        .next { s1 with clxs := tput s.clxs n { x with early := x.early ++ [p] } }))

/-- R363, R364, R457–R459: eight flits in a row that fail their tag retrain a port; training brings it up, under a fresh pair key with its
message counters at 0, when the peer's identity verifies, else down; a retrain ends after 2^26 port cycles, and a message counter at 2^63
begins one; a package that no port reaches for 2^26 is unreachable; a switched mask is in force. R458: of a message
that is a duplicate the port counts that it arrived, and nothing else happens; no number of a stream is received twice. -/
def Obligations.Links : Prop :=
  ∀ (s : State) (port peer colour : Nat) (m : TrainMsg),
    (s.linkOpen port = true →
      ((s.port port).fails + 1 < 8 → exec (.flitTagFail port colour) s =
        .next (((s.count colour 5 5 1).modPort port fun p => { p with tx := p.tx + 1 }).modPort port fun p =>
          { p with fails := (s.port port).fails + 1 })) ∧
      (8 ≤ (s.port port).fails + 1 → ∃ t, exec (.flitTagFail port colour) s = .next t ∧ (t.port port).fails = 0 ∧
        (t.port port).retrain = some (s.now (13 + port)) ∧ s.mgmt.seq < t.mgmt.seq)) ∧
    (port < 32 → s.linkOpen port = false →
      (s.trainOk m = true → ∃ t, exec (.linkTraining port peer m) s = .next t ∧ (t.port port).up = true ∧
        (s.route.pkg < peer → (t.port port).sealedKey = Config.sealKey m.chain (Config.pairKey s.free)) ∧ (t.port port).peer = some peer ∧
        (t.port port).retrain = none ∧ (t.port port).key = some (s.pairKeyFor peer m) ∧ (t.port port).tx = 0 ∧ (t.port port).rx = 0) ∧
      (s.trainOk m = false → (s.port port).up = true → ∃ t, exec (.linkTraining port peer m) s = .next t ∧ (t.port port).up = false)) ∧
    (∀ t, (s.port port).retrain = some t → t + 2 ^ 26 ≤ s.now (13 + port) →
      ∃ u, exec (.retrainTimeout port) s = .next u ∧ (u.port port).up = false ∧ (u.port port).retrain = none) ∧
    ((s.port port).retrain = none → (s.port port).up = true → (2 ^ 63 ≤ (s.port port).tx ∨ 2 ^ 63 ≤ (s.port port).rx) →
      ∃ u, exec (.retrainTimeout port) s = .next u ∧ (u.port port).retrain = some (s.now (13 + port))) ∧
    (∀ at_, let mask : Word := (tget s.route.routem peer).getD 0
      mask ≠ 0 → peer ∉ s.route.gone → s.upPorts mask = [] → tget s.route.down peer = some at_ → at_.2 + 2 ^ 26 ≤ s.now (13 + at_.1) →
      s.cmds = [] → s.convoys = [] → exec (.unreachableTimeout peer) s = .next { s with route := { s.route with
        gone := peer :: s.route.gone, out := s.route.out.filter fun x => x.msg.dest.1 != peer } }) ∧
    (∀ old, tget s.route.inForce (4096 * peer + colour) = some old → exec (.routemSwitch peer colour) s =
      .next (State.reroute { s with route := { s.route with
        inForce := tdel s.route.inForce (4096 * peer + colour)
        out := s.route.out.filter fun x => x.port.isNone || x.msg.dest != (peer, colour) } })) ∧
    (∀ (k join seq : Nat) (x : PeerStream) (b : BaleMsg) (r : RemoteCmdMsg) (a : RemoteAccMsg) (q : PodClxMsg)
        (w : RecallMsg),
      (s.linkOpen b.port = true → s.unseen ⟨b.peer, b.colour⟩ b.seq = false →
        exec (.baleReceive b) s = .next (s.arrived b.port ((s.translate b.port b.peer b.colour).getD 0))) ∧
      (s.linkOpen r.port = true → s.unseen ⟨r.peer, r.colour⟩ r.seq = false →
        exec (.remoteCommandReceive r) s = .next (s.arrived r.port ((s.translate r.port r.peer r.colour).getD 0)) ∧
        exec (.remoteCancelReceive r) s = .next (s.arrived r.port ((s.translate r.port r.peer r.colour).getD 0))) ∧
      (s.linkOpen a.port = true → s.unseen ⟨a.peer, a.colour⟩ a.seq = false →
        exec (.remoteAccessReceive a) s = .next (s.arrived a.port ((s.translate a.port a.peer a.colour).getD 0))) ∧
      (s.linkOpen w.port = true → s.unseen ⟨w.owner, w.colour⟩ w.seq = false →
        exec (.recallReceive w) s = .next (s.arrived w.port ((s.translations w.port w.owner w.colour).headD 0))) ∧
      (s.linkOpen port = true → s.unseen x seq = false →
        exec (.departureNoticeReceive port x seq) s = .next (s.arrived port ((s.translate port x.peer x.colour).getD 0))) ∧
      (s.unseen x seq = false → exec (.departureNoticeAckReceive x seq) s = .next s ∧ exec (.podBarrierArrivalReceive x seq join) s = .next s ∧
        exec (.remoteCancelAckReceive ⟨k, ⟨x, seq⟩⟩) s = .next s) ∧
      (s.unseen ⟨q.peer, q.colour⟩ q.seq = false → exec (.podCollectiveContributionReceive q) s = .next s) ∧
      (∀ n, (s.received x seq).unseen x n = decide (seq < n)))

/-! ## Memory, the port, requests and power -/

/-- R117–R120, R324, R334, R356, R396, R111–R114: the memory system's own steps, and the writes of its registers. -/
def Obligations.MemorySteps : Prop :=
  ∀ (s : State) (g line die page num : Nat) (val : Word) (ns : List Nat),
    (∀ n, (s.bankSet g).state = 0 → (idleCounts (s.level g)).1 = some n → g < 86 → (s.bankSet g).alloc = true → (s.bankSet g).waking = none →
      (s.bankSet g).last + n ≤ s.now bankDomain → exec (.bankSetIdleP1 g) s = .next (s.modBank g fun b => { b with state := 1 })) ∧
    (∀ n, (s.bankSet g).state.toNat < 2 → (idleCounts (s.level g)).2 = some n → g < 86 → (s.bankSet g).alloc = true →
      (s.bankSet g).waking = none → (s.bankSet g).last + n ≤ s.now bankDomain →
      exec (.bankSetIdleP2 g) s = .next (s.modBank g fun b => { b with state := 2 })) ∧
    (∀ t, (s.bankSet g).waking = some t → t + wakeCycles (s.bankSet g).state ≤ s.now bankDomain → exec (.bankSetWakeDone g) s =
      .next (((s.modBank g fun b => { b with state := 0, waking := none, last := s.now bankDomain }).countWake g (s.bankSet g).state).settlePosted g)) ∧
    (∀ x t, x ∈ s.msc.lines → x.line = line → 0x80_0000_0000 ≤ line → x.dirty = some t → t + 65536 ≤ s.now (sliceDomain x.slice) →
      exec (.poolDirtyTimeout line) s = .next (s.writeBack (fun x => x.line == line && decide (0x80_0000_0000 ≤ line) && (match x.dirty with
        | some t => decide (t + 65536 ≤ s.now (sliceDomain x.slice))
        | none => false)) fun _ => false)) ∧
    (exec (.backInvalidateSnoop line) s = .next (s.writeBack (fun x => x.line == line && decide (0x80_0000_0000 ≤ line))
      fun x => x.line == line && decide (0x80_0000_0000 ≤ line))) ∧
    (die < 4 → (tget s.hbm.periods die).getD 0 + 51200000 ≤ s.now (4 + die) → s.hbm.rows = [] → exec (.throttlePeriodEnd die) s =
      .next { s with hbm := { s.hbm with rows := [],
                                         periods := tput s.hbm.periods die (s.now (4 + die)) } }) ∧
    ((tget s.hbm.zeroing page).isSome = true → exec (.pageZeroFillDone page) s = .next (s.fillPages (s.pageColour page) [page])) ∧
    (exec (.scrubPage page) s = .next s) ∧
    (g < 8 → num < 192 → (s.hbm.spared.filter fun x => x.1 == g).length < 8 → ns = [] → s.hbm.bad = [] →
      exec (.pseudoChannelSpare g num ns) s = .next (State.record { s with hbm := { s.hbm with spared := s.hbm.spared ++ [(g, num)] } }
        { source := 0x16, cls := 0x11, colour := 0, recov := 0xC, addr := 0 } false)) ∧
    (∀ n, (sysReg num = some (.vda n) → exec (.mscMaskWrite num val) s = .next (s.writeSys 0 val (.vda n))) ∧
      (sysReg num = some (.vdb n) → exec (.mscMaskWrite num val) s = .next (s.writeSys 0 val (.vdb n)))) ∧
    (exec (.mscreclWrite val) s = .next (s.setRecl val)) ∧ (exec .mscreclDone s = .next s.endReclaim) ∧
    (g < 4 → exec (.mscMonitorEnable g val) s = .next (s.setMonS g val)) ∧ (g < 86 → exec (.pmapAllocWrite g val) s = .next (s.setPmap g val))

/-- R140, R346, R347, R350–R355, R361, R454, R461: what the PCIe port does while its link is up in service mode, with no earlier access
waiting there; an access behind one that waits is held in its order; a write of EXTINV waits while BUSY is 1. -/
def Obligations.HostPort : Prop :=
  ∀ (s : State) (off n i vd grp spn : Nat) (val : DWord) (bs : List Byte) (m : ApMsg),
    s.host.linkUp = true → s.host.mode = 0 →
    ((∃ e ∈ s.held, heldKey e = some hostKey) → off < configSpace →
      exec (.hostReadReceive off n) s = .next { s with held := s.held ++ [.hostRead off n] }) ∧
    (configSpace ≤ off → exec (.hostReadReceive off n) s = .next (s.configRead (off - configSpace) n)) ∧
    ((∀ e ∈ s.held, heldKey e ≠ some hostKey) →
    (off < configSpace → s.awaits (s.fwqRange off n) [] = none →
      exec (.hostReadReceive off n) s = .next ((s.barRead off n).1.answer (s.barRead off n).2)) ∧
    (touchesExtinv off bs.length = false → regSpace off = true → exec (.hostWriteReceive off bs) s =
      .next ((pieces 8 off bs).foldl (fun s p =>
        if regSpace p.1 then s.regPut p.1 (BitVec.ofNat 64 (mergeNat 8 (s.barWord p.1).2.toNat p.2.1 p.2.2)) else s) s)) ∧
    (0x130_0000 ≤ off → off + bs.length ≤ 0x130_1040 → s.awaits [] (s.fwqRange off bs.length) = none →
      let a := s.host.fwq + (off - 0x130_0000)
      exec (.hostWriteReceive off bs) s = .next ((s.passWr 0 none a bs.length).wrBytes a bs)) ∧
    (vd < 256 → grp < 64 → n < 8 → exec (.counterRead vd grp n) s =
      .next ((s.readCounter vd grp n).1.answer (leBytes 8 (s.readCounter vd grp n).2.toNat))) ∧
    (regSpace off = true → off % 8 = 0 → touchesExtinv off 8 = false → exec (.registerWrite off val) s = .next (s.regPut off val)) ∧
    (0x150_0000 ≤ off → off < 0x150_1000 → off % 4 = 0 →
      exec (.registerWrite off val) s = .next (s.writeRoutem ((off - 0x150_0000) / 4) (val.setWidth 32))) ∧
    (i < 64 → exec (.bindRequest i) s = .next (s.putBinding i (s.bindCheck (s.binding i)))) ∧
    (s.host.extInv.getLsbD 63 = false → exec (.extinvWrite val) s = .next { s with host := { s.host with
      extInv := 0x8000_0000_0000_0000#64 ||| (val &&& 0x600F_FFFF_FFE0_0000), extCache := s.host.extCache.filter fun x => !extNamed val x } }) ∧
    (s.host.extInv.getLsbD 63 = true → exec (.extinvWrite val) s = .next { s with held := s.held ++ [.extinv val] }) ∧
    (∃ t, exec .extinvDone s = .next t ∧ t.host.extInv.getLsbD 63 = false) ∧
    (s.haltRight spn = true →
      ((s.sp spn).halted = false → s.beingSaved spn = false → exec (.dbgctlHalt spn) s =
        .next ((s.modSp spn fun p => { p with halting := true, stepping := false, power := .on }).settleHalt spn)) ∧
      ((s.sp spn).halted = true → exec (.dbgctlStep spn) s = .next (s.modSp spn fun p => { p with stepping := true }) ∧
        exec (.dbgctlRun spn) s = .next ((s.modSp spn fun p => { p with halted := false, stepping := false, stepOf := none }).noteRun spn))) ∧
    (let r : DWord := (tget s.host.hap m.ap).getD 0
     let a := (r.extractLsb' 34 18).toNat * 2 ^ 34 + m.off
     let c := (r.extractLsb' 0 12).toNat
     let hbm (n : Nat) : List Addr := (linesOf a n).filter fun l => decide (l < 0x80_0000_0000)
     m.ap < 4 → r.getLsbD 12 = true →
     (∀ w, m.write = some w → m.off + w.length ≤ 2 ^ 34 → (∀ j < w.length, s.apByte c true (a + j) = true) →
       s.awaits [] [(a, w.length)] = none →
       exec (.apertureAccess m) s = .next ((((s.wakeRange a w.length).noteKeys c (hbm w.length)).writeRange (plainAgent c) false a (w.map some)
         []).1.takeKeys c (hbm w.length))) ∧
     (m.write = none → m.off + m.n ≤ 2 ^ 34 → (∀ j < m.n, s.apByte c false (a + j) = true) → s.awaits [(a, m.n)] [] = none →
       let x := ((s.wakeRange a m.n).noteKeys c (hbm m.n)).readLines (plainAgent c) .rd a m.n
       exec (.apertureAccess m) s = .next (x.1.answer ((x.1.bytesAt (plainAgent c) x.2 a m.n).map fun b => b.getD 0))) ∧
     (m.write = none → (∃ j < m.n, s.apByte c false (a + j) = false) →
       exec (.apertureAccess m) s = .next (s.answer (refusedBytes m.n))))) ∧
    (exec .pcieLinkDown s = .next { s with host := { s.host with linkUp := false } }) ∧
    (exec .pcieLinkUp s = .next { s with host := { s.host with linkUp := true } })

/-- R316–R318, R320–R331, R339–R347, R370: a world request at the head of its queue that no refusal code meets is carried out, each
operation as the rules say; STOP, RESET, DEPART and RELEASE stop the SPs first. R317, R340, R342: the end of a protected formation, and of
the acceptance of a token, whose status tells of a protected formation that met it. R328, R329: the last steps of RESET and of DEPART,
once the world's work is stopped and every notice is acknowledged: the generation advances, or the colour is free. -/
def Obligations.WorldRequests : Prop :=
  (∀ (s : State) (r : WReq), s.atHead r = true → s.reqAwaits r = none → s.reqCode r = none → s.under (reqOp r) r = none → (r.svc = none → reqOp r ∈ fwOps) →
     (∀ c, r.svc = some c → reqOp r ∈ svcOps) →
     let t := (s.popReq r).readBlk r ((reqBlkLen s r).getD 0)
     let c := reqColour r
     (reqOp r = 1 → exec (.formReq r) s = .next (if reqArg0 r % 2 = 1 then
       (t.excludeWindows.newWorld r .forming).modWorld c fun w => { w with waiting := some r } else (t.newWorld r .standard).doneReq r)) ∧
     (reqOp r = 2 → exec (.grantReq r) s =
       .next (((reqSps r).foldl (fun s p => s.modSp p fun q => { q with owner := c, power := .on }) t).doneReq r)) ∧
     (reqOp r = 3 → exec (.fenceRequest r) s =
       .next ((((List.range 64).filter fun b => reqArg0 r / 2 ^ b % 2 == 1).foldl (fun s b =>
         let f := 8 + (reqSps r).headD 0 % 4
         match s.fence (reqCore r) b with
         | some _ => s.setFence (reqCore r) b f
         | none => (s.quenchBank (reqCore r) b).setFence (reqCore r) b f) t).doneReq r)) ∧
     (reqOp r = 4 → let u := (t.stopSps (reqSps r)).modWorld c fun w => { w with waiting := some r }
       exec (.releaseReq r) s =
         .next (if u.quietStop (reqSps r) then ((u.saveSps (reqSps r)).freeSps (reqSps r)).doneReq r else u)) ∧
     (reqOp r = 5 → let u := t.beginStop r
       (u.quietWorld c = false → exec (.stopReq r) s = .next u) ∧
       (u.quietWorld c = true → exec (.stopReq r) s = .next ((u.endStop r (reqArg0 r)).modWorld c fun w => { w with waiting := none }))) ∧
     (reqOp r = 6 → let u := (t.releaseHalts c).beginStop r
       u.quietWorld c = false → exec (.resetReq r) s = .next u) ∧
     (reqOp r = 7 → let u := (t.releaseHalts c).beginStop r
       u.quietWorld c = false → exec (.departReq r) s = .next u) ∧
     (reqOp r = 8 → s.cmds = [] →
       let new := ((List.range (leNat (s.fwRead (reqBlk r) 2))).map fun i => t.routeEntry r i).foldl (fun x e => x.put e) t.route
       exec (.routeReq r) s = .next ((State.freePeers t { t with route := new }).doneReq r)) ∧
     (reqOp r = 9 → exec (.unlockReq r) s = .next (t.openWindow r)) ∧
     (reqOp r = 0x0A → ∃ u, exec (.relockReq r) s = .next u ∧ u.mgmt.token = none) ∧
     (∀ w, reqOp r = 0x0B → t.reqWorld r = some w → exec (.attestReq r) s =
       .next ((t.fwWrite (t.reqParty r) (reqBlk r)
         (t.report r w ++ leBytes 512 (Config.deviceSign (Config.sha512 (t.report r w))).toNat)).doneReq r)) ∧
     (reqOp r = 0x0C → ∃ u, exec (.nonceReq r) s = .next u ∧ u.mgmt.nonce = some (Config.nonce t.free) ∧ u.free = s.free + 1) ∧
     (∀ w, reqOp r = 0x0D → t.reqWorld r = some w → exec (.imageReq r) s =
       .next ((t.bump.fwWrite (t.reqParty r) (reqBlk r) ((List.range (t.imageLen (imageSp r) !t.sealedImage r w)).map fun i =>
         if t.sealedImage r w then Config.sealByte t.free i (t.imageAt (imageSp r) false i)
         else t.imageAt (imageSp r) true i)).doneReq r)) ∧
     (reqOp r = 0x0E → ∃ u, exec (.modeReq r) s = .next u ∧ u.host.mode = BitVec.ofNat 2 (reqArg0 r)) ∧
     (reqOp r = 0x20 → exec (.consentReq r) s =
       .next ((t.modWorld c fun w => { w with consent := some (BitVec.ofNat 3 (reqArg0 r)) }).doneReq r)) ∧
     (reqOp r = 0x21 → exec (.withdrawReq r) s = .next (((t.modWorld c fun w => { w with consent := none }).releaseHalts c).doneReq r))) ∧
  (∀ (s : State) (r : WReq) (w : World), s.under 1 r = some w → w.mode = .forming →
     exec (.formReq r) s = .next
       ((s.modWorld (reqColour r) fun w => { w with mode := .protected_, measurement := s.measure r }).doneReq r)) ∧
  (∀ (s : State) (r : WReq) (w : World) (n : BitVec 512) (x : Word) (met : Bool), s.under 9 r = some w →
     tget s.mgmt.windows (reqColour r) = some (n, x, met) →
     ∃ t u, exec (.unlockReq r) s = .next (State.wstat t r (if met then 3 else 1)) ∧ u = State.wstat t r (if met then 3 else 1) ∧
       u.mgmt.token = some x ∧ (s.mgmt.nonce = some n → u.mgmt.nonce = none) ∧ tget u.mgmt.windows (reqColour r) = none) ∧
  (∀ (s : State) (r : WReq) (w : World), s.under (reqOp r) r = some w → w.stopping = false → w.awaits = [] →
     let c := reqColour r
     (reqOp r = 6 → ∃ t, exec (.resetReq r) s = .next t ∧ t.gen c = s.gen c + 1 ∧
       ∀ x, tget t.worlds c = some x → x.waiting = none ∧ x.exports = []) ∧
     (reqOp r = 7 → ∃ t, exec (.departReq r) s = .next t ∧ t.gen c = s.gen c + 1 ∧ tget t.worlds c = none))

/-- R366, R367, R370, R462, R319, R463, R471: cold reset ends with the open port in service mode, the fused minimum security version that of
the image, or in recovery with the phase and the cause of the failure; SPs are gated and retained by idleness, and put off when they may
be (log entry 82); a clock change; a thermal stop with no world, and one whose world is not quiet in time. -/
def Obligations.ResetAndPower : Prop :=
  ∀ (s : State) (b : BootCfg) (die mhz spn colour : Nat),
    (∀ x, s.bootFail b = none → bootImage b s.mgmt.minSvn = .ok x → ∃ t, exec (.coldReset b) s = .next t ∧ t.host.mode = 0 ∧
      t.host.bootstat = 7 ∧ t.host.booted = true ∧ t.host.fwq = queuePlace b ∧ t.mgmt.hyp = hypColour b ∧ t.mgmt.svn = x.svn ∧
      t.mgmt.minSvn = x.svn ∧ s.mgmt.minSvn ≤ x.svn ∧ t.route.pkg = b.pkg.toNat ∧ t.convoys = [] ∧ t.wgs = [] ∧ t.cmds = [] ∧
      (∃ w, t.worlds = [(hypColour b, w)] ∧ w.vd = 0 ∧ w.mode = .standard)) ∧
    (∀ f, s.bootFail b = some f → ∃ t, exec (.coldReset b) s = .next t ∧ t.host.mode = 3 ∧
      t.host.bootstat = (f.1.setWidth 32 <<< 4 ||| f.2.setWidth 32) ∧ t.mgmt.minSvn = s.mgmt.minSvn ∧ t.worlds = [] ∧
      t.host.booted = false) ∧
    (∀ x, b.fuses = true → b.slots = [some x, none] → imageCause x s.mgmt.minSvn = some 0x4 → s.bootFail b = some (0x4, 2)) ∧
    (die < 4 → 0 < mhz → mhz ≤ 1100 → exec (.clockChange die mhz) s = .next { s with mhz := tput s.mhz die mhz }) ∧
    ((s.sp spn).power = .on → s.readyOn (some spn) = [] → (s.sp spn).idleSince + 4096 ≤ s.now (dieOf spn) →
      exec (.spClockGate spn) s = .next (s.modSp spn fun p => { p with power := .gated })) ∧
    (((s.sp spn).power = .on ∨ (s.sp spn).power = .gated) → s.occupied spn = false → (s.sp spn).freeSince + 2 ^ 20 ≤ s.now (dieOf spn) →
      exec (.spRetention spn) s = .next (s.modSp spn fun p => { p with power := .retention, temperiv := p.every, heldIv := none })) ∧
    ((s.sp spn).power = .retention → ∃ t, exec (.spRetention spn) s = .next t ∧
      (t = s ∨ ((t.sp spn).power = .off ∧ (t.sp spn).owner = (s.sp spn).owner ∧ s.mayPutOff spn = true))) ∧
    (s.worlds = [] → s.mgmt.stops = [] → s.mgmt.thermal = false → ∃ t, exec (.thermalStop die) s = .next t ∧ t.host.mode = 3 ∧
      t.convoys = [] ∧ t.wgs = [] ∧ t.host.booted = false ∧ s.mgmt.seq < t.mgmt.seq) ∧
    (∀ x, tget s.mgmt.stops colour = some x → x + 2 ^ 24 ≤ s.now (s.worldDie colour) → exec (.stopTimeout colour) s =
      .next (State.thermalSettle { s with mgmt := { s.mgmt with stops := tdel s.mgmt.stops colour } }))
end

