-- ==== Sys2Proof/Laws/Issue.lean ====
section
/-! SUPPORT. What issuing a word answers when nothing holds the convoy back, for each shared shape of instruction. -/

namespace Sys2Proof.Machine

variable {s : State} {i : Nat} {v : Convoy} {c : Ctl} {regs : List RegUse} {lat : List (BitVec 2)} {n : Nat}

theorem issue_of_goes (h : s.goes i v c regs lat) (k : Nat → Convoy → List Ln → State) :
    issue s c regs lat k = .next (k i v (s.active v c.g)) := by
  obtain ⟨h1, h2, h3, h4, h5⟩ := h
  simp [issue, h1, h2, h3, h4, h5]

theorem issueWide_of_goes (h : s.goes i v {} [] []) (k : Nat → Convoy → List Ln → State) :
    issueWide s k = .next (k i v (s.active v {})) := issue_of_goes h k

theorem issueEnd_of_goes (h : s.goesEnd i v c regs lat n) (k : Nat → Convoy → List Ln → State) :
    issueEnd s c regs lat n k = .next (k i v (s.active v c.g)) := by
  obtain ⟨hg, h6, h7⟩ := h
  have h1 := hg.1
  have h2 := hg.2.1
  simp only [issueEnd, h1, h2, h6]
  rw [issue_of_goes hg]
  simp only [h7]

theorem compute_of_goes {wd : Bool} {d : VDst} (h : s.goes i v c (regs ++ dregs d wd) lat)
    (f : Convoy → List Ln → Ln → DWord × BitVec 8) :
    compute s c regs lat wd d n f =
      .next (s.retire i wd d n ((s.active v c.g).map fun l => (l, f v (s.active v c.g) l))) := by
  rw [compute, issue_of_goes h]; rfl

theorem computeP_of_goes {p : BitVec 3} (h : s.goes i v c regs lat) (f : Convoy → Ln → Bool × BitVec 8) :
    computeP s c regs lat p n f = .next (s.retireP i p n ((s.active v c.g).map fun l => (l, f v l))) := by
  rw [computeP, issue_of_goes h]; rfl

/-- What issuing an engine instruction that does not end a region answers. -/
theorem issueEngine_of_goes {cls : Cls} {slot : Bool} (h : s.goes i v c regs lat)
    (op : State → Convoy → List Ln → CmdOp) (ev : State → Convoy → List Ln → CmdOp → Looked)
    (he : s.engineGoes v cls (op s v (s.active v c.g))) {s1 : State} {o1 : CmdOp} {keys : List EventKey}
    (hv : ev s v (s.active v c.g) (op s v (s.active v c.g)) = some (s1, o1, keys)) :
    issueEngine s c cls slot false regs lat n op ev =
      .next ((s1.accepted i v (s.newCmd i v cls slot o1 keys)).advance i n) := by
  obtain ⟨h1, h2, h3, h4⟩ := he
  have h3' : (s.freeSlot (coreOf v.spn) cls).isNone = false := by simp [← Option.not_isSome, h3]
  simp only [issueEngine, Bool.false_eq_true, if_false]
  rw [issue_of_goes h]
  simp only [h1, h2, h3', h4, hv, if_false, Bool.not_true, Bool.or_false, Bool.false_eq_true]

/-- The same for one that ends a region. -/
theorem issueEngineEnd_of_goes {cls : Cls} {slot : Bool} (h : s.goesEnd i v c regs lat n)
    (op : State → Convoy → List Ln → CmdOp) (ev : State → Convoy → List Ln → CmdOp → Looked)
    (he : s.engineGoes v cls (op s v (s.active v c.g))) {s1 : State} {o1 : CmdOp} {keys : List EventKey}
    (hv : ev s v (s.active v c.g) (op s v (s.active v c.g)) = some (s1, o1, keys)) :
    issueEngine s c cls slot true regs lat n op ev =
      .next ((s1.accepted i v (s.newCmd i v cls slot o1 keys)).endRegion i n) := by
  obtain ⟨h1, h2, h3, h4⟩ := he
  have h3' : (s.freeSlot (coreOf v.spn) cls).isNone = false := by simp [← Option.not_isSome, h3]
  simp only [issueEngine, if_true]
  rw [issueEnd_of_goes h]
  simp only [h1, h2, h3', h4, hv, if_false, Bool.not_true, Bool.or_false, Bool.false_eq_true]

/-- A local access whose every lane passes, that no engine holds and the log has room for, has its effect. -/
theorem localAccess_of_ok {r : List LaneAcc} {w : Bool} {e : Nat} {k : State} (hb : ∀ x ∈ r, x.bad = none)
    (hh : s.rangesHeld (coreOf v.spn) (accRanges r n w) = false)
    (hl : w = true → s.logRoom (r.flatMap fun x => linesOf x.a n) v.spn e = true) :
    localAccess s i v r n w e k = k.wakeAll (accRanges r n w) := by
  have hf : (r.find? fun x => x.bad.isSome) = none := by
    rw [List.find?_eq_none]; intro x hx; simp [hb x hx]
  have hl' : (w && !s.logRoom (r.flatMap fun x => linesOf x.a n) v.spn e) = false := by
    cases w <;> simp_all
  simp only [localAccess, hf, hh, hl', Bool.false_eq_true, if_false]

end Sys2Proof.Machine
end

