-- ==== Sys2Proof/Laws/State.lean ====
section
/-! SUPPORT. What each update of one part of State leaves of the other parts: one lemma per field per update. -/

namespace Sys2Proof.Machine

variable (s : State)

@[simp] theorem State.bump_ev : (s.bump).ev = s.ev := rfl
@[simp] theorem State.bump_turn : (s.bump).turn = s.turn := rfl
@[simp] theorem State.bump_cur : (s.bump).cur = s.cur := rfl
@[simp] theorem State.bump_ids : (s.bump).ids = s.ids := rfl
@[simp] theorem State.bump_clk : (s.bump).clk = s.clk := rfl
@[simp] theorem State.bump_mhz : (s.bump).mhz = s.mhz := rfl
@[simp] theorem State.bump_mem : (s.bump).mem = s.mem := rfl
@[simp] theorem State.bump_tags : (s.bump).tags = s.tags := rfl
@[simp] theorem State.bump_fibres : (s.bump).fibres = s.fibres := rfl
@[simp] theorem State.bump_convoys : (s.bump).convoys = s.convoys := rfl
@[simp] theorem State.bump_serais : (s.bump).serais = s.serais := rfl
@[simp] theorem State.bump_outside : (s.bump).outside = s.outside := rfl
@[simp] theorem State.bump_wgs : (s.bump).wgs = s.wgs := rfl
@[simp] theorem State.bump_launches : (s.bump).launches = s.launches := rfl
@[simp] theorem State.bump_cmds : (s.bump).cmds = s.cmds := rfl
@[simp] theorem State.bump_sps : (s.bump).sps = s.sps := rfl
@[simp] theorem State.bump_cores : (s.bump).cores = s.cores := rfl
@[simp] theorem State.bump_bars : (s.bump).bars = s.bars := rfl
@[simp] theorem State.bump_clxs : (s.bump).clxs = s.clxs := rfl
@[simp] theorem State.bump_worlds : (s.bump).worlds = s.worlds := rfl
@[simp] theorem State.bump_gens : (s.bump).gens = s.gens := rfl
@[simp] theorem State.bump_egens : (s.bump).egens = s.egens := rfl
@[simp] theorem State.bump_rev : (s.bump).rev = s.rev := rfl
@[simp] theorem State.bump_msc : (s.bump).msc = s.msc := rfl
@[simp] theorem State.bump_hbm : (s.bump).hbm = s.hbm := rfl
@[simp] theorem State.bump_route : (s.bump).route = s.route := rfl
@[simp] theorem State.bump_host : (s.bump).host = s.host := rfl
@[simp] theorem State.bump_mgmt : (s.bump).mgmt = s.mgmt := rfl
@[simp] theorem State.bump_anvil : (s.bump).anvil = s.anvil := rfl
@[simp] theorem State.bump_held : (s.bump).held = s.held := rfl
@[simp] theorem State.bump_own : (s.bump).own = s.own := rfl

@[simp] theorem State.nextId_ev : (s.nextId).ev = s.ev := rfl
@[simp] theorem State.nextId_turn : (s.nextId).turn = s.turn := rfl
@[simp] theorem State.nextId_cur : (s.nextId).cur = s.cur := rfl
@[simp] theorem State.nextId_free : (s.nextId).free = s.free := rfl
@[simp] theorem State.nextId_clk : (s.nextId).clk = s.clk := rfl
@[simp] theorem State.nextId_mhz : (s.nextId).mhz = s.mhz := rfl
@[simp] theorem State.nextId_mem : (s.nextId).mem = s.mem := rfl
@[simp] theorem State.nextId_tags : (s.nextId).tags = s.tags := rfl
@[simp] theorem State.nextId_fibres : (s.nextId).fibres = s.fibres := rfl
@[simp] theorem State.nextId_convoys : (s.nextId).convoys = s.convoys := rfl
@[simp] theorem State.nextId_serais : (s.nextId).serais = s.serais := rfl
@[simp] theorem State.nextId_outside : (s.nextId).outside = s.outside := rfl
@[simp] theorem State.nextId_wgs : (s.nextId).wgs = s.wgs := rfl
@[simp] theorem State.nextId_launches : (s.nextId).launches = s.launches := rfl
@[simp] theorem State.nextId_cmds : (s.nextId).cmds = s.cmds := rfl
@[simp] theorem State.nextId_sps : (s.nextId).sps = s.sps := rfl
@[simp] theorem State.nextId_cores : (s.nextId).cores = s.cores := rfl
@[simp] theorem State.nextId_bars : (s.nextId).bars = s.bars := rfl
@[simp] theorem State.nextId_clxs : (s.nextId).clxs = s.clxs := rfl
@[simp] theorem State.nextId_worlds : (s.nextId).worlds = s.worlds := rfl
@[simp] theorem State.nextId_gens : (s.nextId).gens = s.gens := rfl
@[simp] theorem State.nextId_egens : (s.nextId).egens = s.egens := rfl
@[simp] theorem State.nextId_rev : (s.nextId).rev = s.rev := rfl
@[simp] theorem State.nextId_msc : (s.nextId).msc = s.msc := rfl
@[simp] theorem State.nextId_hbm : (s.nextId).hbm = s.hbm := rfl
@[simp] theorem State.nextId_route : (s.nextId).route = s.route := rfl
@[simp] theorem State.nextId_host : (s.nextId).host = s.host := rfl
@[simp] theorem State.nextId_mgmt : (s.nextId).mgmt = s.mgmt := rfl
@[simp] theorem State.nextId_anvil : (s.nextId).anvil = s.anvil := rfl
@[simp] theorem State.nextId_held : (s.nextId).held = s.held := rfl
@[simp] theorem State.nextId_own : (s.nextId).own = s.own := rfl

@[simp] theorem State.nextSeq_ev : (s.nextSeq).ev = s.ev := rfl
@[simp] theorem State.nextSeq_turn : (s.nextSeq).turn = s.turn := rfl
@[simp] theorem State.nextSeq_cur : (s.nextSeq).cur = s.cur := rfl
@[simp] theorem State.nextSeq_free : (s.nextSeq).free = s.free := rfl
@[simp] theorem State.nextSeq_ids : (s.nextSeq).ids = s.ids := rfl
@[simp] theorem State.nextSeq_clk : (s.nextSeq).clk = s.clk := rfl
@[simp] theorem State.nextSeq_mhz : (s.nextSeq).mhz = s.mhz := rfl
@[simp] theorem State.nextSeq_mem : (s.nextSeq).mem = s.mem := rfl
@[simp] theorem State.nextSeq_tags : (s.nextSeq).tags = s.tags := rfl
@[simp] theorem State.nextSeq_fibres : (s.nextSeq).fibres = s.fibres := rfl
@[simp] theorem State.nextSeq_convoys : (s.nextSeq).convoys = s.convoys := rfl
@[simp] theorem State.nextSeq_serais : (s.nextSeq).serais = s.serais := rfl
@[simp] theorem State.nextSeq_outside : (s.nextSeq).outside = s.outside := rfl
@[simp] theorem State.nextSeq_wgs : (s.nextSeq).wgs = s.wgs := rfl
@[simp] theorem State.nextSeq_launches : (s.nextSeq).launches = s.launches := rfl
@[simp] theorem State.nextSeq_cmds : (s.nextSeq).cmds = s.cmds := rfl
@[simp] theorem State.nextSeq_sps : (s.nextSeq).sps = s.sps := rfl
@[simp] theorem State.nextSeq_cores : (s.nextSeq).cores = s.cores := rfl
@[simp] theorem State.nextSeq_bars : (s.nextSeq).bars = s.bars := rfl
@[simp] theorem State.nextSeq_clxs : (s.nextSeq).clxs = s.clxs := rfl
@[simp] theorem State.nextSeq_worlds : (s.nextSeq).worlds = s.worlds := rfl
@[simp] theorem State.nextSeq_gens : (s.nextSeq).gens = s.gens := rfl
@[simp] theorem State.nextSeq_egens : (s.nextSeq).egens = s.egens := rfl
@[simp] theorem State.nextSeq_rev : (s.nextSeq).rev = s.rev := rfl
@[simp] theorem State.nextSeq_msc : (s.nextSeq).msc = s.msc := rfl
@[simp] theorem State.nextSeq_hbm : (s.nextSeq).hbm = s.hbm := rfl
@[simp] theorem State.nextSeq_route : (s.nextSeq).route = s.route := rfl
@[simp] theorem State.nextSeq_host : (s.nextSeq).host = s.host := rfl
@[simp] theorem State.nextSeq_anvil : (s.nextSeq).anvil = s.anvil := rfl
@[simp] theorem State.nextSeq_held : (s.nextSeq).held = s.held := rfl
@[simp] theorem State.nextSeq_own : (s.nextSeq).own = s.own := rfl

@[simp] theorem State.wr8_ev (a : Addr) (b : Byte) : (s.wr8 a b).ev = s.ev := rfl
@[simp] theorem State.wr8_turn (a : Addr) (b : Byte) : (s.wr8 a b).turn = s.turn := rfl
@[simp] theorem State.wr8_cur (a : Addr) (b : Byte) : (s.wr8 a b).cur = s.cur := rfl
@[simp] theorem State.wr8_free (a : Addr) (b : Byte) : (s.wr8 a b).free = s.free := rfl
@[simp] theorem State.wr8_ids (a : Addr) (b : Byte) : (s.wr8 a b).ids = s.ids := rfl
@[simp] theorem State.wr8_clk (a : Addr) (b : Byte) : (s.wr8 a b).clk = s.clk := rfl
@[simp] theorem State.wr8_mhz (a : Addr) (b : Byte) : (s.wr8 a b).mhz = s.mhz := rfl
@[simp] theorem State.wr8_tags (a : Addr) (b : Byte) : (s.wr8 a b).tags = s.tags := rfl
@[simp] theorem State.wr8_fibres (a : Addr) (b : Byte) : (s.wr8 a b).fibres = s.fibres := rfl
@[simp] theorem State.wr8_convoys (a : Addr) (b : Byte) : (s.wr8 a b).convoys = s.convoys := rfl
@[simp] theorem State.wr8_serais (a : Addr) (b : Byte) : (s.wr8 a b).serais = s.serais := rfl
@[simp] theorem State.wr8_outside (a : Addr) (b : Byte) : (s.wr8 a b).outside = s.outside := rfl
@[simp] theorem State.wr8_wgs (a : Addr) (b : Byte) : (s.wr8 a b).wgs = s.wgs := rfl
@[simp] theorem State.wr8_launches (a : Addr) (b : Byte) : (s.wr8 a b).launches = s.launches := rfl
@[simp] theorem State.wr8_cmds (a : Addr) (b : Byte) : (s.wr8 a b).cmds = s.cmds := rfl
@[simp] theorem State.wr8_sps (a : Addr) (b : Byte) : (s.wr8 a b).sps = s.sps := rfl
@[simp] theorem State.wr8_cores (a : Addr) (b : Byte) : (s.wr8 a b).cores = s.cores := rfl
@[simp] theorem State.wr8_bars (a : Addr) (b : Byte) : (s.wr8 a b).bars = s.bars := rfl
@[simp] theorem State.wr8_clxs (a : Addr) (b : Byte) : (s.wr8 a b).clxs = s.clxs := rfl
@[simp] theorem State.wr8_worlds (a : Addr) (b : Byte) : (s.wr8 a b).worlds = s.worlds := rfl
@[simp] theorem State.wr8_gens (a : Addr) (b : Byte) : (s.wr8 a b).gens = s.gens := rfl
@[simp] theorem State.wr8_egens (a : Addr) (b : Byte) : (s.wr8 a b).egens = s.egens := rfl
@[simp] theorem State.wr8_rev (a : Addr) (b : Byte) : (s.wr8 a b).rev = s.rev := rfl
@[simp] theorem State.wr8_msc (a : Addr) (b : Byte) : (s.wr8 a b).msc = s.msc := rfl
@[simp] theorem State.wr8_hbm (a : Addr) (b : Byte) : (s.wr8 a b).hbm = s.hbm := rfl
@[simp] theorem State.wr8_route (a : Addr) (b : Byte) : (s.wr8 a b).route = s.route := rfl
@[simp] theorem State.wr8_host (a : Addr) (b : Byte) : (s.wr8 a b).host = s.host := rfl
@[simp] theorem State.wr8_mgmt (a : Addr) (b : Byte) : (s.wr8 a b).mgmt = s.mgmt := rfl
@[simp] theorem State.wr8_anvil (a : Addr) (b : Byte) : (s.wr8 a b).anvil = s.anvil := rfl
@[simp] theorem State.wr8_held (a : Addr) (b : Byte) : (s.wr8 a b).held = s.held := rfl
@[simp] theorem State.wr8_own (a : Addr) (b : Byte) : (s.wr8 a b).own = s.own := rfl

@[simp] theorem State.setTag_ev (a : Addr) (b : Bool) : (s.setTag a b).ev = s.ev := rfl
@[simp] theorem State.setTag_turn (a : Addr) (b : Bool) : (s.setTag a b).turn = s.turn := rfl
@[simp] theorem State.setTag_cur (a : Addr) (b : Bool) : (s.setTag a b).cur = s.cur := rfl
@[simp] theorem State.setTag_free (a : Addr) (b : Bool) : (s.setTag a b).free = s.free := rfl
@[simp] theorem State.setTag_ids (a : Addr) (b : Bool) : (s.setTag a b).ids = s.ids := rfl
@[simp] theorem State.setTag_clk (a : Addr) (b : Bool) : (s.setTag a b).clk = s.clk := rfl
@[simp] theorem State.setTag_mhz (a : Addr) (b : Bool) : (s.setTag a b).mhz = s.mhz := rfl
@[simp] theorem State.setTag_mem (a : Addr) (b : Bool) : (s.setTag a b).mem = s.mem := rfl
@[simp] theorem State.setTag_fibres (a : Addr) (b : Bool) : (s.setTag a b).fibres = s.fibres := rfl
@[simp] theorem State.setTag_convoys (a : Addr) (b : Bool) : (s.setTag a b).convoys = s.convoys := rfl
@[simp] theorem State.setTag_serais (a : Addr) (b : Bool) : (s.setTag a b).serais = s.serais := rfl
@[simp] theorem State.setTag_outside (a : Addr) (b : Bool) : (s.setTag a b).outside = s.outside := rfl
@[simp] theorem State.setTag_wgs (a : Addr) (b : Bool) : (s.setTag a b).wgs = s.wgs := rfl
@[simp] theorem State.setTag_launches (a : Addr) (b : Bool) : (s.setTag a b).launches = s.launches := rfl
@[simp] theorem State.setTag_cmds (a : Addr) (b : Bool) : (s.setTag a b).cmds = s.cmds := rfl
@[simp] theorem State.setTag_sps (a : Addr) (b : Bool) : (s.setTag a b).sps = s.sps := rfl
@[simp] theorem State.setTag_cores (a : Addr) (b : Bool) : (s.setTag a b).cores = s.cores := rfl
@[simp] theorem State.setTag_bars (a : Addr) (b : Bool) : (s.setTag a b).bars = s.bars := rfl
@[simp] theorem State.setTag_clxs (a : Addr) (b : Bool) : (s.setTag a b).clxs = s.clxs := rfl
@[simp] theorem State.setTag_worlds (a : Addr) (b : Bool) : (s.setTag a b).worlds = s.worlds := rfl
@[simp] theorem State.setTag_gens (a : Addr) (b : Bool) : (s.setTag a b).gens = s.gens := rfl
@[simp] theorem State.setTag_egens (a : Addr) (b : Bool) : (s.setTag a b).egens = s.egens := rfl
@[simp] theorem State.setTag_rev (a : Addr) (b : Bool) : (s.setTag a b).rev = s.rev := rfl
@[simp] theorem State.setTag_msc (a : Addr) (b : Bool) : (s.setTag a b).msc = s.msc := rfl
@[simp] theorem State.setTag_hbm (a : Addr) (b : Bool) : (s.setTag a b).hbm = s.hbm := rfl
@[simp] theorem State.setTag_route (a : Addr) (b : Bool) : (s.setTag a b).route = s.route := rfl
@[simp] theorem State.setTag_host (a : Addr) (b : Bool) : (s.setTag a b).host = s.host := rfl
@[simp] theorem State.setTag_mgmt (a : Addr) (b : Bool) : (s.setTag a b).mgmt = s.mgmt := rfl
@[simp] theorem State.setTag_anvil (a : Addr) (b : Bool) : (s.setTag a b).anvil = s.anvil := rfl
@[simp] theorem State.setTag_held (a : Addr) (b : Bool) : (s.setTag a b).held = s.held := rfl
@[simp] theorem State.setTag_own (a : Addr) (b : Bool) : (s.setTag a b).own = s.own := rfl

@[simp] theorem State.putConvoy_ev (c : Nat) (v : Convoy) : (s.putConvoy c v).ev = s.ev := rfl
@[simp] theorem State.putConvoy_turn (c : Nat) (v : Convoy) : (s.putConvoy c v).turn = s.turn := rfl
@[simp] theorem State.putConvoy_cur (c : Nat) (v : Convoy) : (s.putConvoy c v).cur = s.cur := rfl
@[simp] theorem State.putConvoy_free (c : Nat) (v : Convoy) : (s.putConvoy c v).free = s.free := rfl
@[simp] theorem State.putConvoy_ids (c : Nat) (v : Convoy) : (s.putConvoy c v).ids = s.ids := rfl
@[simp] theorem State.putConvoy_clk (c : Nat) (v : Convoy) : (s.putConvoy c v).clk = s.clk := rfl
@[simp] theorem State.putConvoy_mhz (c : Nat) (v : Convoy) : (s.putConvoy c v).mhz = s.mhz := rfl
@[simp] theorem State.putConvoy_mem (c : Nat) (v : Convoy) : (s.putConvoy c v).mem = s.mem := rfl
@[simp] theorem State.putConvoy_tags (c : Nat) (v : Convoy) : (s.putConvoy c v).tags = s.tags := rfl
@[simp] theorem State.putConvoy_fibres (c : Nat) (v : Convoy) : (s.putConvoy c v).fibres = s.fibres := rfl
@[simp] theorem State.putConvoy_serais (c : Nat) (v : Convoy) : (s.putConvoy c v).serais = s.serais := rfl
@[simp] theorem State.putConvoy_outside (c : Nat) (v : Convoy) : (s.putConvoy c v).outside = s.outside := rfl
@[simp] theorem State.putConvoy_wgs (c : Nat) (v : Convoy) : (s.putConvoy c v).wgs = s.wgs := rfl
@[simp] theorem State.putConvoy_launches (c : Nat) (v : Convoy) : (s.putConvoy c v).launches = s.launches := rfl
@[simp] theorem State.putConvoy_cmds (c : Nat) (v : Convoy) : (s.putConvoy c v).cmds = s.cmds := rfl
@[simp] theorem State.putConvoy_sps (c : Nat) (v : Convoy) : (s.putConvoy c v).sps = s.sps := rfl
@[simp] theorem State.putConvoy_cores (c : Nat) (v : Convoy) : (s.putConvoy c v).cores = s.cores := rfl
@[simp] theorem State.putConvoy_bars (c : Nat) (v : Convoy) : (s.putConvoy c v).bars = s.bars := rfl
@[simp] theorem State.putConvoy_clxs (c : Nat) (v : Convoy) : (s.putConvoy c v).clxs = s.clxs := rfl
@[simp] theorem State.putConvoy_worlds (c : Nat) (v : Convoy) : (s.putConvoy c v).worlds = s.worlds := rfl
@[simp] theorem State.putConvoy_gens (c : Nat) (v : Convoy) : (s.putConvoy c v).gens = s.gens := rfl
@[simp] theorem State.putConvoy_egens (c : Nat) (v : Convoy) : (s.putConvoy c v).egens = s.egens := rfl
@[simp] theorem State.putConvoy_rev (c : Nat) (v : Convoy) : (s.putConvoy c v).rev = s.rev := rfl
@[simp] theorem State.putConvoy_msc (c : Nat) (v : Convoy) : (s.putConvoy c v).msc = s.msc := rfl
@[simp] theorem State.putConvoy_hbm (c : Nat) (v : Convoy) : (s.putConvoy c v).hbm = s.hbm := rfl
@[simp] theorem State.putConvoy_route (c : Nat) (v : Convoy) : (s.putConvoy c v).route = s.route := rfl
@[simp] theorem State.putConvoy_host (c : Nat) (v : Convoy) : (s.putConvoy c v).host = s.host := rfl
@[simp] theorem State.putConvoy_mgmt (c : Nat) (v : Convoy) : (s.putConvoy c v).mgmt = s.mgmt := rfl
@[simp] theorem State.putConvoy_anvil (c : Nat) (v : Convoy) : (s.putConvoy c v).anvil = s.anvil := rfl
@[simp] theorem State.putConvoy_held (c : Nat) (v : Convoy) : (s.putConvoy c v).held = s.held := rfl
@[simp] theorem State.putConvoy_own (c : Nat) (v : Convoy) : (s.putConvoy c v).own = s.own := rfl

@[simp] theorem State.modConvoy_ev (c : Nat) (f : Convoy → Convoy) : (s.modConvoy c f).ev = s.ev := rfl
@[simp] theorem State.modConvoy_turn (c : Nat) (f : Convoy → Convoy) : (s.modConvoy c f).turn = s.turn := rfl
@[simp] theorem State.modConvoy_cur (c : Nat) (f : Convoy → Convoy) : (s.modConvoy c f).cur = s.cur := rfl
@[simp] theorem State.modConvoy_free (c : Nat) (f : Convoy → Convoy) : (s.modConvoy c f).free = s.free := rfl
@[simp] theorem State.modConvoy_ids (c : Nat) (f : Convoy → Convoy) : (s.modConvoy c f).ids = s.ids := rfl
@[simp] theorem State.modConvoy_clk (c : Nat) (f : Convoy → Convoy) : (s.modConvoy c f).clk = s.clk := rfl
@[simp] theorem State.modConvoy_mhz (c : Nat) (f : Convoy → Convoy) : (s.modConvoy c f).mhz = s.mhz := rfl
@[simp] theorem State.modConvoy_mem (c : Nat) (f : Convoy → Convoy) : (s.modConvoy c f).mem = s.mem := rfl
@[simp] theorem State.modConvoy_tags (c : Nat) (f : Convoy → Convoy) : (s.modConvoy c f).tags = s.tags := rfl
@[simp] theorem State.modConvoy_fibres (c : Nat) (f : Convoy → Convoy) : (s.modConvoy c f).fibres = s.fibres := rfl
@[simp] theorem State.modConvoy_serais (c : Nat) (f : Convoy → Convoy) : (s.modConvoy c f).serais = s.serais := rfl
@[simp] theorem State.modConvoy_outside (c : Nat) (f : Convoy → Convoy) : (s.modConvoy c f).outside = s.outside := rfl
@[simp] theorem State.modConvoy_wgs (c : Nat) (f : Convoy → Convoy) : (s.modConvoy c f).wgs = s.wgs := rfl
@[simp] theorem State.modConvoy_launches (c : Nat) (f : Convoy → Convoy) : (s.modConvoy c f).launches = s.launches := rfl
@[simp] theorem State.modConvoy_cmds (c : Nat) (f : Convoy → Convoy) : (s.modConvoy c f).cmds = s.cmds := rfl
@[simp] theorem State.modConvoy_sps (c : Nat) (f : Convoy → Convoy) : (s.modConvoy c f).sps = s.sps := rfl
@[simp] theorem State.modConvoy_cores (c : Nat) (f : Convoy → Convoy) : (s.modConvoy c f).cores = s.cores := rfl
@[simp] theorem State.modConvoy_bars (c : Nat) (f : Convoy → Convoy) : (s.modConvoy c f).bars = s.bars := rfl
@[simp] theorem State.modConvoy_clxs (c : Nat) (f : Convoy → Convoy) : (s.modConvoy c f).clxs = s.clxs := rfl
@[simp] theorem State.modConvoy_worlds (c : Nat) (f : Convoy → Convoy) : (s.modConvoy c f).worlds = s.worlds := rfl
@[simp] theorem State.modConvoy_gens (c : Nat) (f : Convoy → Convoy) : (s.modConvoy c f).gens = s.gens := rfl
@[simp] theorem State.modConvoy_egens (c : Nat) (f : Convoy → Convoy) : (s.modConvoy c f).egens = s.egens := rfl
@[simp] theorem State.modConvoy_rev (c : Nat) (f : Convoy → Convoy) : (s.modConvoy c f).rev = s.rev := rfl
@[simp] theorem State.modConvoy_msc (c : Nat) (f : Convoy → Convoy) : (s.modConvoy c f).msc = s.msc := rfl
@[simp] theorem State.modConvoy_hbm (c : Nat) (f : Convoy → Convoy) : (s.modConvoy c f).hbm = s.hbm := rfl
@[simp] theorem State.modConvoy_route (c : Nat) (f : Convoy → Convoy) : (s.modConvoy c f).route = s.route := rfl
@[simp] theorem State.modConvoy_host (c : Nat) (f : Convoy → Convoy) : (s.modConvoy c f).host = s.host := rfl
@[simp] theorem State.modConvoy_mgmt (c : Nat) (f : Convoy → Convoy) : (s.modConvoy c f).mgmt = s.mgmt := rfl
@[simp] theorem State.modConvoy_anvil (c : Nat) (f : Convoy → Convoy) : (s.modConvoy c f).anvil = s.anvil := rfl
@[simp] theorem State.modConvoy_held (c : Nat) (f : Convoy → Convoy) : (s.modConvoy c f).held = s.held := rfl
@[simp] theorem State.modConvoy_own (c : Nat) (f : Convoy → Convoy) : (s.modConvoy c f).own = s.own := rfl

@[simp] theorem State.modU_ev (c : Nat) (f : Unif → Unif) : (s.modU c f).ev = s.ev := rfl
@[simp] theorem State.modU_turn (c : Nat) (f : Unif → Unif) : (s.modU c f).turn = s.turn := rfl
@[simp] theorem State.modU_cur (c : Nat) (f : Unif → Unif) : (s.modU c f).cur = s.cur := rfl
@[simp] theorem State.modU_free (c : Nat) (f : Unif → Unif) : (s.modU c f).free = s.free := rfl
@[simp] theorem State.modU_ids (c : Nat) (f : Unif → Unif) : (s.modU c f).ids = s.ids := rfl
@[simp] theorem State.modU_clk (c : Nat) (f : Unif → Unif) : (s.modU c f).clk = s.clk := rfl
@[simp] theorem State.modU_mhz (c : Nat) (f : Unif → Unif) : (s.modU c f).mhz = s.mhz := rfl
@[simp] theorem State.modU_mem (c : Nat) (f : Unif → Unif) : (s.modU c f).mem = s.mem := rfl
@[simp] theorem State.modU_tags (c : Nat) (f : Unif → Unif) : (s.modU c f).tags = s.tags := rfl
@[simp] theorem State.modU_fibres (c : Nat) (f : Unif → Unif) : (s.modU c f).fibres = s.fibres := rfl
@[simp] theorem State.modU_serais (c : Nat) (f : Unif → Unif) : (s.modU c f).serais = s.serais := rfl
@[simp] theorem State.modU_outside (c : Nat) (f : Unif → Unif) : (s.modU c f).outside = s.outside := rfl
@[simp] theorem State.modU_wgs (c : Nat) (f : Unif → Unif) : (s.modU c f).wgs = s.wgs := rfl
@[simp] theorem State.modU_launches (c : Nat) (f : Unif → Unif) : (s.modU c f).launches = s.launches := rfl
@[simp] theorem State.modU_cmds (c : Nat) (f : Unif → Unif) : (s.modU c f).cmds = s.cmds := rfl
@[simp] theorem State.modU_sps (c : Nat) (f : Unif → Unif) : (s.modU c f).sps = s.sps := rfl
@[simp] theorem State.modU_cores (c : Nat) (f : Unif → Unif) : (s.modU c f).cores = s.cores := rfl
@[simp] theorem State.modU_bars (c : Nat) (f : Unif → Unif) : (s.modU c f).bars = s.bars := rfl
@[simp] theorem State.modU_clxs (c : Nat) (f : Unif → Unif) : (s.modU c f).clxs = s.clxs := rfl
@[simp] theorem State.modU_worlds (c : Nat) (f : Unif → Unif) : (s.modU c f).worlds = s.worlds := rfl
@[simp] theorem State.modU_gens (c : Nat) (f : Unif → Unif) : (s.modU c f).gens = s.gens := rfl
@[simp] theorem State.modU_egens (c : Nat) (f : Unif → Unif) : (s.modU c f).egens = s.egens := rfl
@[simp] theorem State.modU_rev (c : Nat) (f : Unif → Unif) : (s.modU c f).rev = s.rev := rfl
@[simp] theorem State.modU_msc (c : Nat) (f : Unif → Unif) : (s.modU c f).msc = s.msc := rfl
@[simp] theorem State.modU_hbm (c : Nat) (f : Unif → Unif) : (s.modU c f).hbm = s.hbm := rfl
@[simp] theorem State.modU_route (c : Nat) (f : Unif → Unif) : (s.modU c f).route = s.route := rfl
@[simp] theorem State.modU_host (c : Nat) (f : Unif → Unif) : (s.modU c f).host = s.host := rfl
@[simp] theorem State.modU_mgmt (c : Nat) (f : Unif → Unif) : (s.modU c f).mgmt = s.mgmt := rfl
@[simp] theorem State.modU_anvil (c : Nat) (f : Unif → Unif) : (s.modU c f).anvil = s.anvil := rfl
@[simp] theorem State.modU_held (c : Nat) (f : Unif → Unif) : (s.modU c f).held = s.held := rfl
@[simp] theorem State.modU_own (c : Nat) (f : Unif → Unif) : (s.modU c f).own = s.own := rfl

@[simp] theorem State.hold_ev (c : Nat) (w : Wait) : (s.hold c w).ev = s.ev := rfl
@[simp] theorem State.hold_turn (c : Nat) (w : Wait) : (s.hold c w).turn = s.turn := rfl
@[simp] theorem State.hold_cur (c : Nat) (w : Wait) : (s.hold c w).cur = s.cur := rfl
@[simp] theorem State.hold_free (c : Nat) (w : Wait) : (s.hold c w).free = s.free := rfl
@[simp] theorem State.hold_ids (c : Nat) (w : Wait) : (s.hold c w).ids = s.ids := rfl
@[simp] theorem State.hold_clk (c : Nat) (w : Wait) : (s.hold c w).clk = s.clk := rfl
@[simp] theorem State.hold_mhz (c : Nat) (w : Wait) : (s.hold c w).mhz = s.mhz := rfl
@[simp] theorem State.hold_mem (c : Nat) (w : Wait) : (s.hold c w).mem = s.mem := rfl
@[simp] theorem State.hold_tags (c : Nat) (w : Wait) : (s.hold c w).tags = s.tags := rfl
@[simp] theorem State.hold_fibres (c : Nat) (w : Wait) : (s.hold c w).fibres = s.fibres := rfl
@[simp] theorem State.hold_serais (c : Nat) (w : Wait) : (s.hold c w).serais = s.serais := rfl
@[simp] theorem State.hold_outside (c : Nat) (w : Wait) : (s.hold c w).outside = s.outside := rfl
@[simp] theorem State.hold_wgs (c : Nat) (w : Wait) : (s.hold c w).wgs = s.wgs := rfl
@[simp] theorem State.hold_launches (c : Nat) (w : Wait) : (s.hold c w).launches = s.launches := rfl
@[simp] theorem State.hold_cmds (c : Nat) (w : Wait) : (s.hold c w).cmds = s.cmds := rfl
@[simp] theorem State.hold_sps (c : Nat) (w : Wait) : (s.hold c w).sps = s.sps := rfl
@[simp] theorem State.hold_cores (c : Nat) (w : Wait) : (s.hold c w).cores = s.cores := rfl
@[simp] theorem State.hold_bars (c : Nat) (w : Wait) : (s.hold c w).bars = s.bars := rfl
@[simp] theorem State.hold_clxs (c : Nat) (w : Wait) : (s.hold c w).clxs = s.clxs := rfl
@[simp] theorem State.hold_worlds (c : Nat) (w : Wait) : (s.hold c w).worlds = s.worlds := rfl
@[simp] theorem State.hold_gens (c : Nat) (w : Wait) : (s.hold c w).gens = s.gens := rfl
@[simp] theorem State.hold_egens (c : Nat) (w : Wait) : (s.hold c w).egens = s.egens := rfl
@[simp] theorem State.hold_rev (c : Nat) (w : Wait) : (s.hold c w).rev = s.rev := rfl
@[simp] theorem State.hold_msc (c : Nat) (w : Wait) : (s.hold c w).msc = s.msc := rfl
@[simp] theorem State.hold_hbm (c : Nat) (w : Wait) : (s.hold c w).hbm = s.hbm := rfl
@[simp] theorem State.hold_route (c : Nat) (w : Wait) : (s.hold c w).route = s.route := rfl
@[simp] theorem State.hold_host (c : Nat) (w : Wait) : (s.hold c w).host = s.host := rfl
@[simp] theorem State.hold_mgmt (c : Nat) (w : Wait) : (s.hold c w).mgmt = s.mgmt := rfl
@[simp] theorem State.hold_anvil (c : Nat) (w : Wait) : (s.hold c w).anvil = s.anvil := rfl
@[simp] theorem State.hold_held (c : Nat) (w : Wait) : (s.hold c w).held = s.held := rfl
@[simp] theorem State.hold_own (c : Nat) (w : Wait) : (s.hold c w).own = s.own := rfl

@[simp] theorem State.modFibre_ev (i : Nat) (f : Fibre → Fibre) : (s.modFibre i f).ev = s.ev := rfl
@[simp] theorem State.modFibre_turn (i : Nat) (f : Fibre → Fibre) : (s.modFibre i f).turn = s.turn := rfl
@[simp] theorem State.modFibre_cur (i : Nat) (f : Fibre → Fibre) : (s.modFibre i f).cur = s.cur := rfl
@[simp] theorem State.modFibre_free (i : Nat) (f : Fibre → Fibre) : (s.modFibre i f).free = s.free := rfl
@[simp] theorem State.modFibre_ids (i : Nat) (f : Fibre → Fibre) : (s.modFibre i f).ids = s.ids := rfl
@[simp] theorem State.modFibre_clk (i : Nat) (f : Fibre → Fibre) : (s.modFibre i f).clk = s.clk := rfl
@[simp] theorem State.modFibre_mhz (i : Nat) (f : Fibre → Fibre) : (s.modFibre i f).mhz = s.mhz := rfl
@[simp] theorem State.modFibre_mem (i : Nat) (f : Fibre → Fibre) : (s.modFibre i f).mem = s.mem := rfl
@[simp] theorem State.modFibre_tags (i : Nat) (f : Fibre → Fibre) : (s.modFibre i f).tags = s.tags := rfl
@[simp] theorem State.modFibre_convoys (i : Nat) (f : Fibre → Fibre) : (s.modFibre i f).convoys = s.convoys := rfl
@[simp] theorem State.modFibre_serais (i : Nat) (f : Fibre → Fibre) : (s.modFibre i f).serais = s.serais := rfl
@[simp] theorem State.modFibre_outside (i : Nat) (f : Fibre → Fibre) : (s.modFibre i f).outside = s.outside := rfl
@[simp] theorem State.modFibre_wgs (i : Nat) (f : Fibre → Fibre) : (s.modFibre i f).wgs = s.wgs := rfl
@[simp] theorem State.modFibre_launches (i : Nat) (f : Fibre → Fibre) : (s.modFibre i f).launches = s.launches := rfl
@[simp] theorem State.modFibre_cmds (i : Nat) (f : Fibre → Fibre) : (s.modFibre i f).cmds = s.cmds := rfl
@[simp] theorem State.modFibre_sps (i : Nat) (f : Fibre → Fibre) : (s.modFibre i f).sps = s.sps := rfl
@[simp] theorem State.modFibre_cores (i : Nat) (f : Fibre → Fibre) : (s.modFibre i f).cores = s.cores := rfl
@[simp] theorem State.modFibre_bars (i : Nat) (f : Fibre → Fibre) : (s.modFibre i f).bars = s.bars := rfl
@[simp] theorem State.modFibre_clxs (i : Nat) (f : Fibre → Fibre) : (s.modFibre i f).clxs = s.clxs := rfl
@[simp] theorem State.modFibre_worlds (i : Nat) (f : Fibre → Fibre) : (s.modFibre i f).worlds = s.worlds := rfl
@[simp] theorem State.modFibre_gens (i : Nat) (f : Fibre → Fibre) : (s.modFibre i f).gens = s.gens := rfl
@[simp] theorem State.modFibre_egens (i : Nat) (f : Fibre → Fibre) : (s.modFibre i f).egens = s.egens := rfl
@[simp] theorem State.modFibre_rev (i : Nat) (f : Fibre → Fibre) : (s.modFibre i f).rev = s.rev := rfl
@[simp] theorem State.modFibre_msc (i : Nat) (f : Fibre → Fibre) : (s.modFibre i f).msc = s.msc := rfl
@[simp] theorem State.modFibre_hbm (i : Nat) (f : Fibre → Fibre) : (s.modFibre i f).hbm = s.hbm := rfl
@[simp] theorem State.modFibre_route (i : Nat) (f : Fibre → Fibre) : (s.modFibre i f).route = s.route := rfl
@[simp] theorem State.modFibre_host (i : Nat) (f : Fibre → Fibre) : (s.modFibre i f).host = s.host := rfl
@[simp] theorem State.modFibre_mgmt (i : Nat) (f : Fibre → Fibre) : (s.modFibre i f).mgmt = s.mgmt := rfl
@[simp] theorem State.modFibre_anvil (i : Nat) (f : Fibre → Fibre) : (s.modFibre i f).anvil = s.anvil := rfl
@[simp] theorem State.modFibre_held (i : Nat) (f : Fibre → Fibre) : (s.modFibre i f).held = s.held := rfl
@[simp] theorem State.modFibre_own (i : Nat) (f : Fibre → Fibre) : (s.modFibre i f).own = s.own := rfl

@[simp] theorem State.modWg_ev (w : Nat) (f : Wg → Wg) : (s.modWg w f).ev = s.ev := rfl
@[simp] theorem State.modWg_turn (w : Nat) (f : Wg → Wg) : (s.modWg w f).turn = s.turn := rfl
@[simp] theorem State.modWg_cur (w : Nat) (f : Wg → Wg) : (s.modWg w f).cur = s.cur := rfl
@[simp] theorem State.modWg_free (w : Nat) (f : Wg → Wg) : (s.modWg w f).free = s.free := rfl
@[simp] theorem State.modWg_ids (w : Nat) (f : Wg → Wg) : (s.modWg w f).ids = s.ids := rfl
@[simp] theorem State.modWg_clk (w : Nat) (f : Wg → Wg) : (s.modWg w f).clk = s.clk := rfl
@[simp] theorem State.modWg_mhz (w : Nat) (f : Wg → Wg) : (s.modWg w f).mhz = s.mhz := rfl
@[simp] theorem State.modWg_mem (w : Nat) (f : Wg → Wg) : (s.modWg w f).mem = s.mem := rfl
@[simp] theorem State.modWg_tags (w : Nat) (f : Wg → Wg) : (s.modWg w f).tags = s.tags := rfl
@[simp] theorem State.modWg_fibres (w : Nat) (f : Wg → Wg) : (s.modWg w f).fibres = s.fibres := rfl
@[simp] theorem State.modWg_convoys (w : Nat) (f : Wg → Wg) : (s.modWg w f).convoys = s.convoys := rfl
@[simp] theorem State.modWg_serais (w : Nat) (f : Wg → Wg) : (s.modWg w f).serais = s.serais := rfl
@[simp] theorem State.modWg_outside (w : Nat) (f : Wg → Wg) : (s.modWg w f).outside = s.outside := rfl
@[simp] theorem State.modWg_launches (w : Nat) (f : Wg → Wg) : (s.modWg w f).launches = s.launches := rfl
@[simp] theorem State.modWg_cmds (w : Nat) (f : Wg → Wg) : (s.modWg w f).cmds = s.cmds := rfl
@[simp] theorem State.modWg_sps (w : Nat) (f : Wg → Wg) : (s.modWg w f).sps = s.sps := rfl
@[simp] theorem State.modWg_cores (w : Nat) (f : Wg → Wg) : (s.modWg w f).cores = s.cores := rfl
@[simp] theorem State.modWg_bars (w : Nat) (f : Wg → Wg) : (s.modWg w f).bars = s.bars := rfl
@[simp] theorem State.modWg_clxs (w : Nat) (f : Wg → Wg) : (s.modWg w f).clxs = s.clxs := rfl
@[simp] theorem State.modWg_worlds (w : Nat) (f : Wg → Wg) : (s.modWg w f).worlds = s.worlds := rfl
@[simp] theorem State.modWg_gens (w : Nat) (f : Wg → Wg) : (s.modWg w f).gens = s.gens := rfl
@[simp] theorem State.modWg_egens (w : Nat) (f : Wg → Wg) : (s.modWg w f).egens = s.egens := rfl
@[simp] theorem State.modWg_rev (w : Nat) (f : Wg → Wg) : (s.modWg w f).rev = s.rev := rfl
@[simp] theorem State.modWg_msc (w : Nat) (f : Wg → Wg) : (s.modWg w f).msc = s.msc := rfl
@[simp] theorem State.modWg_hbm (w : Nat) (f : Wg → Wg) : (s.modWg w f).hbm = s.hbm := rfl
@[simp] theorem State.modWg_route (w : Nat) (f : Wg → Wg) : (s.modWg w f).route = s.route := rfl
@[simp] theorem State.modWg_host (w : Nat) (f : Wg → Wg) : (s.modWg w f).host = s.host := rfl
@[simp] theorem State.modWg_mgmt (w : Nat) (f : Wg → Wg) : (s.modWg w f).mgmt = s.mgmt := rfl
@[simp] theorem State.modWg_anvil (w : Nat) (f : Wg → Wg) : (s.modWg w f).anvil = s.anvil := rfl
@[simp] theorem State.modWg_held (w : Nat) (f : Wg → Wg) : (s.modWg w f).held = s.held := rfl
@[simp] theorem State.modWg_own (w : Nat) (f : Wg → Wg) : (s.modWg w f).own = s.own := rfl

@[simp] theorem State.modSp_ev (n : Nat) (f : Sp → Sp) : (s.modSp n f).ev = s.ev := rfl
@[simp] theorem State.modSp_turn (n : Nat) (f : Sp → Sp) : (s.modSp n f).turn = s.turn := rfl
@[simp] theorem State.modSp_cur (n : Nat) (f : Sp → Sp) : (s.modSp n f).cur = s.cur := rfl
@[simp] theorem State.modSp_free (n : Nat) (f : Sp → Sp) : (s.modSp n f).free = s.free := rfl
@[simp] theorem State.modSp_ids (n : Nat) (f : Sp → Sp) : (s.modSp n f).ids = s.ids := rfl
@[simp] theorem State.modSp_clk (n : Nat) (f : Sp → Sp) : (s.modSp n f).clk = s.clk := rfl
@[simp] theorem State.modSp_mhz (n : Nat) (f : Sp → Sp) : (s.modSp n f).mhz = s.mhz := rfl
@[simp] theorem State.modSp_mem (n : Nat) (f : Sp → Sp) : (s.modSp n f).mem = s.mem := rfl
@[simp] theorem State.modSp_tags (n : Nat) (f : Sp → Sp) : (s.modSp n f).tags = s.tags := rfl
@[simp] theorem State.modSp_fibres (n : Nat) (f : Sp → Sp) : (s.modSp n f).fibres = s.fibres := rfl
@[simp] theorem State.modSp_convoys (n : Nat) (f : Sp → Sp) : (s.modSp n f).convoys = s.convoys := rfl
@[simp] theorem State.modSp_serais (n : Nat) (f : Sp → Sp) : (s.modSp n f).serais = s.serais := rfl
@[simp] theorem State.modSp_outside (n : Nat) (f : Sp → Sp) : (s.modSp n f).outside = s.outside := rfl
@[simp] theorem State.modSp_wgs (n : Nat) (f : Sp → Sp) : (s.modSp n f).wgs = s.wgs := rfl
@[simp] theorem State.modSp_launches (n : Nat) (f : Sp → Sp) : (s.modSp n f).launches = s.launches := rfl
@[simp] theorem State.modSp_cmds (n : Nat) (f : Sp → Sp) : (s.modSp n f).cmds = s.cmds := rfl
@[simp] theorem State.modSp_cores (n : Nat) (f : Sp → Sp) : (s.modSp n f).cores = s.cores := rfl
@[simp] theorem State.modSp_bars (n : Nat) (f : Sp → Sp) : (s.modSp n f).bars = s.bars := rfl
@[simp] theorem State.modSp_clxs (n : Nat) (f : Sp → Sp) : (s.modSp n f).clxs = s.clxs := rfl
@[simp] theorem State.modSp_worlds (n : Nat) (f : Sp → Sp) : (s.modSp n f).worlds = s.worlds := rfl
@[simp] theorem State.modSp_gens (n : Nat) (f : Sp → Sp) : (s.modSp n f).gens = s.gens := rfl
@[simp] theorem State.modSp_egens (n : Nat) (f : Sp → Sp) : (s.modSp n f).egens = s.egens := rfl
@[simp] theorem State.modSp_rev (n : Nat) (f : Sp → Sp) : (s.modSp n f).rev = s.rev := rfl
@[simp] theorem State.modSp_msc (n : Nat) (f : Sp → Sp) : (s.modSp n f).msc = s.msc := rfl
@[simp] theorem State.modSp_hbm (n : Nat) (f : Sp → Sp) : (s.modSp n f).hbm = s.hbm := rfl
@[simp] theorem State.modSp_route (n : Nat) (f : Sp → Sp) : (s.modSp n f).route = s.route := rfl
@[simp] theorem State.modSp_host (n : Nat) (f : Sp → Sp) : (s.modSp n f).host = s.host := rfl
@[simp] theorem State.modSp_mgmt (n : Nat) (f : Sp → Sp) : (s.modSp n f).mgmt = s.mgmt := rfl
@[simp] theorem State.modSp_anvil (n : Nat) (f : Sp → Sp) : (s.modSp n f).anvil = s.anvil := rfl
@[simp] theorem State.modSp_held (n : Nat) (f : Sp → Sp) : (s.modSp n f).held = s.held := rfl
@[simp] theorem State.modSp_own (n : Nat) (f : Sp → Sp) : (s.modSp n f).own = s.own := rfl

@[simp] theorem State.modCore_ev (n : Nat) (f : Core → Core) : (s.modCore n f).ev = s.ev := rfl
@[simp] theorem State.modCore_turn (n : Nat) (f : Core → Core) : (s.modCore n f).turn = s.turn := rfl
@[simp] theorem State.modCore_cur (n : Nat) (f : Core → Core) : (s.modCore n f).cur = s.cur := rfl
@[simp] theorem State.modCore_free (n : Nat) (f : Core → Core) : (s.modCore n f).free = s.free := rfl
@[simp] theorem State.modCore_ids (n : Nat) (f : Core → Core) : (s.modCore n f).ids = s.ids := rfl
@[simp] theorem State.modCore_clk (n : Nat) (f : Core → Core) : (s.modCore n f).clk = s.clk := rfl
@[simp] theorem State.modCore_mhz (n : Nat) (f : Core → Core) : (s.modCore n f).mhz = s.mhz := rfl
@[simp] theorem State.modCore_mem (n : Nat) (f : Core → Core) : (s.modCore n f).mem = s.mem := rfl
@[simp] theorem State.modCore_tags (n : Nat) (f : Core → Core) : (s.modCore n f).tags = s.tags := rfl
@[simp] theorem State.modCore_fibres (n : Nat) (f : Core → Core) : (s.modCore n f).fibres = s.fibres := rfl
@[simp] theorem State.modCore_convoys (n : Nat) (f : Core → Core) : (s.modCore n f).convoys = s.convoys := rfl
@[simp] theorem State.modCore_serais (n : Nat) (f : Core → Core) : (s.modCore n f).serais = s.serais := rfl
@[simp] theorem State.modCore_outside (n : Nat) (f : Core → Core) : (s.modCore n f).outside = s.outside := rfl
@[simp] theorem State.modCore_wgs (n : Nat) (f : Core → Core) : (s.modCore n f).wgs = s.wgs := rfl
@[simp] theorem State.modCore_launches (n : Nat) (f : Core → Core) : (s.modCore n f).launches = s.launches := rfl
@[simp] theorem State.modCore_cmds (n : Nat) (f : Core → Core) : (s.modCore n f).cmds = s.cmds := rfl
@[simp] theorem State.modCore_sps (n : Nat) (f : Core → Core) : (s.modCore n f).sps = s.sps := rfl
@[simp] theorem State.modCore_bars (n : Nat) (f : Core → Core) : (s.modCore n f).bars = s.bars := rfl
@[simp] theorem State.modCore_clxs (n : Nat) (f : Core → Core) : (s.modCore n f).clxs = s.clxs := rfl
@[simp] theorem State.modCore_worlds (n : Nat) (f : Core → Core) : (s.modCore n f).worlds = s.worlds := rfl
@[simp] theorem State.modCore_gens (n : Nat) (f : Core → Core) : (s.modCore n f).gens = s.gens := rfl
@[simp] theorem State.modCore_egens (n : Nat) (f : Core → Core) : (s.modCore n f).egens = s.egens := rfl
@[simp] theorem State.modCore_rev (n : Nat) (f : Core → Core) : (s.modCore n f).rev = s.rev := rfl
@[simp] theorem State.modCore_msc (n : Nat) (f : Core → Core) : (s.modCore n f).msc = s.msc := rfl
@[simp] theorem State.modCore_hbm (n : Nat) (f : Core → Core) : (s.modCore n f).hbm = s.hbm := rfl
@[simp] theorem State.modCore_route (n : Nat) (f : Core → Core) : (s.modCore n f).route = s.route := rfl
@[simp] theorem State.modCore_host (n : Nat) (f : Core → Core) : (s.modCore n f).host = s.host := rfl
@[simp] theorem State.modCore_mgmt (n : Nat) (f : Core → Core) : (s.modCore n f).mgmt = s.mgmt := rfl
@[simp] theorem State.modCore_anvil (n : Nat) (f : Core → Core) : (s.modCore n f).anvil = s.anvil := rfl
@[simp] theorem State.modCore_held (n : Nat) (f : Core → Core) : (s.modCore n f).held = s.held := rfl
@[simp] theorem State.modCore_own (n : Nat) (f : Core → Core) : (s.modCore n f).own = s.own := rfl

@[simp] theorem State.modCmd_ev (k : Nat) (f : Cmd → Cmd) : (s.modCmd k f).ev = s.ev := rfl
@[simp] theorem State.modCmd_turn (k : Nat) (f : Cmd → Cmd) : (s.modCmd k f).turn = s.turn := rfl
@[simp] theorem State.modCmd_cur (k : Nat) (f : Cmd → Cmd) : (s.modCmd k f).cur = s.cur := rfl
@[simp] theorem State.modCmd_free (k : Nat) (f : Cmd → Cmd) : (s.modCmd k f).free = s.free := rfl
@[simp] theorem State.modCmd_ids (k : Nat) (f : Cmd → Cmd) : (s.modCmd k f).ids = s.ids := rfl
@[simp] theorem State.modCmd_clk (k : Nat) (f : Cmd → Cmd) : (s.modCmd k f).clk = s.clk := rfl
@[simp] theorem State.modCmd_mhz (k : Nat) (f : Cmd → Cmd) : (s.modCmd k f).mhz = s.mhz := rfl
@[simp] theorem State.modCmd_mem (k : Nat) (f : Cmd → Cmd) : (s.modCmd k f).mem = s.mem := rfl
@[simp] theorem State.modCmd_tags (k : Nat) (f : Cmd → Cmd) : (s.modCmd k f).tags = s.tags := rfl
@[simp] theorem State.modCmd_fibres (k : Nat) (f : Cmd → Cmd) : (s.modCmd k f).fibres = s.fibres := rfl
@[simp] theorem State.modCmd_convoys (k : Nat) (f : Cmd → Cmd) : (s.modCmd k f).convoys = s.convoys := rfl
@[simp] theorem State.modCmd_serais (k : Nat) (f : Cmd → Cmd) : (s.modCmd k f).serais = s.serais := rfl
@[simp] theorem State.modCmd_outside (k : Nat) (f : Cmd → Cmd) : (s.modCmd k f).outside = s.outside := rfl
@[simp] theorem State.modCmd_wgs (k : Nat) (f : Cmd → Cmd) : (s.modCmd k f).wgs = s.wgs := rfl
@[simp] theorem State.modCmd_launches (k : Nat) (f : Cmd → Cmd) : (s.modCmd k f).launches = s.launches := rfl
@[simp] theorem State.modCmd_sps (k : Nat) (f : Cmd → Cmd) : (s.modCmd k f).sps = s.sps := rfl
@[simp] theorem State.modCmd_cores (k : Nat) (f : Cmd → Cmd) : (s.modCmd k f).cores = s.cores := rfl
@[simp] theorem State.modCmd_bars (k : Nat) (f : Cmd → Cmd) : (s.modCmd k f).bars = s.bars := rfl
@[simp] theorem State.modCmd_clxs (k : Nat) (f : Cmd → Cmd) : (s.modCmd k f).clxs = s.clxs := rfl
@[simp] theorem State.modCmd_worlds (k : Nat) (f : Cmd → Cmd) : (s.modCmd k f).worlds = s.worlds := rfl
@[simp] theorem State.modCmd_gens (k : Nat) (f : Cmd → Cmd) : (s.modCmd k f).gens = s.gens := rfl
@[simp] theorem State.modCmd_egens (k : Nat) (f : Cmd → Cmd) : (s.modCmd k f).egens = s.egens := rfl
@[simp] theorem State.modCmd_rev (k : Nat) (f : Cmd → Cmd) : (s.modCmd k f).rev = s.rev := rfl
@[simp] theorem State.modCmd_msc (k : Nat) (f : Cmd → Cmd) : (s.modCmd k f).msc = s.msc := rfl
@[simp] theorem State.modCmd_hbm (k : Nat) (f : Cmd → Cmd) : (s.modCmd k f).hbm = s.hbm := rfl
@[simp] theorem State.modCmd_route (k : Nat) (f : Cmd → Cmd) : (s.modCmd k f).route = s.route := rfl
@[simp] theorem State.modCmd_host (k : Nat) (f : Cmd → Cmd) : (s.modCmd k f).host = s.host := rfl
@[simp] theorem State.modCmd_mgmt (k : Nat) (f : Cmd → Cmd) : (s.modCmd k f).mgmt = s.mgmt := rfl
@[simp] theorem State.modCmd_anvil (k : Nat) (f : Cmd → Cmd) : (s.modCmd k f).anvil = s.anvil := rfl
@[simp] theorem State.modCmd_held (k : Nat) (f : Cmd → Cmd) : (s.modCmd k f).held = s.held := rfl
@[simp] theorem State.modCmd_own (k : Nat) (f : Cmd → Cmd) : (s.modCmd k f).own = s.own := rfl

@[simp] theorem State.modWorld_ev (c : Nat) (f : World → World) : (s.modWorld c f).ev = s.ev := rfl
@[simp] theorem State.modWorld_turn (c : Nat) (f : World → World) : (s.modWorld c f).turn = s.turn := rfl
@[simp] theorem State.modWorld_cur (c : Nat) (f : World → World) : (s.modWorld c f).cur = s.cur := rfl
@[simp] theorem State.modWorld_free (c : Nat) (f : World → World) : (s.modWorld c f).free = s.free := rfl
@[simp] theorem State.modWorld_ids (c : Nat) (f : World → World) : (s.modWorld c f).ids = s.ids := rfl
@[simp] theorem State.modWorld_clk (c : Nat) (f : World → World) : (s.modWorld c f).clk = s.clk := rfl
@[simp] theorem State.modWorld_mhz (c : Nat) (f : World → World) : (s.modWorld c f).mhz = s.mhz := rfl
@[simp] theorem State.modWorld_mem (c : Nat) (f : World → World) : (s.modWorld c f).mem = s.mem := rfl
@[simp] theorem State.modWorld_tags (c : Nat) (f : World → World) : (s.modWorld c f).tags = s.tags := rfl
@[simp] theorem State.modWorld_fibres (c : Nat) (f : World → World) : (s.modWorld c f).fibres = s.fibres := rfl
@[simp] theorem State.modWorld_convoys (c : Nat) (f : World → World) : (s.modWorld c f).convoys = s.convoys := rfl
@[simp] theorem State.modWorld_serais (c : Nat) (f : World → World) : (s.modWorld c f).serais = s.serais := rfl
@[simp] theorem State.modWorld_outside (c : Nat) (f : World → World) : (s.modWorld c f).outside = s.outside := rfl
@[simp] theorem State.modWorld_wgs (c : Nat) (f : World → World) : (s.modWorld c f).wgs = s.wgs := rfl
@[simp] theorem State.modWorld_launches (c : Nat) (f : World → World) : (s.modWorld c f).launches = s.launches := rfl
@[simp] theorem State.modWorld_cmds (c : Nat) (f : World → World) : (s.modWorld c f).cmds = s.cmds := rfl
@[simp] theorem State.modWorld_sps (c : Nat) (f : World → World) : (s.modWorld c f).sps = s.sps := rfl
@[simp] theorem State.modWorld_cores (c : Nat) (f : World → World) : (s.modWorld c f).cores = s.cores := rfl
@[simp] theorem State.modWorld_bars (c : Nat) (f : World → World) : (s.modWorld c f).bars = s.bars := rfl
@[simp] theorem State.modWorld_clxs (c : Nat) (f : World → World) : (s.modWorld c f).clxs = s.clxs := rfl
@[simp] theorem State.modWorld_gens (c : Nat) (f : World → World) : (s.modWorld c f).gens = s.gens := rfl
@[simp] theorem State.modWorld_egens (c : Nat) (f : World → World) : (s.modWorld c f).egens = s.egens := rfl
@[simp] theorem State.modWorld_rev (c : Nat) (f : World → World) : (s.modWorld c f).rev = s.rev := rfl
@[simp] theorem State.modWorld_msc (c : Nat) (f : World → World) : (s.modWorld c f).msc = s.msc := rfl
@[simp] theorem State.modWorld_hbm (c : Nat) (f : World → World) : (s.modWorld c f).hbm = s.hbm := rfl
@[simp] theorem State.modWorld_route (c : Nat) (f : World → World) : (s.modWorld c f).route = s.route := rfl
@[simp] theorem State.modWorld_host (c : Nat) (f : World → World) : (s.modWorld c f).host = s.host := rfl
@[simp] theorem State.modWorld_mgmt (c : Nat) (f : World → World) : (s.modWorld c f).mgmt = s.mgmt := rfl
@[simp] theorem State.modWorld_anvil (c : Nat) (f : World → World) : (s.modWorld c f).anvil = s.anvil := rfl
@[simp] theorem State.modWorld_held (c : Nat) (f : World → World) : (s.modWorld c f).held = s.held := rfl
@[simp] theorem State.modWorld_own (c : Nat) (f : World → World) : (s.modWorld c f).own = s.own := rfl

@[simp] theorem State.modPort_ev (n : Nat) (f : Port → Port) : (s.modPort n f).ev = s.ev := rfl
@[simp] theorem State.modPort_turn (n : Nat) (f : Port → Port) : (s.modPort n f).turn = s.turn := rfl
@[simp] theorem State.modPort_cur (n : Nat) (f : Port → Port) : (s.modPort n f).cur = s.cur := rfl
@[simp] theorem State.modPort_free (n : Nat) (f : Port → Port) : (s.modPort n f).free = s.free := rfl
@[simp] theorem State.modPort_ids (n : Nat) (f : Port → Port) : (s.modPort n f).ids = s.ids := rfl
@[simp] theorem State.modPort_clk (n : Nat) (f : Port → Port) : (s.modPort n f).clk = s.clk := rfl
@[simp] theorem State.modPort_mhz (n : Nat) (f : Port → Port) : (s.modPort n f).mhz = s.mhz := rfl
@[simp] theorem State.modPort_mem (n : Nat) (f : Port → Port) : (s.modPort n f).mem = s.mem := rfl
@[simp] theorem State.modPort_tags (n : Nat) (f : Port → Port) : (s.modPort n f).tags = s.tags := rfl
@[simp] theorem State.modPort_fibres (n : Nat) (f : Port → Port) : (s.modPort n f).fibres = s.fibres := rfl
@[simp] theorem State.modPort_convoys (n : Nat) (f : Port → Port) : (s.modPort n f).convoys = s.convoys := rfl
@[simp] theorem State.modPort_serais (n : Nat) (f : Port → Port) : (s.modPort n f).serais = s.serais := rfl
@[simp] theorem State.modPort_outside (n : Nat) (f : Port → Port) : (s.modPort n f).outside = s.outside := rfl
@[simp] theorem State.modPort_wgs (n : Nat) (f : Port → Port) : (s.modPort n f).wgs = s.wgs := rfl
@[simp] theorem State.modPort_launches (n : Nat) (f : Port → Port) : (s.modPort n f).launches = s.launches := rfl
@[simp] theorem State.modPort_cmds (n : Nat) (f : Port → Port) : (s.modPort n f).cmds = s.cmds := rfl
@[simp] theorem State.modPort_sps (n : Nat) (f : Port → Port) : (s.modPort n f).sps = s.sps := rfl
@[simp] theorem State.modPort_cores (n : Nat) (f : Port → Port) : (s.modPort n f).cores = s.cores := rfl
@[simp] theorem State.modPort_bars (n : Nat) (f : Port → Port) : (s.modPort n f).bars = s.bars := rfl
@[simp] theorem State.modPort_clxs (n : Nat) (f : Port → Port) : (s.modPort n f).clxs = s.clxs := rfl
@[simp] theorem State.modPort_worlds (n : Nat) (f : Port → Port) : (s.modPort n f).worlds = s.worlds := rfl
@[simp] theorem State.modPort_gens (n : Nat) (f : Port → Port) : (s.modPort n f).gens = s.gens := rfl
@[simp] theorem State.modPort_egens (n : Nat) (f : Port → Port) : (s.modPort n f).egens = s.egens := rfl
@[simp] theorem State.modPort_rev (n : Nat) (f : Port → Port) : (s.modPort n f).rev = s.rev := rfl
@[simp] theorem State.modPort_msc (n : Nat) (f : Port → Port) : (s.modPort n f).msc = s.msc := rfl
@[simp] theorem State.modPort_hbm (n : Nat) (f : Port → Port) : (s.modPort n f).hbm = s.hbm := rfl
@[simp] theorem State.modPort_host (n : Nat) (f : Port → Port) : (s.modPort n f).host = s.host := rfl
@[simp] theorem State.modPort_mgmt (n : Nat) (f : Port → Port) : (s.modPort n f).mgmt = s.mgmt := rfl
@[simp] theorem State.modPort_anvil (n : Nat) (f : Port → Port) : (s.modPort n f).anvil = s.anvil := rfl
@[simp] theorem State.modPort_held (n : Nat) (f : Port → Port) : (s.modPort n f).held = s.held := rfl
@[simp] theorem State.modPort_own (n : Nat) (f : Port → Port) : (s.modPort n f).own = s.own := rfl

@[simp] theorem State.modBank_ev (g : Nat) (f : BankSet → BankSet) : (s.modBank g f).ev = s.ev := rfl
@[simp] theorem State.modBank_turn (g : Nat) (f : BankSet → BankSet) : (s.modBank g f).turn = s.turn := rfl
@[simp] theorem State.modBank_cur (g : Nat) (f : BankSet → BankSet) : (s.modBank g f).cur = s.cur := rfl
@[simp] theorem State.modBank_free (g : Nat) (f : BankSet → BankSet) : (s.modBank g f).free = s.free := rfl
@[simp] theorem State.modBank_ids (g : Nat) (f : BankSet → BankSet) : (s.modBank g f).ids = s.ids := rfl
@[simp] theorem State.modBank_clk (g : Nat) (f : BankSet → BankSet) : (s.modBank g f).clk = s.clk := rfl
@[simp] theorem State.modBank_mhz (g : Nat) (f : BankSet → BankSet) : (s.modBank g f).mhz = s.mhz := rfl
@[simp] theorem State.modBank_mem (g : Nat) (f : BankSet → BankSet) : (s.modBank g f).mem = s.mem := rfl
@[simp] theorem State.modBank_tags (g : Nat) (f : BankSet → BankSet) : (s.modBank g f).tags = s.tags := rfl
@[simp] theorem State.modBank_fibres (g : Nat) (f : BankSet → BankSet) : (s.modBank g f).fibres = s.fibres := rfl
@[simp] theorem State.modBank_convoys (g : Nat) (f : BankSet → BankSet) : (s.modBank g f).convoys = s.convoys := rfl
@[simp] theorem State.modBank_serais (g : Nat) (f : BankSet → BankSet) : (s.modBank g f).serais = s.serais := rfl
@[simp] theorem State.modBank_outside (g : Nat) (f : BankSet → BankSet) : (s.modBank g f).outside = s.outside := rfl
@[simp] theorem State.modBank_wgs (g : Nat) (f : BankSet → BankSet) : (s.modBank g f).wgs = s.wgs := rfl
@[simp] theorem State.modBank_launches (g : Nat) (f : BankSet → BankSet) : (s.modBank g f).launches = s.launches := rfl
@[simp] theorem State.modBank_cmds (g : Nat) (f : BankSet → BankSet) : (s.modBank g f).cmds = s.cmds := rfl
@[simp] theorem State.modBank_sps (g : Nat) (f : BankSet → BankSet) : (s.modBank g f).sps = s.sps := rfl
@[simp] theorem State.modBank_cores (g : Nat) (f : BankSet → BankSet) : (s.modBank g f).cores = s.cores := rfl
@[simp] theorem State.modBank_bars (g : Nat) (f : BankSet → BankSet) : (s.modBank g f).bars = s.bars := rfl
@[simp] theorem State.modBank_clxs (g : Nat) (f : BankSet → BankSet) : (s.modBank g f).clxs = s.clxs := rfl
@[simp] theorem State.modBank_worlds (g : Nat) (f : BankSet → BankSet) : (s.modBank g f).worlds = s.worlds := rfl
@[simp] theorem State.modBank_gens (g : Nat) (f : BankSet → BankSet) : (s.modBank g f).gens = s.gens := rfl
@[simp] theorem State.modBank_egens (g : Nat) (f : BankSet → BankSet) : (s.modBank g f).egens = s.egens := rfl
@[simp] theorem State.modBank_rev (g : Nat) (f : BankSet → BankSet) : (s.modBank g f).rev = s.rev := rfl
@[simp] theorem State.modBank_msc (g : Nat) (f : BankSet → BankSet) : (s.modBank g f).msc = s.msc := rfl
@[simp] theorem State.modBank_route (g : Nat) (f : BankSet → BankSet) : (s.modBank g f).route = s.route := rfl
@[simp] theorem State.modBank_host (g : Nat) (f : BankSet → BankSet) : (s.modBank g f).host = s.host := rfl
@[simp] theorem State.modBank_mgmt (g : Nat) (f : BankSet → BankSet) : (s.modBank g f).mgmt = s.mgmt := rfl
@[simp] theorem State.modBank_anvil (g : Nat) (f : BankSet → BankSet) : (s.modBank g f).anvil = s.anvil := rfl
@[simp] theorem State.modBank_held (g : Nat) (f : BankSet → BankSet) : (s.modBank g f).held = s.held := rfl
@[simp] theorem State.modBank_own (g : Nat) (f : BankSet → BankSet) : (s.modBank g f).own = s.own := rfl

@[simp] theorem State.modPass_ev (n : Nat) (f : Pass → Pass) : (s.modPass n f).ev = s.ev := rfl
@[simp] theorem State.modPass_turn (n : Nat) (f : Pass → Pass) : (s.modPass n f).turn = s.turn := rfl
@[simp] theorem State.modPass_cur (n : Nat) (f : Pass → Pass) : (s.modPass n f).cur = s.cur := rfl
@[simp] theorem State.modPass_free (n : Nat) (f : Pass → Pass) : (s.modPass n f).free = s.free := rfl
@[simp] theorem State.modPass_ids (n : Nat) (f : Pass → Pass) : (s.modPass n f).ids = s.ids := rfl
@[simp] theorem State.modPass_clk (n : Nat) (f : Pass → Pass) : (s.modPass n f).clk = s.clk := rfl
@[simp] theorem State.modPass_mhz (n : Nat) (f : Pass → Pass) : (s.modPass n f).mhz = s.mhz := rfl
@[simp] theorem State.modPass_mem (n : Nat) (f : Pass → Pass) : (s.modPass n f).mem = s.mem := rfl
@[simp] theorem State.modPass_tags (n : Nat) (f : Pass → Pass) : (s.modPass n f).tags = s.tags := rfl
@[simp] theorem State.modPass_fibres (n : Nat) (f : Pass → Pass) : (s.modPass n f).fibres = s.fibres := rfl
@[simp] theorem State.modPass_convoys (n : Nat) (f : Pass → Pass) : (s.modPass n f).convoys = s.convoys := rfl
@[simp] theorem State.modPass_serais (n : Nat) (f : Pass → Pass) : (s.modPass n f).serais = s.serais := rfl
@[simp] theorem State.modPass_outside (n : Nat) (f : Pass → Pass) : (s.modPass n f).outside = s.outside := rfl
@[simp] theorem State.modPass_wgs (n : Nat) (f : Pass → Pass) : (s.modPass n f).wgs = s.wgs := rfl
@[simp] theorem State.modPass_launches (n : Nat) (f : Pass → Pass) : (s.modPass n f).launches = s.launches := rfl
@[simp] theorem State.modPass_cmds (n : Nat) (f : Pass → Pass) : (s.modPass n f).cmds = s.cmds := rfl
@[simp] theorem State.modPass_sps (n : Nat) (f : Pass → Pass) : (s.modPass n f).sps = s.sps := rfl
@[simp] theorem State.modPass_cores (n : Nat) (f : Pass → Pass) : (s.modPass n f).cores = s.cores := rfl
@[simp] theorem State.modPass_bars (n : Nat) (f : Pass → Pass) : (s.modPass n f).bars = s.bars := rfl
@[simp] theorem State.modPass_clxs (n : Nat) (f : Pass → Pass) : (s.modPass n f).clxs = s.clxs := rfl
@[simp] theorem State.modPass_worlds (n : Nat) (f : Pass → Pass) : (s.modPass n f).worlds = s.worlds := rfl
@[simp] theorem State.modPass_gens (n : Nat) (f : Pass → Pass) : (s.modPass n f).gens = s.gens := rfl
@[simp] theorem State.modPass_egens (n : Nat) (f : Pass → Pass) : (s.modPass n f).egens = s.egens := rfl
@[simp] theorem State.modPass_msc (n : Nat) (f : Pass → Pass) : (s.modPass n f).msc = s.msc := rfl
@[simp] theorem State.modPass_hbm (n : Nat) (f : Pass → Pass) : (s.modPass n f).hbm = s.hbm := rfl
@[simp] theorem State.modPass_route (n : Nat) (f : Pass → Pass) : (s.modPass n f).route = s.route := rfl
@[simp] theorem State.modPass_host (n : Nat) (f : Pass → Pass) : (s.modPass n f).host = s.host := rfl
@[simp] theorem State.modPass_mgmt (n : Nat) (f : Pass → Pass) : (s.modPass n f).mgmt = s.mgmt := rfl
@[simp] theorem State.modPass_anvil (n : Nat) (f : Pass → Pass) : (s.modPass n f).anvil = s.anvil := rfl
@[simp] theorem State.modPass_held (n : Nat) (f : Pass → Pass) : (s.modPass n f).held = s.held := rfl
@[simp] theorem State.modPass_own (n : Nat) (f : Pass → Pass) : (s.modPass n f).own = s.own := rfl

@[simp] theorem State.putBinding_ev (i : Nat) (b : Binding) : (s.putBinding i b).ev = s.ev := rfl
@[simp] theorem State.putBinding_turn (i : Nat) (b : Binding) : (s.putBinding i b).turn = s.turn := rfl
@[simp] theorem State.putBinding_cur (i : Nat) (b : Binding) : (s.putBinding i b).cur = s.cur := rfl
@[simp] theorem State.putBinding_free (i : Nat) (b : Binding) : (s.putBinding i b).free = s.free := rfl
@[simp] theorem State.putBinding_ids (i : Nat) (b : Binding) : (s.putBinding i b).ids = s.ids := rfl
@[simp] theorem State.putBinding_clk (i : Nat) (b : Binding) : (s.putBinding i b).clk = s.clk := rfl
@[simp] theorem State.putBinding_mhz (i : Nat) (b : Binding) : (s.putBinding i b).mhz = s.mhz := rfl
@[simp] theorem State.putBinding_mem (i : Nat) (b : Binding) : (s.putBinding i b).mem = s.mem := rfl
@[simp] theorem State.putBinding_tags (i : Nat) (b : Binding) : (s.putBinding i b).tags = s.tags := rfl
@[simp] theorem State.putBinding_fibres (i : Nat) (b : Binding) : (s.putBinding i b).fibres = s.fibres := rfl
@[simp] theorem State.putBinding_convoys (i : Nat) (b : Binding) : (s.putBinding i b).convoys = s.convoys := rfl
@[simp] theorem State.putBinding_serais (i : Nat) (b : Binding) : (s.putBinding i b).serais = s.serais := rfl
@[simp] theorem State.putBinding_outside (i : Nat) (b : Binding) : (s.putBinding i b).outside = s.outside := rfl
@[simp] theorem State.putBinding_wgs (i : Nat) (b : Binding) : (s.putBinding i b).wgs = s.wgs := rfl
@[simp] theorem State.putBinding_launches (i : Nat) (b : Binding) : (s.putBinding i b).launches = s.launches := rfl
@[simp] theorem State.putBinding_cmds (i : Nat) (b : Binding) : (s.putBinding i b).cmds = s.cmds := rfl
@[simp] theorem State.putBinding_sps (i : Nat) (b : Binding) : (s.putBinding i b).sps = s.sps := rfl
@[simp] theorem State.putBinding_cores (i : Nat) (b : Binding) : (s.putBinding i b).cores = s.cores := rfl
@[simp] theorem State.putBinding_bars (i : Nat) (b : Binding) : (s.putBinding i b).bars = s.bars := rfl
@[simp] theorem State.putBinding_clxs (i : Nat) (b : Binding) : (s.putBinding i b).clxs = s.clxs := rfl
@[simp] theorem State.putBinding_worlds (i : Nat) (b : Binding) : (s.putBinding i b).worlds = s.worlds := rfl
@[simp] theorem State.putBinding_gens (i : Nat) (b : Binding) : (s.putBinding i b).gens = s.gens := rfl
@[simp] theorem State.putBinding_egens (i : Nat) (b : Binding) : (s.putBinding i b).egens = s.egens := rfl
@[simp] theorem State.putBinding_rev (i : Nat) (b : Binding) : (s.putBinding i b).rev = s.rev := rfl
@[simp] theorem State.putBinding_msc (i : Nat) (b : Binding) : (s.putBinding i b).msc = s.msc := rfl
@[simp] theorem State.putBinding_hbm (i : Nat) (b : Binding) : (s.putBinding i b).hbm = s.hbm := rfl
@[simp] theorem State.putBinding_route (i : Nat) (b : Binding) : (s.putBinding i b).route = s.route := rfl
@[simp] theorem State.putBinding_mgmt (i : Nat) (b : Binding) : (s.putBinding i b).mgmt = s.mgmt := rfl
@[simp] theorem State.putBinding_anvil (i : Nat) (b : Binding) : (s.putBinding i b).anvil = s.anvil := rfl
@[simp] theorem State.putBinding_held (i : Nat) (b : Binding) : (s.putBinding i b).held = s.held := rfl
@[simp] theorem State.putBinding_own (i : Nat) (b : Binding) : (s.putBinding i b).own = s.own := rfl

@[simp] theorem State.count_ev (c g n b : Nat) : (s.count c g n b).ev = s.ev := rfl
@[simp] theorem State.count_turn (c g n b : Nat) : (s.count c g n b).turn = s.turn := rfl
@[simp] theorem State.count_cur (c g n b : Nat) : (s.count c g n b).cur = s.cur := rfl
@[simp] theorem State.count_free (c g n b : Nat) : (s.count c g n b).free = s.free := rfl
@[simp] theorem State.count_ids (c g n b : Nat) : (s.count c g n b).ids = s.ids := rfl
@[simp] theorem State.count_clk (c g n b : Nat) : (s.count c g n b).clk = s.clk := rfl
@[simp] theorem State.count_mhz (c g n b : Nat) : (s.count c g n b).mhz = s.mhz := rfl
@[simp] theorem State.count_mem (c g n b : Nat) : (s.count c g n b).mem = s.mem := rfl
@[simp] theorem State.count_tags (c g n b : Nat) : (s.count c g n b).tags = s.tags := rfl
@[simp] theorem State.count_fibres (c g n b : Nat) : (s.count c g n b).fibres = s.fibres := rfl
@[simp] theorem State.count_convoys (c g n b : Nat) : (s.count c g n b).convoys = s.convoys := rfl
@[simp] theorem State.count_serais (c g n b : Nat) : (s.count c g n b).serais = s.serais := rfl
@[simp] theorem State.count_outside (c g n b : Nat) : (s.count c g n b).outside = s.outside := rfl
@[simp] theorem State.count_wgs (c g n b : Nat) : (s.count c g n b).wgs = s.wgs := rfl
@[simp] theorem State.count_launches (c g n b : Nat) : (s.count c g n b).launches = s.launches := rfl
@[simp] theorem State.count_cmds (c g n b : Nat) : (s.count c g n b).cmds = s.cmds := rfl
@[simp] theorem State.count_sps (c g n b : Nat) : (s.count c g n b).sps = s.sps := rfl
@[simp] theorem State.count_cores (c g n b : Nat) : (s.count c g n b).cores = s.cores := rfl
@[simp] theorem State.count_bars (c g n b : Nat) : (s.count c g n b).bars = s.bars := rfl
@[simp] theorem State.count_clxs (c g n b : Nat) : (s.count c g n b).clxs = s.clxs := rfl
@[simp] theorem State.count_worlds (c g n b : Nat) : (s.count c g n b).worlds = s.worlds := rfl
@[simp] theorem State.count_gens (c g n b : Nat) : (s.count c g n b).gens = s.gens := rfl
@[simp] theorem State.count_egens (c g n b : Nat) : (s.count c g n b).egens = s.egens := rfl
@[simp] theorem State.count_rev (c g n b : Nat) : (s.count c g n b).rev = s.rev := rfl
@[simp] theorem State.count_msc (c g n b : Nat) : (s.count c g n b).msc = s.msc := rfl
@[simp] theorem State.count_hbm (c g n b : Nat) : (s.count c g n b).hbm = s.hbm := rfl
@[simp] theorem State.count_route (c g n b : Nat) : (s.count c g n b).route = s.route := rfl
@[simp] theorem State.count_mgmt (c g n b : Nat) : (s.count c g n b).mgmt = s.mgmt := rfl
@[simp] theorem State.count_anvil (c g n b : Nat) : (s.count c g n b).anvil = s.anvil := rfl
@[simp] theorem State.count_held (c g n b : Nat) : (s.count c g n b).held = s.held := rfl
@[simp] theorem State.count_own (c g n b : Nat) : (s.count c g n b).own = s.own := rfl

end Sys2Proof.Machine
end

