-- ==== Sys2Proof/Laws/Store.lean ====
section
/-! SUPPORT. Tables and the store: what a read after an update gives, and that every memory operation keeps the canonical form. -/

namespace Sys2Proof.Machine

/-! ## Tables -/

section
variable {α : Type} {t : Tbl α} {k j : Nat} {v : α}

theorem tget_cons (x : Nat × α) (t : Tbl α) (k : Nat) : tget (x :: t) k = if k = x.1 then some x.2 else tget t k := by
  obtain ⟨a, b⟩ := x
  by_cases h : k = a
  · simp [tget, h]
  · have : (k == a) = false := by simpa using h
    simp [tget, List.lookup, this, h]

@[simp] theorem tget_tput : tget (tput t k v) k = some v := by
  induction t with
  | nil => simp [tput, tget_cons]
  | cons x r ih => unfold tput; split <;> [skip; split] <;> simp_all [tget_cons]

theorem tget_tput_ne (h : j ≠ k) : tget (tput t k v) j = tget t j := by
  induction t with
  | nil => simp [tput, tget_cons, h]
  | cons x r ih => unfold tput; split <;> [skip; split] <;> simp_all [tget_cons]

theorem tget_filter {p : Nat → Bool} : tget (t.filter fun x => p x.1) k = if p k then tget t k else none := by
  induction t with
  | nil => simp [tget]
  | cons x r ih =>
    by_cases h : p x.1 <;> by_cases hk : k = x.1 <;> simp_all [tget_cons]

@[simp] theorem tget_tdel : tget (tdel t k) k = none := by
  have := tget_filter (t := t) (k := k) (p := fun x => x != k); simpa [tdel] using this

theorem tget_tdel_ne (h : j ≠ k) : tget (tdel t k) j = tget t j := by
  have := tget_filter (t := t) (k := j) (p := fun x => x != k); simpa [tdel, h] using this

theorem tget_tmod (f : α → α) : tget (tmod t k f) k = (tget t k).map f := by
  unfold tmod; split <;> simp_all

theorem tget_tmod_ne (f : α → α) (h : j ≠ k) : tget (tmod t k f) j = tget t j := by
  unfold tmod; split <;> simp_all [tget_tput_ne]

theorem tget_tset [DecidableEq α] {d : α} : (tget (tset d t k v) k).getD d = v := by
  unfold tset; split <;> simp_all

theorem tget_tset_ne [DecidableEq α] {d : α} (h : j ≠ k) : tget (tset d t k v) j = tget t j := by
  unfold tset; split <;> simp_all [tget_tput_ne, tget_tdel_ne]

/-! ## Rising keys -/

theorem rises_iff : rises t = true ↔ (t.map (·.1)).Pairwise (· < ·) := by
  induction t with
  | nil => simp [rises]
  | cons x r ih =>
    cases r with
    | nil => simp [rises]
    | cons y r =>
      simp only [rises, Bool.and_eq_true, decide_eq_true_eq, ih, List.map_cons, List.pairwise_cons]
      refine ⟨fun ⟨h, hy, hr⟩ => ⟨?_, hy, hr⟩, fun ⟨h, hy, hr⟩ => ⟨h _ (by simp), hy, hr⟩⟩
      rintro a (_ | ⟨_, ha⟩)
      · exact h
      · exact h.trans (hy a ha)

theorem rises_filter (p : Nat × α → Bool) (h : rises t = true) : rises (t.filter p) = true := by
  rw [rises_iff] at h ⊢
  exact h.sublist (List.filter_sublist.map _)

theorem mem_tput {x : Nat × α} (h : x ∈ tput t k v) : x = (k, v) ∨ x ∈ t := by
  induction t with
  | nil => simpa [tput] using h
  | cons y r ih =>
    unfold tput at h
    split at h
    · simpa using h
    · split at h
      · rcases List.mem_cons.1 h with h | h <;> simp [h]
      · rcases List.mem_cons.1 h with h | h
        · simp [h]
        · rcases ih h with h | h <;> simp [h]

theorem rises_tput (h : rises t = true) : rises (tput t k v) = true := by
  rw [rises_iff] at h ⊢
  induction t with
  | nil => simp [tput]
  | cons y r ih =>
    have hy := List.pairwise_cons.1 (show (y.1 :: r.map (·.1)).Pairwise (· < ·) from h)
    unfold tput; split
    · rename_i hk
      refine List.pairwise_cons.2 ⟨?_, by simpa using h⟩
      intro a ha
      rcases List.mem_cons.1 ha with rfl | ha
      · exact hk
      · exact hk.trans (hy.1 a ha)
    · split
      · subst_vars; simpa using h
      · refine List.pairwise_cons.2 ⟨?_, ih hy.2⟩
        intro a ha
        obtain ⟨x, hx, rfl⟩ := List.mem_map.1 ha
        rcases mem_tput hx with rfl | hx
        · simp only; omega
        · exact hy.1 _ (List.mem_map_of_mem hx)

theorem rises_tdel (h : rises t = true) : rises (tdel t k) = true := rises_filter _ h

end

/-! ## Memory -/

theorem Memory.wf_tset {m : Tbl Byte} {a : Nat} {b : Byte} (h : Memory.wf m = true) : Memory.wf (tset unlistedByte m a b) = true := by
  simp only [Memory.wf, Bool.and_eq_true, List.all_eq_true] at h ⊢
  unfold tset; split
  · exact ⟨rises_tdel h.1, fun x hx => h.2 x (List.mem_of_mem_filter hx)⟩
  · refine ⟨rises_tput h.1, fun x hx => ?_⟩
    rcases mem_tput hx with rfl | hx
    · simpa using ‹_›
    · exact h.2 x hx

theorem Memory.wf_filter {m : Tbl Byte} (p : Nat × Byte → Bool) (h : Memory.wf m = true) : Memory.wf (m.filter p) = true := by
  simp only [Memory.wf, Bool.and_eq_true, List.all_eq_true] at h ⊢
  exact ⟨rises_filter p h.1, fun x hx => h.2 x (List.mem_of_mem_filter hx)⟩

variable {s : State} {a b : Nat}

@[simp] theorem rd8_wr8 (v : Byte) : (s.wr8 a v).rd8 a = v := tget_tset

theorem rd8_wr8_ne (v : Byte) (h : b ≠ a) : (s.wr8 a v).rd8 b = s.rd8 b := by
  simp only [State.rd8, State.wr8, tget_tset_ne h]

@[simp] theorem rd8_setTag (t : Bool) : (s.setTag a t).rd8 b = s.rd8 b := rfl

@[simp] theorem tagAt_wr8 (v : Byte) : (s.wr8 a v).tagAt b = s.tagAt b := rfl

theorem rd8_wrRaw_out {bs : List Byte} (h : b < a ∨ a + bs.length ≤ b) : (s.wrRaw a bs).rd8 b = s.rd8 b := by
  induction bs generalizing s a with
  | nil => rfl
  | cons x r ih =>
    simp only [List.length_cons] at h
    rw [State.wrRaw, ih (by omega), rd8_wr8_ne _ (by omega)]

theorem rd8_wrRaw_in {bs : List Byte} {i : Nat} (h : i < bs.length) : (s.wrRaw a bs).rd8 (a + i) = bs[i] := by
  induction bs generalizing s a i with
  | nil => simp at h
  | cons x r ih =>
    cases i with
    | zero => rw [State.wrRaw, rd8_wrRaw_out (by omega)]; simp
    | succ i => have := ih (s := s.wr8 a x) (a := a + 1) (i := i) (by simpa using h)
                rw [State.wrRaw]; simpa [Nat.add_assoc, Nat.add_comm 1 i] using this

/-- Writing bytes changes nothing but the table of bytes. -/
theorem wrRaw_eq (bs : List Byte) : s.wrRaw a bs = { s with mem := (s.wrRaw a bs).mem } := by
  induction bs generalizing s a with
  | nil => rfl
  | cons x r ih => rw [State.wrRaw, ih]; rfl

@[simp] theorem tagAt_wrRaw (bs : List Byte) : (s.wrRaw a bs).tagAt b = s.tagAt b := by rw [wrRaw_eq]; rfl

theorem tagAt_setTag (t : Bool) : (s.setTag a t).tagAt b = if granule b = granule a then t else s.tagAt b := by
  by_cases h : granule b = granule a
  · cases t <;> simp [State.tagAt, State.setTag, h]
  · cases t <;> simp [State.tagAt, State.setTag, h, tget_tput_ne, tget_tdel_ne]

/-- Clearing tags changes nothing but the tags. -/
theorem clearTags_eq (n : Nat) : s.clearTags a n = { s with tags := (s.clearTags a n).tags } := by
  unfold State.clearTags
  induction granules a n generalizing s with
  | nil => rfl
  | cons x r ih => rw [List.foldl_cons, ih]; rfl

@[simp] theorem rd8_clearTags (n : Nat) : (s.clearTags a n).rd8 b = s.rd8 b := by rw [clearTags_eq]; rfl

theorem granule_eq_iff (a b : Nat) : granule a = granule b ↔ a / 16 = b / 16 := by
  have h : (a / 16 * 16 : Nat) = b / 16 * 16 ↔ a / 16 = b / 16 := by omega
  exact h

theorem granule_eq_self (a : Nat) : granule a = a ↔ a % 16 = 0 := by
  have h : (a / 16 * 16 : Nat) = a ↔ a % 16 = 0 := by omega
  exact h

theorem granule_mul (k : Nat) : granule (16 * k) = 16 * k := (granule_eq_self _).2 (by omega)

theorem granule_granule (a : Nat) : granule (granule a) = granule a := by
  have h : (a / 16 * 16 : Nat) % 16 = 0 := by omega
  exact (granule_eq_self _).2 h

theorem mem_granules_granule {n : Nat} {g : Nat} (h : g ∈ granules a n) : granule g = g := by
  unfold granules at h
  split at h
  · simp at h
  · obtain ⟨i, -, rfl⟩ := List.mem_map.1 h
    have h : (a / 16 * 16 + 16 * i : Nat) % 16 = 0 := by omega
    exact (granule_eq_self _).2 h

/-- A granule is among those that n bytes touch exactly when one of the bytes lies in it. -/
theorem granule_mem_granules {n : Nat} : granule b ∈ granules a n ↔ ∃ i < n, granule (a + i) = granule b := by
  unfold granules
  split
  · rename_i h; simp [h]
  · rename_i h
    simp only [List.mem_map, List.mem_range, granule_eq_iff]
    refine ⟨fun ⟨i, hi, he⟩ => ?_, fun ⟨i, hi, he⟩ => ⟨b / 16 - a / 16, by omega, ?_⟩⟩
    · have he : (a / 16 * 16 + 16 * i : Nat) = b / 16 * 16 := he
      by_cases h0 : i = 0
      · exact ⟨0, by omega, by subst h0; simp at he; omega⟩
      · exact ⟨a / 16 * 16 + 16 * i - a, by omega, by omega⟩
    · have h1 : (a / 16 * 16 + 16 * (b / 16 - a / 16) : Nat) = b / 16 * 16 := by omega
      exact h1

theorem tagAt_clearTags (n : Nat) : (s.clearTags a n).tagAt b = (s.tagAt b && !decide (granule b ∈ granules a n)) := by
  unfold State.clearTags
  have hg : ∀ g ∈ granules a n, granule g = g := fun g hg => mem_granules_granule hg
  revert hg
  induction granules a n generalizing s with
  | nil => simp
  | cons x r ih =>
    intro hg
    rw [List.foldl_cons, ih (fun g h => hg g (by simp [h])), tagAt_setTag, hg x (by simp)]
    by_cases hx : granule b = x <;> simp [hx]

theorem rd8_wrBytes_out {bs : List Byte} (h : b < a ∨ a + bs.length ≤ b) : (s.wrBytes a bs).rd8 b = s.rd8 b := by
  simp [State.wrBytes, rd8_wrRaw_out h]

theorem rd8_wrBytes_in {bs : List Byte} {i : Nat} (h : i < bs.length) : (s.wrBytes a bs).rd8 (a + i) = bs[i] := by
  simp [State.wrBytes, rd8_wrRaw_in h]

/-- Writing bytes changes nothing but bytes and tags. -/
theorem wrBytes_eq (bs : List Byte) : s.wrBytes a bs = { s with mem := (s.wrBytes a bs).mem, tags := (s.wrBytes a bs).tags } := by
  rw [State.wrBytes, clearTags_eq, wrRaw_eq]

@[simp] theorem length_leBytes (n v : Nat) : (leBytes n v).length = n := by
  induction n generalizing v with
  | zero => rfl
  | succ n ih => simp [leBytes, ih]

theorem leNat_leBytes (n v : Nat) : leNat (leBytes n v) = v % 256 ^ n := by
  induction n generalizing v with
  | zero => simp [leBytes, leNat, Nat.mod_one]
  | succ n ih =>
    rw [leBytes, leNat, ih, Nat.pow_succ', Nat.mod_mul]; simp

/-! ## The canonical form of the store -/

theorem storeWf_iff : s.storeWf = true ↔ Memory.wf s.mem = true ∧ rises s.tags = true ∧ ∀ t ∈ s.tags, t.1 % 16 = 0 := by
  simp [State.storeWf, and_assoc]

theorem storeWf_wr8 (v : Byte) (h : s.storeWf = true) : (s.wr8 a v).storeWf = true := by
  rw [storeWf_iff] at h ⊢; exact ⟨Memory.wf_tset h.1, h.2⟩

theorem storeWf_wrRaw (bs : List Byte) (h : s.storeWf = true) : (s.wrRaw a bs).storeWf = true := by
  induction bs generalizing s a with
  | nil => exact h
  | cons x r ih => exact ih (storeWf_wr8 x h)

theorem storeWf_setTag (t : Bool) (h : s.storeWf = true) : (s.setTag a t).storeWf = true := by
  rw [storeWf_iff] at h ⊢
  refine ⟨h.1, ?_⟩
  cases t
  · exact ⟨rises_tdel h.2.1, fun x hx => h.2.2 x (List.mem_of_mem_filter hx)⟩
  · refine ⟨rises_tput h.2.1, fun x hx => ?_⟩
    rcases mem_tput hx with rfl | hx
    · simp [granule]
    · exact h.2.2 x hx

theorem storeWf_clearTags (n : Nat) (h : s.storeWf = true) : (s.clearTags a n).storeWf = true := by
  unfold State.clearTags
  induction granules a n generalizing s with
  | nil => exact h
  | cons x r ih => exact ih (storeWf_setTag false h)

theorem storeWf_wrBytes (bs : List Byte) (h : s.storeWf = true) : (s.wrBytes a bs).storeWf = true :=
  storeWf_clearTags _ (storeWf_wrRaw _ h)

theorem storeWf_wrCap (c : Cap) (h : s.storeWf = true) : (s.wrCap a c).storeWf = true := storeWf_setTag _ (storeWf_wrRaw _ h)

/-- A state with the same bytes and tags. -/
theorem storeWf_congr {t : State} (hm : t.mem = s.mem) (ht : t.tags = s.tags) : t.storeWf = s.storeWf := by
  simp [State.storeWf, hm, ht]

theorem storeWf_filter (p : Nat × Byte → Bool) (q : Nat × Unit → Bool) (h : s.storeWf = true) :
    ({ s with mem := s.mem.filter p, tags := s.tags.filter q } : State).storeWf = true := by
  rw [storeWf_iff] at h ⊢
  exact ⟨Memory.wf_filter p h.1, rises_filter q h.2.1, fun x hx => h.2.2 x (List.mem_of_mem_filter hx)⟩

end Sys2Proof.Machine
end

