-- ==== Sys2Proof/Laws/Ops.lean ====
section
/-! SUPPORT. What the shared operations can change: writing a destination, flags, moving past a word, logging a line, storing, holding a
convoy. -/

namespace Sys2Proof.Machine

variable {s : State} {c : Nat} {v : Convoy}

/-! ## Translation: HBM is not translated, nor under a colour's key -/

/-- A place in HBM is its address (R359). -/
theorem home_hbm (s : State) {a : Nat} (h : a < 0x80_0000_0000) : s.home a = a := by
  have hw : window a = .hbm := by simp [window, h]
  simp only [State.home, hw]

/-- A range of HBM reads as its bytes. -/
theorem rdHome_hbm (s : State) {a n : Nat} (h : a + n ≤ 0x80_0000_0000) : s.rdHome a n = s.rdBytes a n := by
  refine List.map_congr_left fun i hi => ?_
  have := List.mem_range.1 hi
  rw [home_hbm s (by omega), State.byteFor, if_neg fun hp => ?_]
  have : (2 : Nat) ^ 64 ≤ a + i := hp.1
  omega

/-- A byte of HBM may be accessed where its bank set is allocated (R119). -/
theorem okAt_hbm (s : State) (c : Nat) (w : Bool) {a : Nat} (h : a < 0x80_0000_0000) : s.okAt c w a = (s.bankSet (a / gib6)).alloc := by
  have hw : window a = .hbm := by simp [window, h]
  unfold State.okAt State.phys
  rw [hw]
  cases (s.bankSet (a / gib6)).alloc <;> rfl

/-! ## Convoys and fibres -/

@[simp] theorem modConvoy_get (f : Convoy → Convoy) : tget (s.modConvoy c f).convoys c = (tget s.convoys c).map f := tget_tmod f

theorem modConvoy_get_ne (f : Convoy → Convoy) {j : Nat} (h : j ≠ c) : tget (s.modConvoy c f).convoys j = tget s.convoys j :=
  tget_tmod_ne f h

@[simp] theorem modFibre_get (i : Nat) (f : Fibre → Fibre) : tget (s.modFibre i f).fibres i = (tget s.fibres i).map f := tget_tmod f

theorem modFibre_get_ne {i j : Nat} (f : Fibre → Fibre) (h : j ≠ i) : tget (s.modFibre i f).fibres j = tget s.fibres j :=
  tget_tmod_ne f h

@[simp] theorem modSp_get (n : Nat) (f : Sp → Sp) : (s.modSp n f).sp n = f (s.sp n) := by simp [State.sp, State.modSp]

theorem modSp_get_ne {n p : Nat} (f : Sp → Sp) (h : p ≠ n) : (s.modSp n f).sp p = s.sp p := by
  simp [State.sp, State.modSp, tget_tput_ne h]

/-! ## Registers -/

/-- Writing bytes changes bytes and tags alone. -/
theorem wrBytes_ex {a : Nat} (bs : List Byte) : ∃ m g, s.wrBytes a bs = { s with mem := m, tags := g } := ⟨_, _, wrBytes_eq bs⟩

theorem rd8_wr32_out {a b : Nat} (x : Word) (h : b < a ∨ a + 4 ≤ b) : (s.wr32 a x).rd8 b = s.rd8 b :=
  rd8_wrBytes_out (by simpa using h)

theorem rdNat_wrBytes_out {a b n : Nat} {bs : List Byte} (h : b + n ≤ a ∨ a + bs.length ≤ b) :
    (s.wrBytes a bs).rdNat b n = s.rdNat b n := by
  simp only [State.rdNat, State.rdBytes]
  congr 1
  refine List.map_congr_left fun i hi => rd8_wrBytes_out ?_
  have := List.mem_range.1 hi
  omega

theorem rdBytes_wrBytes (a : Nat) (bs : List Byte) : (s.wrBytes a bs).rdBytes a bs.length = bs := by
  refine List.ext_getElem (by simp [State.rdBytes]) fun i h1 h2 => ?_
  simp only [State.rdBytes, List.getElem_map, List.getElem_range]
  exact rd8_wrBytes_in h2

theorem rdNat_wrNat (a n x : Nat) : (s.wrNat a n x).rdNat a n = x % 256 ^ n := by
  have := rdBytes_wrBytes (s := s) a (leBytes n x)
  rw [length_leBytes] at this
  rw [State.rdNat, State.wrNat, this, leNat_leBytes]

@[simp] theorem rd32_wr32 (a : Nat) (x : Word) : (s.wr32 a x).rd32 a = x := by
  simp only [State.rd32, State.wr32, rdNat_wrNat]
  apply BitVec.eq_of_toNat_eq
  have := x.isLt
  simp only [BitVec.toNat_ofNat]
  omega

theorem rd32_wr32_out {a b : Nat} (x : Word) (h : b + 4 ≤ a ∨ a + 4 ≤ b) : (s.wr32 a x).rd32 b = s.rd32 b := by
  simp only [State.rd32, State.wr32, State.wrNat]
  rw [rdNat_wrBytes_out (by simpa using h)]

/-- A register's address is that of a row of four bytes. -/
theorem reg_mod (f : Fibre) (n : Nat) : f.reg n % 4 = 0 := by
  have key : ∀ b p q r l w : Nat, b % 4 = 0 →
      (b + p * 0x2000_0000 + q * 0x100_0000 + r * 0x8_0000 + l * 0x400 + w * 4) % 4 = 0 := by omega
  exact key onchipBase (f.spn / 4 / 16) (f.spn / 4 % 16) (f.spn % 4) f.lane (f.wbase + n) (by decide)

theorem reg_apart {f g : Fibre} {n m : Nat} (h : f.reg n ≠ g.reg m) : f.reg n + 4 ≤ g.reg m ∨ g.reg m + 4 ≤ f.reg n := by
  have key : ∀ a b : Nat, a % 4 = 0 → b % 4 = 0 → a ≠ b → a + 4 ≤ b ∨ b + 4 ≤ a := by omega
  exact key _ _ (reg_mod f n) (reg_mod g m) h

/-! ## Destinations -/

/-- Writing a lane's destination changes bytes, tags, and, for a latch, the convoy. -/
theorem dst_ex (l : Ln) (w : Bool) (d : VDst) (x : DWord) : ∃ m g cs, s.dst c l w d x = { s with mem := m, tags := g, convoys := cs } := by
  cases d with
  | v n =>
    cases w
    · obtain ⟨m, g, h⟩ := wrBytes_ex (s := s) (a := l.f.reg n.toNat) (leBytes 4 (x.setWidth 32).toNat)
      exact ⟨m, g, s.convoys, h⟩
    · obtain ⟨m, g, h⟩ := wrBytes_ex (s := s) (a := l.f.reg n.toNat) (leBytes 4 (x.setWidth 32).toNat)
      obtain ⟨m', g', h'⟩ := wrBytes_ex (s := { s with mem := m, tags := g }) (a := l.f.reg (n.toNat + 1))
        (leBytes 4 (x.extractLsb' 32 32).toNat)
      rw [← h] at h'
      exact ⟨m', g', s.convoys, h'.trans (by rw [h])⟩
  | b n => exact ⟨s.mem, s.tags, _, rfl⟩

theorem markLatch_ex (d : VDst) : ∃ cs, s.markLatch c d = { s with convoys := cs } := by
  cases d
  · exact ⟨s.convoys, rfl⟩
  · exact ⟨_, rfl⟩

/-- Writing a list of lane results changes bytes, tags, and, for a latch, the convoy. -/
theorem dsts_ex (w : Bool) (d : VDst) (r : List (Ln × DWord)) :
    ∃ m g cs, s.dsts c w d r = { s with mem := m, tags := g, convoys := cs } := by
  have h : ∀ t : State, ∃ m g cs, r.foldl (fun s x => s.dst c x.1 w d x.2) t = { t with mem := m, tags := g, convoys := cs } := by
    induction r with
    | nil => intro t; exact ⟨t.mem, t.tags, t.convoys, rfl⟩
    | cons x r ih =>
      intro t
      obtain ⟨m, g, cs, h1⟩ := dst_ex (s := t) (c := c) x.1 w d x.2
      obtain ⟨m', g', cs', h2⟩ := ih (t.dst c x.1 w d x.2)
      exact ⟨m', g', cs', by rw [List.foldl_cons, h2, h1]⟩
  obtain ⟨cs, h1⟩ := markLatch_ex (s := s) (c := c) d
  obtain ⟨m, g, cs', h2⟩ := h (s.markLatch c d)
  exact ⟨m, g, cs', by rw [State.dsts, h2, h1]⟩

/-! ## The end of a word -/

/-- Recording an issue changes the convoys, the counters and the index of the next free value. -/
theorem issued_ex : ∃ cs k, s.issued c = { s with convoys := cs, free := s.free + 1, host := { s.host with counters := k } } := by
  unfold State.issued; split <;> exact ⟨_, _, rfl⟩

/-- Moving past a word changes the convoys, the counters and the index of the next free value. -/
theorem advance_ex (n : Nat) :
    ∃ cs k, s.advance c n = { s with convoys := cs, free := s.free + 1, host := { s.host with counters := k } } := by
  obtain ⟨cs, k, h⟩ := issued_ex (s := s.modConvoy c fun v => v.past n) (c := c)
  exact ⟨cs, k, h⟩

theorem issued_get (h : tget s.convoys c = some v) :
    tget (s.issued c).convoys c = some { v with last := s.now (dieOf v.spn), since := s.now (dieOf v.spn), aged := false, logAt := none,
                                                stepped := v.stepped && v.lncur != 0 } := by
  simp [State.issued, h, State.putConvoy, State.count, State.bump]

theorem issued_get_ne {j : Nat} (h : j ≠ c) : tget (s.issued c).convoys j = tget s.convoys j := by
  unfold State.issued; split
  · rfl
  · simp [State.putConvoy, State.count, State.bump, tget_tput_ne h]

theorem advance_get_ne (n : Nat) {j : Nat} (h : j ≠ c) : tget (s.advance c n).convoys j = tget s.convoys j := by
  rw [State.advance, issued_get_ne h, modConvoy_get_ne _ h]

/-- What a convoy keeps as it moves past a word. -/
theorem past_keeps (n : Nat) : (v.past n).spn = v.spn ∧ (v.past n).wg = v.wg ∧ (v.past n).slices = v.slices ∧ (v.past n).fib = v.fib ∧
    (v.past n).u = v.u ∧ (v.past n).lncur = v.lncur ∧ (v.past n).fpstat = v.fpstat := by
  unfold Convoy.past
  cases v.rep <;> dsimp only <;> repeat' split
  all_goals simp [Convoy.goto]

theorem advance_get (n : Nat) (h : tget s.convoys c = some v) : ∃ w, tget (s.advance c n).convoys c = some w ∧ w.spn = v.spn ∧
    w.wg = v.wg ∧ w.slices = v.slices ∧ w.fib = v.fib ∧ w.u = v.u ∧ w.lncur = v.lncur ∧ w.fpstat = v.fpstat := by
  refine ⟨_, issued_get (by rw [modConvoy_get, h]; rfl), ?_⟩
  exact past_keeps n

/-! ## Stores and the undo log (R389, R390) -/

/-- Logging lines changes the logs alone. -/
theorem logWrite_ex (a n : Nat) : ∃ ps, s.logWrite a n = { s with sps := ps } ∧
    ∀ p, (s.logWrite a n).sp p = { s.sp p with lines := ((s.logWrite a n).sp p).lines } := by
  unfold State.logWrite
  induction linesOf a n generalizing s with
  | nil => exact ⟨s.sps, rfl, fun p => rfl⟩
  | cons x r ih =>
    have h1 : ∃ ps, s.logLine x = { s with sps := ps } ∧ ∀ p, (s.logLine x).sp p = { s.sp p with lines := ((s.logLine x).sp p).lines } := by
      unfold State.logLine
      split
      · rename_i q _
        split
        · refine ⟨_, rfl, fun p => ?_⟩
          by_cases hp : p = q
          · subst hp; simp
          · rw [modSp_get_ne _ hp]
        · exact ⟨s.sps, rfl, fun p => rfl⟩
      · exact ⟨s.sps, rfl, fun p => rfl⟩
    obtain ⟨ps, h1, h1'⟩ := h1
    obtain ⟨ps', h2, h2'⟩ := ih (s := s.logLine x)
    exact ⟨ps', by rw [List.foldl_cons, h2, h1], fun p => by rw [List.foldl_cons, h2' p, h1' p]⟩

/-- A store changes bytes, tags and logs. -/
theorem store_ex (a : Nat) (bs : List Byte) : ∃ m g ps, s.store a bs = { s with mem := m, tags := g, sps := ps } := by
  obtain ⟨ps, h, -⟩ := logWrite_ex (s := s) a bs.length
  obtain ⟨m, g, h'⟩ := wrBytes_ex (s := s.logWrite a bs.length) (a := a) bs
  exact ⟨m, g, ps, by rw [State.store, h', h]⟩

theorem rd8_store_out {a b : Nat} {bs : List Byte} (h : b < a ∨ a + bs.length ≤ b) : (s.store a bs).rd8 b = s.rd8 b := by
  obtain ⟨ps, h', -⟩ := logWrite_ex (s := s) a bs.length
  rw [State.store, rd8_wrBytes_out h, h']; rfl

/-- A pass of changes of SPs alone changes SPs alone. -/
theorem foldl_sps {α : Type} {f : State → α → State} (h : ∀ s x, ∃ ps, f s x = { s with sps := ps }) (l : List α) (s : State) :
    ∃ ps, l.foldl f s = { s with sps := ps } := by
  induction l generalizing s with
  | nil => exact ⟨s.sps, rfl⟩
  | cons x r ih =>
    obtain ⟨ps, h1⟩ := h s x
    obtain ⟨ps', h2⟩ := ih (f s x)
    exact ⟨ps', by rw [List.foldl_cons, h2, h1]⟩

/-- Performing the pending writes of an SP, those that overlap some bytes, and what stands before a write at once, changes SPs alone. -/
theorem drainSp_ex (s : State) (p : Nat) : ∃ ps, s.drainSp p = { s with sps := ps } := by
  unfold State.drainSp; split <;> exact ⟨_, rfl⟩
theorem drainAt_ex (s : State) (who : Option Nat) (a n : Nat) : ∃ ps, s.drainAt who a n = { s with sps := ps } := by
  unfold State.drainAt
  split
  · exact foldl_sps (fun s i => drainSp_ex s _) _ s
  · exact ⟨s.sps, rfl⟩
theorem settleAt_ex (s : State) (a n : Nat) : ∃ ps, s.settleAt a n = { s with sps := ps } := by
  obtain ⟨ps, h⟩ := drainAt_ex s none a n
  unfold State.settleAt
  rw [h]
  dsimp only
  split <;> exact ⟨_, rfl⟩

/-- A local write by a fibre of an SP changes bytes, tags, and what SPs hold: their store queues and logs (R125, R389). -/
theorem storeBy_ex (spn who a : Nat) (bs : List Byte) : ∃ m g ps, s.storeBy spn who a bs = { s with mem := m, tags := g, sps := ps } := by
  obtain ⟨ps, h1⟩ := drainAt_ex s (some who) a bs.length
  have h2 : ∀ t : State, ∃ ps, t.queueWrite spn who a bs.length = { t with sps := ps } := fun t => by
    unfold State.queueWrite; split <;> exact ⟨_, rfl⟩
  obtain ⟨ps2, h2⟩ := h2 (s.drainAt (some who) a bs.length)
  obtain ⟨m, g, ps3, h3⟩ := store_ex (s := (s.drainAt (some who) a bs.length).queueWrite spn who a bs.length) a bs
  exact ⟨m, g, ps3, by rw [State.storeBy, h3, h2, h1]⟩

/-- Waking the SPs of a range, and of the ranges of lane accesses, changes SPs alone (R319). -/
theorem wakeRange_ex (s : State) (a n : Nat) : ∃ ps, s.wakeRange a n = { s with sps := ps } := by
  unfold State.wakeRange
  split
  · exact ⟨s.sps, rfl⟩
  · refine foldl_sps (fun s b => ?_) _ s
    unfold State.wakeFor State.wakeSp; repeat' split
    all_goals exact ⟨_, rfl⟩

theorem wakeAll_ex (s : State) (r : List (Addr × Addr × Bool)) : ∃ ps, s.wakeAll r = { s with sps := ps } :=
  foldl_sps (fun s _ => wakeRange_ex s _ _) r s

end Sys2Proof.Machine
end

