-- ==== Sys2Proof/Laws/Record.lean ====
section
/-! SUPPORT. What the package's own traffic can change: a passage, a write to a place checked before, a push by firmware, an error record,
a status word. -/

namespace Sys2Proof.Machine

variable {s t u : State}

/-- What the package's own traffic may change: bytes, tags, the extents that worlds have written, the memory-side cache, HBM's state, the
host's side, the pushes not yet published and the records owed for lines, and what SPs hold of writes not yet performed. -/
def Served (s t : State) : Prop :=
  ∃ m g ws ms b h p n q, t = { s with
    mem := m, tags := g, sps := q, worlds := ws, msc := ms, hbm := b, host := h, mgmt := { s.mgmt with pubs := p, notes := n } }

theorem served_refl (s : State) : Served s s := ⟨s.mem, s.tags, s.worlds, s.msc, s.hbm, s.host, s.mgmt.pubs, s.mgmt.notes, s.sps, rfl⟩

theorem served_trans (h : Served s t) (h' : Served t u) : Served s u := by
  obtain ⟨m, g, ws, ms, b, x, p, n, q, rfl⟩ := h
  obtain ⟨m', g', ws', ms', b', x', p', n', q', rfl⟩ := h'
  exact ⟨m', g', ws', ms', b', x', p', n', q', rfl⟩

theorem served_ite {c : Prop} [Decidable c] {a b : State} (ha : Served s a) (hb : Served s b) : Served s (if c then a else b) := by
  split
  · exact ha
  · exact hb

theorem served_foldl {α : Type} {f : State → α → State} (h : ∀ s x, Served s (f s x)) (l : List α) (s : State) : Served s (l.foldl f s) := by
  induction l generalizing s with
  | nil => exact served_refl s
  | cons x r ih => exact served_trans (h s x) (ih _)

/-- A change of the served parts alone. -/
theorem served_mem (s : State) (m : Tbl Byte) (g : Tbl Unit) : Served s { s with mem := m, tags := g } :=
  ⟨m, g, s.worlds, s.msc, s.hbm, s.host, s.mgmt.pubs, s.mgmt.notes, s.sps, rfl⟩
theorem served_host (s : State) (h : HostSide) : Served s { s with host := h } :=
  ⟨s.mem, s.tags, s.worlds, s.msc, s.hbm, h, s.mgmt.pubs, s.mgmt.notes, s.sps, rfl⟩
theorem served_hbm (s : State) (b : Hbm) : Served s { s with hbm := b } := ⟨s.mem, s.tags, s.worlds, s.msc, b, s.host, s.mgmt.pubs, s.mgmt.notes, s.sps, rfl⟩
theorem served_sps {s t : State} (h : ∃ ps, t = { s with sps := ps }) : Served s t := by
  obtain ⟨ps, rfl⟩ := h
  exact ⟨s.mem, s.tags, s.worlds, s.msc, s.hbm, s.host, s.mgmt.pubs, s.mgmt.notes, ps, rfl⟩
theorem served_msc (s : State) (x : Msc) : Served s { s with msc := x } := ⟨s.mem, s.tags, s.worlds, x, s.hbm, s.host, s.mgmt.pubs, s.mgmt.notes, s.sps, rfl⟩

/-! ## The passage of an access -/

theorem served_count (s : State) (c g n k : Nat) : Served s (s.count c g n k) := served_host s _

theorem served_mend (s : State) (ls : List Addr) : Served s (s.mendLines ls) := served_hbm s _

theorem served_linesBack (s : State) (ls : List Addr) : Served s (s.linesBack ls) :=
  served_trans (served_mend s ls) (served_foldl (fun s _ => served_hbm s _) _ _)

theorem served_touchMsc (s : State) (c : Nat) (tr : Traffic) (l : Addr) : Served s (s.touchMsc c tr l) := by
  unfold State.touchMsc
  dsimp only
  split
  · exact served_trans (served_msc s _) (served_msc _ _)
  · split
    · exact served_trans (served_msc s _) (served_linesBack _ _)
    · exact served_trans (served_msc s _) (served_linesBack _ _)

theorem served_touchBank (s : State) (l : Addr) : Served s (s.touchBank none l) := served_hbm s _

theorem served_keepPosted (s : State) (rs : List (Addr × Nat)) (p : Posted) : Served s (s.keepPosted rs p) :=
  served_trans (served_foldl (fun s _ => served_hbm s _) _ s) (served_hbm (s.wake (s.asleep rs)) _)

theorem served_touchRow (s : State) (c : Nat) (l : Addr) : Served s (s.touchRow c l) :=
  ⟨s.mem, s.tags, s.worlds, s.msc, _, s.host, s.mgmt.pubs, _, s.sps, rfl⟩

theorem served_touchLine (s : State) (c : Nat) (tr : Traffic) (l : Addr) : Served s (s.touchLine c none tr l) :=
  served_ite (served_trans (served_trans (served_touchMsc s c tr l) (served_touchBank _ l)) (served_touchRow _ _ _)) (served_touchMsc s c tr l)

theorem served_extTouch (s : State) (c : Nat) (w : Bool) (a : Addr) : Served s (s.extTouch c w a) := by
  unfold State.extTouch
  split
  · exact served_refl s
  · dsimp only
    split
    · exact served_refl s
    · exact served_host s _

theorem served_notes (s : State) (l : List (Rec × Bool)) : Served s { s with mgmt := { s.mgmt with notes := l } } :=
  ⟨s.mem, s.tags, s.worlds, s.msc, s.hbm, s.host, s.mgmt.pubs, l, s.sps, rfl⟩

theorem served_copyLine (s : State) (a b : Addr) : Served s (s.copyLine a b) :=
  served_foldl (fun s i => by unfold State.wrCap; rw [wrRaw_eq]; exact served_mem s _ _) _ s

theorem served_meetLine (s : State) (c : Nat) (l : Addr) : Served s (s.meetLine c l).1 := by
  have gone (b : Hbm) : Served s (({ s with hbm := b } : State).count c 3 6 1) := served_trans (served_hbm s b) (served_count _ c 3 6 1)
  unfold State.meetLine
  dsimp only
  split
  · exact gone _
  · exact gone _
  · split
    · exact served_refl s
    · split
      · exact served_trans (served_trans (served_trans (served_copyLine s _ _) (served_mend _ _)) (served_hbm _ _)) (served_count _ c 3 5 1)
      · exact gone _
  · exact served_refl s

theorem served_passLine (s : State) (c : Nat) (tr : Traffic) (w : Bool) (l : Addr) : Served s (s.passLine c none tr w l) := by
  have h := served_touchLine s c tr l
  unfold State.passLine
  generalize s.touchLine c none tr l = s1 at h ⊢
  dsimp only
  split
  · exact h
  · split
    · exact served_trans h (served_trans (served_mend s1 _) (served_hbm _ _))
    · have h2 := served_trans h (served_trans (served_meetLine s1 c l)
        (served_ite (c := (s1.meetLine c l).2.1 = true) (b := (s1.meetLine c l).1.dropLine l) (served_refl _) (served_msc _ _)))
      split
      · exact served_trans h2 (served_notes _ _)
      · exact h2

theorem served_passage (s : State) (c : Nat) (tr : Traffic) (a n : Nat) : Served s (s.passage c none tr a n) := by
  have go := served_foldl (fun s l => served_trans
    (served_ite (c := l < 0x1_0600_0000_0000) (served_passLine s c tr (tr == .wr && decide (a ≤ l) && decide (l + 128 ≤ a + n)) l)
      (served_refl s)) (served_extTouch _ c (match tr with
      | .rd => false
      | .wr => true
      | .at_ => true) l)) (linesOf a n) s
  unfold State.passage
  dsimp only
  split
  · exact go
  · exact go
  · exact go
  · exact served_refl s
  · exact served_refl s
  · exact served_refl s
  · exact served_refl s

theorem served_fillPages (s : State) (c : Nat) (ps : List Nat) : Served s (s.fillPages c ps) :=
  served_foldl (fun s _ => served_trans (served_count s c 3 7 1) (served_hbm _ _)) ps s

theorem served_noteWritten (s : State) (c a n : Nat) : Served s (s.noteWritten c a n) :=
  served_ite (served_refl s) ⟨s.mem, s.tags, _, s.msc, s.hbm, s.host, s.mgmt.pubs, s.mgmt.notes, s.sps, rfl⟩

theorem served_passWr (s : State) (c a n : Nat) : Served s (s.passWr c none a n) :=
  served_trans (served_trans (served_fillPages s c _) (served_noteWritten _ c a n)) (served_passage _ c .wr a n)

/-! ## Writes to places checked before -/

theorem served_putByteFor (s : State) (c : Nat) (a p : Addr) (x : Byte) : Served s (s.putByteFor c a p x) := by
  have h8 : ∀ s : State, Served s (s.wr8 p x) := fun s => served_mem s _ _
  refine served_ite (served_trans ?_ (h8 _)) (h8 s)
  unfold State.rekey
  dsimp only
  split
  · exact served_refl s
  · rw [wrRaw_eq]
    exact served_trans (served_mem s _ _) (served_host _ _)

theorem served_wrHome (s : State) (a : Addr) (bs : List Byte) : Served s (s.wrHome a bs) := by
  unfold State.wrHome
  rw [clearTags_eq]
  exact served_trans (served_foldl (fun s _ => served_ite (served_refl s) (served_putByteFor s _ _ _ _)) _ s) (served_mem _ _ _)

theorem served_wrCaps (s : State) (a : Nat) (ks : List Cap) : Served s (s.wrCaps a ks) := by
  induction ks generalizing s a with
  | nil => exact served_refl s
  | cons k r ih =>
    unfold State.wrCaps
    dsimp only
    exact served_trans (served_ite (served_trans (served_wrHome s _ _) (served_mem _ _ _)) (served_wrHome s _ _)) (ih _ _)

theorem served_putQword (s : State) (b i v : Nat) : Served s (s.putQword b i v) := served_wrHome s _ _

theorem served_qreserve (s : State) (b n : Nat) : Served s (s.qreserve b n).2 :=
  served_ite (served_putQword s _ _ _) (served_trans (served_putQword s _ _ _) (served_wrCaps _ _ _))

theorem served_qfill (s : State) (b start n : Nat) (l : List Cap) : Served s (s.qfill b start n l) := served_wrCaps s _ _

theorem served_qpublish (s : State) (b start n : Nat) : Served s (s.qpublish b start n) :=
  served_trans (served_putQword s _ _ _) (served_putQword _ _ _ _)

/-! ## Pushes by firmware and error records (R384, R385, R464) -/

theorem served_pubs (s : State) (p : List (Addr × Nat × Nat)) : Served s { s with mgmt := { s.mgmt with pubs := p } } :=
  ⟨s.mem, s.tags, s.worlds, s.msc, s.hbm, s.host, p, s.mgmt.notes, s.sps, rfl⟩

theorem served_pushOne (s : State) (c b : Nat) (w : BitVec 512) : Served s (s.pushOne c b w) := by
  have h0 := served_trans (served_passWr s c b 64) (served_passWr _ c (slotAddr b ((s.qhdr b).rsv % (s.qhdr b).cap)) 64)
  unfold State.pushOne
  generalize ((s.passWr c none b 64).passWr c none (slotAddr b ((s.qhdr b).rsv % (s.qhdr b).cap)) 64) = s0 at h0 ⊢
  have h1 := served_trans h0 (served_qreserve s0 b 1)
  generalize s0.qreserve b 1 = x at h1 ⊢
  obtain ⟨start, s1⟩ := x
  have h2 := served_trans h1 (served_qfill s1 b start 1 (slotCaps w))
  dsimp only
  generalize s1.qfill b start 1 (slotCaps w) = s2 at h2 ⊢
  split
  · exact served_trans h2 (served_qpublish _ _ _ _)
  · exact served_trans h2 (served_pubs _ _)

theorem served_lose (s : State) (c : Nat) : Served s (s.lose c) := served_host s _

/-- A copy of a record keeps SEQ. -/
theorem served_deliver (s : State) (c : Nat) (r : Rec) (gen : BitVec 8) (seq : Nat) : Served s (s.deliver c r gen seq).1 := by
  unfold State.deliver
  split
  · exact served_lose s c
  · exact served_lose s c
  · exact served_trans (served_trans (served_passWr s c _ 64) (served_putQword _ _ _ _)) (served_lose _ c)
  · dsimp only
    split
    · exact served_keepPosted s _ _
    · exact served_trans (served_pushOne s c _ _) (served_host _ _)

/-- SEQ is no part of what is served. -/
theorem served_seq (h : Served s t) : t.mgmt.seq = s.mgmt.seq := by
  obtain ⟨m, g, ws, ms, b, x, p, n, q, rfl⟩ := h; rfl

/-- An error record raises SEQ, and else changes served parts alone (R384, R385). -/
theorem record_ex (s : State) (r : Rec) (tenant : Bool) :
    ∃ q, Served { s with mgmt := { s.mgmt with seq := q } } (s.record r tenant) ∧ s.mgmt.seq < q := by
  unfold State.record
  generalize (if s.isProtected r.colour then r.hide else r) = r'
  have h := served_deliver s.nextSeq s.mgmt.hyp r' (s.gen r.colour) s.mgmt.seq
  dsimp only
  generalize (s.nextSeq.deliver s.mgmt.hyp r' (s.gen r.colour) s.mgmt.seq).1 = s2 at h ⊢
  split
  · have h3 := served_trans h (served_deliver s2 r.colour r (s.gen r.colour) s.mgmt.seq)
    generalize (s2.deliver r.colour r (s.gen r.colour) s.mgmt.seq).1 = s3 at h3 ⊢
    split
    · refine ⟨s.mgmt.seq + 2, ?_, by omega⟩
      refine served_trans ?_ (served_deliver s3.nextSeq s.mgmt.hyp _ _ _)
      obtain ⟨m, g, ws, ms, b, x, p, n, q, rfl⟩ := h3
      exact ⟨m, g, ws, ms, b, x, p, n, q, rfl⟩
    · exact ⟨s.mgmt.seq + 1, h3, by omega⟩
  · exact ⟨s.mgmt.seq + 1, h, by omega⟩

/-! ## Words on the bus -/

theorem served_bus32 (s : State) (c : Nat) (a : Addr) (v : Word) : Served s (s.bus32 c a v).1 := by
  unfold State.bus32
  split
  · exact served_trans (served_trans (served_trans (served_sps (wakeRange_ex s a 4)) (served_sps (settleAt_ex _ a 4))) (served_passWr _ c a 4)) (served_wrHome _ _ _)
  · exact served_refl s

theorem served_raise (s : State) (v : Nat) : Served s (s.raise v) := served_ite (served_host s _) (served_refl s)

/-- A word on the bus with its vector, at once or later. -/
theorem served_post32 (s : State) (c : Nat) (a : Addr) (v : Word) (n : Option Nat) : Served s (s.post32 c a v n) := by
  have h := served_bus32 s c a v
  unfold State.post32
  dsimp only
  split
  · exact served_keepPosted s _ _
  · split
    · exact served_ite (served_trans h (served_raise _ _)) h
    · exact h

/-- A status word with its vector. -/
theorem served_wstat (s : State) (r : WReq) (x : Word) : Served s (s.wstat r x) := served_ite (served_post32 s _ _ _ _) (served_refl s)

/-- A request that has finished: its world waits for it no longer. -/
theorem doneReq_ex (s : State) (r : WReq) : Served (s.modWorld (reqColour r) fun w => { w with waiting := none }) (s.doneReq r) :=
  served_wstat _ r 1

end Sys2Proof.Machine
end

