-- ==== Sys2Proof/Tests/Slice0.lean ====
section
/-! SUPPORT. The model's own tests: ill-formed terms that WellFormed refuses, words written out from the encodings of the spec, one-step
results taken from the spec's examples and tables, and for each statement states and operands that meet its hypotheses. -/

set_option maxRecDepth 100000

namespace Sys2Proof.Tests

open Sys2Proof Sys2Proof.Machine

/-! ## A small state -/

/-- Fibre n of workgroup 20, in lane n of SP 0. -/
def fib (n : Nat) : Fibre := { wg := 20, fidx := n, spn := 0, lane := n, wbase := 0, wsize := 40, pc := 0x10000, regpc := 0x10000,
                               regcnt := 1, rwsize := 40, began := true, entered := true }
/-- Its convoy, in a clause of four words, whose latches are written. -/
def cv : Convoy := { spn := 0, wg := 20, slices := [0], fib := [some 10, some 11, none, none], hdr := 0x10000, words := 4, inCl := true,
                     wait := .run, latw := 0b1111 }
/-- Workgroup 20 of colour 1, on SP 0. -/
def wg : Wg := { launch := 30, wgid := 0, sps := [0], colour := 1, gen := 0, prio := 0, bwphase := 0, ranges := [(0x10000, 0x80)],
                 own := [(0, 1)], phase := .running, staged := true }
def la : Launch := { g := List.replicate 16 nullCap, binding := 0, colour := 1, gen := 0, home := 0, acquired := 0, next := 1, entered := true }
/-- Convoy 15 of fibres 10 and 11 issues; its clause starts with nop, an RE clause follows; bank set 0 is allocated and on; scratchpad bank 0 of core 0
is SP 0's. -/
def base : State :=
  let s : State := { State.reset with
    cur := some 15
    ids := 40
    mgmt := { hyp := 2 }
    fibres := [(10, fib 0), (11, fib 1)]
    convoys := [(15, cv)]
    wgs := [(20, wg)]
    launches := [(30, la)]
    hbm := { sets := [(0, { alloc := true, state := 0 })] }
    sps := [(0, { owner := 1 })]
    cores := [(0, { bfence := [(0, 8)] })] }
  (s.wrBytes 0x10000 (leBytes 8 0xFE3F_C000_0E00_0000 ++ leBytes 8 0x7500_0000_0000_0000)).wrBytes 0x10028 (leBytes 8 0xFE3F_C000_0E00_0000)
/-- `base` with its convoy changed. -/
def withCv (f : Convoy → Convoy) : State := { base with convoys := [(15, f cv)] }
/-- A capability of colour 1: kind, permissions, range. -/
def cap (kind : BitVec 4) (perms : BitVec 16) (lo len : Nat) : Cap := mkCap kind 0 0 1 0 perms lo len
/-- A state with vN of lane 0 written, and with an s register of the convoy written. -/
def setV (s : State) (n : Nat) (x : Word) : State := s.wrV (fib 0) n x
def setS (s : State) (n : Nat) (x : Word) : State := s.wrS 15 n x

/-! ## Ill-formed terms are refused (R398) -/

theorem test_guard : (Instr.movOp { c := { g := ⟨true, 0⟩ }, d := .v 1, a := .v 2 }).violations = [0x013] := by decide
theorem test_wide_guard : (Instr.mmaT8 { c := { g := ⟨false, 1⟩ }, ad := 0, ka := 0, kb := 0, p := 0 }).violations = [0x01A] := by decide
theorem test_modifier : (Instr.imulh { c := {}, d := .v 1, a := .v 2, b := .imm 3, sat := true }).violations = [0x013] := by decide
theorem test_pair : (Instr.iadd64 { c := {}, d := .v 1, a := .v 2, b := .imm 3 }).violations = [0x015] := by decide
theorem test_quad : (Instr.ld { c := {}, d := .v 2, sz := .b128, addr := { space := .win } }).violations = [0x015] := by decide
theorem test_quad_latch : (Instr.ld { c := {}, d := .b 2, sz := .b128, addr := { space := .win } }).violations = [0x017] := by decide
theorem test_window_byte : (Instr.st { c := {}, a := .v 2, sz := .b8, addr := { space := .win } }).violations = [0x013] := by decide
theorem test_rounding : (Instr.qntT2 { c := {}, d := .v 1, a := .v 2, scale := .v 3, pos := 0, rm := .ru }).violations = [0x013] := by decide
theorem test_position : (Instr.dqnt { c := {}, d := .v 1, a := .v 2, scale := .v 3, pos := 4, fmt := .i8 }).violations = [0x013] := by decide
theorem test_cvt_high : (Instr.cvt { c := {}, d := .v 1, a := .v 2, pair := .f32_s32, hi := true }).violations = [0x013] := by decide
theorem test_bcast_first : (Instr.bcast { c := {}, sd := 0, a := .v 1, first := true, pos := 1 }).violations = [0x013] := by decide
theorem test_red_excl : (Instr.red { c := {}, d := .v 1, a := .v 2, fn := .iadd, excl := true }).violations = [0x013] := by decide
theorem test_cmpst_off : (Instr.cmpst { c := {}, sd := 0, a := .v 1, ks := 0, so := .s 0, off := 2 }).violations = [0x013] := by decide
theorem test_ldk_class : (Instr.ldk { c := {}, ud := true, d := 16, addr := { space := .ks 0 } }).violations = [0x014] := by decide
theorem test_cas_operand : (Instr.acas { c := {}, d := .v 1, a := .s 2, w64 := false, addr := { space := .ks 0 } }).violations = [0x014] := by
  decide
theorem test_cap_forms : (Instr.cperm { c := {}, uf := true, ua := true, d := 1, a := 16, x := .s 1 }).violations = [0x013, 0x014] := by decide
theorem test_cdeleg_group : (Instr.cdeleg { c := {}, uf := true, ua := false, d := 1, kb := 2, ksrc := 3, kdst := 4, blk := 0,
                                            xq := 15 }).violations = [0x013] := by decide
theorem test_params : (Instr.gat { c := {}, kd := 0, ka := 0, idx := .v 1, p := 4, esz := .e4 }).violations = [0x013] := by decide
theorem test_mmac_same : (Instr.mmacI8 { c := {}, ad := 1, as := 1, kb := 0, p := 0 }).violations = [0x013] := by decide
theorem test_bar_scope : (Instr.bar { c := {}, scope := .lane, slot := 0 }).violations = [0x013] := by decide
theorem test_grow_rows : (Instr.grow { c := {}, n := 4 }).violations = [0x013] := by decide
theorem test_lnest_levels : (Instr.lnest { bt := .dyn, fn := .copy, ty := .f32, kd := 0, od := 0, ka := 0, oa := 0, kb := 0, ob := 0,
                                             levels := [] }).violations = [0x019] := by decide
theorem test_idle_literal : (Instr.movOp { c := { lit := 5 }, d := .v 1, a := .v 2 }).litOk = false := by decide

/-! ## Words of the spec's examples, by family -/

theorem word_fadd : decode 0x1000_8080_8060_0000 [] = .ok (.fadd { c := {}, d := .b 1, a := .v 2, b := .v 3 }) 1 := by decide
theorem word_fmul_guard : decode 0x108A_0240_68A0_0000 [] =
    .ok (.fmul { c := { g := ⟨true, 2⟩ }, d := .v 4, a := .b 1, b := .s 5 }) 1 := by decide
theorem word_iadd64_literal : decode 0x00C0_0301_BFE0_0000 [0x0000_0001_2345_6789] =
    .ok (.iadd64 { c := { lit := 0x0000_0001_2345_6789 }, d := .v 6, a := .v 6, b := .src .lit }) 2 := by decide
theorem word_rep_ctl : decode 0x74E0_0C00_4200_0000 [] = .ok (.repOp { bt := .ctl, cnt := 3, std := 1, sta := 1, stb := 0, stc := 0 }) 1 := by
  decide
theorem word_icmp : decode 0x0E00_0181_4000_0A85 [] = .ok (.icmp { c := {}, p := 3, a := .v 5, b := .imm 40, cc := .lt, u := true }) 1 := by
  decide
theorem word_red : decode 0x3100_0400_8000_0000 [] = .ok (.red { c := {}, d := .v 8, a := .v 2, fn := .fadd }) 1 := by decide
theorem word_ballot : decode 0x3041_0200_4000_0001 [] =
    .ok (.ballot { c := { g := ⟨false, 1⟩ }, d := .v 4, p := 1, part := .below }) 1 := by decide
theorem word_cmpst : decode 0x3181_1600_8122_8000 [] =
    .ok (.cmpst { c := { g := ⟨false, 1⟩ }, sd := 44, a := .v 2, ks := 9, so := .s 40, off := 0 }) 1 := by decide
theorem word_ld : decode 0x4000_0380_0040_4842 [] =
    .ok (.ld { c := {}, d := .v 7, sz := .b32, addr := { space := .ks 2, off := some (.v 4), disp := 2 } }) 1 := by decide
theorem word_ld_win : decode 0x4000_0680_0000_6248 [] =
    .ok (.ld { c := {}, d := .v 13, sz := .b32, addr := { space := .win, off := some (.v 6), disp := 8 } }) 1 := by decide
theorem word_ldk : decode 0x4080_0480_0094_6890 [] =
    .ok (.ldk { c := {}, ud := true, d := 9, addr := { space := .ks 4, off := some (.s 6) } }) 1 := by decide
theorem word_fence : decode 0x4300_0000_0000_0005 [] = .ok (.fenceOp { c := {}, scope := .pkg }) 1 := by decide
theorem word_csub : decode 0x5000_0481_0000_2800 [] =
    .ok (.csub { c := {}, uf := true, ua := false, d := 9, a := 4, off := .s 0, len := .s 2, exact := false }) 1 := by decide
theorem word_csub_exact : decode 0x5000_0201_0080_E401 [] =
    .ok (.csub { c := {}, uf := false, ua := true, d := 4, a := 4, off := .v 4, len := .v 14, exact := true }) 1 := by decide
theorem word_cdeleg : decode 0x51C0_0602_0120_AA00 [] =
    .ok (.cdeleg { c := {}, uf := true, ua := false, d := 12, kb := 8, ksrc := 9, kdst := 10, blk := 4, xq := 0 }) 1 := by decide
theorem word_cbale : decode 0x5100_0603_3FE0_0800 [9] =
    .ok (.cbale { c := { lit := 9 }, uf := true, ua := false, d := 12, a := 12, x := .lit }) 2 := by decide
theorem word_cpy_cmd : decode 0x6000_0002_0140_0600 [] = .ok (.cpyCmd { c := {}, kc := 8, loc := some 10 }) 1 := by decide
theorem word_cpy : decode 0x6000_0001_4100_0000 [] = .ok (.cpy { c := {}, kd := 5, ka := 8, p := 0 }) 1 := by decide
theorem word_mma : decode 0x6200_0102_0100_0000 [] = .ok (.mmaT8 { c := {}, ad := 2, ka := 8, kb := 8, p := 0 }) 1 := by decide
theorem word_mmac : decode 0x6240_0080_0100_8000 [] = .ok (.mmacE4m3 { c := {}, ad := 1, as := 0, kb := 8, p := 8 }) 1 := by decide
theorem word_sacc_v : decode 0x2200_0000_8100_7001 [] =
    .ok (.saccV { c := {}, ad := 0, ap := 2, ks := 8, o := .s 7, off := 0, i32 := true }) 1 := by decide
theorem word_ast : decode 0x6440_0002_0020_8000 [] = .ok (.ast { c := {}, kd := 8, as := 1, p := 8, fmt := .f32 }) 1 := by decide
theorem word_nmc : decode 0x64C0_0001_00A0_8000 [] = .ok (.nmc { c := {}, kt := 4, kg := 5, p := 8, fn := .fade }) 1 := by decide
theorem word_sig : decode 0x6540_0001_C1E0_5017 [] =
    .ok (.sig { c := {}, k := 7, o := .s 15, v := .s 5, add := true, rel := some .pkg }) 1 := by decide
theorem word_wsig : decode 0x6580_0001_41A0_E02E [] =
    .ok (.wsig { c := {}, q := 0, k := 5, o := .s 13, v := .s 14, cc := .ge, acq := some .pkg, tmo := 0 }) 1 := by decide
theorem word_waitc : decode 0x65C0_0000_0000_0A00 [] = .ok (.waitc { c := {}, cls := some .enm, thr := 0 }) 1 := by decide
theorem word_call : decode 0x70E0_0000_001F_FFFC [] = .ok (.callOp { c := { bt := .ctl }, imm := 0x1FFFFC }) 1 := by decide
theorem word_calli : decode 0x7100_0001_00C0_0000 [] = .ok (.calli { c := {}, uf := false, k := 4, o := .v 6 }) 1 := by decide
theorem word_shl : decode 0x0890_01D1_0000_0870 [] = .ok (.shl { c := { bt := .fold }, d := .v 3, a := .s 4, b := .imm 7 }) 1 := by decide
theorem word_movi : decode 0x0F00_0180_0000_8000 [] = .ok (.movi { c := {}, d := .v 3, imm := 0x8000 }) 1 := by decide
theorem word_qpush : decode 0x73C0_0001_4100_F000 [] =
    .ok (.qpush { c := {}, q := 0, kq := 5, kr := 8, so := .s 15, n1 := 0, nb := false }) 1 := by decide
theorem word_qpop : decode 0x7400_0001_4100_6000 [] = .ok (.qpop { c := {}, q := 0, kq := 5, kr := 8, so := .s 6, nb := false }) 1 := by decide
theorem word_bar : decode 0x72C0_0000_0000_0004 [] = .ok (.bar { c := {}, scope := .die, slot := 0 }) 1 := by decide
/- R161, R162: accadd.f32 of ks5[s1] into ks4[s0] over extents (4, 2), strides d (0, 1), a (1, 4); R282: numbers 3 and 4. -/
theorem word_lnest : decode 0x7480_2009_0050_4000 [0x0004_0000_0000_0103, 0x0000_0040_0400_0000, 0] =
    .ok (.lnest { bt := .dyn, fn := .accadd, ty := .f32, kd := 4, od := 0, ka := 5, oa := 1, kb := 0, ob := 0,
                  levels := [⟨3, 0, 1, 0⟩, ⟨1, 1, 4, 0⟩] }) 4 := by decide
theorem word_sysrd : decode 0x7580_0180_0000_0003 [] = .ok (.sysrd { c := {}, d := .v 3, num := 3 }) 1 := by decide
theorem word_syswr : decode 0x75C0_0000_8000_0004 [] = .ok (.syswr { c := {}, a := .v 2, num := 4 }) 1 := by decide

/-! ## One step, against the spec's examples and tables -/

/-- The state a result goes on with. -/
def after : Result → State
  | .next s => s
  | .fault _ => State.reset
  | .refused _ => State.reset
/-- The flags of the convoy after a step. -/
def flagsOf (s : State) : BitVec 8 := ((tget s.convoys 15).map (·.fpstat)).getD 0
/-- The uniform state of the convoy. -/
def unifOf (s : State) : Unif := ((tget s.convoys 15).map (·.u)).getD {}
/-- vN of lane 0, and the flags, after a step. -/
def outFl (n : Nat) (r : Result) : Word × BitVec 8 := ((after r).rdV (fib 0) n, flagsOf (after r))
/-- Predicate p of fibre 10. -/
def predOf (s : State) (p : BitVec 3) : Bool := ((tget s.fibres 10).map fun f => f.rdP p).getD false

/- R202's example: 34.0 × 0.5 in E4M3 rounded up is 0x59. -/
theorem test_qnt : outFl 9 (exec (.qntE4m3 { c := {}, d := .v 9, a := .v 1, scale := .s 2, pos := 3, rm := .ru })
    (setS (setV (setV base 1 0x4208_0000) 9 0x1122_3344) 2 0x3F00_0000)) = (0x5922_3344, flNX) := by decide
/- R189's example: unsigned, and signed. -/
theorem test_icmp_unsigned : predOf (after (exec (.icmp { c := {}, p := 3, a := .v 5, b := .imm 40, cc := .lt, u := true })
    (setV base 5 0xFFFF_FFF0))) 3 = false := by decide
theorem test_icmp_signed : predOf (after (exec (.icmp { c := {}, p := 3, a := .v 5, b := .imm 40, cc := .lt })
    (setV base 5 0xFFFF_FFF0))) 3 = true := by decide
/- R185: a quotient by 0 is all ones, and the remainder the dividend. -/
theorem test_idiv_zero : (after (exec (.idiv { c := {}, d := .v 3, a := .v 1, b := .imm 0 }) (setV base 1 7))).rdV (fib 0) 3 = 0xFFFF_FFFF := by
  decide
theorem test_irem_zero : (after (exec (.irem { c := {}, d := .v 3, a := .v 1, b := .imm 0 }) (setV base 1 7))).rdV (fib 0) 3 = 7 := by decide
/- R184: saturation. -/
theorem test_imad_sat : (after (exec (.imad { c := {}, d := .v 3, a := .v 1, b := .imm 2, e := .v 1, sat := true })
    (setV base 1 0x7000_0000))).rdV (fib 0) 3 = 0x7FFF_FFFF := by decide
/- R191, R176: an inexact sum sets NX. -/
theorem test_fadd_inexact : outFl 3 (exec (.fadd { c := {}, d := .v 3, a := .v 1, b := .v 2 })
    (setV (setV base 1 0x4B80_0000) 2 0x3F80_0000)) = (0x4B80_0000, flNX) := by decide
/- R41's example in three active lanes: 1.0, 1.0 and 2^24 at positions 0, 2 and 3 give 2^24, and NX. -/
def redState : State := { withCv (fun v => { v with fib := [some 10, none, some 12, some 13] }) with
  fibres := [(10, fib 0), (12, fib 2), (13, fib 3)] }
theorem test_red_tree : outFl 8 (exec (.red { c := {}, d := .v 8, a := .v 2, fn := .fadd })
    (((redState.wrV (fib 0) 2 0x3F80_0000).wrV (fib 2) 2 0x3F80_0000).wrV (fib 3) 2 0x4B80_0000)) = (0x4B80_0000, flNX) := by decide
/- R230's example, with its source in ks5, since ks3 is the quad of s12. -/
def csubState : State := setS (setS (setS (setS (base.wrKs 15 5 ⟨0x1000_0150_3801_79F7_FFF0_0010_0000_0000, true⟩) 10 0x0001_0011) 11 0) 12 300000) 13 0
theorem test_csub : (unifOf (after (exec (.csub { c := {}, uf := true, ua := false, d := 4, a := 5, off := .s 10, len := .s 12, exact := false })
    csubState))).rdK 4 = ⟨0x1000_0150_3801_7852_4F80_0010_0001_0010, true⟩ := by decide
theorem test_csub_exact : (unifOf (after (exec (.csub { c := {}, uf := true, ua := false, d := 4, a := 5, off := .s 10, len := .s 12, exact := true })
    csubState))).rdK 4 = ⟨0x1000_0150_3801_79F7_FFF0_0010_0000_0000, false⟩ := by decide
/- R269, R149: a target is header + 8 × IMM21. -/
theorem test_bra_target : ((tget (after (exec (.bra { c := {}, cond := none, imm := 0x1FFFFC }) base)).convoys 15).map (·.hdr)) = some 0xFFE0 := by
  decide
/- R282: FPSTAT is read in every lane. -/
theorem test_sysrd_fpstat : (after (exec (.sysrd { c := {}, d := .v 3, num := 3 }) (withCv fun v => { v with fpstat := 0x0A }))).rdV (fib 1) 3 = 0x0A := by
  decide
/- R160, R398: rep's third issue names a register beyond the window: ILLEGAL 0x016 at the word index of the rep, ITER 2. -/
def repRecord : Rec := trapRecord { cv with wi := 1, rep := some 0x74C0_0C00_4000_0000, repcnt := 2 } (some (fib 0)) wg
  { cls := clsIllegal, code := 0x016 } 0x6
theorem test_rep_trap : (repRecord.cls, repRecord.code, repRecord.iter, repRecord.recov) = (0x01, 0x0016, 2, 0x6) := by decide
/- R219: sign extension of a byte loaded from scratchpad. -/
def loadState : State := (base.wrKs 15 2 (cap kindData 0x0003 (spadBase 0) 256)).wrBytes (spadBase 0 + 16) [0x80]
theorem test_ld_sext : (after (exec (.ld { c := {}, d := .v 7, sz := .b8, sx := true, addr := { space := .ks 2, off := some (.v 4), disp := 8 } })
    (setV loadState 4 8))).rdV (fib 0) 7 = 0xFFFF_FF80 := by decide
/- R269: the return stack. -/
theorem test_ret : ((tget (after (exec (.ret {}) { base with
    fibres := [(10, { fib 0 with rstk := [0x10028] }), (11, { fib 1 with rstk := [0x10028] })] })).convoys 15).map (·.hdr)) = some 0x10028 := by
  decide

/-! ## States and operands that meet the hypotheses of the statements: instructions of one lane result -/

/-- The same convoy at the last word of its clause. -/
def cvEnd : Convoy := { cv with wi := 3 }
/-- ks2 covers the first 256 bytes of core 0's scratchpad, with every permission but TWIN; ks3 is a queue, ks4 a CMD capability over a block. -/
def kAll : BitVec 16 := 0x3DFF
def spad : State := base.wrKs 15 2 (cap kindData kAll (spadBase 0) 256)
/-- Its convoy. -/
def vOf (s : State) : Convoy := (tget s.convoys 15).getD cv
/-- The first lane. -/
def l0 : Ln := ⟨0, 10, fib 0⟩
/-- A guard that no lane passes. -/
def gNone : Ctl := { g := ⟨false, 1⟩ }

theorem witness_IntTwoOperand32 : base.goes 15 cv {} (vregs (.v 1) false ++ bregs (.src (.b 2)) false ++ dregs (.v 3) false)
    (vlatches (.v 1) ++ blatches (.src (.b 2))) := by unfold State.goes; decide
theorem witness_IntTwoOperand64 : base.goes 15 cv {} (vregs (.v 2) true ++ bregs (.src (.v 6)) true ++ dregs (.v 4) true) [] ∧
    base.goes 15 cv {} (vregs (.v 2) true ++ bregs (.src (.v 7)) false ++ dregs (.v 4) true) [] := by unfold State.goes; decide
theorem witness_IntOneOperand : base.goes 15 cv {} (vregs (.v 1) false ++ dregs (.v 39) false) [] ∧
    base.goes 15 cv {} (vregs (.v 2) true ++ dregs (.v 38) true) [] ∧ base.goes 15 cv {} (vregs (.v 2) true ++ dregs (.v 5) false) [] := by
  unfold State.goes; decide
theorem witness_IntOtherForms : base.goes 15 cv {} (vregs (.v 1) false ++ bregs (.imm 3) false ++ vregs (.v 2) false ++ dregs (.v 3) false) [] ∧
    base.goes 15 cv {} (vregs (.v 2) true ++ bregs (.imm 3) true ++ vregs (.v 4) true ++ dregs (.v 6) true) [] ∧
    (∀ w, base.goes 15 cv {} (vregs (.v 2) w ++ vregs (.v 1) false ++ vregs (.v 7) false ++ dregs (.v 4) w) []) ∧
    (∀ w, base.goes 15 cv {} (vregs (.v 2) w ++ vregs (.v 6) w ++ dregs (.v 4) w) []) ∧
    (∀ w, base.goes 15 cv {} (dregs (.b 1) w) []) ∧ (∀ w, base.goes 15 cv {} (vregs (.v 2) w ++ bregs (.imm 40) w) []) := by
  unfold State.goes; decide
theorem witness_BitFields : 31 < 32 ∧ 3 ≤ 31 ∧ 31 < 3 + 40 := by decide
theorem witness_FloatForms : base.goes 15 cv {} (vregs (.v 1) false ++ vregs (.s 2) false ++ dregs (.v 3) false) [] ∧
    base.goes 15 cv {} (vregs (.v 1) false ++ vregs .lit false ++ vregs (.v 2) false ++ dregs (.v 3) false) [] ∧
    base.goes 15 cv {} (vregs (.v 1) false ++ vregs (.v 2) false) [] := by unfold State.goes; decide
theorem witness_FloatUnary : base.goes 15 cv {} (vregs (.b 3) false ++ dregs (.v 3) false) (vlatches (.b 3)) := by unfold State.goes; decide
theorem witness_Conversions : base.goes 15 cv {} (vregs (.v 2) (cvtSrc64 .s64_f32) ++ dregs (.v 4) (cvtDst64 .s64_f32)) [] ∧
    base.goes 15 cv {} (vregs (.v 1) false ++ vregs (.s 2) false ++ dregs (.v 9) false) [] := by unfold State.goes; decide
theorem witness_LaneFormFrame : laneForm (.iadd { c := {}, d := .v 3, a := .v 1, b := .imm 1 }) =
      some ⟨{}, [⟨1, 1, false⟩], [], false, .v 3, 1⟩ ∧
    LaneForm.goes ⟨{}, [⟨1, 1, false⟩], [], false, .v 3, 1⟩ base 15 cv ∧
    crossRegs (.shfl { c := {}, d := .v 3, a := .v 1, b := .s 1, mode := .swap, grp := 0 }) = vregs (.v 1) false ∧
    base.rangesHeld (coreOf cv.spn) (base.otherRanges cv (vregs (.v 1) false)) = false := by unfold LaneForm.goes State.goes; decide
theorem witness_RetireWrites : ((([(l0, 1, 0), (⟨1, 11, fib 1⟩, 2, 0)] : List (Ln × DWord × BitVec 8)).map fun x => x.1.f.reg 3).Nodup) ∧
    ((([(l0, 1, 0), (⟨1, 11, fib 1⟩, 2, 0)] : List (Ln × DWord × BitVec 8)).flatMap fun x => [x.1.f.reg 4, x.1.f.reg 5]).Nodup) ∧
    ((([(l0, 1, 0), (⟨1, 11, fib 1⟩, 2, 0)] : List (Ln × DWord × BitVec 8)).map fun x => x.1.pos).Nodup) ∧
    tget base.convoys 15 = some cv := by decide
theorem witness_CompareFrame : tget base.convoys 15 = some cv ∧ ((base.active cv {}).map (·.id)).Nodup ∧ tget base.fibres l0.id = some l0.f := by
  decide

/-! ## Cross-lane forms and local memory -/

def cmpst : CmpstOp := { c := {}, sd := 44, a := .v 2, ks := 2, so := .s 20, off := 0 }
def ldSpad : LdOp := { c := {}, d := .v 7, sz := .b32, addr := { space := .ks 2, off := some (.v 4), disp := 2 } }
def stWin : StOp := { c := {}, a := .v 1, sz := .b64, addr := { space := .win, disp := 4 } }
def ldkUni : LdkOp := { c := {}, ud := true, d := 5, addr := { space := .ks 2, disp := 1 } }
def stkUni : StkOp := { c := {}, us := true, a := 2, addr := { space := .ks 2, disp := 3 } }
def atomOp : AtomOp := { c := {}, d := .v 3, a := .v 1, w64 := false, addr := { space := .ks 2 } }

theorem witness_CrossLane : base.rangesHeld (coreOf cv.spn) (base.otherRanges cv (vregs (.v 1) false)) = false ∧ base.goes 15 cv {} (vregs (.v 1) false ++ vregs (.s 2) false ++ dregs (.v 3) false) [] ∧
    base.goes 15 cv {} [] [] ∧ base.goes 15 cv {} (vregs (.v 1) false) [] ∧ (base.active cv {}).head? = some l0 ∧
    base.goes 15 cv gNone (vregs (.v 1) false) [] ∧ (base.active cv gNone.g).head? = none := by unfold State.goes; decide
theorem witness_CrossLane_cmpst : (let s := spad; let v := vOf s; let k := v.u.rdK 2; let act := s.active v {}
    s.goes 15 v {} (vregs (.v 2) false) [] ∧
    s.rangesHeld (coreOf v.spn) (act.mapIdx fun n _ => (k.lo + 0 + 4 * n, k.lo + 0 + 4 * n + 4, true)) = false ∧
    s.logRoom (linesOf (k.lo + 0) (4 * act.length)) v.spn 0 = true ∧ (s.cmpstWords 15 v k 0 (act.map fun l => (l.pos, 0)) 0).2 = true ∧
    s.goes 15 v {} (dregs (.v 9) false) [] ∧ act ≠ [] ∧
    misaligned (k.lo + 8) 4 (s.scratch (coreOf v.spn) (s.colourOf v) k 8 (4 * act.length) permLd) = none ∧
    s.rangesHeld (coreOf v.spn) [(k.lo + 8, k.lo + 8 + 4 * act.length, false)] = false) := by unfold State.goes; decide
theorem witness_LoadStore : (let s := spad; let v := vOf s
    let r := (s.active v {}).map fun l => s.laneAcc v (s.colourOf v) ldSpad.addr.space l (s.offsetOf v l 0 ldSpad.addr 4) 4 permLd
    let q := (s.active v {}).map fun l => s.laneAcc v (s.colourOf v) stWin.addr.space l (s.offsetOf v l 0 stWin.addr 8) 8 permSt
    s.goes 15 v {} (ldRegs ldSpad.d ldSpad.sz ++ aregs ldSpad.addr) (alatches ldSpad.addr) ∧ (∀ x ∈ r, x.bad = none) ∧
    s.rangesHeld (coreOf v.spn) (accRanges r 4 false) = false ∧
    s.goes 15 v {} (stRegs stWin.a stWin.sz ++ aregs stWin.addr) (vlatches stWin.a ++ alatches stWin.addr) ∧ (∀ x ∈ q, x.bad = none) ∧
    s.rangesHeld (coreOf v.spn) (accRanges q 8 true) = false ∧ s.logRoom (q.flatMap fun x => linesOf x.a 8) v.spn 0 = true) := by
  unfold State.goes; decide
theorem witness_LoadStore_cap : (let s := spad; let v := vOf s
    let r := ((s.active v {}).take 1).map fun l => s.laneAcc v (s.colourOf v) ldkUni.addr.space l (s.offsetOf v l 0 ldkUni.addr 16) 16 permLd
    let q := (s.active v {}).map fun l => s.laneAcc v (s.colourOf v) stkUni.addr.space l (s.offsetOf v l 0 stkUni.addr 16) 16 permSt
    s.goes 15 v {} ([] ++ aregs ldkUni.addr) (alatches ldkUni.addr) ∧ (∀ x ∈ r, x.bad = none) ∧
    s.rangesHeld (coreOf v.spn) (accRanges r 16 false) = false ∧ s.goes 15 v {} ([] ++ aregs stkUni.addr) (alatches stkUni.addr) ∧
    (∀ x ∈ q, x.bad = none) ∧ s.rangesHeld (coreOf v.spn) (accRanges q 16 true) = false ∧
    s.logRoom (q.flatMap fun x => linesOf x.a 16) v.spn 0 = true) := by unfold State.goes; decide
/-- `spad` at the last word of the clause. -/
def spadEnd : State := spad.modConvoy 15 fun v => { v with wi := 3 }
theorem witness_LocalAtomics : (let s := spadEnd; let v := vOf s
    let r := (s.active v {}).map fun l => s.laneAcc v (s.colourOf v) atomOp.addr.space l (s.offsetOf v l 0 atomOp.addr 4) 4
      (permLd ||| permSt ||| permAtom)
    s.goesEnd 15 v {} (dregs atomOp.d false ++ atomRegs .add false atomOp.a ++ aregs atomOp.addr) [] 1 ∧ (∀ x ∈ r, x.bad = none) ∧
    s.rangesHeld (coreOf v.spn) (accRanges r 4 true) = false ∧
    s.logRoom (r.flatMap fun x => linesOf x.a 4) v.spn (s.active v {}).length = true) := by unfold State.goesEnd State.goes; decide
theorem witness_LocalAtomics_cas : (5 : Word) = 5 ∧ (5 : Word) ≠ 6 := by decide

/-! ## Waits -/

/-- A wait of wsig on the first word of the scratchpad range. -/
def wsigWait (v : Word) : WsigWait := { addr := spadBase 0, remote := none, cc := .eq, v := v, acq := false, q := 1, tmo := 1, since := 0, words := 1 }
def held (w : Wait) : State := withCv fun v => { v with wait := w }
def busy : State := { base with fibres := [(10, { fib 0 with cnt := { enm := 5 } }), (11, fib 1)] }

theorem witness_Waits : base.goes 15 cv gNone [] [] ∧ base.active cv gNone.g = [] ∧ base.goes 15 cv {} [] [] ∧ base.active cv {} ≠ [] ∧
    (held (.fence .core 1)).mover 15 = some { cv with wait := .fence .core 1 } ∧
    tget (held (.access 0 [(0, 4, true)])).convoys 15 = some { cv with wait := .access 0 [(0, 4, true)] } ∧
    (held (.access 0 [(0, 4, true)])).rangesHeld (coreOf 0) [(0, 4, true)] = false := by unfold State.goes; decide
theorem witness_Waits_wsig : (let s := spad; let v := vOf s; let k := v.u.rdK 2
    s.goes 15 v {} [] [] ∧ k.remote = none ∧ s.useCause (s.colourOf v) k {} permLd false 0 4 = none ∧ (k.lo + 0) % 4 = 0 ∧
    s.counter v .enm ≤ 0 ∧ s.hasRef v .enm = false ∧ 4 < busy.counter cv .enm ∧ busy.goes 15 cv {} [] []) := by unfold State.goes; decide
theorem witness_Waits_reread : (let s := held (.wsig (wsigWait 0))
    s.mover 15 = some { cv with wait := .wsig (wsigWait 0) } ∧ s.awaits [(spadBase 0, 4)] [] = none ∧ (let r := s.readWord { plainAgent (s.colourOf cv) with wg := some 20 } .rd (spadBase 0) 4
     wccHolds .eq (BitVec.ofNat 32 r.2.1) 0 = true ∧ wccHolds .eq (BitVec.ofNat 32 r.2.1) 1 = false)) ∧
    0 + 2 ^ ((1 : BitVec 4).toNat + 9) ≤ ({ base with clk := [(0, 2000)] } : State).now (dieOf 0) := by decide
theorem witness_Waits_release : (held (.waitc .enm 0)).mover 15 = some { cv with wait := .waitc .enm 0 } ∧
    (held (.waitc .enm 0)).counter { cv with wait := .waitc .enm 0 } .enm ≤ 0 ∧
    (held (.waitc .enm 0)).hasRef { cv with wait := .waitc .enm 0 } .enm = false := by decide

/-! ## Capabilities -/

/-- `spad` with a capability in k1 of lane 0 as well. -/
def kLane : State := spad.wrK (fib 0) 1 (cap kindData kAll (spadBase 0) 256)
theorem witness_CapForms : (let s := kLane; let v := vOf s
    s.goes 15 v {} (capRegs false false 1 ++ capInt false (.v 8) true ++ capInt false (.v 10) true ++ capDst false 3)
      (capLat false (.v 8) ++ capLat false (.v 10)) ∧
    s.goes 15 v {} (capRegs true false 2 ++ capInt true (.s 20) true ++ capInt true (.s 22) true ++ capDst true 5)
      (capLat true (.s 20) ++ capLat true (.s 22)) ∧
    s.goes 15 v {} (capRegs false true 2 ++ capInt false (.v 8) false ++ capDst false 3) (capLat false (.v 8)) ∧
    s.goes 15 v {} (capRegs false true 2 ++ capRegs false true 3 ++ capInt false (.v 8) false ++ capDst false 3) (capLat false (.v 8)) ∧
    s.goes 15 v {} (capRegs true false 2 ++ capRegs true false 3 ++ capDst true 3) [] ∧ s.goes 15 v {} (capDst false 3) [] ∧
    s.goes 15 v {} (capRegs false false 1) [] ∧ s.goes 15 v {} (capRegs false false 1 ++ dregs (.v 8) true) [] ∧ s.goes 15 v {} [] []) := by
  unfold State.goes; decide
def cdeleg : CdelegOp := { c := {}, uf := true, ua := false, d := 5, kb := 2, ksrc := 2, kdst := 2, blk := 1, xq := 8 }
theorem witness_CapForms_cdeleg : (let s := spad; let v := vOf s
    let r := ((s.active v {}).take 1).map fun l =>
      let kb := s.capOf v l true cdeleg.kb
      let off := 64 * (cdeleg.blk.toNat + 0)
      (⟨l, kb.lo + off, kb, misaligned (kb.lo + off) 64
        (s.scratch (coreOf v.spn) (s.colourOf v) kb off 64 (permSt ||| permStk ||| permDeleg))⟩ : LaneAcc)
    s.goes 15 v {} ([] ++ capDst true cdeleg.d) [] ∧ (∀ x ∈ r, x.bad = none) ∧ s.rangesHeld (coreOf v.spn) (accRanges r 64 true) = false ∧
    s.logRoom (r.flatMap fun x => linesOf x.a 64) v.spn 0 = true) := by unfold State.goes; decide
/-- A source of R230, and the results of a csub and a cperm of it; a sealing and a sealed capability. -/
def kData : Cap := cap kindData kAll 0x10_0000 4096
def kSealed : Cap := mkCap kindData true 0x47 1 0 kAll 0x10_0000 4096
theorem witness_DerivationsNarrow : kData.Wf ∧ (base.csub kData 64 128 false).tag = true ∧ (base.cperm kData 3).tag = true ∧
    (base.cseal 1 kData (cap kindData kAll 0 4096) 0x47).tag = true ∧ (base.cbale kData 5).tag = true ∧ kSealed.Wf ∧
    (base.cunseal 1 kSealed (cap kindData kAll 0 4096)).tag = true := by unfold Cap.Wf; decide

/-! ## Engine instructions -/

/-- A command capability whose OTYPE names a near-memory update. -/
def kNmc : Cap := mkCap kindCmd true 5 1 0 kAll 0x2_0000 64
theorem witness_EngineCopies : base.goes 15 cv {} [] [] ∧ base.goes 15 cv {} (vregs (.v 1) false) [] ∧
    base.engineGoes cv .ecp (.cpy kData kData 0 64 16) ∧ base.engineGoes cv .ecp (.block (cap kindCmd kAll 0x2_0000 64) none) ∧
    (cap kindCmd kAll 0x2_0000 64).otype.toNat < 5 ∧ base.engineGoes cv .ecp (.block kNmc none) ∧ kNmc.remote = none ∧ kNmc.otype.toNat = 5 ∧
    base.freshEvents cv ∧
    base.engineGoes cv .egs (.gather kData kData 0 0 4 .e4 [(0, 1), (1, 2)]) ∧
    base.engineGoes cv .egs (.scatter kData kData 0 0 4 .e4 [(0, 1), (1, 2)]) ∧
    base.engineGoes cv .ecp (.stage kData 0 false) ∧ base.engineGoes cv .ecp (.wb kData 0 128 false) := by
  unfold State.goes State.engineGoes State.freshEvents; decide
theorem witness_EngineMatrix : base.goes 15 cv {} [] [] ∧
    base.engineGoes cv .emx (.mma .t8 false 2 kData kData (List.replicate 8 0)) ∧
    base.engineGoes cv .emx (.mmac .e4m3 false 1 0 kData (List.replicate 8 0)) ∧ base.engineGoes cv .emx (.aclr 0) ∧
    base.engineGoes cv .emx (.ald 0 kData (List.replicate 8 0)) ∧ base.engineGoes cv .emx (.ast kData 1 (List.replicate 8 0) .f32) ∧
    base.engineGoes cv .emx (.sacc 0 1 0 false) ∧ base.engineGoes cv .emx (.saccV 0 1 kData 0 true) := by
  unfold State.goes State.engineGoes; decide
/-- `base` at the last word of the clause, and with one active lane. -/
def baseEnd : State := withCv fun v => { v with wi := 3 }
def oneEnd : State := { (withCv fun v => { v with wi := 3, fib := [some 10, none, none, none] }) with fibres := [(10, fib 0)] }
def cvOne : Convoy := { cvEnd with fib := [some 10, none, none, none] }
def gatm : GatmOp := { c := {}, d := .v 3, k := 2, o := .v 1, a := .v 2, fn := .add, w64 := false }
def gatmCmd (s : State) (v : Convoy) : CmdOp := .gatm kData .add false false (.v 3) (s.gatmLanes v (s.active v {}) gatm)
theorem witness_EngineRemote : base.goes 15 cv {} [] [] ∧ base.engineGoes cv .ecl (.clx kData kData 0 0 128 0 .sum false) ∧
    base.engineGoes cv .enm (.nmc kData kData 0 0 64 0 0 .fill) ∧ base.freshEvents cv ∧
    baseEnd.goesEnd 15 cvEnd {} [] [] 1 ∧ baseEnd.engineGoes cvEnd .eat (.sig kData 0 1 true none) ∧ baseEnd.freshEvents cvEnd := by
  unfold State.goesEnd State.goes State.engineGoes State.freshEvents; decide
theorem witness_EngineRemote_gatm : oneEnd.goesEnd 15 cvOne {} (dregs (.v 3) false ++ vregs (.v 1) false ++ atomRegs .add false (.v 2)) [] 1 ∧
    oneEnd.engineGoes cvOne .eat (gatmCmd oneEnd cvOne) ∧
    (gatmEvents false (.v 3) oneEnd cvOne (oneEnd.active cvOne {}) (gatmCmd oneEnd cvOne)).isSome = true ∧ oneEnd.active cvOne {} = [l0] ∧
    oneEnd.lookup l0.f = none ∧ tget oneEnd.fibres l0.id = some l0.f := by unfold State.goesEnd State.goes State.engineGoes; decide
theorem witness_RevokeCatches : (let s := spad; let v := vOf s
    s.goes 15 v {} [] [] ∧ s.capCause (s.colourOf v) (v.u.rdK 2) { kinds := [kindData], perms := permDeleg } 0 0 = none ∧
    (s.rev.entries.filter fun e => e.owner.isNone).length < revokeEntries) := by unfold State.goes; decide
theorem witness_AcceptFrame : (let m := base.newCmd 15 cv .ecp true (.cpy kData kData 0 64 16) []
    m.fibres.Nodup ∧ 10 ∈ m.fibres ∧ tget base.fibres 10 = some (fib 0) ∧ (3 : Nat) ≠ base.ids) := by decide

/-! ## Control -/

theorem witness_Branches : base.goes 15 cv {} [] [] ∧ tget base.wgs cv.wg = some wg ∧
    (∀ x ∈ (base.active cv {}).map fun l => (l, (0x10028 : Addr)), x.1.f.depth < 256) ∧
    (base.sp 0).frames + (((base.active cv {}).map fun l => (l, (0x10028 : Addr))).filter fun x => x.1.f.needsFrame).length ≤ framePool := by
  unfold State.goes; decide
/-- ks1 is a CODE capability over the workgroup's range; brx names it at unit 5. -/
def codeState : State := setS (base.wrKs 15 1 (cap kindCode permExec 0x10000 0x80)) 20 5
def brxUni : BrxOp := { c := {}, uf := true, k := 1, o := .s 20 }
theorem witness_Branches_brx : (let s := codeState; let v := vOf s
    s.goes 15 v brxUni.c [] [] ∧ tget s.wgs v.wg = some wg ∧
    s.brxLanes v brxUni wg.ranges (s.active v {}) =
      .ok ((s.active v {}).map fun l => (l, (0x10028 : Addr)), [(0x10000, 0x80)])) := by unfold State.goes; decide
theorem witness_Branches_ret : (let s : State := { base with fibres := [(10, { fib 0 with rstk := [0x10028] }), (11, { fib 1 with rstk := [0x10028] })] }
    s.goes 15 cv {} [] [] ∧ ∀ l ∈ s.active cv {}, l.f.depth ≠ 0) := by unfold State.goes; decide
theorem witness_NoSplitWhereTargetsAgree : tget base.convoys 15 = some cv ∧ (base.lanes cv).map (fun l => (l, (0x10028 : Addr))) ≠ [] ∧
    (∀ x ∈ (base.lanes cv).map (fun l => (l, (0x10028 : Addr))), x.2 = 0x10028 ∧ x.1.pos < cv.positions) := by decide
theorem witness_ReturnStack : ({ fib 0 with rstk := [1, 2, 3, 4], frames := [5] } : Fibre).rstk.length ≤ 4 ∧
    ({ fib 0 with rstk := [], frames := [5] } : Fibre).depth ≠ 0 := by decide
/-- `base` with world 1 standard under a debugger whose token grants READ and HALT. -/
def world (m : WorldMode) : World := { vd := 1, mode := m, ranges := [(0, 0x40_0000, false, false)], ctab := 0x4_0000 }
def debugged : State := { base with worlds := [(1, world .standard)], mgmt := { hyp := 2, token := some 5 } }
theorem witness_FibreControl : base.goes 15 cv {} (dregs (.v 3) false) [] ∧ base.goes 15 cv {} [] [] ∧ base.refOf cv allCls = none ∧
    tget base.wgs cv.wg = some wg ∧ base.goes 15 cv gNone [] [] ∧ base.active cv gNone.g = [] ∧ base.haltHeld (base.colourOf cv) = false ∧
    0x800 ≤ (0x800 : BitVec 12).toNat ∧ (0x7FF : BitVec 12).toNat < 0x800 ∧ (base.active cv {}).head? = some l0 ∧
    debugged.goes 15 cv {} [] [] ∧ debugged.haltHeld (debugged.colourOf cv) = true := by unfold State.goes; decide
/-- A `.die` slot of the launch. -/
def barState : State := { base with
  launches := [(30, { la with slots := [(0, false, 3)] })]
  bars := [(3, { scope := .die, join := 0, colour := 1, p := 2, launches := [30] })] }
theorem witness_WindowsAndBarriers : base.goes 15 cv {} [] [] ∧ (∀ l ∈ base.active cv {}, l.f.wbase + l.f.wsize + 8 ≤ 256) ∧
    (base.growAll 8 [10, 11]).2 = [] ∧ (∀ l ∈ base.active cv {}, 32 + 8 ≤ l.f.wsize) ∧ base.goes 15 cv {} (vregs (.v 1) false) [] ∧
    takeIndices (base.indicesHeld 20) (base.active cv {}) = .ok [(l0, 2), (⟨1, 11, fib 1⟩, 3)] ∧
    (base.spawnAll cv 8 0x10028 [(0, 2, 0), (1, 3, 0)]).2 = [] ∧ barState.goes 15 cv {} [] [] ∧
    ((barState.barSlot cv .die 0).map fun x => (x.1, x.2.broken)) = some (3, false) ∧ barState.freshEvents cv := by
  unfold State.goes State.freshEvents; decide

/-! ## Queues -/

/-- ks3 is a queue of 4 slots at 0x2_0000 with this header (CAP, RSV, TAIL, CRSV, HEAD), ks2 the scratchpad range. -/
def queue (h : List Nat) : State := (spad.wrKs 15 3 (cap kindQueue kAll 0x2_0000 320)).wrBytes 0x2_0000 (h.flatMap fun n => leBytes 4 n)
/-- The same at the last word of the clause. -/
def queueEnd (h : List Nat) : State := (queue h).modConvoy 15 fun v => { v with wi := 3 }
def pushWait (s : State) (nb : Bool) : QueueWait := { push := true, nb := nb, launch := false, kq := (vOf s).u.rdK 3, kr := (vOf s).u.rdK 2,
                                                      off := 0, n := 1, q := some 1, words := 1 }
def launchWait (s : State) : QueueWait := { pushWait s false with launch := true, n := 4, q := none }
def popWait (s : State) (nb : Bool) : QueueWait := { pushWait s nb with push := false, n := 0 }
theorem witness_QueueInstructions_push : (let s := queueEnd [4, 0, 0, 0, 0]; let v := vOf s
    s.goesEnd 15 v {} [] [] 1 ∧ s.freshEvents v ∧
    s.rangesHeld (coreOf v.spn) [((pushWait s true).kr.lo, (pushWait s true).kr.lo + 64, false)] = false ∧ (pushWait s true).kq.remote = none ∧
    s.pushRoom v (pushWait s true) ∧ s.pushRoom v (launchWait s)) := by
  unfold State.goesEnd State.goes State.freshEvents State.pushRoom State.pushReach; decide
theorem witness_QueueInstructions_full : (let s := queueEnd [4, 4, 4, 0, 0]; let v := vOf s; let x := pushWait s true
    s.goesEnd 15 v {} [] [] 1 ∧ s.freshEvents v ∧ s.pushReach v x ∧ x.n ≤ (s.qhdr x.kq.lo).cap ∧ (s.qhdr x.kq.lo).room x.n = false) := by
  unfold State.goesEnd State.goes State.freshEvents State.pushReach; decide
theorem witness_QueueInstructions_empty : (let s := queue [4, 0, 0, 0, 0]; let v := vOf s; let z := popWait s true
    s.goes 15 v {} [] [] ∧ ((s.lanes v).head?.bind fun l => s.poppedBefore l.f) = none ∧ z.kq.remote = none ∧
    s.queueCause (s.colourOf v) z.kq (permLd ||| permSt) 0 64 = none ∧ s.headerLost (s.colourOf v) z.kq.lo = false ∧ s.headerBad z.kq.lo = false ∧
    (s.qhdr z.kq.lo).crsv = (s.qhdr z.kq.lo).tail ∧ s.queueCause (s.colourOf v) z.kq permLd 0 64 = none ∧ s.awaits [(z.kq.lo, 64)] [] = none) := by
  unfold State.goes; decide
theorem witness_QueueInstructions_record : (let s := (queue [4, 1, 1, 0, 0]).wrBytes 0x2_0040 [0x02]
    let v := vOf s; let z := popWait s true
    let h := s.qhdr z.kq.lo; let f := s.found z.kq.lo
    h.crsv ≠ h.tail ∧ h.head = h.crsv ∧ f.cause = 0 ∧ f.skip = false ∧
    s.awaits [(slotAddr z.kq.lo (h.crsv % h.cap), 64 * f.m)] [(z.kq.lo, 64), (z.kr.lo + z.off, 64 * f.m)] = none ∧
    s.queueCause (s.colourOf v) z.kq (permLd ||| permSt) (slotAddr z.kq.lo (h.crsv % h.cap) - z.kq.lo) (64 * min f.m (h.cap - h.crsv % h.cap)) = none ∧
    s.logRoom (linesOf z.kq.lo 64 ++ linesOf (z.kr.lo + z.off) (64 * f.m)) v.spn ((s.lanes v).length * (1 + 2 * f.m)) = true ∧
    s.rangesHeld (coreOf v.spn) [(z.kr.lo + z.off, z.kr.lo + z.off + 64 * f.m, true)] = false) := by decide

/-! ## System registers and loops -/

theorem witness_SystemAndLoops : base.goes 15 cv {} (dregs (.v 3) false) [] ∧ base.active cv {} ≠ [] ∧ privCause (base.hostView cv) false 3 = none ∧
    sysReg 3 = some .fpstat ∧ base.goes 15 cv {} (vregs (.v 2) false) [] ∧ (base.active cv {}).head? = some l0 ∧
    privCause (base.hostView cv) true 3 = none ∧ privCause (base.hostView cv) true 4 = none ∧ sysReg 4 = some .bwphase := by
  unfold State.goes; decide
theorem witness_SystemAndLoops_rep : (let s := base.wrBytes 0x10010 (leBytes 8 0x0E80_0B00_4000_0000)
    s.goes 15 cv {} [] [] ∧ tget s.wgs cv.wg = some wg ∧
    s.fetchWords wg (cv.hdr + 8 * (2 + cv.wi)) (cv.words - (cv.wi + 1)) = [0x0E80_0B00_4000_0000, 0, 0] ∧
    repMisuse { bt := .dyn, cnt := 3, std := 1, sta := 0, stb := 0, stc := 0 } 0x0E80_0B00_4000_0000 0 = false) := by unfold State.goes; decide
/-- Three elements of accadd.f32, one done. -/
def nest : LnestOp := { bt := .dyn, fn := .accadd, ty := .f32, kd := 2, od := 20, ka := 2, oa := 21, kb := 0, ob := 0, levels := [⟨2, 1, 1, 0⟩] }
theorem witness_SystemAndLoops_lnest : (let s := setS spad 21 128; let v := vOf s
    let d := s.lnAcc v (v.u.rdK 2) (0 + 4) 4 (permLd ||| permSt); let a := s.lnAcc v (v.u.rdK 2) (128 + 4) 4 permLd
    s.goes 15 v {} [] [] ∧ d.2 = none ∧ a.2 = none ∧
    s.rangesHeld (coreOf v.spn) [(d.1, d.1 + 4, true), (a.1, a.1 + 4, false)] = false ∧ s.logRoom (linesOf d.1 4) v.spn 0 = true) := by
  unfold State.goes; decide

/-! ## Decoding and the step -/

theorem witness_DecodeOfEncode : (Instr.movOp { c := {}, d := .v 22, a := .v 1 }).isWord = true ∧
    WellFormed (.movOp { c := {}, d := .v 22, a := .v 1 }) := by unfold WellFormed; decide
theorem witness_EncodeOfDecode : decode 0x7500000000000000 [] = .ok (.nopOp {}) 1 ∧ 1 - 1 ≤ ([] : List DWord).length := by decide
/-- `base` before the choice of a convoy. -/
def ready : State := { base with cur := none }
theorem witness_StepRunsDecoded : ready.ev = [] ∧ ready.own = false ∧ ready.tick.pick = some (15, cv) ∧ cv.wait = .run ∧ cv.rep = none ∧
    tget (ready.tick.chosen 15 cv).wgs cv.wg = some wg ∧
    (ready.tick.chosen 15 cv).fetchWords wg (cv.hdr + 8 * (1 + cv.wi)) (cv.words - cv.wi) = [0x7500_0000_0000_0000, 0, 0, 0] ∧
    decode 0x7500_0000_0000_0000 [0, 0, 0] = .ok (.nopOp {}) 1 ∧ ({ ready with ev := [.pcieLinkUp] } : State).ev = .pcieLinkUp :: [] := by decide
/-- A reserved binding time in the first word; and a workgroup without code ranges. -/
def illegal : State := ready.wrBytes 0x10008 (leBytes 8 0x7530_0000_0000_0000)
def unfetchable : State := { ready with wgs := [(20, { wg with ranges := [] })] }
theorem witness_StepTrapsIllegal : illegal.own = false ∧ unfetchable.own = false ∧ illegal.tick.pick = some (15, cv) ∧
    (illegal.tick.chosen 15 cv).fetchWords wg (cv.hdr + 8 * (1 + cv.wi)) (cv.words - cv.wi) = [0x7530_0000_0000_0000, 0, 0, 0] ∧
    decode 0x7530_0000_0000_0000 [0, 0, 0] = .illegal 0x011 ∧ unfetchable.tick.pick = some (15, cv) ∧
    (unfetchable.tick.chosen 15 cv).fetchWords { wg with ranges := [] } (cv.hdr + 8 * (1 + cv.wi)) (cv.words - cv.wi) = [] := by decide
/-- A reserved binding time in a word that would end its region, before a clause with RE, before one without, and before none. -/
def endCv : Convoy := { cv with wi := 3 }
def illegalEnd (ok : Bool) : State :=
  let s : State := ({ ready with convoys := [(15, endCv)] } : State).wrBytes 0x10020 (leBytes 8 0x4130_0000_0000_0000)
  if ok then s else s.wrBytes 0x10028 (leBytes 8 0xFE3F_C000_0800_0000)
theorem witness_StepTrapsIllegal_end : (illegalEnd true).own = false ∧ (illegalEnd false).own = false ∧ endCv.wait = .run ∧ endCv.rep = none ∧
    (illegalEnd true).tick.pick = some (15, endCv) ∧ (illegalEnd false).tick.pick = some (15, endCv) ∧
    ((illegalEnd true).tick.chosen 15 endCv).fetchWords wg (endCv.hdr + 8 * (1 + endCv.wi)) (endCv.words - endCv.wi) = [0x4130_0000_0000_0000] ∧
    ((illegalEnd false).tick.chosen 15 endCv).fetchWords wg (endCv.hdr + 8 * (1 + endCv.wi)) (endCv.words - endCv.wi) = [0x4130_0000_0000_0000] ∧
    decode 0x4130_0000_0000_0000 [] = .illegal 0x011 ∧ (decodeAll 0x4130_0000_0000_0000 []).1.val.endsRegion = true ∧ (decodeAll 0x4130_0000_0000_0000 []).2 = 1 ∧
    ((illegalEnd true).tick.chosen 15 endCv).fallBad endCv 1 = none ∧
    ((illegalEnd false).tick.chosen 15 endCv).fallBad endCv 1 = some { cls := 0x01, code := 0x004 } := by decide
theorem witness_StepTrapsIllegal_last : (let s := { illegalEnd true with wgs := [(20, { wg with ranges := [(0x10000, 0x28)] })] }
    s.own = false ∧ s.tick.pick = some (15, endCv) ∧
    (s.tick.chosen 15 endCv).fetchWords { wg with ranges := [(0x10000, 0x28)] } (endCv.hdr + 8 * (1 + endCv.wi)) (endCv.words - endCv.wi) = [0x4130_0000_0000_0000] ∧
    ((s.tick.chosen 15 endCv).fallBad endCv 1).map (·.cls) = some 0x03) := by decide
theorem witness_StepKeepsStore : State.reset.storeWf = true ∧ base.storeWf = true := by decide
theorem witness_StepNeverStops : State.reset.eventsOnly = true ∧ ({ ready with ev := [.pcieLinkDown] } : State).eventsOnly = true := by decide
theorem witness_WriteThenRead : 0x40 % 16 = 0 ∧ ((0x3F : Addr) < 0x40 ∨ 0x40 + 4 ≤ (0x3F : Addr)) := by decide
theorem witness_StoreFrame : (let s := spad; let v := vOf s
    let r := (s.active v {}).map fun l => s.laneAcc v (s.colourOf v) stWin.addr.space l (s.offsetOf v l 0 stWin.addr 8) 8 permSt
    let q := (s.active v {}).map fun l => s.laneAcc v (s.colourOf v) stkUni.addr.space l (s.offsetOf v l 0 stkUni.addr 16) 16 permSt
    s.goes 15 v {} (stRegs stWin.a stWin.sz ++ aregs stWin.addr) (vlatches stWin.a ++ alatches stWin.addr) ∧ (∀ x ∈ r, x.bad = none) ∧
    s.rangesHeld (coreOf v.spn) (accRanges r 8 true) = false ∧ s.logRoom (r.flatMap fun x => linesOf x.a 8) v.spn 0 = true ∧
    s.goes 15 v {} ([] ++ aregs stkUni.addr) (alatches stkUni.addr) ∧ (∀ x ∈ q, x.bad = none) ∧
    s.rangesHeld (coreOf v.spn) (accRanges q 16 true) = false ∧ s.logRoom (q.flatMap fun x => linesOf x.a 16) v.spn 0 = true) := by
  unfold State.goes; decide

/-! ## Traps -/

theorem witness_TrapReplays : tget base.convoys 15 = some cv ∧ tget base.wgs cv.wg = some wg ∧
    base.lanes cv = [l0, ⟨1, 11, fib 1⟩] ∧ (∀ m ∈ base.lanes cv, m.f.replay < 3) := by decide
theorem witness_TrapAborts : tget base.convoys 15 = some cv ∧ tget base.wgs cv.wg = some wg ∧ cv.wait = .run ∧
    ({ cls := clsIllegal, code := 0x010 } : TrapInfo).replay = false ∧ tget base.launches wg.launch = some la := by decide
def ldWin (off : VSrc) : LdOp := { c := {}, d := .v 7, sz := .b64, addr := { space := .win, off := some off } }
theorem witness_FormsTrap : base.cur = some 15 ∧ tget base.convoys 15 = some cv ∧
    laneForm (.movOp { c := {}, d := .v 3, a := .b 1 }) = some ⟨{}, [], [1], false, .v 3, 1⟩ ∧ latchBad { cv with latw := 0 } [1] = true ∧
    latchBad cv [1] = false ∧ windowBad (base.active cv {}) (vregs (.v 40) false) = some 0 ∧
    base.goes 15 cv {} (dregs (.v 3) false) [] ∧ (base.active cv {}).head? = some l0 ∧ privCause (base.hostView cv) false 0x400 = some 0x030 ∧
    base.goes 15 cv {} (vregs (.v 2) false) [] ∧ privCause (base.hostView cv) true 0 = some 0x031 := by unfold State.goes; decide
theorem witness_FormsTrap_ld : (let s := setV base 4 12
    s.goes 15 cv {} (ldRegs (.v 6) .b64 ++ aregs (ldWin (.v 4)).addr) [] ∧
    (l0.f.reg 0 + s.offsetOf cv l0 0 (ldWin (.v 4)).addr 8) % 8 ≠ 0 ∧ s.offsetOf cv l0 0 (ldWin (.v 4)).addr 8 + 8 ≤ 4 * l0.f.wsize) := by
  unfold State.goes; decide
theorem witness_PrivilegeByView : privCause false true 3 = none ∧ privCause true false 0x400 = none ∧ 0x800 ≤ 0x800 ∧ 0x400 ≤ 0x7FF := by decide

/-! ## The Drover -/

/-- Fibre 10 waits in a serai of entry 0x1_0000 since cycle 0; a second, in lane 1, waits there or outside. -/
def serai : Serai := { spn := 0, wg := 20, entry := 0x10000, size := some 1, timer := 256, opened := 35, fibres := [(10, 0)] }
def waiting : State := { ready with convoys := [], serais := [serai], clk := [(0, 256)] }
def key : SeraiKey := ⟨0, 20, 0x10000⟩
/-- 64 serais of SP 0 are open, and fibre 11 waits outside them. -/
def crowded : State := { ready with convoys := []
                                    serais := serai :: (List.range 63).map fun n => { serai with entry := 0x20000 + 8 * n, opened := 36 + n }
                                    outside := [{ fib := 11, entry := 0x30000, arrived := 5 }] }
theorem witness_DroverSteps : waiting.seraiOf key = some serai ∧ waiting.mayLaunch serai = true ∧
    waiting.seraiSize serai ≤ (waiting.seraiSlices serai).length ∧ oldest serai.fibres = some (10, 0) ∧ 0 + serai.timer ≤ waiting.now (dieOf 0) ∧
    (∀ v ∈ waiting.convoys, v.2.wg = serai.wg → v.2.spn = serai.spn → v.2.wait = .yielded) ∧ tget waiting.fibres 10 = some (fib 0) ∧
    (fib 0).lane < 512 ∧ serai.size = some 1 := by decide
theorem witness_DroverSteps_capacity : crowded.seraiOf key = some serai ∧ crowded.mayLaunch serai = true ∧
    ((crowded.serais.filter fun y => y.spn == key.spn).head? = some serai) ∧
    (∀ y ∈ (crowded.serais.filter fun y => y.spn == key.spn).tail, serai.opened ≤ y.opened) ∧
    63 ≤ (crowded.serais.filter fun y => y.spn == key.spn).tail.length ∧ ({ fib := 11, entry := 0x30000, arrived := 5 } : Outside) ∈ crowded.outside ∧
    tget crowded.fibres 11 = some (fib 1) ∧ (fib 1).spn = key.spn := by decide
/-- The convoy stands at the clause boundary of its clause. -/
def cvClause : Convoy := { cv with wait := .clause, inCl := false, words := 0 }
def boundary : State := { ready with convoys := [(15, cvClause)], clk := [(0, 1024)] }
theorem witness_DroverSteps_clause : tget boundary.convoys 15 = some cvClause ∧ tget boundary.wgs 20 = some wg ∧ boundary.aborted cvClause = false ∧
    (boundary.sp 0).halting = false ∧ boundary.fetchWord wg 0x10000 = some 0xFE3F_C000_0E00_0000 ∧ boundary.clauseBad cvClause wg = none ∧
    (let h := Header.ofWord 0xFE3F_C000_0E00_0000
     let s0 := (boundary.markEntered wg).passRd wg.colour none cvClause.hdr (clauseSpan h)
     let s1 := s0.observeHeader cvClause h
     let s2 := if h.re then s1.regionEntry 15 else s1
     boundary.awaits [(cvClause.hdr, clauseSpan h)] [] = none ∧ s0.waitsHold cvClause h = true ∧
     s1.refOf cvClause ((waitCls h.wacls).toList ++ (waitCls h.wbcls).toList) = none ∧ s2.mixRoom cvClause h = true) ∧ cvClause.aged = false ∧
    boundary.ready cvClause = true ∧ cvClause.since + 1024 ≤ boundary.now (dieOf 0) := by decide

/-! ## The ends of the holds -/

/-- `ready` with the convoy in a wait, at a late cycle. -/
def late (w : Wait) : State := { ready with convoys := [(15, { cv with wait := w })], clk := [(0, 0x2_0000)] }
def cvW (w : Wait) : Convoy := { cv with wait := w }
theorem witness_HoldsEnd : tget (late (.room .ecp)).convoys 15 = some (cvW (.room .ecp)) ∧
    (∀ l ∈ (late (.room .ecp)).lanes (cvW (.room .ecp)), l.f.cnt.get .ecp ≠ 63) ∧ (late (.accept .ecp)).canAccept 0 .ecp = true ∧
    (late (.replay 1024)).mover 15 = some (cvW (.replay 1024)) ∧ (late (.log 7)).mover 15 = some (cvW (.log 7)) ∧
    (late (.frame 7 1)).mover 15 = some (cvW (.frame 7 1)) ∧ 1024 ≤ (late (.replay 1024)).now 0 ∧ (cvW (.replay 1024)).yreq = false ∧ (late (.replay 1024)).cmds = [] ∧ (late (.log 7)).now 0 ≥ 7 + ((late (.log 7)).core 0).ydeadl.toNat ∧
    ((late (.frame 7 1)).sp 0).frames + 1 ≤ framePool ∧
    framePool < (({ late (.frame 7 1) with sps := [(0, { owner := 1, frames := framePool })] } : State).sp 0).frames + 1 := by decide
/-- Two fibres wait for rows that no column has; a third can be served. -/
def stuckConvoy : Convoy := cvW (.grow 8 [10] [])
def stuckState : State := { ready with
  convoys := [(15, stuckConvoy)]
  fibres := [(10, { fib 0 with wsize := 256 })]
  cores := [(0, { grow := [(15, 10)] })] }
def served : State := { stuckState with fibres := [(10, fib 0)] }
theorem witness_HoldsEnd_grow : (served.grantAll (served.core 0).grow).2 ≠ (served.core 0).grow ∧ (stuckState.core 0).grow ≠ [] ∧
    (stuckState.grantAll (stuckState.core 0).grow).2 = (stuckState.core 0).grow ∧ (15, stuckConvoy) ∈ stuckState.convoys ∧
    (∀ v ∈ stuckState.convoys, coreOf v.2.spn = 0 → v.2.wantsRows = true) ∧
    youngest ((stuckState.residentOn 0).filter fun g => stuckState.evictable g.2) = some (20, wg) ∧
    (∀ p ∈ wg.sps, (stuckState.sp p).hold = none) ∧ wg.evicted ≠ some false ∧ stuckState.cmds = [] := by decide
def evictedWg : Wg := { wg with evicted := some false }
theorem witness_HoldsEnd_evicted : (let s : State := { stuckState with wgs := [(20, evictedWg)] }
    youngest ((s.residentOn 0).filter fun g => s.evictable g.2) = some (20, evictedWg) ∧ evictedWg.evicted = some false ∧
    (∀ p ∈ evictedWg.sps, (s.sp p).hold = none) ∧ (s.convoysOf 20).filter (fun v => v.2.wantsRows) = [(15, stuckConvoy)]) := by decide

/-! ## Commands -/

def cpyOp : CmdOp := .cpy (cap kindData kAll 0x8000 64) (cap kindData kAll 0xC000 64) 0 0 16
def badOp : CmdOp := .cpy (cap kindData kAll 0x8000 64) nullCap 0 0 16
def cmdOf (x : Cls) (op : CmdOp) (p : CmdPhase) : Cmd := { base.newCmd 15 cv x true op [] with phase := p }
def withCmd (m : Cmd) : State := { ready with cmds := [(5, m)] }
theorem witness_Commands : (let m := cmdOf .ecp cpyOp .queued; let s := withCmd m
    tget s.cmds 5 = some m ∧ m.phase = .queued ∧ m.want = [] ∧ s.queueHalted 5 m = false ∧ s.orderedHeld 5 m = false ∧ s.entriesHeld 5 m.op m.entries = false ∧ m.inner = none ∧
    s.beginCause m m.op = none ∧ s.awaits (m.op.ranges (s.clxCount m.wg m.op) m.core false) (m.op.ranges (s.clxCount m.wg m.op) m.core true) = none) := by
  decide
theorem witness_Commands_refused : (let m := cmdOf .ecp badOp .queued; let s := withCmd m
    s.beginCause m m.op = some (1, 0) ∧ m.op.peer = none ∧ s.queueHalted 5 m = false ∧ s.entriesHeld 5 m.op m.entries = false) := by decide
theorem witness_Commands_halted : (let m := cmdOf .ecp cpyOp .queued; let s : State := { withCmd m with wgs := [(20, { wg with halted := [(0, 3)] })] }
    s.queueHalted 5 m = true ∧ m.op.destTile = none) := by decide
def blockOp : CmdOp := .block (cap kindCmd kAll 0x2_0000 64) none
def takenCmd : Cmd := { cmdOf .ecp blockOp .queued with inner := some cpyOp }
theorem witness_Commands_taken : (let m := takenCmd; let s : State := { withCmd m with wgs := [(20, { wg with halted := [(0, 3)] })] }
    m.want = [] ∧ s.queueHalted 5 m = true ∧ (cap kindCmd kAll 0x2_0000 64).remote = none ∧ cpyOp.destTile = none) := by decide
theorem witness_Commands_near : (let m := cmdOf .enm (.nmc (cap kindData kAll 0x8000 256) (cap kindData kAll 0xC000 256) 0 0 128 0 0 .fill) .queued; let s := withCmd m
    m.want = [] ∧ s.queueHalted 5 m = false ∧ s.orderedHeld 5 m = false ∧ s.entriesHeld 5 m.op m.entries = false ∧ m.inner = none ∧
    s.beginCause m m.op = none ∧ s.awaits (m.op.ranges (s.clxCount m.wg m.op) m.core false) (m.op.ranges (s.clxCount m.wg m.op) m.core true) = none) := by
  decide
theorem witness_Commands_block : (let m := cmdOf .ecp blockOp .blocked; (withCmd m).blockAt 0x2_0000 |>.status) ≠ 1 ∧
    tget (withCmd (cmdOf .ecp blockOp .blocked)).cmds 5 = some (cmdOf .ecp blockOp .blocked) := by decide
theorem witness_Commands_perform : (let m := cmdOf .ecp cpyOp .running; let s := withCmd m
    m.phase = .running ∧ (s.failLines []).opAwaits m (m.inner.getD m.op) = none ∧ (s.failLines []).chunksLeft m (m.inner.getD m.op) ≤ 1 ∧
    ((s.failLines []).perform 5 m (m.inner.getD m.op)).isSome = true ∧ m.cls = .ecp ∧
    (((s.failLines []).perform 5 m (m.inner.getD m.op)).map fun d => (d.cause.isNone, d.fl)) = some (true, 0)) := by decide
theorem witness_Commands_classes : (let g := cmdOf .egs (.gather (cap kindData kAll 0x8000 64) (cap kindData kAll 0xC000 64) 0 0 4 .e4 [(0, 1)]) .running
    let x := cmdOf .emx (.aclr 0) .running
    let n := cmdOf .enm (.nmc (cap kindData kAll 0x8000 64) (cap kindData kAll 0xC000 64) 0 0 4 0 0 .fill) .running
    let e := cmdOf .eat (.sig (cap kindData kAll 0x8000 64) 0 1 true none) .running
    g.cls = .egs ∧ ((withCmd g).perform 5 g g.op).isSome = true ∧ x.cls = .emx ∧ ((withCmd x).perform 5 x x.op).isSome = true ∧
    n.cls = .enm ∧ ((withCmd n).perform 5 n n.op).isSome = true ∧ e.cls = .eat ∧ ((withCmd e).perform 5 e e.op).isSome = true) := by decide
theorem witness_QueueWaits : (let s := queue [4, 1, 0, 0, 0]; let w := { pushWait s false with start := some 0 }
    tget (s.hold 15 (.queue w)).convoys 15 = some { vOf s with wait := .queue w } ∧ w.push = true ∧ (s.qhdr w.kq.lo).tail = 0) := by decide
theorem witness_QueueWaits_push : (let s := queue [4, 0, 0, 0, 0]; s.pushRoom (vOf s) (pushWait s false) ∧ (pushWait s false).start = none ∧
    ((s.hold 15 (.queue (pushWait s false))).mover 15).isSome = true) := by
  unfold State.pushRoom State.pushReach; decide
theorem witness_QueueWaits_pop : (let s := queue [4, 1, 1, 1, 0]; let w := { popWait s true with start := some 0 }
    w.push = false ∧ (s.qhdr w.kq.lo).head = 0 ∧ w.deliver = true ∧ (popWait s true).start = none ∧
    ((s.hold 15 (.queue (popWait s true))).mover 15).isSome = true ∧ s.queueCause (s.colourOf (vOf s)) w.kq (permLd ||| permSt) 0 64 = none ∧ s.headerLost (s.colourOf (vOf s)) w.kq.lo = false ∧ s.headerBad w.kq.lo = false ∧
    (s.qhdr w.kq.lo).crsv = (s.qhdr w.kq.lo).tail ∧ w.nb = true) := by decide
def remote (sd : Option (BitVec 6)) (buf : Option (Cap × Nat)) : RemoteWait := { pkg := 3, q := some 0, sd := sd, buf := buf, launch := false, words := 1, header := 0x2_0000 }
theorem witness_QueueWaits_remote : tget (held (.remote (remote (some 4) none))).convoys 15 = some (cvW (.remote (remote (some 4) none))) ∧
    (remote none none).sd = none ∧ (remote none none).launch = false ∧ (remote none (some (kData, 0))).buf = some (kData, 0) ∧
    (⟨0, false, 0, []⟩ : QueueAck).ok = false ∧ (⟨0, false, 0, []⟩ : QueueAck).cause ≠ 0x0C ∧
    (held (.remote (remote (some 4) none))).unseen ⟨3, 1⟩ 0 = true ∧
    ((held (.remote (remote (some 4) none))).received ⟨3, 1⟩ 0).unseen ⟨3, 1⟩ 0 = false := by decide

/-! ## The scheduler -/

/-- `ready` with a standard world 1 over the first 4 MiB, and nothing resident. -/
def empty : State := { ready with fibres := [], convoys := [], wgs := [], launches := [], worlds := [(1, world .standard)] }
/-- Binding 0: the queue of `queue`, colour 1, priority ceiling 255, home die 0, enabled; a record waits. -/
def binding : Binding := { bits := BitVec.ofNat 512 ((cap kindQueue kAll 0x2_0000 320).bits.toNat + (1 + 255 * 2 ^ 12 + 2 ^ 22) * 2 ^ 256), qtag := true }
def bound : State := { (empty.wrBytes 0x2_0000 ([4, 1, 1, 0, 0].flatMap fun n => leBytes 4 n)) with host := { binds := [(0, binding)] } }
theorem witness_LaunchesBegin_pop : (let b := bound.binding 0
    let s1 := { bound with host := { bound.host with roundRobin := tput bound.host.roundRobin 0 1 } }
    bound.nextBinding 0 = some 0 ∧ s1.bindBad b = false ∧ (s1.qhdr b.qcap.lo).bad = false ∧
    s1.awaits (s1.popReads b) [(b.qcap.lo, 64)] = none) := by decide
/-- A launch of one workgroup of one fibre, not yet placed, at priority 3, from binding 0 under a deadline of 1,000 cycles. -/
def fresh : Launch := { la with g := ⟨BitVec.ofNat 128 (1000 * 2 ^ 64 + 3 * 2 ^ 24), false⟩ :: cap kindCode permExec 0x10000 0x80 ::
                               List.replicate 14 nullCap, next := 0, acquired := 0 }
def toPlace : State := { bound with launches := [(30, fresh)], clk := [(0, 2 ^ 20)] }
theorem witness_LaunchesBegin_place : tget toPlace.launches 30 = some fresh ∧ fresh.unplaced ≠ 0 ∧ toPlace.stoppingWorld 1 = false ∧
    toPlace.requeuedFirst fresh = false ∧ toPlace.outranked 30 fresh = false ∧ (toPlace.tryPlace 30 fresh).isSome = true ∧ fresh.deadl ≠ 0 ∧
    fresh.late = false ∧ 0 < fresh.unplaced ∧ fresh.acquired + fresh.deadl ≤ toPlace.now fresh.home := by decide
theorem witness_LaunchesBegin_anvil : tget ({ fresh with code := [(0, .pending)] } : Launch).code 0 = some .pending ∧ bound.now 0 < fresh.acquired + 2 ^ 20 ∧
    fresh.acquired + 2 ^ 20 ≤ toPlace.now fresh.home := by decide
/-- A launch of one clause of four nops; without them, its words raise ILLEGAL. -/
def oneClause : Launch := { fresh with g := fresh.g.set 1 (cap kindCode permExec 0x10000 0x28) }
def nops : State := toPlace.wrBytes 0x10008 ((List.range 4).flatMap fun _ => leBytes 8 0x7500_0000_0000_0000)
theorem witness_LaunchesBegin_images : (nops.specialise oneClause).isSome = true ∧ toPlace.specialise oneClause = none ∧
    (enterImage toPlace.pinned anvilStore toPlace.anvil.store { key := fresh.key, bytes := 64, negative := false }).isSome = true ∧
    (∀ x ∈ toPlace.anvil.store, x.key ≠ fresh.key) ∧
    (enterImage toPlace.pinned anvilStore toPlace.anvil.store { key := fresh.key, bytes := negativeBytes, negative := true }).isSome = true := by decide
/-- Workgroup 20 stages with its code at hand. -/
def staging : State := { empty with wgs := [(20, { wg with phase := .staging })], launches := [(30, { la with code := [(0, .original)] })] }
theorem witness_LaunchesBegin_staged : tget staging.wgs 20 = some { wg with phase := .staging } ∧ staging.busyWg 20 = false ∧ la.aborted = none ∧
    staging.refusedEntries 20 = [] ∧ tget ({ la with code := [(0, .original)] } : Launch).code (dieOf (wg.sps.headD 0)) = some .original := by decide
/-- Workgroup 20 without fibres, in a phase. -/
def phased (p : WgPhase) : State := { empty with wgs := [(20, { wg with phase := p })], launches := [(30, { la with requeued := [20] })], clk := [(0, 2 ^ 24)] }
theorem witness_WorkgroupsEnd : tget (phased .running).wgs 20 = some wg ∧ (phased .running).busyWg 20 = false ∧ (phased .running).fibresOf 20 = [] ∧
    (∀ p ∈ wg.sps, ((phased .running).sp p).hold = none) ∧ ({ la with requeued := [20] } : Launch).aborted = none ∧
    tget (phased .wback).wgs 20 = some { wg with phase := .wback } ∧ (phased .wback).refusedEntries 20 = [] ∧
    20 ∈ ({ la with requeued := [20] } : Launch).requeued ∧ (phased .saved).stoppingWorld 1 = false ∧
    (∀ x ∈ (phased .saved).launches, x.2.colour = wg.colour → x.2.unplaced = 0 ∨ (phased .saved).effOf x.2 ≤ wg.prio) ∧
    (phased .saved).restorePlace 20 { wg with phase := .saved } = some [0] := by decide
/-- Workgroup 20 was asked to yield at cycle 0, its convoy stopped or not. -/
def yielding (w : Wait) : State := { empty with
  fibres := base.fibres
  wgs := [(20, { wg with phase := .yielding 0 })]
  launches := base.launches
  convoys := [(15, cvW w)]
  clk := [(0, 2 ^ 24)] }
theorem witness_WorkgroupsEnd_yield : 0 + ((yielding .run).core (coreOf (wg.sps.headD 0))).ydeadl.toNat ≤ (yielding .run).now (dieOf (wg.sps.headD 0)) ∧
    wg.haltAt = none ∧ (∀ v ∈ (yielding .yielded).convoysOf 20, v.2.stopped = true) ∧
    (yielding .yielded).busyWg 20 = false ∧ (yielding .yielded).fibresOf 20 ≠ [] := by decide
/-- A launch of priority 3 whose rows workgroup 20, of priority 0, holds. -/
def blocked : State := { toPlace with
  fibres := [(10, { fib 0 with wsize := 256 })]
  wgs := [(20, { wg with launch := 31 })]
  launches := [(30, fresh), (31, la)] }
theorem witness_WorkgroupsEnd_request : tget blocked.launches 30 = some fresh ∧ fresh.unplaced ≠ 0 ∧ blocked.stoppingWorld 1 = false ∧
    blocked.yieldUnder 1 = false ∧ blocked.tryPlace 30 fresh = none ∧
    youngest (blocked.wgs.filter fun g => g.2.colour == fresh.colour && g.2.resident && decide (g.2.prio < blocked.effOf fresh)) =
      some (20, { wg with launch := 31 }) ∧ wg.phase = .running ∧ (∀ p ∈ wg.sps, (blocked.sp p).hold = none) ∧
    tget blocked.launches 31 = some la ∧ la.aborted = none := by decide
/-- Workgroup 20 runs past the least residency; SP 4 of the next core is its world's too. -/
def mobile : State := { (phased .running) with
  sps := [(0, { owner := 1 }), (4, { owner := 1 })]
  cores := []
  clk := [(0, 2 ^ 21)] }
theorem witness_MovesAndFailures : mobile.movable 20 = some wg ∧ wg.placed + wg.haltedFor + 2 ^ 21 ≤ mobile.now (dieOf (wg.sps.headD 0)) ∧ wg.hot = none ∧
    (mobile.target 20 { wg with hot := some 0 }).isSome = true ∧ mobile.quietSps wg.sps = true ∧
    ({ wg with phase := .moving [4] } : Wg).phase = .moving [4] := by decide
/-- The SPs of core 0 are stopped by a failure; 0 is the world's. -/
def failed (cores : Tbl Core) : State := { mobile with
  sps := [(0, { owner := 1, hold := some 7 }), (1, { hold := some 7 }), (2, { hold := some 7 }), (3, { hold := some 7 })]
  cores := cores }
theorem witness_MovesAndFailures_error : (let s := failed [(0, {})]; let sps := s.ownedOn (coreOf 0) (s.sp 0).owner
    (7 : BitVec 8) ≠ 0 ∧ (s.sp 0).hold = some 7 ∧ s.quietSps sps = true ∧ (s.noteSoft (coreOf 0) 5 sps).quietSps sps = true ∧
    (s.core 0).dead = false ∧ (∀ p ∈ (List.range 4).map fun i => 4 * 0 + i, (s.sp p).hold.isSome = true) ∧
    s.quietSps ((List.range 4).map fun i => 4 * 0 + i) = true ∧ (∀ i < 16, (s.core (0 / 16 * 16 + i)).spare = false)) := by decide
theorem witness_MovesAndFailures_spare : (let s := failed [(2, { spare := true })]; ∃ i < 16, (s.core (0 / 16 * 16 + i)).spare = true) ∧
    (let s : State := { failed [(0, { softs := [(5, 2 ^ 21), (5, 2 ^ 21)] })] with clk := [(0, 2 ^ 21 + 1)] }
     2 ≤ ((s.core 0).softs.filter fun e => decide (s.now (0 / 16) < e.2 + 2 ^ 30)).countP fun e => e.1 == 5) ∧
    (let s : State := { failed [] with sps := [(0, { owner := 1, rolls := 2 })] }; [0].Nodup ∧ ∃ p ∈ [0], 2 ≤ (s.sp p).rolls) := by decide

/-! ## Sweeps, Route and links -/

def pass (begun : Bool) (f : BitVec 4) (rs : List (Nat × Nat)) : Pass := { opened := 0, die := 0, begun := begun, finished := f, recalls := rs }
/-- Pass 1 over 64 bytes of colour 1, at a late cycle. -/
def sweeping (p : Pass) : State := { empty with
  rev := { entries := [⟨0x8000, 64, [1], 1, none⟩], passes := [(1, p)], next := 2 }
  clk := [(0, 2 ^ 24)] }
theorem witness_Sweeps : tget (sweeping (pass false 0 [])).rev.passes 1 = some (pass false 0 []) ∧ 0 + 1024 ≤ (sweeping (pass false 0 [])).now 0 ∧
    (pass true 0 []).finished.getLsbD 3 = false ∧ (pass true 0 [(7, 1)]).recalls ≠ [] ∧ 0 + 2 ^ 24 * (0 + 1) ≤ (sweeping (pass true 0 [(7, 1)])).now 0 ∧
    (sweeping (pass true 15 [])).rev.passes = [(1, pass true 15 [])] ∧ (sweeping (pass true 15 [])).closable 1 (pass true 15 []) = true := by decide
/-- Port 0 is up, joined to package 3, and maps its colour 9 to colour 1. -/
def linked : State := { empty with
  route := { ports := [(0, { up := true, peer := some 3, xlate := [(0, BitVec.ofNat 64 (2 ^ 16 + 3 * 2 ^ 17 + 9 * 2 ^ 27 + 2 ^ 39))] })] }
  clk := [(13, 2 ^ 26)] }
/-- A recall of two ranges of package 3; 31 of the entries for recalls are held. -/
def recall2 : RecallMsg := { port := 0, owner := 3, colour := 9, ranges := [(0x8000, 64), (0x9000, 64)], seq := 0 }
def recalled : State := { linked with rev := { entries := List.replicate 31 ⟨0x8000, 64, [1], 1, some 3⟩, passes := [], next := 2 } }
theorem witness_Sweeps_recall : linked.linkOpen recall2.port = true ∧ linked.unseen ⟨3, 9⟩ recall2.seq = true ∧ linked.recallWaits recall2 = false ∧ linked.recallAhead recall2 = false ∧
    recalled.linkOpen recall2.port = true ∧ recalled.unseen ⟨3, 9⟩ recall2.seq = true ∧ recalled.recallWaits recall2 = true ∧
    ({ linked with held := [.recall recall2] } : State).recallAhead recall2 = true ∧ 5 < 2 ^ 32 ∧ linked.unseen ⟨7, 1⟩ 0 = true := by decide
theorem witness_SweepClears : base.storeWf = true ∧ (0x8000 : Addr) % 16 = 0 := by decide
/-- A bale of a colour, carried by a transfer of colour 9 to 0x9000. -/
def baleOf (colour : BitVec 12) : BaleMsg :=
  { port := 0, peer := 3, colour := 9, bits := (mkCap kindData true 0xC00 colour 0 kAll 0x8000 64).bits, base := 0x9000, len := 64,
    perms := permSt ||| permStk, off := 0, seq := 4 }
/-- The same link, with HBM awake. -/
def linkedHbm : State := { linked with hbm := { sets := [(0, { alloc := true, state := 0 })] } }
theorem witness_RouteReceives_bale : (let s1 := (linkedHbm.arrived 0 ((linkedHbm.translate 0 3 9).getD 0)).received ⟨3, 9⟩ (baleOf 9).seq
    let d := s1.ownedCap 1 kindData (permSt ||| permStk) 0x9000 64
    linkedHbm.linkOpen 0 = true ∧ linkedHbm.unseen ⟨3, 9⟩ (baleOf 9).seq = true ∧ s1.behind (.bale (baleOf 9)) = false ∧ s1.awaits [] (s1.balePlace (baleOf 9)) = none ∧
    (∀ r ∈ s1.balePlace (baleOf 9), s1.accRoom r.1 r.2 = true) ∧ s1.baleEnd (baleOf 9) = some (1, d) ∧ s1.baleFits 1 d (baleOf 9) = true ∧
    d.has permStk = true ∧ s1.translate 0 3 (Cap.colour ⟨(baleOf 9).bits, true⟩).toNat = some 1 ∧
    s1.translate 0 3 (Cap.colour ⟨(baleOf 8).bits, true⟩).toNat = none) := by decide
theorem witness_RouteReceives : linked.translate 0 3 8 = none ∧
    linked.translate 0 3 9 = some 1 ∧ linked.linkOpen 0 = true ∧ linked.held = [] ∧
    (let a : RemoteAccMsg := { port := 0, peer := 3, colour := 9, base := 0x8000, len := 64, perms := 3, acc := .read 0 4, seq := 0 }
     linked.behind (.access a) = false ∧ linked.awaits (linked.accRanges a).1 (linked.accRanges a).2 = none ∧
     (((linked.arrived 0 1).received ⟨3, 9⟩ 0).peerAccess 1 a).isSome = true ∧ linked.unseen ⟨3, 9⟩ 0 = true) ∧
    (linked.peerAccess 1 { port := 0, peer := 3, colour := 9, base := 0x8000, len := 64, perms := 3, acc := .read 0 4, seq := 0 }).isSome = true := by decide
/-- A command of package 3 that runs here, and its cancellation. -/
def cancelled : RemoteCmdMsg := { port := 0, peer := 3, colour := 9, block := 0x2_0000, localLen := 0, seq := 0 }
def peerRunning : State := { linked with cmds := [(5, linked.peerCmd 1 cancelled)] }
theorem witness_RouteReceives_stops : peerRunning.linkOpen 0 = true ∧
    peerRunning.unseen ⟨3, 9⟩ cancelled.seq = true ∧
    (((peerRunning.arrived 0 ((peerRunning.translate 0 3 9).getD 0)).received ⟨3, 9⟩ 0).dropHeld cancelled).peerRuns cancelled = some 5 ∧
    (((linked.arrived 0 ((linked.translate 0 3 9).getD 0)).received ⟨3, 9⟩ 0).dropHeld cancelled).peerRuns cancelled = none ∧
    linked.behind (.command cancelled) = false := by decide
/-- A remote command of this package that runs on package 3, with a local capability. -/
def sentCmd : Cmd := { cmdOf .ecp (.block (mkCap kindCmd true 0x803 1 0 kAll 0x2_0000 64) (some (mkCap kindData false 0 1 0 kAll 0x8000 64))) .running with
  peer := none }
theorem witness_RouteReceives_done : (let s : State := { linked with cmds := [(5, sentCmd)] }
    ((s.arrived 0 ((s.translate 0 3 9).getD 0)).received ⟨3, 9⟩ 0).localEnd 3 5 = some (sentCmd, mkCap kindData false 0 1 0 kAll 0x8000 64) ∧ s.held = []) := by decide
theorem witness_RouteReceives_cancel : (let m := { cmdOf .ecp cpyOp .cancelling with peer := none }; tget (withCmd m).cmds 5 = some m ∧ m.phase = .cancelling ∧ (withCmd m).unseen ⟨3, 1⟩ 0 = true) := by
  decide
/-- A `.pod` barrier slot of three workgroups, and a `.pod` collective slot of two contributions. -/
def podBar (peers : Nat) : BarSlot := { scope := .pod, join := 2, colour := 1, p := 3, peers := peers, launches := [30] }
def podClx : ClxSlot := { scope := .pod, join := 2, colour := 1, c := 2, launches := [30] }
theorem witness_RouteReceives_pod : (let s (n : Nat) : State := { linked with bars := [(7, podBar n)], clxs := [(8, podClx)] }
    (s 0).unseen ⟨3, 1⟩ 0 = true ∧ (tfind (s 0).bars fun y => y.scope == .pod && y.colour == 1 && y.join == 2) = some (7, podBar 0) ∧
    (podBar 0).arrived.length + (podBar 0).peers + 1 < (podBar 0).p ∧ (podBar 2).p ≤ (podBar 2).arrived.length + (podBar 2).peers + 1 ∧
    (tfind (s 0).clxs fun y => y.scope == .pod && y.colour == 1 && y.join == 2) = some (8, podClx) ∧ podClx.full = false ∧
    ({ podClx with parts := [⟨0, .sum, false, [], none, none, false⟩, ⟨1, .sum, false, [], none, none, false⟩] } : ClxSlot).full = true) := by decide
/-- Training with package 3; whether its peer's identity verifies is left to the free constants. -/
def train : TrainMsg := { chain := [], nonce := 0, signature := 0, sealedKey := 0 }
theorem witness_Links_training (h1 : Config.chainVerifies [] = true) (h2 : Config.nonceVerifies [] linked.trainNonce 0 = true) :
    linked.trainOk train = true ∧ linked.linkOpen 1 = false :=
  ⟨by have h : train.chain = [] ∧ train.signature = 0 := ⟨rfl, rfl⟩
      simp only [State.trainOk, h, h1, h2, Bool.and_self], by decide⟩
theorem witness_Links_down (h : Config.chainVerifies [] = false) :
    let s : State := { linked with route := { ports := [(1, { up := true, retrain := some 0 })] } }
    s.trainOk train = false ∧ s.linkOpen 1 = false ∧ (s.port 1).up = true := ⟨by simp [State.trainOk, train, h], by decide⟩
theorem witness_Links_counter : (let s : State := { linked with route := { ports := [(2, { up := true, tx := 2 ^ 63 })] } }
    (s.port 2).retrain = none ∧ (s.port 2).up = true ∧ 2 ^ 63 ≤ (s.port 2).tx) := by decide
theorem witness_Links : (linked.port 0).fails + 1 < 8 ∧ linked.linkOpen 1 = false ∧ (1 : Nat) < 32 ∧
    (let s : State := { linked with route := { ports := [(0, { up := true, fails := 7, retrain := none }), (1, { up := true, retrain := some 0 })]
                                               down := [(3, (0, 0))], routem := [(3, 4)], inForce := [(4096 * 3 + 9, 4)] } }
     8 ≤ (s.port 0).fails + 1 ∧ s.linkOpen 0 = true ∧ s.linkOpen 1 = false ∧ (s.port 1).up = true ∧ (s.port 1).retrain = some 0 ∧
     (tget s.route.routem 3).getD 0 ≠ 0 ∧ 3 ∉ s.route.gone ∧ s.upPorts 4 = [] ∧ tget s.route.down 3 = some (0, 0) ∧
     0 + 2 ^ 26 ≤ s.now (13 + 0) ∧ tget s.route.inForce (4096 * 3 + 9) = some 4) ∧ linked.cmds = [] ∧ linked.convoys = [] ∧
    (linked.received ⟨3, 9⟩ 5).linkOpen 0 = true ∧ (linked.received ⟨3, 9⟩ 5).unseen ⟨3, 9⟩ 4 = false := by decide

/-! ## Memory, the port, requests and power -/

/-- `empty` at a late cycle of the memory controllers and slices, with bank set 0 in a state. -/
def memory (b : BankSet) : State := { empty with hbm := { sets := [(0, b)] }, clk := [(0, 65536), (4, 51200000), (9, 65536)] }
def poolLine : MscLine := { line := 0x1_0000_0000_0000, slice := 0, set := 0, way := 0, colour := 1, vd := some 1, dirty := some 0, used := 0 }
theorem witness_MemorySteps : (let s := memory { alloc := true, state := 0 }
    (s.bankSet 0).state = 0 ∧ (idleCounts (s.level 0)).1 = some 512 ∧ (idleCounts (s.level 0)).2 = some 65536 ∧ (s.bankSet 0).alloc = true ∧
    (s.bankSet 0).waking = none ∧ (s.bankSet 0).last + 65536 ≤ s.now bankDomain) ∧
    (let s := memory { alloc := true, state := 3, waking := some 0 }
     (s.bankSet 0).waking = some 0 ∧ 0 + wakeCycles (s.bankSet 0).state ≤ s.now bankDomain) ∧
    (let s : State := { memory {} with msc := { lines := [poolLine] } }
     poolLine ∈ s.msc.lines ∧ 0x80_0000_0000 ≤ poolLine.line ∧ poolLine.dirty = some 0 ∧ 0 + 65536 ≤ s.now (sliceDomain poolLine.slice) ∧
     (tget s.hbm.periods 0).getD 0 + 51200000 ≤ s.now (4 + 0) ∧ s.hbm.rows = [] ∧ (s.hbm.spared.filter fun x => x.1 == 7).length < 8 ∧ s.hbm.bad = []) ∧
    (tget ({ base with hbm := { zeroing := [(0, ())] } } : State).hbm.zeroing 0).isSome = true ∧ sysReg 0x500 = some (.vda 0) := by decide
/-- The port is up in service mode; a debugger may halt SP 0. -/
def served0 : State := { empty with host := { mode := 0 }, mgmt := { hyp := 2, token := some 5 } }
theorem witness_HostPort : served0.host.linkUp = true ∧ served0.host.mode = 0 ∧ touchesExtinv 0x110_0020 8 = false ∧ regSpace 0x110_0020 = true ∧
    (∀ e ∈ served0.held, heldKey e ≠ some hostKey) ∧ (∃ e ∈ ({ served0 with held := [.hostRead 0x130_0000 8] } : State).held, heldKey e = some hostKey) ∧
    0x130_0000 < configSpace ∧ served0.awaits (served0.fwqRange 0x130_0000 8) [] = none ∧ served0.awaits [] (served0.fwqRange 0x130_0000 0x1040) = none ∧
    0x110_0020 % 8 = 0 ∧ touchesExtinv 0x110_0040 8 = false ∧ regSpace 0x110_0040 = true ∧
    ({ served0 with host := { mode := 0, extInv := 0x8000_0000_0000_0000 } } : State).host.extInv.getLsbD 63 = true ∧
    0x130_0000 ≤ 0x130_0000 ∧ 0x130_0000 + 0x1040 ≤ 0x130_1040 ∧ 0x150_0FFC < 0x150_1000 ∧ served0.host.extInv.getLsbD 63 = false ∧
    served0.haltRight 0 = true ∧ (served0.sp 0).halted = false ∧ served0.beingSaved 0 = false ∧
    (let s : State := { served0 with sps := [(0, { owner := 1, halted := true })] }; s.haltRight 0 = true ∧ (s.sp 0).halted = true) := by decide
/-- Aperture 0 shows the first 16 GiB for colour 1. -/
def aperture : State := { served0 with host := { mode := 0, hap := [(0, 0x1001)] } }
theorem witness_HostPort_aperture : ((tget aperture.host.hap 0).getD 0).getLsbD 12 = true ∧ (((tget aperture.host.hap 0).getD 0).extractLsb' 0 12).toNat = 1 ∧
    (∀ j < 4, aperture.apByte 1 true (0 * 2 ^ 34 + 0x8000 + j) = true) ∧ (∀ j < 4, aperture.apByte 1 false (0 * 2 ^ 34 + 0x8000 + j) = true) ∧
    (∃ j < 4, aperture.apByte 1 false (0 * 2 ^ 34 + 0x2_0000_0000 + j) = false) ∧ aperture.held = [] ∧ aperture.awaits [] [(0x8000, 4)] = none ∧
    aperture.awaits [(0x8000, 4)] [] = none := by decide

/-- A request: operation, colour, VD, core, SPMASK, BLK, ARG0 and ARG1; its status word is at 0x40_8000. -/
def req (svc : Option Nat) (op colour vd core mask blk arg0 arg1 : Nat) : WReq :=
  { bits := BitVec.ofNat 512 (1 + op * 2 ^ 16 + colour * 2 ^ 24 + vd * 2 ^ 36 + core * 2 ^ 44 + mask * 2 ^ 50
                              + (if svc.isSome then 0x8000 else 0x40_8000) * 2 ^ 64 + blk * 2 ^ 128 + arg0 * 2 ^ 192 + arg1 * 2 ^ 256)
    svc := svc }
/-- The hypervisor's world 2, and world 1 in a state. -/
def hypWorld : World := { vd := 0, ranges := [(0x40_0000, 0x40_0000, false, false)], ctab := 0x40_4000 }
/-- A queue of 64 slots at an address that holds one request. -/
def queued (s : State) (b : Addr) (r : WReq) : State :=
  (s.wrBytes b ([64, 1, 1, 0, 0].flatMap fun n => leBytes 4 n)).wrBytes (b + 64) (leBytes 64 r.bits.toNat)
/-- A request at the head of the firmware request queue, or of world 1's service queue. -/
def asked (r : WReq) (m : WorldMode) : State :=
  queued { served0 with worlds := [(1, world m), (2, hypWorld)], host := { mode := 0, booted := true, fwq := 0x40_0000 } }
    (if r.svc.isSome then 0x3F_F000 else 0x40_0000) r
/-- Nothing refuses a request in a state. -/
def taken (s : State) (r : WReq) : Bool := s.atHead r && s.reqAwaits r == none && s.reqCode r == none && s.under (reqOp r) r == none
theorem witness_taken (s : State) (r : WReq) (h : taken s r = true) :
    s.atHead r = true ∧ s.reqAwaits r = none ∧ s.reqCode r = none ∧ s.under (reqOp r) r = none := by
  simpa [taken, and_assoc] using h
/-- A formation block at 0x41_0000: one range of 64 KiB at 0x80_0000, its table at its start; and a ROUTE block of one entry. -/
def formBlock (s : State) : State := s.wrBytes 0x41_0000 (leBytes 16 (1 + 0x80_0000 * 2 ^ 64) ++ leBytes 16 (0x80_0000 + 2 ^ 64))
def routeBlock (s : State) : State := s.wrBytes 0x41_0000 (leBytes 16 1 ++ leBytes 16 (2 ^ 16 + 3 * 2 ^ 17 + 9 * 2 ^ 27 + 2 ^ 39))
theorem witness_WorldRequests_form : taken (formBlock (asked (req none 1 5 7 0 0 0x41_0000 0 0) .standard)) (req none 1 5 7 0 0 0x41_0000 0 0) = true ∧
    taken (formBlock (asked (req none 1 5 7 0 0 0x41_0000 1 0) .standard)) (req none 1 5 7 0 0 0x41_0000 1 0) = true := by decide
theorem witness_WorldRequests_sps : taken (asked (req none 2 1 0 1 1 0 0 0) .standard) (req none 2 1 0 1 1 0 0 0) = true ∧
    taken (asked (req none 3 1 0 0 1 0 1 0) .standard) (req none 3 1 0 0 1 0 1 0) = true ∧
    taken (asked (req none 4 1 0 0 1 0 0 0) .standard) (req none 4 1 0 0 1 0 0 0) = true := by decide
/-- STOP, RESET and DEPART of world 1. -/
def stopR : WReq := req none 5 1 0 0 0 0x41_0000 16 0
def resetR : WReq := req none 6 1 0 0 0 0 0 0
def departR : WReq := req none 7 1 0 0 0 0 0 0
/-- World 1 has a command that has not ended. -/
def busyAsked (r : WReq) : State := { asked r .standard with cmds := [(5, cmdOf .enm (.nmc (cap kindData kAll 0x8000 64) (cap kindData kAll 0xC000 64) 0 0 4 0 0 .fill) .running)], wgs := [(20, wg)], launches := [(30, la)] }
theorem witness_WorldRequests_stop : taken (asked stopR .standard) stopR = true ∧
    (((asked stopR .standard).popReq stopR).beginStop stopR).quietWorld 1 = true ∧ taken (busyAsked stopR) stopR = true ∧
    (((busyAsked stopR).popReq stopR).beginStop stopR).quietWorld 1 = false := by decide
theorem witness_WorldRequests_reset : taken (busyAsked resetR) resetR = true ∧
    ((((busyAsked resetR).popReq resetR).releaseHalts 1).beginStop resetR).quietWorld 1 = false ∧ taken (busyAsked departR) departR = true ∧
    ((((busyAsked departR).popReq departR).releaseHalts 1).beginStop departR).quietWorld 1 = false := by decide
theorem witness_WorldRequests_end : (let s : State := { asked resetR .standard with worlds := [(1, { world .standard with waiting := some resetR }), (2, hypWorld)] }
    s.under (reqOp resetR) resetR = some { world .standard with waiting := some resetR }) ∧
    (let s : State := { asked departR .departing with worlds := [(1, { world .departing with waiting := some departR }), (2, hypWorld)] }
     s.under (reqOp departR) departR = some { world .departing with waiting := some departR }) := by decide
theorem witness_WorldRequests_formed : (let f := req none 1 1 7 0 0 0x41_0000 1 0
    let w : World := { world .forming with waiting := some f }
    ({ asked f .standard with worlds := [(1, w), (2, hypWorld)] } : State).under 1 f = some w ∧ w.mode = .forming) := by decide
theorem witness_WorldRequests_window : (let r := req none 9 1 0 0 0 0x41_0000 0 0
    let w : World := { world .standard with waiting := some r }
    let s : State := { asked r .standard with worlds := [(1, w), (2, hypWorld)], mgmt := { hyp := 2, nonce := some 5, windows := [(1, (5, 3, true))] } }
    s.under 9 r = some w ∧ tget s.mgmt.windows (reqColour r) = some (5, 3, true) ∧ s.mgmt.nonce = some 5) := by decide
def routeR : WReq := req none 8 1 0 0 0 0x41_0000 0 0
theorem witness_WorldRequests_route : taken (routeBlock (asked routeR .standard)) routeR = true ∧ (routeBlock (asked routeR .standard)).cmds = [] ∧
    (routeBlock (asked routeR .standard)).rdNat ((routeBlock (asked routeR .standard)).home (reqBlk routeR)) 2 =
      ((routeBlock (asked routeR .standard)).popReq routeR).rdNat (((routeBlock (asked routeR .standard)).popReq routeR).home (reqBlk routeR)) 2 := by decide
def attestR : WReq := req none 0xB 1 0 0 0 0x41_0000 0 0
def attestS : WReq := req (some 1) 0xB 0 0 0 0 0x9000 0 0
def modeR : WReq := req none 0xE 2 0 0 0 0 2 0
theorem witness_WorldRequests_others : taken (asked (req none 0xA 1 0 0 0 0 0 0) .standard) (req none 0xA 1 0 0 0 0 0 0) = true ∧
    taken (asked attestR .standard) attestR = true ∧ ((asked attestR .standard).popReq attestR).reqWorld attestR = some (world .standard) ∧
    taken (asked attestS .protected_) attestS = true ∧
    taken (asked (req none 0xC 1 0 0 0 0x41_0000 0 0) .standard) (req none 0xC 1 0 0 0 0x41_0000 0 0) = true ∧
    taken (queued { served0 with worlds := [(2, hypWorld)], host := { mode := 0, booted := true, fwq := 0x40_0000 } } 0x40_0000 modeR) modeR = true ∧
    taken (asked (req (some 1) 0x20 0 0 0 0 0 5 0) .protected_) (req (some 1) 0x20 0 0 0 0 0 5 0) = true ∧
    taken (asked (req (some 1) 0x21 0 0 0 0 0 0 0) .protected_) (req (some 1) 0x21 0 0 0 0 0 0 0) = true := by decide
/-- A boot whose image in slot 0 has security version 4; and one whose identity fuses cannot be read. -/
def bootImg : BootImage := { version := 1, svn := 4, length := 0, hash := Config.sha512 [], body := [], key := [], signature := 0 }
def boot : BootCfg := { pkg := 0, fwSets := [1], fwq := 0x40_0000, hyp := 2, hypRanges := [(0x40_0000, 0x40_0000, false)], hypCtab := 0x40_4000,
                        slots := [some bootImg, none] }
/-- The image verifies in some packages: whether a signature does is left to the free constants. -/
theorem witness_ResetAndPower_boot (hk : Config.sha512 [] = Config.rootKeyHash)
    (hv : Config.imageVerifies [] (Config.sha512 (signedBytes bootImg)) 0 = true) :
    State.reset.bootFail boot = none ∧ bootImage boot State.reset.mgmt.minSvn = .ok bootImg ∧ boot.fuses = true ∧
      boot.slots = [some bootImg, none] ∧ imageCause bootImg 5 = some 0x4 := by
  have h (m : Word) : imageCause bootImg m = if 4 < m then some 0x4 else none := by
    have h1 : bootImg.key = [] ∧ bootImg.signature = 0 ∧ bootImg.body = [] ∧ bootImg.hash = Config.sha512 [] ∧ bootImg.svn = 4 :=
      ⟨rfl, rfl, rfl, rfl, rfl⟩
    simp only [imageCause, h1, hv, hk]
    simp
  have hi : bootImage boot State.reset.mgmt.minSvn = .ok bootImg := by
    have h0 : imageCause bootImg State.reset.mgmt.minSvn = none := by rw [h]; decide
    simp [bootImage, boot, h0]
  refine ⟨?_, hi, rfl, rfl, by rw [h]; decide⟩
  have hf : boot.fuses = true := rfl
  rw [State.bootFail, hf, hi]
  decide
theorem witness_ResetAndPower : State.reset.bootFail { boot with fuses := false } = some (0x9, 1) ∧
    (let s : State := { empty with clk := [(0, 2 ^ 24)], mgmt := { hyp := 2, stops := [(1, 0)] } }
     (s.sp 0).power = .on ∧ s.readyOn (some 0) = [] ∧ (s.sp 0).idleSince + 4096 ≤ s.now (dieOf 0) ∧ s.occupied 0 = false ∧
     (s.sp 0).freeSince + 2 ^ 20 ≤ s.now (dieOf 0) ∧ tget s.mgmt.stops 1 = some 0 ∧ 0 + 2 ^ 24 ≤ s.now (s.worldDie 1)) ∧
    (let s : State := { empty with sps := [(0, { power := .retention })] }; (s.sp 0).power = .retention ∧ s.mayPutOff 0 = true) ∧
    State.reset.worlds = [] ∧ State.reset.mgmt.stops = [] ∧ State.reset.mgmt.thermal = false := by decide

/-! ## IMAGE and UNLOCK: an image's length and the tokens that verify are free -/

/-- IMAGE of SP 0, which is off, into 8 GiB of the hypervisor's world. -/
def imageR : WReq := req none 0xD 1 0 0 1 0x80_0000 0x2_0000_0000 0
def imageAsked : State := { asked imageR .standard with
  sps := [(0, { owner := 1, power := .off })]
  worlds := [(1, world .standard), (2, { hypWorld with ranges := [(0x40_0000, 0x2_0040_0000, false, false)] })]
  hbm := { sets := [(0, { alloc := true, state := 0 }), (1, { alloc := true, state := 0 })] } }
theorem imageLen_le : ¬ 0x2_0000_0000 < imageAsked.imageLen 0 true := by
  have := Config.imageTail.isLt
  have h : imageAsked.spawnRecords 0 true = [] := by decide
  have h2 : imageBytesOf ≤ 0x100_0000 := by decide
  unfold State.imageLen; rw [h]; simp only [List.length_nil]; omega
theorem image_blk : imageAsked.blkBad imageR = false := by
  have h (i : Nat) (hi : i < 4097) : imageAsked.okAt 2 true (0x80_0000 + 2 ^ 21 * i) = true := by
    rw [okAt_hbm _ _ _ (by omega)]
    have : (0x80_0000 + 2 ^ 21 * i) / gib6 = 0 ∨ (0x80_0000 + 2 ^ 21 * i) / gib6 = 1 := by unfold gib6; omega
    rcases this with h | h <;> rw [h] <;> decide
  have hr : imageAsked.okRange 2 true 0x80_0000 0x2_0000_0000 = true := by
    unfold State.okRange
    rw [Bool.and_eq_true]
    exact ⟨List.all_eq_true.2 fun i hi => h i (Nat.lt_of_lt_of_le (List.mem_range.1 hi) (by decide)), by
      rw [okAt_hbm _ _ _ (by decide)]; decide⟩
  have h1 : reqBlkLen imageAsked imageR = some 0x2_0000_0000 := by decide
  have h2 : reqBlk imageR = 0x80_0000 := by decide
  have h3 : imageAsked.reqPlace imageR 0x80_0000 0x2_0000_0000 = true := by decide
  have h4 : imageAsked.reqParty imageR = 2 := by decide
  have h5 : reqOp imageR = 13 := by decide
  simp [State.blkBad, h1, h2, h3, h4, h5, hr, (by decide : writesBlk 13 = true)]
theorem witness_WorldRequests_image : imageAsked.atHead imageR = true ∧ imageAsked.reqAwaits imageR = none ∧ imageAsked.reqCode imageR = none ∧
    imageAsked.under (reqOp imageR) imageR = none ∧
    (imageAsked.popReq imageR).reqWorld imageR = some (world .standard) := by
  have h0 : reqOp imageR = 13 := by decide
  have h1 : reqColour imageR = 1 := by decide
  have h2 : reqShape imageR = false := by decide
  have h3 : imageR.svc = none := rfl
  have h4 : (imageAsked.sp (imageSp imageR)).owner = 1 := by decide
  have h5 : (world .standard).mode = .standard := rfl
  have h6 : reqArg0 imageR = 0x2_0000_0000 := by decide
  have b1 := image_blk
  have b4 : imageSp imageR = 0 := by decide
  have b5 : imageAsked.sealedImage imageR (world .standard) = false := by decide
  have b2 : imageAsked.rights (world .standard) (imageSp imageR) = .im := by decide
  have b3 : tget imageAsked.worlds 1 = some (world .standard) := by decide
  refine ⟨by decide, by decide, ?_, by decide, by decide⟩
  rw [b4] at b2 h4
  simp [State.reqCode, State.reqWorld, h0, h1, h2, h3, b1, b2, b3, h4, h5, h6, b4, b5, Nat.not_lt.1 imageLen_le, fwOps, firstCause]
/-- A debug token of scope 1 for this package with nonce 5, its reserved bytes and signature 0, and the UNLOCK that presents it. -/
def token : List Byte := leBytes 8 (1 + 2 ^ 32) ++ (bytes64 Config.deviceHash ++ (bytes64 5 ++ (bytes64 (Config.chainKeyHash []) ++ List.replicate 824 0)))
def unlockR : WReq := req none 9 1 0 0 0 0x41_0000 0 0
def unlockBase : State := { asked unlockR .standard with mgmt := { hyp := 2, nonce := some 5 } }
def unlockAsked : State := unlockBase.wrBytes 0x41_0000 token
theorem unlockAsked_def : unlockAsked = unlockBase.wrBytes 0x41_0000 token := rfl
theorem token_length : token.length = 1024 := by
  simp only [token, bytes64, List.length_append, length_leBytes, List.length_replicate]
theorem unlock_byte (a : Nat) (h : a < 0x41_0000) : unlockAsked.rd8 a = unlockBase.rd8 a := rd8_wrBytes_out (.inl h)
theorem unlock_rdNat (a n : Nat) (h : a + n ≤ 0x41_0000) : unlockAsked.rdNat a n = unlockBase.rdNat a n := rdNat_wrBytes_out (.inl h)
theorem unlock_qword (i : Nat) (h : i < 8) : unlockAsked.qword 0x40_0000 i = unlockBase.qword 0x40_0000 i := by
  unfold State.qword
  rw [rdHome_hbm _ (by omega), rdHome_hbm _ (by omega)]
  exact unlock_rdNat _ _ (by omega)
theorem unlock_hdr : unlockAsked.qhdr 0x40_0000 = unlockBase.qhdr 0x40_0000 := by
  unfold State.qhdr
  rw [unlock_qword 0 (by omega), unlock_qword 1 (by omega), unlock_qword 2 (by omega), unlock_qword 3 (by omega), unlock_qword 4 (by omega)]
theorem unlock_fwRead (a n : Nat) (h : a + n ≤ 0x41_0000) : unlockAsked.fwRead a n = unlockBase.fwRead a n := by
  unfold State.fwRead
  rw [rdHome_hbm _ (by omega), rdHome_hbm _ (by omega)]
  refine List.map_congr_left fun i hi => ?_
  have := List.mem_range.1 hi
  exact unlock_byte _ (by omega)
theorem wrBytes_same (s : State) (a : Nat) (bs : List Byte) : (s.wrBytes a bs).host = s.host ∧ (s.wrBytes a bs).worlds = s.worlds ∧
    (s.wrBytes a bs).mgmt = s.mgmt ∧ (s.wrBytes a bs).sps = s.sps ∧ (s.wrBytes a bs).hbm = s.hbm := by
  obtain ⟨m, g, h⟩ := wrBytes_ex (s := s) (a := a) bs
  rw [h]; exact ⟨rfl, rfl, rfl, rfl, rfl⟩
theorem unlock_same : unlockAsked.host = unlockBase.host ∧ unlockAsked.worlds = unlockBase.worlds ∧ unlockAsked.mgmt = unlockBase.mgmt ∧
    unlockAsked.sps = unlockBase.sps ∧ unlockAsked.hbm = unlockBase.hbm := wrBytes_same unlockBase 0x41_0000 token
theorem unlock_token : unlockAsked.fwRead 0x41_0000 1024 = token := by
  have h := rdBytes_wrBytes (s := unlockBase) 0x41_0000 token
  rw [token_length] at h
  rw [State.fwRead, rdHome_hbm _ (by decide), unlockAsked_def, h]
theorem unlock_head : unlockAsked.headWReq 0x40_0000 = some unlockR.bits := by
  have h : unlockBase.headWReq 0x40_0000 = some unlockR.bits := by decide
  have hs : slotAddr 0x40_0000 ((unlockBase.qhdr 0x40_0000).crsv % (unlockBase.qhdr 0x40_0000).cap) = 0x40_0040 := by decide
  rw [← h]
  simp only [State.headWReq, unlock_hdr, hs, unlock_fwRead 0x40_0040 64 (by omega)]
theorem unlock_queue : unlockAsked.reqQueue unlockR = some 0x40_0000 := by
  have h : unlockBase.reqQueue unlockR = some 0x40_0000 := by decide
  simpa only [State.reqQueue, unlock_same.1, unlock_same.2.1] using h
theorem unlock_atHead : unlockAsked.atHead unlockR = true := by
  have h : unlockBase.atHead unlockR = true := by decide
  unfold State.atHead at h ⊢
  rw [unlock_queue, unlock_same.2.1]
  simp only [unlock_head]
  simp only [Bool.and_eq_true] at h ⊢
  exact ⟨by simp, h.2⟩
theorem unlock_awake : unlockAsked.reqAwaits unlockR = none := by
  have ha : ∀ l, unlockAsked.asleep l = unlockBase.asleep l := fun l => by simp only [State.asleep, State.bankSet, unlock_same.2.2.2.2]
  have hm : ∀ l, unlockAsked.marked l = unlockBase.marked l := fun l => by simp only [State.marked, unlock_same.2.2.2.2]
  have hp : unlockAsked.reqPlace unlockR = unlockBase.reqPlace unlockR := by
    funext a n; simp only [State.reqPlace, State.inWorld, unlock_same.2.1, unlock_same.2.2.1]
  have hl : reqBlkLen unlockAsked unlockR = reqBlkLen unlockBase unlockR := by
    simp only [reqBlkLen, (by decide : reqOp unlockR = 9)]
  have hb : (unlockBase.asleep ([(slotAddr 0x40_0000 ((unlockBase.qhdr 0x40_0000).crsv % (unlockBase.qhdr 0x40_0000).cap), 64)] ++
      (if unlockBase.reqPlace unlockR (reqBlk unlockR) ((reqBlkLen unlockBase unlockR).getD 0)
        then [(reqBlk unlockR, (reqBlkLen unlockBase unlockR).getD 0)] else []) ++ [(0x40_0000, 64)])).isEmpty = true ∧
      (unlockBase.marked [(0x40_0000, 64)]).isEmpty = true := by decide
  simp only [State.reqAwaits, unlock_queue, State.awaits, unlock_hdr, hp, hl, ha, hm, hb.1, hb.2]
  rfl
theorem token_field (x : List Byte) (a b : List Byte) (n : Nat) (h : x.length = n) : ((a ++ (x ++ b)).drop a.length).take n = x := by
  rw [List.drop_left, ← h, List.take_left]
theorem leNat_bytes64 (w : BitVec 512) : leNat (bytes64 w) = w.toNat := by
  rw [bytes64, leNat_leBytes, Nat.mod_eq_of_lt]
  exact Nat.lt_of_lt_of_eq w.isLt (by decide)
theorem bytes64_length (w : BitVec 512) : (bytes64 w).length = 64 := length_leBytes ..
theorem token_at (a : List Byte) (x b : List Byte) (n m : Nat) (ha : a.length = n) (hx : x.length = m) (h : token = a ++ (x ++ b)) :
    (token.drop n).take m = x := by rw [h, ← ha, token_field x a b m hx]
theorem token_device : (token.drop 8).take 64 = bytes64 Config.deviceHash :=
  token_at (leBytes 8 (1 + 2 ^ 32)) _ (bytes64 5 ++ (bytes64 (Config.chainKeyHash []) ++ List.replicate 824 0)) _ _ (length_leBytes ..)
    (bytes64_length _) rfl
theorem token_nonce : (token.drop 72).take 64 = bytes64 5 :=
  token_at (leBytes 8 (1 + 2 ^ 32) ++ bytes64 Config.deviceHash) _ (bytes64 (Config.chainKeyHash []) ++ List.replicate 824 0) _ _
    (by rw [List.length_append, length_leBytes, bytes64_length]) (bytes64_length _) (by simp only [token, List.append_assoc])
theorem token_chain : (token.drop 136).take 64 = bytes64 (Config.chainKeyHash []) :=
  token_at (leBytes 8 (1 + 2 ^ 32) ++ (bytes64 Config.deviceHash ++ bytes64 5)) _ (List.replicate 824 0) _ _
    (by rw [List.length_append, List.length_append, length_leBytes, bytes64_length, bytes64_length]) (bytes64_length _)
    (by simp only [token, List.append_assoc])
theorem token_rest : leNat ((token.drop 200).take 312) = 0 := by
  have h : token.drop 200 = List.replicate 824 0 := by
    have h' : token = (leBytes 8 (1 + 2 ^ 32) ++ (bytes64 Config.deviceHash ++ (bytes64 5 ++ bytes64 (Config.chainKeyHash [])))) ++ List.replicate 824 0 := by
      simp only [token, List.append_assoc]
    have hl : (leBytes 8 (1 + 2 ^ 32) ++ (bytes64 Config.deviceHash ++ (bytes64 5 ++ bytes64 (Config.chainKeyHash [])))).length = 200 := by
      simp only [List.length_append, length_leBytes, bytes64_length]
    rw [h', ← hl, List.drop_left]
  rw [h]; decide
theorem unlock_tokenOk (hv : Config.tokenVerifies token [] = true) : unlockAsked.tokenOk unlockR = true := by
  have hb : reqBlk unlockR = 0x41_0000 := by decide
  have h0 : reqArg0 unlockR = 0 := by decide
  have h1 : leNat ((token.drop 0).take 2) = 1 := by decide
  have h2 : leNat ((token.drop 2).take 2) = 0 := by decide
  have h3 : leNat ((token.drop 4).take 4) = 1 := by decide
  have hc : unlockAsked.fwRead (0x41_0000 + 1024) 0 = [] := rfl
  have hn : unlockBase.mgmt.nonce = some 5 := rfl
  simp only [State.tokenOk, State.tokenNonce, hb, h0, unlock_token, hc, h1, h2, h3, token_rest, token_device, token_nonce, token_chain, leNat_bytes64,
    unlock_same.2.2.1, hn, hv, (by decide : BitVec.ofNat 512 (BitVec.toNat (5 : BitVec 512)) = 5)]
  simp
/-- The token verifies in some packages: whether a signature does is left to the free constants. -/
theorem witness_WorldRequests_unlock (hv : Config.tokenVerifies token [] = true) :
    unlockAsked.atHead unlockR = true ∧ unlockAsked.reqAwaits unlockR = none ∧ unlockAsked.reqCode unlockR = none ∧ unlockAsked.under (reqOp unlockR) unlockR = none := by
  have h0 : reqOp unlockR = 9 := by decide
  have h1 : reqColour unlockR = 1 := by decide
  have h4 : reqShape unlockR = false := by decide
  have h5 : unlockR.svc = none := rfl
  have hw : tget unlockAsked.worlds 1 = some (world .standard) := by rw [unlock_same.2.1]; decide
  have hb : unlockAsked.blkBad unlockR = false := by
    have g0 : reqArg0 unlockR = 0 := by decide
    have g1 : reqBlkLen unlockAsked unlockR = some 1024 := by simp only [reqBlkLen, h0, g0]
    have g2 : reqBlk unlockR = 0x41_0000 := by decide
    have g3 : unlockAsked.reqPlace unlockR 0x41_0000 1024 = true := by
      have h : unlockBase.reqPlace unlockR 0x41_0000 1024 = true := by decide
      simpa only [State.reqPlace, h5, State.inWorld, unlock_same.2.1, unlock_same.2.2.1] using h
    have g4 (c : Nat) : unlockAsked.okRange c false 0x41_0000 1024 = true := by
      have h : (unlockBase.bankSet 0).alloc = true := by decide
      have ho (a : Nat) (ha : a < gib6) : unlockAsked.okAt c false a = true := by
        rw [okAt_hbm _ _ _ (by unfold gib6 at ha; omega), Nat.div_eq_of_lt ha]
        simpa only [State.bankSet, unlock_same.2.2.2.2] using h
      have h1 : (1024 - 1) / 2 ^ 21 + 1 = 1 := by decide
      rw [State.okRange, h1, ho (0x41_0000 + 1024 - 1) (by decide)]
      simpa using ho 0x41_0000 (by decide)
    simp [State.blkBad, g1, g2, g3, g4, h0, (by decide : writesBlk 9 = false)]
  have h7 : (world .standard).mode = .standard := rfl
  refine ⟨unlock_atHead, unlock_awake, ?_, ?_⟩
  · simp [State.reqCode, State.reqWorld, h0, h1, h4, h5, hb, hw, h7, unlock_tokenOk hv, fwOps, firstCause]
  · have hq : (world .standard).waiting = none := rfl
    simp [State.under, State.reqWorld, h1, hw, hq]

end Sys2Proof.Tests
end

/-! SUPPORT. The integer group: the one-operand forms, multiply-add, bit fields, sel, movi and icmp (R184, R186–R189). -/

namespace Sys2Proof.Machine

/-! ## Integers that N-bit values encode (R175, R183) -/

section Values
variable {n : Nat}

@[simp] theorem ofInt_intOf (u : Bool) (a : BitVec n) : BitVec.ofInt n (intOf n u a) = a := by
  cases u
  · exact BitVec.ofInt_toInt
  · simp [intOf]

/-- Without SAT the exact value of a multiply-add wraps, as N-bit arithmetic does (R184). -/
theorem wrapSat_mulAdd (sat u : Bool) (a b c : BitVec n) :
    wrapSat n sat u (intOf n u a * intOf n u b + intOf n u c) =
      if sat then satN n u (intOf n u a * intOf n u b + intOf n u c) else a * b + c := by
  simp [wrapSat, BitVec.ofInt_add, BitVec.ofInt_mul]

theorem satN_signed_of_inRange {x : Int} (hl : -2 ^ (n - 1) ≤ x) (hu : x < 2 ^ (n - 1)) : satN n false x = BitVec.ofInt n x := by
  have h : max (-2 ^ (n - 1)) (min x (2 ^ (n - 1) - 1)) = x := by omega
  simp [satN, h]

theorem satN_signed_two_pow : satN n false (2 ^ (n - 1)) = BitVec.intMax n := by
  have hp : (0 : Int) < 2 ^ (n - 1) := by positivity
  have h : max (-2 ^ (n - 1)) (min ((2 : Int) ^ (n - 1)) (2 ^ (n - 1) - 1)) = (BitVec.intMax n).toInt := by
    rw [BitVec.toInt_intMax]; omega
  simp only [satN, h, Bool.false_eq_true, if_false, BitVec.ofInt_toInt]

theorem toInt_intMin_of_pos (hn : 0 < n) : (BitVec.intMin n).toInt = -2 ^ (n - 1) := by
  have h : 2 ^ (n - 1) < 2 ^ n := Nat.pow_lt_pow_right (by decide) (by omega)
  rw [BitVec.toInt_intMin, Nat.mod_eq_of_lt h]; simp

theorem neg_two_pow_lt_toInt (hn : 0 < n) {a : BitVec n} (ha : a ≠ BitVec.intMin n) : -2 ^ (n - 1) < a.toInt := by
  have h : a.toInt ≠ -2 ^ (n - 1) := by rwa [← toInt_intMin_of_pos hn, ne_eq, BitVec.toInt_inj]
  have := a.le_toInt
  omega

/-- R186: the negation leaves the signed range for the most negative number alone. -/
theorem wrapSat_neg_toInt (hn : 0 < n) (sat : Bool) (a : BitVec n) :
    wrapSat n sat false (-a.toInt) = if a = BitVec.intMin n ∧ sat = true then BitVec.intMax n else -a := by
  have hwrap : BitVec.ofInt n (-a.toInt) = -a := by rw [BitVec.ofInt_neg, BitVec.ofInt_toInt]
  cases sat with
  | false => simp [wrapSat, hwrap]
  | true =>
    by_cases ha : a = BitVec.intMin n
    · simp [wrapSat, ha, toInt_intMin_of_pos hn, satN_signed_two_pow]
    · have hl := neg_two_pow_lt_toInt hn ha
      have hu := a.toInt_lt
      have hsat : satN n false (-a.toInt) = BitVec.ofInt n (-a.toInt) := satN_signed_of_inRange (by omega) (by omega)
      simp [wrapSat, ha, hsat, hwrap]

/-- R186: the absolute value is the negation of a negative number, else the number itself. -/
theorem wrapSat_natAbs_toInt (hn : 0 < n) (sat : Bool) (a : BitVec n) :
    wrapSat n sat false a.toInt.natAbs =
      if a = BitVec.intMin n then (if sat then BitVec.intMax n else a) else if a.msb then -a else a := by
  by_cases hneg : a.toInt < 0
  · have hm : a.msb = true := by simp [BitVec.msb_eq_toInt, hneg]
    have habs : (a.toInt.natAbs : Int) = -a.toInt := by omega
    rw [habs, wrapSat_neg_toInt hn]
    by_cases ha : a = BitVec.intMin n
    · simp [ha, BitVec.neg_intMin]
    · simp [ha, hm]
  · have hm : a.msb = false := by simp [BitVec.msb_eq_toInt, hneg]
    have habs : (a.toInt.natAbs : Int) = a.toInt := by omega
    have ha : a ≠ BitVec.intMin n := by
      rintro rfl
      rw [toInt_intMin_of_pos hn] at hneg
      exact hneg (by simp)
    have hl := a.le_toInt
    simp [habs, wrapSat, satN_signed_of_inRange hl a.toInt_lt, ha, hm]

/-! ## The counts of R186 are the library's -/

theorem cpopNatRec_eq_length_filter (a : BitVec n) (k : Nat) :
    a.cpopNatRec k 0 = ((List.range k).filter fun i => a.getLsbD i).length := by
  induction k with
  | zero => simp
  | succ k ih =>
    rw [BitVec.cpopNatRec_succ, BitVec.cpopNatRec_add, ih]
    cases h : a.getLsbD k <;> simp [List.range_succ, List.filter_append, h]

theorem onesOf_eq_cpop (a : BitVec n) : onesOf n a = a.cpop.toNat := by
  rw [BitVec.toNat_cpop, cpopNatRec_eq_length_filter, onesOf]

theorem trailZeros_eq_ctz (a : BitVec n) : trailZeros n a = a.ctz.toNat := by
  by_cases ha : a = 0#n
  · have hr : a.reverse = 0#n := BitVec.eq_of_getLsbD_eq fun j _ => by simp [BitVec.getLsbD_reverse, BitVec.getMsbD, ha]
    have hc : a.ctz = (n : BitVec n) := by rwa [BitVec.ctz_eq_reverse_clz, BitVec.clz_eq_iff_eq_zero]
    have hf : (List.range n).find? (fun i => a.getLsbD i) = none := by simp [ha]
    simp [trailZeros, hf, hc, Nat.mod_eq_of_lt Nat.lt_two_pow_self]
  · have hbit := BitVec.getLsbD_true_ctz_of_ne_zero ha
    have hf : (List.range n).find? (fun i => a.getLsbD i) = some a.ctz.toNat :=
      List.find?_range_eq_some.2 ⟨hbit, List.mem_range.2 (BitVec.lt_of_getLsbD hbit), fun j hj => by
        simp [BitVec.getLsbD_false_of_lt_ctz hj]⟩
    simp [trailZeros, hf]

/-- Leading zeros are the trailing zeros of the reversal. -/
theorem leadZeros_eq_trailZeros_reverse (a : BitVec n) : leadZeros n a = trailZeros n a.reverse := by
  have h : ∀ i ∈ List.range n, a.getLsbD (n - 1 - i) = a.reverse.getLsbD i := fun i hi => by
    rw [BitVec.getLsbD_reverse, BitVec.getMsbD, decide_eq_true (List.mem_range.1 hi), Bool.true_and]
  rw [leadZeros, trailZeros, List.find?_congr h]

theorem leadZeros_eq_clz (a : BitVec n) : leadZeros n a = a.clz.toNat := by
  rw [leadZeros_eq_trailZeros_reverse, trailZeros_eq_ctz, ← BitVec.clz_eq_reverse_ctz]

/-- A count is a function of N-bit values, for it fits in N bits. -/
theorem countN_eq_atN1 {f : (n : Nat) → BitVec n → Nat} {g : (n : Nat) → BitVec n → BitVec n} (h : ∀ n a, f n a = (g n a).toNat)
    (w : Bool) : countN w f = atN1 w g := by
  funext x
  cases w <;> simp [countN, atN1, h, BitVec.ofNat_toNat]

/-! ## Comparisons of integers are those of words (R189) -/

theorem intOf_inj (u : Bool) {a b : BitVec n} : intOf n u a = intOf n u b ↔ a = b :=
  ⟨fun h => by rw [← ofInt_intOf u a, h, ofInt_intOf], congrArg _⟩

theorem decide_intOf_lt (u : Bool) (a b : BitVec n) : decide (intOf n u a < intOf n u b) = if u then a.ult b else a.slt b := by
  cases u <;> simp [intOf, BitVec.ult_eq_decide, BitVec.slt_eq_decide]

theorem decide_intOf_le (u : Bool) (a b : BitVec n) : decide (intOf n u a ≤ intOf n u b) = if u then a.ule b else a.sle b := by
  cases u <;> simp [intOf, BitVec.ule_eq_decide, BitVec.sle_eq_decide]

theorem intOf_extend (u : Bool) (a : Word) : intOf 64 u (if u then a.setWidth 64 else a.signExtend 64) = intOf 32 u a := by
  cases u with
  | false => exact BitVec.toInt_signExtend_of_le (by decide)
  | true =>
    have := a.isLt
    simp only [intOf, if_true, BitVec.toNat_setWidth]
    omega

/-- A relation of icmp as a comparison of words, signed or unsigned. -/
def wordRel (cc : ICC) (u : Bool) (x y : BitVec n) : Bool := match cc with
  | .eq => x == y
  | .ne => x != y
  | .lt => if u then x.ult y else x.slt y
  | .le => if u then x.ule y else x.sle y
  | .gt => if u then y.ult x else y.slt x
  | .ge => if u then y.ule x else y.sle x

theorem icmpRel_intOf (cc : ICC) (u : Bool) (a b : BitVec n) : icmpRel cc (intOf n u a) (intOf n u b) = wordRel cc u a b := by
  cases cc with
  | eq => simp [icmpRel, wordRel, intOf_inj, beq_eq_decide]
  | ne => simp [icmpRel, wordRel, intOf_inj, bne, beq_eq_decide]
  | lt => exact decide_intOf_lt u a b
  | le => exact decide_intOf_le u a b
  | gt => exact decide_intOf_lt u b a
  | ge => exact decide_intOf_le u b a

/-- An operand of icmp as 64 bits: the low half of a 32-bit form extended as its numbers are read. -/
def icmpOperand (w u : Bool) (x : DWord) : DWord :=
  if w then x else if u then (x.setWidth 32).setWidth 64 else (x.setWidth 32).signExtend 64

/-- The relation of a 32-bit form is that of the extended operands. -/
theorem icmpRel_of_width (w u : Bool) (cc : ICC) (x y : DWord) :
    (if w then icmpRel cc (intOf 64 u x) (intOf 64 u y) else icmpRel cc (intOf 32 u (x.setWidth 32)) (intOf 32 u (y.setWidth 32))) =
      wordRel cc u (icmpOperand w u x) (icmpOperand w u y) := by
  cases w with
  | true => exact icmpRel_intOf cc u x y
  | false =>
    rw [← icmpRel_intOf]
    simp only [icmpOperand, Bool.false_eq_true, if_false, intOf_extend]

end Values

/-! ## The instructions whose shape takes a function: one-operand forms and bit fields -/

theorem exec_iabs (o : IUn) (s : State) :
    exec (.iabs o) s = intUn s o false false (atN1 false fun n a => wrapSat n o.sat false a.toInt.natAbs) := rfl
theorem exec_iabs64 (o : IUn) (s : State) :
    exec (.iabs64 o) s = intUn s o true true (atN1 true fun n a => wrapSat n o.sat false a.toInt.natAbs) := rfl
theorem exec_ineg (o : IUn) (s : State) :
    exec (.ineg o) s = intUn s o false false (atN1 false fun n a => wrapSat n o.sat false (-a.toInt)) := rfl
theorem exec_ineg64 (o : IUn) (s : State) :
    exec (.ineg64 o) s = intUn s o true true (atN1 true fun n a => wrapSat n o.sat false (-a.toInt)) := rfl
theorem exec_notOp (o : IUn) (s : State) : exec (.notOp o) s = intUn s o false false (atN1 false fun _ a => ~~~a) := rfl
theorem exec_notOp64 (o : IUn) (s : State) : exec (.notOp64 o) s = intUn s o true true (atN1 true fun _ a => ~~~a) := rfl
theorem exec_brev (o : IUn) (s : State) : exec (.brev o) s = intUn s o false false (atN1 false fun _ a => a.reverse) := rfl
theorem exec_brev64 (o : IUn) (s : State) : exec (.brev64 o) s = intUn s o true true (atN1 true fun _ a => a.reverse) := rfl
theorem exec_movOp (o : IUn) (s : State) : exec (.movOp o) s = intUn s o false false (atN1 false fun _ a => a) := rfl
theorem exec_movOp64 (o : IUn) (s : State) : exec (.movOp64 o) s = intUn s o true true (atN1 true fun _ a => a) := rfl
theorem exec_popc (o : IUn) (s : State) : exec (.popc o) s = intUn s o false false (atN1 false fun _ a => a.cpop) :=
  congrArg (intUn s o false false) (countN_eq_atN1 (fun _ a => onesOf_eq_cpop a) false)
theorem exec_popc64 (o : IUn) (s : State) : exec (.popc64 o) s = intUn s o true false (atN1 true fun _ a => a.cpop) :=
  congrArg (intUn s o true false) (countN_eq_atN1 (fun _ a => onesOf_eq_cpop a) true)
theorem exec_clz (o : IUn) (s : State) : exec (.clz o) s = intUn s o false false (atN1 false fun _ a => a.clz) :=
  congrArg (intUn s o false false) (countN_eq_atN1 (fun _ a => leadZeros_eq_clz a) false)
theorem exec_clz64 (o : IUn) (s : State) : exec (.clz64 o) s = intUn s o true false (atN1 true fun _ a => a.clz) :=
  congrArg (intUn s o true false) (countN_eq_atN1 (fun _ a => leadZeros_eq_clz a) true)
theorem exec_ctz (o : IUn) (s : State) : exec (.ctz o) s = intUn s o false false (atN1 false fun _ a => a.ctz) :=
  congrArg (intUn s o false false) (countN_eq_atN1 (fun _ a => trailZeros_eq_ctz a) false)
theorem exec_ctz64 (o : IUn) (s : State) : exec (.ctz64 o) s = intUn s o true false (atN1 true fun _ a => a.ctz) :=
  congrArg (intUn s o true false) (countN_eq_atN1 (fun _ a => trailZeros_eq_ctz a) true)
theorem exec_bfx (o : IBf) (s : State) :
    exec (.bfx o) s = intField s o false fun a _ p n => (fieldGet 32 o.u (a.setWidth 32) p n).setWidth 64 := rfl
theorem exec_bfx64 (o : IBf) (s : State) : exec (.bfx64 o) s = intField s o true fun a _ p n => fieldGet 64 o.u a p n := rfl
theorem exec_bfi (o : IBf) (s : State) :
    exec (.bfi o) s = intField s o false fun a d p n => (fieldPut 32 (a.setWidth 32) (d.setWidth 32) p n).setWidth 64 := rfl
theorem exec_bfi64 (o : IBf) (s : State) : exec (.bfi64 o) s = intField s o true fun a d p n => fieldPut 64 a d p n := rfl

/-! ## The shapes of the integer forms, where nothing holds the word back -/

section Shapes
variable {s : State} {i : Nat} {v : Convoy}

/-- A one-operand form of 32 bits, whose function is `g` on words. -/
theorem intUn32_of_goes {o : IUn} (h : s.goes i v o.c (vregs o.a false ++ dregs o.d false) (vlatches o.a))
    {f : (n : Nat) → BitVec n → BitVec n} {g : Word → Word} (hf : ∀ a, f 32 a = g a) :
    intUn s o false false (atN1 false f) = .next (s.retire i false o.d (wordsOf o.lits) ((s.active v o.c.g).map fun l =>
      (l, (g (s.src32 v l o.c.lit o.a)).setWidth 64, 0))) := by
  simp only [intUn, compute_of_goes h, atN1, hf, State.src32, Bool.false_eq_true, if_false]

/-- A one-operand form of 64 bits, whose function is `g` on double words; the destination of a count is 32 bits wide. -/
theorem intUn64_of_goes {o : IUn} {wd : Bool} (h : s.goes i v o.c (vregs o.a true ++ dregs o.d wd) (vlatches o.a))
    {f : (n : Nat) → BitVec n → BitVec n} {g : DWord → DWord} (hf : ∀ a, f 64 a = g a) :
    intUn s o true wd (atN1 true f) = .next (s.retire i wd o.d (wordsOf o.lits) ((s.active v o.c.g).map fun l =>
      (l, g (s.src v l true o.c.lit o.a), 0))) := by
  simp only [intUn, compute_of_goes h, atN1, hf, if_true]

theorem intMad_of_goes {o : IMad} {w : Bool} (h : s.goes i v o.c (vregs o.a w ++ bregs o.b w ++ vregs o.e w ++ dregs o.d w)
    (vlatches o.a ++ blatches o.b ++ vlatches o.e)) :
    let ls := lits o.c.lit o.a.isLit o.b.isLit o.e.isLit
    let f (n : Nat) (a b c : BitVec n) : BitVec n :=
      if o.sat then satN n o.u (intOf n o.u a * intOf n o.u b + intOf n o.u c) else a * b + c
    intMad s o w = .next (s.retire i w o.d (wordsOf o.lits) ((s.active v o.c.g).map fun l =>
      let a := s.src v l w ls.1 o.a
      let b := s.bsrc v l w ls.2.1 o.b
      let c := s.src v l w ls.2.2 o.e
      (l, if w then f 64 a b c else (f 32 (a.setWidth 32) (b.setWidth 32) (c.setWidth 32)).setWidth 64, 0))) := by
  simp only [intMad, compute_of_goes h, wrapSat_mulAdd]

theorem intField_of_goes {o : IBf} {w : Bool} (h : s.goes i v o.c (vregs o.a w ++ vregs o.pos false ++ vregs o.wid false ++ dregs o.d w)
    (vlatches o.a ++ vlatches o.pos ++ vlatches o.wid)) (f : DWord → DWord → Nat → Nat → DWord) :
    let ls := lits o.c.lit o.a.isLit o.pos.isLit o.wid.isLit
    intField s o w f = .next (s.retire i w o.d (wordsOf o.lits) ((s.active v o.c.g).map fun l =>
      (l, f (s.src v l w ls.1 o.a) (s.old v l w o.d) (s.src32 v l ls.2.1 o.pos).toNat (s.src32 v l ls.2.2 o.wid).toNat, 0))) := by
  simp only [intField, compute_of_goes h]

theorem intSel_of_goes {o : ISel} {w : Bool} (h : s.goes i v o.c (vregs o.a w ++ vregs o.b w ++ dregs o.d w)
    (vlatches o.a ++ vlatches o.b)) :
    let ls := lits o.c.lit o.a.isLit o.b.isLit false
    intSel s o w = .next (s.retire i w o.d (wordsOf o.lits) ((s.active v o.c.g).map fun l =>
      (l, if l.f.rdP o.p then s.src v l w ls.1 o.a else s.src v l w ls.2.1 o.b, 0))) := by
  simp only [intSel, compute_of_goes h]

theorem intMovi_of_goes {o : IMovi} {w : Bool} (h : s.goes i v o.c (dregs o.d w) []) :
    intMovi s o w = .next (s.retire i w o.d (wordsOf o.lits) ((s.active v o.c.g).map fun l =>
      (l, (if o.imm = 0x100000 then (if w then o.c.lit else (o.c.lit.setWidth 32).setWidth 64)
           else if w then o.imm.signExtend 64 else (o.imm.signExtend 32).setWidth 64), 0))) := by
  have h' : s.goes i v o.c ([] ++ dregs o.d w) [] := h
  have hl : o.lits = decide (o.imm = 0x100000) := by simp [IMovi.lits, immLit, beq_eq_decide]
  simp only [intMovi, compute_of_goes h', hl]

theorem intCmp_of_goes {o : ICmp} {w : Bool} (h : s.goes i v o.c (vregs o.a w ++ bregs o.b w) (vlatches o.a ++ blatches o.b)) :
    let ls := lits o.c.lit o.a.isLit o.b.isLit false
    intCmp s o w = .next (s.retireP i o.p (wordsOf o.lits) ((s.active v o.c.g).map fun l =>
      (l, wordRel o.cc o.u (icmpOperand w o.u (s.src v l w ls.1 o.a)) (icmpOperand w o.u (s.bsrc v l w ls.2.1 o.b)), 0))) := by
  simp only [intCmp, computeP_of_goes h, icmpRel_of_width]

end Shapes

/-- Settles O3: the shape of a one-operand form gives the state; the value of each form is a fact about words. -/
theorem intOneOperand : Obligations.IntOneOperand := by
  constructor
  · intro s i v o h out
    have un {f : (n : Nat) → BitVec n → BitVec n} {g : Word → Word} (hf : ∀ a, f 32 a = g a) :
        intUn s o false false (atN1 false f) = out g := intUn32_of_goes h hf
    clear_value out
    simp only [exec_iabs, exec_ineg, exec_notOp, exec_popc, exec_clz, exec_ctz, exec_brev, exec_movOp]
    exact ⟨un (wrapSat_natAbs_toInt (by decide) o.sat), un (wrapSat_neg_toInt (by decide) o.sat), un fun _ => rfl, un fun _ => rfl,
      un fun _ => rfl, un fun _ => rfl, un fun _ => rfl, un fun _ => rfl⟩
  · intro s i v o out
    have un {wd : Bool} (h : s.goes i v o.c (vregs o.a true ++ dregs o.d wd) (vlatches o.a)) {f : (n : Nat) → BitVec n → BitVec n}
        {g : DWord → DWord} (hf : ∀ a, f 64 a = g a) : intUn s o true wd (atN1 true f) = out wd g := intUn64_of_goes h hf
    clear_value out
    constructor <;> intro h
    · simp only [exec_iabs64, exec_ineg64, exec_notOp64, exec_brev64, exec_movOp64]
      exact ⟨un h (wrapSat_natAbs_toInt (by decide) o.sat), un h (wrapSat_neg_toInt (by decide) o.sat), un h fun _ => rfl,
        un h fun _ => rfl, un h fun _ => rfl⟩
    · simp only [exec_popc64, exec_clz64, exec_ctz64]
      exact ⟨un h fun _ => rfl, un h fun _ => rfl, un h fun _ => rfl⟩

/-- Settles O4: each shape gives the state; imad's value is that of exact arithmetic wrapped, icmp's relation that of words. -/
theorem intOtherForms : Obligations.IntOtherForms := by
  constructor
  · intro s i v m o lm lf out
    refine ⟨fun h => intMad_of_goes h, fun h => intMad_of_goes h, fun w h => ?_⟩
    have field (f : DWord → DWord → Nat → Nat → DWord) : intField s o w f = out w f := intField_of_goes h f
    constructor <;> rintro rfl
    · simp only [exec_bfx, exec_bfi]
      exact ⟨field _, field _⟩
    · simp only [exec_bfx64, exec_bfi64]
      exact ⟨field _, field _⟩
  · refine fun s i v w e m o => ⟨fun h => ?_, fun h => ?_, fun h => ?_⟩
    · cases w <;> exact intSel_of_goes h
    · cases w <;> exact intMovi_of_goes h
    · cases w <;> exact intCmp_of_goes h

end Sys2Proof.Machine

/-! SUPPORT. The capability instructions: the derivations, ctest, cget and cdeleg (R228–R238). -/

namespace Sys2Proof.Machine

section CapShapes
variable {s : State} {i : Nat} {v : Convoy} {c : Ctl} {regs : List RegUse} {lat : List (BitVec 2)}

/-- R228: the result goes into each active lane's register, or once into the uniform one when some lane is active. -/
theorem capForm_of_goes {uf : Bool} {d : BitVec 6} (h : s.goes i v c (regs ++ capDst uf d) lat) (n : Nat) (f : Convoy → Ln → Cap) :
    capForm s c uf d regs lat n f = .next (((if uf then (s.active v c.g).take 1 else s.active v c.g).foldl
      (fun t l => if uf then t.wrKs i d.toNat (f v l) else t.wrK l.f d.toNat (f v l)) s).advance i n) :=
  issue_of_goes h _

theorem execCtest_of_goes {o : CtestOp} (h : s.goes i v o.c (capRegs o.uf o.ua o.a) []) :
    let bit (l : Ln) : Bool := s.ctestBit (s.colourOf v) o.live (s.capOf v l (o.uf || o.ua) o.a)
    execCtest o s = .next ((if o.uf then ((s.active v o.c.g).take 1).foldl (fun t l => t.wrQ i (o.d.setWidth 2) (bit l)) s
      else (s.active v o.c.g).foldl (fun t l => t.wrP l.id o.d (bit l)) s).advance i 1) :=
  issue_of_goes h _

theorem execCget_lane_of_goes {o : CgetOp} {d : VDst} (hd : o.d = .lane d)
    (h : s.goes i v o.c (capRegs false o.ua o.a ++ dregs d (fieldWide o.field)) []) :
    execCget o s = .next ((s.dsts i (fieldWide o.field) d
      ((s.active v o.c.g).map fun l => (l, (s.capOf v l o.ua o.a).field o.field))).advance i 1) := by
  rw [execCget, hd]
  exact issue_of_goes h _

theorem execCget_uni_of_goes {o : CgetOp} {n : BitVec 6} (hd : o.d = .uni n) (h : s.goes i v o.c [] []) :
    let x := (v.u.rdK o.a.toNat).field o.field
    execCget o s = .next ((((s.active v o.c.g).take 1).foldl (fun t _ => t.modU i fun u =>
      if fieldWide o.field then u.wr64 n.toNat x else u.wr n.toNat (x.setWidth 32)) s).advance i 1) := by
  rw [execCget, hd]
  exact issue_of_goes h _

end CapShapes

/-- Settles O13: each derivation is a `capForm`; ctest and cget split by their form, and cdeleg is a local access that passes. -/
theorem capForms : Obligations.CapForms := by
  refine ⟨fun s i v o m e q z => ?_, fun s i v o m => ?_, fun s i v o => ?_⟩
  · exact ⟨fun h => capForm_of_goes h _ _, fun h => ⟨capForm_of_goes h _ _, capForm_of_goes h _ _⟩, fun h => capForm_of_goes h _ _,
      fun h => capForm_of_goes h _ _, fun h => capForm_of_goes (regs := []) h _ _⟩
  · refine ⟨fun h => ?_, fun d hd h => execCget_lane_of_goes hd h, fun n hd h => execCget_uni_of_goes hd h⟩
    have hctest : exec (.ctest o) s = _ := execCtest_of_goes h
    constructor <;> (intro huf; rw [hctest, huf]; rfl)
  · intro regs lanes r h hbad hheld hroom
    have hissue : execCdeleg o s =
        .next (localAccess s i v r 64 true 0 ((r.foldl (fun t x => t.delegLane s i v o x) s).advance i 1)) := by
      unfold execCdeleg
      exact issue_of_goes h _
    exact hissue.trans (congrArg _ (localAccess_of_ok hbad hheld fun _ => hroom))

end Sys2Proof.Machine

/-! SUPPORT. The encodings: bits of a field, tables of codes, the operand fields, and decoder and encoder of each shape (R149–R157,
R181–R285). -/

namespace Sys2Proof.Machine

/-! ## Bits of a field -/

@[simp] theorem viol_eq_nil (b : Bool) (n : Nat) : viol b n = [] ↔ b = false := by cases b <;> simp [viol]
@[simp] theorem zeroF_eq_nil {n : Nat} (x : BitVec n) : zeroF x = [] ↔ x = 0#n := by simp [zeroF]
@[simp] theorem zeroM_eq_nil (f : Fields) (m : BitVec 12) : zeroM f m = [] ↔ f.md &&& m = 0#12 := by simp [zeroM]
@[simp] theorem noWbs_eq_nil (f : Fields) : noWbs f = [] ↔ f.wbs = 0#1 := by simp [noWbs]

theorem modF_eq (f : Fields) (lo n : Nat) : modF f lo n = (f.md.extractLsb' lo n).toNat := by
  simp [modF, BitVec.extractLsb'_toNat]

/-- A run of bits that a mask of zero bits covers is zero. -/
theorem extractLsb'_of_and_eq_zero {w : Nat} {x m : BitVec w} (h : x &&& m = 0) (lo n : Nat)
    (hm : m.extractLsb' lo n = BitVec.allOnes n) : x.extractLsb' lo n = 0#n := by
  have := congrArg (BitVec.extractLsb' lo n) h
  rw [BitVec.extractLsb'_and, hm, BitVec.and_allOnes] at this
  rw [this]
  ext i hi
  simp

theorem ofBool_getLsbD {w : Nat} (x : BitVec w) (k : Nat) : BitVec.ofBool (x.getLsbD k) = x.extractLsb' k 1 := by
  ext i hi
  obtain rfl : i = 0 := by omega
  simp

/-! ## Codes -/

/-- A table of codes names each value once, by a code of n bits. -/
structure Codes {α : Type} (t : List (Nat × α)) (n : Nat) : Prop where
  keys : (t.map (·.1)).Nodup
  vals : (t.map (·.2)).Nodup
  all : ∀ x, x ∈ t.map (·.2)
  lt : ∀ x ∈ t, x.1 < 2 ^ n

section
variable {α : Type} [DecidableEq α] {t : List (Nat × α)} {n : Nat} {x d : α}

theorem mem_toCode (hx : x ∈ t.map (·.2)) : (toCode t x, x) ∈ t := by
  induction t with
  | nil => simp at hx
  | cons y t ih =>
    obtain ⟨k, y⟩ := y
    by_cases h : x = y
    · simp [toCode, h]
    · have := ih (by simpa [h] using hx)
      simp [toCode, h, this]

omit [DecidableEq α] in
theorem lookup_of_mem (hk : (t.map (·.1)).Nodup) {k : Nat} (h : (k, x) ∈ t) : t.lookup k = some x := by
  induction t with
  | nil => simp at h
  | cons y t ih =>
    obtain ⟨j, y⟩ := y
    obtain ⟨hj, ht⟩ := List.nodup_cons.1 hk
    rcases List.mem_cons.1 h with e | hm
    · obtain ⟨rfl, rfl⟩ := Prod.mk.inj e; simp [List.lookup]
    · have : (k == j) = false := by
        rw [beq_eq_false_iff_ne]
        rintro rfl
        exact hj (List.mem_map.2 ⟨_, hm, rfl⟩)
      simp [List.lookup, this, ih ht hm]

omit [DecidableEq α] in
theorem mem_of_lookup {k : Nat} (h : t.lookup k = some x) : (k, x) ∈ t := by
  induction t with
  | nil => simp at h
  | cons y t ih =>
    obtain ⟨j, y⟩ := y
    by_cases hj : k = j
    · simp_all
    · have : (k == j) = false := by simpa using hj
      simp_all [List.lookup]

theorem eq_toCode_of_mem (hv : (t.map (·.2)).Nodup) {k : Nat} (h : (k, x) ∈ t) : toCode t x = k := by
  induction t with
  | nil => simp at h
  | cons y t ih =>
    obtain ⟨j, y⟩ := y
    obtain ⟨hy, ht⟩ := List.nodup_cons.1 hv
    rcases List.mem_cons.1 h with h | h
    · cases h; simp [toCode]
    · have : x ≠ y := fun e => hy (e ▸ List.mem_map.2 ⟨_, h, rfl⟩)
      simp [toCode, this, ih ht h]

/-- What a code of n bits decodes to. -/
def ofBits {α : Type} (t : List (Nat × α)) (d : α) {n : Nat} (c : BitVec n) : Dec α := ofCode t d c.toNat

omit [DecidableEq α] in
@[simp] theorem ofCode_modF (f : Fields) (lo : Nat) : ofCode t d (modF f lo n) = ofBits t d (f.md.extractLsb' lo n) := by
  rw [ofBits, modF_eq]

/-- The code of a value decodes to it. -/
theorem Codes.ofBits_toCode (h : Codes t n) (x d : α) : ofBits t d (BitVec.ofNat n (toCode t x)) = ⟨[], x⟩ := by
  have hm := mem_toCode (h.all x)
  have hlt : toCode t x < 2 ^ n := h.lt _ hm
  simp [ofBits, ofCode, Nat.mod_eq_of_lt hlt, lookup_of_mem h.keys hm]

/-- A code that the table holds is that of the value it decodes to. -/
theorem Codes.toCode_ofBits (h : Codes t n) {c : BitVec n} (hb : (ofBits t d c).bad = []) :
    BitVec.ofNat n (toCode t (ofBits t d c).val) = c := by
  unfold ofBits ofCode at hb ⊢
  cases hl : t.lookup c.toNat with
  | none => simp [hl] at hb
  | some x => simp [eq_toCode_of_mem h.vals (mem_of_lookup hl)]

end

theorem codes_rm : Codes rmCodes 2 := ⟨by decide, by decide, fun x => by cases x <;> decide, by decide⟩
theorem codes_scope : Codes scopeCodes 3 := ⟨by decide, by decide, fun x => by cases x <;> decide, by decide⟩
theorem codes_cls : Codes clsCodes 3 := ⟨by decide, by decide, fun x => by rcases x with _ | x <;> [skip; cases x] <;> decide, by decide⟩
theorem codes_icc : Codes iccCodes 3 := ⟨by decide, by decide, fun x => by cases x <;> decide, by decide⟩
theorem codes_fcc : Codes fccCodes 3 := ⟨by decide, by decide, fun x => by cases x <;> decide, by decide⟩
theorem codes_qfmt : Codes qfmtCodes 4 := ⟨by decide, by decide, fun x => by cases x <;> decide, by decide⟩
theorem codes_red : Codes redCodes 4 := ⟨by decide, by decide, fun x => by cases x <;> decide, by decide⟩
theorem codes_shfl : Codes shflCodes 2 := ⟨by decide, by decide, fun x => by cases x <;> decide, by decide⟩
theorem codes_part : Codes partCodes 2 := ⟨by decide, by decide, fun x => by cases x <;> decide, by decide⟩
theorem codes_sz : Codes szCodes 3 := ⟨by decide, by decide, fun x => by cases x <;> decide, by decide⟩
theorem codes_field : Codes fieldCodes 4 := ⟨by decide, by decide, fun x => by cases x <;> decide, by decide⟩
theorem codes_esz : Codes eszCodes 3 := ⟨by decide, by decide, fun x => by cases x <;> decide, by decide⟩
theorem codes_ast : Codes astCodes 4 := ⟨by decide, by decide, fun x => by rcases x with _ | x <;> [skip; cases x] <;> decide, by decide⟩
theorem codes_clx : Codes clxCodes 4 := ⟨by decide, by decide, fun x => by cases x <;> decide, by decide⟩
theorem codes_nmc : Codes nmcCodes 4 := ⟨by decide, by decide, fun x => by cases x <;> decide, by decide⟩
theorem codes_atom : Codes atomCodes 3 := ⟨by decide, by decide, fun x => by cases x <;> decide, by decide⟩
theorem codes_wcc : Codes wccCodes 2 := ⟨by decide, by decide, fun x => by cases x <;> decide, by decide⟩
theorem codes_lnFn : Codes lnFnCodes 6 := ⟨by decide, by decide, fun x => by cases x <;> decide, by decide⟩
theorem codes_lnTy : Codes lnTyCodes 4 := ⟨by decide, by decide, fun x => by cases x <;> decide, by decide⟩
theorem codes_cvt : Codes cvtCodes 8 := ⟨by decide, by decide, fun x => by cases x <;> decide, by decide⟩

/-! ## Masks of MOD -/

/-- A mask of one run of bits finds zero exactly where the run is. -/
theorem and_run_eq_zero {x m : BitVec 12} (lo n : Nat) (hm : ∀ i < 12, m.getLsbD i = (decide (lo ≤ i) && decide (i < lo + n))) :
    x &&& m = 0#12 ↔ x.extractLsb' lo n = 0#n := by
  refine ⟨fun h => ?_, fun h => ?_⟩
  · ext i hi
    by_cases hl : lo + i < 12
    · have hb := congrArg (fun y => y.getLsbD (lo + i)) h
      simpa [hm _ hl, hi] using hb
    · simp [BitVec.getLsbD_of_ge x (lo + i) (by omega)]
  · refine BitVec.eq_of_getLsbD_eq fun i hi => ?_
    rw [BitVec.getLsbD_and, hm i hi]
    by_cases hr : lo ≤ i ∧ i < lo + n
    · have hb := congrArg (fun y => y.getLsbD (i - lo)) h
      have hs : lo + (i - lo) = i := by omega
      have hn : i - lo < n := by omega
      simp [hs, hn] at hb
      simp [hb]
    · have : (decide (lo ≤ i) && decide (i < lo + n)) = false := by
        simpa using fun h => by omega
      simp [this]

theorem and_runs_eq_zero {x m : BitVec 12} (lo n lo' n' : Nat)
    (hm : m = (BitVec.allOnes n).setWidth 12 <<< lo ||| (BitVec.allOnes n').setWidth 12 <<< lo') :
    x &&& m = 0#12 ↔ x.extractLsb' lo n = 0#n ∧ x.extractLsb' lo' n' = 0#n' := by
  have hrun : ∀ lo n, ∀ i < 12, ((BitVec.allOnes n).setWidth 12 <<< lo).getLsbD i = (decide (lo ≤ i) && decide (i < lo + n)) := by
    intro lo n i hi
    simp only [BitVec.getLsbD_shiftLeft, BitVec.getLsbD_setWidth, BitVec.getLsbD_allOnes]
    grind
  rw [← and_run_eq_zero lo n (hrun lo n), ← and_run_eq_zero lo' n' (hrun lo' n'), hm]
  simp only [BitVec.eq_of_getLsbD_eq_iff, BitVec.getLsbD_and, BitVec.getLsbD_or]
  grind

/-- Every mask of the decoder's reserved bits, run by run. -/
@[simp] theorem and_mask (x : BitVec 12) :
    (x &&& 0x00C#12 = 0#12 ↔ x.extractLsb' 2 2 = 0#2) ∧
    (x &&& 0x7F0#12 = 0#12 ↔ x.extractLsb' 4 7 = 0#7) ∧
    (x &&& 0xFFD#12 = 0#12 ↔ x.extractLsb' 2 10 = 0#10 ∧ x.extractLsb' 0 1 = 0#1) ∧
    (x &&& 0xFFE#12 = 0#12 ↔ x.extractLsb' 1 11 = 0#11) ∧
    (x &&& 0xFFF#12 = 0#12 ↔ x.extractLsb' 0 12 = 0#12) ∧
    (x &&& 0xFF8#12 = 0#12 ↔ x.extractLsb' 3 9 = 0#9) ∧
    (x &&& 0x008#12 = 0#12 ↔ x.extractLsb' 3 1 = 0#1) ∧
    (x &&& 0xFC0#12 = 0#12 ↔ x.extractLsb' 6 6 = 0#6) ∧
    (x &&& 0xF00#12 = 0#12 ↔ x.extractLsb' 8 4 = 0#4) ∧
    (x &&& 0x00E#12 = 0#12 ↔ x.extractLsb' 1 3 = 0#3) ∧
    (x &&& 0xFE0#12 = 0#12 ↔ x.extractLsb' 5 7 = 0#7) ∧
    (x &&& 0xFFC#12 = 0#12 ↔ x.extractLsb' 2 10 = 0#10) ∧
    (x &&& 0xC00#12 = 0#12 ↔ x.extractLsb' 10 2 = 0#2) ∧
    (x &&& 0x800#12 = 0#12 ↔ x.extractLsb' 11 1 = 0#1) ∧
    (x &&& 0x010#12 = 0#12 ↔ x.extractLsb' 4 1 = 0#1) ∧
    (x &&& 0x3FE#12 = 0#12 ↔ x.extractLsb' 1 9 = 0#9) ∧
    (x &&& 0x3FF#12 = 0#12 ↔ x.extractLsb' 0 10 = 0#10) ∧
    (x &&& 0x1FF#12 = 0#12 ↔ x.extractLsb' 0 9 = 0#9) ∧
    (x &&& 0x3F0#12 = 0#12 ↔ x.extractLsb' 4 6 = 0#6) ∧
    (x &&& 0x7FF#12 = 0#12 ↔ x.extractLsb' 0 11 = 0#11) ∧
    (x &&& 0xBFF#12 = 0#12 ↔ x.extractLsb' 11 1 = 0#1 ∧ x.extractLsb' 0 10 = 0#10) ∧
    (x &&& 0x9FF#12 = 0#12 ↔ x.extractLsb' 11 1 = 0#1 ∧ x.extractLsb' 0 9 = 0#9) ∧
    (x &&& 0x001#12 = 0#12 ↔ x.extractLsb' 0 1 = 0#1) ∧
    (x &&& 0xFF0#12 = 0#12 ↔ x.extractLsb' 4 8 = 0#8) ∧
    (x &&& 0x007#12 = 0#12 ↔ x.extractLsb' 0 3 = 0#3) ∧
    (x &&& 0xF80#12 = 0#12 ↔ x.extractLsb' 7 5 = 0#5) ∧
    (x &&& 0xFFB#12 = 0#12 ↔ x.extractLsb' 3 9 = 0#9 ∧ x.extractLsb' 0 2 = 0#2) ∧
    (x &&& 0x004#12 = 0#12 ↔ x.extractLsb' 2 1 = 0#1) :=
  ⟨and_run_eq_zero 2 2 (by decide),
   and_run_eq_zero 4 7 (by decide),
   and_runs_eq_zero 2 10 0 1 (by decide),
   and_run_eq_zero 1 11 (by decide),
   and_run_eq_zero 0 12 (by decide),
   and_run_eq_zero 3 9 (by decide),
   and_run_eq_zero 3 1 (by decide),
   and_run_eq_zero 6 6 (by decide),
   and_run_eq_zero 8 4 (by decide),
   and_run_eq_zero 1 3 (by decide),
   and_run_eq_zero 5 7 (by decide),
   and_run_eq_zero 2 10 (by decide),
   and_run_eq_zero 10 2 (by decide),
   and_run_eq_zero 11 1 (by decide),
   and_run_eq_zero 4 1 (by decide),
   and_run_eq_zero 1 9 (by decide),
   and_run_eq_zero 0 10 (by decide),
   and_run_eq_zero 0 9 (by decide),
   and_run_eq_zero 4 6 (by decide),
   and_run_eq_zero 0 11 (by decide),
   and_runs_eq_zero 11 1 0 10 (by decide),
   and_runs_eq_zero 11 1 0 9 (by decide),
   and_run_eq_zero 0 1 (by decide),
   and_run_eq_zero 4 8 (by decide),
   and_run_eq_zero 0 3 (by decide),
   and_run_eq_zero 7 5 (by decide),
   and_runs_eq_zero 3 9 0 2 (by decide),
   and_run_eq_zero 2 1 (by decide)⟩

/-- Where a run of bits of two fields side by side stands. -/
theorem append_bits {v w : Nat} (x : BitVec v) (y : BitVec w) (k : Nat) :
    (w ≤ k → (x ++ y).getLsbD k = x.getLsbD (k - w)) ∧ (k < w → (x ++ y).getLsbD k = y.getLsbD k) ∧
    (∀ n, w ≤ k → (x ++ y).extractLsb' k n = x.extractLsb' (k - w) n) ∧
    (∀ n, k + n ≤ w → (x ++ y).extractLsb' k n = y.extractLsb' k n) := by
  refine ⟨fun h => ?_, fun h => ?_, fun n h => BitVec.extractLsb'_append_eq_of_le h,
    fun n h => BitVec.extractLsb'_append_eq_of_add_le h⟩
  · rw [BitVec.getLsbD_append, if_neg (by omega)]
  · rw [BitVec.getLsbD_append, if_pos h]

/-! ## Operand fields: decoding what was encoded -/

@[simp] theorem srcV_enc (x : VSrc) : srcV x.enc = ⟨[], x⟩ := by
  cases x with
  | v n => revert n; decide
  | b n => revert n; decide
  | s n => revert n; decide
  | lit => rfl

@[simp] theorem srcS_enc (x : SSrc) : srcS x.enc = ⟨[], x⟩ := by
  cases x with
  | s n => revert n; decide
  | lit => rfl

theorem srcVS_enc {uf : Bool} {x : VSrc} (h : uf = true → x.uni = true) : srcVS uf (x.encVS uf) = ⟨[], x⟩ := by
  cases uf with
  | false =>
    have : x.encVS false = x.enc := by cases x <;> rfl
    rw [this]
    exact srcV_enc x
  | true =>
    cases x with
    | s n => revert n; decide
    | lit => rfl
    | v n => exact absurd (h rfl) (by simp [VSrc.uni])
    | b n => exact absurd (h rfl) (by simp [VSrc.uni])

@[simp] theorem srcN_enc {k : Nat} (h : k ≤ 9) (x : BitVec k) : srcN k (x.setWidth 9) = ⟨[], x⟩ := by
  have hx : x.toNat < 2 ^ k := x.isLt
  have hp : 2 ^ k ≤ 2 ^ 9 := Nat.pow_le_pow_right (by decide) h
  have hm : x.toNat % 512 = x.toNat := Nat.mod_eq_of_lt (by omega)
  simp [srcN, hm, hx, BitVec.setWidth_setWidth_of_le, h]

theorem srcK_enc {ks : Bool} {x : BitVec 6} (h : ks = true → x.toNat < 16) : srcK ks (x.setWidth 9) = ⟨[], x⟩ := by
  cases ks with
  | false => revert x; decide
  | true => revert x; decide

section
variable (opc : BitVec 10) (bt : BitVec 2) (gd : BitVec 4) (w : BitVec 1) (dst : BitVec 8) (a b cc : BitVec 9) (md : BitVec 12)

@[simp] theorem dstV_enc (d : VDst) : dstV ⟨opc, bt, gd, d.encW, d.encD, a, b, cc, md⟩ = ⟨[], d⟩ := by
  cases d with
  | v n => rfl
  | b n =>
    have key : ∀ n : BitVec 2, dstV { wbs := 1, dst := n.setWidth 8 } = ⟨[], .b n⟩ := by decide
    exact key n

@[simp] theorem dstN_enc {k : Nat} (h : k ≤ 8) (x : BitVec k) : dstN k ⟨opc, bt, gd, w, x.setWidth 8, a, b, cc, md⟩ = ⟨[], x⟩ := by
  have hx : x.toNat < 2 ^ k := x.isLt
  have hp : 2 ^ k ≤ 2 ^ 8 := Nat.pow_le_pow_right (by decide) h
  have hm : x.toNat % 256 = x.toNat := Nat.mod_eq_of_lt (by omega)
  simp [dstN, hm, hx, BitVec.setWidth_setWidth_of_le, h]

theorem dstK_enc {ks : Bool} {x : BitVec 6} (h : ks = true → x.toNat < 16) :
    dstK ks ⟨opc, bt, gd, w, x.setWidth 8, a, b, cc, md⟩ = ⟨[], x⟩ := by
  have : (x.setWidth 8).setWidth 9 = x.setWidth 9 := by clear h; revert x; decide
  rw [dstK, this, srcK_enc h]

@[simp] theorem decCtl_enc {c : Ctl} {u : Bool} {lit : DWord} (h : c.lit = if u then lit else 0) :
    decCtl ⟨opc, c.encBt, c.encG, w, dst, a, b, cc, md⟩ u lit = ⟨[], c⟩ := by
  obtain ⟨t, ⟨neg, p⟩, l⟩ := c
  have ht : btCodes.lookup (BitVec.ofNat 2 (toCode btCodes t)).toNat = some t := by cases t <;> rfl
  have hg : ∀ (neg : Bool) (p : BitVec 3), (BitVec.ofBool neg ++ p).getLsbD 3 = neg ∧ (BitVec.ofBool neg ++ p).setWidth 3 = p := by decide
  subst h
  simp only [decCtl, Ctl.encBt, Ctl.encG, ht, hg]
  rfl

@[simp] theorem decBSrc_enc (x : BSrc) (lo : BitVec 2) (s u : BitVec 1) :
    decBSrc ⟨opc, bt, gd, w, dst, a, x.encB, cc, x.encM ++ lo ++ s ++ u⟩ = ⟨[], x⟩ := by
  cases x <;> simp (disch := decide) [-BitVec.getLsbD_eq_getElem, -Nat.reduceAdd, decBSrc, bit, BSrc.encB, BSrc.encM, append_bits]

@[simp] theorem decBSrc_enc_rel (x : BSrc) (r : BitVec 3) (u : BitVec 1) :
    decBSrc ⟨opc, bt, gd, w, dst, a, x.encB, cc, x.encM ++ r ++ u⟩ = ⟨[], x⟩ := by
  cases x <;> simp (disch := decide) [-BitVec.getLsbD_eq_getElem, -Nat.reduceAdd, decBSrc, bit, BSrc.encB, BSrc.encM, append_bits]

@[simp] theorem imm_enc (i : BitVec 21) : (Fields.mk opc bt gd w dst a b (immCc i) (immMd i)).imm = i := by
  have h := BitVec.extractLsb'_append_extractLsb'_eq_extractLsb' (x := i) (start₂ := 12) (start₁ := 0) (len₁ := 12) (len₂ := 9) rfl
  exact h.trans BitVec.extractLsb'_eq_self

@[simp] theorem decVoteMode_enc (m : VoteMode) (z : BitVec 9) :
    decVoteMode ⟨opc, bt, gd, w, dst, a, m.encB, cc, z ++ m.encM⟩ = ⟨[], m⟩ := by
  have hm : modF ⟨opc, bt, gd, w, dst, a, m.encB, cc, z ++ m.encM⟩ 0 3 = m.encM.toNat := by
    rw [modF_eq]
    simp only [BitVec.extractLsb'_append_eq_right]
  unfold decVoteMode
  rw [hm]
  cases m <;> simp [VoteMode.encM, VoteMode.encB]

@[simp] theorem capMod_bits (uf ua ub : Bool) (fn : BitVec 4) : (capMod uf ua ub fn).getLsbD 11 = uf ∧
  (capMod uf ua ub fn).getLsbD 10 = ua ∧
    (capMod uf ua ub fn).getLsbD 9 = ub ∧ (capMod uf ua ub fn).getLsbD 0 = fn.getLsbD 0 ∧ (capMod uf ua ub fn).extractLsb' 0 4 = fn := by
  simp (disch := decide) only [capMod, append_bits, Nat.reduceSub, BitVec.extractLsb'_eq_self]
  simp

/-- The reserved runs of the MOD of a capability instruction. -/
@[simp] theorem capMod_zeros : (∀ uf ua x, (capMod uf ua false (0#3 ++ BitVec.ofBool x)).extractLsb' 1 9 = 0#9) ∧
    (∀ uf ua, (capMod uf ua false 0#4).extractLsb' 0 10 = 0#10) ∧ (∀ uf ua ub, (capMod uf ua ub 0#4).extractLsb' 0 9 = 0#9) ∧
    (∀ uf ua fn, (capMod uf ua false fn).extractLsb' 4 6 = 0#6) ∧ (∀ uf, (capMod uf false false 0#4).extractLsb' 0 11 = 0#11) :=
  ⟨by decide, by decide, by decide, by decide, by decide⟩

@[simp] theorem decCgetDst_enc (d : CgetDst) (ua ub : Bool) (fn : BitVec 4) :
    decCgetDst ⟨opc, bt, gd, d.encW, d.encD, a, b, cc, capMod d.isUni ua ub fn⟩ = ⟨[], d⟩ := by
  cases d <;> simp [-BitVec.getLsbD_eq_getElem, decCgetDst, bit, CgetDst.isUni, CgetDst.encW, CgetDst.encD]

@[simp] theorem decSpace_enc (x : AddrOp) (z : Sz) (x4 : Bool) :
    decSpace ⟨opc, bt, gd, w, dst, a, x.space.encB, cc, x.encM z x4⟩ = ⟨[], x.space⟩ := by
  have hm : modF ⟨opc, bt, gd, w, dst, a, x.space.encB, cc, x.encM z x4⟩ 8 2 = x.space.encSp.toNat := by
    rw [modF_eq]
    simp (disch := decide) only [AddrOp.encM, append_bits, Nat.reduceSub, BitVec.extractLsb'_eq_self]
  unfold decSpace
  rw [hm]
  obtain ⟨sp, off, disp⟩ := x
  cases sp <;> simp (disch := decide) [-BitVec.getLsbD_eq_getElem, -Nat.reduceAdd, Space.encSp, bit, AddrOp.encM, append_bits, Space.encKu,
    Space.encB]

@[simp] theorem encM_bits (x : AddrOp) (z : Sz) (x4 : Bool) : (x.encM z x4).getLsbD 10 = x.off.isNone ∧ (x.encM z x4).getLsbD 4 = x4 ∧
    (x.encM z x4).extractLsb' 4 1 = BitVec.ofBool x4 ∧ (x.encM z x4).extractLsb' 0 4 = x.disp := by
  simp (disch := decide) only [AddrOp.encM, append_bits, Nat.reduceSub, BitVec.extractLsb'_eq_self]
  simp

@[simp] theorem decAddr_enc (x : AddrOp) (z : Sz) (x4 : Bool) :
    decAddr ⟨opc, bt, gd, w, dst, a, x.space.encB, x.encC, x.encM z x4⟩ = ⟨[], x⟩ := by
  have hs := decSpace_enc opc bt gd w dst a x.encC x z x4
  have ho := (encM_bits x z x4).1
  unfold decAddr
  rw [hs]
  obtain ⟨sp, off, disp⟩ := x
  cases off <;> simp [-BitVec.getLsbD_eq_getElem, bit, AddrOp.encC, ho]

@[simp] theorem decSz_enc (x : AddrOp) (z : Sz) (x4 : Bool) :
    decSz ⟨opc, bt, gd, w, dst, a, b, cc, x.encM z x4⟩ = ⟨[], z⟩ := by
  simp (disch := decide) [-BitVec.getLsbD_eq_getElem, -Nat.reduceAdd, decSz, AddrOp.encM, append_bits, codes_sz.ofBits_toCode]

@[simp] theorem mmacSrc_enc (d s : BitVec 4) : mmacSrc ⟨opc, bt, gd, w, d.setWidth 8, s.setWidth 9, b, cc, md⟩ = s := by
  have hd : (d.setWidth 8).toNat < 16 := by revert d; decide
  have hs : (s.setWidth 9).toNat < 16 := by revert s; decide
  rw [mmacSrc, if_pos (.inr ⟨hd, hs⟩)]
  exact BitVec.setWidth_setWidth_of_le s (by decide)

end

@[simp] theorem sz8_enc (x : BitVec 5) : x.setWidth 8 &&& 0xE0#8 = 0#8 := by revert x; decide

theorem szW64 (w : Bool) : ((if w then Sz.b64 else Sz.b32) == Sz.b64) = w := by cases w <;> rfl

/-- Whether the mode of vote names the literal. -/
def voteLit : VoteMode → Bool
  | .quorum s => s.isLit
  | .none | .some | .every | .same | .most => false

theorem voteLits (c : Ctl) (q : BitVec 2) (p : BitVec 3) (m : VoteMode) : VoteOp.lits ⟨c, q, p, m⟩ = voteLit m := by cases m <;> rfl

/-- What the release or acquire bit and its scope decode to. -/
def relBits (on : Bool) (c : BitVec 3) : Dec (Option Scope) := decRel on c.toNat

@[simp] theorem decRel_modF (f : Fields) (on : Bool) (lo : Nat) : decRel on (modF f lo 3) = relBits on (f.md.extractLsb' lo 3) := by
  rw [relBits, modF_eq]

@[simp] theorem relBits_enc (r : Option Scope) : relBits r.isSome (encRel r) = ⟨[], r⟩ := by
  cases r with
  | none => rfl
  | some x =>
    have h := codes_scope.ofBits_toCode x .lane
    simp only [relBits, decRel, encRel, Option.isSome_some, if_true]
    rw [ofBits] at h
    rw [h]

/-! ## Operand fields: encoding what was decoded -/

theorem bit_eq (f : Fields) (k : Nat) : BitVec.ofBool (bit f k) = f.md.extractLsb' k 1 := ofBool_getLsbD f.md k

/-- Two runs of bits side by side are one. -/
theorem glue {w : Nat} (x : BitVec w) (j k m n : Nat) : k = j + n → x.extractLsb' k m ++ x.extractLsb' j n = x.extractLsb' j (m + n) :=
  fun h => BitVec.extractLsb'_append_extractLsb'_eq_extractLsb' h

theorem fields_eq_iff (f g : Fields) : f = g ↔ f.opc = g.opc ∧ f.bt = g.bt ∧ f.gd = g.gd ∧ f.wbs = g.wbs ∧ f.dst = g.dst ∧
    f.a = g.a ∧ f.b = g.b ∧ f.cc = g.cc ∧ f.md = g.md := by
  cases f; cases g; simp

theorem enc_srcV {n : BitVec 9} (h : (srcV n).bad = []) : (srcV n).val.enc = n := by
  revert n; decide

theorem enc_srcS {n : BitVec 9} (h : (srcS n).bad = []) : (srcS n).val.enc = n := by
  revert n; decide

theorem enc_srcVS {uf : Bool} {n : BitVec 9} (h : (srcVS uf n).bad = []) : (srcVS uf n).val.encVS uf = n := by
  cases uf <;> (revert n; decide)

theorem enc_srcK {ks : Bool} {n : BitVec 9} (h : (srcK ks n).bad = []) : (srcK ks n).val.setWidth 9 = n := by
  cases ks <;> (revert n; decide)

theorem enc_dstK {ks : Bool} {f : Fields} (h : (dstK ks f).bad = []) : (dstK ks f).val.setWidth 8 = f.dst := by
  have key : ∀ (ks : Bool) (n : BitVec 8), (srcK ks (n.setWidth 9)).bad = [] → (srcK ks (n.setWidth 9)).val.setWidth 8 = n := by decide
  exact key ks f.dst h

/-- A number below 2^k is held in k bits. -/
theorem setWidth_setWidth_of_lt {k n : Nat} {x : BitVec n} (h : x.toNat < 2 ^ k) : (x.setWidth k).setWidth n = x := by
  apply BitVec.eq_of_toNat_eq
  have hx := x.isLt
  simp [Nat.mod_eq_of_lt h, Nat.mod_eq_of_lt hx]

theorem enc_srcN {k : Nat} {n : BitVec 9} (h : (srcN k n).bad = []) : (srcN k n).val.setWidth 9 = n :=
  setWidth_setWidth_of_lt (by simpa [srcN] using h)

theorem enc_dstN {k : Nat} {f : Fields} (h : (dstN k f).bad = []) : (dstN k f).val.setWidth 8 = f.dst :=
  setWidth_setWidth_of_lt (by simpa [dstN] using h)

theorem enc_dstV {f : Fields} (h : (dstV f).bad = []) : (dstV f).val.encW = f.wbs ∧ (dstV f).val.encD = f.dst := by
  have key : ∀ (w : BitVec 1) (n : BitVec 8), (dstV { wbs := w, dst := n }).bad = [] →
    (dstV { wbs := w, dst := n }).val.encW = w ∧ (dstV { wbs := w, dst := n }).val.encD = n := by decide
  exact key f.wbs f.dst h

theorem enc_decCtl {f : Fields} {u : Bool} {lit : DWord} (h : (decCtl f u lit).bad = []) :
    (decCtl f u lit).val.encBt = f.bt ∧ (decCtl f u lit).val.encG = f.gd ∧ (decCtl f u lit).val.lit = if u then lit else 0 := by
  have key : ∀ (t : BitVec 2) (g : BitVec 4), (decCtl { bt := t, gd := g } false 0).bad = [] →
    (decCtl { bt := t, gd := g } false 0).val.encBt = t ∧ (decCtl { bt := t, gd := g } false 0).val.encG = g := by decide
  have hk := key f.bt f.gd h
  exact ⟨hk.1, hk.2, rfl⟩

theorem enc_decBSrc {f : Fields} (h : (decBSrc f).bad = []) :
    (decBSrc f).val.encB = f.b ∧ (decBSrc f).val.encM = f.md.extractLsb' 4 8 := by
  have h1 := bit_eq f 11
  have h2 := glue f.md 4 11 1 7 rfl
  unfold decBSrc at h ⊢
  cases hb : bit f 11 <;> simp [hb] at h h1 ⊢
  · rw [← h1, h.2] at h2
    exact ⟨enc_srcV h.1, h2⟩
  · rw [← h1] at h2
    exact ⟨h.symm, h2⟩

theorem immCc_imm (f : Fields) : immCc f.imm = f.cc := by
  simp (disch := decide) only [immCc, Fields.imm, append_bits]
  simp

theorem immMd_imm (f : Fields) : immMd f.imm = f.md := by
  exact BitVec.extractLsb'_append_eq_right

/-- Every run of bits within a run of zeros is zero. -/
theorem run_of_run {w lo n : Nat} {x : BitVec w} (h : x.extractLsb' lo n = 0#n) (j m : Nat) (hj : lo ≤ j) (hm : j + m ≤ lo + n) :
    x.extractLsb' j m = 0#m := by
  ext i hi
  have hb := congrArg (fun y => y.getLsbD (j - lo + i)) h
  have h1 : j - lo + i < n := by omega
  have h2 : lo + (j - lo + i) = j + i := by omega
  simpa [h1, h2] using hb

theorem md_eq_zero_of_bit0 {f : Fields} (h : f.md.extractLsb' 1 11 = 0#11) (h0 : f.md.extractLsb' 0 1 = 0#1) : f.md = 0#12 := by
  have hg := glue f.md 0 1 11 1 rfl
  rw [h, h0] at hg
  exact (hg.trans BitVec.extractLsb'_eq_self).symm

theorem md_eq_zero_of_bit2 {f : Fields} (h : f.md.extractLsb' 3 9 = 0#9) (h0 : f.md.extractLsb' 0 2 = 0#2) (h2 : f.md.extractLsb' 2 1 = 0#1) :
    f.md = 0#12 := by
  have hg := glue f.md 2 3 9 1 rfl
  have hg' := glue f.md 0 2 10 2 rfl
  rw [← hg, h, h0, h2] at hg'
  exact (hg'.trans BitVec.extractLsb'_eq_self).symm

/-- A field of n bits that reads as a number is that number. -/
theorem eq_ofNat_of_modF {f : Fields} {lo n k : Nat} (h : modF f lo n = k) : f.md.extractLsb' lo n = BitVec.ofNat n k := by
  rw [← h, modF_eq, BitVec.ofNat_toNat, BitVec.setWidth_eq]

theorem enc_decVoteMode {f : Fields} (h : (decVoteMode f).bad = []) :
    (decVoteMode f).val.encB = f.b ∧ (decVoteMode f).val.encM = f.md.extractLsb' 0 3 := by
  unfold decVoteMode at h ⊢
  split at h
  case h_1 hm | h_2 hm | h_3 hm | h_4 hm | h_5 hm => exact ⟨((zeroF_eq_nil _).1 h).symm, (eq_ofNat_of_modF hm).symm⟩
  case h_6 hm => exact ⟨enc_srcS h, (eq_ofNat_of_modF hm).symm⟩
  case h_7 => simp at h

theorem enc_decCgetDst {f : Fields} (h : (decCgetDst f).bad = []) :
    (decCgetDst f).val.encW = f.wbs ∧ (decCgetDst f).val.encD = f.dst ∧ (decCgetDst f).val.isUni = bit f 11 := by
  unfold decCgetDst at h ⊢
  cases hb : bit f 11 <;> simp [hb] at h ⊢
  · exact ⟨(enc_dstV h).1, (enc_dstV h).2, rfl⟩
  · exact ⟨h.1.symm, enc_dstN h.2, rfl⟩

theorem enc_decSpace {f : Fields} (h : (decSpace f).bad = []) : (decSpace f).val.encB = f.b ∧
    (decSpace f).val.encKu = f.md.extractLsb' 11 1 ∧ (decSpace f).val.encSp = f.md.extractLsb' 8 2 := by
  have h1 := bit_eq f 11
  unfold decSpace at h ⊢
  split at h
  case h_1 hm =>
    rw [eq_ofNat_of_modF hm, ← h1]
    cases hb : bit f 11 <;> simp only [hb, Bool.false_eq_true, if_true, if_false] at h ⊢ <;> exact ⟨enc_srcN h, rfl, rfl⟩
  case h_2 hm =>
    simp at h
    rw [eq_ofNat_of_modF hm, h.2]
    exact ⟨enc_srcN h.1, rfl, rfl⟩
  case h_3 hm =>
    simp at h
    rw [eq_ofNat_of_modF hm, h.1, h.2]
    exact ⟨rfl, rfl, rfl⟩
  case h_4 => simp at h

theorem enc_decAddr {f : Fields} (h : (decAddr f).bad = []) :
    (decAddr f).val.space.encB = f.b ∧ (decAddr f).val.encC = f.cc := by
  unfold decAddr at h ⊢
  cases hb : bit f 10 <;> simp [hb] at h ⊢
  · exact ⟨(enc_decSpace h.1).1, enc_srcV h.2⟩
  · exact ⟨(enc_decSpace h.1).1, h.2.symm⟩

theorem enc_decAddr_off {f : Fields} : BitVec.ofBool (decAddr f).val.off.isNone = f.md.extractLsb' 10 1 := by
  rw [← bit_eq]
  unfold decAddr
  cases hb : bit f 10 <;> rfl

theorem decAddr_rest {f : Fields} : (decAddr f).val.space = (decSpace f).val ∧ (decAddr f).val.disp = f.md.extractLsb' 0 4 := by
  unfold decAddr
  cases hb : bit f 10 <;> exact ⟨rfl, rfl⟩

/-- The MOD of an access. -/
theorem enc_addr {f : Fields} {z : Sz} {x : Bool} (h : (decAddr f).bad = []) (hz : BitVec.ofNat 3 (toCode szCodes z) = f.md.extractLsb' 5 3)
    (hx : BitVec.ofBool x = f.md.extractLsb' 4 1) : (decAddr f).val.encM z x = f.md := by
  have hs : (decSpace f).bad = [] := by
    unfold decAddr at h
    cases hb : bit f 10 <;> simp [hb] at h <;> exact h.1
  obtain ⟨-, hku, hsp⟩ := enc_decSpace hs
  simp (disch := decide) only [AddrOp.encM, decAddr_rest, enc_decAddr_off, hku, hsp, hz, hx, glue]
  simp

theorem decSz_enc_of {f : Fields} (h : (decSz f).bad = []) : BitVec.ofNat 3 (toCode szCodes (decSz f).val) = f.md.extractLsb' 5 3 := by
  simp only [decSz, ofCode_modF] at h ⊢
  exact codes_sz.toCode_ofBits h

/-- The MOD of a capability instruction. -/
theorem capMod_md {f : Fields} {uf ua ub : Bool} {fn : BitVec 4} (hf : BitVec.ofBool uf = f.md.extractLsb' 11 1)
    (ha : BitVec.ofBool ua = f.md.extractLsb' 10 1) (hb : BitVec.ofBool ub = f.md.extractLsb' 9 1) (h5 : f.md.extractLsb' 4 5 = 0#5)
    (hn : fn = f.md.extractLsb' 0 4) : capMod uf ua ub fn = f.md := by
  simp (disch := decide) only [capMod, hf, ha, hb, ← h5, hn, glue]
  simp

theorem capMod_low {f : Fields} (h : f.md.extractLsb' 1 9 = 0#9) :
    capMod (bit f 11) (bit f 10) false (0#3 ++ BitVec.ofBool (bit f 0)) = f.md :=
  capMod_md (bit_eq f 11) (bit_eq f 10) (run_of_run h 9 1 (by decide) (by decide)).symm (run_of_run h 4 5 (by decide) (by decide))
    (by rw [bit_eq, ← run_of_run h 1 3 (by decide) (by decide)]; exact glue f.md 0 1 3 1 rfl)

theorem capMod_10 {f : Fields} (h : f.md.extractLsb' 0 10 = 0#10) : capMod (bit f 11) (bit f 10) false 0#4 = f.md :=
  capMod_md (bit_eq f 11) (bit_eq f 10) (run_of_run h 9 1 (by decide) (by decide)).symm (run_of_run h 4 5 (by decide) (by decide))
    (run_of_run h 0 4 (by decide) (by decide)).symm

theorem capMod_9 {f : Fields} (h : f.md.extractLsb' 0 9 = 0#9) : capMod (bit f 11) (bit f 10) (bit f 9) 0#4 = f.md :=
  capMod_md (bit_eq f 11) (bit_eq f 10) (bit_eq f 9) (run_of_run h 4 5 (by decide) (by decide))
    (run_of_run h 0 4 (by decide) (by decide)).symm

theorem capMod_4 {f : Fields} (h : f.md.extractLsb' 4 6 = 0#6) : capMod (bit f 11) (bit f 10) false (f.md.extractLsb' 0 4) = f.md :=
  capMod_md (bit_eq f 11) (bit_eq f 10) (run_of_run h 9 1 (by decide) (by decide)).symm (run_of_run h 4 5 (by decide) (by decide)) rfl

theorem capMod_11 {f : Fields} (h : f.md.extractLsb' 0 11 = 0#11) : capMod (bit f 11) false false 0#4 = f.md :=
  capMod_md (bit_eq f 11) (run_of_run h 10 1 (by decide) (by decide)).symm (run_of_run h 9 1 (by decide) (by decide)).symm
    (run_of_run h 4 5 (by decide) (by decide)) (run_of_run h 0 4 (by decide) (by decide)).symm

theorem mmacSrc_eq {f : Fields} (hd : (dstN 4 f).bad = []) (ha : (srcN 4 f.a).bad = []) : mmacSrc f = (srcN 4 f.a).val := by
  rw [mmacSrc, if_pos (.inr ⟨by simpa [dstN] using hd, by simpa [srcN] using ha⟩)]
  rfl

/-- A field of the low bits. -/
theorem setWidth_append {v w : Nat} (x : BitVec v) (y : BitVec w) : (x ++ y).setWidth w = y := by
  rw [BitVec.setWidth_eq_extractLsb' (by omega), BitVec.extractLsb'_append_eq_right]

theorem enc_decRel {f : Fields} {k lo : Nat} (h : (relBits (bit f k) (f.md.extractLsb' lo 3)).bad = []) :
    encRel (relBits (bit f k) (f.md.extractLsb' lo 3)).val = f.md.extractLsb' lo 3 ∧
      BitVec.ofBool (relBits (bit f k) (f.md.extractLsb' lo 3)).val.isSome = f.md.extractLsb' k 1 := by
  rw [← bit_eq]
  generalize f.md.extractLsb' lo 3 = c at h ⊢
  generalize bit f k = on at h ⊢
  revert on c
  decide

theorem sz8_eq {f : Fields} (h : f.dst &&& 0xE0#8 = 0#8) : (f.dst.setWidth 5).setWidth 8 = f.dst := by
  have key : ∀ n : BitVec 8, n &&& 0xE0#8 = 0#8 → (n.setWidth 5).setWidth 8 = n := by decide
  exact key f.dst h

/-! ## Shapes -/

/-- A shape's decoder and encoder are inverse to each other, the literal word held where an operand names it; `ok` is what the decoder
needs of the operands' classes. -/
structure Inverse {α : Type} (dec : Fields → DWord → Dec α) (enc : α → Nat → Fields) (ctl : α → Ctl) (lits : α → Bool) (ok : α →
  Prop) : Prop where
  dec_enc : ∀ o n lit, ok o → (ctl o).lit = (if lits o then lit else 0) → dec (enc o n) lit = ⟨[], o⟩
  enc_dec : ∀ f lit, (dec f lit).bad = [] →
    enc (dec f lit).val f.opc.toNat = f ∧ (ctl (dec f lit).val).lit = if lits (dec f lit).val then lit else 0

theorem inverse_iBin : Inverse decIBin IBin.enc IBin.c (fun o => o.a.isLit || o.b.isLit) fun _ => True where
  dec_enc o n lit _ hl := by
    simp (disch := first | decide | exact hl) [-BitVec.getLsbD_eq_getElem, -Nat.reduceAdd, decIBin, IBin.enc, Ctl.base, bit, append_bits]
  enc_dec f lit h := by
    simp [decIBin] at h
    obtain ⟨hc, hd, ha, hb, hz, hm⟩ := h
    simp (disch := decide) only [decIBin, IBin.enc, Ctl.base, BitVec.ofNat_eq_ofNat, fields_eq_iff, enc_decCtl hc, enc_dstV hd,
      enc_srcV ha, enc_decBSrc hb, hz, ← hm, bit_eq, glue]
    simp

theorem inverse_iMad : Inverse decIMad IMad.enc IMad.c (fun o => o.a.isLit || o.b.isLit || o.e.isLit) fun _ => True where
  dec_enc o n lit _ hl := by
    simp (disch := first | decide | exact hl) [-BitVec.getLsbD_eq_getElem, -Nat.reduceAdd, decIMad, IMad.enc, Ctl.base, bit, append_bits]
  enc_dec f lit h := by
    simp [decIMad] at h
    obtain ⟨hc, hd, ha, hb, he, hm⟩ := h
    simp (disch := decide) only [decIMad, IMad.enc, Ctl.base, BitVec.ofNat_eq_ofNat, fields_eq_iff, enc_decCtl hc, enc_dstV hd,
      enc_srcV ha, enc_decBSrc hb, enc_srcV he, ← hm, bit_eq, glue]
    simp

theorem inverse_iUn : Inverse decIUn IUn.enc IUn.c (fun o => o.a.isLit) fun _ => True where
  dec_enc o n lit _ hl := by
    simp (disch := first | decide | exact hl) [-BitVec.getLsbD_eq_getElem, -Nat.reduceAdd, decIUn, IUn.enc, Ctl.base, bit, append_bits]
  enc_dec f lit h := by
    simp [decIUn] at h
    obtain ⟨hc, hd, ha, hb, hcc, hm, hm0⟩ := h
    simp (disch := decide) only [decIUn, IUn.enc, Ctl.base, BitVec.ofNat_eq_ofNat, fields_eq_iff, enc_decCtl hc, enc_dstV hd,
      enc_srcV ha, hb, hcc, ← hm, ← hm0, bit_eq, glue]
    simp

theorem inverse_iBf : Inverse decIBf IBf.enc IBf.c (fun o => o.a.isLit || o.pos.isLit || o.wid.isLit) fun _ => True where
  dec_enc o n lit _ hl := by
    simp (disch := first | decide | exact hl) [-BitVec.getLsbD_eq_getElem, -Nat.reduceAdd, decIBf, IBf.enc, Ctl.base, bit, append_bits]
  enc_dec f lit h := by
    simp [decIBf] at h
    obtain ⟨hc, hd, ha, hp, hw, hm⟩ := h
    simp (disch := decide) only [decIBf, IBf.enc, Ctl.base, BitVec.ofNat_eq_ofNat, fields_eq_iff, enc_decCtl hc, enc_dstV hd,
      enc_srcV ha, enc_srcV hp, enc_srcV hw, ← hm, bit_eq, glue]
    simp

theorem inverse_iSel : Inverse decISel ISel.enc ISel.c (fun o => o.a.isLit || o.b.isLit) fun _ => True where
  dec_enc o n lit _ hl := by
    simp (disch := first | decide | exact hl) [-BitVec.getLsbD_eq_getElem, -Nat.reduceAdd, decISel, ISel.enc, Ctl.base]
  enc_dec f lit h := by
    simp [decISel] at h
    obtain ⟨hc, hd, ha, hb, hp, hm⟩ := h
    simp (disch := decide) only [decISel, ISel.enc, Ctl.base, BitVec.ofNat_eq_ofNat, fields_eq_iff, enc_decCtl hc, enc_dstV hd,
      enc_srcV ha, enc_srcV hb, enc_srcN hp, hm]
    simp

theorem inverse_iCmp : Inverse decICmp ICmp.enc ICmp.c (fun o => o.a.isLit || o.b.isLit) fun _ => True where
  dec_enc o n lit _ hl := by
    simp (disch := first | decide | exact hl) [-BitVec.getLsbD_eq_getElem, -Nat.reduceAdd, decICmp, ICmp.enc, Ctl.base, bit, append_bits,
      codes_icc.ofBits_toCode]
  enc_dec f lit h := by
    simp [decICmp] at h
    obtain ⟨hc, hw, hp, ha, hb, hr, hz⟩ := h
    simp (disch := decide) only [decICmp, ICmp.enc, Ctl.base, BitVec.ofNat_eq_ofNat, fields_eq_iff, enc_decCtl hc, hw, enc_dstN hp,
      enc_srcV ha, enc_decBSrc hb, ofCode_modF, codes_icc.toCode_ofBits hr, hz, bit_eq, glue]
    simp

theorem inverse_iMovi : Inverse decIMovi IMovi.enc IMovi.c (fun o => immLit o.imm) fun _ => True where
  dec_enc o n lit _ hl := by
    simp (disch := first | decide | exact hl) [-BitVec.getLsbD_eq_getElem, -Nat.reduceAdd, decIMovi, IMovi.enc, Ctl.base]
  enc_dec f lit h := by
    simp [decIMovi] at h
    obtain ⟨hc, hd, ha, hb⟩ := h
    simp (disch := decide) only [decIMovi, IMovi.enc, Ctl.base, BitVec.ofNat_eq_ofNat, fields_eq_iff, enc_decCtl hc, enc_dstV hd, ha, hb,
      immCc_imm, immMd_imm]
    simp

theorem inverse_fBin : Inverse decFBin FBin.enc FBin.c (fun o => o.a.isLit || o.b.isLit) fun _ => True where
  dec_enc o n lit _ hl := by
    simp (disch := first | decide | exact hl) [-BitVec.getLsbD_eq_getElem, -Nat.reduceAdd, decFBin, FBin.enc, Ctl.base]
  enc_dec f lit h := by
    simp [decFBin] at h
    obtain ⟨hc, hd, ha, hb, hcc, hm⟩ := h
    simp (disch := decide) only [decFBin, FBin.enc, Ctl.base, BitVec.ofNat_eq_ofNat, fields_eq_iff, enc_decCtl hc, enc_dstV hd,
      enc_srcV ha, enc_srcV hb, hcc, hm]
    simp

theorem inverse_fTri : Inverse decFTri FTri.enc FTri.c (fun o => o.a.isLit || o.b.isLit || o.e.isLit) fun _ => True where
  dec_enc o n lit _ hl := by
    simp (disch := first | decide | exact hl) [-BitVec.getLsbD_eq_getElem, -Nat.reduceAdd, decFTri, FTri.enc, Ctl.base]
  enc_dec f lit h := by
    simp [decFTri] at h
    obtain ⟨hc, hd, ha, hb, he, hm⟩ := h
    simp (disch := decide) only [decFTri, FTri.enc, Ctl.base, BitVec.ofNat_eq_ofNat, fields_eq_iff, enc_decCtl hc, enc_dstV hd,
      enc_srcV ha, enc_srcV hb, enc_srcV he, hm]
    simp

theorem inverse_fCmp : Inverse decFCmp FCmp.enc FCmp.c (fun o => o.a.isLit || o.b.isLit) fun _ => True where
  dec_enc o n lit _ hl := by
    simp (disch := first | decide | exact hl) [-BitVec.getLsbD_eq_getElem, -Nat.reduceAdd, decFCmp, FCmp.enc, Ctl.base, append_bits,
      codes_fcc.ofBits_toCode]
  enc_dec f lit h := by
    simp [decFCmp] at h
    obtain ⟨hc, hw, hp, ha, hb, hr, hz, hm⟩ := h
    simp (disch := decide) only [decFCmp, FCmp.enc, Ctl.base, BitVec.ofNat_eq_ofNat, fields_eq_iff, enc_decCtl hc, hw, enc_dstN hp,
      enc_srcV ha, enc_srcV hb, ofCode_modF, codes_fcc.toCode_ofBits hr, hz, ← hm, glue]
    simp

theorem inverse_fUn : Inverse decFUn FUn.enc FUn.c (fun o => o.a.isLit) fun _ => True where
  dec_enc o n lit _ hl := by
    simp (disch := first | decide | exact hl) [-BitVec.getLsbD_eq_getElem, -Nat.reduceAdd, decFUn, FUn.enc, Ctl.base]
  enc_dec f lit h := by
    simp [decFUn] at h
    obtain ⟨hc, hd, ha, hb, hcc, hm⟩ := h
    simp (disch := decide) only [decFUn, FUn.enc, Ctl.base, BitVec.ofNat_eq_ofNat, fields_eq_iff, enc_decCtl hc, enc_dstV hd,
      enc_srcV ha, hb, hcc, hm]
    simp

theorem inverse_hBin : Inverse decHBin HBin.enc HBin.c (fun o => o.a.isLit || o.b.isLit) fun _ => True where
  dec_enc o n lit _ hl := by
    simp (disch := first | decide | exact hl) [-BitVec.getLsbD_eq_getElem, -Nat.reduceAdd, decHBin, HBin.enc, Ctl.base, bit, append_bits]
  enc_dec f lit h := by
    simp [decHBin] at h
    obtain ⟨hc, hd, ha, hb, hcc, hm⟩ := h
    simp (disch := decide) only [decHBin, HBin.enc, Ctl.base, BitVec.ofNat_eq_ofNat, fields_eq_iff, enc_decCtl hc, enc_dstV hd,
      enc_srcV ha, enc_srcV hb, hcc, ← hm, bit_eq, glue]
    simp

theorem inverse_hTri : Inverse decHTri HTri.enc HTri.c (fun o => o.a.isLit || o.b.isLit || o.e.isLit) fun _ => True where
  dec_enc o n lit _ hl := by
    simp (disch := first | decide | exact hl) [-BitVec.getLsbD_eq_getElem, -Nat.reduceAdd, decHTri, HTri.enc, Ctl.base, bit, append_bits]
  enc_dec f lit h := by
    simp [decHTri] at h
    obtain ⟨hc, hd, ha, hb, he, hm⟩ := h
    simp (disch := decide) only [decHTri, HTri.enc, Ctl.base, BitVec.ofNat_eq_ofNat, fields_eq_iff, enc_decCtl hc, enc_dstV hd,
      enc_srcV ha, enc_srcV hb, enc_srcV he, ← hm, bit_eq, glue]
    simp

theorem inverse_cvt : Inverse decCvt CvtOp.enc CvtOp.c (fun o => o.a.isLit) fun _ => True where
  dec_enc o n lit _ hl := by
    simp (disch := first | decide | exact hl) [-BitVec.getLsbD_eq_getElem, -Nat.reduceAdd, decCvt, CvtOp.enc, Ctl.base, bit, append_bits,
      codes_cvt.ofBits_toCode, codes_rm.ofBits_toCode]
  enc_dec f lit h := by
    simp [decCvt] at h
    obtain ⟨hc, hd, ha, hp, hr, hb, hcc, hm⟩ := h
    simp (disch := decide) only [decCvt, CvtOp.enc, Ctl.base, BitVec.ofNat_eq_ofNat, fields_eq_iff, enc_decCtl hc, enc_dstV hd,
      enc_srcV ha, ofCode_modF, codes_cvt.toCode_ofBits hp, codes_rm.toCode_ofBits hr, hb, hcc, ← hm, bit_eq, glue]
    simp

theorem inverse_qnt : Inverse decQnt QntOp.enc QntOp.c (fun o => o.a.isLit || o.scale.isLit) fun _ => True where
  dec_enc o n lit _ hl := by
    simp (disch := first | decide | exact hl) [-BitVec.getLsbD_eq_getElem, -Nat.reduceAdd, decQnt, QntOp.enc, Ctl.base, append_bits,
      codes_rm.ofBits_toCode]
  enc_dec f lit h := by
    simp [decQnt] at h
    obtain ⟨hc, hd, ha, hb, hr, hcc, hm⟩ := h
    simp (disch := decide) only [decQnt, QntOp.enc, Ctl.base, BitVec.ofNat_eq_ofNat, fields_eq_iff, enc_decCtl hc, enc_dstV hd,
      enc_srcV ha, enc_srcV hb, ofCode_modF, codes_rm.toCode_ofBits hr, hcc, ← hm, glue]
    simp

theorem inverse_dqnt : Inverse decDqnt DqntOp.enc DqntOp.c (fun o => o.a.isLit || o.scale.isLit) fun _ => True where
  dec_enc o n lit _ hl := by
    simp (disch := first | decide | exact hl) [-BitVec.getLsbD_eq_getElem, -Nat.reduceAdd, decDqnt, DqntOp.enc, Ctl.base, append_bits,
      codes_qfmt.ofBits_toCode]
  enc_dec f lit h := by
    simp [decDqnt] at h
    obtain ⟨hc, hd, ha, hb, hr, hcc, hm⟩ := h
    simp (disch := decide) only [decDqnt, DqntOp.enc, Ctl.base, BitVec.ofNat_eq_ofNat, fields_eq_iff, enc_decCtl hc, enc_dstV hd,
      enc_srcV ha, enc_srcV hb, ofCode_modF, codes_qfmt.toCode_ofBits hr, hcc, ← hm, glue]
    simp

theorem inverse_sacc : Inverse decSacc SaccOp.enc SaccOp.c (fun o => o.scale.isLit) fun _ => True where
  dec_enc o n lit _ hl := by
    simp (disch := first | decide | exact hl) [-BitVec.getLsbD_eq_getElem, -Nat.reduceAdd, decSacc, SaccOp.enc, Ctl.base, bit, append_bits]
  enc_dec f lit h := by
    simp [decSacc] at h
    obtain ⟨hc, hw, hd, hp, hs, hcc, hm⟩ := h
    simp (disch := decide) only [decSacc, SaccOp.enc, Ctl.base, BitVec.ofNat_eq_ofNat, fields_eq_iff, enc_decCtl hc, hw, enc_dstN hd,
      enc_srcN hp, enc_srcS hs, hcc, ← hm, bit_eq, glue]
    simp

theorem inverse_saccV : Inverse decSaccV SaccVOp.enc SaccVOp.c (fun o => o.o.isLit) fun _ => True where
  dec_enc o n lit _ hl := by
    simp (disch := first | decide | exact hl) [-BitVec.getLsbD_eq_getElem, -Nat.reduceAdd, decSaccV, SaccVOp.enc, Ctl.base, bit,
      append_bits]
  enc_dec f lit h := by
    simp [decSaccV] at h
    obtain ⟨hc, hw, hd, hp, hk, hs, hm⟩ := h
    simp (disch := decide) only [decSaccV, SaccVOp.enc, Ctl.base, BitVec.ofNat_eq_ofNat, fields_eq_iff, enc_decCtl hc, hw, enc_dstN hd,
      enc_srcN hp, enc_srcN hk, enc_srcS hs, ← hm, bit_eq, glue]
    simp
    rfl

theorem inverse_shfl : Inverse decShfl ShflOp.enc ShflOp.c (fun o => o.a.isLit || o.b.isLit) fun _ => True where
  dec_enc o n lit _ hl := by
    simp (disch := first | decide | exact hl) [-BitVec.getLsbD_eq_getElem, -Nat.reduceAdd, decShfl, ShflOp.enc, Ctl.base, append_bits,
      codes_shfl.ofBits_toCode]
  enc_dec f lit h := by
    simp [decShfl] at h
    obtain ⟨hc, hd, ha, hb, hr, hcc, hm⟩ := h
    simp (disch := decide) only [decShfl, ShflOp.enc, Ctl.base, BitVec.ofNat_eq_ofNat, fields_eq_iff, enc_decCtl hc, enc_dstV hd,
      enc_srcV ha, enc_srcV hb, ofCode_modF, codes_shfl.toCode_ofBits hr, hcc, ← hm, glue]
    simp

theorem inverse_ballot : Inverse decBallot BallotOp.enc BallotOp.c (fun _ => false) fun _ => True where
  dec_enc o n lit _ hl := by
    have hl : o.c.lit = if false then 0#64 else 0 := hl
    simp (disch := first | decide | exact hl) [-BitVec.getLsbD_eq_getElem, -Nat.reduceAdd, decBallot, BallotOp.enc, Ctl.base,
      append_bits, codes_part.ofBits_toCode]
  enc_dec f lit h := by
    simp [decBallot] at h
    obtain ⟨hc, hd, hp, hr, hb, hcc, hm⟩ := h
    simp (disch := decide) only [decBallot, BallotOp.enc, Ctl.base, BitVec.ofNat_eq_ofNat, fields_eq_iff, enc_decCtl hc, enc_dstV hd,
      enc_srcN hp, ofCode_modF, codes_part.toCode_ofBits hr, hb, hcc, ← hm, glue]
    simp

theorem inverse_vote : Inverse decVote VoteOp.enc VoteOp.c (fun o => voteLit o.mode) fun _ => True where
  dec_enc o n lit _ hl := by
    simp (disch := first | decide | exact hl) [-BitVec.getLsbD_eq_getElem, -Nat.reduceAdd, decVote, VoteOp.enc, Ctl.base, append_bits,
      voteLits]
  enc_dec f lit h := by
    simp [decVote, voteLits] at h
    obtain ⟨hc, hw, hq, hp, hv, hcc, hm⟩ := h
    simp (disch := decide) only [decVote, VoteOp.enc, Ctl.base, BitVec.ofNat_eq_ofNat, fields_eq_iff, enc_decCtl hc, hw, enc_dstN hq,
      enc_srcN hp, voteLits, enc_decVoteMode hv, hcc, ← hm, glue]
    simp

theorem inverse_bcast : Inverse decBcast BcastOp.enc BcastOp.c (fun o => o.a.isLit) fun _ => True where
  dec_enc o n lit _ hl := by
    simp (disch := first | decide | exact hl) [-BitVec.getLsbD_eq_getElem, -Nat.reduceAdd, decBcast, BcastOp.enc, Ctl.base, bit,
      append_bits]
  enc_dec f lit h := by
    simp [decBcast] at h
    obtain ⟨hc, hw, hd, ha, hb, hcc, hm⟩ := h
    simp (disch := decide) only [decBcast, BcastOp.enc, Ctl.base, BitVec.ofNat_eq_ofNat, fields_eq_iff, enc_decCtl hc, hw, enc_dstN hd,
      enc_srcV ha, hb, hcc, ← hm, bit_eq, glue]
    simp

theorem inverse_red : Inverse decRed RedOp.enc RedOp.c (fun o => o.a.isLit) fun _ => True where
  dec_enc o n lit _ hl := by
    simp (disch := first | decide | exact hl) [-BitVec.getLsbD_eq_getElem, -Nat.reduceAdd, decRed, RedOp.enc, Ctl.base, bit, append_bits,
      codes_red.ofBits_toCode]
  enc_dec f lit h := by
    simp [decRed] at h
    obtain ⟨hc, hd, ha, hr, hb, hcc, hm⟩ := h
    simp (disch := decide) only [decRed, RedOp.enc, Ctl.base, BitVec.ofNat_eq_ofNat, fields_eq_iff, enc_decCtl hc, enc_dstV hd,
      enc_srcV ha, ofCode_modF, codes_red.toCode_ofBits hr, hb, hcc, ← hm, bit_eq, glue]
    simp

theorem inverse_cmpst : Inverse decCmpst CmpstOp.enc CmpstOp.c (fun o => o.a.isLit || o.so.isLit) fun _ => True where
  dec_enc o n lit _ hl := by
    simp (disch := first | decide | exact hl) [-BitVec.getLsbD_eq_getElem, -Nat.reduceAdd, decCmpst, CmpstOp.enc, Ctl.base]
  enc_dec f lit h := by
    simp [decCmpst] at h
    obtain ⟨hc, hw, hd, ha, hk, hs⟩ := h
    simp (disch := decide) only [decCmpst, CmpstOp.enc, Ctl.base, BitVec.ofNat_eq_ofNat, fields_eq_iff, enc_decCtl hc, hw, enc_dstN hd,
      enc_srcV ha, enc_srcN hk, enc_srcS hs]
    simp

theorem inverse_expld : Inverse decExpld ExpldOp.enc ExpldOp.c (fun o => o.so.isLit) fun _ => True where
  dec_enc o n lit _ hl := by
    simp (disch := first | decide | exact hl) [-BitVec.getLsbD_eq_getElem, -Nat.reduceAdd, decExpld, ExpldOp.enc, Ctl.base]
  enc_dec f lit h := by
    simp [decExpld] at h
    obtain ⟨hc, hd, hk, hs, ha⟩ := h
    simp (disch := decide) only [decExpld, ExpldOp.enc, Ctl.base, BitVec.ofNat_eq_ofNat, fields_eq_iff, enc_decCtl hc, enc_dstV hd,
      enc_srcN hk, enc_srcS hs, ha]
    simp

theorem inverse_ld : Inverse decLd LdOp.enc LdOp.c (fun o => o.addr.isLit) fun _ => True where
  dec_enc o n lit _ hl := by
    simp (disch := first | decide | exact hl) [-BitVec.getLsbD_eq_getElem, -Nat.reduceAdd, decLd, LdOp.enc, Ctl.base, bit]
  enc_dec f lit h := by
    simp [decLd] at h
    obtain ⟨hc, hd, had, hz, ha⟩ := h
    simp (disch := decide) only [decLd, LdOp.enc, Ctl.base, BitVec.ofNat_eq_ofNat, fields_eq_iff, enc_decCtl hc, enc_dstV hd,
      enc_decAddr had, enc_addr had (decSz_enc_of hz) (bit_eq f 4), ha]
    simp

theorem inverse_st : Inverse decSt StOp.enc StOp.c (fun o => o.a.isLit || o.addr.isLit) fun _ => True where
  dec_enc o n lit _ hl := by
    simp (disch := first | decide | exact hl) [-BitVec.getLsbD_eq_getElem, -Nat.reduceAdd, decSt, StOp.enc, Ctl.base]
  enc_dec f lit h := by
    simp [decSt] at h
    obtain ⟨hc, hw, ha, had, hz, hd, hm⟩ := h
    simp (disch := decide) only [decSt, StOp.enc, Ctl.base, BitVec.ofNat_eq_ofNat, fields_eq_iff, enc_decCtl hc, hw, enc_srcV ha,
      enc_decAddr had, enc_addr had (decSz_enc_of hz) (x := false) hm.symm, hd]
    simp

theorem inverse_ldk : Inverse decLdk LdkOp.enc LdkOp.c (fun o => o.addr.isLit) fun o => o.ud = true → o.d.toNat < 16 where
  dec_enc o n lit hk hl := by
    simp (disch := first | decide | exact hl) [-BitVec.getLsbD_eq_getElem, -Nat.reduceAdd, decLdk, LdkOp.enc, Ctl.base, bit,
      dstK_enc _ _ _ _ _ _ _ _ hk]
  enc_dec f lit h := by
    simp [decLdk] at h
    obtain ⟨hc, hw, hd, had, hz, h128, ha⟩ := h
    have hz := decSz_enc_of hz
    rw [h128] at hz
    simp (disch := decide) only [decLdk, LdkOp.enc, Ctl.base, BitVec.ofNat_eq_ofNat, fields_eq_iff, enc_decCtl hc, hw, enc_dstK hd,
      enc_decAddr had, enc_addr had hz (bit_eq f 4), ha]
    simp

theorem inverse_stk : Inverse decStk StkOp.enc StkOp.c (fun o => o.addr.isLit) fun o => o.us = true → o.a.toNat < 16 where
  dec_enc o n lit hk hl := by
    simp (disch := first | decide | exact hl) [-BitVec.getLsbD_eq_getElem, -Nat.reduceAdd, decStk, StkOp.enc, Ctl.base, bit, srcK_enc hk]
  enc_dec f lit h := by
    simp [decStk] at h
    obtain ⟨hc, hw, ha, had, hz, h128, hd⟩ := h
    have hz := decSz_enc_of hz
    rw [h128] at hz
    simp (disch := decide) only [decStk, StkOp.enc, Ctl.base, BitVec.ofNat_eq_ofNat, fields_eq_iff, enc_decCtl hc, hw, enc_srcK ha,
      enc_decAddr had, enc_addr had hz (bit_eq f 4), hd]
    simp

theorem inverse_atom : Inverse decAtom AtomOp.enc AtomOp.c (fun o => o.a.isLit || o.addr.isLit) fun _ => True where
  dec_enc o n lit _ hl := by
    simp (disch := first | decide | exact hl) [-BitVec.getLsbD_eq_getElem, -Nat.reduceAdd, decAtom, AtomOp.enc, Ctl.base, bit, szW64]
  enc_dec f lit h := by
    simp [decAtom] at h
    obtain ⟨hc, hd, ha, had, hz, h2⟩ := h
    have hz := decSz_enc_of hz
    have hs : (decSz f).val = if (decSz f).val = .b64 then .b64 else .b32 := by
      cases hv : (decSz f).val <;> simp_all
    rw [hs] at hz
    simp (disch := decide) only [decAtom, AtomOp.enc, Ctl.base, BitVec.ofNat_eq_ofNat, fields_eq_iff, enc_decCtl hc, enc_dstV hd,
      enc_srcV ha, enc_decAddr had]
    simp [enc_addr had hz (bit_eq f 4)]

theorem inverse_fence : Inverse decFence FenceOp.enc FenceOp.c (fun _ => false) fun _ => True where
  dec_enc o n lit _ hl := by
    have hl : o.c.lit = if false then 0#64 else 0 := hl
    simp (disch := first | decide | exact hl) [-BitVec.getLsbD_eq_getElem, -Nat.reduceAdd, decFence, FenceOp.enc, Ctl.base, append_bits,
      codes_scope.ofBits_toCode]
  enc_dec f lit h := by
    simp [decFence] at h
    obtain ⟨hc, hw, hs, hd, ha, hb, hcc, hm⟩ := h
    simp (disch := decide) only [decFence, FenceOp.enc, Ctl.base, BitVec.ofNat_eq_ofNat, fields_eq_iff, enc_decCtl hc, hw, ofCode_modF,
      codes_scope.toCode_ofBits hs, hd, ha, hb, hcc, ← hm, glue]
    simp

theorem inverse_csub : Inverse decCsub CsubOp.enc CsubOp.c (fun o => o.off.isLit || o.len.isLit) fun o => (o.uf = true →
    o.d.toNat < 16) ∧ ((o.uf || o.ua) = true → o.a.toNat < 16) ∧ (o.uf = true → o.off.uni = true) ∧ (o.uf = true → o.len.uni = true) where
  dec_enc o n lit hok hl := by
    obtain ⟨hd, ha, hb, hcc⟩ := hok
    simp (disch := first | decide | exact hl) [-BitVec.getLsbD_eq_getElem, -Nat.reduceAdd, decCsub, CsubOp.enc, Ctl.base, bit,
      append_bits, dstK_enc _ _ _ _ _ _ _ _ hd, srcK_enc ha, srcVS_enc hb, srcVS_enc hcc]
  enc_dec f lit h := by
    simp [decCsub] at h
    obtain ⟨hc, hw, hd, ha, hb, hcc, hm⟩ := h
    simp (disch := decide) only [decCsub, CsubOp.enc, Ctl.base, BitVec.ofNat_eq_ofNat, fields_eq_iff, enc_decCtl hc, hw, enc_dstK hd,
      enc_srcK ha, enc_srcVS hb, enc_srcVS hcc, capMod_low hm]
    simp

theorem inverse_capV : Inverse decCapV CapVOp.enc CapVOp.c (fun o => o.x.isLit) fun o => (o.uf = true → o.d.toNat < 16) ∧
    ((o.uf || o.ua) = true → o.a.toNat < 16) ∧ (o.uf = true → o.x.uni = true) where
  dec_enc o n lit hok hl := by
    obtain ⟨hd, ha, hb⟩ := hok
    simp (disch := first | decide | exact hl) [-BitVec.getLsbD_eq_getElem, -Nat.reduceAdd, decCapV, CapVOp.enc, Ctl.base, bit,
      dstK_enc _ _ _ _ _ _ _ _ hd, srcK_enc ha, srcVS_enc hb]
  enc_dec f lit h := by
    simp [decCapV] at h
    obtain ⟨hc, hw, hd, ha, hb, hcc, hm⟩ := h
    simp (disch := decide) only [decCapV, CapVOp.enc, Ctl.base, BitVec.ofNat_eq_ofNat, fields_eq_iff, enc_decCtl hc, hw, enc_dstK hd,
      enc_srcK ha, enc_srcVS hb, hcc, capMod_10 hm]
    simp

theorem inverse_cseal : Inverse decCseal CsealOp.enc CsealOp.c (fun o => o.t.isLit) fun o => (o.uf = true → o.d.toNat < 16) ∧
    ((o.uf || o.ua) = true → o.a.toNat < 16) ∧ ((o.uf || o.ub) = true → o.s.toNat < 16) ∧ (o.uf = true → o.t.uni = true) where
  dec_enc o n lit hok hl := by
    obtain ⟨hd, ha, hb, hcc⟩ := hok
    simp (disch := first | decide | exact hl) [-BitVec.getLsbD_eq_getElem, -Nat.reduceAdd, decCseal, CsealOp.enc, Ctl.base, bit,
      dstK_enc _ _ _ _ _ _ _ _ hd, srcK_enc ha, srcK_enc hb, srcVS_enc hcc]
  enc_dec f lit h := by
    simp [decCseal] at h
    obtain ⟨hc, hw, hd, ha, hb, hcc, hm⟩ := h
    simp (disch := decide) only [decCseal, CsealOp.enc, Ctl.base, BitVec.ofNat_eq_ofNat, fields_eq_iff, enc_decCtl hc, hw, enc_dstK hd,
      enc_srcK ha, enc_srcK hb, enc_srcVS hcc, capMod_9 hm]
    simp
    rfl

theorem inverse_cunseal : Inverse decCunseal CunsealOp.enc CunsealOp.c (fun _ => false) fun o => (o.uf = true → o.d.toNat < 16) ∧
    ((o.uf || o.ua) = true → o.a.toNat < 16) ∧ ((o.uf || o.ub) = true → o.s.toNat < 16) where
  dec_enc o n lit hok hl := by
    obtain ⟨hd, ha, hb⟩ := hok
    have hl : o.c.lit = if false then 0#64 else 0 := hl
    simp (disch := first | decide | exact hl) [-BitVec.getLsbD_eq_getElem, -Nat.reduceAdd, decCunseal, CunsealOp.enc, Ctl.base, bit,
      dstK_enc _ _ _ _ _ _ _ _ hd, srcK_enc ha, srcK_enc hb]
  enc_dec f lit h := by
    simp [decCunseal] at h
    obtain ⟨hc, hw, hd, ha, hb, hcc, hm⟩ := h
    simp (disch := decide) only [decCunseal, CunsealOp.enc, Ctl.base, BitVec.ofNat_eq_ofNat, fields_eq_iff, enc_decCtl hc, hw,
      enc_dstK hd, enc_srcK ha, enc_srcK hb, hcc, capMod_9 hm]
    simp

theorem inverse_ctest : Inverse decCtest CtestOp.enc CtestOp.c (fun _ => false) fun o => (o.uf || o.ua) = true → o.a.toNat < 16 where
  dec_enc o n lit ha hl := by
    have hl : o.c.lit = if false then 0#64 else 0 := hl
    simp (disch := first | decide | exact hl) [-BitVec.getLsbD_eq_getElem, -Nat.reduceAdd, decCtest, CtestOp.enc, Ctl.base, bit,
      append_bits, srcK_enc ha]
  enc_dec f lit h := by
    simp [decCtest] at h
    obtain ⟨hc, hw, hd, ha, hb, hcc, hm⟩ := h
    simp (disch := decide) only [decCtest, CtestOp.enc, Ctl.base, BitVec.ofNat_eq_ofNat, fields_eq_iff, enc_decCtl hc, hw, enc_dstN hd,
      enc_srcK ha, hb, hcc, capMod_low hm]
    simp

theorem inverse_cget : Inverse decCget CgetOp.enc CgetOp.c (fun _ => false) fun o => (o.d.isUni || o.ua) = true → o.a.toNat < 16 where
  dec_enc o n lit ha hl := by
    have hl : o.c.lit = if false then 0#64 else 0 := hl
    simp (disch := first | decide | exact hl) [-BitVec.getLsbD_eq_getElem, -Nat.reduceAdd, decCget, CgetOp.enc, Ctl.base, bit,
      srcK_enc ha, codes_field.ofBits_toCode]
  enc_dec f lit h := by
    simp [decCget] at h
    obtain ⟨hc, hd, ha, hx, hb, hcc, hm⟩ := h
    simp (disch := decide) only [decCget, CgetOp.enc, Ctl.base, BitVec.ofNat_eq_ofNat, fields_eq_iff, enc_decCtl hc, enc_decCgetDst hd,
      enc_srcK ha, ofCode_modF, codes_field.toCode_ofBits hx, hb, hcc, capMod_4 hm]
    simp

theorem inverse_cnull : Inverse decCnull CnullOp.enc CnullOp.c (fun _ => false) fun o => o.uf = true → o.d.toNat < 16 where
  dec_enc o n lit hd hl := by
    have hl : o.c.lit = if false then 0#64 else 0 := hl
    simp (disch := first | decide | exact hl) [-BitVec.getLsbD_eq_getElem, -Nat.reduceAdd, decCnull, CnullOp.enc, Ctl.base, bit,
      dstK_enc _ _ _ _ _ _ _ _ hd]
  enc_dec f lit h := by
    simp [decCnull] at h
    obtain ⟨hc, hw, hd, ha, hb, hcc, hm⟩ := h
    simp (disch := decide) only [decCnull, CnullOp.enc, Ctl.base, BitVec.ofNat_eq_ofNat, fields_eq_iff, enc_decCtl hc, hw, enc_dstK hd,
      ha, hb, hcc, capMod_11 hm]
    simp

theorem inverse_cdeleg : Inverse decCdeleg CdelegOp.enc CdelegOp.c (fun _ => false) fun o => (o.uf = true → o.d.toNat < 16) ∧
    ((o.uf || o.ua) = true → o.kb.toNat < 16) ∧ (o.uf = true → o.ksrc.toNat < 16) ∧ (o.uf = true → o.kdst.toNat < 16) where
  dec_enc o n lit hok hl := by
    obtain ⟨hd, ha, hb, hcc⟩ := hok
    have hl : o.c.lit = if false then 0#64 else 0 := hl
    simp (disch := first | decide | exact hl) [-BitVec.getLsbD_eq_getElem, -Nat.reduceAdd, decCdeleg, CdelegOp.enc, Ctl.base, bit,
      append_bits, dstK_enc _ _ _ _ _ _ _ _ hd, srcK_enc ha, srcK_enc hb, srcK_enc hcc]
  enc_dec f lit h := by
    simp [decCdeleg] at h
    obtain ⟨hc, hw, hd, ha, hb, hcc⟩ := h
    simp (disch := decide) only [decCdeleg, CdelegOp.enc, Ctl.base, BitVec.ofNat_eq_ofNat, fields_eq_iff, enc_decCtl hc, hw, enc_dstK hd,
      enc_srcK ha, enc_srcK hb, enc_srcK hcc, bit_eq, glue]
    simp

theorem inverse_gs : Inverse decGs GsOp.enc GsOp.c (fun o => o.idx.isLit) fun _ => True where
  dec_enc o n lit _ hl := by
    simp (disch := first | decide | exact hl) [-BitVec.getLsbD_eq_getElem, -Nat.reduceAdd, decGs, GsOp.enc, Ctl.base, append_bits,
      codes_esz.ofBits_toCode]
  enc_dec f lit h := by
    simp [decGs] at h
    obtain ⟨hc, hw, hp, hd, ha, hi, he, hm⟩ := h
    simp (disch := decide) only [decGs, GsOp.enc, Ctl.base, BitVec.ofNat_eq_ofNat, fields_eq_iff, enc_decCtl hc, hw, enc_dstN hp,
      enc_srcN hd, enc_srcN ha, enc_srcV hi, ofCode_modF, codes_esz.toCode_ofBits he, ← hm, glue]
    simp

theorem inverse_mma : Inverse decMma MmaOp.enc MmaOp.c (fun _ => false) fun _ => True where
  dec_enc o n lit _ hl := by
    have hl : o.c.lit = if false then 0#64 else 0 := hl
    simp (disch := first | decide | exact hl) [-BitVec.getLsbD_eq_getElem, -Nat.reduceAdd, decMma, MmaOp.enc, Ctl.base, bit, append_bits]
  enc_dec f lit h := by
    simp [decMma] at h
    obtain ⟨hc, hw, hd, ha, hb, hp, hm⟩ := h
    simp (disch := decide) only [decMma, MmaOp.enc, Ctl.base, BitVec.ofNat_eq_ofNat, fields_eq_iff, enc_decCtl hc, hw, enc_dstN hd,
      enc_srcN ha, enc_srcN hb, enc_srcN hp, ← hm, bit_eq, glue]
    simp

theorem inverse_mmac : Inverse decMmac MmacOp.enc MmacOp.c (fun _ => false) fun _ => True where
  dec_enc o n lit _ hl := by
    have hl : o.c.lit = if false then 0#64 else 0 := hl
    simp (disch := first | decide | exact hl) [-BitVec.getLsbD_eq_getElem, -Nat.reduceAdd, decMmac, MmacOp.enc, Ctl.base, bit, append_bits]
  enc_dec f lit h := by
    simp [decMmac] at h
    obtain ⟨hc, hw, hd, ha, hb, hp, hm⟩ := h
    simp (disch := decide) only [decMmac, MmacOp.enc, Ctl.base, BitVec.ofNat_eq_ofNat, fields_eq_iff, enc_decCtl hc, hw, enc_dstN hd,
      mmacSrc_eq hd ha, enc_srcN ha, enc_srcN hb, enc_srcN hp, ← hm, bit_eq, glue]
    simp

theorem inverse_aclr : Inverse decAclr AclrOp.enc AclrOp.c (fun _ => false) fun _ => True where
  dec_enc o n lit _ hl := by
    have hl : o.c.lit = if false then 0#64 else 0 := hl
    simp (disch := first | decide | exact hl) [-BitVec.getLsbD_eq_getElem, -Nat.reduceAdd, decAclr, AclrOp.enc, Ctl.base]
  enc_dec f lit h := by
    simp [decAclr] at h
    obtain ⟨hc, hw, hd, ha, hb, hcc, hm, hm0⟩ := h
    have hmd := md_eq_zero_of_bit0 hm hm0
    simp (disch := decide) only [decAclr, AclrOp.enc, Ctl.base, BitVec.ofNat_eq_ofNat, fields_eq_iff, enc_decCtl hc, hw, enc_dstN hd, ha,
      hb, hcc, hmd]
    simp

theorem inverse_ald : Inverse decAld AldOp.enc AldOp.c (fun _ => false) fun _ => True where
  dec_enc o n lit _ hl := by
    have hl : o.c.lit = if false then 0#64 else 0 := hl
    simp (disch := first | decide | exact hl) [-BitVec.getLsbD_eq_getElem, -Nat.reduceAdd, decAld, AldOp.enc, Ctl.base]
  enc_dec f lit h := by
    simp [decAld] at h
    obtain ⟨hc, hw, hd, ha, hp, hb, hm, hm0⟩ := h
    have hmd := md_eq_zero_of_bit0 hm hm0
    simp (disch := decide) only [decAld, AldOp.enc, Ctl.base, BitVec.ofNat_eq_ofNat, fields_eq_iff, enc_decCtl hc, hw, enc_dstN hd,
      enc_srcN ha, enc_srcN hp, hb, hmd]
    simp

theorem inverse_ast : Inverse decAst AstOp.enc AstOp.c (fun _ => false) fun _ => True where
  dec_enc o n lit _ hl := by
    have hl : o.c.lit = if false then 0#64 else 0 := hl
    simp (disch := first | decide | exact hl) [-BitVec.getLsbD_eq_getElem, -Nat.reduceAdd, decAst, AstOp.enc, Ctl.base, append_bits,
      codes_ast.ofBits_toCode]
  enc_dec f lit h := by
    simp [decAst] at h
    obtain ⟨hc, hw, hd, ha, hp, hx, hdst, hm⟩ := h
    simp (disch := decide) only [decAst, AstOp.enc, Ctl.base, BitVec.ofNat_eq_ofNat, fields_eq_iff, enc_decCtl hc, hw, enc_srcN hd,
      enc_srcN ha, enc_srcN hp, ofCode_modF, codes_ast.toCode_ofBits hx, hdst, ← hm, glue]
    simp

theorem inverse_clx : Inverse decClx ClxOp.enc ClxOp.c (fun _ => false) fun _ => True where
  dec_enc o n lit _ hl := by
    have hl : o.c.lit = if false then 0#64 else 0 := hl
    simp (disch := first | decide | exact hl) [-BitVec.getLsbD_eq_getElem, -Nat.reduceAdd, decClx, ClxOp.enc, Ctl.base, bit, append_bits,
      codes_clx.ofBits_toCode]
  enc_dec f lit h := by
    simp [decClx] at h
    obtain ⟨hc, hw, hd, ha, hp, hx, hdst, hm⟩ := h
    simp (disch := decide) only [decClx, ClxOp.enc, Ctl.base, BitVec.ofNat_eq_ofNat, fields_eq_iff, enc_decCtl hc, hw, enc_srcN hd,
      enc_srcN ha, enc_srcN hp, ofCode_modF, codes_clx.toCode_ofBits hx, hdst, ← hm, bit_eq, glue]
    simp

theorem inverse_nmc : Inverse decNmc NmcOp.enc NmcOp.c (fun _ => false) fun _ => True where
  dec_enc o n lit _ hl := by
    have hl : o.c.lit = if false then 0#64 else 0 := hl
    simp (disch := first | decide | exact hl) [-BitVec.getLsbD_eq_getElem, -Nat.reduceAdd, decNmc, NmcOp.enc, Ctl.base, append_bits,
      codes_nmc.ofBits_toCode]
  enc_dec f lit h := by
    simp [decNmc] at h
    obtain ⟨hc, hw, hd, ha, hp, hx, hdst, hm⟩ := h
    simp (disch := decide) only [decNmc, NmcOp.enc, Ctl.base, BitVec.ofNat_eq_ofNat, fields_eq_iff, enc_decCtl hc, hw, enc_srcN hd,
      enc_srcN ha, enc_srcN hp, ofCode_modF, codes_nmc.toCode_ofBits hx, hdst, ← hm, glue]
    simp

theorem inverse_gatm : Inverse decGatm GatmOp.enc GatmOp.c (fun o => o.o.isLit || o.a.isLit) fun _ => True where
  dec_enc o n lit _ hl := by
    simp (disch := first | decide | exact hl) [-BitVec.getLsbD_eq_getElem, -Nat.reduceAdd, decGatm, GatmOp.enc, Ctl.base, bit,
      append_bits, codes_atom.ofBits_toCode]
  enc_dec f lit h := by
    simp [decGatm] at h
    obtain ⟨hc, hd, hk, ho, ha, hx, hm⟩ := h
    simp (disch := decide) only [decGatm, GatmOp.enc, Ctl.base, BitVec.ofNat_eq_ofNat, fields_eq_iff, enc_decCtl hc, enc_dstV hd,
      enc_srcN hk, enc_srcV ho, enc_srcV ha, ofCode_modF, codes_atom.toCode_ofBits hx, ← hm, bit_eq, glue]
    simp

theorem inverse_sig : Inverse decSig SigOp.enc SigOp.c (fun o => o.o.isLit || o.v.isLit) fun _ => True where
  dec_enc o n lit _ hl := by
    simp (disch := first | decide | exact hl) [-BitVec.getLsbD_eq_getElem, -Nat.reduceAdd, decSig, SigOp.enc, Ctl.base, bit, append_bits]
  enc_dec f lit h := by
    simp [decSig] at h
    obtain ⟨hc, hw, hk, ho, hv, hr, hdst, hm⟩ := h
    simp (disch := decide) only [decSig, SigOp.enc, Ctl.base, BitVec.ofNat_eq_ofNat, fields_eq_iff, enc_decCtl hc, hw, enc_srcN hk,
      enc_srcS ho, enc_srcS hv, decRel_modF, enc_decRel hr, hdst, ← hm, bit_eq, glue]
    simp

theorem inverse_wsig : Inverse decWsig WsigOp.enc WsigOp.c (fun o => o.o.isLit || o.v.isLit) fun _ => True where
  dec_enc o n lit _ hl := by
    simp (disch := first | decide | exact hl) [-BitVec.getLsbD_eq_getElem, -Nat.reduceAdd, decWsig, WsigOp.enc, Ctl.base, bit,
      append_bits, codes_wcc.ofBits_toCode]
  enc_dec f lit h := by
    simp [decWsig] at h
    obtain ⟨hc, hw, hq, hk, ho, hv, hx, hr, hm⟩ := h
    simp (disch := decide) only [decWsig, WsigOp.enc, Ctl.base, BitVec.ofNat_eq_ofNat, fields_eq_iff, enc_decCtl hc, hw, enc_dstN hq,
      enc_srcN hk, enc_srcS ho, enc_srcS hv, ofCode_modF, codes_wcc.toCode_ofBits hx, decRel_modF, enc_decRel hr, ← hm, glue]
    simp

theorem inverse_waitc : Inverse decWaitc WaitcOp.enc WaitcOp.c (fun _ => false) fun _ => True where
  dec_enc o n lit _ hl := by
    have hl : o.c.lit = if false then 0#64 else 0 := hl
    simp (disch := first | decide | exact hl) [-BitVec.getLsbD_eq_getElem, -Nat.reduceAdd, decWaitc, WaitcOp.enc, Ctl.base, append_bits,
      codes_cls.ofBits_toCode]
  enc_dec f lit h := by
    simp [decWaitc] at h
    obtain ⟨hc, hw, hx, hd, ha, hb, hcc, hm⟩ := h
    simp (disch := decide) only [decWaitc, WaitcOp.enc, Ctl.base, BitVec.ofNat_eq_ofNat, fields_eq_iff, enc_decCtl hc, hw, ofCode_modF,
      codes_cls.toCode_ofBits hx, hd, ha, hb, hcc, ← hm, glue]
    simp

theorem inverse_stage : Inverse decStage StageOp.enc StageOp.c (fun o => o.i.isLit) fun _ => True where
  dec_enc o n lit _ hl := by
    simp (disch := first | decide | exact hl) [-BitVec.getLsbD_eq_getElem, -Nat.reduceAdd, decStage, StageOp.enc, Ctl.base, bit,
      append_bits]
  enc_dec f lit h := by
    simp [decStage] at h
    obtain ⟨hc, hw, hk, hi, hd, hcc, hm⟩ := h
    simp (disch := decide) only [decStage, StageOp.enc, Ctl.base, BitVec.ofNat_eq_ofNat, fields_eq_iff, enc_decCtl hc, hw, enc_srcN hk,
      enc_srcS hi, hd, hcc, ← hm, bit_eq, glue]
    simp

theorem inverse_wb : Inverse decWb WbOp.enc WbOp.c (fun _ => false) fun _ => True where
  dec_enc o n lit _ hl := by
    have hl : o.c.lit = if false then 0#64 else 0 := hl
    simp (disch := first | decide | exact hl) [-BitVec.getLsbD_eq_getElem, -Nat.reduceAdd, decWb, WbOp.enc, Ctl.base, bit, append_bits]
  enc_dec f lit h := by
    simp [decWb] at h
    obtain ⟨hc, hw, hk, hp, hd, hb, hm⟩ := h
    simp (disch := decide) only [decWb, WbOp.enc, Ctl.base, BitVec.ofNat_eq_ofNat, fields_eq_iff, enc_decCtl hc, hw, enc_srcN hk,
      enc_srcN hp, hd, hb, ← hm, bit_eq, glue]
    simp

theorem inverse_br : Inverse decBr BrOp.enc BrOp.c (fun o => immLit o.imm) fun _ => True where
  dec_enc o n lit _ hl := by
    simp (disch := first | decide | exact hl) [-BitVec.getLsbD_eq_getElem, -Nat.reduceAdd, decBr, BrOp.enc, Ctl.base]
  enc_dec f lit h := by
    simp [decBr] at h
    obtain ⟨hc, hw, hd, ha, hb⟩ := h
    simp (disch := decide) only [decBr, BrOp.enc, Ctl.base, BitVec.ofNat_eq_ofNat, fields_eq_iff, enc_decCtl hc, hw, hd, ha, hb,
      immCc_imm, immMd_imm]
    simp

theorem inverse_brx : Inverse decBrx BrxOp.enc BrxOp.c (fun o => o.o.isLit) fun o => (o.uf = true → o.k.toNat < 16) ∧ (o.uf = true →
    o.o.uni = true) where
  dec_enc o n lit hok hl := by
    obtain ⟨hk, ho⟩ := hok
    simp (disch := first | decide | exact hl) [-BitVec.getLsbD_eq_getElem, -Nat.reduceAdd, decBrx, BrxOp.enc, Ctl.base, bit, append_bits,
      srcK_enc hk, srcVS_enc ho]
  enc_dec f lit h := by
    simp [decBrx] at h
    obtain ⟨hc, hw, hk, ho, hd, hcc, hm⟩ := h
    simp (disch := decide) only [decBrx, BrxOp.enc, Ctl.base, BitVec.ofNat_eq_ofNat, fields_eq_iff, enc_decCtl hc, hw, enc_srcK hk,
      enc_srcVS ho, hd, hcc, ← hm, bit_eq, glue]
    simp

theorem inverse_ctlOnly : Inverse decCtlOnly Ctl.enc id (fun _ => false) fun _ => True where
  dec_enc o n lit _ hl := by
    have hl : o.lit = if false then 0#64 else 0 := hl
    simp (disch := first | decide | exact hl) [-BitVec.getLsbD_eq_getElem, -Nat.reduceAdd, decCtlOnly, Ctl.enc, Ctl.base]
  enc_dec f lit h := by
    simp [decCtlOnly] at h
    obtain ⟨hc, hw, hd, ha, hb, hcc, hm⟩ := h
    simp (disch := decide) only [decCtlOnly, Ctl.enc, Ctl.base, BitVec.ofNat_eq_ofNat, fields_eq_iff, enc_decCtl hc, hw, hd, ha, hb, hcc,
      hm]
    simp [enc_decCtl hc]

theorem inverse_spawn : Inverse decSpawn SpawnOp.enc SpawnOp.c (fun o => o.a.isLit || immLit o.imm) fun _ => True where
  dec_enc o n lit _ hl := by
    simp (disch := first | decide | exact hl) [-BitVec.getLsbD_eq_getElem, -Nat.reduceAdd, decSpawn, SpawnOp.enc, Ctl.base, sz8_enc]
  enc_dec f lit h := by
    simp [decSpawn] at h
    obtain ⟨hc, hw, ha, hb, hd⟩ := h
    simp (disch := decide) only [decSpawn, SpawnOp.enc, Ctl.base, BitVec.ofNat_eq_ofNat, fields_eq_iff, enc_decCtl hc, hw, enc_srcV ha,
      hb, sz8_eq hd, immCc_imm, immMd_imm]
    simp

theorem inverse_region : Inverse decRegion RegionOp.enc RegionOp.c (fun _ => false) fun _ => True where
  dec_enc o n lit _ hl := by
    have hl : o.c.lit = if false then 0#64 else 0 := hl
    simp (disch := first | decide | exact hl) [-BitVec.getLsbD_eq_getElem, -Nat.reduceAdd, decRegion, RegionOp.enc, Ctl.base]
  enc_dec f lit h := by
    simp [decRegion] at h
    obtain ⟨hc, hd, ha, hb, hcc, hm⟩ := h
    simp (disch := decide) only [decRegion, RegionOp.enc, Ctl.base, BitVec.ofNat_eq_ofNat, fields_eq_iff, enc_decCtl hc, enc_dstV hd, ha,
      hb, hcc, hm]
    simp

theorem inverse_bar : Inverse decBar BarOp.enc BarOp.c (fun _ => false) fun _ => True where
  dec_enc o n lit _ hl := by
    have hl : o.c.lit = if false then 0#64 else 0 := hl
    simp (disch := first | decide | exact hl) [-BitVec.getLsbD_eq_getElem, -Nat.reduceAdd, decBar, BarOp.enc, Ctl.base, append_bits,
      codes_scope.ofBits_toCode]
  enc_dec f lit h := by
    simp [decBar] at h
    obtain ⟨hc, hw, hs, hd, ha, hb, hcc, hm⟩ := h
    simp (disch := decide) only [decBar, BarOp.enc, Ctl.base, BitVec.ofNat_eq_ofNat, fields_eq_iff, enc_decCtl hc, hw, ofCode_modF,
      codes_scope.toCode_ofBits hs, hd, ha, hb, hcc, ← hm, glue]
    simp

theorem inverse_grow : Inverse decGrow GrowOp.enc GrowOp.c (fun _ => false) fun _ => True where
  dec_enc o n lit _ hl := by
    have hl : o.c.lit = if false then 0#64 else 0 := hl
    simp (disch := first | decide | exact hl) [-BitVec.getLsbD_eq_getElem, -Nat.reduceAdd, decGrow, GrowOp.enc, Ctl.base, append_bits,
      setWidth_append]
  enc_dec f lit h := by
    simp [decGrow] at h
    obtain ⟨hc, hw, hd, ha, hb, hcc, hm⟩ := h
    simp (disch := decide) only [decGrow, GrowOp.enc, Ctl.base, BitVec.ofNat_eq_ofNat, fields_eq_iff, enc_decCtl hc, hw, hd, ha, hb, hcc,
      ← hm, BitVec.setWidth_eq_extractLsb', glue]
    simp

theorem inverse_trap : Inverse decTrap TrapOp.enc TrapOp.c (fun _ => false) fun _ => True where
  dec_enc o n lit _ hl := by
    have hl : o.c.lit = if false then 0#64 else 0 := hl
    simp (disch := first | decide | exact hl) [-BitVec.getLsbD_eq_getElem, -Nat.reduceAdd, decTrap, TrapOp.enc, Ctl.base]
  enc_dec f lit h := by
    simp [decTrap] at h
    obtain ⟨hc, hw, hd, ha, hb, hcc⟩ := h
    simp (disch := decide) only [decTrap, TrapOp.enc, Ctl.base, BitVec.ofNat_eq_ofNat, fields_eq_iff, enc_decCtl hc, hw, hd, ha, hb, hcc]
    simp

theorem inverse_qpush : Inverse decQpush QpushOp.enc QpushOp.c (fun o => o.so.isLit) fun _ => True where
  dec_enc o n lit _ hl := by
    simp (disch := first | decide | exact hl) [-BitVec.getLsbD_eq_getElem, -Nat.reduceAdd, decQpush, QpushOp.enc, Ctl.base, bit,
      append_bits, setWidth_append]
  enc_dec f lit h := by
    simp [decQpush] at h
    obtain ⟨hc, hw, hq, ha, hb, hs, hm⟩ := h
    simp (disch := decide) only [decQpush, QpushOp.enc, Ctl.base, BitVec.ofNat_eq_ofNat, fields_eq_iff, enc_decCtl hc, hw, enc_dstN hq,
      enc_srcN ha, enc_srcN hb, enc_srcS hs, ← hm, bit_eq, BitVec.setWidth_eq_extractLsb', glue]
    simp

theorem inverse_qpop : Inverse decQpop QpopOp.enc QpopOp.c (fun o => o.so.isLit) fun _ => True where
  dec_enc o n lit _ hl := by
    simp (disch := first | decide | exact hl) [-BitVec.getLsbD_eq_getElem, -Nat.reduceAdd, decQpop, QpopOp.enc, Ctl.base, bit, append_bits]
  enc_dec f lit h := by
    simp [decQpop] at h
    obtain ⟨hc, hw, hq, ha, hb, hs, hm, hm0⟩ := h
    simp (disch := decide) only [decQpop, QpopOp.enc, Ctl.base, BitVec.ofNat_eq_ofNat, fields_eq_iff, enc_decCtl hc, hw, enc_dstN hq,
      enc_srcN ha, enc_srcN hb, enc_srcS hs, ← hm, ← hm0, bit_eq, glue]
    simp
    rfl

theorem inverse_qslots : Inverse decQslots QslotsOp.enc QslotsOp.c (fun _ => false) fun _ => True where
  dec_enc o n lit _ hl := by
    have hl : o.c.lit = if false then 0#64 else 0 := hl
    simp (disch := first | decide | exact hl) [-BitVec.getLsbD_eq_getElem, -Nat.reduceAdd, decQslots, QslotsOp.enc, Ctl.base]
  enc_dec f lit h := by
    simp [decQslots] at h
    obtain ⟨hc, hw, hd, ha, hb, hcc, ⟨hm, hm0⟩, hm2⟩ := h
    have hmd := md_eq_zero_of_bit2 hm hm0 hm2
    simp (disch := decide) only [decQslots, QslotsOp.enc, Ctl.base, BitVec.ofNat_eq_ofNat, fields_eq_iff, enc_decCtl hc, hw, enc_dstN hd,
      enc_srcN ha, hb, hcc, hmd]
    simp

theorem inverse_launch : Inverse decLaunch LaunchOp.enc LaunchOp.c (fun o => o.so.isLit) fun _ => True where
  dec_enc o n lit _ hl := by
    simp (disch := first | decide | exact hl) [-BitVec.getLsbD_eq_getElem, -Nat.reduceAdd, decLaunch, LaunchOp.enc, Ctl.base]
  enc_dec f lit h := by
    simp [decLaunch] at h
    obtain ⟨hc, hw, ha, hb, hs, hd, ⟨hm, hm0⟩, hm2⟩ := h
    have hmd := md_eq_zero_of_bit2 hm hm0 hm2
    simp (disch := decide) only [decLaunch, LaunchOp.enc, Ctl.base, BitVec.ofNat_eq_ofNat, fields_eq_iff, enc_decCtl hc, hw, enc_srcN ha,
      enc_srcN hb, enc_srcS hs, hd, hmd]
    simp

theorem inverse_sysrd : Inverse decSysrd SysrdOp.enc SysrdOp.c (fun _ => false) fun _ => True where
  dec_enc o n lit _ hl := by
    have hl : o.c.lit = if false then 0#64 else 0 := hl
    simp (disch := first | decide | exact hl) [-BitVec.getLsbD_eq_getElem, -Nat.reduceAdd, decSysrd, SysrdOp.enc, Ctl.base]
  enc_dec f lit h := by
    simp [decSysrd] at h
    obtain ⟨hc, hd, ha, hb, hcc⟩ := h
    simp (disch := decide) only [decSysrd, SysrdOp.enc, Ctl.base, BitVec.ofNat_eq_ofNat, fields_eq_iff, enc_decCtl hc, enc_dstV hd, ha,
      hb, hcc]
    simp

theorem inverse_syswr : Inverse decSyswr SyswrOp.enc SyswrOp.c (fun o => o.a.isLit) fun _ => True where
  dec_enc o n lit _ hl := by
    simp (disch := first | decide | exact hl) [-BitVec.getLsbD_eq_getElem, -Nat.reduceAdd, decSyswr, SyswrOp.enc, Ctl.base]
  enc_dec f lit h := by
    simp [decSyswr] at h
    obtain ⟨hc, hw, ha, hd, hb, hcc⟩ := h
    simp (disch := decide) only [decSyswr, SyswrOp.enc, Ctl.base, BitVec.ofNat_eq_ofNat, fields_eq_iff, enc_decCtl hc, hw, enc_srcV ha,
      hd, hb, hcc]
    simp

end Sys2Proof.Machine

/-! SUPPORT. The encodings: the two forms of cpy, revoke and bra, the opcode map, rep (R158, R164–R166). -/

namespace Sys2Proof.Machine

/-! ## The shapes with two forms -/

/-- The condition of a branch that a destination field holds. -/
def braCond (n : BitVec 8) : Option (Bool × BitVec 2) := if n.getLsbD 7 then some (n.getLsbD 2, n.setWidth 2) else none
/-- The bits of the field that the condition leaves unused. -/
def braUnused (n : BitVec 8) : BitVec 8 := n &&& (if n.getLsbD 7 then 0x78 else 0x7F)

theorem braCond_encD (o : BraOp) : braUnused o.encD = 0#8 ∧ braCond o.encD = o.cond := by
  obtain ⟨c, cond, imm⟩ := o
  cases cond with
  | none =>
    have key : braUnused 0 = 0#8 ∧ braCond 0 = none := by decide
    exact key
  | some x =>
    have key : ∀ (neg : Bool) (q : BitVec 2), braUnused (1#1 ++ 0#4 ++ BitVec.ofBool neg ++ q) = 0#8 ∧
        braCond (1#1 ++ 0#4 ++ BitVec.ofBool neg ++ q) = some (neg, q) := by decide
    exact key x.1 x.2

theorem encD_braCond (c : Ctl) (imm : BitVec 21) {n : BitVec 8} (h : braUnused n = 0#8) : BraOp.encD ⟨c, braCond n, imm⟩ = n := by
  have key : ∀ n : BitVec 8, braUnused n = 0#8 → BraOp.encD ⟨{}, braCond n, 0⟩ = n := by decide
  exact key n h

theorem decBra_eq (f : Fields) (lit : DWord) : decBra f lit =
    ⟨(decCtl f (immLit f.imm) lit).bad ++ noWbs f ++ zeroF f.a ++ zeroF f.b ++ zeroF (braUnused f.dst),
     ⟨(decCtl f (immLit f.imm) lit).val, braCond f.dst, f.imm⟩⟩ := rfl

theorem inverse_bra : Inverse decBra BraOp.enc BraOp.c (fun o => immLit o.imm) fun _ => True where
  dec_enc o n lit _ hl := by
    simp (disch := exact hl) [decBra_eq, BraOp.enc, Ctl.base, braCond_encD]
  enc_dec f lit h := by
    simp [decBra_eq] at h
    obtain ⟨hc, hw, ha, hb, hd⟩ := h
    simp only [decBra_eq, BraOp.enc, Ctl.base, BitVec.ofNat_eq_ofNat, fields_eq_iff, enc_decCtl hc, hw, ha, hb, encD_braCond _ _ hd,
      immCc_imm, immMd_imm]
    simp

theorem inverse_revoke : Inverse decRevoke RevokeOp.enc RevokeOp.c RevokeOp.lits fun _ => True where
  dec_enc o n lit _ hl := by
    obtain ⟨c, sd, k, sg⟩ := o
    cases sg with
    | none =>
      have hl : c.lit = if false then lit else 0 := hl
      simp (disch := first | decide | exact hl) [-BitVec.getLsbD_eq_getElem, decRevoke, RevokeOp.enc, Ctl.base, RevokeOp.encB,
        RevokeOp.encC, bit]
    | some x =>
      have hl : c.lit = if x.2.isLit then lit else 0 := hl
      simp (disch := first | decide | exact hl) [-BitVec.getLsbD_eq_getElem, decRevoke, RevokeOp.enc, Ctl.base, RevokeOp.encB,
        RevokeOp.encC, bit]
  enc_dec f lit h := by
    have hbit := bit_eq f 0
    unfold decRevoke at h ⊢
    cases hb : bit f 0 <;> simp [hb] at h hbit ⊢
    · obtain ⟨hc, hw, hd, hk, hB, hcc, hm⟩ := h
      simp (disch := decide) only [RevokeOp.enc, RevokeOp.encB, RevokeOp.encC, Ctl.base, BitVec.ofNat_eq_ofNat, fields_eq_iff,
        enc_decCtl hc,
        enc_dstN hd, enc_srcN hk, hw, hB, hcc, Option.isSome_none, BitVec.ofBool_false, ← hm, hbit, glue]
      simp [RevokeOp.lits]
    · obtain ⟨hc, hw, hd, hk, hg, ho, hm⟩ := h
      simp (disch := decide) only [RevokeOp.enc, RevokeOp.encB, RevokeOp.encC, Ctl.base, BitVec.ofNat_eq_ofNat, fields_eq_iff,
        enc_decCtl hc,
        enc_dstN hd, enc_srcN hk, enc_srcN hg, enc_srcS ho, hw, Option.isSome_some, BitVec.ofBool_true, ← hm, hbit, glue]
      simp [RevokeOp.lits]
      rfl

/-! ## Words -/

/-- What a decoded ordinary word is: an instruction of those fields, its literal word held where an operand names it. -/
def Encodes (f : Fields) (lit : DWord) (i : Instr) : Prop :=
  i.fields = some f ∧ ∃ c, i.ctl = some c ∧ c.lit = if i.usesLit then lit else 0

/-- A decoder of one opcode answers instructions that encode to what it read. -/
def Sound (n : Nat) (d : Fields → DWord → Dec Instr) : Prop :=
  ∀ f lit, f.opc.toNat = n → (d f lit).bad = [] → Encodes f lit (d f lit).val

/-- An instruction's encoding decodes to it. -/
def Complete (i : Instr) : Prop :=
  ∃ n d f c, opcodeMap.lookup n = some d ∧ i.fields = some f ∧ f.opc.toNat = n ∧ i.ctl = some c ∧
    ∀ lit, c.lit = (if i.usesLit then lit else 0) → d f lit = ⟨[], i⟩

section
variable {α : Type} {dec : Fields → DWord → Dec α} {enc : α → Nat → Fields} {ctl : α → Ctl} {lits : α → Bool} {ok : α → Prop}
  {k : α → Instr} {n : Nat}

theorem sound_as (h : Inverse dec enc ctl lits ok) (hf : ∀ o, (k o).fields = some (enc o n) := by exact fun _ => rfl)
    (hc : ∀ o, (k o).ctl = some (ctl o) := by exact fun _ => rfl) (hl : ∀ o, (k o).usesLit = lits o := by exact fun _ => rfl) :
    Sound n (as dec k) := by
  intro f lit hn hb
  obtain ⟨he, hlit⟩ := h.enc_dec f lit hb
  have hk : (as dec k f lit).val = k (dec f lit).val := rfl
  rw [hn] at he
  rw [hk]
  exact ⟨by rw [hf, he], _, hc _, by rw [hlit, hl]⟩

theorem complete_as {o : α} (h : Inverse dec enc ctl lits ok) (ho : ok o) (hf : (k o).fields = some (enc o n) := by rfl)
    (hm : opcodeMap.lookup n = some (as dec k) := by rfl) (hn : (enc o n).opc.toNat = n := by rfl)
    (hc : (k o).ctl = some (ctl o) := by rfl) (hl : (k o).usesLit = lits o := by rfl) : Complete (k o) := by
  refine ⟨n, _, _, _, hm, hf, hn, hc, fun lit hlit => ?_⟩
  rw [hl] at hlit
  simp [as, h.dec_enc o n lit ho hlit]

end

theorem decCpy_direct (o : CpyOp) (lit : DWord) (hl : o.c.lit = 0) : decCpy (o.enc 0x180) lit = ⟨[], .cpy o⟩ := by
  have hl : o.c.lit = if false then 0#64 else 0 := hl
  have hm : modF (o.enc 0x180) 10 2 = 0 := by simp [modF, CpyOp.enc, Ctl.base]
  unfold decCpy
  rw [hm]
  simp (disch := first | decide | exact hl) [decCpyDirect, CpyOp.enc, Ctl.base]

theorem decCpy_cmd (o : CpyCmdOp) (lit : DWord) (hl : o.c.lit = 0) : decCpy (o.enc 0x180) lit = ⟨[], .cpyCmd o⟩ := by
  have hl : o.c.lit = if false then 0#64 else 0 := hl
  have hm : modF (o.enc 0x180) 10 2 = 1 := by
    rw [modF_eq]
    simp (disch := decide) only [CpyCmdOp.enc, append_bits]
    rfl
  unfold decCpy
  rw [hm]
  obtain ⟨c, kc, loc⟩ := o
  cases loc <;>
    simp (disch := first | decide | exact hl) [-BitVec.getLsbD_eq_getElem, decCpyCmd, CpyCmdOp.enc, Ctl.base, bit]

theorem sound_cpy : Sound 0x180 decCpy := by
  intro f lit hn hb
  unfold decCpy at hb ⊢
  split at hb
  case h_1 hm =>
    have hm := eq_ofNat_of_modF hm
    simp [decCpyDirect] at hb
    obtain ⟨hc, hw, hd, ha, hp, hdst, -, h10⟩ := hb
    have hmd : f.md = 0#12 := by
      have hg := glue f.md 0 10 2 10 rfl
      rw [hm, h10] at hg
      exact (hg.trans BitVec.extractLsb'_eq_self).symm
    refine ⟨congrArg some ?_, _, rfl, enc_decCtl hc |>.2.2⟩
    simp only [decCpyDirect, CpyOp.enc, Ctl.base, BitVec.ofNat_eq_ofNat, fields_eq_iff, enc_decCtl hc, hw, enc_srcN hd, enc_srcN ha,
      enc_srcN hp, hdst, hmd, ← hn]
    simp
  case h_2 hm =>
    have hm := eq_ofNat_of_modF hm
    have h9 := bit_eq f 9
    have hmd : ∀ b : Bool, BitVec.ofBool b = f.md.extractLsb' 9 1 → f.md.extractLsb' 0 9 = 0#9 → 1#2 ++ BitVec.ofBool b ++ 0#9 = f.md := by
      intro b hb h0
      have hm : f.md.extractLsb' 10 2 = 1#2 := hm
      simp (disch := decide) only [← hm, hb, ← h0, glue]
      simp
    unfold decCpyCmd at hb ⊢
    cases hbit : bit f 9 <;> simp [hbit] at hb h9 ⊢
    · obtain ⟨hc, hw, hk, hb, hcc, hdst, -, h0⟩ := hb
      refine ⟨congrArg some ?_, _, rfl, enc_decCtl hc |>.2.2⟩
      simp only [CpyCmdOp.enc, Ctl.base, BitVec.ofNat_eq_ofNat, fields_eq_iff, enc_decCtl hc, hw, enc_srcN hk, hb, hcc, hdst,
        Option.isSome_none, hmd false h9 h0, ← hn]
      simp
    · obtain ⟨hc, hw, hk, hl, hcc, hdst, -, h0⟩ := hb
      refine ⟨congrArg some ?_, _, rfl, enc_decCtl hc |>.2.2⟩
      simp only [CpyCmdOp.enc, Ctl.base, BitVec.ofNat_eq_ofNat, fields_eq_iff, enc_decCtl hc, hw, enc_srcN hk, hcc, hdst,
        Option.isSome_some, Option.getD_some, enc_srcN hl, hmd true h9 h0, ← hn]
      simp
  case h_3 => simp at hb

/-! ## The opcode map -/

theorem sound_opcInt : ∀ e ∈ opcInt, Sound e.1 e.2 := by
  simp only [opcInt, List.forall_mem_cons, List.not_mem_nil, false_imp_iff, implies_true, and_true]
  exact ⟨sound_as inverse_iBin, sound_as inverse_iBin, sound_as inverse_iBin, sound_as inverse_iBin, sound_as inverse_iBin,
    sound_as inverse_iBin, sound_as inverse_iBin, sound_as inverse_iBin, sound_as inverse_iMad, sound_as inverse_iMad,
    sound_as inverse_iBin, sound_as inverse_iBin, sound_as inverse_iBin, sound_as inverse_iBin, sound_as inverse_iUn, sound_as inverse_iUn,
    sound_as inverse_iUn, sound_as inverse_iUn, sound_as inverse_iBin, sound_as inverse_iBin, sound_as inverse_iBin, sound_as inverse_iBin,
    sound_as inverse_iBin, sound_as inverse_iBin, sound_as inverse_iBin, sound_as inverse_iBin, sound_as inverse_iBin,
    sound_as inverse_iBin, sound_as inverse_iBin, sound_as inverse_iBin, sound_as inverse_iUn, sound_as inverse_iUn, sound_as inverse_iBin,
    sound_as inverse_iBin, sound_as inverse_iBin, sound_as inverse_iBin, sound_as inverse_iBin, sound_as inverse_iBin,
    sound_as inverse_iBin, sound_as inverse_iBin, sound_as inverse_iUn, sound_as inverse_iUn, sound_as inverse_iUn, sound_as inverse_iUn,
    sound_as inverse_iUn, sound_as inverse_iUn, sound_as inverse_iUn, sound_as inverse_iUn, sound_as inverse_iBf, sound_as inverse_iBf,
    sound_as inverse_iBf, sound_as inverse_iBf, sound_as inverse_iSel, sound_as inverse_iSel, sound_as inverse_iCmp, sound_as inverse_iCmp,
    sound_as inverse_iUn, sound_as inverse_iUn, sound_as inverse_iMovi, sound_as inverse_iMovi⟩

theorem sound_opcFloat : ∀ e ∈ opcFloat, Sound e.1 e.2 := by
  simp only [opcFloat, List.forall_mem_cons, List.not_mem_nil, false_imp_iff, implies_true, and_true]
  exact ⟨sound_as inverse_fBin, sound_as inverse_fBin, sound_as inverse_fBin, sound_as inverse_fTri, sound_as inverse_fBin,
    sound_as inverse_fBin, sound_as inverse_fCmp, sound_as inverse_fUn, sound_as inverse_fUn, sound_as inverse_fUn, sound_as inverse_fUn,
    sound_as inverse_fUn, sound_as inverse_fBin, sound_as inverse_fUn, sound_as inverse_fUn, sound_as inverse_fUn, sound_as inverse_fUn,
    sound_as inverse_fUn, sound_as inverse_fUn, sound_as inverse_fUn, sound_as inverse_fUn, sound_as inverse_hBin, sound_as inverse_hBin,
    sound_as inverse_hTri⟩

theorem sound_opcConv : ∀ e ∈ opcConv, Sound e.1 e.2 := by
  simp only [opcConv, List.forall_mem_cons, List.not_mem_nil, false_imp_iff, implies_true, and_true]
  exact ⟨sound_as inverse_cvt, sound_as inverse_qnt, sound_as inverse_qnt, sound_as inverse_qnt, sound_as inverse_qnt,
    sound_as inverse_qnt, sound_as inverse_dqnt, sound_as inverse_sacc, sound_as inverse_saccV⟩

theorem sound_opcLane : ∀ e ∈ opcLane, Sound e.1 e.2 := by
  simp only [opcLane, List.forall_mem_cons, List.not_mem_nil, false_imp_iff, implies_true, and_true]
  exact ⟨sound_as inverse_shfl, sound_as inverse_ballot, sound_as inverse_vote, sound_as inverse_bcast, sound_as inverse_red,
    sound_as inverse_red, sound_as inverse_cmpst, sound_as inverse_expld⟩

theorem sound_opcLocal : ∀ e ∈ opcLocal, Sound e.1 e.2 := by
  simp only [opcLocal, List.forall_mem_cons, List.not_mem_nil, false_imp_iff, implies_true, and_true]
  exact ⟨sound_as inverse_ld, sound_as inverse_st, sound_as inverse_ldk, sound_as inverse_stk, sound_as inverse_atom,
    sound_as inverse_atom, sound_as inverse_atom, sound_as inverse_atom, sound_as inverse_atom, sound_as inverse_atom,
    sound_as inverse_atom, sound_as inverse_atom, sound_as inverse_fence⟩

theorem sound_opcCap : ∀ e ∈ opcCap, Sound e.1 e.2 := by
  simp only [opcCap, List.forall_mem_cons, List.not_mem_nil, false_imp_iff, implies_true, and_true]
  exact ⟨sound_as inverse_csub, sound_as inverse_capV, sound_as inverse_cseal, sound_as inverse_cunseal, sound_as inverse_capV,
    sound_as inverse_ctest, sound_as inverse_cget, sound_as inverse_cdeleg, sound_as inverse_cnull⟩

theorem sound_opcEngine : ∀ e ∈ opcEngine, Sound e.1 e.2 := by
  simp only [opcEngine, List.forall_mem_cons, List.not_mem_nil, false_imp_iff, implies_true, and_true]
  exact ⟨sound_cpy, sound_as inverse_gs, sound_as inverse_gs, sound_as inverse_mma, sound_as inverse_mma, sound_as inverse_mma,
    sound_as inverse_mma, sound_as inverse_mma, sound_as inverse_mma, sound_as inverse_mmac, sound_as inverse_mmac, sound_as inverse_mmac,
    sound_as inverse_mmac, sound_as inverse_mmac, sound_as inverse_mmac, sound_as inverse_aclr, sound_as inverse_ald, sound_as inverse_ast,
    sound_as inverse_clx, sound_as inverse_nmc, sound_as inverse_gatm, sound_as inverse_sig, sound_as inverse_wsig, sound_as inverse_waitc,
    sound_as inverse_revoke, sound_as inverse_stage, sound_as inverse_wb⟩

theorem sound_opcControl : ∀ e ∈ opcControl, Sound e.1 e.2 := by
  simp only [opcControl, List.forall_mem_cons, List.not_mem_nil, false_imp_iff, implies_true, and_true]
  exact ⟨sound_as inverse_bra, sound_as inverse_br, sound_as inverse_brx, sound_as inverse_br, sound_as inverse_brx,
    sound_as inverse_ctlOnly, sound_as inverse_region, sound_as inverse_ctlOnly, sound_as inverse_ctlOnly, sound_as inverse_spawn,
    sound_as inverse_ctlOnly, sound_as inverse_bar, sound_as inverse_grow, sound_as inverse_grow, sound_as inverse_launch,
    sound_as inverse_qpush, sound_as inverse_qpop, sound_as inverse_qslots, sound_as inverse_ctlOnly, sound_as inverse_trap,
    sound_as inverse_sysrd, sound_as inverse_syswr⟩

theorem sound_opcodeMap : ∀ e ∈ opcodeMap, Sound e.1 e.2 := by
  simp only [opcodeMap, List.forall_mem_append]
  exact ⟨⟨⟨⟨⟨⟨⟨sound_opcInt, sound_opcFloat⟩, sound_opcConv⟩, sound_opcLane⟩, sound_opcLocal⟩, sound_opcCap⟩, sound_opcEngine⟩,
    sound_opcControl⟩

/-! ## Every instruction word -/

/-- The registers of a capability form are of the class that its form gives them (R228). -/
theorem capForm_eq_nil {uf ua ub : Bool} {ks aKs bKs : List (BitVec 6)} {xs : List VSrc} (h : Sys2Proof.capForm uf ua ub ks aKs bKs xs = []) :
    (uf = true → (∀ n ∈ ks, n.toNat < 16) ∧ ∀ x ∈ xs, x.uni = true) ∧ (ua = true → ∀ n ∈ aKs, n.toNat < 16) ∧
    (ub = true → ∀ n ∈ bKs, n.toNat < 16) := by
  simp [Sys2Proof.capForm] at h
  grind

theorem csub_classes {o : CsubOp} (h : o.viol = []) : (o.uf = true → o.d.toNat < 16) ∧ ((o.uf || o.ua) = true → o.a.toNat < 16) ∧
    (o.uf = true → o.off.uni = true) ∧ (o.uf = true → o.len.uni = true) := by
  simp only [CsubOp.viol, List.append_eq_nil_iff] at h
  have hc := capForm_eq_nil h.1.2
  simp at hc ⊢
  grind

theorem capV_classes {o : CapVOp} (h : o.viol = []) : (o.uf = true → o.d.toNat < 16) ∧ ((o.uf || o.ua) = true → o.a.toNat < 16) ∧
    (o.uf = true → o.x.uni = true) := by
  simp only [CapVOp.viol, List.append_eq_nil_iff] at h
  have hc := capForm_eq_nil h.2
  simp at hc ⊢
  grind

theorem cseal_classes {o : CsealOp} (h : o.viol = []) : (o.uf = true → o.d.toNat < 16) ∧ ((o.uf || o.ua) = true → o.a.toNat < 16) ∧
    ((o.uf || o.ub) = true → o.s.toNat < 16) ∧ (o.uf = true → o.t.uni = true) := by
  simp only [CsealOp.viol, List.append_eq_nil_iff] at h
  have hc := capForm_eq_nil h.2
  simp at hc ⊢
  grind

theorem cunseal_classes {o : CunsealOp} (h : o.viol = []) : (o.uf = true → o.d.toNat < 16) ∧ ((o.uf || o.ua) = true → o.a.toNat < 16) ∧
    ((o.uf || o.ub) = true → o.s.toNat < 16) := by
  simp only [CunsealOp.viol, List.append_eq_nil_iff] at h
  have hc := capForm_eq_nil h.2
  simp at hc ⊢
  grind

theorem ctest_classes {o : CtestOp} (h : o.viol = []) : (o.uf || o.ua) = true → o.a.toNat < 16 := by
  simp only [CtestOp.viol, List.append_eq_nil_iff] at h
  have hc := capForm_eq_nil h.1.2
  simp at hc ⊢
  grind

theorem cnull_classes {o : CnullOp} (h : o.viol = []) : o.uf = true → o.d.toNat < 16 := by
  simp only [CnullOp.viol, List.append_eq_nil_iff] at h
  have hc := capForm_eq_nil h.2
  simp at hc ⊢
  grind

theorem cdeleg_classes {o : CdelegOp} (h : o.viol = []) : (o.uf = true → o.d.toNat < 16) ∧ ((o.uf || o.ua) = true → o.kb.toNat < 16) ∧
    (o.uf = true → o.ksrc.toNat < 16) ∧
    (o.uf = true → o.kdst.toNat < 16) := by
  simp only [CdelegOp.viol, List.append_eq_nil_iff] at h
  have hc := capForm_eq_nil h.1.2
  simp at hc ⊢
  grind

theorem brx_classes {o : BrxOp} (h : o.viol = []) : (o.uf = true → o.k.toNat < 16) ∧ (o.uf = true → o.o.uni = true) := by
  simp only [BrxOp.viol, List.append_eq_nil_iff] at h
  have hc := capForm_eq_nil h.2
  simp at hc ⊢
  grind

theorem cget_classes {o : CgetOp} (h : o.viol = []) : (o.d.isUni || o.ua) = true → o.a.toNat < 16 := by
  obtain ⟨c, ua, d, a, field⟩ := o
  cases d <;> simp only [CgetOp.viol, List.append_eq_nil_iff] at h <;> have hc := capForm_eq_nil h.2.1 <;> simp at hc <;>
    simp [CgetDst.isUni] <;> grind

theorem ldk_classes {o : LdkOp} (h : o.viol = []) : o.ud = true → o.d.toNat < 16 := by
  intro hu
  simp only [LdkOp.viol, List.append_eq_nil_iff, hu, if_true, ksClass, viol_eq_nil] at h
  simpa using h.2

theorem stk_classes {o : StkOp} (h : o.viol = []) : o.us = true → o.a.toNat < 16 := by
  intro hu
  simp only [StkOp.viol, List.append_eq_nil_iff, hu, if_true, ksClass, viol_eq_nil] at h
  simpa using h.2

theorem complete_of_isWord {i : Instr} (hw : i.isWord = true) (hl : ∀ o, i ≠ .lnest o) (hr : ∀ o, i ≠ .repOp o) (hv : i.violations = []) :
    Complete i := by
  cases i with
  | lnest o => exact absurd rfl (hl o)
  | repOp o => exact absurd rfl (hr o)
  | cpy o => exact ⟨0x180, decCpy, _, _, rfl, rfl, rfl, rfl, fun lit hlit => decCpy_direct o lit hlit⟩
  | cpyCmd o => exact ⟨0x180, decCpy, _, _, rfl, rfl, rfl, rfl, fun lit hlit => decCpy_cmd o lit hlit⟩
  | iadd o | iadd64 o | isub o | isub64 o | imul o | imul64 o | imulh o | imulh64 o | idiv o | idiv64 o | irem o | irem64 o
  | imin o | imin64 o | imax o | imax64 o | andOp o | andOp64 o | orOp o | orOp64 o | xorOp o | xorOp64 o | andn o | andn64 o
  | shl o | shl64 o | shr o | shr64 o | sar o | sar64 o | rol o | rol64 o => exact complete_as inverse_iBin trivial
  | imad o | imad64 o => exact complete_as inverse_iMad trivial
  | iabs o | iabs64 o | ineg o | ineg64 o | notOp o | notOp64 o | popc o | popc64 o | clz o | clz64 o | ctz o | ctz64 o | brev o
  | brev64 o | movOp o | movOp64 o => exact complete_as inverse_iUn trivial
  | bfx o | bfx64 o | bfi o | bfi64 o => exact complete_as inverse_iBf trivial
  | selOp o | selOp64 o => exact complete_as inverse_iSel trivial
  | icmp o | icmp64 o => exact complete_as inverse_iCmp trivial
  | movi o | movi64 o => exact complete_as inverse_iMovi trivial
  | fadd o | fsub o | fmul o | fmin o | fmax o | fscale o => exact complete_as inverse_fBin trivial
  | ffma o => exact complete_as inverse_fTri trivial
  | fcmp o => exact complete_as inverse_fCmp trivial
  | fclass o | ffloor o | fceil o | ftrunc o | frint o | frcp o | frsq o | fsqrt o | fex2 o | flg2 o | fsin o | fcos o | ftanh o => exact complete_as inverse_fUn trivial
  | hadd2 o | hmul2 o => exact complete_as inverse_hBin trivial
  | hfma2 o => exact complete_as inverse_hTri trivial
  | cvt o => exact complete_as inverse_cvt trivial
  | qntE4m3 o | qntE5m2 o | qntE2m1 o | qntI8 o | qntT2 o => exact complete_as inverse_qnt trivial
  | dqnt o => exact complete_as inverse_dqnt trivial
  | sacc o => exact complete_as inverse_sacc trivial
  | saccV o => exact complete_as inverse_saccV trivial
  | shfl o => exact complete_as inverse_shfl trivial
  | ballot o => exact complete_as inverse_ballot trivial
  | vote o => exact complete_as inverse_vote trivial
  | bcast o => exact complete_as inverse_bcast trivial
  | red o | scan o => exact complete_as inverse_red trivial
  | cmpst o => exact complete_as inverse_cmpst trivial
  | expld o => exact complete_as inverse_expld trivial
  | ld o => exact complete_as inverse_ld trivial
  | st o => exact complete_as inverse_st trivial
  | ldk o => exact complete_as inverse_ldk (ldk_classes hv)
  | stk o => exact complete_as inverse_stk (stk_classes hv)
  | aadd o | amin o | amax o | aand o | aor o | axor o | axch o | acas o => exact complete_as inverse_atom trivial
  | fenceOp o => exact complete_as inverse_fence trivial
  | csub o => exact complete_as inverse_csub (csub_classes hv)
  | cperm o | cbale o => exact complete_as inverse_capV (capV_classes hv)
  | cseal o => exact complete_as inverse_cseal (cseal_classes hv)
  | cunseal o => exact complete_as inverse_cunseal (cunseal_classes hv)
  | ctest o => exact complete_as inverse_ctest (ctest_classes hv)
  | cget o => exact complete_as inverse_cget (cget_classes hv)
  | cdeleg o => exact complete_as inverse_cdeleg (cdeleg_classes hv)
  | cnull o => exact complete_as inverse_cnull (cnull_classes hv)
  | gat o | sct o => exact complete_as inverse_gs trivial
  | mmaE4m3 o | mmaE5m2 o | mmaE2m1 o | mmaBf16 o | mmaI8 o | mmaT8 o => exact complete_as inverse_mma trivial
  | mmacE4m3 o | mmacE5m2 o | mmacE2m1 o | mmacBf16 o | mmacI8 o | mmacT8 o => exact complete_as inverse_mmac trivial
  | aclr o => exact complete_as inverse_aclr trivial
  | ald o => exact complete_as inverse_ald trivial
  | ast o => exact complete_as inverse_ast trivial
  | clx o => exact complete_as inverse_clx trivial
  | nmc o => exact complete_as inverse_nmc trivial
  | gatm o => exact complete_as inverse_gatm trivial
  | sig o => exact complete_as inverse_sig trivial
  | wsig o => exact complete_as inverse_wsig trivial
  | waitc o => exact complete_as inverse_waitc trivial
  | revoke o => exact complete_as inverse_revoke trivial
  | stage o => exact complete_as inverse_stage trivial
  | wb o => exact complete_as inverse_wb trivial
  | bra o => exact complete_as inverse_bra trivial
  | brc o | callOp o => exact complete_as inverse_br trivial
  | brx o | calli o => exact complete_as inverse_brx (brx_classes hv)
  | ret o | yieldOp o | fuse o | endOp o | nopOp o => exact complete_as inverse_ctlOnly trivial
  | regionOp o => exact complete_as inverse_region trivial
  | spawn o => exact complete_as inverse_spawn trivial
  | bar o => exact complete_as inverse_bar trivial
  | grow o | shrink o => exact complete_as inverse_grow trivial
  | launchOp o => exact complete_as inverse_launch trivial
  | qpush o => exact complete_as inverse_qpush trivial
  | qpop o => exact complete_as inverse_qpop trivial
  | qslots o => exact complete_as inverse_qslots trivial
  | trapOp o => exact complete_as inverse_trap trivial
  | sysrd o => exact complete_as inverse_sysrd trivial
  | syswr o => exact complete_as inverse_syswr trivial
  | _ => exact Bool.noConfusion hw

/-! ## The repeat word and the loop nest (R158–R162) -/

/-- A binding-time field decodes and encodes back. -/
theorem bt_enc (t : BT) : btCodes.lookup (BitVec.ofNat 2 (toCode btCodes t)).toNat = some t := by cases t <;> rfl
theorem enc_bt : ∀ {c : BitVec 2}, (btCodes.lookup c.toNat).isNone = false →
    BitVec.ofNat 2 (toCode btCodes ((btCodes.lookup c.toNat).getD .dyn)) = c := by decide

theorem decRep_enc (o : RepOp) : decRep o.enc = ⟨[], o⟩ := by
  simp (disch := decide) only [decRep, RepOp.enc, append_bits, Nat.reduceSub, BitVec.extractLsb'_eq_self, bt_enc]
  rfl

theorem enc_decRep {w : DWord} (h : (decRep w).bad = []) (ho : w.extractLsb' 54 10 = 0x1D3#10) : (decRep w).val.enc = w := by
  simp only [decRep, List.append_eq_nil_iff, viol_eq_nil, Bool.or_eq_false_iff, bne_eq_false_iff_eq] at h
  obtain ⟨ht, ⟨hg, h7⟩, h15⟩ := h
  have hg : w.extractLsb' 48 4 = 0#4 := hg
  have h7 : w.extractLsb' 35 7 = 0#7 := h7
  have h15 : w.extractLsb' 0 15 = 0#15 := h15
  simp (disch := decide) only [decRep, RepOp.enc, enc_bt ht, ← ho, ← hg, ← h7, ← h15, glue]
  simp

end Sys2Proof.Machine

/-! SUPPORT. The encodings: lnest, and whole words (R149, R161–R163). -/

namespace Sys2Proof.Machine

/-- The level that stands at a place of the field X of a nest. -/
theorem lnLevel_encX (o : LnestOp) : ∀ l < 5, lnLevel o.encX l = o.level l := by
  intro l hl
  have hc : l = 0 ∨ l = 1 ∨ l = 2 ∨ l = 3 ∨ l = 4 := by omega
  simp only [lnLevel]
  rcases hc with rfl | rfl | rfl | rfl | rfl <;> simp only [Nat.reduceMul, Nat.reduceAdd] <;>
    simp (disch := decide) only [LnestOp.encX, append_bits, Nat.reduceSub, BitVec.extractLsb'_eq_self]

theorem encX_top (o : LnestOp) : o.encX.extractLsb' 190 2 = 0#2 := by
  simp (disch := decide) only [LnestOp.encX, append_bits, Nat.reduceSub, BitVec.extractLsb'_eq_self]

theorem lnX_extract (x : BitVec 192) : lnX (x.extractLsb' 0 64) (x.extractLsb' 64 64) (x.extractLsb' 128 64) = x := by
  simp (disch := decide) only [lnX, glue]
  simp

/-- A nest's levels, of its field X. -/
theorem levels_encX (o : LnestOp) (h : o.levels.length ≤ 5) : (List.range o.levels.length).map (lnLevel o.encX) = o.levels := by
  refine List.ext_getElem (by simp) fun l hl _ => ?_
  have hl' : l < o.levels.length := by simpa using hl
  rw [List.getElem_map, List.getElem_range, lnLevel_encX o l (by omega)]
  simp [LnestOp.level, hl']

theorem decLnest_enc {o : LnestOp} (h : o.viol = []) :
    ∃ w w1 w2 w3, o.enc = [w, w1, w2, w3] ∧ w.extractLsb' 54 10 = 0x1D2#10 ∧ decLnest w w1 w2 w3 = ⟨[], o⟩ := by
  simp only [LnestOp.viol, viol_eq_nil, Bool.or_eq_false_iff, decide_eq_false_iff_not] at h
  obtain ⟨⟨⟨he, hn⟩, -⟩, -⟩ := h
  have hn : o.levels.length ≤ 5 := by omega
  have h0 : o.levels.length ≠ 0 := by simpa [List.isEmpty_iff] using he
  have hlen : (BitVec.ofNat 3 o.levels.length).toNat = o.levels.length := by
    rw [BitVec.toNat_ofNat]; exact Nat.mod_eq_of_lt (by omega)
  have hrest : (List.range 5).any (fun l => decide (l ≥ o.levels.length) && (lnLevel o.encX l != ⟨0, 0, 0, 0⟩)) = false := by
    rw [List.any_eq_false]
    intro l hl
    rw [List.mem_range] at hl
    rw [lnLevel_encX o l hl]
    by_cases hx : o.levels.length ≤ l <;> simp [LnestOp.level, hx]
  refine ⟨_, _, _, _, rfl, ?_, ?_⟩
  · simp (disch := decide) only [append_bits, Nat.reduceSub, BitVec.extractLsb'_eq_self]
  · have hfn := codes_lnFn.ofBits_toCode o.fn .copy
    have hty := codes_lnTy.ofBits_toCode o.ty .f32
    rw [ofBits] at hfn hty
    simp (disch := decide) only [decLnest, append_bits, Nat.reduceSub, BitVec.extractLsb'_eq_self, lnX_extract, bt_enc, hlen, hfn, hty,
      hrest, encX_top, levels_encX o hn]
    simp [h0, hn]

theorem enc_decLnest {w w1 w2 w3 : DWord} (h : (decLnest w w1 w2 w3).bad = []) (ho : w.extractLsb' 54 10 = 0x1D2#10) :
    (decLnest w w1 w2 w3).val.enc = [w, w1, w2, w3] := by
  simp only [decLnest, List.append_eq_nil_iff, viol_eq_nil, Bool.or_eq_false_iff, bne_eq_false_iff_eq, decide_eq_false_iff_not] at h
  obtain ⟨⟨⟨⟨⟨ht, -⟩, hg⟩, hfn⟩, hty⟩, ⟨⟨⟨⟨h47, h0⟩, -⟩, hn⟩, hrest⟩, htop⟩ := h
  have hlev : ∀ l < 5, LnestOp.level (decLnest w w1 w2 w3).val l = lnLevel (lnX w1 w2 w3) l := by
    intro l hl
    have hr : (w.extractLsb' 34 3).toNat ≤ l → lnLevel (lnX w1 w2 w3) l = ⟨0, 0, 0, 0⟩ := by
      rw [List.any_eq_false] at hrest
      simpa using hrest l (List.mem_range.2 hl)
    by_cases hx : (w.extractLsb' 34 3).toNat ≤ l
    · simp [-BitVec.extractLsb'_toNat, LnestOp.level, decLnest, hx, hr hx]
    · simp [-BitVec.extractLsb'_toNat, LnestOp.level, decLnest, Nat.lt_of_not_le hx]
  have hX : LnestOp.encX (decLnest w w1 w2 w3).val = lnX w1 w2 w3 := by
    have htop : (lnX w1 w2 w3).extractLsb' 190 2 = 0#2 := htop
    simp (disch := decide) only [LnestOp.encX, hlev, lnLevel, ← htop, glue]
    simp
  have hg : w.extractLsb' 48 4 = 0#4 := hg
  have h47 : w.extractLsb' 47 1 = 0#1 := h47
  have h0 : w.extractLsb' 0 4 = 0#4 := h0
  have h5 : 0#5 = w.extractLsb' 47 5 := by
    have := glue w 47 48 4 1 rfl
    rw [hg, h47] at this
    exact this
  have hfn : BitVec.ofNat 6 (toCode lnFnCodes (decLnest w w1 w2 w3).val.fn) = w.extractLsb' 41 6 := codes_lnFn.toCode_ofBits hfn
  have hty : BitVec.ofNat 4 (toCode lnTyCodes (decLnest w w1 w2 w3).val.ty) = w.extractLsb' 37 4 := codes_lnTy.toCode_ofBits hty
  have ht : BitVec.ofNat 2 (toCode btCodes (decLnest w w1 w2 w3).val.bt) = w.extractLsb' 52 2 := enc_bt ht
  have hn : BitVec.ofNat 3 (decLnest w w1 w2 w3).val.levels.length = w.extractLsb' 34 3 := by
    simp [-BitVec.extractLsb'_toNat, decLnest]
  rw [LnestOp.enc, hX, hfn, hty, ht, hn]
  simp (disch := decide) only [decLnest, lnX, append_bits, ← ho, h5, ← h0, glue, Nat.reduceSub, BitVec.extractLsb'_eq_self]

/-! ## Whole words -/

theorem lowest_eq_none {l : List Nat} : lowest l = none ↔ l = [] := by cases l <;> simp [lowest]

/-- The decoder answers an instruction where no sub-cause is met. -/
theorem decode_eq_ok {w : DWord} {rest : List DWord} {i : Instr} {n : Nat} :
    decode w rest = .ok i n ↔ (decodeAll w rest).1.bad = [] ∧ (decodeAll w rest).1.val = i ∧ (decodeAll w rest).2 = n := by
  simp only [decode]
  cases h : lowest (decodeAll w rest).1.bad with
  | none => simp [lowest_eq_none.1 h]
  | some k =>
    have : (decodeAll w rest).1.bad ≠ [] := fun e => by simp [e, lowest] at h
    simp [this]

@[simp] theorem toWord_ofWord (w : DWord) : (Fields.ofWord w).toWord = w := by
  simp (disch := decide) only [Fields.toWord, Fields.ofWord, glue]
  simp

@[simp] theorem ofWord_toWord (f : Fields) : Fields.ofWord f.toWord = f := by
  simp (disch := decide) only [Fields.toWord, Fields.ofWord, append_bits, Nat.reduceSub, BitVec.extractLsb'_eq_self]

theorem encode_of_fields {i : Instr} {f : Fields} {c : Ctl} (hf : i.fields = some f) (hc : i.ctl = some c) :
    encode i = if i.usesLit then [f.toWord, c.lit] else [f.toWord] := by
  unfold encode
  split
  case h_1 | h_2 | h_3 => cases hf
  case h_4 => rw [hf, hc]

/-- The word of an instruction of the opcode map, decoded with the words after it. -/
theorem decodeAll_of_complete {i : Instr} (h : Complete i) (hv : i.violations = []) (hl : i.litOk = true) (rest : List DWord) :
    ∃ w ws, encode i = w :: ws ∧ decodeAll w (ws ++ rest) = (⟨[], i⟩, ws.length + 1) := by
  obtain ⟨n, d, f, c, hd, hf, hn, hc, hdec⟩ := h
  have hlit : (i.usesLit || c.lit == 0) = true := by simpa only [Instr.litOk, hc] using hl
  have hopc : (f.toWord.extractLsb' 54 10).toNat = n := by
    have := congrArg Fields.opc (ofWord_toWord f)
    rw [← hn, ← this]; rfl
  have hne : n ≠ 0x1D3 ∧ n ≠ 0x1D2 := by
    constructor <;> rintro rfl <;> cases hd
  have key : ∀ ws, c.lit = (if i.usesLit then ws.getD 0 0 else 0) →
      decodeAll f.toWord ws = (⟨[], i⟩, if i.usesLit then 2 else 1) := by
    intro ws hws
    simp only [decodeAll, hopc, hne, if_false, decodeOrdinary, ofWord_toWord, hn, hd, Option.map_some, hdec _ hws, hv, List.append_nil]
  rw [encode_of_fields hf hc]
  cases hu : i.usesLit with
  | true => exact ⟨_, [c.lit], rfl, by simpa [hu] using key (c.lit :: rest) (by simp [hu])⟩
  | false => exact ⟨_, [], rfl, by simpa [hu] using key rest (by simpa [hu] using hlit)⟩

/-- Settles O28: every shape's fields decode to what was encoded, and the opcode map has each instruction's opcode. -/
theorem decodeOfEncode : Obligations.DecodeOfEncode := by
  intro i rest hw ⟨hv, hl⟩
  have key : ∃ w ws, encode i = w :: ws ∧ decodeAll w (ws ++ rest) = (⟨[], i⟩, ws.length + 1) := by
    by_cases hn : ∃ o, i = .lnest o
    · obtain ⟨o, rfl⟩ := hn
      have hv : o.viol = [] := hv
      obtain ⟨w, w1, w2, w3, he, ho, hd⟩ := decLnest_enc hv
      exact ⟨w, [w1, w2, w3], he, by simp [decodeAll, ho, hd, hv]⟩
    by_cases hr : ∃ o, i = .repOp o
    · obtain ⟨o, rfl⟩ := hr
      have ho : o.enc.extractLsb' 54 10 = 0x1D3#10 := by
        simp (disch := decide) only [RepOp.enc, append_bits, Nat.reduceSub, BitVec.extractLsb'_eq_self]
      exact ⟨o.enc, [], rfl, by simp [decodeAll, ho, decRep_enc]⟩
    have hc := complete_of_isWord hw (fun o h => hn ⟨o, h⟩) (fun o h => hr ⟨o, h⟩) hv
    exact decodeAll_of_complete hc hv hl rest
  obtain ⟨w, ws, he, hd⟩ := key
  exact ⟨w, ws, he, decode_eq_ok.2 ⟨by rw [hd], by rw [hd], by rw [hd]⟩⟩

/-- What a word of the opcode map decodes to encodes to it. -/
theorem encodes_of_decodeOrdinary {w lit : DWord} {x : Dec Instr} (h : decodeOrdinary w lit = some x) (hb : x.bad = []) :
    Encodes (Fields.ofWord w) lit x.val ∧ x.val.violations = [] := by
  simp only [decodeOrdinary, Option.map_eq_some_iff] at h
  obtain ⟨d, hd, rfl⟩ := h
  obtain ⟨hb, hv⟩ := List.append_eq_nil_iff.1 hb
  exact ⟨sound_opcodeMap _ (mem_of_lookup hd) _ lit rfl hb, hv⟩

theorem take_one {l : List DWord} (h : 1 ≤ l.length) : l.take 1 = [l.getD 0 0] := by
  match l, h with
  | _ :: _, _ => rfl

theorem take_three {l : List DWord} (h : 3 ≤ l.length) : l.take 3 = [l.getD 0 0, l.getD 1 0, l.getD 2 0] := by
  match l, h with
  | _ :: _ :: _ :: _, _ => rfl

theorem encode_of_decLnest {w : DWord} {rest : List DWord} (h : (decLnest w (rest.getD 0 0) (rest.getD 1 0) (rest.getD 2 0)).bad = [])
    (ho : w.extractLsb' 54 10 = 0x1D2#10) (hlen : 3 ≤ rest.length) :
    encode (.lnest (decLnest w (rest.getD 0 0) (rest.getD 1 0) (rest.getD 2 0)).val) = w :: rest.take 3 := by
  rw [take_three hlen]
  exact enc_decLnest h ho

/-- The instruction that a word and the words after it decode to: well formed, and its encoding is those words. -/
theorem encode_of_decodeAll {w : DWord} {rest : List DWord} (h : (decodeAll w rest).1.bad = []) :
    WellFormed (decodeAll w rest).1.val ∧ 1 ≤ (decodeAll w rest).2 ∧ (decodeAll w rest).2 ≤ 4 ∧
    ((decodeAll w rest).2 - 1 ≤ rest.length → encode (decodeAll w rest).1.val = w :: rest.take ((decodeAll w rest).2 - 1)) := by
  by_cases hr : (w.extractLsb' 54 10).toNat = 0x1D3
  · have ho : w.extractLsb' 54 10 = 0x1D3#10 := BitVec.eq_of_toNat_eq hr
    have hd : decodeAll w rest = (⟨(decRep w).bad, .repOp (decRep w).val⟩, 1) := if_pos hr
    rw [hd] at h ⊢
    exact ⟨⟨rfl, rfl⟩, Nat.le_refl 1, by simp, fun _ => by simp [encode, enc_decRep h ho]⟩
  by_cases hl : (w.extractLsb' 54 10).toNat = 0x1D2
  · have ho : w.extractLsb' 54 10 = 0x1D2#10 := BitVec.eq_of_toNat_eq hl
    rw [show decodeAll w rest = _ from (if_neg hr).trans (if_pos hl)] at h ⊢
    obtain ⟨hb, hv⟩ := List.append_eq_nil_iff.1 h
    exact ⟨⟨hv, rfl⟩, by simp, by simp, fun hlen => encode_of_decLnest hb ho hlen⟩
  have hd : decodeAll w rest = match decodeOrdinary w (rest.getD 0 0) with
      | some x => (x, if x.val.usesLit then 2 else 1)
      | none => (⟨[], .unassignedOpcodeIssue w⟩, 1) := (if_neg hr).trans (if_neg hl)
  cases hx : decodeOrdinary w (rest.getD 0 0) with
  | none =>
    rw [hd, hx]
    exact ⟨⟨rfl, rfl⟩, by simp, by simp, fun _ => rfl⟩
  | some x =>
    rw [hd, hx] at h ⊢
    obtain ⟨⟨hf, c, hc, hlit⟩, hv⟩ := encodes_of_decodeOrdinary hx h
    have he : encode x.val = if x.val.usesLit then [w, c.lit] else [w] := by rw [encode_of_fields hf hc, toWord_ofWord]
    cases hu : x.val.usesLit with
    | true =>
      refine ⟨⟨hv, by simp [Instr.litOk, hc, hu]⟩, by simp [hu], by simp [hu], fun hlen => ?_⟩
      simp only [hu, if_true] at hlen hlit he ⊢
      rw [take_one hlen, he, hlit]
    | false => exact ⟨⟨hv, by simp [Instr.litOk, hc, hu, hlit]⟩, by simp [hu], by simp [hu], fun _ => by simpa [hu] using he⟩

/-- Settles O29: every shape's decoder answers what encodes to the fields it read. -/
theorem encodeOfDecode : Obligations.EncodeOfDecode := by
  refine ⟨fun w rest i n h hlen => ?_, fun w rest i n h => ?_⟩ <;> obtain ⟨hb, rfl, rfl⟩ := decode_eq_ok.1 h <;>
    obtain ⟨hw, h1, h4, he⟩ := encode_of_decodeAll hb
  · exact he hlen
  · exact ⟨hw, h1, h4⟩

end Sys2Proof.Machine

/-! SUPPORT. The integer group: the two-operand forms and the bits of a field (R183, R185, R187). -/

namespace Sys2Proof.Machine

/-! ## The table of R183 on words -/

section Values
variable {n : Nat}

theorem wrapSat_add (sat u : Bool) (a b : BitVec n) :
    wrapSat n sat u (intOf n u a + intOf n u b) = if sat then satN n u (intOf n u a + intOf n u b) else a + b := by
  simp [wrapSat, BitVec.ofInt_add]

theorem wrapSat_sub (sat u : Bool) (a b : BitVec n) :
    wrapSat n sat u (intOf n u a - intOf n u b) = if sat then satN n u (intOf n u a - intOf n u b) else a - b := by
  simp [wrapSat, Int.sub_eq_add_neg, BitVec.ofInt_add, BitVec.ofInt_neg, BitVec.sub_eq_add_neg]

theorem wrapSat_mul (sat u : Bool) (a b : BitVec n) :
    wrapSat n sat u (intOf n u a * intOf n u b) = if sat then satN n u (intOf n u a * intOf n u b) else a * b := by
  simp [wrapSat, BitVec.ofInt_mul]

/-- The high half of 2N bits of an integer is the low half of its quotient by 2^N. -/
theorem extractLsb'_ofInt (x : Int) : (BitVec.ofInt (n + n) x).extractLsb' n n = BitVec.ofInt n (x / 2 ^ n) := by
  have hp : (0 : Int) < 2 ^ n := by positivity
  have hpp : (0 : Int) < 2 ^ n * 2 ^ n := by positivity
  have key : x % (2 ^ n * 2 ^ n) / 2 ^ n % 2 ^ n = x / 2 ^ n % 2 ^ n := by
    rw [Int.emod_def x, Int.mul_assoc, Int.sub_eq_add_neg, ← Int.mul_neg, Int.add_mul_ediv_left _ _ hp.ne', ← Int.mul_neg,
      Int.add_mul_emod_self_left]
  apply BitVec.eq_of_toNat_eq
  have hn : 0 ≤ x % (2 ^ n * 2 ^ n) := Int.emod_nonneg _ hpp.ne'
  have hm : 0 ≤ x / 2 ^ n % 2 ^ n := Int.emod_nonneg _ hp.ne'
  rw [← Int.ofNat_inj]
  simp [Nat.shiftRight_eq_div_pow, Int.pow_add, hn, hm, key]

/-- R183: imulh, of the operands extended to 2N bits. -/
theorem mulHigh_eq (u : Bool) (a b : BitVec n) : mulHigh n u a b =
    if u then (a.setWidth (n + n) * b.setWidth (n + n)).extractLsb' n n
    else (a.signExtend (n + n) * b.signExtend (n + n)).extractLsb' n n := by
  have hw : ∀ c : BitVec n, c.setWidth (n + n) = BitVec.ofInt (n + n) c.toNat := fun c =>
    BitVec.eq_of_toNat_eq (by simp)
  cases u with
  | true => simp only [mulHigh, intOf, if_true, hw, ← BitVec.ofInt_mul, extractLsb'_ofInt]
  | false =>
    simp only [mulHigh, intOf, Bool.false_eq_true, if_false, BitVec.signExtend, ← BitVec.ofInt_mul, extractLsb'_ofInt]

theorem divN_eq (u : Bool) (a b : BitVec n) :
    divN n u a b = if b = 0 then BitVec.allOnes n else if u then a / b else a.sdiv b := by
  cases u with
  | true =>
    have h : BitVec.ofInt n (Int.tdiv a.toNat b.toNat) = a / b := by
      rw [← Int.ofNat_tdiv, BitVec.ofInt_natCast, ← BitVec.toNat_udiv, BitVec.ofNat_toNat, BitVec.setWidth_eq]
    simp only [divN, intOf, if_true, h]
  | false =>
    have h : BitVec.ofInt n (a.toInt.tdiv b.toInt) = a.sdiv b := BitVec.eq_of_toInt_eq (by simp [BitVec.toInt_sdiv])
    simp [divN, intOf, h]

theorem remN_eq (u : Bool) (a b : BitVec n) : remN n u a b = if b = 0 then a else if u then a % b else a.srem b := by
  cases u with
  | true =>
    have h : BitVec.ofInt n (Int.tmod a.toNat b.toNat) = a % b := by
      rw [← Int.ofNat_tmod, BitVec.ofInt_natCast, ← BitVec.toNat_umod, BitVec.ofNat_toNat, BitVec.setWidth_eq]
    simp only [remN, intOf, if_true, h]
  | false =>
    have h : BitVec.ofInt n (a.toInt.tmod b.toInt) = a.srem b := by rw [← BitVec.toInt_srem, BitVec.ofInt_toInt]
    simp [remN, intOf, h]

theorem minN_eq (u : Bool) (a b : BitVec n) : minN n u a b = if (if u then a.ule b else a.sle b) then a else b := by
  rw [minN, ← decide_intOf_le]
  simp

theorem maxN_eq (u : Bool) (a b : BitVec n) : maxN n u a b = if (if u then a.ule b else a.sle b) then b else a := by
  rw [maxN, ← decide_intOf_le]
  simp

end Values

/-! ## The shape of a two-operand form -/

section Shapes
variable {s : State} {i : Nat} {v : Convoy} {o : IBin}

theorem intBin32_of_goes {wb : Bool} (h : s.goes i v o.c (vregs o.a false ++ bregs o.b false ++ dregs o.d false)
    (vlatches o.a ++ blatches o.b)) {f : (n : Nat) → BitVec n → BitVec n → BitVec n} {g : Word → Word → Word}
    (hf : ∀ a b, f 32 a b = g a b) :
    let ls := lits o.c.lit o.a.isLit o.b.isLit false
    intBin s o false wb (atN false f) = .next (s.retire i false o.d (wordsOf o.lits) ((s.active v o.c.g).map fun l =>
      (l, (g (s.src32 v l ls.1 o.a) ((s.bsrc v l false ls.2.1 o.b).setWidth 32)).setWidth 64, 0))) := by
  simp only [intBin, Bool.false_and, compute_of_goes h, atN, hf, State.src32, Bool.false_eq_true, if_false]

theorem intBin64_of_goes {wb : Bool} (h : s.goes i v o.c (vregs o.a true ++ bregs o.b wb ++ dregs o.d true)
    (vlatches o.a ++ blatches o.b)) (f : DWord → DWord → DWord) :
    let ls := lits o.c.lit o.a.isLit o.b.isLit false
    intBin s o true wb f = .next (s.retire i true o.d (wordsOf o.lits) ((s.active v o.c.g).map fun l =>
      (l, f (s.src v l true ls.1 o.a) (s.bsrc v l wb ls.2.1 o.b), 0))) := by
  simp only [intBin, Bool.true_and, compute_of_goes h]

end Shapes

/-- Settles O1: one shape, with the value of each row of the table of R183. -/
theorem intTwoOperand32 : Obligations.IntTwoOperand32 := by
  intro s i v o h ls out
  have bin {wb : Bool} {f : (n : Nat) → BitVec n → BitVec n → BitVec n} {g : Word → Word → Word} (hf : ∀ a b, f 32 a b = g a b) :
      intBin s o false wb (atN false f) = out g := intBin32_of_goes h hf
  clear_value out
  exact ⟨bin (wrapSat_add o.sat o.u), bin (wrapSat_sub o.sat o.u), bin (wrapSat_mul o.sat o.u), bin (mulHigh_eq o.u), bin (divN_eq o.u),
    bin (remN_eq o.u), bin (minN_eq o.u), bin (maxN_eq o.u), bin fun _ _ => rfl, bin fun _ _ => rfl, bin fun _ _ => rfl,
    bin fun _ _ => rfl, bin fun _ _ => rfl, bin fun _ _ => rfl, bin fun _ _ => rfl, bin fun _ _ => rfl⟩

/-- Settles O2: the same shape and table; the amount of a shift is 32 bits wide. -/
theorem intTwoOperand64 : Obligations.IntTwoOperand64 := by
  constructor <;> intro s i v o h ls out
  · have bin {f : DWord → DWord → DWord} {g : DWord → DWord → DWord} (hf : ∀ a b, f a b = g a b) :
        intBin s o true true f = out g := by
      rw [show f = g from funext fun a => funext (hf a)]
      exact intBin64_of_goes h g
    clear_value out
    exact ⟨bin (wrapSat_add o.sat o.u), bin (wrapSat_sub o.sat o.u), bin (wrapSat_mul o.sat o.u), bin (mulHigh_eq o.u),
      bin (divN_eq o.u), bin (remN_eq o.u), bin (minN_eq o.u), bin (maxN_eq o.u), bin fun _ _ => rfl, bin fun _ _ => rfl,
      bin fun _ _ => rfl, bin fun _ _ => rfl⟩
  · have shift (f : DWord → Nat → DWord) : intBin s o true false (fun a b => f a (amount 64 b)) = out f := by
      have hm : ∀ b : DWord, amount 64 b = (b.setWidth 32).toNat % 64 := fun b => by simp [amount]
      simp only [hm]
      exact intBin64_of_goes h _
    clear_value out
    exact ⟨shift (· <<< ·), shift (· >>> ·), shift BitVec.sshiftRight, shift BitVec.rotateLeft⟩

/-! ## Bit fields (R187) -/

theorem getLsbD_fieldMask {w p n k : Nat} (hk : k < w) :
    (BitVec.ofNat w ((2 ^ fieldWidth w p n - 1) * 2 ^ p)).getLsbD k = decide (p ≤ k ∧ k < p + n) := by
  rw [BitVec.getLsbD_ofNat, Nat.testBit_mul_two_pow, Nat.testBit_two_pow_sub_one]
  simp only [hk, fieldWidth]
  grind

/-- Settles O5: the mask of bfi is the field cut at the width; bfx extends the field it cuts. -/
theorem bitFields : Obligations.BitFields := by
  intro w a d u p n k hk
  constructor
  · simp only [fieldPut, BitVec.getLsbD_or, BitVec.getLsbD_and, BitVec.getLsbD_not, getLsbD_fieldMask hk, BitVec.getLsbD_shiftLeft, hk]
    by_cases hf : p ≤ k ∧ k < p + n
    · simp [hf]
    · simp [hf]
  · have hw : fieldWidth w p n = min n (w - p) := by simp only [fieldWidth]; split <;> omega
    rw [fieldGet, hw]
    by_cases h0 : min n (w - p) = 0
    · simp [h0]
    · have hm : (a.extractLsb' p (min n (w - p))).msb = a.getLsbD (p + min n (w - p) - 1) := by
        have hp : 0 < min n (w - p) := by omega
        rw [BitVec.msb_eq_getLsbD_last, BitVec.getLsbD_extractLsb', Nat.add_sub_assoc hp]
        have hl : min n (w - p) - 1 < min n (w - p) := by omega
        rw [decide_eq_true hl, Bool.true_and]
      by_cases hf : k < min n (w - p) <;> cases u <;>
        simp [-BitVec.getLsbD_eq_getElem, h0, hk, hf, BitVec.getLsbD_signExtend, hm, Nat.pos_of_ne_zero h0]

end Sys2Proof.Machine

/-! SUPPORT. The floating-point and conversion groups (R190–R203). -/

namespace Sys2Proof.Machine

theorem half_eq (x : Word) (e : Nat) : half x e = (x.extractLsb' (16 * e) 16).toNat := by
  simp [half, Nat.shiftRight_eq_div_pow]

theorem one_shiftLeft_eq_ofNat (k : Nat) : (1 : Word) <<< k = BitVec.ofNat 32 (2 ^ k) :=
  BitVec.eq_of_toNat_eq (by simp [Nat.shiftLeft_eq])

section Shapes
variable {s : State} {i : Nat} {v : Convoy}

theorem fpBin_of_goes {o : FBin} (h : s.goes i v o.c (vregs o.a false ++ vregs o.b false ++ dregs o.d false) (vlatches o.a ++ vlatches o.b))
    (f : Word → Word → Word × BitVec 8) :
    let ls := lits o.c.lit o.a.isLit o.b.isLit false
    fpBin s o f = .next (s.retire i false o.d (wordsOf o.lits) ((s.active v o.c.g).map fun l =>
      (l, wide (f (s.src32 v l ls.1 o.a) (s.src32 v l ls.2.1 o.b))))) :=
  compute_of_goes h _

theorem fpUn_of_goes {o : FUn} (h : s.goes i v o.c (vregs o.a false ++ dregs o.d false) (vlatches o.a)) (f : Word → Word × BitVec 8) :
    fpUn s o f = .next (s.retire i false o.d (wordsOf o.lits) ((s.active v o.c.g).map fun l =>
      (l, wide (f (s.src32 v l o.c.lit o.a))))) :=
  compute_of_goes h _

theorem fpTri_of_goes {o : FTri} (h : s.goes i v o.c (vregs o.a false ++ vregs o.b false ++ vregs o.e false ++ dregs o.d false)
    (vlatches o.a ++ vlatches o.b ++ vlatches o.e)) (f : Word → Word → Word → Word × BitVec 8) :
    let ls := lits o.c.lit o.a.isLit o.b.isLit o.e.isLit
    fpTri s o f = .next (s.retire i false o.d (wordsOf o.lits) ((s.active v o.c.g).map fun l =>
      (l, wide (f (s.src32 v l ls.1 o.a) (s.src32 v l ls.2.1 o.b) (s.src32 v l ls.2.2 o.e))))) :=
  compute_of_goes h _

theorem fpCmp_of_goes {o : FCmp} (h : s.goes i v o.c (vregs o.a false ++ vregs o.b false) (vlatches o.a ++ vlatches o.b))
    (f : Word → Word → Bool × BitVec 8) :
    let ls := lits o.c.lit o.a.isLit o.b.isLit false
    fpCmp s o f = .next (s.retireP i o.p (wordsOf o.lits) ((s.active v o.c.g).map fun l =>
      (l, f (s.src32 v l ls.1 o.a) (s.src32 v l ls.2.1 o.b)))) :=
  computeP_of_goes h _

theorem hBin_of_goes {o : HBin} (h : s.goes i v o.c (vregs o.a false ++ vregs o.b false ++ dregs o.d false) (vlatches o.a ++ vlatches o.b))
    (g : FV → FV → FV) :
    let ls := lits o.c.lit o.a.isLit o.b.isLit false
    let val (x : Word) (e : Nat) : FV := widen (halfFmt o.f16) ((x.extractLsb' (16 * e) 16).toNat)
    hBin s o g = .next (s.retire i false o.d (wordsOf o.lits) ((s.active v o.c.g).map fun l =>
      (l, wide (packed (halfFmt o.f16) fun e => g (val (s.src32 v l ls.1 o.a) e) (val (s.src32 v l ls.2.1 o.b) e))))) := by
  simp only [hBin, compute_of_goes h, half_eq]

theorem execHfma2_of_goes {o : HTri} (h : s.goes i v o.c (vregs o.a false ++ vregs o.b false ++ vregs o.e false ++ dregs o.d false)
    (vlatches o.a ++ vlatches o.b ++ vlatches o.e)) :
    let ls := lits o.c.lit o.a.isLit o.b.isLit o.e.isLit
    let val (x : Word) (e : Nat) : FV := widen (halfFmt o.f16) ((x.extractLsb' (16 * e) 16).toNat)
    execHfma2 o s = .next (s.retire i false o.d (wordsOf o.lits) ((s.active v o.c.g).map fun l =>
      (l, wide (packed (halfFmt o.f16) fun e => ((val (s.src32 v l ls.1 o.a) e).mul (val (s.src32 v l ls.2.1 o.b) e)).add
        (val (s.src32 v l ls.2.2 o.e) e))))) := by
  simp only [execHfma2, compute_of_goes h, half_eq]

theorem execCvt_of_goes {o : CvtOp} (h : s.goes i v o.c (vregs o.a (cvtSrc64 o.pair) ++ dregs o.d (cvtDst64 o.pair)) (vlatches o.a)) :
    execCvt o s = .next (s.retire i (cvtDst64 o.pair) o.d (wordsOf o.lits) ((s.active v o.c.g).map fun l =>
      (l, cvtVal o.pair o.hi o.rm (s.src v l (cvtSrc64 o.pair) o.c.lit o.a) (s.old v l false o.d)))) :=
  compute_of_goes h _

theorem execDqnt_of_goes {o : DqntOp} (h : s.goes i v o.c (vregs o.a false ++ vregs o.scale false ++ dregs o.d false)
    (vlatches o.a ++ vlatches o.scale)) :
    let ls := lits o.c.lit o.a.isLit o.scale.isLit false
    execDqnt o s = .next (s.retire i false o.d (wordsOf o.lits) ((s.active v o.c.g).map fun l =>
      let e := elemVal o.fmt ((s.src32 v l ls.1 o.a).toNat / 2 ^ (elemBits o.fmt * o.pos.toNat) % 2 ^ elemBits o.fmt)
      let r := rne (e.1.mul (fv (s.src32 v l ls.2.1 o.scale)))
      (l, wide (r.1, r.2 ||| e.2)))) :=
  compute_of_goes h _

theorem quantise_of_goes {o : QntOp} (h : s.goes i v o.c (vregs o.a false ++ vregs o.scale false ++ dregs o.d false)
    (vlatches o.a ++ vlatches o.scale)) (q : QFmt) :
    let ls := lits o.c.lit o.a.isLit o.scale.isLit false
    quantise s o q = .next (s.retire i false o.d (wordsOf o.lits) ((s.active v o.c.g).map fun l =>
      let r := narrowTo q o.rm ((fv (s.src32 v l ls.1 o.a)).mul (fv (s.src32 v l ls.2.1 o.scale)))
      (l, wide (putElem ((s.old v l false o.d).setWidth 32) (elemBits q) o.pos.toNat r.1, r.2)))) :=
  compute_of_goes h _

end Shapes

/-- Settles O6: each shape, with the functions that round the exact value once. -/
theorem floatForms : Obligations.FloatForms := by
  constructor
  · intro s i v o m q ls lm lq out
    refine ⟨fun h => ?_, fun h => ?_, fun h => ?_⟩
    · have bin (f : Word → Word → Word × BitVec 8) : fpBin s o f = out f := fpBin_of_goes h f
      clear_value out
      exact ⟨bin fadd32, bin fsub32, bin fmul32, bin (fminmax false), bin (fminmax true), bin fscale32⟩
    · exact fpTri_of_goes h ffma32
    · exact fpCmp_of_goes h fun a b => fcmpRel q.cc (fv a) (fv b)
  · intro s i v o m ls lm val out
    exact ⟨fun h => ⟨hBin_of_goes h FV.add, hBin_of_goes h FV.mul⟩, fun h => execHfma2_of_goes h⟩

/-- Settles O7: one shape, with the function of each form. -/
theorem floatUnary : Obligations.FloatUnary := by
  intro s i v o h out
  have un (f : Word → Word × BitVec 8) : fpUn s o f = out f := fpUn_of_goes h f
  have hclass : exec (.fclass o) s = fpUn s o fun a => (BitVec.ofNat 32 (2 ^ fclassBit a), 0) := by
    simp only [← one_shiftLeft_eq_ofNat]
    rfl
  clear_value out
  exact ⟨hclass.trans (un _), un _, un _, un _, un _, un _, un _, un _, un _, un _, un _, un _, un _⟩

/-- Settles O8: each form is one computation a lane, with its rounding. -/
theorem conversions : Obligations.Conversions := by
  intro s i v o m q lm lq out
  refine ⟨fun h => execCvt_of_goes h, fun h => ?_, fun h => execDqnt_of_goes h⟩
  have qnt (f : QFmt) : quantise s m f = out f := quantise_of_goes h f
  exact ⟨qnt .e4m3, qnt .e5m2, qnt .e2m1, qnt .i8, qnt .t2⟩

end Sys2Proof.Machine

/-! SUPPORT. The cross-lane group (R206–R214). -/

namespace Sys2Proof.Machine

/-! ## Flags that no lane raises -/

theorem tput_tput {α : Type} (t : Tbl α) (k : Nat) (v w : α) : tput (tput t k v) k w = tput t k w := by
  induction t with
  | nil => simp [tput]
  | cons x r ih =>
    obtain ⟨j, y⟩ := x
    by_cases h : k < j
    · simp [tput, h]
    · by_cases he : k = j
      · simp [tput, he]
      · simp [tput, h, he, ih]

theorem tmod_tmod {α : Type} (t : Tbl α) (k : Nat) (f g : α → α) : tmod (tmod t k f) k g = tmod t k (g ∘ f) := by
  cases h : tget t k <;> simp [tmod, h, tput_tput]

theorem orFlags_zeros {α : Type} (r : List α) : orFlags (r.map fun _ => 0#8) = 0#8 := by
  induction r with
  | nil => rfl
  | cons _ r ih => simpa [orFlags] using ih

theorem advance_setFlags_zero (s : State) (i n : Nat) : (s.setFlags i 0#8).advance i n = s.advance i n := by
  have h : ((fun w => w.past n) ∘ fun w : Convoy => { w with fpstat := w.fpstat ||| 0#8 }) = fun w => w.past n := by
    funext w
    simp
  simp only [State.advance, State.modConvoy, State.setFlags, tmod_tmod, h]

/-- A result without flags goes to its destination alone. -/
theorem retire_noFlags (s : State) (i : Nat) (wd : Bool) (d : VDst) (n : Nat) (act : List Ln) (f : Ln → DWord) :
    s.retire i wd d n (act.map fun l => (l, f l, 0)) = (s.dsts i wd d (act.map fun l => (l, f l))).advance i n := by
  simp only [State.retire, List.map_map, Function.comp_def]
  rw [show orFlags (act.map fun _ => 0) = 0#8 from orFlags_zeros act, advance_setFlags_zero]

/-! ## The forms -/

section Shapes
variable {s : State} {i : Nat} {v : Convoy}

theorem execShfl_of_goes {o : ShflOp} (h : s.goes i v o.c (vregs o.a false ++ vregs o.b false ++ dregs o.d false) (vlatches o.a ++ vlatches o.b))
    (hr : s.rangesHeld (coreOf v.spn) (s.otherRanges v (vregs o.a false)) = false) :
    execShfl o s = .next (s.retire i false o.d (wordsOf o.lits) ((s.active v o.c.g).map fun l => (l, s.shflValue v o l, 0))) := by
  rw [retire_noFlags]
  refine (issue_of_goes h _).trans (congrArg _ ?_)
  simp [State.orHeld, hr]

theorem execVote_of_goes {o : VoteOp} (h : s.goes i v o.c [] []) :
    let act := s.active v o.c.g
    execVote o s = .next ((s.wrQ i o.q (voteTest v.u o.c.lit o.mode act.length (act.filter fun l => l.f.rdP o.p).length)).advance i
      (wordsOf o.lits)) := by
  rw [execVote, issue_of_goes h]

/-- What each group's tree or prefixes deliver, as the results of the lanes. -/
theorem execRed_of_goes {o : RedOp} (h : s.goes i v o.c (vregs o.a false ++ dregs o.d false) (vlatches o.a)) :
    let act := s.active v o.c.g
    let out (f : Nat → List Word × BitVec 8) : Result :=
      .next (s.retire i false o.d (wordsOf o.lits) (act.map fun l => (l, redResult (groupsOf v act f) l)))
    execRed o s = out (fun g =>
      let t := redTree o.fn 6 (s.terms v act o.c.lit o.fn o.a g, 0)
      (List.replicate 64 (t.1.headD ⟨0, true⟩).x, t.2)) ∧
    execScan o s = out (fun g =>
      let t := [1, 2, 4, 8, 16, 32].foldl (fun x d => scanStep o.fn d x) (s.terms v act o.c.lit o.fn o.a g, 0)
      let xs := t.1.map fun x => scanOut o.fn x.x
      (if o.excl then redIdentity o.fn :: xs else xs, t.2)) := by
  rw [execRed, execScan, issue_of_goes h, issue_of_goes h]
  exact ⟨rfl, rfl⟩

theorem execBcast_of_goes {o : BcastOp} (h : s.goes i v o.c (vregs o.a false) (vlatches o.a)) :
    (o.first = true → ∀ l, (s.active v o.c.g).head? = some l →
      execBcast o s = .next ((s.wrS i o.sd.toNat (s.src32 v l o.c.lit o.a)).advance i (wordsOf o.lits))) ∧
    (o.first = true → (s.active v o.c.g).head? = none → execBcast o s = .next (s.advance i (wordsOf o.lits))) ∧
    (o.first = false → s.rangesHeld (coreOf v.spn) (s.otherRanges v (vregs o.a false)) = false → execBcast o s =
      .next ((s.wrS i o.sd.toNat ((s.valueAt v o.c.lit o.a o.pos.toNat).getD 0)).advance i (wordsOf o.lits))) := by
  refine ⟨fun hf l hl => ?_, fun hf hl => ?_, fun hf hr => ?_⟩ <;> rw [execBcast, issue_of_goes h]
  · simp only [hf, if_true, hl]
  · simp only [hf, if_true, hl]
  · simp only [hf, Bool.false_eq_true, if_false, State.orHeld, hr]

theorem execCmpst_of_goes {o : CmpstOp} (h : s.goes i v o.c (vregs o.a false) (vlatches o.a)) :
    let ls := lits o.c.lit o.a.isLit false o.so.isLit
    let k := v.u.rdK o.ks.toNat
    let off := (sval v.u ls.2.2 o.so).toNat + o.off.toNat
    let act := s.active v o.c.g
    let words := act.map fun l => (l.pos, s.src32 v l ls.1 o.a)
    let rs := act.mapIdx fun n _ => (k.lo + off + 4 * n, k.lo + off + 4 * n + 4, true)
    s.rangesHeld (coreOf v.spn) rs = false → s.logRoom (linesOf (k.lo + off) (4 * act.length)) v.spn 0 = true →
    (s.cmpstWords i v k off words 0).2 = true →
    execCmpst o s = .next ((((s.cmpstWords i v k off words 0).1.wrS i o.sd.toNat (BitVec.ofNat 32 act.length)).advance i
      (wordsOf o.lits)).wakeAll rs) := by
  intro ls k off act words rs hheld hroom hall
  rw [execCmpst, issue_of_goes h]
  simp only [words, act, k, off, rs, ls] at hheld hroom hall ⊢
  simp only [hheld, hroom, hall, Bool.not_true, Bool.false_eq_true, if_false, if_true]

theorem execExpld_of_goes {o : ExpldOp} (h : s.goes i v o.c (dregs o.d false) []) :
    let k := v.u.rdK o.ks.toNat
    let off := (sval v.u o.c.lit o.so).toNat + o.off.toNat
    let act := s.active v o.c.g
    act ≠ [] → misaligned (k.lo + off) 4 (s.scratch (coreOf v.spn) (s.colourOf v) k off (4 * act.length) permLd) = none →
    s.rangesHeld (coreOf v.spn) [(k.lo + off, k.lo + off + 4 * act.length, false)] = false →
    execExpld o s = .next (((s.dsts i false o.d (act.mapIdx fun j l =>
      (l, BitVec.ofNat 64 (s.seenNat (some l.id) (k.lo + off + 4 * j) 4)))).advance i (wordsOf o.lits)).wakeAll
        [(k.lo + off, k.lo + off + 4 * act.length, false)]) := by
  intro k off act hne hbad hheld
  have hne : act.isEmpty = false := by simpa using hne
  refine (issue_of_goes h _).trans (congrArg _ ?_)
  simp only [k, off, act] at hne hbad hheld ⊢
  simp only [hne, hbad, hheld, Bool.false_eq_true, if_false]

end Shapes

/-- Settles O9: what each form does once it is issued; shfl and expld raise no flag. -/
theorem crossLane : Obligations.CrossLane := by
  constructor
  · intro s i v o m q b r ls
    refine ⟨fun h hr => execShfl_of_goes h hr, fun h => ?_, fun h => execVote_of_goes h, fun h => execBcast_of_goes h, fun h => execRed_of_goes h⟩
    exact compute_of_goes (regs := []) h fun _ act l => (BitVec.ofNat 64 (ballotMask act m.p m.part l.pos), 0)
  · intro s i v o e ls k off act words rs ke offe acte
    exact ⟨execCmpst_of_goes, execExpld_of_goes⟩

end Sys2Proof.Machine

/-! SUPPORT. Local memory and the waits of a word (R218–R227, R265, R266). -/

namespace Sys2Proof.Machine

section Shapes
variable {s : State} {i : Nat} {v : Convoy}

/-! ## Loads, stores and local atomics -/

theorem execLd_of_goes {o : LdOp} (h : s.goes i v o.c (ldRegs o.d o.sz ++ aregs o.addr) (alatches o.addr)) :
    let n := szBytes o.sz
    let r := (s.active v o.c.g).map fun l => s.laneAcc v (s.colourOf v) o.addr.space l (s.offsetOf v l o.c.lit o.addr n) n permLd
    (∀ x ∈ r, x.bad = none) → s.rangesHeld (coreOf v.spn) (accRanges r n false) = false →
    execLd o s = .next (((r.foldl (fun t x => t.ldInto i x o.sz o.sx o.d) (s.markLatch i o.d)).advance i (wordsOf o.lits)).wakeAll
      (accRanges r n false)) := by
  intro n r hok hheld
  rw [execLd, issue_of_goes h]
  exact congrArg _ (localAccess_of_ok hok hheld (by simp))

theorem execSt_of_goes {o : StOp} (h : s.goes i v o.c (stRegs o.a o.sz ++ aregs o.addr) (vlatches o.a ++ alatches o.addr)) :
    let ls := lits o.c.lit o.a.isLit false o.addr.isLit
    let n := szBytes o.sz
    let r := (s.active v o.c.g).map fun l => s.laneAcc v (s.colourOf v) o.addr.space l (s.offsetOf v l ls.2.2 o.addr n) n permSt
    (∀ x ∈ r, x.bad = none) → s.rangesHeld (coreOf v.spn) (accRanges r n true) = false →
    s.logRoom (r.flatMap fun x => linesOf x.a n) v.spn 0 = true →
    execSt o s = .next (((r.foldl (fun t x => t.storeBy v.spn x.l.id x.a (s.stBytes v x.l ls.1 o.sz o.a)) s).advance i
      (wordsOf o.lits)).wakeAll (accRanges r n true)) := by
  intro ls n r hok hheld hroom
  rw [execSt, issue_of_goes h]
  exact congrArg _ (localAccess_of_ok hok hheld fun _ => hroom)

theorem execLdk_of_goes {o : LdkOp} (h : s.goes i v o.c ((if o.ud then [] else kRegs o.d true) ++ aregs o.addr) (alatches o.addr)) :
    let lanes := if o.ud then (s.active v o.c.g).take 1 else s.active v o.c.g
    let r := lanes.map fun l => s.laneAcc v (s.colourOf v) o.addr.space l (s.offsetOf v l o.c.lit o.addr 16) 16 permLd
    (∀ x ∈ r, x.bad = none) → s.rangesHeld (coreOf v.spn) (accRanges r 16 false) = false →
    execLdk o s = .next (((r.foldl (fun t x =>
      let c := s.ldkCap x.l.id x.k x.a
      if o.ud then t.wrKs i o.d.toNat c else t.wrK x.l.f o.d.toNat c) s).advance i (wordsOf o.lits)).wakeAll (accRanges r 16 false)) := by
  intro lanes r hok hheld
  rw [execLdk, issue_of_goes h]
  exact congrArg _ (localAccess_of_ok hok hheld (by simp))

theorem execStk_of_goes {o : StkOp} (h : s.goes i v o.c ((if o.us then [] else kRegs o.a false) ++ aregs o.addr) (alatches o.addr)) :
    let r := (s.active v o.c.g).map fun l => s.laneAcc v (s.colourOf v) o.addr.space l (s.offsetOf v l o.c.lit o.addr 16) 16 permSt
    (∀ x ∈ r, x.bad = none) → s.rangesHeld (coreOf v.spn) (accRanges r 16 true) = false →
    s.logRoom (r.flatMap fun x => linesOf x.a 16) v.spn 0 = true →
    execStk o s = .next (((r.foldl (fun t x => t.storeCapBy v.spn x.l.id x.a
      (s.stkCap x.k (if o.us then v.u.rdK o.a.toNat else s.rdK x.l.f o.a.toNat))) s).advance i (wordsOf o.lits)).wakeAll
        (accRanges r 16 true)) := by
  intro r hok hheld hroom
  rw [execStk, issue_of_goes h]
  exact congrArg _ (localAccess_of_ok hok hheld fun _ => hroom)

theorem localAtomic_of_goes {o : AtomOp} {fn : AtomFn} (h : s.goesEnd i v o.c (dregs o.d o.w64 ++ atomRegs fn o.w64 o.a ++ aregs o.addr)
    (vlatches o.a ++ alatches o.addr) (wordsOf o.lits)) :
    let n := if o.w64 then 8 else 4
    let ls := lits o.c.lit o.a.isLit false o.addr.isLit
    let r := (s.active v o.c.g).map fun l =>
      s.laneAcc v (s.colourOf v) o.addr.space l (s.offsetOf v l ls.2.2 o.addr n) n (permLd ||| permSt ||| permAtom)
    (∀ x ∈ r, x.bad = none) → s.rangesHeld (coreOf v.spn) (accRanges r n true) = false →
    s.logRoom (r.flatMap fun x => linesOf x.a n) v.spn (s.active v o.c.g).length = true →
    localAtomic s o fn = .next (((r.foldl (fun t x =>
      t.atomLane i x fn o.w64 o.u o.d (s.atomArgs v x.l ls.1 fn o.w64 o.a).1 (s.atomArgs v x.l ls.1 fn o.w64 o.a).2)
        (s.markLatch i o.d)).endRegion i (wordsOf o.lits)).wakeAll (accRanges r n true)) := by
  intro n ls r hok hheld hroom
  rw [localAtomic, issueEnd_of_goes h]
  exact congrArg _ (localAccess_of_ok hok hheld fun _ => hroom)

end Shapes

/-- Settles O10: each access, once issued, passes its checks and has its effect in every lane. -/
theorem loadStore : Obligations.LoadStore :=
  ⟨fun _ _ _ _ _ => ⟨execLd_of_goes, execSt_of_goes⟩, fun _ _ _ _ _ => ⟨execLdk_of_goes, execStk_of_goes⟩⟩

/-! ## What an atomic leaves in a word (R224) -/

section Atomics
variable (a b : Word)

theorem atomN_unsigned (w : Word) :
    (atomN 32 .min true w a b).toNat = min w.toNat a.toNat ∧ (atomN 32 .max true w a b).toNat = max w.toNat a.toNat := by
  constructor <;> simp only [atomN, if_true] <;> split <;> omega

theorem atomN_signed (w : Word) :
    (atomN 32 .min false w a b).toInt = min w.toInt a.toInt ∧ (atomN 32 .max false w a b).toInt = max w.toInt a.toInt := by
  constructor <;> simp only [atomN, Bool.false_eq_true, if_false] <;> split <;> omega

end Atomics

/-- Settles O11: the eight atomics share one shape; their functions row by row. -/
theorem localAtomics : Obligations.LocalAtomics := by
  constructor
  · intro s i v o fn n ls r ins h hok hheld hroom
    have hins : exec ins s = localAtomic s o fn := by cases fn <;> rfl
    exact hins.trans (localAtomic_of_goes h hok hheld hroom)
  · intro u w a b
    obtain ⟨hmin, hmax⟩ := atomN_unsigned a b w
    obtain ⟨hsmin, hsmax⟩ := atomN_signed a b w
    exact ⟨rfl, hmin, hmax, hsmin, hsmax, rfl, rfl, rfl, rfl, fun h => if_pos h, fun h => if_neg h⟩

/-! ## fence, wsig and waitc -/

section Waits
variable {s : State} {i : Nat} {v : Convoy}

theorem execFenceOp_of_goes {o : FenceOp} (h : s.goes i v o.c [] []) : execFenceOp o s = .next (if s.active v o.c.g = [] then s.advance i 1
    else (s.release v.spn ((s.active v o.c.g).map (·.id)) o.scope).hold i (.fence o.scope 1)) := by
  rw [execFenceOp, issue_of_goes h]
  simp

theorem execFenceDone_of_wait {sc : Scope} {n : Nat} (hm : s.mover i = some v) (hw : v.wait = .fence sc n) :
    execFenceDone i s = .next (s.advance i n) := by
  simp [execFenceDone, hm, hw]

theorem execLocalAccessResume_of_free {core : Nat} {l : List (Addr × Addr × Bool)} (hv : tget s.convoys i = some v)
    (hw : v.wait = .access core l) (hf : s.rangesHeld core l = false) : execLocalAccessResume i s = .next (s.hold i .run) := by
  simp [execLocalAccessResume, hv, hw, hf]

theorem execWsig_of_goes {o : WsigOp} (h : s.goes i v o.c [] []) :
    let ls := lits o.c.lit false o.o.isLit o.v.isLit
    let k := v.u.rdK o.k.toNat
    let off := (sval v.u ls.2.1 o.o).toNat
    k.remote = none → s.useCause (s.colourOf v) k {} permLd false off 4 = none → (k.lo + off) % 4 = 0 →
    execWsig o s = .next (s.holdOrStop i v (.wsig { addr := k.lo + off, remote := none, cc := o.cc, v := sval v.u ls.2.2 o.v,
                                                    acq := o.acq.isSome, q := o.q, tmo := o.tmo, since := s.now (dieOf v.spn), words := wordsOf o.lits })) := by
  intro ls k off hlocal huse halign
  rw [execWsig, issue_of_goes h]
  simp only [ls, k, off] at hlocal huse halign ⊢
  simp only [hlocal, huse, halign, ne_eq, not_true, if_false, Option.map_none]

theorem execWaitc_of_goes {o : WaitcOp} (h : s.goes i v o.c [] []) : 
    (o.cls = none → execWaitc o s = .next (s.advance i 1)) ∧
    (∀ x, o.cls = some x → execWaitc o s = .next (if s.counter v x ≤ o.thr.toNat then s.endWaitc i v x o.thr.toNat
      else s.holdOrStop i v (.waitc x o.thr.toNat))) := by
  rw [execWaitc, issue_of_goes h]
  exact ⟨fun hc => by simp only [hc], fun x hc => by simp only [hc]⟩

theorem endWaitc_of_clear {x : Cls} {n : Nat} (hr : s.hasRef v x = false) :
    s.endWaitc i v x n = (s.observe v x n).advance i 1 := by
  simp [State.endWaitc, hr]

theorem execWsigReread_of_local {y : WsigWait} (hm : s.mover i = some v) (hw : v.wait = .wsig y) (hl : y.remote = none)
    (ha : s.awaits [(y.addr, 4)] [] = none) :
    let r := (s.settleWrites v (entriesOn y.addr (y.addr + 4) false)).readWord (plainAgent (s.colourOf v)) .rd y.addr 4
    execWsigReread i s = .next (if wccHolds y.cc (BitVec.ofNat 32 r.2.1) y.v then (r.1.wrQ i y.q true).advance i y.words
      else if r.2.2 then s else r.1) := by
  simp only [execWsigReread, hm, hw, hl, ha, State.endWsig]
  split
  · rfl
  · split <;> rfl

theorem execWsigTimeout_of_late {y : WsigWait} (hm : s.mover i = some v) (hw : v.wait = .wsig y) (ht : y.tmo ≠ 0)
    (hlate : y.since + 2 ^ (y.tmo.toNat + 9) ≤ s.now (dieOf v.spn)) :
    execWsigTimeout i s = .next ((s.wrQ i y.q false).advance i y.words) := by
  simp only [execWsigTimeout, hm, hw, ne_eq, ht, not_false_eq_true, hlate, and_self, if_true, State.endWsig]

theorem execWaitcRelease_of_wait {x : Cls} {n : Nat} (hm : s.mover i = some v) (hw : v.wait = .waitc x n) (hc : s.counter v x ≤ n) :
    execWaitcRelease i s = .next ((s.hold i .run).endWaitc i v x n) := by
  simp [execWaitcRelease, hm, hw, hc]

end Waits

/-- Settles O12: each word once issued, and each wait once its condition holds. -/
theorem waits : Obligations.Waits := by
  constructor
  · intro s i v o
    exact ⟨fun h ha => (execFenceOp_of_goes h).trans (by rw [if_pos ha]), fun h ha => (execFenceOp_of_goes h).trans (by rw [if_neg ha]),
      fun n => execFenceDone_of_wait, fun core l => execLocalAccessResume_of_free⟩
  · intro s i v o m ls k off w
    refine ⟨fun h hl hu ha => ?_, fun h => ⟨(execWaitc_of_goes h).1, fun x hc hn hr => ?_, fun x hc hn => ?_⟩,
      fun y hm hw => ⟨fun hl ha => ?_, fun ht hlate => execWsigTimeout_of_late hm hw ht hlate⟩, fun x n hm hw hc hr => ?_⟩
    · exact (execWsig_of_goes h hl hu ha).trans (by rw [State.holdOrStop, apply_ite (s.hold i)])
    · exact ((execWaitc_of_goes h).2 x hc).trans (by rw [if_pos hn, endWaitc_of_clear hr])
    · exact ((execWaitc_of_goes h).2 x hc).trans (by rw [if_neg (by omega), State.holdOrStop, apply_ite (s.hold i)])
    · have hread := execWsigReread_of_local hm hw hl ha
      exact ⟨fun hx => hread.trans (congrArg _ (if_pos hx)), fun hx => hread.trans (congrArg _ (if_neg (by simp [hx])))⟩
    · exact (execWaitcRelease_of_wait hm hw hc).trans (congrArg _ (endWaitc_of_clear hr))

end Sys2Proof.Machine

/-! SUPPORT. The engine group: the instructions that issue a command (R241–R264). -/

namespace Sys2Proof.Machine

section Shapes
variable {s : State} {i : Nat} {v : Convoy} {c : Ctl} {regs : List RegUse} {lat : List (BitVec 2)} {n : Nat}

/-- An instruction whose events are not logged: its command is accepted. -/
theorem issueEngine_noEvents {cls : Cls} {slot : Bool} (h : s.goes i v c regs lat) (op : State → Convoy → List Ln → CmdOp)
    (he : s.engineGoes v cls (op s v (s.active v c.g))) :
    issueEngine s c cls slot false regs lat n op noEvents =
      .next ((s.accepted i v (s.newCmd i v cls slot (op s v (s.active v c.g)) [])).advance i n) :=
  issueEngine_of_goes h op noEvents he rfl

/-- The keys of the next events of some fibres, in order. -/
def State.fibreKeys (s : State) (ids : List Nat) : State × List EventKey :=
  ids.foldl (fun x j => ((x.1.takeKey j).1, x.2 ++ (x.1.takeKey j).2)) (s, [])

theorem wideEvent_of_fresh (hf : s.freshEvents v) (skip : CmdOp) (act : List Ln) (op : CmdOp) :
    wideEvent skip s v act op = some ((s.fibreKeys ((s.lanes v).map (·.id))).1, op, (s.fibreKeys ((s.lanes v).map (·.id))).2) := by
  obtain ⟨hl, hr⟩ := hf
  simp only [wideEvent, hl, hr, if_true, State.fibreKeys, List.foldl_map]

theorem issueEngine_wideEvent {cls : Cls} {slot : Bool} (h : s.goes i v c regs lat) (op : State → Convoy → List Ln → CmdOp) (skip : CmdOp)
    (he : s.engineGoes v cls (op s v (s.active v c.g))) (hf : s.freshEvents v) :
    issueEngine s c cls slot false regs lat n op (wideEvent skip) =
      .next (((s.fibreKeys ((s.lanes v).map (·.id))).1.accepted i v
        (s.newCmd i v cls slot (op s v (s.active v c.g)) (s.fibreKeys ((s.lanes v).map (·.id))).2)).advance i n) :=
  issueEngine_of_goes h op _ he (wideEvent_of_fresh hf _ _ _)

theorem issueEngineEnd_wideEvent {cls : Cls} {slot : Bool} (h : s.goesEnd i v c regs lat n) (op : State → Convoy → List Ln → CmdOp)
    (skip : CmdOp) (he : s.engineGoes v cls (op s v (s.active v c.g))) (hf : s.freshEvents v) :
    issueEngine s c cls slot true regs lat n op (wideEvent skip) =
      .next (((s.fibreKeys ((s.lanes v).map (·.id))).1.accepted i v
        (s.newCmd i v cls slot (op s v (s.active v c.g)) (s.fibreKeys ((s.lanes v).map (·.id))).2)).endRegion i n) :=
  issueEngineEnd_of_goes h op _ he (wideEvent_of_fresh hf _ _ _)

/-! ## cpy.cmd -/

/-- A block of this package whose OTYPE names a near-memory update, an atomic or a signal has events (R391, R433). -/
theorem blockEvents_eq (k : Cap) (loc : Option Cap) (act : List Ln) : blockEvents s v act (.block k loc) =
    if k.remote = none ∧ 5 ≤ k.otype.toNat ∧ k.otype.toNat ≤ 7
    then wideEvent (.gatm nullCap .add false false (.b 0) []) s v act (.block k loc) else some (s, .block k loc, []) := by
  simp only [blockEvents, Bool.and_eq_true, Option.isNone_iff_eq_none, decide_eq_true_eq, and_assoc]

/-- The command of a cpy.cmd. -/
def cpyCmdOf (v : Convoy) (o : CpyCmdOp) : CmdOp := .block (v.u.rdK o.kc.toNat) (o.loc.map fun l => v.u.rdK l.toNat)

theorem execCpyCmd_eq (o : CpyCmdOp) (s : State) :
    execCpyCmd o s = issueEngine s o.c .ecp false false [] [] 1 (fun _ v _ => cpyCmdOf v o) blockEvents := rfl

theorem execCpyCmd_of_goes {o : CpyCmdOp} (h : s.goes i v o.c [] []) (he : s.engineGoes v .ecp (cpyCmdOf v o)) :
    let k := v.u.rdK o.kc.toNat
    (¬(k.remote = none ∧ 5 ≤ k.otype.toNat ∧ k.otype.toNat ≤ 7) →
      execCpyCmd o s = .next ((s.accepted i v (s.newCmd i v .ecp false (cpyCmdOf v o) [])).advance i 1)) ∧
    (k.remote = none ∧ 5 ≤ k.otype.toNat ∧ k.otype.toNat ≤ 7 → s.freshEvents v → execCpyCmd o s =
      .next (((s.fibreKeys ((s.lanes v).map (·.id))).1.accepted i v
        (s.newCmd i v .ecp false (cpyCmdOf v o) (s.fibreKeys ((s.lanes v).map (·.id))).2)).advance i 1)) := by
  intro k
  rw [execCpyCmd_eq]
  refine ⟨fun hk => issueEngine_of_goes h (fun _ v _ => cpyCmdOf v o) blockEvents he ?_,
    fun hk hf => issueEngine_of_goes h (fun _ v _ => cpyCmdOf v o) blockEvents he ?_⟩
  · rw [cpyCmdOf, blockEvents_eq, if_neg hk]
  · rw [cpyCmdOf, blockEvents_eq, if_pos hk, wideEvent_of_fresh hf]

/-! ## gatm -/

/-- A lane whose next event is not logged takes its key, and its place in the command stays. -/
theorem gatmEvents_single {w64 : Bool} {d : VDst} {s1 : State} {act : List Ln} {k : Cap} {fn : AtomFn} {w u : Bool} {dst : VDst}
    {g : GatmLane} {f : Fibre} {op : CmdOp} {keys : List EventKey} (hf : tget s.fibres g.fib = some f) (hl : s.lookup f = none)
    (he : gatmEvents w64 d s v act (.gatm k fn w u dst [g]) = some (s1, op, keys)) :
    op = .gatm k fn w u dst [g] ∧ keys = [⟨f.fidx, f.regcnt, f.ordn⟩] := by
  simp only [gatmEvents, Option.ite_none_left_eq_some, List.foldl_cons, List.foldl_nil, hf, Option.bind_some, hl, State.takeKey,
    List.nil_append, Option.some.injEq, Prod.mk.injEq] at he
  exact ⟨he.2.2.1.symm, he.2.2.2.symm⟩

/-- The command of a gatm. -/
def gatmOf (o : GatmOp) (s : State) (v : Convoy) (act : List Ln) : CmdOp :=
  .gatm (v.u.rdK o.k.toNat) o.fn o.w64 o.u o.d (s.gatmLanes v act o)

theorem execGatm_eq (o : GatmOp) (s : State) : execGatm o s =
    issueEngine s o.c .eat true true (dregs o.d o.w64 ++ vregs o.o false ++ atomRegs o.fn o.w64 o.a) (vlatches o.o ++ vlatches o.a)
      (wordsOf o.lits) (gatmOf o) (gatmEvents o.w64 o.d) := rfl

theorem execGatm_of_goes {o : GatmOp} {s1 : State} {op : CmdOp} {keys : List EventKey}
    (h : s.goesEnd i v o.c (dregs o.d o.w64 ++ vregs o.o false ++ atomRegs o.fn o.w64 o.a) (vlatches o.o ++ vlatches o.a) (wordsOf o.lits))
    (he : s.engineGoes v .eat (gatmOf o s v (s.active v o.c.g)))
    (hev : gatmEvents o.w64 o.d s v (s.active v o.c.g) (gatmOf o s v (s.active v o.c.g)) = some (s1, op, keys)) :
    execGatm o s = .next ((s1.accepted i v (s.newCmd i v .eat true op keys)).endRegion i (wordsOf o.lits)) := by
  rw [execGatm_eq]
  exact issueEngineEnd_of_goes h (gatmOf o) (gatmEvents o.w64 o.d) he hev

end Shapes

/-- Settles O16: each instruction's command, accepted; a block with events takes their keys. -/
theorem engineCopies : Obligations.EngineCopies := by
  intro s i v o m g e w out idx all kc loc ga sc cp st wb
  refine ⟨fun h he => ?_, fun h he => ⟨fun hk => ?_, fun h1 h2 h3 hf => ?_⟩, fun h he => ?_, fun h he => ?_, fun h he => ?_,
    fun h he => ?_⟩
  · show execCpy o s = _
    rw [execCpy]
    exact issueEngine_noEvents h _ he
  · refine (execCpyCmd_of_goes h he).1 fun ⟨h1, h2, h3⟩ => ?_
    rcases hk with hk | hk | hk
    · exact hk h1
    · exact absurd hk (Nat.not_lt.2 h2)
    · exact absurd hk (Nat.not_lt.2 h3)
  · exact (execCpyCmd_of_goes h he).2 ⟨h1, h2, h3⟩ hf
  · show execGat g s = _
    rw [execGat]
    exact issueEngine_noEvents h _ he
  · show execSct g s = _
    rw [execSct]
    exact issueEngine_noEvents h _ he
  · show execStage e s = _
    rw [execStage]
    exact issueEngine_noEvents h _ he
  · show execWb w s = _
    rw [execWb]
    exact issueEngine_noEvents h _ he

/-- Settles O18: clx logs no event; nmc, sig and gatm take the keys of theirs. -/
theorem engineRemote : Obligations.EngineRemote := by
  intro s i v o m g q lq keysOf all cx nm ga sg
  refine ⟨fun h he => ?_, fun h he hf => ?_, fun s1 op keys h he hev => ⟨?_, fun l hact hl hfib => ?_⟩, fun h he hf => ?_⟩
  · show execClx o s = _
    rw [execClx]
    exact issueEngine_noEvents h _ he
  · show execNmc m s = _
    rw [execNmc]
    exact issueEngine_wideEvent h _ _ he hf
  · exact execGatm_of_goes h he hev
  · have hga : ga = .gatm (v.u.rdK g.k.toNat) g.fn g.w64 g.u g.d (s.gatmLanes v (s.active v g.c.g) g) := rfl
    rw [hga, hact] at hev ⊢
    exact gatmEvents_single hfib hl hev
  · show execSig q s = _
    rw [execSig]
    exact issueEngineEnd_wideEvent h _ _ he hf

end Sys2Proof.Machine

/-! SUPPORT. What the release of writes and the acceptance of a command change (R125–R135, R245). -/

namespace Sys2Proof.Machine

/-! ## Changes of SPs alone -/

/-- A change of SPs alone, each as a relation tells. -/
def SpsOnly (R : Sp → Sp → Prop) (s t : State) : Prop := (∃ ps, t = { s with sps := ps }) ∧ ∀ p, R (s.sp p) (t.sp p)

/-- Two SPs that differ in store queue and tile buffer alone. -/
def Sp.Drained (q r : Sp) : Prop := r = { q with pend := r.pend, tbuf := r.tbuf }
/-- Two SPs that differ in undo log, store queue, tile buffer and power alone. -/
def Sp.Stored (q r : Sp) : Prop := r = { q with lines := r.lines, pend := r.pend, tbuf := r.tbuf, power := r.power }

theorem Sp.drained_refl (q : Sp) : q.Drained q := rfl
theorem Sp.stored_refl (q : Sp) : q.Stored q := rfl
theorem Sp.drained_trans (q r u : Sp) (h : q.Drained r) (h' : r.Drained u) : q.Drained u := by
  rw [Sp.Drained] at h h' ⊢; rw [h', h]
theorem Sp.stored_trans (q r u : Sp) (h : q.Stored r) (h' : r.Stored u) : q.Stored u := by
  rw [Sp.Stored] at h h' ⊢; rw [h', h]
theorem Sp.Drained.stored {q r : Sp} (h : q.Drained r) : q.Stored r := by
  rw [Sp.Drained] at h; rw [Sp.Stored, h]

section
variable {R : Sp → Sp → Prop} {s t u : State}

theorem spsOnly_refl (hR : ∀ q, R q q) (s : State) : SpsOnly R s s := ⟨⟨s.sps, rfl⟩, fun _ => hR _⟩

theorem spsOnly_trans (hR : ∀ q r u, R q r → R r u → R q u) (h : SpsOnly R s t) (h' : SpsOnly R t u) : SpsOnly R s u := by
  obtain ⟨⟨ps, rfl⟩, hp⟩ := h
  obtain ⟨⟨ps', rfl⟩, hp'⟩ := h'
  exact ⟨⟨ps', rfl⟩, fun p => hR _ _ _ (hp p) (hp' p)⟩

theorem SpsOnly.imp {R' : Sp → Sp → Prop} (hR : ∀ {q r}, R q r → R' q r) (h : SpsOnly R s t) : SpsOnly R' s t :=
  ⟨h.1, fun p => hR (h.2 p)⟩

theorem spsOnly_modSp (hR : ∀ q, R q q) {n : Nat} {f : Sp → Sp} (h : R (s.sp n) (f (s.sp n))) : SpsOnly R s (s.modSp n f) := by
  refine ⟨⟨_, rfl⟩, fun p => ?_⟩
  by_cases hp : p = n
  · subst hp; rwa [modSp_get]
  · rw [modSp_get_ne f hp]; exact hR _

theorem spsOnly_foldl {α : Type} (hR : ∀ q, R q q) (hT : ∀ q r u, R q r → R r u → R q u) {f : State → α → State}
    (h : ∀ s x, SpsOnly R s (f s x)) (l : List α) (s : State) : SpsOnly R s (l.foldl f s) := by
  induction l generalizing s with
  | nil => exact spsOnly_refl hR s
  | cons x r ih => exact spsOnly_trans hT (h s x) (ih _)

theorem tget_map {α β : Type} (t : Tbl α) (f : Nat → α → β) (k : Nat) :
    tget (t.map fun x => (x.1, f x.1 x.2)) k = (tget t k).map (f k) := by
  induction t with
  | nil => rfl
  | cons x r ih =>
    rw [List.map_cons, tget_cons, tget_cons, ih]
    by_cases h : k = x.1 <;> simp [h]

/-- A change of every listed SP. -/
theorem spsOnly_map (hR : ∀ q, R q q) (f : Nat → Sp → Sp) (h : ∀ n q, R q (f n q)) :
    SpsOnly R s { s with sps := s.sps.map fun x => (x.1, f x.1 x.2) } := by
  refine ⟨⟨_, rfl⟩, fun p => ?_⟩
  simp only [State.sp, tget_map]
  cases tget s.sps p with
  | none => exact hR _
  | some q => exact h p q

end

/-! ## Releases (R130–R135) -/

theorem spsOnly_drainTilesOf (s : State) (core : Nat) (p : TileBuf → Bool) : SpsOnly Sp.Drained s (s.drainTilesOf core p) := by
  have h := spsOnly_map (s := s) Sp.drained_refl (fun n q => if coreOf n = core then { q with tbuf := drainTiles p q.tbuf } else q)
    fun n q => by split <;> exact rfl
  have he : s.drainTilesOf core p =
      { s with sps := s.sps.map fun x => (x.1, if coreOf x.1 = core then { x.2 with tbuf := drainTiles p x.2.tbuf } else x.2) } := by
    simp only [State.drainTilesOf, apply_ite (Prod.mk _)]
  rw [he]
  exact h

theorem spsOnly_release (s : State) (p : Nat) (ids : List Nat) (sc : Scope) : SpsOnly Sp.Drained s (s.release p ids sc) := by
  unfold State.release
  dsimp only
  split
  · exact spsOnly_trans Sp.drained_trans (spsOnly_modSp Sp.drained_refl (by exact rfl)) (spsOnly_drainTilesOf _ _ _)
  · exact spsOnly_modSp Sp.drained_refl (by exact rfl)

theorem spsOnly_releaseAll (s : State) (v : Convoy) (sc : Scope) : SpsOnly Sp.Drained s (s.releaseAll v sc) := spsOnly_release ..

theorem spsOnly_settleWrites (s : State) (v : Convoy) (es : List Entry) : SpsOnly Sp.Drained s (s.settleWrites v es) := by
  unfold State.settleWrites
  dsimp only
  split
  · exact spsOnly_releaseAll ..
  · exact spsOnly_refl Sp.drained_refl s

theorem spsOnly_opRelease (s : State) (v : Convoy) (op : CmdOp) : SpsOnly Sp.Drained s (s.opRelease v op) := by
  unfold State.opRelease
  split
  · exact spsOnly_releaseAll ..
  · exact spsOnly_refl Sp.drained_refl s

/-! ## Changes of fibres alone -/

/-- A change of fibres alone, each as a relation tells; no fibre comes or goes. -/
def FibresOnly (R : Fibre → Fibre → Prop) (s t : State) : Prop :=
  (∃ fs, t = { s with fibres := fs }) ∧ ∀ j f, tget s.fibres j = some f → ∃ g, tget t.fibres j = some g ∧ R f g

section
variable {R : Fibre → Fibre → Prop} {s t u : State}

theorem fibresOnly_refl (hR : ∀ f, R f f) (s : State) : FibresOnly R s s := ⟨⟨s.fibres, rfl⟩, fun _ f h => ⟨f, h, hR f⟩⟩

theorem fibresOnly_trans (hR : ∀ f g k, R f g → R g k → R f k) (h : FibresOnly R s t) (h' : FibresOnly R t u) : FibresOnly R s u := by
  obtain ⟨⟨fs, rfl⟩, hf⟩ := h
  obtain ⟨⟨fs', rfl⟩, hf'⟩ := h'
  refine ⟨⟨fs', rfl⟩, fun j f h => ?_⟩
  obtain ⟨g, hg, hr⟩ := hf j f h
  obtain ⟨k, hk, hr'⟩ := hf' j g hg
  exact ⟨k, hk, hR _ _ _ hr hr'⟩

theorem fibresOnly_modFibre (hR : ∀ f, R f f) {i : Nat} {F : Fibre → Fibre} (h : ∀ f, R f (F f)) : FibresOnly R s (s.modFibre i F) := by
  refine ⟨⟨_, rfl⟩, fun j f hf => ?_⟩
  by_cases hj : j = i
  · subst hj; exact ⟨F f, by rw [modFibre_get, hf]; rfl, h f⟩
  · exact ⟨f, by rw [modFibre_get_ne F hj]; exact hf, hR f⟩

theorem fibresOnly_foldl {α : Type} (hR : ∀ f, R f f) (hT : ∀ f g k, R f g → R g k → R f k) {F : State → α → State}
    (h : ∀ s x, FibresOnly R s (F s x)) (l : List α) (s : State) : FibresOnly R s (l.foldl F s) := by
  induction l generalizing s with
  | nil => exact fibresOnly_refl hR s
  | cons x r ih => exact fibresOnly_trans hT (h s x) (ih _)

end

/-- Two fibres that differ in what they count and have issued alone. -/
def Fibre.Counted (f g : Fibre) : Prop := g = { f with cnt := g.cnt, mx := g.mx, clxs := g.clxs }
/-- The same with the counters kept. -/
def Fibre.Noted (f g : Fibre) : Prop := g = { f with mx := g.mx, clxs := g.clxs }

theorem Fibre.counted_refl (f : Fibre) : f.Counted f := rfl
theorem Fibre.noted_refl (f : Fibre) : f.Noted f := rfl
theorem Fibre.counted_trans (f g k : Fibre) (h : f.Counted g) (h' : g.Counted k) : f.Counted k := by
  rw [Fibre.Counted] at h h' ⊢; rw [h', h]
theorem Fibre.noted_trans (f g k : Fibre) (h : f.Noted g) (h' : g.Noted k) : f.Noted k := by
  rw [Fibre.Noted] at h h' ⊢; rw [h', h]

theorem fibresOnly_noteMatrix (s : State) (v : Convoy) (k : Nat) : FibresOnly Fibre.Noted s (s.noteMatrix v k) :=
  fibresOnly_foldl Fibre.noted_refl Fibre.noted_trans (fun _ _ => fibresOnly_modFibre Fibre.noted_refl fun _ => by exact rfl) _ s

theorem fibresOnly_noteClx (s : State) (v : Convoy) (op : CmdOp) : FibresOnly Fibre.Noted s (s.noteClx v op) := by
  unfold State.noteClx
  split
  · exact fibresOnly_foldl Fibre.noted_refl Fibre.noted_trans (fun _ _ => fibresOnly_modFibre Fibre.noted_refl fun _ => by exact rfl) _ s
  · exact fibresOnly_refl Fibre.noted_refl s

theorem fibresOnly_countInc (s : State) (fs : List Nat) (x : Cls) : FibresOnly Fibre.Counted s (s.countInc fs x) :=
  fibresOnly_foldl Fibre.counted_refl Fibre.counted_trans (fun _ _ => fibresOnly_modFibre Fibre.counted_refl fun _ => by exact rfl) _ s

theorem countInc_get_of_notMem {fs : List Nat} {j : Nat} (x : Cls) (h : j ∉ fs) (s : State) :
    tget (s.countInc fs x).fibres j = tget s.fibres j := by
  induction fs generalizing s with
  | nil => rfl
  | cons a r ih =>
    rw [List.mem_cons, not_or] at h
    exact (ih h.2 _).trans (modFibre_get_ne _ h.1)

/-- Each fibre of a list without repeats is counted once. -/
theorem countInc_get_of_mem {fs : List Nat} {j : Nat} (x : Cls) (hn : fs.Nodup) (h : j ∈ fs) {s : State} {f : Fibre}
    (hf : tget s.fibres j = some f) : tget (s.countInc fs x).fibres j = some { f with cnt := f.cnt.set (f.cnt.get x + 1) x } := by
  induction fs generalizing s f with
  | nil => cases h
  | cons a r ih =>
    obtain ⟨ha, hr⟩ := List.nodup_cons.1 hn
    by_cases hj : j = a
    · subst hj
      refine (countInc_get_of_notMem x ha _).trans ?_
      rw [modFibre_get, hf]; rfl
    · exact ih hr ((List.mem_cons.1 h).resolve_left hj) (by rw [modFibre_get_ne _ hj]; exact hf)

/-! ## Acceptance -/

/-- The state with a command under a new name, counted in its fibres. -/
def State.counted (s : State) (m : Cmd) : State := { s.nextId with cmds := tput s.cmds s.ids m }.countInc m.fibres m.cls
/-- What acceptance does before MXSEQ and the fibres' notes. -/
def State.acceptBase (s : State) (v : Convoy) (m : Cmd) : State :=
  ((s.counted m).settleWrites v (s.acceptEntries v m.op)).opRelease v m.op

theorem counted_ex (s : State) (m : Cmd) : ∃ fs, s.counted m = { s with ids := s.ids + 1, cmds := tput s.cmds s.ids m, fibres := fs } := by
  obtain ⟨⟨fs, h⟩, -⟩ := fibresOnly_countInc { s.nextId with cmds := tput s.cmds s.ids m } m.fibres m.cls
  exact ⟨fs, h⟩

theorem accepted_eq (s : State) (i : Nat) (v : Convoy) (m : Cmd) : s.accepted i v m =
    if m.cls = .emx then ((s.acceptBase v m).modU i mxNext).noteMatrix v s.ids else (s.acceptBase v m).noteClx v m.op := rfl

/-- Acceptance names the command, counts it in its fibres, and performs pending writes. -/
theorem acceptBase_ex (s : State) (v : Convoy) (m : Cmd) :
    ∃ fs ps, s.acceptBase v m = { s with ids := s.ids + 1, cmds := tput s.cmds s.ids m, fibres := fs, sps := ps } ∧
      (s.acceptBase v m).fibres = (s.counted m).fibres ∧ ∀ p, (s.sp p).Drained ((s.acceptBase v m).sp p) := by
  obtain ⟨fs, h1⟩ := counted_ex s m
  obtain ⟨⟨ps, h2⟩, hp⟩ := spsOnly_trans Sp.drained_trans (spsOnly_settleWrites (s.counted m) v (s.acceptEntries v m.op))
    (spsOnly_opRelease _ v m.op)
  refine ⟨fs, ps, by rw [State.acceptBase, h2, h1], by rw [State.acceptBase, h2], fun p => ?_⟩
  have hs : (s.counted m).sp p = s.sp p := by rw [h1]; rfl
  rw [← hs]
  exact hp p

/-- What stands after a command is accepted. -/
theorem accepted_ex (s : State) (i : Nat) (v : Convoy) (m : Cmd) :
    ∃ fs ps cs, s.accepted i v m = { s with ids := s.ids + 1, cmds := tput s.cmds s.ids m, fibres := fs, sps := ps, convoys := cs } ∧
      cs = (if m.cls = .emx then s.modU i mxNext else s).convoys ∧ ∀ p, (s.sp p).Drained ((s.accepted i v m).sp p) := by
  obtain ⟨fs, ps, h, -, hp⟩ := acceptBase_ex s v m
  rw [accepted_eq]
  split
  · obtain ⟨⟨fs', h'⟩, -⟩ := fibresOnly_noteMatrix ((s.acceptBase v m).modU i mxNext) v s.ids
    refine ⟨fs', ps, _, by rw [h', h]; rfl, rfl, fun p => ?_⟩
    rw [h']
    exact hp p
  · obtain ⟨⟨fs', h'⟩, -⟩ := fibresOnly_noteClx (s.acceptBase v m) v m.op
    refine ⟨fs', ps, _, by rw [h', h], rfl, fun p => ?_⟩
    rw [h']
    exact hp p

/-- The fibres after a command is accepted: those it counts, with their notes. -/
theorem accepted_fibres (s : State) (i : Nat) (v : Convoy) (m : Cmd) (j : Nat) (f : Fibre)
    (hf : tget (s.counted m).fibres j = some f) :
    ∃ g, tget (s.accepted i v m).fibres j = some g ∧ f.Noted g := by
  obtain ⟨fs, ps, -, hb, -⟩ := acceptBase_ex s v m
  rw [← hb] at hf
  rw [accepted_eq]
  split
  · exact (fibresOnly_noteMatrix ((s.acceptBase v m).modU i mxNext) v s.ids).2 j f hf
  · exact (fibresOnly_noteClx (s.acceptBase v m) v m.op).2 j f hf

/-- Settles O40: acceptance changes the command table, the fibres' counts and notes, the SPs' pending writes, and MXSEQ. -/
theorem acceptFrame : Obligations.AcceptFrame := by
  intro s v m i n t
  obtain ⟨fs, ps, cs, h, hcs, hp⟩ := accepted_ex s i v m
  obtain ⟨cs', k, ha⟩ := advance_ex (s := s.accepted i v m) (c := i) n
  have ht : t = { s with ids := s.ids + 1, cmds := tput s.cmds s.ids m, fibres := (s.accepted i v m).fibres, sps := ps, convoys := cs',
                         free := s.free + 1, host := { s.host with counters := k } } := by
    rw [show t = (s.accepted i v m).advance i n from rfl, ha, h]
  have hfib : t.fibres = (s.accepted i v m).fibres := by rw [ht]
  have hconv : ∀ w, tget s.convoys i = some w → ∃ x, tget cs i = some x ∧ x.fib = w.fib ∧ x.fpstat = w.fpstat ∧
      x.u = { w.u with mxseq := if m.cls = .emx then w.u.mxseq + 1 else w.u.mxseq } := by
    intro w hw
    rw [hcs]
    split
    · exact ⟨{ w with u := mxNext w.u }, by rw [State.modU, modConvoy_get, hw]; rfl, rfl, rfl, rfl⟩
    · exact ⟨w, hw, rfl, rfl, rfl⟩
  refine ⟨by rw [ht], by rw [ht]; exact tget_tput, fun j hj => by rw [ht]; exact tget_tput_ne hj, fun p => ?_, fun j hj => ?_,
    fun w hw => ?_, fun j f hf => ?_, fun hn j hj f hf => ?_⟩
  · have := hp p
    rw [h] at this
    rw [ht]
    exact this
  · rw [show t = (s.accepted i v m).advance i n from rfl, advance_get_ne n hj, h]
    show tget cs j = _
    rw [hcs]
    split
    · exact modConvoy_get_ne _ hj
    · rfl
  · obtain ⟨x, hx, h1, h2, h3⟩ := hconv w hw
    have hx' : tget (s.accepted i v m).convoys i = some x := by rw [h]; exact hx
    obtain ⟨y, hy, -, -, -, hyf, hyu, -, hys⟩ := advance_get n hx'
    exact ⟨y, hy, by rw [hyf, h1], by rw [hys, h2], by rw [hyu, h3]⟩
  · obtain ⟨g, hg, hc⟩ := (fibresOnly_countInc { s.nextId with cmds := tput s.cmds s.ids m } m.fibres m.cls).2 j f hf
    obtain ⟨g', hg', hn⟩ := accepted_fibres s i v m j g hg
    refine ⟨g', by rw [hfib]; exact hg', ?_⟩
    rw [Fibre.Counted] at hc
    rw [Fibre.Noted] at hn
    rw [hn, hc]
  · obtain ⟨g, hg, hn⟩ := accepted_fibres s i v m j _ (countInc_get_of_mem m.cls hn hj hf)
    refine ⟨g, by rw [hfib]; exact hg, ?_⟩
    rw [Fibre.Noted] at hn
    rw [hn]

/-- Settles O17: each command accepted; MXSEQ rises as a matrix command is. -/
theorem engineMatrix : Obligations.EngineMatrix := by
  refine ⟨?_, ?_, fun s i v slot op keys h => ?_⟩
  rotate_right
  · obtain ⟨fs, ps, cs, ha, hcs, -⟩ := accepted_ex s i v (s.newCmd i v .emx slot op keys)
    refine ⟨{ v with u := mxNext v.u }, ?_, rfl⟩
    have hm : (s.newCmd i v .emx slot op keys).cls = .emx := rfl
    rw [ha]
    show tget cs i = _
    rw [hcs, if_pos hm, State.modU, modConvoy_get, h]
    rfl
  · intro s i v o m out par a c
    constructor <;> intro h x hx he
    · have hform : ∀ f, s.engineGoes v .emx (a f) → mmaForm s o f = out (a f) := fun f he => by
        rw [mmaForm]
        exact issueEngine_noEvents h _ he
      simp only [List.mem_cons, List.not_mem_nil, or_false] at hx
      rcases hx with rfl | rfl | rfl | rfl | rfl | rfl <;> exact hform _ he
    · have hform : ∀ f, s.engineGoes v .emx (c f) → mmacForm s m f = out (c f) := fun f he => by
        rw [mmacForm]
        exact issueEngine_noEvents h _ he
      simp only [List.mem_cons, List.not_mem_nil, or_false] at hx
      rcases hx with rfl | rfl | rfl | rfl | rfl | rfl <;> exact hform _ he
  · intro s i v z o m q r out par al at_ sa sv
    refine ⟨fun h he => ?_, fun h he => ?_, fun h he => ?_, fun h he => ?_, fun h he => ?_⟩
    · show execAclr z s = _
      rw [execAclr]
      exact issueEngine_noEvents h _ he
    · show execAld o s = _
      rw [execAld]
      exact issueEngine_noEvents h _ he
    · show execAst m s = _
      rw [execAst]
      exact issueEngine_noEvents h _ he
    · show execSacc q s = _
      rw [execSacc]
      exact issueEngine_noEvents h _ he
    · show execSaccV r s = _
      rw [execSaccV]
      exact issueEngine_noEvents h _ he

end Sys2Proof.Machine

/-! SUPPORT. Reads after writes, and the frames of lane results, comparisons and stores (R4, R52, R152, R178, R189, R220). -/

namespace Sys2Proof.Machine

/-! ## Bytes, words and granules -/

section
variable {s : State} {a b : Addr}

theorem tagAt_wrBytes (bs : List Byte) : (s.wrBytes a bs).tagAt b = (s.tagAt b && !decide (granule b ∈ granules a bs.length)) := by
  rw [State.wrBytes, tagAt_clearTags, tagAt_wrRaw]

theorem tagAt_wrBytes_out {bs : List Byte} (h : granule b ∉ granules a bs.length) : (s.wrBytes a bs).tagAt b = s.tagAt b := by
  rw [tagAt_wrBytes, decide_eq_false h]
  simp

theorem rdBytes_wrRaw (bs : List Byte) : (s.wrRaw a bs).rdBytes a bs.length = bs := by
  refine List.ext_getElem (by simp [State.rdBytes]) fun i h1 h2 => ?_
  simp only [State.rdBytes, List.getElem_map, List.getElem_range]
  exact rd8_wrRaw_in h2

theorem rdCap_wrCap (k : Cap) : (s.wrCap a k).rdCap a = k := by
  have hbits : (s.wrCap a k).rdNat a 16 = k.bits.toNat := by
    have h := rdBytes_wrRaw (s := s) (a := a) (leBytes 16 k.bits.toNat)
    rw [length_leBytes] at h
    have hr : (s.wrCap a k).rdBytes a 16 = (s.wrRaw a (leBytes 16 k.bits.toNat)).rdBytes a 16 := by
      simp only [State.rdBytes, State.wrCap, rd8_setTag]
    have := k.bits.isLt
    rw [State.rdNat, hr, h, leNat_leBytes]
    omega
  have htag : (s.wrCap a k).tagAt a = k.tag := by rw [State.wrCap, tagAt_setTag, if_pos rfl]
  rw [State.rdCap, hbits, htag, BitVec.ofNat_toNat, BitVec.setWidth_eq]

end

/-- Settles O35: bytes, tags and granules as they were written. -/
theorem writeThenRead : Obligations.WriteThenRead :=
  ⟨fun _ a bs => ⟨rdBytes_wrBytes a bs, fun _ h => rd8_wrBytes_out h, fun _ => tagAt_wrBytes bs⟩, fun _ _ k _ => rdCap_wrCap k⟩

/-! ## A lane's destination -/

/-- Whether an address is one of n from another. -/
def Within (lo n a : Nat) : Prop := lo ≤ a ∧ a < lo + n
/-- Whether a byte is one of a destination's in a lane. -/
def dstByte (w : Bool) (d : VDst) (l : Ln) (a : Nat) : Prop := match d with
  | .v n => Within (l.f.reg n.toNat) (if w then 8 else 4) a
  | .b _ => False

theorem reg_succ (f : Fibre) (n : Nat) : f.reg (n + 1) = Nat.add (f.reg n) 4 := by
  have key : ∀ x w n : Nat, x + (w + (n + 1)) * 4 = x + (w + n) * 4 + 4 := by omega
  exact key _ f.wbase n

theorem LaneForm.writes_iff (F : LaneForm) (l : Ln) (a : Nat) : F.writes l a = true ↔ dstByte F.wd F.d l a := by
  obtain ⟨c, regs, lat, wd, d, words⟩ := F
  cases d <;> simp [LaneForm.writes, dstByte, Within]

section
variable {s : State} {i : Nat} {w : Bool} {d : VDst} {a : Nat}

theorem rd8_wrV_out {f : Fibre} {n : Nat} (x : Word) (h : ¬Within (f.reg n) 4 a) : (s.wrV f n x).rd8 a = s.rd8 a :=
  rd8_wr32_out x (by unfold Within at h; omega)

theorem tagAt_wrV_out {f : Fibre} {n : Nat} (x : Word) (h : ∀ b, Within (f.reg n) 4 b → granule b ≠ granule a) :
    (s.wrV f n x).tagAt a = s.tagAt a := by
  refine tagAt_wrBytes_out fun hm => ?_
  rw [length_leBytes, granule_mem_granules] at hm
  obtain ⟨k, hk, he⟩ := hm
  exact h _ ⟨Nat.le_add_right _ k, Nat.add_lt_add_left hk _⟩ he

/-- The two halves of a pair. -/
theorem within_halves {lo b : Nat} (h : Within lo 4 b ∨ Within (Nat.add lo 4) 4 b) : Within lo 8 b := by
  simp only [Within, Nat.add_eq] at *
  omega

theorem rd8_dst_out {l : Ln} (x : DWord) (h : ¬dstByte w d l a) : (s.dst i l w d x).rd8 a = s.rd8 a := by
  cases d with
  | b n => rfl
  | v n =>
    cases w
    · exact rd8_wrV_out _ h
    · refine (rd8_wrV_out _ fun hb => h (within_halves (.inr ?_))).trans (rd8_wrV_out _ fun hb => h (within_halves (.inl hb)))
      rwa [reg_succ] at hb

theorem tagAt_dst_out {l : Ln} (x : DWord) (h : ∀ b, dstByte w d l b → granule b ≠ granule a) :
    (s.dst i l w d x).tagAt a = s.tagAt a := by
  cases d with
  | b n => rfl
  | v n =>
    cases w
    · exact tagAt_wrV_out _ h
    · refine (tagAt_wrV_out _ fun b hb => h b (within_halves (.inr ?_))).trans
        (tagAt_wrV_out _ fun b hb => h b (within_halves (.inl hb)))
      rwa [reg_succ] at hb

@[simp] theorem rd8_markLatch : (s.markLatch i d).rd8 a = s.rd8 a := by cases d <;> rfl
@[simp] theorem tagAt_markLatch : (s.markLatch i d).tagAt a = s.tagAt a := by cases d <;> rfl

theorem rd8_dsts_out {r : List (Ln × DWord)} (h : ∀ x ∈ r, ¬dstByte w d x.1 a) : (s.dsts i w d r).rd8 a = s.rd8 a := by
  rw [State.dsts, ← rd8_markLatch (s := s) (i := i) (d := d)]
  generalize s.markLatch i d = t
  induction r generalizing t with
  | nil => rfl
  | cons x r ih =>
    rw [List.foldl_cons, ih (fun y hy => h y (List.mem_cons_of_mem _ hy)), rd8_dst_out _ (h x List.mem_cons_self)]

theorem tagAt_dsts_out {r : List (Ln × DWord)} (h : ∀ x ∈ r, ∀ b, dstByte w d x.1 b → granule b ≠ granule a) :
    (s.dsts i w d r).tagAt a = s.tagAt a := by
  rw [State.dsts, ← tagAt_markLatch (s := s) (i := i) (d := d)]
  generalize s.markLatch i d = t
  induction r generalizing t with
  | nil => rfl
  | cons x r ih =>
    rw [List.foldl_cons, ih (fun y hy => h y (List.mem_cons_of_mem _ hy)), tagAt_dst_out _ (h x List.mem_cons_self)]

/-- What a convoy keeps as a destination is written: all but its latches. -/
def Convoy.Latched (v w : Convoy) : Prop := w = { v with latch := w.latch, latw := w.latw }

theorem Convoy.latched_trans {u v w : Convoy} (h : u.Latched v) (h' : v.Latched w) : u.Latched w := by
  rw [Convoy.Latched] at h h' ⊢; rw [h', h]

theorem dst_convoys {v : Convoy} (l : Ln) (x : DWord) (hv : tget s.convoys i = some v) :
    (∃ u, tget (s.dst i l w d x).convoys i = some u ∧ v.Latched u) ∧
    ∀ j, j ≠ i → tget (s.dst i l w d x).convoys j = tget s.convoys j := by
  cases d with
  | v n =>
    have hw : ∀ (t : State) (m : Nat) (y : Word), (t.wrV l.f m y).convoys = t.convoys := fun t m y => by
      rw [State.wrV, State.wr32, State.wrNat, wrBytes_eq]
    have hc : (s.dst i l w (.v n) x).convoys = s.convoys := by
      cases w
      · exact hw _ _ _
      · exact (hw _ _ _).trans (hw _ _ _)
    rw [hc]
    exact ⟨⟨v, hv, rfl⟩, fun _ _ => rfl⟩
  | b n => exact ⟨⟨_, by rw [State.dst, modConvoy_get, hv]; rfl, by exact rfl⟩, fun j hj => modConvoy_get_ne _ hj⟩

theorem markLatch_convoys {v : Convoy} (hv : tget s.convoys i = some v) :
    (∃ u, tget (s.markLatch i d).convoys i = some u ∧ v.Latched u) ∧ ∀ j, j ≠ i → tget (s.markLatch i d).convoys j = tget s.convoys j := by
  cases d with
  | v n => exact ⟨⟨v, hv, rfl⟩, fun _ _ => rfl⟩
  | b n => exact ⟨⟨_, by rw [State.markLatch, modConvoy_get, hv]; rfl, by exact rfl⟩, fun j hj => modConvoy_get_ne _ hj⟩

theorem dsts_convoys {v : Convoy} (r : List (Ln × DWord)) (hv : tget s.convoys i = some v) :
    (∃ u, tget (s.dsts i w d r).convoys i = some u ∧ v.Latched u) ∧ ∀ j, j ≠ i → tget (s.dsts i w d r).convoys j = tget s.convoys j := by
  have hfold : ∀ (t : State) {u : Convoy}, tget t.convoys i = some u →
      (∃ u', tget (r.foldl (fun s x => s.dst i x.1 w d x.2) t).convoys i = some u' ∧ u.Latched u') ∧
      ∀ j, j ≠ i → tget (r.foldl (fun s x => s.dst i x.1 w d x.2) t).convoys j = tget t.convoys j := by
    induction r with
    | nil => exact fun t u hu => ⟨⟨u, hu, rfl⟩, fun _ _ => rfl⟩
    | cons x r ih =>
      intro t u hu
      obtain ⟨⟨u1, hu1, h1⟩, hj1⟩ := dst_convoys (w := w) (d := d) x.1 x.2 hu
      obtain ⟨⟨u2, hu2, h2⟩, hj2⟩ := ih (t.dst i x.1 w d x.2) hu1
      exact ⟨⟨u2, hu2, Convoy.latched_trans h1 h2⟩, fun j hj => (hj2 j hj).trans (hj1 j hj)⟩
  obtain ⟨⟨u, hu, h⟩, hj⟩ := markLatch_convoys (d := d) hv
  obtain ⟨⟨u', hu', h'⟩, hj'⟩ := hfold (s.markLatch i d) hu
  exact ⟨⟨u', hu', Convoy.latched_trans h h'⟩, fun j hji => (hj' j hji).trans (hj j hji)⟩

/-- What stands after lane results: bytes and tags outside the destination, other convoys, and all of the convoy but latches and flags. -/
theorem retire_frame {v : Convoy} (words : Nat) (r : List (Ln × DWord × BitVec 8)) (hv : tget s.convoys i = some v) :
    let t := s.retire i w d words r
    (t = { s with mem := t.mem, tags := t.tags, convoys := t.convoys, free := s.free + 1,
                  host := { s.host with counters := t.host.counters } }) ∧
    (∀ a, (∀ x ∈ r, ¬dstByte w d x.1 a) → t.rd8 a = s.rd8 a) ∧
    (∀ a, (∀ x ∈ r, ∀ b, dstByte w d x.1 b → granule b ≠ granule a) → t.tagAt a = s.tagAt a) ∧
    (∀ j, j ≠ i → tget t.convoys j = tget s.convoys j) ∧
    ∃ u, tget t.convoys i = some u ∧ u.spn = v.spn ∧ u.wg = v.wg ∧ u.slices = v.slices ∧ u.fib = v.fib ∧ u.u = v.u ∧ u.lncur = v.lncur ∧
      v.fpstat ||| u.fpstat = u.fpstat := by
  intro t
  obtain ⟨m, g, cs, hd⟩ := dsts_ex (s := s) (c := i) w d (r.map fun x => (x.1, x.2.1))
  obtain ⟨⟨u, hu, hl⟩, hj⟩ := dsts_convoys (w := w) (d := d) (r.map fun x => (x.1, x.2.1)) hv
  obtain ⟨cs', k, ha⟩ := advance_ex (s := (s.dsts i w d (r.map fun x => (x.1, x.2.1))).setFlags i (orFlags (r.map fun x => x.2.2))) (c := i) words
  have ht : t = { s with mem := m, tags := g, convoys := cs', free := s.free + 1, host := { s.host with counters := k } } := by
    rw [show t = _ from ha, State.setFlags, hd]
  have hmem : t.mem = (s.dsts i w d (r.map fun x => (x.1, x.2.1))).mem := by rw [ht, hd]
  have htags : t.tags = (s.dsts i w d (r.map fun x => (x.1, x.2.1))).tags := by rw [ht, hd]
  refine ⟨by rw [ht], fun a ha => ?_, fun a ha => ?_, fun j hji => ?_, ?_⟩
  · rw [State.rd8, hmem]
    exact rd8_dsts_out (r := r.map fun x => (x.1, x.2.1)) fun x hx => by
      obtain ⟨y, hy, rfl⟩ := List.mem_map.1 hx
      exact ha y hy
  · rw [State.tagAt, htags]
    exact tagAt_dsts_out (r := r.map fun x => (x.1, x.2.1)) fun x hx => by
      obtain ⟨y, hy, rfl⟩ := List.mem_map.1 hx
      exact ha y hy
  · rw [show t = State.advance _ i words from rfl, advance_get_ne words hji, State.setFlags]
    exact (tget_tmod_ne _ hji).trans (hj j hji)
  · have hf : tget ((s.dsts i w d (r.map fun x => (x.1, x.2.1))).setFlags i (orFlags (r.map fun x => x.2.2))).convoys i =
        some { u with fpstat := u.fpstat ||| orFlags (r.map fun x => x.2.2) } := by
      rw [State.setFlags, tget_tmod, hu]; rfl
    obtain ⟨y, hy, h1, h2, h3, h4, h5, h6, h7⟩ := advance_get words hf
    rw [Convoy.Latched] at hl
    refine ⟨y, hy, by rw [h1, hl], by rw [h2, hl], by rw [h3, hl], by rw [h4, hl], by rw [h5, hl], by rw [h6, hl], ?_⟩
    rw [h7, hl, ← BitVec.or_assoc, BitVec.or_self]

end

/-! ## The frame of a lane form -/

/-- Where nothing holds a lane form back, it answers its results at its destination. -/
def Retires (ins : Instr) (s : State) (i : Nat) (v : Convoy) (F : LaneForm) : Prop :=
  ∃ g : Ln → DWord × BitVec 8, exec ins s = .next (s.retire i F.wd F.d F.words ((s.active v F.c.g).map fun l => (l, g l)))

section
variable {s : State} {i : Nat} {v : Convoy} {ins : Instr}

theorem retires_intBin {o : IBin} {w wb : Bool} {f : DWord → DWord → DWord} (he : exec ins s = intBin s o w wb f)
    (h : LaneForm.goes ⟨o.c, vregs o.a w ++ bregs o.b (w && wb), vlatches o.a ++ blatches o.b, w, o.d, wordsOf o.lits⟩ s i v) :
    Retires ins s i v ⟨o.c, vregs o.a w ++ bregs o.b (w && wb), vlatches o.a ++ blatches o.b, w, o.d, wordsOf o.lits⟩ := by
  rw [intBin] at he
  exact ⟨_, he.trans (compute_of_goes h _)⟩

theorem retires_intUn {o : IUn} {w wd : Bool} {f : DWord → DWord} (he : exec ins s = intUn s o w wd f)
    (h : LaneForm.goes ⟨o.c, vregs o.a w, vlatches o.a, wd, o.d, wordsOf o.lits⟩ s i v) :
    Retires ins s i v ⟨o.c, vregs o.a w, vlatches o.a, wd, o.d, wordsOf o.lits⟩ := by
  rw [intUn] at he
  exact ⟨_, he.trans (compute_of_goes h _)⟩

theorem retires_intField {o : IBf} {w : Bool} {f : DWord → DWord → Nat → Nat → DWord} (he : exec ins s = intField s o w f)
    (h : LaneForm.goes ⟨o.c, vregs o.a w ++ vregs o.pos false ++ vregs o.wid false, vlatches o.a ++ vlatches o.pos ++ vlatches o.wid, w, o.d,
      wordsOf o.lits⟩ s i v) :
    Retires ins s i v ⟨o.c, vregs o.a w ++ vregs o.pos false ++ vregs o.wid false, vlatches o.a ++ vlatches o.pos ++ vlatches o.wid, w, o.d,
      wordsOf o.lits⟩ :=
  ⟨_, he.trans (intField_of_goes h f)⟩

theorem retires_fpBin {o : FBin} {f : Word → Word → Word × BitVec 8} (he : exec ins s = fpBin s o f)
    (h : LaneForm.goes ⟨o.c, vregs o.a false ++ vregs o.b false, vlatches o.a ++ vlatches o.b, false, o.d, wordsOf o.lits⟩ s i v) :
    Retires ins s i v ⟨o.c, vregs o.a false ++ vregs o.b false, vlatches o.a ++ vlatches o.b, false, o.d, wordsOf o.lits⟩ :=
  ⟨_, he.trans (fpBin_of_goes h f)⟩

theorem retires_fpUn {o : FUn} {f : Word → Word × BitVec 8} (he : exec ins s = fpUn s o f)
    (h : LaneForm.goes ⟨o.c, vregs o.a false, vlatches o.a, false, o.d, wordsOf o.lits⟩ s i v) :
    Retires ins s i v ⟨o.c, vregs o.a false, vlatches o.a, false, o.d, wordsOf o.lits⟩ :=
  ⟨_, he.trans (fpUn_of_goes h f)⟩

theorem retires_hBin {o : HBin} {g : FV → FV → FV} (he : exec ins s = hBin s o g)
    (h : LaneForm.goes ⟨o.c, vregs o.a false ++ vregs o.b false, vlatches o.a ++ vlatches o.b, false, o.d, wordsOf o.lits⟩ s i v) :
    Retires ins s i v ⟨o.c, vregs o.a false ++ vregs o.b false, vlatches o.a ++ vlatches o.b, false, o.d, wordsOf o.lits⟩ :=
  ⟨_, he.trans (hBin_of_goes h g)⟩

theorem retires_quantise {o : QntOp} {q : QFmt} (he : exec ins s = quantise s o q)
    (h : LaneForm.goes ⟨o.c, vregs o.a false ++ vregs o.scale false, vlatches o.a ++ vlatches o.scale, false, o.d, wordsOf o.lits⟩ s i v) :
    Retires ins s i v ⟨o.c, vregs o.a false ++ vregs o.scale false, vlatches o.a ++ vlatches o.scale, false, o.d, wordsOf o.lits⟩ :=
  ⟨_, he.trans (quantise_of_goes h q)⟩

theorem retires_fpTri {o : FTri} {f : Word → Word → Word → Word × BitVec 8} (he : exec ins s = fpTri s o f)
    (h : LaneForm.goes ⟨o.c, vregs o.a false ++ vregs o.b false ++ vregs o.e false, vlatches o.a ++ vlatches o.b ++ vlatches o.e, false, o.d,
      wordsOf o.lits⟩ s i v) :
    Retires ins s i v ⟨o.c, vregs o.a false ++ vregs o.b false ++ vregs o.e false, vlatches o.a ++ vlatches o.b ++ vlatches o.e, false, o.d,
      wordsOf o.lits⟩ :=
  ⟨_, he.trans (fpTri_of_goes h f)⟩

theorem exec_fclass (o : FUn) (s : State) : exec (.fclass o) s = fpUn s o fun a => (1 <<< fclassBit a, 0) := rfl

/-- Every instruction of laneForm writes the results of its active lanes to its destination. -/
theorem retires_of_laneForm {F : LaneForm} (hF : laneForm ins = some F) (h : F.goes s i v)
    (hr : s.rangesHeld (coreOf v.spn) (s.otherRanges v (crossRegs ins)) = false) : Retires ins s i v F := by
  cases ins with
  | iadd o | iadd64 o | isub o | isub64 o | imul o | imul64 o | imulh o | imulh64 o | idiv o | idiv64 o | irem o | irem64 o
  | imin o | imin64 o | imax o | imax64 o | andOp o | andOp64 o | orOp o | orOp64 o | xorOp o | xorOp64 o | andn o | andn64 o
  | shl o | shl64 o | shr o | shr64 o | sar o | sar64 o | rol o | rol64 o => cases hF; exact retires_intBin rfl h
  | iabs o | iabs64 o | ineg o | ineg64 o | notOp o | notOp64 o | popc o | popc64 o | clz o | clz64 o | ctz o | ctz64 o | brev o
  | brev64 o | movOp o | movOp64 o => cases hF; exact retires_intUn rfl h
  | imad o | imad64 o => cases hF; exact ⟨_, intMad_of_goes h⟩
  | bfx o => cases hF; exact retires_intField (exec_bfx o s) h
  | bfx64 o => cases hF; exact retires_intField (exec_bfx64 o s) h
  | bfi o => cases hF; exact retires_intField (exec_bfi o s) h
  | bfi64 o => cases hF; exact retires_intField (exec_bfi64 o s) h
  | selOp o | selOp64 o => cases hF; exact ⟨_, intSel_of_goes h⟩
  | movi o | movi64 o => cases hF; exact ⟨_, intMovi_of_goes h⟩
  | fadd o | fsub o | fmul o | fmin o | fmax o | fscale o => cases hF; exact retires_fpBin rfl h
  | hadd2 o | hmul2 o => cases hF; exact retires_hBin rfl h
  | ffma o => cases hF; exact retires_fpTri rfl h
  | hfma2 o => cases hF; exact ⟨_, execHfma2_of_goes h⟩
  | fclass o => cases hF; exact retires_fpUn (exec_fclass o s) h
  | ffloor o | fceil o | ftrunc o | frint o | frcp o | frsq o | fsqrt o | fex2 o | flg2 o | fsin o | fcos o | ftanh o =>
    cases hF; exact retires_fpUn rfl h
  | cvt o => cases hF; exact ⟨_, execCvt_of_goes h⟩
  | qntE4m3 o | qntE5m2 o | qntE2m1 o | qntI8 o | qntT2 o => cases hF; exact retires_quantise rfl h
  | dqnt o => cases hF; exact ⟨_, execDqnt_of_goes h⟩
  | shfl o => cases hF; exact ⟨_, execShfl_of_goes h hr⟩
  | red o => cases hF; exact ⟨_, (execRed_of_goes h).1⟩
  | scan o => cases hF; exact ⟨_, (execRed_of_goes h).2⟩
  | ballot o => cases hF; exact ⟨_, compute_of_goes (regs := []) h fun _ act l => (BitVec.ofNat 64 (ballotMask act o.p o.part l.pos), 0)⟩
  | regionOp o => cases hF; exact ⟨_, compute_of_goes (regs := []) h fun _ _ l => (l.f.regcnt.setWidth 64, 0)⟩
  | _ => cases hF

end

/-- Settles O36: each lane form writes its results at its destination, and the frame of that write is one fact. -/
theorem laneFormFrame : Obligations.LaneFormFrame := by
  intro ins F s i v hF h hr
  obtain ⟨g, hg⟩ := retires_of_laneForm hF h hr
  obtain ⟨ht, hrd, htag, hj, w, hw, hkeep⟩ :=
    retire_frame (w := F.wd) (d := F.d) F.words ((s.active v F.c.g).map fun l => (l, g l)) h.2.1
  refine ⟨_, w, hg, hw, ht, fun a ha => hrd a fun x hx => ?_, fun a ha => htag a fun x hx b hb => ?_, hj, hkeep⟩ <;>
    obtain ⟨l, hl, rfl⟩ := List.mem_map.1 hx
  · rw [← F.writes_iff, ha l hl]
    exact Bool.false_ne_true
  · exact ha l hl b ((F.writes_iff l b).2 hb)

end Sys2Proof.Machine

/-! SUPPORT. What lane results read as, and the frames of comparisons and stores (R4, R152, R178, R189, R220, R222). -/

namespace Sys2Proof.Machine

/-! ## Words at distinct addresses -/

/-- Words written one after another. -/
def State.wrWords (s : State) (l : List (Nat × Word)) : State := l.foldl (fun t x => t.wr32 x.1 x.2) s

section
variable {s : State} {l : List (Nat × Word)}

theorem rd32_wrWords_of_notMem {a : Nat} (ha : a % 4 = 0) (hl : ∀ x ∈ l, x.1 % 4 = 0) (h : a ∉ l.map (·.1)) :
    (s.wrWords l).rd32 a = s.rd32 a := by
  induction l generalizing s with
  | nil => rfl
  | cons x r ih =>
    rw [List.map_cons, List.mem_cons, not_or] at h
    have hx := hl x List.mem_cons_self
    have hr : ∀ y ∈ r, y.1 % 4 = 0 := fun y hy => hl y (List.mem_cons_of_mem _ hy)
    have hne : a ≠ x.1 := h.1
    exact (ih hr h.2).trans (rd32_wr32_out x.2 (by omega))

theorem rd32_wrWords_of_mem (hl : ∀ x ∈ l, x.1 % 4 = 0) (hn : (l.map (·.1)).Nodup) {x : Nat × Word} (hx : x ∈ l) :
    (s.wrWords l).rd32 x.1 = x.2 := by
  induction l generalizing s with
  | nil => cases hx
  | cons y r ih =>
    obtain ⟨hy, hr⟩ := List.nodup_cons.1 hn
    have hr' : ∀ z ∈ r, z.1 % 4 = 0 := fun z hz => hl z (List.mem_cons_of_mem _ hz)
    rcases List.mem_cons.1 hx with rfl | hx
    · exact (rd32_wrWords_of_notMem (hl _ List.mem_cons_self) hr' hy).trans (rd32_wr32 _ _)
    · exact ih hr' hr hx

end

/-- Reading words depends on the bytes alone. -/
theorem rd32_congr {s t : State} (h : t.mem = s.mem) (a : Addr) : t.rd32 a = s.rd32 a := by
  simp only [State.rd32, State.rdNat, State.rdBytes, State.rd8, h]

theorem retire_mem (s : State) (i : Nat) (w : Bool) (d : VDst) (words : Nat) (r : List (Ln × DWord × BitVec 8)) :
    (s.retire i w d words r).mem = (s.dsts i w d (r.map fun x => (x.1, x.2.1))).mem := by
  obtain ⟨cs, k, h⟩ := advance_ex (s := (s.dsts i w d (r.map fun x => (x.1, x.2.1))).setFlags i (orFlags (r.map fun x => x.2.2))) (c := i) words
  rw [State.retire, h]
  rfl

/-- The words that a result of a lane fills in its registers. -/
def dstWords (w : Bool) (n : Nat) (x : Ln × DWord) : List (Nat × Word) :=
  if w then [(x.1.f.reg n, x.2.setWidth 32), (x.1.f.reg (n + 1), x.2.extractLsb' 32 32)] else [(x.1.f.reg n, x.2.setWidth 32)]

theorem wrWords_dstWords (s : State) (w : Bool) (n : Nat) (x : Ln × DWord) :
    s.wrWords (dstWords w n x) = if w then s.wrV64 x.1.f n x.2 else s.wrV x.1.f n (x.2.setWidth 32) := by
  cases w
  · rw [dstWords, if_neg Bool.false_ne_true, State.wrWords, List.foldl_cons, List.foldl_nil, if_neg Bool.false_ne_true, State.wrV]
  · rw [dstWords, if_pos rfl, State.wrWords, List.foldl_cons, List.foldl_cons, List.foldl_nil, if_pos rfl, State.wrV64, State.wrV, State.wrV]

theorem dst_eq_wrWords (s : State) (i : Nat) (w : Bool) (n : BitVec 8) (x : Ln × DWord) :
    s.dst i x.1 w (.v n) x.2 = s.wrWords (dstWords w n.toNat x) := by
  rw [wrWords_dstWords, State.dst]

theorem dsts_eq_wrWords (s : State) (i : Nat) (w : Bool) (n : BitVec 8) (r : List (Ln × DWord)) :
    s.dsts i w (.v n) r = s.wrWords (r.flatMap (dstWords w n.toNat)) := by
  show r.foldl (fun t x => t.dst i x.1 w (.v n) x.2) s = _
  induction r generalizing s with
  | nil => rfl
  | cons x r ih => rw [List.foldl_cons, ih, dst_eq_wrWords, List.flatMap_cons, State.wrWords, State.wrWords, State.wrWords, List.foldl_append]

theorem dstWords_aligned {w : Bool} {n : Nat} {r : List (Ln × DWord)} : ∀ y ∈ r.flatMap (dstWords w n), y.1 % 4 = 0 := by
  intro y hy
  obtain ⟨x, -, hx⟩ := List.mem_flatMap.1 hy
  cases w
  · obtain rfl := List.mem_singleton.1 hx
    exact reg_mod _ _
  · rcases List.mem_pair.1 hx with rfl | rfl <;> exact reg_mod _ _

/-- What a register reads once results are retired to it. -/
theorem rdV_retire {s : State} {i words : Nat} {w : Bool} {n : BitVec 8} {r : List (Ln × DWord × BitVec 8)}
    (hn : (((r.map fun x => (x.1, x.2.1)).flatMap (dstWords w n.toNat)).map (·.1)).Nodup) {x : Ln × DWord × BitVec 8} (hx : x ∈ r)
    {y : Nat × Word} (hy : y ∈ dstWords w n.toNat (x.1, x.2.1)) : (s.retire i w (.v n) words r).rd32 y.1 = y.2 := by
  have hm : y ∈ (r.map fun x => (x.1, x.2.1)).flatMap (dstWords w n.toNat) :=
    List.mem_flatMap.2 ⟨_, List.mem_map_of_mem hx, hy⟩
  rw [rd32_congr (retire_mem s i w (.v n) words r), dsts_eq_wrWords]
  exact rd32_wrWords_of_mem dstWords_aligned hn hm

theorem halves_append (x : DWord) : x.extractLsb' 32 32 ++ x.setWidth 32 = x := by
  have h := BitVec.extractLsb'_append_extractLsb'_eq_extractLsb' (x := x) (start₂ := 32) (start₁ := 0) (len₁ := 32) (len₂ := 32) rfl
  rw [show x.setWidth 32 = x.extractLsb' 0 32 from BitVec.setWidth_eq_extractLsb' (by decide), h]
  exact BitVec.extractLsb'_eq_self

/-! ## Latches (R152) -/

theorem latchIdx_inj {p q : Nat} {n : BitVec 2} {h k : Bool} : latchIdx p n h = latchIdx q n k ↔ p = q ∧ h = k := by
  have hn : n.toNat < 4 := n.isLt
  cases h <;> cases k <;> simp only [latchIdx, Bool.false_eq_true, if_false, if_true] <;>
    constructor <;> simp <;> omega

/-- What a result of a lane leaves in the table of latches. -/
def latchPut (w : Bool) (n : BitVec 2) (t : Tbl Word) (x : Ln × DWord) : Tbl Word :=
  let low := tput t (latchIdx x.1.pos n false) (x.2.setWidth 32)
  if w then tput low (latchIdx x.1.pos n true) (x.2.extractLsb' 32 32) else low

section
variable {w : Bool} {n : BitVec 2} {t : Tbl Word} {r : List (Ln × DWord)}

theorem tget_latchPut_out {x : Ln × DWord} {p : Nat} {h : Bool} (hp : p ≠ x.1.pos) :
    tget (latchPut w n t x) (latchIdx p n h) = tget t (latchIdx p n h) := by
  have hne : ∀ k, latchIdx p n h ≠ latchIdx x.1.pos n k := fun k he => hp (latchIdx_inj.1 he).1
  cases w
  · exact tget_tput_ne (hne false)
  · exact (tget_tput_ne (hne true)).trans (tget_tput_ne (hne false))

theorem tget_latchPut_low {x : Ln × DWord} : tget (latchPut w n t x) (latchIdx x.1.pos n false) = some (x.2.setWidth 32) := by
  have hne : latchIdx x.1.pos n false ≠ latchIdx x.1.pos n true := fun he => Bool.false_ne_true (latchIdx_inj.1 he).2
  cases w
  · exact tget_tput
  · exact (tget_tput_ne hne).trans tget_tput

theorem tget_latchPut_high {x : Ln × DWord} : tget (latchPut w n t x) (latchIdx x.1.pos n true) =
    if w then some (x.2.extractLsb' 32 32) else tget t (latchIdx x.1.pos n true) := by
  have hne : latchIdx x.1.pos n true ≠ latchIdx x.1.pos n false := fun he => Bool.false_ne_true (latchIdx_inj.1 he).2.symm
  cases w
  · exact tget_tput_ne hne
  · exact tget_tput

theorem tget_latchPuts_out {p : Nat} {h : Bool} (hp : p ∉ r.map fun x => x.1.pos) :
    tget (r.foldl (latchPut w n) t) (latchIdx p n h) = tget t (latchIdx p n h) := by
  induction r generalizing t with
  | nil => rfl
  | cons x r ih =>
    rw [List.map_cons, List.mem_cons, not_or] at hp
    exact (ih hp.2).trans (tget_latchPut_out hp.1)

/-- Both halves of a lane's latch, after the results of lanes at distinct positions. -/
theorem tget_latchPuts (hn : (r.map fun x => x.1.pos).Nodup) {x : Ln × DWord} (hx : x ∈ r) :
    tget (r.foldl (latchPut w n) t) (latchIdx x.1.pos n false) = some (x.2.setWidth 32) ∧
    tget (r.foldl (latchPut w n) t) (latchIdx x.1.pos n true) =
      if w then some (x.2.extractLsb' 32 32) else tget t (latchIdx x.1.pos n true) := by
  induction r generalizing t with
  | nil => cases hx
  | cons y r ih =>
    obtain ⟨hy, hr⟩ := List.nodup_cons.1 hn
    rcases List.mem_cons.1 hx with rfl | hx
    · exact ⟨(tget_latchPuts_out hy).trans tget_latchPut_low, (tget_latchPuts_out hy).trans tget_latchPut_high⟩
    · have hne : x.1.pos ≠ y.1.pos := fun he => hy (List.mem_map.2 ⟨x, hx, he⟩)
      obtain ⟨h1, h2⟩ := ih (t := latchPut w n t y) hr hx
      exact ⟨h1, h2.trans (by rw [tget_latchPut_out hne])⟩

end

/-- The convoy once results stand in its latch. -/
theorem dsts_latch {s : State} {i : Nat} {v : Convoy} (w : Bool) (n : BitVec 2) (r : List (Ln × DWord)) (hv : tget s.convoys i = some v) :
    tget (s.dsts i w (.b n) r).convoys i =
      some { v with latch := r.foldl (latchPut w n) v.latch, latw := v.latw ||| (1#4 <<< n.toNat) } := by
  have hfold : ∀ (t : State) {u : Convoy}, tget t.convoys i = some u →
      tget (r.foldl (fun s x => s.dst i x.1 w (.b n) x.2) t).convoys i = some { u with latch := r.foldl (latchPut w n) u.latch } := by
    induction r with
    | nil => exact fun t u hu => hu
    | cons x r ih =>
      intro t u hu
      have hx : tget (t.dst i x.1 w (.b n) x.2).convoys i = some { u with latch := latchPut w n u.latch x } := by
        rw [State.dst, modConvoy_get, hu]; rfl
      exact ih _ hx
  have hmark : tget (s.markLatch i (.b n)).convoys i = some { v with latw := v.latw ||| (1#4 <<< n.toNat) } := by
    rw [State.markLatch, modConvoy_get, hv]; rfl
  exact hfold _ hmark

theorem latw_set (latw : BitVec 4) (n : BitVec 2) : (latw ||| (1#4 <<< n.toNat)).getLsbD n.toNat = true := by
  revert latw n; decide

/-- Settles O37: words at distinct addresses, and latches at distinct positions, read as they were written. -/
theorem retireWrites : Obligations.RetireWrites := by
  refine ⟨fun s i n words r => ⟨fun hn x hx => ?_, fun hn x hx => ?_⟩, fun s i v n r hv hn x hx => ?_⟩
  · have hn : (((r.map fun x => (x.1, x.2.1)).flatMap (dstWords false n.toNat)).map (·.1)).Nodup := by
      simpa [dstWords, List.flatMap_map, List.map_flatMap, ← List.map_eq_flatMap, Function.comp_def] using hn
    exact rdV_retire hn hx (List.mem_singleton.2 rfl)
  · have hn : (((r.map fun x => (x.1, x.2.1)).flatMap (dstWords true n.toNat)).map (·.1)).Nodup := by
      simpa [dstWords, List.flatMap_map, List.map_flatMap] using hn
    have hlow := rdV_retire (s := s) (i := i) (words := words) hn hx (List.mem_pair.2 (.inl rfl))
    have hhigh := rdV_retire (s := s) (i := i) (words := words) hn hx (List.mem_pair.2 (.inr rfl))
    exact (congrArg₂ _ hhigh hlow).trans (halves_append _)
  · have hmem : (x.1, x.2.1) ∈ r.map fun y => (y.1, y.2.1) := List.mem_map_of_mem hx
    have hpos : ((r.map fun y => (y.1, y.2.1)).map fun y => y.1.pos).Nodup := by simpa [Function.comp_def] using hn
    constructor
    · obtain ⟨hlow, hhigh⟩ := tget_latchPuts (w := true) (n := n) (t := v.latch) hpos hmem
      refine ⟨_, dsts_latch true n _ hv, latw_set _ _, ?_⟩
      simp only [State.rdLatch, State.rdHalf, hlow, hhigh, if_true, Option.getD_some]
      exact halves_append _
    · obtain ⟨hlow, hhigh⟩ := tget_latchPuts (w := false) (n := n) (t := v.latch) hpos hmem
      refine ⟨_, dsts_latch false n _ hv, latw_set _ _, ?_, ?_⟩
      · simp only [State.rdHalf, hlow, Option.getD_some]
      · simp only [State.rdHalf, hhigh, Bool.false_eq_true, if_false]

end Sys2Proof.Machine

/-! SUPPORT. The frames of comparisons and stores (R189, R193, R220, R222). -/

namespace Sys2Proof.Machine

/-! ## Predicates -/

/-- A fibre with a predicate written. -/
def Fibre.setP (f : Fibre) (p : BitVec 3) (v : Bool) : Fibre :=
  { f with pred := if v then f.pred ||| (1#8 <<< p.toNat) else f.pred &&& ~~~(1#8 <<< p.toNat) }

theorem rdP_setP (f : Fibre) (p q : BitVec 3) (v : Bool) : (f.setP p v).rdP q = if q = p then v else f.rdP q := by
  have hq : q.toNat < 8 := q.isLt
  have hp : p.toNat < 8 := p.isLt
  have hbit : (1#8 <<< p.toNat).getLsbD q.toNat = decide (q = p) := by
    rw [BitVec.getLsbD_shiftLeft, BitVec.getLsbD_one, decide_eq_true hq, Bool.true_and]
    by_cases h : q = p
    · simp [h]
    · have : q.toNat ≠ p.toNat := fun he => h (BitVec.eq_of_toNat_eq he)
      simp [h]
      omega
  by_cases h : q = p <;> cases v <;>
    simp [-BitVec.getLsbD_eq_getElem, Fibre.rdP, Fibre.setP, hbit, h, hp, hq, BitVec.getLsbD_and, BitVec.getLsbD_or, BitVec.getLsbD_not]

section
variable {s : State} {p : BitVec 3} {r : List (Ln × Bool × BitVec 8)}

/-- Predicates written in some lanes. -/
def State.wrPs (s : State) (p : BitVec 3) (r : List (Ln × Bool × BitVec 8)) : State := r.foldl (fun s x => s.wrP x.1.id p x.2.1) s

theorem wrPs_ex : ∃ fs, s.wrPs p r = { s with fibres := fs } := by
  induction r generalizing s with
  | nil => exact ⟨s.fibres, rfl⟩
  | cons x r ih =>
    obtain ⟨fs, h⟩ := ih (s := s.wrP x.1.id p x.2.1)
    exact ⟨fs, h⟩

theorem wrPs_get_of_notMem {j : Nat} (h : j ∉ r.map fun x => x.1.id) : tget (s.wrPs p r).fibres j = tget s.fibres j := by
  induction r generalizing s with
  | nil => rfl
  | cons x r ih =>
    rw [List.map_cons, List.mem_cons, not_or] at h
    exact (ih h.2).trans (modFibre_get_ne _ h.1)

theorem wrPs_get_of_mem (hn : (r.map fun x => x.1.id).Nodup) {x : Ln × Bool × BitVec 8} (hx : x ∈ r) {f : Fibre}
    (hf : tget s.fibres x.1.id = some f) : tget (s.wrPs p r).fibres x.1.id = some (f.setP p x.2.1) := by
  induction r generalizing s with
  | nil => cases hx
  | cons y r ih =>
    obtain ⟨hy, hr⟩ := List.nodup_cons.1 hn
    rcases List.mem_cons.1 hx with rfl | hx
    · refine (wrPs_get_of_notMem hy).trans ?_
      exact (modFibre_get _ _).trans (by rw [hf]; rfl)
    · have hne : x.1.id ≠ y.1.id := fun he => hy (List.mem_map.2 ⟨x, hx, he⟩)
      exact ih hr hx ((modFibre_get_ne _ hne).trans hf)

end

/-- Settles O38: predicates in distinct fibres, then flags and the next word. -/
theorem compareFrame : Obligations.CompareFrame := by
  intro s i v c p words res hv hn t
  have hids : (((s.active v c.g).map fun l => (l, res l)).map fun x => x.1.id) = (s.active v c.g).map (·.id) := by
    rw [List.map_map]; rfl
  obtain ⟨fs, hp⟩ := wrPs_ex (s := s) (p := p) (r := (s.active v c.g).map fun l => (l, res l))
  obtain ⟨cs, k, ha⟩ := advance_ex (s := (s.wrPs p ((s.active v c.g).map fun l => (l, res l))).setFlags i
    (orFlags (((s.active v c.g).map fun l => (l, res l)).map fun x => x.2.2))) (c := i) words
  have ht : t = { s with fibres := fs, convoys := cs, free := s.free + 1, host := { s.host with counters := k } } := by
    rw [show t = _ from ha, State.setFlags, hp]
  have hfib : t.fibres = (s.wrPs p ((s.active v c.g).map fun l => (l, res l))).fibres := by rw [ht, hp]
  have hconv : ∀ j, tget ((s.wrPs p ((s.active v c.g).map fun l => (l, res l))).setFlags i
      (orFlags (((s.active v c.g).map fun l => (l, res l)).map fun x => x.2.2))).convoys j =
      tget (s.setFlags i (orFlags (((s.active v c.g).map fun l => (l, res l)).map fun x => x.2.2))).convoys j := fun j => by rw [hp]; rfl
  refine ⟨by rw [ht], fun j hj => ?_, fun l hl hf => ?_, fun j hj => ?_, ?_⟩
  · rw [hfib]
    refine wrPs_get_of_notMem fun hm => ?_
    rw [hids] at hm
    obtain ⟨l, hl, he⟩ := List.mem_map.1 hm
    exact hj l hl he
  · have hget := wrPs_get_of_mem (p := p) (by rw [hids]; exact hn) (List.mem_map_of_mem (f := fun l => (l, res l)) hl) hf
    refine ⟨_, by rw [hfib]; exact hget, rfl, (rdP_setP _ _ _ _).trans (if_pos rfl), fun q hq => (rdP_setP _ _ _ _).trans (if_neg hq)⟩
  · rw [show t = State.advance _ i words from rfl, advance_get_ne words hj]
    exact (hconv j).trans (tget_tmod_ne _ hj)
  · obtain ⟨y, hy, -, -, -, hfibs, hu, -⟩ := advance_get words ((hconv i).trans (by rw [State.setFlags, tget_tmod, hv]; rfl))
    exact ⟨y, hy, hu, hfibs⟩

/-! ## Stores -/

/-- A change of bytes and tags within n bytes at some addresses, and of what SPs hold of writes. -/
def StoresAt (n : Nat) (as : List Nat) (s t : State) : Prop :=
  (∃ m g ps, t = { s with mem := m, tags := g, sps := ps }) ∧
  (∀ a : Nat, (∀ x ∈ as, a < x ∨ x + n ≤ a) → t.rd8 a = s.rd8 a) ∧
  (∀ a : Nat, (∀ x ∈ as, granule a ∉ granules x n) → t.tagAt a = s.tagAt a) ∧ ∀ p, (s.sp p).Stored (t.sp p)

section
variable {s t u : State} {n : Nat} {as bs : List Nat}

theorem storesAt_refl : StoresAt n as s s := ⟨⟨s.mem, s.tags, s.sps, rfl⟩, fun _ _ => rfl, fun _ _ => rfl, fun _ => Sp.stored_refl _⟩

theorem StoresAt.trans (h : StoresAt n as s t) (h' : StoresAt n bs t u) : StoresAt n (as ++ bs) s u := by
  obtain ⟨⟨m, g, ps, rfl⟩, hm, hg, hp⟩ := h
  obtain ⟨⟨m', g', ps', rfl⟩, hm', hg', hp'⟩ := h'
  exact ⟨⟨m', g', ps', rfl⟩,
    fun a ha => (hm' a fun x hx => ha x (List.mem_append_right _ hx)).trans (hm a fun x hx => ha x (List.mem_append_left _ hx)),
    fun a ha => (hg' a fun x hx => ha x (List.mem_append_right _ hx)).trans (hg a fun x hx => ha x (List.mem_append_left _ hx)),
    fun p => Sp.stored_trans _ _ _ (hp p) (hp' p)⟩

theorem storesAt_foldl {α : Type} {f : State → α → State} {at_ : α → Nat} (h : ∀ s x, StoresAt n [at_ x] s (f s x)) (l : List α)
    (s : State) : StoresAt n (l.map at_) s (l.foldl f s) := by
  induction l generalizing s with
  | nil => exact storesAt_refl
  | cons x r ih => exact (h s x).trans (ih _)

/-- A change of SPs alone of that kind stores nothing. -/
theorem SpsOnly.storesAt (h : SpsOnly Sp.Stored s t) : StoresAt n [] s t := by
  obtain ⟨⟨ps, rfl⟩, hp⟩ := h
  exact ⟨⟨s.mem, s.tags, ps, rfl⟩, fun _ _ => rfl, fun _ _ => rfl, hp⟩

theorem spsOnly_drainAt (who : Option Nat) (a k : Nat) : SpsOnly Sp.Drained s (s.drainAt who a k) := by
  unfold State.drainAt
  split
  · refine spsOnly_foldl Sp.drained_refl Sp.drained_trans (fun s i => ?_) _ s
    unfold State.drainSp
    split
    · exact spsOnly_refl Sp.drained_refl _
    · exact spsOnly_modSp Sp.drained_refl (by exact rfl)
  · exact spsOnly_refl Sp.drained_refl s

theorem spsOnly_queueWrite (spn who a k : Nat) : SpsOnly Sp.Drained s (s.queueWrite spn who a k) := by
  unfold State.queueWrite
  split
  · exact spsOnly_refl Sp.drained_refl s
  · exact spsOnly_modSp Sp.drained_refl (by exact rfl)

theorem spsOnly_logWrite (a k : Nat) : SpsOnly Sp.Stored s (s.logWrite a k) := by
  obtain ⟨ps, h, hp⟩ := logWrite_ex (s := s) a k
  exact ⟨⟨ps, h⟩, fun p => by rw [hp p]; exact rfl⟩

theorem spsOnly_wakeAll (r : List (Addr × Addr × Bool)) : SpsOnly Sp.Stored s (s.wakeAll r) := by
  refine spsOnly_foldl Sp.stored_refl Sp.stored_trans (fun s x => ?_) r s
  unfold State.wakeRange
  split
  · exact spsOnly_refl Sp.stored_refl s
  · refine spsOnly_foldl Sp.stored_refl Sp.stored_trans (fun s b => ?_) _ s
    unfold State.wakeFor State.wakeSp
    repeat' split
    · exact spsOnly_refl Sp.stored_refl s
    · exact spsOnly_modSp Sp.stored_refl (by exact rfl)
    · exact spsOnly_refl Sp.stored_refl s

/-- What a write of a fibre does before its bytes change (R125, R389). -/
theorem spsOnly_beforeStore (spn who a k : Nat) :
    SpsOnly Sp.Stored s (((s.drainAt (some who) a k).queueWrite spn who a k).logWrite a k) :=
  spsOnly_trans Sp.stored_trans (((spsOnly_drainAt _ a k).imp Sp.Drained.stored))
    (spsOnly_trans Sp.stored_trans ((spsOnly_queueWrite spn who a k).imp Sp.Drained.stored) (spsOnly_logWrite a k))

theorem storesAt_wrBytes (a : Nat) (l : List Byte) : StoresAt l.length [a] s (s.wrBytes a l) :=
  ⟨⟨_, _, s.sps, wrBytes_eq l⟩, fun _ h => rd8_wrBytes_out (h a (List.mem_singleton_self a)),
    fun _ h => tagAt_wrBytes_out (h a (List.mem_singleton_self a)), fun p => by rw [wrBytes_eq]; exact rfl⟩

theorem storesAt_wrCap (a : Nat) (k : Cap) : StoresAt 16 [a] s (s.wrCap a k) := by
  have hl : (leBytes 16 k.bits.toNat).length = 16 := length_leBytes ..
  obtain ⟨m, hm⟩ : ∃ m, s.wrRaw a (leBytes 16 k.bits.toNat) = { s with mem := m } := ⟨_, wrRaw_eq _⟩
  have he : s.wrCap a k = ({ s with mem := m } : State).setTag a k.tag := by rw [State.wrCap, hm]
  refine ⟨⟨m, _, s.sps, he⟩, fun b h => ?_, fun b h => ?_, fun p => by rw [he]; exact rfl⟩
  · rw [State.wrCap, rd8_setTag]
    exact rd8_wrRaw_out (by rw [hl]; exact h a (List.mem_singleton_self a))
  · refine (tagAt_setTag _).trans ((if_neg fun he => h a (List.mem_singleton_self a) ?_).trans (tagAt_wrRaw _))
    exact granule_mem_granules.2 ⟨0, by omega, he.symm⟩

theorem storesAt_storeBy (spn who a : Nat) (l : List Byte) : StoresAt l.length [a] s (s.storeBy spn who a l) :=
  (spsOnly_beforeStore spn who a l.length).storesAt.trans (storesAt_wrBytes a l)

theorem storesAt_storeCapBy (spn who a : Nat) (k : Cap) : StoresAt 16 [a] s (s.storeCapBy spn who a k) :=
  (spsOnly_beforeStore spn who a 16).storesAt.trans (storesAt_wrCap a k)

theorem stBytes_length (v : Convoy) (l : Ln) (lit : DWord) (sz : Sz) (a : VSrc) : (s.stBytes v l lit sz a).length = szBytes sz := by
  unfold State.stBytes
  split
  · simp [State.rdBytes, szBytes]
  · exact length_leBytes ..

/-- A form that stores, moves on and wakes what it reached (R319). -/
theorem stored_frame {i : Nat} {v : Convoy} (hv : tget s.convoys i = some v) (h : StoresAt n as s t) (words : Nat)
    (wk : List (Addr × Addr × Bool)) :
    let u := (t.advance i words).wakeAll wk
    u = { s with mem := u.mem, tags := u.tags, convoys := u.convoys, sps := u.sps, free := s.free + 1,
                 host := { s.host with counters := u.host.counters } } ∧
      (∀ a : Nat, (∀ x ∈ as, a < x ∨ x + n ≤ a) → u.rd8 a = s.rd8 a) ∧
      (∀ a : Nat, (∀ x ∈ as, granule a ∉ granules x n) → u.tagAt a = s.tagAt a) ∧
      (∀ p, (s.sp p).Stored (u.sp p)) ∧ (∀ j, j ≠ i → tget u.convoys j = tget s.convoys j) ∧
      ∃ w, tget u.convoys i = some w ∧ w.u = v.u ∧ w.fib = v.fib ∧ w.fpstat = v.fpstat := by
  intro u
  obtain ⟨⟨m, g, ps, rfl⟩, hm, hg, hp⟩ := h
  obtain ⟨w, hw, -, -, -, hfib, hu, -, hfp⟩ := advance_get words (s := { s with mem := m, tags := g, sps := ps }) hv
  obtain ⟨cs, k, ha⟩ := advance_ex (s := { s with mem := m, tags := g, sps := ps }) (c := i) words
  obtain ⟨⟨ps', hwk⟩, hpk⟩ := spsOnly_wakeAll (s := State.advance { s with mem := m, tags := g, sps := ps } i words) wk
  have hue : u = { s with mem := m, tags := g, sps := ps', convoys := cs, free := s.free + 1, host := { s.host with counters := k } } := by
    rw [show u = _ from hwk, ha]
  have hc : u.convoys = (State.advance { s with mem := m, tags := g, sps := ps } i words).convoys := by rw [show u = _ from hwk]
  refine ⟨by rw [hue], fun a h => ?_, fun a h => ?_, fun p => ?_, fun j hj => ?_, w, by rw [hc]; exact hw, hu, hfib, hfp⟩
  · rw [hue]; exact hm a h
  · rw [hue]; exact hg a h
  · refine Sp.stored_trans _ _ _ (hp p) ?_
    have hsp := hpk p
    rw [hwk, ha] at hsp
    rw [hue]
    exact hsp
  · rw [hc]; exact advance_get_ne words hj

end

/-- Settles O39: each lane stores at its address, and nothing else is written. -/
theorem storeFrame : Obligations.StoreFrame := by
  intro s i v m q ls k r rq frame
  have key : ∀ (t : State) (n words : Nat) (r : List LaneAcc) (wk : List (Addr × Addr × Bool)), tget s.convoys i = some v →
      StoresAt n (r.map fun x => x.a) s t → frame ((t.advance i words).wakeAll wk) n r := by
    intro t n words r wk hv h
    obtain ⟨he, hm, hg, hp, hc, hw⟩ := stored_frame hv h words wk
    refine ⟨he, fun a ha => hm a ?_, fun a ha => hg a ?_, hp, hc, hw⟩
    · intro x hx
      obtain ⟨y, hy, rfl⟩ := List.mem_map.1 hx
      exact ha y hy
    · intro x hx
      obtain ⟨y, hy, rfl⟩ := List.mem_map.1 hx
      exact ha y hy
  refine ⟨fun h hok hheld hroom => ⟨_, execSt_of_goes h hok hheld hroom, key _ _ _ _ _ h.2.1 ?_⟩,
    fun h hok hheld hroom => ⟨_, execStk_of_goes h hok hheld hroom, key _ _ _ _ _ h.2.1 ?_⟩⟩
  · refine storesAt_foldl (fun t x => ?_) r s
    have hl := stBytes_length (s := s) v x.l ls.1 m.sz m.a
    rw [show k = _ from hl.symm]
    exact storesAt_storeBy ..
  · exact storesAt_foldl (fun t x => storesAt_storeCapBy ..) rq s

end Sys2Proof.Machine

/-! SUPPORT. Capabilities: the fields of what a derivation writes, the least exponent of a range, the check of a use, and the entry of a
range into the revocation set (R45–R55, R68, R229–R233, R267). -/

namespace Sys2Proof.Machine

/-! ## The check of a use (R55, R421) -/

theorem firstCause_eq_none {l : List (Bool × Nat)} : firstCause l = none ↔ ∀ x ∈ l, x.1 = false := by
  induction l with
  | nil => simp [firstCause]
  | cons x r ih =>
    obtain ⟨bad, n⟩ := x
    cases bad <;> simp [firstCause, ih]

theorem capCause_eq_none {s : State} {colour : Nat} {c : Cap} {u : Use} {o n : Nat} :
    s.capCause colour c u o n = none ↔
      c.tag = true ∧ c.kind ∈ u.kinds ∧ (c.isSealed = false ∨ u.sealOk = true) ∧ c.colour.toNat = colour ∧
        c.gen = s.gen c.colour.toNat ∧ s.caught c = false ∧ c.perms &&& u.perms = u.perms ∧ o + n ≤ c.len := by
  rw [State.capCause, firstCause_eq_none]
  simp [Cap.has, Cap.inBounds]
  cases c.isSealed <;> simp

/-- Settles O15: the lowest failing cause is none exactly when no test fails. -/
theorem useCheck : Obligations.UseCheck := fun _ _ _ _ _ _ => capCause_eq_none

/-! ## The fields of a capability that is written -/

section
variable (kind : BitVec 4) (sl : Bool) (otype colour : BitVec 12) (gen : BitVec 8) (perms : BitVec 16) (e : BitVec 6) (m : BitVec 17)
  (base : BitVec 52) (t : Bool)

/-- Reading a field of written bits gives what was written there. -/
@[simp] theorem capBits_fields : Cap.kind ⟨capBits kind sl otype colour gen perms e m base, t⟩ = kind ∧
    Cap.colour ⟨capBits kind sl otype colour gen perms e m base, t⟩ = colour ∧
    Cap.gen ⟨capBits kind sl otype colour gen perms e m base, t⟩ = gen ∧
    Cap.perms ⟨capBits kind sl otype colour gen perms e m base, t⟩ = perms ∧
    Cap.e ⟨capBits kind sl otype colour gen perms e m base, t⟩ = e ∧
    Cap.m ⟨capBits kind sl otype colour gen perms e m base, t⟩ = m ∧
    Cap.base ⟨capBits kind sl otype colour gen perms e m base, t⟩ = base := by
  simp (disch := decide) only [Cap.kind, Cap.colour, Cap.gen, Cap.perms, Cap.e, Cap.m, Cap.base, capBits, append_bits, Nat.reduceSub,
    BitVec.extractLsb'_eq_self, and_self]

end

/-! ## Derivations (R50, R229–R233) -/

/-- What R50 asks of a derived capability, beside its being as R46 says. -/
def Cap.NarrowerThan (n k : Cap) : Prop :=
  k.lo ≤ n.lo ∧ n.lo + n.len ≤ k.lo + k.len ∧ n.perms &&& k.perms = n.perms ∧ n.kind = k.kind ∧ n.colour = k.colour ∧ n.gen = k.gen

section
variable {s : State} {k n : Cap}

theorem derive_tagged {ok : Bool} {bits : BitVec 128} (h : (s.derive k ok bits).tag = true) :
    k.tag = true ∧ s.caught k = false ∧ ok = true ∧ s.derive k ok bits = ⟨bits, true⟩ := by
  unfold State.derive at h ⊢
  split at h
  · rename_i hc
    simp only [Bool.and_eq_true, Bool.not_eq_true'] at hc
    obtain ⟨⟨ht, hu⟩, ho⟩ := hc
    exact ⟨ht, hu, ho, if_pos (by simp [ht, hu, ho])⟩
  · cases h

/-- A derivation that keeps kind, colour, generation and range, with the permissions or some of them. -/
theorem narrower_of_keeps (hk : k.Wf) (he : n.e = k.e) (hm : n.m = k.m) (hb : n.base = k.base) (hp : n.perms &&& k.perms = n.perms)
    (hr : n.kind = k.kind ∧ n.colour = k.colour ∧ n.gen = k.gen) : n.Wf ∧ n.NarrowerThan k := by
  obtain ⟨h1, h2, h3, h4⟩ := hk
  have hl : n.lo = k.lo := by rw [Cap.lo, Cap.lo, hb]
  have hlen : n.len = k.len := by rw [Cap.len, Cap.len, he, hm]
  refine ⟨⟨by rw [he]; exact h1, by rw [hl, he]; exact h2, by rw [hl, hlen]; exact h3, ?_⟩, Nat.le_of_eq hl.symm,
    Nat.le_of_eq (by rw [hl, hlen]), hp, hr⟩
  rw [← hp, BitVec.and_assoc, h4]
  exact BitVec.and_zero

/-- The least exponent that passes is no greater than any that does, and passes unless it is the last. -/
theorem leastE_spec (ok : Nat → Bool) (f e : Nat) : leastE ok f e ≤ f + e ∧ (ok (leastE ok f e) = true ∨ leastE ok f e = f + e) ∧
    ∀ j, e ≤ j → ok j = true → leastE ok f e ≤ j := by
  induction f generalizing e with
  | zero => exact ⟨by simp [leastE], .inr (by simp [leastE]), fun j hj _ => hj⟩
  | succ f ih =>
    by_cases h : ok e = true
    · have he : leastE ok (f + 1) e = e := by simp [leastE, h]
      rw [he]
      exact ⟨by omega, .inl h, fun j hj _ => hj⟩
    · have he : leastE ok (f + 1) e = leastE ok f (e + 1) := by simp [leastE, h]
      rw [he]
      obtain ⟨h1, h2, h3⟩ := ih (e + 1)
      refine ⟨by omega, h2.imp_right fun h => by omega, fun j hj hok => h3 j ?_ hok⟩
      rcases Nat.lt_or_eq_of_le hj with hlt | rfl
      · exact hlt
      · exact absurd hok h

theorem ceilDiv_mul_le {a b c : Nat} (hb : 0 < b) (hc : c % b = 0) (h : a ≤ c) : ceilDiv a b * b ≤ c := by
  obtain ⟨q, rfl⟩ := Nat.dvd_of_mod_eq_zero hc
  have : ceilDiv a b ≤ q := by
    rw [ceilDiv]
    have := Nat.div_lt_of_lt_mul (m := a + b - 1) (n := b) (k := q + 1) (by rw [Nat.mul_succ]; omega)
    omega
  rw [Nat.mul_comm b q]
  exact Nat.mul_le_mul_right b this

theorem le_ceilDiv_mul {a b : Nat} (hb : 0 < b) : a ≤ ceilDiv a b * b := by
  have h := Nat.div_add_mod (a + b - 1) b
  have := Nat.mod_lt (a + b - 1) hb
  rw [ceilDiv, Nat.mul_comm]
  omega

/-- The exponent that csub takes for [b, en) (R230). -/
def subE (b en : Nat) : Nat := leastE (fun e => decide (ceilDiv en (2 ^ e) - b / 2 ^ e ≤ 2 ^ 17)) 35 0

/-- Within a representable range, the exponent is no greater than the range's own, and what csub gives lies within the range. -/
theorem subE_within {b en lo hi K : Nat} (hK : K ≤ 35) (hlo : lo % 2 ^ K = 0) (hhi : hi % 2 ^ K = 0) (hw : hi ≤ lo + 2 ^ 17 * 2 ^ K)
    (hb : lo ≤ b) (hbe : b < en) (hen : en ≤ hi) :
    subE b en ≤ 35 ∧ b / 2 ^ subE b en < ceilDiv en (2 ^ subE b en) ∧ ceilDiv en (2 ^ subE b en) - b / 2 ^ subE b en ≤ 2 ^ 17 ∧
      lo ≤ b / 2 ^ subE b en * 2 ^ subE b en ∧ ceilDiv en (2 ^ subE b en) * 2 ^ subE b en ≤ hi := by
  have hpos : ∀ e : Nat, 0 < 2 ^ e := fun e => Nat.two_pow_pos e
  obtain ⟨h35, hsome, hleast⟩ := leastE_spec (fun e => decide (ceilDiv en (2 ^ e) - b / 2 ^ e ≤ 2 ^ 17)) 35 0
  have hokK : ceilDiv en (2 ^ K) - b / 2 ^ K ≤ 2 ^ 17 := by
    obtain ⟨q, rfl⟩ := Nat.dvd_of_mod_eq_zero hlo
    have h1 : q ≤ b / 2 ^ K := (Nat.le_div_iff_mul_le (hpos K)).2 (by rw [Nat.mul_comm]; exact hb)
    have h2 : ceilDiv en (2 ^ K) * 2 ^ K ≤ (q + 2 ^ 17) * 2 ^ K :=
      (ceilDiv_mul_le (hpos K) hhi hen).trans (hw.trans_eq (by rw [Nat.add_mul, Nat.mul_comm q]))
    have h3 := Nat.le_of_mul_le_mul_right h2 (hpos K)
    omega
  have hle : subE b en ≤ K := hleast K (Nat.zero_le K) (decide_eq_true hokK)
  have hok : ceilDiv en (2 ^ subE b en) - b / 2 ^ subE b en ≤ 2 ^ 17 := by
    rcases hsome with h | h
    · exact of_decide_eq_true h
    · have : subE b en = K := Nat.le_antisymm hle (hK.trans_eq (show 35 = subE b en from h.symm))
      rw [this]; exact hokK
  have hdvd : 2 ^ subE b en ∣ 2 ^ K := Nat.pow_dvd_pow 2 hle
  refine ⟨h35, ?_, hok, ?_, ceilDiv_mul_le (hpos _) (Nat.mod_eq_zero_of_dvd (hdvd.trans (Nat.dvd_of_mod_eq_zero hhi))) hen⟩
  · refine Nat.lt_of_mul_lt_mul_right (a := 2 ^ subE b en) ?_
    exact (Nat.div_mul_le_self b _).trans_lt (hbe.trans_le (le_ceilDiv_mul (hpos _)))
  · obtain ⟨q, rfl⟩ := hdvd.trans (Nat.dvd_of_mod_eq_zero hlo)
    rw [Nat.mul_comm]
    exact Nat.mul_le_mul_right _ ((Nat.le_div_iff_mul_le (hpos _)).2 (by rw [Nat.mul_comm]; exact hb))

theorem csub_narrows {off len : Nat} (hk : k.Wf) (hoff : 1 ≤ len) (hlen : off + len ≤ k.len)
    (hn : n = ⟨capBits k.kind false 0 k.colour k.gen k.perms (BitVec.ofNat 6 (subE (k.lo + off) (k.lo + off + len)))
      (BitVec.ofNat 17 (ceilDiv (k.lo + off + len) (2 ^ subE (k.lo + off) (k.lo + off + len)) -
        (k.lo + off) / 2 ^ subE (k.lo + off) (k.lo + off + len) - 1))
      (BitVec.ofNat 52 ((k.lo + off) / 2 ^ subE (k.lo + off) (k.lo + off + len) * 2 ^ subE (k.lo + off) (k.lo + off + len))), true⟩) :
    n.Wf ∧ n.NarrowerThan k := by
  obtain ⟨h1, h2, h3, h4⟩ := hk
  have hkl : k.len = (k.m.toNat + 1) * 2 ^ k.e.toNat := rfl
  have hm := k.m.isLt
  obtain ⟨g1, g2, g3, g4, g5⟩ := subE_within (b := k.lo + off) (en := k.lo + off + len) (lo := k.lo) (hi := k.lo + k.len) h1 h2
    (by rw [Nat.add_mod, h2, hkl, Nat.mul_mod_left]; simp)
    (Nat.add_le_add_left (Nat.mul_le_mul_right _ (by omega)) _) (Nat.le_add_right ..) (by omega) (by omega)
  generalize subE (k.lo + off) (k.lo + off + len) = E at *
  generalize hb : (k.lo + off) / 2 ^ E = q at *
  generalize hc : ceilDiv (k.lo + off + len) (2 ^ E) = c at *
  have hqle : q * 2 ^ E < 2 ^ 52 := by
    have : q * 2 ^ E ≤ k.lo + off := by rw [← hb]; exact Nat.div_mul_le_self _ _
    exact this.trans_lt ((Nat.add_lt_add_left (show off < k.len by omega) k.lo).trans_le h3)
  subst hn
  have hlo : Cap.lo ⟨capBits k.kind false 0 k.colour k.gen k.perms (BitVec.ofNat 6 E) (BitVec.ofNat 17 (c - q - 1))
      (BitVec.ofNat 52 (q * 2 ^ E)), true⟩ = q * 2 ^ E := by
    simp only [Cap.lo, capBits_fields, BitVec.toNat_ofNat]
    exact Nat.mod_eq_of_lt hqle
  have hE : (BitVec.ofNat 6 E).toNat = E := Nat.mod_eq_of_lt (by omega)
  have hlen : Cap.len ⟨capBits k.kind false 0 k.colour k.gen k.perms (BitVec.ofNat 6 E) (BitVec.ofNat 17 (c - q - 1))
      (BitVec.ofNat 52 (q * 2 ^ E)), true⟩ = (c - q) * 2 ^ E := by
    have hM : (BitVec.ofNat 17 (c - q - 1)).toNat = c - q - 1 := Nat.mod_eq_of_lt (by omega)
    simp only [Cap.len, capBits_fields, hE, hM]
    congr 1
    omega
  have hend : q * 2 ^ E + (c - q) * 2 ^ E = c * 2 ^ E := by rw [← Nat.add_mul, Nat.add_sub_cancel' g2.le]
  refine ⟨⟨?_, ?_, ?_, ?_⟩, ?_, ?_, ?_, ?_⟩
  · simp only [capBits_fields, hE]; exact g1
  · simp only [capBits_fields, hE, hlo]; exact Nat.mul_mod_left _ _
  · rw [hlo, hlen, hend]; exact g5.trans h3
  · simp only [capBits_fields]; exact h4
  · rw [hlo]; exact g4
  · rw [hlo, hlen, hend]; exact g5
  · simp
  · simp

end

/-- Settles O14: csub narrows the range; the others keep it, with the permissions or some of them. -/
theorem derivationsNarrow : Obligations.DerivationsNarrow := by
  intro s k q n colour off len exact x hk ht hn
  have key : ∀ (ok : Bool) (bits : BitVec 128), n = s.derive k ok bits →
      (ok = true → (⟨bits, true⟩ : Cap).Wf ∧ Cap.NarrowerThan ⟨bits, true⟩ k) → n.Wf ∧ k.tag = true ∧ s.caught k = false ∧ n.NarrowerThan k := by
    intro ok bits he h
    rw [he] at ht
    obtain ⟨hkt, hc, ho, hd⟩ := derive_tagged ht
    rw [hd] at he
    obtain ⟨hw, hna⟩ := h ho
    exact ⟨he ▸ hw, hkt, hc, he ▸ hna⟩
  rcases hn with hn | hn | hn | hn | hn
  · refine key _ _ hn fun ho => ?_
    simp only [Bool.and_eq_true, decide_eq_true_eq] at ho
    obtain ⟨⟨⟨-, h1⟩, h2⟩, -⟩ := ho
    exact csub_narrows hk h1 h2 rfl
  · refine key _ _ hn fun _ => narrower_of_keeps hk (by simp) (by simp) (by simp) ?_ (by simp)
    simp only [capBits_fields]
    rw [BitVec.and_assoc, BitVec.and_assoc, BitVec.and_comm k.perms, BitVec.and_assoc]
    ext i hi
    simp
    cases k.perms[i] <;> simp
  · exact key _ _ hn fun _ => narrower_of_keeps hk (by simp) (by simp) (by simp) (by simp) (by simp)
  · exact key _ _ hn fun _ => narrower_of_keeps hk (by simp) (by simp) (by simp) (by simp) (by simp)
  · exact key _ _ hn fun _ => narrower_of_keeps hk (by simp) (by simp) (by simp) (by simp) (by simp)

/-! ## A range enters the revocation set (R68, R267) -/

section
variable {s : State}

@[simp] theorem Unif.rd_wr (u : Unif) (n : Nat) (x : Word) : (u.wr n x).rd n = x := tget_tset

/-- A message to a peer changes what the Route holds, and a counter. -/
theorem send_ex (m : OutMsg) : ∃ r h, s.send m = { s with route := r, host := h } := by
  unfold State.send
  split
  · exact ⟨s.route, s.host, rfl⟩
  · exact ⟨_, _, rfl⟩

/-- The begin of a pass's sweep changes that pass, and sends recalls. -/
theorem beginPass_ex (n : Nat) : ∃ r h ps, s.beginPass n = { s with route := r, host := h, rev := { s.rev with passes := ps } } := by
  have hsends : ∀ (msgs : List (Nat × Nat × List (Addr × Nat))) (s : State), ∃ r h,
      msgs.foldl (fun s x => (s.send (.recall x.1 x.2.1 x.2.2)).count x.2.1 5 4 1) s = { s with route := r, host := h } := by
    intro msgs
    induction msgs with
    | nil => exact fun s => ⟨s.route, s.host, rfl⟩
    | cons x l ih =>
      intro s
      obtain ⟨r, h, hs⟩ := send_ex (s := s) (.recall x.1 x.2.1 x.2.2)
      obtain ⟨r', h', hl⟩ := ih ((s.send (.recall x.1 x.2.1 x.2.2)).count x.2.1 5 4 1)
      exact ⟨r', h', by rw [List.foldl_cons, hl, hs]; rfl⟩
  unfold State.beginPass
  split
  · exact ⟨s.route, s.host, s.rev.passes, rfl⟩
  · dsimp only
    split
    · exact ⟨s.route, s.host, s.rev.passes, rfl⟩
    · obtain ⟨r, h, hm⟩ := hsends _ s
      exact ⟨r, h, _, by rw [hm]; rfl⟩

theorem joinPass_ex (die : Nat) : ∃ nx ps, (s.joinPass die).2 = { s with rev := { s.rev with next := nx, passes := ps } } := by
  unfold State.joinPass
  split
  · exact ⟨s.rev.next, s.rev.passes, rfl⟩
  · exact ⟨_, _, rfl⟩

theorem caught_of_entry {k : Cap} {e : RevEntry} (ht : k.tag = true) (he : e ∈ s.rev.entries) (hb : e.base = k.lo) (hl : e.len = k.len)
    (hc : e.colours = [k.colour.toNat]) (ho : e.owner = none) : s.caught k = true := by
  rw [State.caught, ht, Bool.true_and, List.any_eq_true]
  exact ⟨e, he, by simp [RevEntry.catches, hb, hl, hc, ho]⟩

end

/-- Settles O19: the entry stands in the pass that the range joined. -/
theorem revokeCatches : Obligations.RevokeCatches := by
  intro s i v o k hg hsg hcap hroom
  obtain ⟨ht, -⟩ := capCause_eq_none.1 hcap
  obtain ⟨nx, ps, hj⟩ := joinPass_ex (s := s) (dieOf v.spn)
  generalize hn : (s.joinPass (dieOf v.spn)).1 = n at *
  let e : RevEntry := { base := k.lo, len := k.len, colours := [k.colour.toNat], pass := n }
  obtain ⟨ps2, h2⟩ : ∃ ps2, (((s.joinPass (dieOf v.spn)).2.addEntry e).modPass n fun p => { p with sigs := p.sigs ++ [] }) =
      { s with rev := { s.rev with next := nx, passes := ps2, entries := s.rev.entries ++ [e] } } := by
    rw [hj]; exact ⟨_, rfl⟩
  generalize hs2 : (((s.joinPass (dieOf v.spn)).2.addEntry e).modPass n fun p => { p with sigs := p.sigs ++ [] }) = s2 at *
  obtain ⟨r, h, ps3, h3⟩ : ∃ r h ps3, (if passEntries ≤ (s2.rev.entries.filter fun e => e.pass == n).length then s2.beginPass n else s2) =
      { s2 with route := r, host := h, rev := { s2.rev with passes := ps3 } } := by
    split
    · exact beginPass_ex n
    · exact ⟨s2.route, s2.host, s2.rev.passes, rfl⟩
  generalize hs3 : (if passEntries ≤ (s2.rev.entries.filter fun e => e.pass == n).length then s2.beginPass n else s2) = s3 at *
  have hx : exec (.revoke o) s = .next ((s3.wrS i o.sd.toNat (BitVec.ofNat 32 n)).advance i 1) := by
    show execRevoke o s = _
    rw [execRevoke, issue_of_goes hg]
    dsimp only
    rw [hsg, hcap]
    dsimp only [Option.map, Option.bind]
    rw [if_neg (Nat.not_le.2 hroom)]
    subst hs3 hs2 hn
    rfl
  obtain ⟨cs, ct, ha⟩ := advance_ex (s := s3.wrS i o.sd.toNat (BitVec.ofNat 32 n)) (c := i) 1
  have hent : ((s3.wrS i o.sd.toNat (BitVec.ofNat 32 n)).advance i 1).rev.entries = s.rev.entries ++ [e] := by
    rw [ha, h3, h2]; rfl
  have he : e ∈ ((s3.wrS i o.sd.toNat (BitVec.ofNat 32 n)).advance i 1).rev.entries := by rw [hent]; simp
  obtain ⟨hcur, hv, -⟩ := hg
  have hv3 : tget s3.convoys i = some v := by rw [h3, h2]; exact hv
  obtain ⟨w, hw, -, -, -, -, hu, -⟩ := advance_get 1 (show tget (s3.wrS i o.sd.toNat (BitVec.ofNat 32 n)).convoys i = some _ by
    rw [State.wrS, State.modU, modConvoy_get, hv3]; rfl)
  exact ⟨_, hx, caught_of_entry ht he rfl rfl rfl rfl, ⟨e, he, rfl, rfl, rfl, rfl⟩, w, hw, by rw [hu]; exact Unif.rd_wr _ _ _⟩

end Sys2Proof.Machine

/-! SUPPORT. Branches, calls, returns, and the return stack (R80–R82, R88, R268, R269, R374, R375). -/

namespace Sys2Proof.Machine

/-! ## The return stack (R88) -/

section
variable {f : Fibre} {a : Addr}

theorem push_of_lt (h : f.rstk.length < 4) : f.push a = { f with rstk := a :: f.rstk } := if_pos h

theorem push_of_full {w x y z : Addr} (h : f.rstk = [w, x, y, z]) :
    f.push a = { f with rstk := [a, w, x, y], frames := z :: f.frames } := by simp [Fibre.push, h]

/-- Entries and frames as one list, the top first. -/
theorem push_list (h : f.rstk.length ≤ 4) : (f.push a).rstk ++ (f.push a).frames = a :: (f.rstk ++ f.frames) ∧
    (f.push a).rstk.length ≤ 4 := by
  by_cases h4 : f.rstk.length < 4
  · rw [push_of_lt h4]
    exact ⟨rfl, h4⟩
  · obtain ⟨w, x, y, z, hr⟩ := List.length_eq_four.1 (show f.rstk.length = 4 by omega)
    rw [push_of_full hr, hr]
    exact ⟨rfl, by simp⟩

/-- A pop takes the top of that list. -/
theorem pop_list : f.pop.1 = (f.rstk ++ f.frames).headD 0 ∧ f.pop.2.rstk ++ f.pop.2.frames = (f.rstk ++ f.frames).tail := by
  cases hr : f.rstk with
  | nil =>
    have htd := List.take_append_drop 4 f.frames
    cases hf : f.frames with
    | nil => simp [Fibre.pop, hr, hf]
    | cons x r => simp [Fibre.pop, hr, hf]
  | cons x r => simp [Fibre.pop, hr]

theorem depth_eq : f.depth = (f.rstk ++ f.frames).length := by rw [Fibre.depth, List.length_append]

end

/-- Settles O22: a stack is one list, whose top a push adds and a pop takes. -/
theorem returnStack : Obligations.ReturnStack := by
  intro f a h
  obtain ⟨hl, h4⟩ := push_list (f := f) (a := a) h
  obtain ⟨ht, hr⟩ := pop_list (f := f.push a)
  obtain ⟨ht', hr'⟩ := pop_list (f := f)
  refine ⟨by rw [ht, hl]; rfl, by rw [hr, hl]; rfl, by rw [depth_eq, depth_eq, hl]; rfl, h4, fun hd => ⟨?_, ht'⟩⟩
  rw [depth_eq] at hd
  rw [depth_eq, depth_eq, hr', List.length_tail]
  omega

/-! ## Convoys that issue -/

section
variable {s : State} {i : Nat} {v : Convoy}

/-- The target of a label (R149, R153). -/
theorem labelOf_eq (v : Convoy) (imm : BitVec 21) (lit : DWord) :
    labelOf v imm lit = (((v.hdr : Int) + 8 * (if imm = 0x100000 then lit.toInt else imm.toInt)) % 2 ^ 52).toNat := by
  rw [labelOf, targetImm, immLit]
  congr 3
  by_cases h : imm = 0x100000 <;> simp [h]

/-- A convoy that issues stands as it was, but for what its issue records. -/
theorem issued_keeps (h : tget s.convoys i = some v) : ∃ w, tget (s.issued i).convoys i = some w ∧ w.hdr = v.hdr ∧ w.wi = v.wi ∧
    w.wait = v.wait ∧ w.fib = v.fib ∧ w.slices = v.slices ∧ w.u = v.u ∧ w.latw = v.latw :=
  ⟨_, issued_get h, rfl, rfl, rfl, rfl, rfl, rfl, rfl⟩

/-- A call whose lanes have room for the return address pushes it and resolves (R374). -/
theorem callTo_of_room {act : List (Ln × Addr)} (hd : ∀ x ∈ act, x.1.f.depth < 256)
    (hf : (s.sp v.spn).frames + (act.filter fun x => x.1.f.needsFrame).length ≤ framePool) :
    s.callTo i v act = ((act.foldl (fun s x => s.modFibre x.1.id fun f => f.push v.nextClause)
      (s.modSp v.spn fun p => { p with frames := p.frames + (act.filter fun x => x.1.f.needsFrame).length })).issued i).resolve i
        (s.targets v act) := by
  have hnone : (act.find? fun t => decide (256 ≤ t.1.f.depth)) = none :=
    List.find?_eq_none.2 fun x hx => by simpa using hd x hx
  rw [State.callTo, hnone]
  exact if_neg (Nat.not_lt.2 hf)

theorem brxForm_of_goes {o : BrxOp} {g : Wg} {ts : List (Ln × Addr)} {rs : List (Addr × Nat)}
    (h : s.goes i v o.c (if o.uf then [] else kRegs o.k false ++ vregs o.o false) (if o.uf then [] else vlatches o.o))
    (hg : tget s.wgs v.wg = some g) (hb : s.brxLanes v o g.ranges (s.active v o.c.g) = .ok (ts, rs))
    (k : State → Nat → Convoy → List (Ln × Addr) → State) :
    brxForm s o k = .next (k (s.modWg v.wg fun g => { g with ranges := rs }) i v ts) := by
  rw [brxForm, issue_of_goes h]
  simp only [hg, hb]

end

/-- Settles O20: bra moves the whole convoy; the other forms resolve each lane's target. -/
theorem branches : Obligations.Branches := by
  refine ⟨fun s i v o h => ?_, fun s i v o b c g => ?_⟩
  · intro imm target fall taken
    have hv : tget s.convoys i = some v := h.2.1
    have ht : labelOf v o.imm o.c.lit = target := labelOf_eq v o.imm o.c.lit
    obtain ⟨w, hw, hh, hwi, hwait, hfib, hsl, hu, hlat⟩ := issued_keeps
      (s := s.modConvoy i fun v => v.goto (if taken then labelOf v o.imm o.c.lit else v.nextClause)) (i := i)
      (by rw [modConvoy_get, hv]; rfl)
    obtain ⟨cs, k, ha⟩ := issued_ex (s := s.modConvoy i fun v => v.goto (if taken then labelOf v o.imm o.c.lit else v.nextClause)) (c := i)
    refine ⟨_, w, ?_, hw, hh.trans (by rw [← ht]; rfl), hwi, hwait, hfib, hsl, hu, hlat, ?_, ?_, ?_, ?_⟩
    · show execBra o s = _
      rw [execBra, issueWide_of_goes h]
      rfl
    all_goals rw [ha]; rfl
  · intro imm target fall goTo pushes room at_
    have ht : labelOf v o.imm o.c.lit = target := labelOf_eq v o.imm o.c.lit
    refine ⟨fun h => ?_, fun h ⟨hd, hf⟩ => ?_, fun ts rs h hg hb => ⟨?_, fun ⟨hd, hf⟩ => ?_⟩, fun h hd => ?_⟩
    · show execBrc o s = _
      rw [execBrc, issue_of_goes h, ht]
      rfl
    · show execCallOp o s = _
      rw [execCallOp, issue_of_goes h, ht]
      exact congrArg _ (callTo_of_room hd hf)
    · show execBrx b s = _
      rw [execBrx, brxForm_of_goes h hg hb]
      rfl
    · show execCalli b s = _
      rw [execCalli, brxForm_of_goes h hg hb]
      exact congrArg _ (callTo_of_room hd hf)
    · have hnone : ((s.active v c.g).find? fun l => l.f.depth == 0) = none := List.find?_eq_none.2 fun x hx => by simpa using hd x hx
      show execRet c s = _
      rw [execRet, issue_of_goes h]
      simp only [hnone]
      rfl

/-! ## Targets that agree (R80, R81) -/

section
variable {l : List Addr} {a : Addr}

theorem mostShared_of_agree (h : ∀ x ∈ l, x = a) (hn : l ≠ []) : mostShared l = some a := by
  have hfold : ∀ (r m : List Addr), (∀ x ∈ r, x = a) → r.foldl (fun best y => match best with
      | none => some y
      | some b => if m.count b < m.count y then some y else some b) (some a) = some a := by
    intro r m hr
    induction r with
    | nil => rfl
    | cons x r ih =>
      obtain ⟨rfl, hr⟩ := List.forall_mem_cons.1 hr
      rw [List.foldl_cons]
      simp only [lt_irrefl, if_false]
      exact ih hr
  obtain ⟨x, r, rfl⟩ := List.exists_cons_of_ne_nil hn
  obtain ⟨rfl, hr⟩ := List.forall_mem_cons.1 h
  exact hfold r (x :: r) hr

theorem mostShared_cases_of_agree (h : ∀ x ∈ l, x = a) : mostShared l = none ∨ mostShared l = some a := by
  by_cases hn : l = []
  · exact .inl (by rw [hn]; rfl)
  · exact .inr (mostShared_of_agree h hn)

/-- The targets of slices, where those that choose one agree. -/
theorem eraseDups_of_agree (h : ∀ x ∈ l, x = a) (hn : l ≠ []) : l.eraseDups = [a] := by
  obtain ⟨x, r, rfl⟩ := List.exists_cons_of_ne_nil hn
  obtain ⟨rfl, hr⟩ := List.forall_mem_cons.1 h
  have : (r.filter fun b => !b == x) = [] := List.filter_eq_nil_iff.2 fun y hy => by simp [hr y hy]
  rw [List.eraseDups_cons, this]
  rfl

end

section
variable {s : State} {v : Convoy} {ts : List (Ln × Addr)} {a : Addr}

theorem chosenTargets_agree (h : ∀ x ∈ ts, x.2 = a) : ∀ t ∈ (chosenTargets v ts).filterMap fun t => t, t = a := by
  intro t ht
  obtain ⟨o, ho, rfl⟩ := List.mem_filterMap.1 ht
  obtain ⟨j, -, hj⟩ := List.mem_map.1 ho
  rcases mostShared_cases_of_agree (l := (ts.filter fun t => t.1.pos / 4 == j).map (·.2)) (a := a) (fun y hy => by
    obtain ⟨x, hx, rfl⟩ := List.mem_map.1 hy
    exact h x (List.mem_filter.1 hx).1) with hm | hm
  · rw [hm] at hj; cases hj
  · rw [hm] at hj; exact (Option.some.inj hj).symm

/-- The slice of a lane chooses the target on which all agree. -/
theorem chosenTargets_at {x : Ln × Addr} (h : ∀ x ∈ ts, x.2 = a) (hx : x ∈ ts) (hp : x.1.pos < v.positions) :
    (chosenTargets v ts)[x.1.pos / 4]? = some (some a) := by
  have hlt : x.1.pos / 4 < v.slices.length := by rw [Convoy.positions] at hp; omega
  rw [chosenTargets, List.getElem?_map, List.getElem?_range hlt]
  refine congrArg some (mostShared_of_agree (fun y hy => ?_) fun hn => ?_)
  · obtain ⟨z, hz, rfl⟩ := List.mem_map.1 hy
    exact h z (List.mem_filter.1 hz).1
  · have hm : x.2 ∈ (ts.filter fun t => t.1.pos / 4 == x.1.pos / 4).map (·.2) :=
      List.mem_map_of_mem (List.mem_filter.2 ⟨hx, by simp⟩)
    rw [hn] at hm
    cases hm

end

/-- Settles O21: no lane spills, and the slices have one target. -/
theorem noSplitWhereTargetsAgree : Obligations.NoSplitWhereTargetsAgree := by
  intro s c v ts a hv hn h
  have hall : ∀ x ∈ ts, x.2 = a := fun x hx => (h x hx).1
  have hspill : (ts.filter fun t => (chosenTargets v ts).getD (t.1.pos / 4) none != some t.2) = [] :=
    List.filter_eq_nil_iff.2 fun x hx => by
      rw [List.getD_eq_getElem?_getD, chosenTargets_at hall hx (h x hx).2, hall x hx]
      simp
  have hone : ((chosenTargets v ts).filterMap fun t => t).eraseDups = [a] := by
    refine eraseDups_of_agree (chosenTargets_agree hall) fun hnil => ?_
    obtain ⟨x, r, rfl⟩ := List.exists_cons_of_ne_nil hn
    have hx : x ∈ x :: r := List.mem_cons_self
    have hm := List.mem_of_getElem? (chosenTargets_at hall hx (h x hx).2)
    have : a ∈ (chosenTargets v (x :: r)).filterMap fun t => t := List.mem_filterMap.2 ⟨some a, hm, rfl⟩
    rw [hnil] at this
    cases this
  have hfib : (v.fib.map fun p => match p with
      | some i => if ([] : List (Ln × Addr)).any (fun t => t.1.id == i) then none else some i
      | none => none) = v.fib := by
    refine (List.map_congr_left fun p _ => ?_).trans (List.map_id _)
    cases p <;> rfl
  have hr : s.resolve c ts = (s.count (s.wgColour v.wg) 0 2 0).putConvoy c (v.goto a) := by
    rw [State.resolve, hv]
    simp only [hspill, hone]
    exact congrArg (fun fib => (s.count (s.wgColour v.wg) 0 2 0).putConvoy c ({ v with fib := fib }.goto a)) hfib
  refine ⟨_, v.goto a, hr, tget_tput, rfl, rfl, rfl, rfl, rfl, rfl, fun j hj => tget_tput_ne hj⟩

end Sys2Proof.Machine

/-! SUPPORT. The control of fibres, regions, windows and barriers (R85, R91, R96, R270–R273, R306, R381). -/

namespace Sys2Proof.Machine

section
variable {s : State} {i : Nat} {v : Convoy}

/-- A fibre that leaves its convoy changes fibres, serais, the fibres that wait outside them, and names (R82, R83). -/
theorem spill_ex (j : Nat) (pc : Addr) : ∃ fs ss os n, s.spill v j pc = { s with fibres := fs, serais := ss, outside := os, ids := n } := by
  unfold State.spill State.arrive
  split
  · exact ⟨_, s.serais, s.outside, s.ids, rfl⟩
  · dsimp only
    repeat' split
    all_goals exact ⟨_, _, _, _, rfl⟩

theorem spills_ex (pc : Addr) (l : List Ln) :
    ∃ fs ss os n, l.foldl (fun s l => s.spill v l.id pc) s = { s with fibres := fs, serais := ss, outside := os, ids := n } := by
  induction l generalizing s with
  | nil => exact ⟨s.fibres, s.serais, s.outside, s.ids, rfl⟩
  | cons x l ih =>
    obtain ⟨fs, ss, os, n, h⟩ := spill_ex (s := s) (v := v) x.id pc
    obtain ⟨fs', ss', os', n', h'⟩ := ih (s := s.spill v x.id pc)
    exact ⟨fs', ss', os', n', by rw [List.foldl_cons, h', h]⟩

theorem orEngref_of_none (h : s.refOf v allCls = none) (k : State) : s.orEngref i v k = k := by rw [State.orEngref, h]

/-- A bar at a wider scope whose slot is whole, none of its events logged before, arrives and waits (R91, R272, R313). -/
theorem arriveWide_of_fresh {k : Nat} {b : BarSlot} (h : s.freshEvents v) : s.arriveWide i v k b =
    ((((((s.lanes v).foldl (fun t l => t.logEvent l.id [BitVec.ofNat 64 b.phase] []) s).releaseAll v b.scope).issued i).hold i
      (.bar (some k) b.phase)).settleBar v.wg) := by
  obtain ⟨hl, hr⟩ := h
  rw [State.arriveWide]
  simp only [hl, hr]
  rfl

end

/-- Settles O23: each word by its own definition, where nothing holds it. -/
theorem fibreControl : Obligations.FibreControl := by
  intro s i v o c m g
  refine ⟨fun h => ?_, fun h hr => ⟨?_, ?_⟩, fun h hr hg => ?_, fun h => ?_, fun h ha => ?_, fun h h8 hh => ?_, fun l h ha h8 => ?_,
    fun l h ha h8 hh => ?_⟩
  · show execRegionOp o s = _
    rw [execRegionOp]
    exact compute_of_goes (regs := []) h _
  · show execYieldOp c s = _
    rw [execYieldOp, issueWide_of_goes h, orEngref_of_none hr]
  · obtain ⟨fs, ss, os, n, hs⟩ := spills_ex (s := s) (v := v) v.nextClause (s.lanes v)
    refine ⟨_, (show execFuse c s = _ by rw [execFuse, issueWide_of_goes h, orEngref_of_none hr]), rfl, tget_tdel, ?_⟩
    rw [hs]
    rfl
  · show execEndOp c s = _
    rw [execEndOp, issue_of_goes h, orEngref_of_none hr]
    simp only [hg]
  · show execNopOp c s = _
    rw [execNopOp, issue_of_goes h]
  · show execTrapOp m s = _
    rw [execTrapOp, issue_of_goes h]
    simp only [ha]
  · show execTrapOp m s = _
    rw [execTrapOp, issue_of_goes h]
    cases s.active v m.c.g with
    | nil => rfl
    | cons l r => simp only [if_neg (Nat.not_lt.2 h8), hh, Bool.false_eq_true, if_false]
  · obtain ⟨r, hl⟩ := List.head?_eq_some_iff.1 ha
    show execTrapOp m s = _
    rw [execTrapOp, issue_of_goes h]
    simp only [hl, if_pos h8]
    rfl
  · obtain ⟨r, hl⟩ := List.head?_eq_some_iff.1 ha
    show execTrapOp m s = _
    rw [execTrapOp, issue_of_goes h]
    simp only [hl, if_neg (Nat.not_lt.2 h8), hh, if_true]

/-- Settles O24: the rows that are free are taken; an arrival waits with the phase it saw. -/
theorem windowsAndBarriers : Obligations.WindowsAndBarriers := by
  intro s i v o m b ids rows
  refine ⟨fun h hw hr => ?_, fun h hw => ?_, fun ls h ht => ?_, fun h => ⟨fun hb => ?_, fun g hb hg => ?_, fun k x h1 h2 hs hx hf => ?_⟩⟩
  · have hnone : ((s.active v o.c.g).find? fun l => decide (256 < l.f.wbase + l.f.wsize + o.n.toNat)) = none :=
      List.find?_eq_none.2 fun l hl => by simpa using hw l hl
    have hempty : (s.growAll o.n.toNat ((s.active v o.c.g).map (·.id))).2.isEmpty = true := List.isEmpty_iff.2 hr
    show execGrow o s = _
    rw [execGrow, issue_of_goes h]
    simp only [hnone, hempty, if_true]
    rfl
  · have hnone : ((s.active v o.c.g).find? fun l => decide (l.f.wsize < o.n.toNat + 8)) = none :=
      List.find?_eq_none.2 fun l hl => by simpa using hw l hl
    show execShrink o s = _
    rw [execShrink, issue_of_goes h]
    simp only [hnone]
  · intro r hr
    show execSpawn m s = _
    rw [execSpawn, issue_of_goes h]
    simp only [ht]
    exact congrArg _ (if_pos (List.isEmpty_iff.2 hr))
  · show execBar b s = _
    rw [execBar, issueWide_of_goes h, hb]
  · show execBar b s = _
    rw [execBar, issueWide_of_goes h, hb]
    simp only [hg]
    rfl
  · have hbar : execBar b s = .next (s.arriveWide i v k x) := by
      rw [execBar, issueWide_of_goes h]
      cases hsc : b.scope with
      | convoy => exact absurd hsc h1
      | core => exact absurd hsc h2
      | _ => rw [hsc] at hs; simp only [hs, hx, Bool.false_eq_true, if_false]
    exact hbar.trans (congrArg _ (arriveWide_of_fresh hf))

end Sys2Proof.Machine

/-! SUPPORT. Queue instructions, system registers, loops and the words of the encodings (R158–R164, R276–R282, R418). -/

namespace Sys2Proof.Machine

/-! ## Pushes (R277) -/

section
variable {s : State} {i : Nat} {v : Convoy} {c : Ctl} {n : Nat} {w : QueueWait}

theorem pushForm_of_goes {x : Convoy → QueueWait} (h : s.goesEnd i v c [] [] n) (hx : x v = w) (hf : s.freshEvents v)
    (hheld : s.rangesHeld (coreOf v.spn) [(w.kr.lo + w.off, w.kr.lo + w.off + 64 * w.n, false)] = false)
    (hr : w.kq.remote = none) : pushForm s c x n = .next (s.tryPush i v w) := by
  obtain ⟨hl, -⟩ := hf
  rw [pushForm, issueEnd_of_goes h]
  simp only [hx, hl, hheld, hr, Bool.false_eq_true, if_false]

theorem tryPush_of_room (h : s.pushRoom v w) : s.tryPush i v w = s.reservePush i v w := by
  obtain ⟨⟨h1, h2, h3, h4, h5, h6⟩, hc, hroom, hpad, hslot⟩ := h
  have hp : (if (s.qhdr w.kq.lo).pad w.n = 0 then none
      else s.queueCause (s.colourOf v) w.kq (permLd ||| permSt) (64 + 64 * ((s.qhdr w.kq.lo).rsv % (s.qhdr w.kq.lo).cap)) 64) = none := by
    split
    · rfl
    · exact hpad ‹_›
  rw [State.tryPush]
  simp only [h1, h2, h3, h4, h5, h6, Nat.not_lt.2 hc, hroom, hp, hslot, Bool.false_eq_true, Bool.not_true, if_false]
  rfl

theorem tryPush_of_full (h : s.pushReach v w) (hc : w.n ≤ (s.qhdr w.kq.lo).cap) (hroom : (s.qhdr w.kq.lo).room w.n = false)
    (hnb : w.nb = true) : s.tryPush i v w = s.endPush i v w false := by
  obtain ⟨h1, h2, h3, h4, h5, h6⟩ := h
  rw [State.tryPush]
  simp only [h1, h2, h3, h4, h5, h6, Nat.not_lt.2 hc, hroom, hnb, Bool.false_eq_true, Bool.not_true, Bool.not_false, if_false, if_true]

/-! ## Pops (R278) -/

/-- A pop whose header may be read and is whole. -/
def State.popReach (s : State) (v : Convoy) (w : QueueWait) : Prop :=
  s.queueCause (s.colourOf v) w.kq (permLd ||| permSt) 0 64 = none ∧ s.headerLost (s.colourOf v) w.kq.lo = false ∧ s.headerBad w.kq.lo = false

theorem tryPop_of_empty {fuel : Nat} (h : s.popReach v w) (he : (s.qhdr w.kq.lo).crsv = (s.qhdr w.kq.lo).tail) (hnb : w.nb = true) :
    State.tryPop i v w (fuel + 1) s = s.endEmpty i v w.q w.words := by
  obtain ⟨h1, h2, h3⟩ := h
  show (match s.queueCause (s.colourOf v) w.kq (permLd ||| permSt) 0 64 with | some n => _ | none => _) = _
  rw [h1]
  dsimp only
  rw [h2, h3, if_neg Bool.false_ne_true, if_neg Bool.false_ne_true, if_pos he, if_pos hnb]

/-- A pop that finds a whole record at HEAD takes it. -/
theorem tryPop_of_record {fuel : Nat} (h : s.popReach v w) (hne : (s.qhdr w.kq.lo).crsv ≠ (s.qhdr w.kq.lo).tail)
    (hhead : (s.qhdr w.kq.lo).head = (s.qhdr w.kq.lo).crsv) (hcause : (s.found w.kq.lo).cause = 0) (hskip : (s.found w.kq.lo).skip = false)
    (hawait : s.awaits [(slotAddr w.kq.lo ((s.qhdr w.kq.lo).crsv % (s.qhdr w.kq.lo).cap), 64 * (s.found w.kq.lo).m)]
      [(w.kq.lo, 64), (w.kr.lo + w.off, 64 * (s.found w.kq.lo).m)] = none)
    (hslots : s.queueCause (s.colourOf v) w.kq (permLd ||| permSt)
      (slotAddr w.kq.lo ((s.qhdr w.kq.lo).crsv % (s.qhdr w.kq.lo).cap) - w.kq.lo)
      (64 * min (s.found w.kq.lo).m ((s.qhdr w.kq.lo).cap - (s.qhdr w.kq.lo).crsv % (s.qhdr w.kq.lo).cap)) = none)
    (hroom : s.logRoom (linesOf w.kq.lo 64 ++ linesOf (w.kr.lo + w.off) (64 * (s.found w.kq.lo).m)) v.spn
      ((s.lanes v).length * (1 + 2 * (s.found w.kq.lo).m)) = true)
    (hheld : s.rangesHeld (coreOf v.spn) [(w.kr.lo + w.off, w.kr.lo + w.off + 64 * (s.found w.kq.lo).m, true)] = false) :
    State.tryPop i v w (fuel + 1) s =
      (s.reservePop v w (s.qhdr w.kq.lo).crsv (s.found w.kq.lo).m).takeRecord i v { w with n := (s.found w.kq.lo).m } (s.qhdr w.kq.lo).crsv := by
  obtain ⟨h1, h2, h3⟩ := h
  have htaken : (decide ((s.found w.kq.lo).cause = 0) && !(s.found w.kq.lo).skip) = true := by rw [hcause, hskip]; rfl
  show (match s.queueCause (s.colourOf v) w.kq (permLd ||| permSt) 0 64 with | some n => _ | none => _) = _
  rw [h1]
  dsimp only
  rw [h2, h3, if_neg Bool.false_ne_true, if_neg Bool.false_ne_true, if_neg hne, hawait]
  dsimp only
  rw [hslots]
  dsimp only
  rw [hroom, if_neg (by decide), if_pos htaken, hheld, if_neg Bool.false_ne_true, if_pos hhead]

end

/-- Settles O25: a push reserves or finds no room; a pop takes the record at HEAD or finds none. -/
theorem queueInstructions : Obligations.QueueInstructions := by
  intro s i v o m p q x y z k free
  refine ⟨fun h hf ⟨hheld, hr⟩ => ⟨fun hroom => ?_, fun hreach hc hroom hnb => ?_⟩, fun h hf ⟨hheld, hr⟩ hroom => ?_,
    fun h hpop hr hcause hlost hbad => ?_, fun h hr hcause hlost hbad hawait => ?_⟩
  · show execQpush o s = _
    rw [execQpush]
    exact (pushForm_of_goes (w := x) h rfl hf hheld hr).trans (congrArg _ (tryPush_of_room hroom))
  · show execQpush o s = _
    rw [execQpush]
    exact (pushForm_of_goes (w := x) h rfl hf hheld hr).trans (congrArg _ (tryPush_of_full hreach hc hroom hnb))
  · show execLaunchOp m s = _
    rw [execLaunchOp]
    exact (pushForm_of_goes (w := y) h rfl hf hheld hr).trans (congrArg _ (tryPush_of_room hroom))
  · intro hd f
    have hx : execQpop p s = .next (State.tryPop i v z popFuel s) := by
      rw [execQpop, issue_of_goes h]
      dsimp only
      rw [hpop]
      dsimp only
      rw [show (v.u.rdK p.kq.toNat).remote = none from hr]
    refine ⟨fun he hnb => hx.trans (congrArg _ (tryPop_of_empty ⟨hcause, hlost, hbad⟩ he hnb)),
      fun hne hhead hc hs ha hq hl hh => hx.trans (congrArg _ (tryPop_of_record ⟨hcause, hlost, hbad⟩ hne hhead hc hs ha hq hl hh))⟩
  · show execQslots q s = _
    rw [execQslots, issue_of_goes h]
    dsimp only
    rw [hcause, hr]
    dsimp only
    rw [hawait, show s.headerLost (s.colourOf v) (v.u.rdK q.kq.toNat).lo = false from hlost,
      show s.headerBad (v.u.rdK q.kq.toNat).lo = false from hbad]
    rfl

/-! ## System registers and loops -/

theorem lowestBad_of_none {a b c : Option (Nat × Addr)} (ha : a = none) (hb : b = none) (hc : c = none) : lowestBad [a, b, c] = none := by
  rw [ha, hb, hc]; rfl

/-- Settles O26: each word by its own definition, where nothing holds it. -/
theorem systemAndLoops : Obligations.SystemAndLoops := by
  intro s i v o m p e w g x
  refine ⟨fun r h hne hp hr => ?_, fun l r h hl hp hr => ?_, fun y ws h hg hf hm => ?_, ?_, fun h => ?_⟩
  · obtain ⟨l, ls, hact⟩ := List.exists_cons_of_ne_nil hne
    show execSysrd o s = _
    rw [execSysrd, issue_of_goes h]
    dsimp only
    rw [hact]
    dsimp only
    rw [hp, hr]
  · obtain ⟨ls, hact⟩ := List.head?_eq_some_iff.1 hl
    show execSyswr m s = _
    rw [execSyswr, issue_of_goes h]
    dsimp only
    rw [hact]
    dsimp only
    rw [hp, hr]
    cases r <;> rfl
  · show execRepOp p s = _
    rw [execRepOp, issueWide_of_goes h, hg]
    dsimp only [Option.map]
    rw [hf]
    simp only [hm, Bool.false_eq_true, if_false]
  · intro n sz off rd d a b me get r rs s1 h hd ha hb hheld hroom
    have hbad : lowestBad [a.2, if rd.2.2 then b.2 else none, d.2] = none := lowestBad_of_none ha (by
      by_cases hr : rd.2.2 = true
      · rw [if_pos hr]; exact hb hr
      · exact if_neg hr) hd
    show execLnest e s = _
    rw [execLnest, issueWide_of_goes h]
    show Host.Outcome.next (match lowestBad [a.2, if rd.2.2 then b.2 else none, d.2] with
      | some x => _
      | none => if s.rangesHeld (coreOf v.spn) rs then _ else if !s.logRoom (linesOf d.1 sz) v.spn 0 then _ else _) = _
    rw [hbad]
    dsimp only
    rw [hheld, hroom, if_neg Bool.false_ne_true, if_neg (by decide)]
  · show execUnassignedOpcodeIssue w s = _
    rw [execUnassignedOpcodeIssue, h]
    rfl

/-- Settles O27: each word is decoded by evaluation. -/
theorem decodeWords : Obligations.DecodeWords := by unfold Obligations.DecodeWords; decide

end Sys2Proof.Machine

/-! SUPPORT. The step of a convoy that issues, and reset (R268, R304, R366, R398–R402). -/

namespace Sys2Proof.Machine

/-! ## The issue of a word -/

section
variable {s t : State} {c : Nat} {v : Convoy} {g : Wg}

/-- With nothing on the agenda, and no unit before it, the chosen convoy issues. -/
theorem step_of_pick (hev : s.ev = []) (hown : s.own = false ∨ s.tick.due = none) (hp : s.tick.pick = some (c, v)) :
    step s = issueStep (s.tick.chosen c v) c v := by
  have hissue : issueOne s.tick = some (issueStep (s.tick.chosen c v) c v) := by rw [issueOne, hp]; rfl
  have hone : (if s.own then ownOne s.tick <|> issueOne s.tick else issueOne s.tick <|> ownOne s.tick) =
      some (issueStep (s.tick.chosen c v) c v) := by
    rw [hissue]
    rcases hown with h | h
    · rw [h]; rfl
    · have hnone : ownOne s.tick = none := by rw [ownOne, h]; rfl
      rw [hnone]; cases s.own <;> rfl
  rw [step, hev]
  dsimp only
  rw [hone]
  rfl

theorem issueStep_of_instr {i : Instr} (hw : v.wait = .run) (hg : tget t.wgs v.wg = some g) (h : t.fetchInstr v g = .instr i) :
    issueStep t c v = afterIssue c v.spn (exec i t) := by
  rw [issueStep, hw, hg]
  dsimp only
  rw [h]

theorem issueStep_of_stop {x : TrapInfo} (hw : v.wait = .run) (hg : tget t.wgs v.wg = some g) (h : t.fetchInstr v g = .stop x) :
    issueStep t c v = .next (t.trap c x) := by
  rw [issueStep, hw, hg]
  dsimp only
  rw [h]

section
variable {w : DWord} {ws : List DWord} (hrep : v.rep = none)
  (hf : t.fetchWords g (v.hdr + 8 * (1 + v.wi)) (v.words - v.wi) = w :: ws)
include hrep hf

theorem fetchInstr_of_decode {i : Instr} {n : Nat} (hd : decode w ws = .ok i n) : t.fetchInstr v g = .instr i := by
  rw [State.fetchInstr, hf, hrep]
  dsimp only
  rw [hd]

/-- A word that does not decode stops with its lowest sub-cause (R398, R399). -/
theorem fetchInstr_of_illegal {n : Nat} (hd : decode w ws = .illegal n) :
    t.fetchInstr v g = .stop { cls := clsIllegal, code := t.subCause v (decodeAll w ws) n } := by
  rw [State.fetchInstr, hf, hrep]
  dsimp only
  rw [hd]

end

theorem fetchInstr_of_nil (hf : t.fetchWords g (v.hdr + 8 * (1 + v.wi)) (v.words - v.wi) = []) :
    t.fetchInstr v g = .stop (fetchTrap v.hdr 0x211) := by
  rw [State.fetchInstr, hf]

/-- The lowest sub-cause, with that of the fall-through clause (R400). -/
theorem subCause_of_within {r : Dec Instr × Nat} {n : Nat} (h : r.1.val.endsRegion = false) : t.subCause v r n = n := by
  rw [State.subCause, h, if_neg Bool.false_ne_true]

theorem subCause_of_good {r : Dec Instr × Nat} {n : Nat} (h : t.fallBad v r.2 = none) : t.subCause v r n = n := by
  rw [State.subCause, h]
  exact ite_self _

theorem subCause_of_bad {r : Dec Instr × Nat} {n : Nat} {b : TrapInfo} (he : r.1.val.endsRegion = true) (h : t.fallBad v r.2 = some b) :
    t.subCause v r n = if b.cls == clsIllegal then min b.code n else n := by
  rw [State.subCause, if_pos he, h]

theorem afterIssue_of_running {o : State} (h : (o.sp v.spn).stepping = false) : afterIssue c v.spn (.next o) = .next o := by
  rw [afterIssue, State.afterStep, State.settleStep, h]

end

/-- Settles O30: the chosen convoy's word is fetched, decoded and run. -/
theorem stepRunsDecoded : Obligations.StepRunsDecoded := by
  refine ⟨fun s c v g w ws i n hev hown hp hw hrep => ?_, fun s e rest hev => ?_⟩
  · intro t hg hf hd
    have hstep : step s = afterIssue c v.spn (exec i t) :=
      (step_of_pick hev hown hp).trans (issueStep_of_instr hw hg (fetchInstr_of_decode hrep hf hd))
    exact ⟨rfl, hstep, fun u hu hs => by rw [hstep, hu]; exact afterIssue_of_running hs⟩
  · rw [step, hev]

/-- Settles O31: the word stops with its lowest sub-cause, or the fetch does. -/
theorem stepTrapsIllegal : Obligations.StepTrapsIllegal := by
  intro s c v g hev hown hp hw hrep t ws hg
  have hill : ∀ w r n, ws = w :: r → decode w r = .illegal n →
      step s = .next (t.trap c { cls := clsIllegal, code := t.subCause v (decodeAll w r) n }) := fun w r n hws hd =>
    (step_of_pick hev hown hp).trans (issueStep_of_stop hw hg (fetchInstr_of_illegal hrep hws hd))
  refine ⟨fun w r n hws hd he => ?_, fun w r n hws hd he => ⟨fun hb => ?_, fun b hb hc => ?_, fun b hb hc => ?_⟩, fun hws => ?_⟩
  · rw [hill w r n hws hd, subCause_of_within he]; rfl
  · rw [hill w r n hws hd, subCause_of_good hb]; rfl
  · rw [hill w r n hws hd, subCause_of_bad he hb, hc]; rfl
  · rw [hill w r n hws hd, subCause_of_bad he hb, hc]; rfl
  · exact (step_of_pick hev hown hp).trans (issueStep_of_stop hw hg (fetchInstr_of_nil hws))

/-! ## Reset -/

/-- Settles O32: every table of the reset state is empty, so that each read gives its default. -/
theorem resetValues : Obligations.ResetValues := by
  refine ⟨⟨rfl, rfl, rfl, rfl, rfl, rfl, rfl, rfl, fun _ => rfl, fun _ => rfl, fun _ => rfl, fun _ => ⟨rfl, rfl⟩, rfl, rfl, fun n => ?_,
    fun _ => rfl, rfl⟩, by decide⟩
  exact ⟨rfl, rfl⟩

/-! ## Error records (R384) -/

/-- The two reserved runs at bits 15:8 of a record are 0. -/
theorem extractLsb'_reserved {n : Nat} (x : BitVec n) : (x ++ 0#6 ++ 0#2).extractLsb' 0 8 = 0#8 := by
  refine BitVec.eq_of_getLsbD_eq fun i hi => ?_
  by_cases h2 : i < 2
  · simp [-BitVec.getLsbD_eq_getElem, BitVec.getLsbD_append, h2]
  · simp [-BitVec.getLsbD_eq_getElem, BitVec.getLsbD_append, h2, show i - 2 < 6 by omega]

/-- Settles O41: each field is the run of bits at its place. -/
theorem recordLayout : Obligations.RecordLayout := by
  intro r gen seq lost
  simp (disch := decide) only [Rec.bits, append_bits, Nat.reduceSub, BitVec.extractLsb'_eq_self, extractLsb'_reserved]
  decide

end Sys2Proof.Machine

/-! SUPPORT. Where words trap (R404, R405, R410, R418). -/

namespace Sys2Proof.Machine

/-! ## Latches and windows -/

section
variable {s : State} {i : Nat} {v : Convoy} {c : Ctl} {regs : List RegUse} {lat : List (BitVec 2)}

theorem issue_of_latchBad (hc : s.cur = some i) (hv : tget s.convoys i = some v) (h : latchBad v lat = true)
    (k : Nat → Convoy → List Ln → State) : issue s c regs lat k = .next (s.illegal i 0x017 0) := by
  simp only [issue, hc, hv, h, if_true]

theorem issue_of_windowBad {p : Nat} (hc : s.cur = some i) (hv : tget s.convoys i = some v) (hl : latchBad v lat = false)
    (h : windowBad (s.active v c.g) regs = some p) (k : Nat → Convoy → List Ln → State) :
    issue s c regs lat k = .next (s.illegal i 0x016 p) := by
  simp only [issue, hc, hv, hl, h, Bool.false_eq_true, if_false]

/-- A word that issues with the registers and the latches of a form. -/
def Issues (ins : Instr) (s : State) (F : LaneForm) : Prop := ∃ k, exec ins s = issue s F.c (F.regs ++ dregs F.d F.wd) F.lat k

variable {ins : Instr}

theorem issues_compute {wd : Bool} {d : VDst} {n : Nat} {f : Convoy → List Ln → Ln → DWord × BitVec 8}
    (he : exec ins s = compute s c regs lat wd d n f) : Issues ins s ⟨c, regs, lat, wd, d, n⟩ := by
  rw [compute] at he
  exact ⟨_, he⟩

theorem issues_intBin {o : IBin} {w wb : Bool} {f : DWord → DWord → DWord} (he : exec ins s = intBin s o w wb f) :
    Issues ins s ⟨o.c, vregs o.a w ++ bregs o.b (w && wb), vlatches o.a ++ blatches o.b, w, o.d, wordsOf o.lits⟩ := by
  rw [intBin] at he
  exact issues_compute he

theorem issues_intUn {o : IUn} {w wd : Bool} {f : DWord → DWord} (he : exec ins s = intUn s o w wd f) :
    Issues ins s ⟨o.c, vregs o.a w, vlatches o.a, wd, o.d, wordsOf o.lits⟩ := by
  rw [intUn] at he
  exact issues_compute he

theorem issues_intMad {o : IMad} {w : Bool} (he : exec ins s = intMad s o w) : Issues ins s ⟨o.c, vregs o.a w ++ bregs o.b w ++ vregs o.e w,
    vlatches o.a ++ blatches o.b ++ vlatches o.e, w, o.d, wordsOf o.lits⟩ := by
  rw [intMad] at he
  exact issues_compute he

theorem issues_intSel {o : ISel} {w : Bool} (he : exec ins s = intSel s o w) :
    Issues ins s ⟨o.c, vregs o.a w ++ vregs o.b w, vlatches o.a ++ vlatches o.b, w, o.d, wordsOf o.lits⟩ := by
  rw [intSel] at he
  exact issues_compute he

theorem issues_intMovi {o : IMovi} {w : Bool} (he : exec ins s = intMovi s o w) : Issues ins s ⟨o.c, [], [], w, o.d, wordsOf o.lits⟩ := by
  rw [intMovi] at he
  exact issues_compute he

theorem issues_intField {o : IBf} {w : Bool} {f : DWord → DWord → Nat → Nat → DWord} (he : exec ins s = intField s o w f) :
    Issues ins s ⟨o.c, vregs o.a w ++ vregs o.pos false ++ vregs o.wid false, vlatches o.a ++ vlatches o.pos ++ vlatches o.wid, w, o.d,
      wordsOf o.lits⟩ := by
  rw [intField] at he
  exact issues_compute he

theorem issues_fpBin {o : FBin} {f : Word → Word → Word × BitVec 8} (he : exec ins s = fpBin s o f) :
    Issues ins s ⟨o.c, vregs o.a false ++ vregs o.b false, vlatches o.a ++ vlatches o.b, false, o.d, wordsOf o.lits⟩ := by
  rw [fpBin] at he
  exact issues_compute he

theorem issues_fpUn {o : FUn} {f : Word → Word × BitVec 8} (he : exec ins s = fpUn s o f) :
    Issues ins s ⟨o.c, vregs o.a false, vlatches o.a, false, o.d, wordsOf o.lits⟩ := by
  rw [fpUn] at he
  exact issues_compute he

theorem issues_hBin {o : HBin} {g : FV → FV → FV} (he : exec ins s = hBin s o g) :
    Issues ins s ⟨o.c, vregs o.a false ++ vregs o.b false, vlatches o.a ++ vlatches o.b, false, o.d, wordsOf o.lits⟩ := by
  rw [hBin] at he
  exact issues_compute he

theorem issues_quantise {o : QntOp} {q : QFmt} (he : exec ins s = quantise s o q) :
    Issues ins s ⟨o.c, vregs o.a false ++ vregs o.scale false, vlatches o.a ++ vlatches o.scale, false, o.d, wordsOf o.lits⟩ := by
  rw [quantise] at he
  exact issues_compute he

theorem issues_fpTri {o : FTri} {f : Word → Word → Word → Word × BitVec 8} (he : exec ins s = fpTri s o f) :
    Issues ins s ⟨o.c, vregs o.a false ++ vregs o.b false ++ vregs o.e false, vlatches o.a ++ vlatches o.b ++ vlatches o.e, false, o.d,
      wordsOf o.lits⟩ := by
  rw [fpTri] at he
  exact issues_compute he

/-- A lane form issues with the registers and the latches that it names. -/
theorem issues_of_laneForm {F : LaneForm} (hF : laneForm ins = some F) : Issues ins s F := by
  cases ins with
  | iadd o | iadd64 o | isub o | isub64 o | imul o | imul64 o | imulh o | imulh64 o | idiv o | idiv64 o | irem o | irem64 o
  | imin o | imin64 o | imax o | imax64 o | andOp o | andOp64 o | orOp o | orOp64 o | xorOp o | xorOp64 o | andn o | andn64 o
  | shl o | shl64 o | shr o | shr64 o | sar o | sar64 o | rol o | rol64 o => cases hF; exact issues_intBin rfl
  | iabs o | iabs64 o | ineg o | ineg64 o | notOp o | notOp64 o | popc o | popc64 o | clz o | clz64 o | ctz o | ctz64 o | brev o
  | brev64 o | movOp o | movOp64 o => cases hF; exact issues_intUn rfl
  | imad o | imad64 o => cases hF; exact issues_intMad rfl
  | bfx o => cases hF; exact issues_intField (exec_bfx o s)
  | bfx64 o => cases hF; exact issues_intField (exec_bfx64 o s)
  | bfi o => cases hF; exact issues_intField (exec_bfi o s)
  | bfi64 o => cases hF; exact issues_intField (exec_bfi64 o s)
  | selOp o | selOp64 o => cases hF; exact issues_intSel rfl
  | movi o | movi64 o => cases hF; exact issues_intMovi rfl
  | fadd o | fsub o | fmul o | fmin o | fmax o | fscale o => cases hF; exact issues_fpBin rfl
  | hadd2 o | hmul2 o => cases hF; exact issues_hBin rfl
  | ffma o => cases hF; exact issues_fpTri rfl
  | hfma2 o => cases hF; exact ⟨_, show execHfma2 o s = _ by rw [execHfma2, compute]⟩
  | fclass o => cases hF; exact issues_fpUn (exec_fclass o s)
  | ffloor o | fceil o | ftrunc o | frint o | frcp o | frsq o | fsqrt o | fex2 o | flg2 o | fsin o | fcos o | ftanh o =>
    cases hF; exact issues_fpUn rfl
  | cvt o => cases hF; exact ⟨_, show execCvt o s = _ by rw [execCvt, compute]⟩
  | qntE4m3 o | qntE5m2 o | qntE2m1 o | qntI8 o | qntT2 o => cases hF; exact issues_quantise rfl
  | dqnt o => cases hF; exact ⟨_, show execDqnt o s = _ by rw [execDqnt, compute]⟩
  | shfl o => cases hF; exact ⟨_, show execShfl o s = _ by rw [execShfl]⟩
  | red o => cases hF; exact ⟨_, show execRed o s = _ by rw [execRed]⟩
  | scan o => cases hF; exact ⟨_, show execScan o s = _ by rw [execScan]⟩
  | ballot o => cases hF; exact ⟨_, show execBallot o s = _ by rw [execBallot, compute]⟩
  | regionOp o => cases hF; exact ⟨_, show execRegionOp o s = _ by rw [execRegionOp, compute]⟩
  | _ => cases hF

end

/-- Settles O44: the checks of the issue come first, then those of the register number and of the address. -/
theorem formsTrap : Obligations.FormsTrap := by
  intro s i v ins F o m d hc hv
  refine ⟨fun hF hb => ?_, fun p hF hl hb => ?_, fun l n h hact hp => ?_, fun l n h hact hp => ?_, fun l h hsp hact hmis hin => ?_⟩
  · obtain ⟨k, hk⟩ := issues_of_laneForm (s := s) hF
    rw [hk, issue_of_latchBad hc hv hb]
    rfl
  · obtain ⟨k, hk⟩ := issues_of_laneForm (s := s) hF
    rw [hk, issue_of_windowBad hc hv hl hb]
    rfl
  · obtain ⟨ls, hls⟩ := List.head?_eq_some_iff.1 hact
    show execSysrd o s = _
    rw [execSysrd, issue_of_goes h]
    dsimp only
    rw [hls]
    dsimp only
    rw [hp]
    rfl
  · obtain ⟨ls, hls⟩ := List.head?_eq_some_iff.1 hact
    show execSyswr m s = _
    rw [execSyswr, issue_of_goes h]
    dsimp only
    rw [hls]
    dsimp only
    rw [hp]
    rfl
  · obtain ⟨ls, hls⟩ := List.head?_eq_some_iff.1 hact
    have hacc : (s.laneAcc v (s.colourOf v) d.addr.space l (s.offsetOf v l d.c.lit d.addr (szBytes d.sz)) (szBytes d.sz) permLd).bad =
        some (0x022, 0) := by
      rw [hsp]
      show misaligned _ _ (if _ > 4 * l.f.wsize then _ else _) = _
      rw [if_neg (Nat.not_lt.2 hin)]
      exact if_neg hmis
    show execLd d s = _
    rw [execLd, issue_of_goes h]
    dsimp only
    rw [hls, List.map_cons, localAccess, List.find?_cons, hacc]
    dsimp only [Option.isSome_some]
    rw [hacc, hsp]
    rfl

/-- Settles O45: a number beyond the view is refused first, then one that is no register, then a write that the view may not make. -/
theorem privilegeByView : Obligations.PrivilegeByView := by
  intro n w
  refine ⟨fun h => if_pos h, fun h => if_pos h, fun host h => ?_⟩
  unfold privCause at h
  by_cases hn : (if host then 0x800 else 0x400) ≤ n
  · rw [if_pos hn] at h; cases h
  · rw [if_neg hn] at h
    cases hr : sysReg n with
    | none => rw [hr] at h; cases h
    | some r =>
      rw [hr] at h
      dsimp only at h
      split at h
      · cases h
      · rename_i hw
        refine ⟨r, rfl, fun hwt => ?_, Nat.not_le.1 hn⟩
        rw [hwt] at hw
        simpa using hw

end Sys2Proof.Machine

/-! SUPPORT. What ends with an aborted launch (R76, R382, R385, R387). -/

namespace Sys2Proof.Machine

/-- A change by which fibres end and records are written, and launches stand. -/
def Ends (s t : State) : Prop :=
  s.mgmt.seq ≤ t.mgmt.seq ∧ t.launches = s.launches ∧ ∀ i, tget s.fibres i = none → tget t.fibres i = none

section
variable {s t u : State}

theorem ends_refl (s : State) : Ends s s := ⟨Nat.le_refl _, rfl, fun _ h => h⟩

/-- A change of other parts. -/
theorem ends_of_eq (hm : t.mgmt.seq = s.mgmt.seq) (hl : t.launches = s.launches) (hf : t.fibres = s.fibres) : Ends s t :=
  ⟨hm.ge, hl, fun i h => by rw [hf]; exact h⟩

theorem Ends.trans (h : Ends s t) (h' : Ends t u) : Ends s u :=
  ⟨h.1.trans h'.1, h'.2.1.trans h.2.1, fun i hi => h'.2.2 i (h.2.2 i hi)⟩

theorem ends_foldl {α : Type} {f : State → α → State} (h : ∀ s x, Ends s (f s x)) (l : List α) (s : State) : Ends s (l.foldl f s) := by
  induction l generalizing s with
  | nil => exact ends_refl s
  | cons x r ih => exact (h s x).trans (ih _)

theorem Served.ends (h : Served s t) : Ends s t := by
  obtain ⟨m, g, ws, ms, b, x, p, n, q, rfl⟩ := h
  exact ends_refl s

theorem ends_record (r : Rec) (b : Bool) : Ends s (s.record r b) ∧ s.mgmt.seq < (s.record r b).mgmt.seq := by
  obtain ⟨q, h, hq⟩ := record_ex s r b
  obtain ⟨hseq, hl, hf⟩ := h.ends
  exact ⟨⟨hq.le.trans hseq, hl, hf⟩, hq.trans_le hseq⟩

theorem ends_records (l : List Rec) (s : State) : Ends s (l.foldl (fun s r => s.record r true) s) ∧
    (l ≠ [] → s.mgmt.seq < (l.foldl (fun s r => s.record r true) s).mgmt.seq) := by
  refine ⟨ends_foldl (fun s r => (ends_record r true).1) l s, fun hn => ?_⟩
  obtain ⟨r, l, rfl⟩ := List.exists_cons_of_ne_nil hn
  exact (ends_record r true).2.trans_le (ends_foldl (fun s r => (ends_record r true).1) l _).1

/-! ## Fibres that end (R76) -/

/-- A fibre ceases to exist. -/
def State.dropFibre (s : State) (i : Nat) : State := match tget s.fibres i with
  | none => s
  | some f => { s with fibres := tdel s.fibres i }.modSp f.spn fun p => { p with frames := p.frames - framesOf f.frames.length }

theorem freeFibres_eq (ids : List Nat) : s.freeFibres ids = (ids.foldl State.dropFibre s).wakeFrames := rfl

theorem tget_dropFibre (j i : Nat) : tget (s.dropFibre j).fibres i = if i = j then none else tget s.fibres i := by
  unfold State.dropFibre
  by_cases hj : i = j
  · subst hj
    rw [if_pos rfl]
    split
    · assumption
    · exact tget_tdel
  · rw [if_neg hj]
    split
    · rfl
    · exact tget_tdel_ne hj

theorem dropFibre_ex (j : Nat) : ∃ fs ps, s.dropFibre j = { s with fibres := fs, sps := ps } := by
  unfold State.dropFibre
  split
  · exact ⟨s.fibres, s.sps, rfl⟩
  · exact ⟨_, _, rfl⟩

/-- Fibres that cease to exist are there no more, and none comes. -/
theorem tget_freeFibres (ids : List Nat) (i : Nat) :
    tget (s.freeFibres ids).fibres i = if i ∈ ids then none else tget s.fibres i := by
  show tget (ids.foldl State.dropFibre s).fibres i = _
  induction ids generalizing s with
  | nil => rfl
  | cons j ids ih =>
    rw [List.foldl_cons, ih, tget_dropFibre]
    by_cases hm : i ∈ ids <;> by_cases hj : i = j <;> simp [hm, hj]

theorem freeFibres_ex (ids : List Nat) : ∃ fs ps cs, s.freeFibres ids = { s with fibres := fs, sps := ps, convoys := cs } := by
  have hfold : ∃ fs ps, ids.foldl State.dropFibre s = { s with fibres := fs, sps := ps } := by
    induction ids generalizing s with
    | nil => exact ⟨s.fibres, s.sps, rfl⟩
    | cons j ids ih =>
      obtain ⟨fs, ps, h⟩ := dropFibre_ex (s := s) j
      obtain ⟨fs', ps', h'⟩ := ih (s := s.dropFibre j)
      exact ⟨fs', ps', by rw [List.foldl_cons, h', h]⟩
  obtain ⟨fs, ps, h⟩ := hfold
  exact ⟨fs, ps, _, by rw [freeFibres_eq, h]; rfl⟩

theorem ends_freeFibres (ids : List Nat) : Ends s (s.freeFibres ids) := by
  obtain ⟨fs, ps, cs, h⟩ := freeFibres_ex (s := s) ids
  refine ⟨by rw [h], by rw [h], fun i hi => ?_⟩
  rw [tget_freeFibres, hi, ite_self]

theorem ends_endConvoy (c : Nat) : Ends s (s.endConvoy c) := by
  unfold State.endConvoy
  split
  · rename_i v _
    refine Ends.trans (t := s.endFibres c ((s.lanes v).map (·.id))) (ends_freeFibres ((s.lanes v).map (·.id))) ?_
    unfold State.dropEmpty
    repeat' split
    all_goals exact ends_of_eq rfl rfl rfl
  · exact ends_refl s

/-- The fibres of a convoy that ends exist no more. -/
theorem endConvoy_fibres {c : Nat} {v : Convoy} (hv : tget s.convoys c = some v) {l : Ln} (hl : l ∈ s.lanes v) :
    tget (s.endConvoy c).fibres l.id = none := by
  have hfree : tget (s.freeFibres ((s.lanes v).map (·.id))).fibres l.id = none := by
    rw [tget_freeFibres, if_pos (List.mem_map_of_mem hl)]
  have hdrop : ∀ t : State, (t.dropEmpty c).fibres = t.fibres := fun t => by
    unfold State.dropEmpty
    repeat' split
    all_goals rfl
  unfold State.endConvoy
  rw [hv]
  dsimp only
  rw [hdrop]
  exact hfree

theorem ends_drainEnded (ps : List Nat) : Ends s (s.drainEnded ps) := by
  unfold State.drainEnded
  refine ends_foldl (fun s p => ?_) ps s
  exact ends_of_eq rfl rfl rfl

theorem ends_endAll (ws : List Nat) : Ends s (s.endAll ws) :=
  Ends.trans (t := s.freeFibres ((s.fibres.filter fun x => ws.contains x.2.wg).map (·.1))) (ends_freeFibres _) (ends_of_eq rfl rfl rfl)

theorem ends_leaveSps (ps : List Nat) : Ends s (s.leaveSps ps) := by
  unfold State.leaveSps
  refine ends_foldl (fun s p => ?_) ps s
  exact ends_of_eq rfl rfl rfl

theorem ends_dropWg (w : Nat) : Ends s (s.dropWg w) :=
  ((ends_leaveSps (((tget s.wgs w).map (·.sps)).getD [])).trans (ends_drainEnded _)).trans (ends_of_eq rfl rfl rfl)

theorem ends_completion (la : Launch) (x : Word) : Ends s (s.completion la x) := by
  unfold State.completion
  dsimp only
  generalize (if la.late then x ||| 0x80000000 else x) = y
  repeat' split
  · exact ends_refl s
  · exact (served_post32 ..).ends.trans (served_post32 ..).ends
  · exact (served_post32 ..).ends
  · exact ends_refl s

/-- A launch marked aborted, with the records of what aborts it. -/
def Launch.abort (la : Launch) (cls : Nat) (recs : List Rec) : Launch :=
  { la with aborted := some (la.aborted.getD cls), recs := la.recs ++ recs }

theorem abortLaunch_of_some {l : Nat} {la : Launch} (h : tget s.launches l = some la) (cls : Nat) (recs : List Rec) :
    s.abortLaunch l cls recs = { s with launches := tput s.launches l (la.abort cls recs) } := by
  unfold State.abortLaunch; rw [h]; rfl

theorem abortLaunch_of_none {l : Nat} (h : tget s.launches l = none) (cls : Nat) (r : Rec) :
    s.abortLaunch l cls [r] = s.record r true := by
  unfold State.abortLaunch; rw [h]; rfl

/-- An aborted launch that is settled ends what it had, and writes its records. -/
theorem settleAbort_cases {l : Nat} {la : Launch} (hl : tget s.launches l = some la) (ha : la.aborted.isSome = true) :
    s.settleAbort l = s ∨ tget (s.settleAbort l).launches l = none ∧ (∀ i, tget s.fibres i = none → tget (s.settleAbort l).fibres i = none) ∧
      (la.recs ≠ [] → s.mgmt.seq < (s.settleAbort l).mgmt.seq) := by
  obtain ⟨cls, hcls⟩ := Option.isSome_iff_exists.1 ha
  unfold State.settleAbort
  rw [hl]
  dsimp only
  rw [hcls]
  dsimp only
  split
  · exact .inl rfl
  · right
    generalize hs0 : (s.endAll ((s.wgsOf l).map (·.1))).drainEnded ((s.wgsOf l).flatMap fun x => x.2.sps) = s0
    have h0 : Ends s s0 := by
      rw [← hs0]
      exact (ends_endAll _).trans (ends_drainEnded _)
    have h1 : Ends s0 ((s0.breakSlots l).completion la (0x40000000 + BitVec.ofNat 32 cls)) :=
      Ends.trans (t := s0.breakSlots l) (ends_of_eq rfl rfl rfl) (ends_completion ..)
    generalize (s0.breakSlots l).completion la (0x40000000 + BitVec.ofNat 32 cls) = s1 at h1 ⊢
    have h2 : Ends s1 ((s1.wgsOf l).foldl (fun s x => s.dropWg x.1) s1) := by
      exact ends_foldl (fun _ _ => ends_dropWg _) _ s1
    generalize (s1.wgsOf l).foldl (fun s x => s.dropWg x.1) s1 = s2 at h2 ⊢
    obtain ⟨hseq, hla, hfib⟩ := (h0.trans h1).trans h2
    obtain ⟨⟨hle, hlr, hfr⟩, hlt⟩ := ends_records (s.reportsOf l ++ la.recs ++ s.entryRecsOf l la)
      { s2.freeSlots l with launches := tdel s2.launches l }
    refine ⟨by rw [hlr]; exact tget_tdel, fun i hi => hfr i (hfib i hi), fun hr => hseq.trans_lt (hlt ?_)⟩
    simp [hr]

end

/-- Settles O43: the fibres end with the convoy; the launch keeps the record until its records are written. -/
theorem trapAborts : Obligations.TrapAborts := by
  intro s c v g x hv hg _ hx
  have hcond : ¬(x.replay && (s.lanes v).all fun l => decide (l.f.replay < 3)) = true := by
    rw [Bool.and_eq_true, not_and, List.all_eq_true]
    intro hr hall
    rcases hx with hx | ⟨l, hl, h3⟩
    · rw [hx] at hr; cases hr
    · have := of_decide_eq_true (hall l hl)
      omega
  have htrap : s.trap c x = ((s.abortLaunch g.launch x.cls.toNat
      [trapRecord v (((s.lanes v).find? fun l => l.pos == v.posOf x.pos).map (·.f)) g x 0x6]).endConvoy c).settleAbort g.launch := by
    unfold State.trap
    rw [hv]
    dsimp only
    rw [hg]
    dsimp only
    rw [if_neg hcond]
  generalize hr : trapRecord v (((s.lanes v).find? fun l => l.pos == v.posOf x.pos).map (·.f)) g x 0x6 = r at htrap
  rw [htrap]
  have hwas : ∃ f, trapRecord v f g x 0x6 = r := ⟨_, hr⟩
  cases hla : tget s.launches g.launch with
  | none =>
    obtain ⟨hrec, hlt⟩ := ends_record (s := s) r true
    obtain ⟨q, hserved, -⟩ := record_ex s r true
    have hend := ends_endConvoy (s := s.record r true) c
    have hnone : tget ((s.record r true).endConvoy c).launches g.launch = none := by rw [hend.2.1, hrec.2.1, hla]
    have hkeep : ((s.record r true).endConvoy c).settleAbort g.launch = (s.record r true).endConvoy c := by
      unfold State.settleAbort; rw [hnone]
    obtain ⟨hcv, hln⟩ : (s.record r true).convoys = s.convoys ∧ (s.record r true).lanes v = s.lanes v := by
      obtain ⟨m, g', ws, ms, b, h', p, n, sp, he⟩ := hserved
      rw [he]
      exact ⟨rfl, rfl⟩
    rw [abortLaunch_of_none hla, hkeep]
    refine ⟨fun l hl => endConvoy_fibres (by rw [hcv]; exact hv) (by rw [hln]; exact hl), fun la h => ?_, fun _ => hlt.trans_le hend.1⟩
    rw [hnone] at h
    cases h
  | some la =>
    rw [abortLaunch_of_some hla]
    generalize hs0 : ({ s with launches := tput s.launches g.launch (la.abort x.cls.toNat [r]) } : State) = s0
    have hend := ends_endConvoy (s := s0) c
    generalize hs1 : s0.endConvoy c = s1 at hend ⊢
    have hseq : s.mgmt.seq ≤ s1.mgmt.seq := by have := hend.1; rw [← hs0] at this; exact this
    have hfib : ∀ l ∈ s.lanes v, tget s1.fibres l.id = none := fun l hl => by
      rw [← hs1]
      exact endConvoy_fibres (v := v) (by rw [← hs0]; exact hv) (by rw [← hs0]; exact hl)
    have hget : tget s1.launches g.launch = some (la.abort x.cls.toNat [r]) := by
      rw [hend.2.1, ← hs0]; exact tget_tput
    rcases settleAbort_cases hget rfl with h | ⟨hgone, hfibs, hlt⟩
    · rw [h]
      refine ⟨hfib, fun lb hlb => ?_, fun hn => absurd (hn.symm.trans hget) (by simp)⟩
      rw [hget] at hlb
      cases hlb
      obtain ⟨f, hf⟩ := hwas
      exact ⟨rfl, f, List.mem_append_right _ (List.mem_singleton.2 hf)⟩
    · refine ⟨fun l hl => hfibs _ (hfib l hl), fun lb hlb => ?_, fun _ => hseq.trans_lt (hlt (by simp [Launch.abort]))⟩
      rw [hgone] at hlb
      cases hlb

end Sys2Proof.Machine

/-! SUPPORT. The Drover: launches of serais, the start of clauses, and the ends of holds (R83, R84, R146, R304, R306, R307, R386). -/

namespace Sys2Proof.Machine

/-! ## Launches of serais (R83, R84) -/

section
variable {s : State} {k : SeraiKey} {x : Serai}

theorem seraiLaunch_of {cond : Serai → Bool} (hk : s.seraiOf k = some x) (hm : s.mayLaunch x = true) (hc : cond x = true) :
    seraiLaunch s k cond = .next (s.launchSerai x) := by
  rw [seraiLaunch, hk]
  exact if_pos (by rw [hm, hc]; rfl)

/-- The fold that looks for the serai opened first keeps one that none precedes. -/
theorem foldl_opened_first {r : List Serai} (h : ∀ y ∈ r, x.opened ≤ y.opened) :
    (r.foldl (fun (a : Serai) b => if b.opened < a.opened then b else a) x) = x := by
  induction r with
  | nil => rfl
  | cons y r ih =>
    rw [List.foldl_cons, if_neg (Nat.not_lt.2 (h y List.mem_cons_self))]
    exact ih fun z hz => h z (List.mem_cons_of_mem _ hz)

theorem arrive_convoys (i : Nat) (a : Int) : (s.arrive i a).convoys = s.convoys := by
  unfold State.arrive
  split
  · rfl
  · dsimp only
    repeat' split
    all_goals rfl

theorem letIn_convoys (spn : Nat) : (s.letIn spn).convoys = s.convoys := by
  unfold State.letIn
  generalize (s.outside.filter _) = l
  induction l generalizing s with
  | nil => rfl
  | cons o l ih =>
    rw [List.foldl_cons, ih]
    dsimp only
    split
    · split
      · exact arrive_convoys ..
      · rfl
    · split
      · exact arrive_convoys ..
      · rfl

/-- What a launch of one waiting fibre puts in force. -/
theorem launchSerai_one {i : Nat} {f : Fibre} {a : Int} (hx : x.fibres = [(i, a)]) (hf : tget s.fibres i = some f) :
    s.seraiSlices x = [f.lane / 4] ∧ ∃ v, tget (s.launchSerai x).convoys s.ids = some v ∧ v.hdr = x.entry ∧ v.slices = [f.lane / 4] ∧
      v.fib = (List.range 4).map (fun j => if j = f.lane % 4 then some i else none) ∧ v.u = f.unif ∧ v.wait = .clause := by
  have hsl : s.seraiSlices x = [f.lane / 4] := by
    rw [State.seraiSlices, hx]
    simp only [List.filterMap_cons, hf, Option.map_some, List.filterMap_nil]
    rfl
  have hfib : (s.seraiSlices x).flatMap (fun j => (List.range 4).map fun n => (oldest (s.waitingIn x (4 * j + n))).map (·.1)) =
      (List.range 4).map (fun j => if j = f.lane % 4 then some i else none) := by
    rw [hsl, List.flatMap_singleton]
    refine List.map_congr_left fun j hj => ?_
    have hj4 := List.mem_range.1 hj
    rw [State.waitingIn, hx]
    by_cases h : j = f.lane % 4
    · have : 4 * (f.lane / 4) + f.lane % 4 = f.lane := Nat.div_add_mod ..
      simp [hf, h, oldest, this]
    · have : f.lane ≠ 4 * (f.lane / 4) + j := by omega
      simp [hf, h, oldest, this]
  have hids : ((List.range 4).map (fun j => if j = f.lane % 4 then some i else none)).filterMap (fun i => i) = [i] := by
    have h4 : f.lane % 4 < 4 := Nat.mod_lt _ (by decide)
    generalize f.lane % 4 = n at h4
    interval_cases n <;> rfl
  refine ⟨hsl, ?_⟩
  unfold State.launchSerai
  simp only [hfib, hids]
  refine ⟨_, (show tget (State.letIn _ _).convoys s.ids = _ by rw [letIn_convoys]; exact tget_tput), rfl, hsl, rfl, ?_, rfl⟩
  rw [hf]
  rfl

end

/-- Settles O46: each launch and each start by its own condition. -/
theorem droverSteps : Obligations.DroverSteps := by
  refine ⟨fun s k x hk hm => ⟨fun h => ?_, fun y hy h => ?_, fun h => ?_, fun r o f hl hr h63 ho hf hs => ?_, fun i f a hx hf _ hsz => ?_⟩,
    fun s c v hv => ⟨fun g w hw hg ha hh hfe hb => ?_, fun ha hr ht => ?_⟩⟩
  · exact seraiLaunch_of hk hm (decide_eq_true h)
  · refine seraiLaunch_of hk hm ?_
    rw [hy]
    exact decide_eq_true h
  · refine seraiLaunch_of hk hm (List.all_eq_true.2 fun v hv => ?_)
    by_cases hw : v.2.wg = x.wg
    · by_cases hsp : v.2.spn = x.spn
      · rcases h v hv hw hsp with hwt | ⟨b, p, hwt⟩ <;> simp [hwt]
      · simp [hsp]
    · simp [hw]
  · show execSeraiLaunchCapacity k.spn s = _
    unfold execSeraiLaunchCapacity
    rw [hl]
    dsimp only
    rw [foldl_opened_first hr, if_neg, if_neg (by omega), if_pos hm]
    rw [Bool.not_eq_true', Bool.not_eq_false]
    exact List.any_eq_true.2 ⟨o, ho, by rw [hf]; exact beq_iff_eq.2 hs⟩
  · obtain ⟨hsl, v, hv⟩ := launchSerai_one hx hf
    refine ⟨_, v, seraiLaunch_of hk hm (decide_eq_true ?_), hv⟩
    rw [State.seraiSize, hsz, hsl]
    exact Nat.le_refl _
  · intro h s0 s1 s2 hawait hwaits href hmix
    have hstart : s0.startClause c v h = s2.beginClause c v h := by
      rw [State.startClause, hwaits, if_neg (by decide)]
      rw [show (s0.observeHeader v h).refOf v _ = none from href]
      exact if_pos hmix
    show execClauseWaitMet c s = _
    rw [execClauseWaitMet, hv]
    dsimp only
    rw [hw]
    dsimp only
    rw [hg]
    dsimp only
    rw [ha, hh, hb, if_neg Bool.false_ne_true, if_neg Bool.false_ne_true]
    dsimp only
    rw [hfe]
    dsimp only
    rw [show s.awaits [(v.hdr, clauseSpan (Header.ofWord w))] [] = none from hawait]
    exact congrArg _ hstart
  · show execConvoyAged c s = _
    rw [execConvoyAged, hv]
    exact if_pos (by rw [ha, hr, decide_eq_true ht]; rfl)

/-- Settles O47: each hold ends by its own condition. -/
theorem holdsEnd : Obligations.HoldsEnd := by
  refine ⟨fun s c v hv => ?_, fun s core => ?_⟩
  · intro now ydeadl
    refine ⟨fun x hw h => ?_, fun x hw h => ?_, fun due hw hd hy hm h => ?_, fun t hw hm ht => ?_, fun t n hw hm hf => ?_,
      fun t n hw hm hf ht => ?_⟩
    · have hroom : ((s.lanes v).any fun l => l.f.cnt.get x == 63) = false :=
        List.any_eq_false.2 fun l hl => by simpa using h l hl
      show execIssueCounterRoom c s = _
      rw [execIssueCounterRoom, hv]
      dsimp only
      rw [hw]
      dsimp only
      rw [hroom, if_neg Bool.false_ne_true]
    · show execEngineAccept c s = _
      rw [execEngineAccept, hv]
      dsimp only
      rw [hw]
      exact if_pos h
    · have hbusy : (s.cmds.any fun m => (m.2.phase == .cancelling || (m.2.live && m.2.phase != .performed && m.2.inRegion (s.lanes v)
          && (s.opsOf m.2).any fun o => o.engine == .enm)) && (s.lanes v).any fun l => m.2.fibres.contains l.id) = false := by
        refine List.any_eq_false.2 fun m hmem => ?_
        rw [Bool.and_eq_true, not_and]
        intro he hany
        obtain ⟨l, hl, hc⟩ := List.any_eq_true.1 hany
        refine h m hmem ?_ l hl (by simpa using hc)
        simpa [and_assoc] using he
      show execReplayWaitExpiry c s = _
      rw [execReplayWaitExpiry, hm]
      dsimp only
      rw [hw]
      dsimp only
      rw [hbusy]
      exact if_pos ⟨hd, rfl, by rw [hy]; rfl⟩
    · show execLogfullExpiry c s = _
      rw [execLogfullExpiry, hm]
      dsimp only
      rw [hw]
      exact if_pos ht
    · show execReturnFrameTimeout c s = _
      rw [execReturnFrameTimeout, hm]
      dsimp only
      rw [hw]
      exact if_pos hf
    · show execReturnFrameTimeout c s = _
      rw [execReturnFrameTimeout, hm]
      dsimp only
      rw [hw]
      exact (if_neg (Nat.not_le.2 hf)).trans (if_pos ht)
  · intro q r
    refine ⟨fun h => if_neg h, fun w g hq hr hv hw hy hh => ?_⟩
    have hstuck : (!(s.convoys.filter fun v => coreOf v.2.spn == core).isEmpty &&
        (s.convoys.filter fun v => coreOf v.2.spn == core).all (fun v => v.2.wantsRows) && !(s.core core).grow.isEmpty &&
        decide ((s.grantAll (s.core core).grow).2 = (s.core core).grow)) = true := by
      obtain ⟨v, hmem, hc⟩ := hv
      have h1 : (s.convoys.filter fun v => coreOf v.2.spn == core).isEmpty = false := by
        rw [List.isEmpty_eq_false_iff]
        exact List.ne_nil_of_mem (List.mem_filter.2 ⟨hmem, beq_iff_eq.2 hc⟩)
      have h2 : (s.convoys.filter fun v => coreOf v.2.spn == core).all (fun v => v.2.wantsRows) = true :=
        List.all_eq_true.2 fun v hv => hw v (List.mem_filter.1 hv).1 (beq_iff_eq.1 (List.mem_filter.1 hv).2)
      have h3 : (s.core core).grow.isEmpty = false := List.isEmpty_eq_false_iff.2 hq
      rw [h1, h2, h3, decide_eq_true hr]
      rfl
    have hhold : (g.sps.any fun p => (s.sp p).hold.isSome) = false :=
      List.any_eq_false.2 fun p hp => by simp [hh p hp]
    have hexec : execGrowDeadlockEvict core s = if g.evicted == some false then .next (s.growTraps w)
        else if s.cmds.any fun m => m.2.wg == w && m.2.live &&
            !(s.cancellable m.2 && m.2.inRegion ((s.convoysOf w).flatMap fun v => s.lanes v.2)) then .next s
        else .next (s.evict w g) := by
      rw [execGrowDeadlockEvict, hstuck, hy]
      dsimp only
      rw [hhold, if_neg Bool.false_ne_true]
    refine ⟨fun he hc => hexec.trans ?_, fun he => hexec.trans (by rw [he]; rfl)⟩
    have hcmds : (s.cmds.any fun m => m.2.wg == w && m.2.live &&
        !(s.cancellable m.2 && m.2.inRegion ((s.convoysOf w).flatMap fun v => s.lanes v.2))) = false := by
      refine List.any_eq_false.2 fun m hm => ?_
      by_cases hwg : m.2.wg = w
      · by_cases hl : m.2.live = true
        · obtain ⟨h1, h2⟩ := hc m hm hwg hl
          simp [h1, h2]
        · simp [hl]
      · simp [hwg]
    rw [if_neg (by simpa using he), hcmds, if_neg Bool.false_ne_true]

end Sys2Proof.Machine

/-! SUPPORT. Engine commands as they begin and complete (R128, R243, R246, R247, R427), and the waits of queue instructions (R65, R277,
R278). -/

namespace Sys2Proof.Machine

/-! ## Commands that begin (R243, R427) -/

section
variable {s : State} {k : Nat} {m : Cmd}

theorem takeEntries_of_none_wanted (hm : tget s.cmds k = some m) (hw : m.want = []) : s.takeEntries k = s := by
  unfold State.takeEntries
  rw [hm]
  dsimp only
  rw [hw]
  rfl

theorem untaken_of_not_block (h : ∀ b loc, m.op ≠ .block b loc) : m.untaken = false := by
  unfold Cmd.untaken
  split
  · exact absurd ‹m.op = _› (h _ _)
  · rfl

theorem endHalted_of_not_block (h : ∀ b loc, m.op ≠ .block b loc) (ht : (m.inner.getD m.op).destTile = none) :
    s.endHalted k m = s.finish k 0x800F none := by
  unfold State.endHalted
  rw [ht]
  dsimp only
  split
  · exact absurd ‹m.op = _› (h _ _)
  · rfl

theorem endHalted_of_taken {b : Cap} {loc : Option Cap} {x : CmdOp} (ho : m.op = .block b loc) (hb : b.remote = none)
    (hi : m.inner = some x) (ht : x.destTile = none) : s.endHalted k m = s.finishBlock k b.lo 0x800F := by
  unfold State.endHalted
  rw [hi, show ((some x).getD m.op).destTile = none from ht]
  dsimp only
  rw [ho]
  dsimp only
  rw [hb]
  rfl

theorem commandBegin_of_halted (hm : tget s.cmds k = some m) (hp : m.phase = .queued) (hw : m.want = []) (hh : s.queueHalted k m = true)
    (hu : m.untaken = false) : exec (.commandBegin k) s = .next (s.endHalted k m) := by
  show execCommandBegin k s = _
  rw [execCommandBegin, takeEntries_of_none_wanted hm hw, hm]
  dsimp only
  rw [hp, hh, hu]
  rfl

/-- A command that nothing holds begins. -/
theorem commandBegin_of_free (hm : tget s.cmds k = some m) (hp : m.phase = .queued) (hw : m.want = []) (hh : s.queueHalted k m = false)
    (ho : s.orderedHeld k m = false) (he : s.entriesHeld k m.op m.entries = false) (hi : m.inner = none) (hb : ∀ b loc, m.op ≠ .block b loc)
    (hs : ∀ l i b, m.op ≠ .stage l i b) : exec (.commandBegin k) s = .next (s.startOp k m m.op) := by
  show execCommandBegin k s = _
  rw [execCommandBegin, takeEntries_of_none_wanted hm hw, hm]
  dsimp only
  rw [hp, hh, ho, hi, show s.entriesHeld k (none.getD m.op) m.entries = false from he, hw]
  rw [if_neg (by decide), Bool.false_and, if_neg Bool.false_ne_true, if_neg (by decide)]
  split
  · exact absurd ‹m.op = _› (hb _ _)
  · exact absurd ‹m.op = _› (hs _ _ _)
  · rfl
  · contradiction

/-- What an operation that runs does to its command, once its memory is awake. -/
def State.setRunning (s : State) (k : Nat) (m : Cmd) (op : CmdOp) (l : List (Addr × Nat)) : State :=
  ((l.foldl (fun s r => s.wakeRange r.1 r.2) s).freshTile m op).modCmd k fun m => { m with phase := .running, status := 1 }

theorem runOp_of_awake {op : CmdOp} {c : Nat} {l r : List (Addr × Nat)} (hc : s.clxCount m.wg op = c) (hl : op.ranges c m.core false = l)
    (hr : op.ranges c m.core true = r) (ha : s.awaits l r = none) (hclx : ∀ d a x y l r f i, op ≠ .clx d a x y l r f i)
    (hnmc : ∀ t g x y l a b f, op ≠ .nmc t g x y l a b f) : s.runOp k m op = s.setRunning k m op (l ++ r) := by
  unfold State.runOp
  dsimp only
  rw [hc, hl, hr, ha]
  dsimp only
  split
  · exact absurd rfl (hclx _ _ _ _ _ _ _ _)
  · exact absurd rfl (hnmc _ _ _ _ _ _ _ _)
  · rfl

theorem runOp_nmc_of_awake {op : CmdOp} {c : Nat} {l r : List (Addr × Nat)} {t : Cap} {g x y n a b f} (ho : op = .nmc t g x y n a b f)
    (hc : s.clxCount m.wg op = c) (hl : op.ranges c m.core false = l) (hr : op.ranges c m.core true = r) (ha : s.awaits l r = none) :
    s.runOp k m op = (s.nmcFlush t y n).setRunning k m op (l ++ r) := by
  subst ho hc hl hr
  unfold State.runOp
  dsimp only
  rw [ha]
  rfl

theorem startOp_of_refused {op : CmdOp} {n : Nat} {a : Addr} (h : s.beginCause m op = some (n, a)) (hc : n ≠ 0x0C) (he : n ≠ 0x0B)
    (hp : op.peer = none) : s.startOp k m op = s.refuseCmd k m n a := by
  rw [State.startOp, h]
  dsimp only
  rw [if_neg hc, hp]
  dsimp only
  rw [State.extentRec, if_pos he]

end

/-! ## Commands that complete (R128, R246) -/

theorem completeCmd_of_performed {s : State} {k : Nat} {m : Cmd} {fails : List LineFail} {d : Done} {x : Cls}
    (hm : tget s.cmds k = some m) (hp : m.phase = .running) (hl : s.host.mode = 0 ∨ (s.failLines fails).chunksLeft m (m.inner.getD m.op) ≤ 1)
    (ha : (s.failLines fails).opAwaits m (m.inner.getD m.op) = none)
    (hd : (s.failLines fails).perform k m (m.inner.getD m.op) = some d) (hx : m.cls = x) :
    completeCmd k x fails s = .next (d.s.complete k m d) := by
  rw [completeCmd, hm]
  dsimp only
  rw [if_neg (by simp [hp, hx]), ha]
  dsimp only
  rw [if_neg (by
    rcases hl with h | h
    · simp [h]
    · simp [Nat.not_lt.2 h]), hd]

/-- The end of an operation without flags or cause whose results are not ORDERED is its STATUS. -/
theorem complete_of_plain {k : Nat} {m : Cmd} {d : Done} (hc : d.cause = none) (hf : d.fl = 0) (ho : d.s.ordered m = false)
    (hi : m.inner = none) : d.s.complete k m d = d.s.finish k (if d.lost || m.lost then 3 else 2) none := by
  rw [State.complete]
  dsimp only
  rw [hf, ho, hc, hi, if_pos rfl, if_neg Bool.false_ne_true]
  dsimp only
  split
  · contradiction
  · rfl

/-- Settles O48: each event of a command by the lemma of its case. -/
theorem commands : Obligations.Commands := by
  refine ⟨fun s k m hm => ⟨fun hp hw hh hb ht => ?_, fun b loc x hp hw hh ho hb hi ht => ?_, fun hp hw hh ho he hi hb hs hclx => ?_,
    fun b loc hp ho hs => ?_⟩, fun s k m fails d hm hp hl ha hd => ?_⟩
  · rw [commandBegin_of_halted hm hp hw hh (untaken_of_not_block hb), endHalted_of_not_block hb ht]
  · rw [commandBegin_of_halted hm hp hw hh (by simp [Cmd.untaken, ho, hi]), endHalted_of_taken ho hb hi ht]
  · have hstart := commandBegin_of_free hm hp hw hh ho he hi hb hs
    refine ⟨?_, fun n a hn hc hpeer he => hstart.trans (congrArg _ (startOp_of_refused hn hc he hpeer))⟩
    intro rd wr go hok hawait
    have hrun : s.startOp k m m.op = s.runOp k m m.op := by rw [State.startOp, hok]
    refine ⟨fun hn => ?_, fun t g x y l a b f hn => ?_⟩
    · rw [hstart, hrun, runOp_of_awake rfl rfl rfl hawait hclx hn]
      rfl
    · rw [hstart, hrun, runOp_nmc_of_awake hn rfl rfl rfl hawait]
      rfl
  · show execBlockTakeRetry k s = _
    rw [execBlockTakeRetry, hm]
    dsimp only
    rw [hp, ho]
    exact if_neg hs
  · have h {x : Cls} := completeCmd_of_performed (x := x) hm hp hl ha hd
    refine ⟨fun hc => ?_, fun hc => ?_, fun hc => ?_, fun hf hc => ?_, fun hf hc => ?_, fun hf hc => ?_,
      fun hc hf ho hi _ => ?_⟩
    · exact h hc
    · exact h hc
    · exact h hc
    · subst hf
      exact h hc
    · subst hf
      exact h hc
    · subst hf
      exact h hc
    · exact complete_of_plain hc hf ho hi

/-! ## Waiting pushes and pops, and answers of peers (R65, R277, R278) -/

section
variable {s : State} {c : Nat} {v : Convoy}

/-- An acknowledgement that is not a duplicate reaches the instruction that waits for it. -/
theorem ack_of_unseen {w : RemoteWait} {a : QueueAck} {m : Arrival} (hv : tget s.convoys c = some v) (hw : v.wait = .remote w)
    (h : s.unseen m.on m.seq = true) :
    exec (.forwardedQueueAckReceive c ⟨a, m⟩) s = .next ((s.received m.on m.seq).takeAck c v w a) := by
  show execForwardedQueueAckReceive c ⟨a, m⟩ s = _
  rw [execForwardedQueueAckReceive, State.once, if_pos h]
  rw [show tget (s.received m.on m.seq).convoys c = some v from hv]
  dsimp only
  rw [hw]

end

/-- Settles O49: a waiting push or pop by the state of its header, an acknowledgement by what it brings. -/
theorem queueWaits : Obligations.QueueWaits := by
  refine ⟨fun s c v w st hv hw => ⟨fun hp hs ht => ?_, fun hp hs hm hr => ?_, fun hp hs hh hd => ?_, fun hp hs hm hc hl hb he hn => ?_⟩,
    fun s c v w a m hv hw => ?_⟩
  · show execQpushRetry c s = _
    rw [execQpushRetry, hv]
    dsimp only
    rw [hw]
    dsimp only
    rw [hp, hs]
    exact if_pos ht
  · show execQpushRetry c s = _
    rw [execQpushRetry, hv]
    dsimp only
    rw [hw]
    dsimp only
    rw [hp, hs, hm]
    exact congrArg _ (tryPush_of_room hr)
  · show execQpopRetry c s = _
    rw [execQpopRetry, hv]
    dsimp only
    rw [hw]
    dsimp only
    rw [hp, hs]
    dsimp only
    rw [if_neg (not_not.2 hh), if_pos hd]
  · show execQpopRetry c s = _
    rw [execQpopRetry, hv]
    dsimp only
    rw [hw]
    dsimp only
    rw [hp, hs, hm]
    exact congrArg _ (tryPop_of_empty (fuel := 65536) ⟨hc, hl, hb⟩ he hn)
  · intro t
    have hack := ack_of_unseen (a := a) (m := m) hv hw
    refine ⟨fun hu => ?_, fun hu hc => ?_, fun d hu hd hc => ?_, fun hu hd hb hl hc => ?_, fun b hu hd hb hc ho => ?_, fun q n => rfl⟩
    · show execForwardedQueueAckReceive c ⟨a, m⟩ s = _
      rw [execForwardedQueueAckReceive, State.once, if_neg (by simp [hu])]
    · rw [hack hu, State.takeAck, if_pos hc]
    · rw [hack hu, State.takeAck, if_neg hc, hd]
    · rw [hack hu, State.takeAck, if_neg (by simp [hc]), hd, hb]
      simp [hl, hc, t]
    · obtain ⟨k, off⟩ := b
      rw [hack hu, State.takeAck, if_neg hc, hd, hb]
      simp [ho, t]

end Sys2Proof.Machine

/-! SUPPORT. Launches from the waybill to staging (R288, R294, R297, R302), and workgroups that end, yield, are saved and restored (R298,
R299, R303, R309, R310). -/

namespace Sys2Proof.Machine

/-! ## The Anvil's images (R294, R296) -/

section
variable {s : State} {l die : Nat} {la : Launch}

theorem enterImage_head {p : BitVec 256 → Bool} {cap : Nat} {st st' : List AnvilImage} {x : AnvilImage}
    (h : enterImage p cap st x = some st') : ∃ rest, st' = x :: rest := by
  unfold enterImage at h
  dsimp only at h
  split at h
  · exact ⟨_, (Option.some.inj h).symm⟩
  · cases h

theorem served_firmwarePass (s : State) (w : Bool) (k n : Nat) : Served s (s.firmwarePass w k n) := by
  unfold State.firmwarePass
  split
  · exact served_refl s
  · exact served_passage s ..

theorem served_anvil {t : State} (h : Served s t) : t.anvil = s.anvil := by
  obtain ⟨m, g, ws, ms, b, x, p, n, q, rfl⟩ := h; rfl

theorem served_launches {t : State} (h : Served s t) : t.launches = s.launches := by
  obtain ⟨m, g, ws, ms, b, x, p, n, q, rfl⟩ := h; rfl

theorem enterDie_store (x : AnvilImage) : (s.enterDie die x).anvil.store = s.anvil.store := by
  unfold State.enterDie
  split <;> rfl

theorem enterDie_launches (x : AnvilImage) : (s.enterDie die x).launches = s.launches := by
  unfold State.enterDie
  split <;> rfl

theorem answerCode_launch {c : CodeState} {loops : List (Addr × Addr × Nat)} (h : tget s.launches l = some la) :
    tget (s.answerCode l die c loops).launches l =
      some { la with code := tput la.code die c, loops := if c = .residual then loops else la.loops } := by
  show tget (tmod s.launches l _) l = _
  rw [tget_tmod, h]
  rfl

/-- A finished image enters the store, and the launch gets its loops. -/
theorem finishImage_entered {x : AnvilImage} {st : List AnvilImage} (h : tget s.launches l = some la)
    (hx : enterImage s.pinned anvilStore s.anvil.store x = some st) :
    (s.finishImage l die x).anvil.store = st ∧
      tget (s.finishImage l die x).launches l = some { la with code := tput la.code die .residual, loops := x.loops } := by
  have hserved := served_firmwarePass ({ s with anvil := { s.anvil with store := st } } : State) true (anvilKey x.key) x.bytes
  rw [State.finishImage, hx]
  dsimp only
  refine ⟨?_, ?_⟩
  · show (State.enterDie _ die x).anvil.store = st
    rw [enterDie_store, served_anvil hserved]
  · refine answerCode_launch ?_
    rw [enterDie_launches, served_launches hserved]
    exact h

/-- An abandoned key enters the store as a negative entry, and the launch runs original code. -/
theorem abandonKey_entered {st : List AnvilImage} (h : tget s.launches l = some la)
    (hp : (s.anvil.store.any (fun x => x.key == la.key) && s.pinned la.key) = false)
    (hx : enterImage s.pinned anvilStore s.anvil.store { key := la.key, bytes := negativeBytes, negative := true } = some st) :
    (s.abandonKey l die la).anvil = { s.anvil with store := st } ∧
      tget (s.abandonKey l die la).launches l = some { la with code := tput la.code die .original } := by
  have hserved := served_firmwarePass ({ s with anvil := { s.anvil with store := st } } : State) true (anvilKey la.key) negativeBytes
  rw [State.abandonKey, hp, hx, if_neg Bool.false_ne_true]
  refine ⟨served_anvil hserved, ?_⟩
  refine (answerCode_launch (die := die) (la := la) ?_).trans rfl
  rw [served_launches hserved]
  exact h

end

/-- Settles O50: each event by its own conditions; the Anvil's answers by what they enter. -/
theorem launchesBegin : Obligations.LaunchesBegin := by
  intro s l w die i la g b s1
  refine ⟨fun hn hb hh ha => ?_, fun hl => ⟨fun hc ht => ⟨fun x hx => ?_, fun hx => ?_⟩, fun hc ht => ?_, fun x st hx hneg => ?_,
    fun st hp hx => ?_, fun t hu hs hr ho ht => ?_, fun hd hlate hu ht => ?_⟩, fun hg hl hp hb ha hr hc => ?_⟩
  · show execWaybillPop die s = _
    rw [execWaybillPop, hn]
    dsimp only
    rw [if_neg (by rw [show State.bindBad _ _ = false from hb]; decide), if_neg (by rw [show (State.qhdr _ _).bad = false from hh]; decide)]
    rw [show State.awaits _ _ _ = none from ha]
  · show execAnvilSpecialiseDone l die s = _
    rw [execAnvilSpecialiseDone, hl]
    dsimp only
    rw [if_pos ⟨hc, ht⟩, hx]
  · show execAnvilSpecialiseDone l die s = _
    rw [execAnvilSpecialiseDone, hl]
    dsimp only
    rw [if_pos ⟨hc, ht⟩, hx]
  · show execAnvilBudgetExpiry l die s = _
    rw [execAnvilBudgetExpiry, hl]
    exact if_pos ⟨hc, ht⟩
  · intro t
    obtain ⟨hst, hla⟩ := finishImage_entered (die := die) hl hx
    obtain ⟨rest, rfl⟩ := enterImage_head hx
    refine ⟨hst, ?_, hla⟩
    rw [show t.anvil.store = _ from hst]
    exact List.find?_cons_of_pos (by simp)
  · refine abandonKey_entered hl ?_ hx
    rcases hp with hp | hp
    · rw [hp, Bool.and_false]
    · rw [List.any_eq_false.2 fun x hx => by simpa using hp x hx, Bool.false_and]
  · show execPlacement l s = _
    rw [execPlacement, hl]
    dsimp only
    rw [if_neg (by simp [hu, hs, hr, ho]), ht]
  · show execDeadlineExpiry l s = _
    rw [execDeadlineExpiry, hl]
    exact if_pos ⟨hd, by simp [hlate], hu, ht⟩
  · show execStagingComplete w s = _
    rw [execStagingComplete, hg]
    dsimp only
    rw [hl]
    dsimp only
    rw [hp, hb, ha, hr, if_neg (by decide), if_neg (by decide), if_neg (by decide)]
    rcases hc with hc | hc
    · rw [hc]
    · rw [hc]

/-- Settles O51: each event by its own conditions. -/
theorem workgroupsEnd : Obligations.WorkgroupsEnd := by
  intro s l w la g
  refine ⟨fun hg hl ha => ⟨fun hp hb hf hh => ?_, fun hp hb hr => ?_, fun sps hp hq hs hi hpl => ?_⟩,
    fun t hg hp => ⟨fun ht hh => ?_, fun hst hb hf => ?_⟩, fun hl hu hs hy ht hyo hp hh hab => ?_⟩
  · show execWorkgroupComplete w s = _
    rw [execWorkgroupComplete, hg]
    dsimp only
    rw [hl]
    dsimp only
    rw [ha, if_neg (by decide), hp, hb, hf, if_neg]
    rw [show (g.sps.any fun p => (s.sp p).hold.isSome) = false from List.any_eq_false.2 fun p hmem => by simp [hh p hmem]]
    decide
  · intro s1
    show execWbackComplete w s = _
    rw [execWbackComplete, hg]
    dsimp only
    rw [hl]
    dsimp only
    rw [hp, hb, ha, if_neg (by decide), State.entryRecs, hr]
    simp only [List.map_nil, List.foldl_nil, List.isEmpty_nil, Bool.not_true, Bool.or_false]
    rfl
  · intro s1
    have hhigh : (!la.cor && s.launches.any fun x => x.2.colour == g.colour && decide (g.prio < s.effOf x.2) && decide (0 < x.2.unplaced)) =
        false := by
      rcases hi with hi | hi
      · rw [hi]; rfl
      · rw [Bool.and_eq_false_iff]
        refine .inr (List.any_eq_false.2 fun x hx => ?_)
        by_cases hc : x.2.colour = g.colour
        · rcases hi x hx hc with h | h
          · simp [h]
          · simp [Nat.not_lt.2 h]
        · simp [hc]
    show execWorkgroupRestore w s = _
    rw [execWorkgroupRestore, hg]
    dsimp only
    rw [hl]
    dsimp only
    rw [hhigh, hp, ha, hs, if_neg (by simp [hq]), hpl]
  · show execYieldDeadlineExpiry w s = _
    rw [execYieldDeadlineExpiry, hg]
    dsimp only
    rw [hp]
    exact if_pos (by rw [hh, decide_eq_true ht]; rfl)
  · show execWorkgroupSaveDone w s = _
    rw [execWorkgroupSaveDone, hg]
    dsimp only
    rw [hp]
    refine if_pos ?_
    rw [hb, List.all_eq_true.2 hst]
    simpa using hf
  · have hask : s.askYield w g = s.raiseYield w g := by
      have hab' : ((tget s.launches g.launch).map fun x => x.aborted.isNone).getD true = true := by
        cases h : tget s.launches g.launch with
        | none => rfl
        | some x => simp [hab x h]
      have hsps : (g.sps.all fun p => (s.sp p).hold.isNone) = true := List.all_eq_true.2 fun p hmem => by simp [hh p hmem]
      rw [State.askYield]
      rcases hp with hp | hp
      · rw [hp, hsps, hab']; rfl
      · rw [hp, hsps, hab']; rfl
    show execYieldRequest l s = _
    rw [execYieldRequest, hl]
    dsimp only
    rw [if_neg (by simp [hu, hs, hy, ht]), hyo]
    exact congrArg _ hask

end Sys2Proof.Machine

/-! SUPPORT. Sweep passes and recalls (R68–R71, R267, R372, R430), and what a die's sweep leaves of the tags (R69). -/

namespace Sys2Proof.Machine

/-! ## The life of a pass (R70, R267) -/

theorem modPort_port (s : State) (n : Nat) (f : Port → Port) : (s.modPort n f).port n = f (s.port n) := by
  show (tget (tput s.route.ports n (f (s.port n))) n).getD _ = _
  rw [tget_tput]
  rfl

/-- The entries of a recall join the revocation set in their order. -/
theorem foldl_addEntry {α : Type} (f : α → RevEntry) (l : List α) (s : State) :
    l.foldl (fun s x => s.addEntry (f x)) s = { s with rev := { s.rev with entries := s.rev.entries ++ l.map f } } := by
  induction l generalizing s with
  | nil => simp
  | cons x l ih =>
    rw [List.foldl_cons, ih]
    simp [State.addEntry]

section
variable {s : State} {m : RecallMsg}

/-- The arrival of a message leaves its port's translations. -/
theorem arrived_translations (n c peer colour : Nat) : (s.arrived n c).translations n peer colour = s.translations n peer colour := by
  unfold State.translations State.arrived
  have h := modPort_port (s.count c 5 1 (s.flitsOf c 1)) n fun p => { p with fails := 0, rx := p.rx + s.flitsOf c 1 }
  unfold State.port at h
  dsimp only
  rw [h]
  rfl

/-- What a recall that is accepted puts in force. -/
theorem openRecall_rev : ∃ q : Pass, (s.openRecall m).rev.next = s.rev.next + 1 ∧ (s.openRecall m).rev.passes = s.rev.passes ++ [(s.rev.next, q)] ∧
    q.begun = true ∧ q.ack = some (m.owner, m.colour) ∧ q.recalls = [] ∧
    (s.openRecall m).rev.entries = s.rev.entries ++ m.ranges.map fun r =>
      { base := r.1, len := r.2, colours := s.translations m.port m.owner m.colour, pass := s.rev.next, owner := some m.owner } := by
  unfold State.openRecall
  dsimp only
  rw [foldl_addEntry]
  exact ⟨_, rfl, rfl, rfl, rfl, rfl, rfl⟩

/-- A recall that arrives over an open link, and is no duplicate. -/
theorem recallReceive_of_unseen (hl : s.linkOpen m.port = true) (hu : s.unseen ⟨m.owner, m.colour⟩ m.seq = true) :
    ∃ t : State, t.rev = s.rev ∧ t.held = s.held ∧ t.translations m.port m.owner m.colour = s.translations m.port m.owner m.colour ∧
      exec (.recallReceive m) s = .next (if s.recallWaits m || s.recallAhead m then { t with held := t.held ++ [.recall m] } else t.openRecall m) := by
  refine ⟨(s.arrived m.port ((s.translations m.port m.owner m.colour).headD 0)).received ⟨m.owner, m.colour⟩ m.seq, rfl, rfl,
    arrived_translations .., ?_⟩
  show execRecallReceive m s = _
  rw [execRecallReceive, State.onPort, if_pos hl, State.once]
  rw [if_pos (show (s.arrived m.port _).unseen _ _ = true from hu)]

end

/-- Settles O53: each event of a pass by its own condition. -/
theorem sweeps : Obligations.Sweeps := by
  intro s n die p m a
  refine ⟨fun hp => ⟨fun hb ht => ?_, fun hb hd hf => ?_, fun hr ht => ?_⟩, fun rest hp hc hs ha => ?_, fun hl hu => ⟨fun hw hh => ?_, fun h => ?_⟩,
    fun hu hn => ?_, fun hu hn => ?_, fun hu => ?_⟩
  · show execSweepBeginTimer n s = _
    rw [execSweepBeginTimer, hp]
    exact if_pos ⟨by rw [hb]; rfl, ht⟩
  · show execSweepEngineFinish die n s = _
    rw [execSweepEngineFinish, hp]
    exact if_pos ⟨hb, hd, by rw [hf]; rfl⟩
  · show execPassOpenTimer n s = _
    rw [execPassOpenTimer, hp]
    exact if_pos ⟨by simpa using hr, ht⟩
  · show execPassClose s = _
    rw [execPassClose, hp]
    dsimp only
    rw [hc, hs, ha, List.isEmpty_nil, Bool.true_or, if_neg (by decide)]
    rfl
  · obtain ⟨t, hrev, -, htr, hx⟩ := recallReceive_of_unseen hl hu
    obtain ⟨q, hnext, hpass, hb, ha, hr, he⟩ := openRecall_rev (s := t) (m := m)
    rw [hw, hh] at hx
    rw [hrev] at hnext hpass he
    rw [htr] at he
    exact ⟨_, q, hx, hnext, hpass, hb, ha, hr, he⟩
  · obtain ⟨t, hrev, hheld, -, hx⟩ := recallReceive_of_unseen hl hu
    rw [if_pos (by simpa using h)] at hx
    exact ⟨_, hx, by rw [← hheld], hrev⟩
  · show execRecallAckReceive a n s = _
    rw [execRecallAckReceive, State.once, if_pos hu, if_pos hn]
  · show execRecallAckReceive a n s = _
    rw [execRecallAckReceive, State.once, if_pos hu, if_neg (Nat.not_lt.2 hn)]
  · show execRecallAckReceive a n s = _
    rw [execRecallAckReceive, State.once, if_neg (by simp [hu])]

/-! ## What a sweep leaves (R69) -/

/-- The stores' bytes and tags before a die's sweep are those after the writes that wait there. -/
theorem drainSps_ex (l : List Nat) (s : State) : ∃ ps, l.foldl (fun s p => s.drainSp p) s = { s with sps := ps } :=
  foldl_sps (fun s p => drainSp_ex s p) l s

theorem sweepDieOf_tags (s : State) (die : Nat) (es : List RevEntry) :
    (s.sweepDieOf die es).tags = sweepTags es s.mem (fun a => sweepDie a == die) s.tags := by
  obtain ⟨ps, h⟩ := drainSps_ex ((s.sps.map (·.1)).filter fun p => dieOf p == die) s
  unfold State.sweepDieOf
  dsimp only
  rw [h]

theorem rdNat_eq (s : State) (a n : Nat) :
    s.rdNat a n = leNat ((List.range n).map fun i => (tget s.mem (a + i)).getD unlistedByte) := rfl

/-- Settles O54: the tags after a sweep are those before it that no entry of the pass catches there. -/
theorem sweepClears : Obligations.SweepClears := by
  intro s die es a _ ha
  have hg : granule a = a := Nat.div_mul_cancel (Nat.dvd_of_mod_eq_zero ha)
  unfold State.tagAt
  rw [sweepDieOf_tags, hg, sweepTags]
  rw [tget_filter (p := fun b => !(sweepDie b == die) ||
    (sweepCap es ⟨BitVec.ofNat 128 (leNat ((List.range 16).map fun i => (tget s.mem (b + i)).getD unlistedByte)), true⟩).tag)]
  unfold State.rdCap State.tagAt
  rw [hg, ← rdNat_eq]
  cases h : tget s.tags a with
  | none => simp
  | some u =>
    cases sweepDie a == die
    · rfl
    · unfold sweepCap
      rw [Option.isSome_some]
      cases es.any fun e => e.catches ⟨BitVec.ofNat 128 (s.rdNat a 16), true⟩
      · rfl
      · rfl

end Sys2Proof.Machine

/-! SUPPORT. What arrives over Route ports (R63–R65, R91, R301, R329, R431), and the links themselves (R363, R364, R457–R459). -/

namespace Sys2Proof.Machine

/-! ## Messages of a stream, and what waits at a port (R140, R458) -/

section
variable {s t : State}

theorem onPort_of_unseen {port c seq : Nat} {x : PeerStream} {go : State → State} (hl : s.linkOpen port = true)
    (hu : s.unseen x seq = true) : s.onPort port c x seq go = .next (go ((s.arrived port c).received x seq)) := by
  rw [State.onPort, if_pos hl, State.once]
  exact congrArg _ (if_pos (show (s.arrived port c).unseen x seq = true from hu))

theorem onPort_of_seen {port c seq : Nat} {x : PeerStream} {go : State → State} (hl : s.linkOpen port = true)
    (hu : s.unseen x seq = false) : s.onPort port c x seq go = .next (s.arrived port c) := by
  rw [State.onPort, if_pos hl, State.once]
  exact congrArg _ (if_neg (by rw [show (s.arrived port c).unseen x seq = false from hu]; decide))

theorem once_of_unseen {seq : Nat} {x : PeerStream} {go : State → State} (hu : s.unseen x seq = true) :
    s.once x seq go = go (s.received x seq) := if_pos hu

theorem once_of_seen {seq : Nat} {x : PeerStream} {go : State → State} (hu : s.unseen x seq = false) : s.once x seq go = s :=
  if_neg (by rw [hu]; decide)

theorem atPort_of_served {i : Held} {serve : State → Option State} {wake : State → State} (hb : s.behind i = false)
    (hs : serve s = some t) : s.atPort i serve wake = t := by
  rw [State.atPort, if_neg (by rw [hb]; decide), hs]

/-- A message that is no duplicate is served, where nothing of its sender waits. -/
theorem onPort_of_served {port c seq : Nat} {x : PeerStream} {i : Held} {serve : State → Option State} {wake : State → State}
    (hl : s.linkOpen port = true) (hu : s.unseen x seq = true) (hb : s.behind i = false)
    (hs : serve ((s.arrived port c).received x seq) = some t) :
    s.onPort port c x seq (fun s => s.atPort i serve wake) = .next t :=
  (onPort_of_unseen hl hu).trans (congrArg _ (atPort_of_served (s := (s.arrived port c).received x seq) hb hs))

theorem translate_congr {n : Nat} (h : (t.port n).xlate = (s.port n).xlate) (peer colour : Nat) :
    t.translate n peer colour = s.translate n peer colour := by
  unfold State.port at h
  unfold State.translate
  dsimp only
  rw [h]

theorem arrived_port_xlate (n c : Nat) : ((s.arrived n c).port n).xlate = (s.port n).xlate := by
  unfold State.arrived
  rw [modPort_port]
  rfl

/-- The number and the port of a message leave the translations there. -/
theorem received_translate (n c seq : Nat) (x : PeerStream) (peer colour : Nat) :
    ((s.arrived n c).received x seq).translate n peer colour = s.translate n peer colour :=
  translate_congr (arrived_port_xlate (s := s) n c) peer colour

theorem send_port_xlate (m : OutMsg) (n : Nat) : ((s.send m).port n).xlate = (s.port n).xlate := by
  unfold State.send
  split
  · rfl
  · dsimp only
    split
    · rename_i k _
      show ((tget (tput s.route.ports k _) n).getD _).xlate = _
      by_cases h : n = k
      · subst h
        rw [tget_tput]
        rfl
      · rw [tget_tput_ne h]
        rfl
    · rfl

theorem record_route (r : Rec) (b : Bool) : (s.record r b).route = s.route := by
  obtain ⟨q, ⟨m, g, ws, ms, b, x, p, n, q', h⟩, -⟩ := record_ex s r b
  rw [h]

theorem record_seq (r : Rec) (b : Bool) : s.mgmt.seq < (s.record r b).mgmt.seq := (ends_record r b).2

/-! ## Bales (R63) -/

theorem serveBale_of_ready {m : BaleMsg} (ha : s.awaits [] (s.balePlace m) = none) (hr : ∀ r ∈ s.balePlace m, s.accRoom r.1 r.2 = true) :
    s.serveBale m = some (s.landBale m) := by
  have hroom : (s.balePlace m).any (fun r => !s.accRoom r.1 r.2) = false := List.any_eq_false.2 fun r hmem => by simp [hr r hmem]
  rw [State.serveBale, ha, hroom]
  rfl

theorem landBale_of_mapped {m : BaleMsg} {x : Nat} {d : Cap} (he : s.baleEnd m = some (x, d)) (hf : s.baleFits x d m = true)
    (ht : s.translate m.port m.peer (Cap.colour ⟨m.bits, true⟩).toNat = some x) (hd : d.has permStk = true) :
    s.landBale m = (s.putGranule x (d.lo + m.off) (s.unbale m.peer x ⟨m.bits, true⟩)).count x 5 3 1 := by
  rw [State.landBale, he]
  dsimp only
  rw [ht]
  dsimp only
  rw [if_pos hf, if_pos ⟨rfl, hd⟩]

theorem landBale_of_unmapped {m : BaleMsg} {x : Nat} {d : Cap} (he : s.baleEnd m = some (x, d)) (hf : s.baleFits x d m = true)
    (ht : s.translate m.port m.peer (Cap.colour ⟨m.bits, true⟩).toNat = none) :
    s.landBale m = (s.putGranule x (d.lo + m.off) ⟨m.bits, false⟩).baleRef := by
  rw [State.landBale, he]
  dsimp only
  rw [ht]
  dsimp only
  rw [if_pos hf]
  rfl

/-! ## Commands of peers (R64) -/

/-- A state in which command k, which was m, may hold other entries and wait for others. -/
def TookEntries (s : State) (k : Nat) (m : Cmd) (t : State) : Prop :=
  (∃ es ws, tget t.cmds k = some { m with entries := es, want := ws }) ∧ t.ids = s.ids ∧ t.mem = s.mem

theorem tookEntries_takeEntries {k : Nat} {m : Cmd} (hm : tget s.cmds k = some m) : TookEntries s k m (s.takeEntries k) := by
  unfold State.takeEntries
  rw [hm]
  refine List.foldlRecOn (motive := TookEntries s k m) _ _ ⟨⟨m.entries, m.want, hm⟩, rfl, rfl⟩ fun t ⟨⟨es, ws, hc⟩, hi, hmem⟩ c _ => ?_
  split
  · exact ⟨⟨_, _, (tget_tmod _).trans (congrArg _ hc)⟩, hi, hmem⟩
  · exact ⟨⟨es, ws, hc⟩, hi, hmem⟩

theorem serveCommand_of_mapped {m : RemoteCmdMsg} {x : Nat} (ht : s.translate m.port m.peer m.colour = some x) :
    ∃ es ws, tget (s.serveCommand m).cmds s.ids = some { s.peerCmd x m with entries := es, want := ws } ∧
      (s.serveCommand m).ids = s.ids + 1 ∧ (s.serveCommand m).mem = s.mem := by
  obtain ⟨⟨es, ws, hc⟩, hi, hmem⟩ := tookEntries_takeEntries
    (s := { s.nextId with cmds := tput s.cmds s.ids (s.peerCmd x m) }) (k := s.ids) tget_tput
  rw [State.serveCommand, ht]
  exact ⟨es, ws, hc, hi, hmem⟩

/-! ## Forwarded accesses (R65) -/

theorem awaits_eq_none {rd wr : List (Addr × Nat)} :
    s.awaits rd wr = none ↔ ((s.asleep (rd ++ wr)).isEmpty && (s.marked wr).isEmpty) = true := by
  unfold State.awaits
  dsimp only
  split
  · exact ⟨fun _ => ‹_›, fun _ => rfl⟩
  · exact ⟨fun h => (nomatch h), fun h => absurd h ‹_›⟩

theorem awaits_congr {rd wr : List (Addr × Nat)} (h : t.hbm = s.hbm) : t.awaits rd wr = none ↔ s.awaits rd wr = none := by
  rw [awaits_eq_none, awaits_eq_none]
  unfold State.asleep State.marked State.bankSet
  rw [h]

/-- The arrival of a message moves its stream and its port on, and counts. -/
theorem received_arrived_ex (n c seq : Nat) (x : PeerStream) :
    ∃ r k, (s.arrived n c).received x seq = { s with route := r, host := { s.host with counters := k } } := ⟨_, _, rfl⟩

theorem qhdr_counted (r : Route) (k : Tbl DWord) (b : Nat) :
    ({ s with route := r, host := { s.host with counters := k } } : State).qhdr b = s.qhdr b := rfl

theorem received_accRanges (n c seq : Nat) (x : PeerStream) (m : RemoteAccMsg) :
    ((s.arrived n c).received x seq).accRanges m = s.accRanges m := by
  obtain ⟨r, k, h⟩ := received_arrived_ex (s := s) n c seq x
  rw [h]
  unfold State.accRanges State.localEnd
  rw [qhdr_counted]

theorem received_awaits {n c seq : Nat} {x : PeerStream} {m : RemoteAccMsg} (h : s.awaits (s.accRanges m).1 (s.accRanges m).2 = none) :
    ((s.arrived n c).received x seq).awaits (((s.arrived n c).received x seq).accRanges m).1 (((s.arrived n c).received x seq).accRanges m).2 =
      none := by
  rw [received_accRanges]
  exact (awaits_congr (s := s) (t := (s.arrived n c).received x seq) rfl).2 h

theorem awaits_nil : s.awaits [] [] = none := by
  refine awaits_eq_none.2 ?_
  unfold State.asleep State.marked
  simp

theorem serveAccess_of_unmapped {m : RemoteAccMsg} (hc : m.cmd = none) (hx : s.translate m.port m.peer m.colour = none) :
    s.serveAccess m = some (s.reply m 0x8010 []) := by
  unfold State.serveAccess
  rw [hc, hx]

theorem serveAccess_of_mapped {m : RemoteAccMsg} {x : Nat} (hc : m.cmd = none) (hx : s.translate m.port m.peer m.colour = some x)
    (ha : s.awaits (s.accRanges m).1 (s.accRanges m).2 = none) : s.serveAccess m = s.peerAccess x m := by
  unfold State.serveAccess
  rw [hc, hx, ha]
  rfl

/-- The answer for a remote command of this package. -/
theorem serveAccess_of_done {m : RemoteAccMsg} {n st : Nat} {c : Cmd} {l : Cap} (hn : m.cmd = some n) (ha : m.acc = .done st)
    (he : s.localEnd m.peer n = some (c, l)) : s.serveAccess m = some (s.modCmd n fun c => { c with answer := some st }) := by
  have hr : s.accRanges m = ([], []) := by
    unfold State.accRanges
    rw [ha]
  unfold State.serveAccess
  rw [hr, hn]
  dsimp only
  rw [awaits_nil]
  rw [State.localAccess, he]
  dsimp only
  rw [ha]
  rfl

/-! ## Departures (R329) -/

/-- The translation of a stream whose entries have been taken off a port. -/
theorem translate_of_filtered {port : Nat} {x : PeerStream} (h : (t.port port).xlate = (s.port port).xlate.filter fun e =>
      !(e.2.getLsbD 16 && (e.2.extractLsb' 17 10).toNat == x.peer && (e.2.extractLsb' 27 12).toNat == x.colour)) :
    t.translate port x.peer x.colour = none := by
  unfold State.port at h
  unfold State.translate
  dsimp only
  rw [h, List.find?_eq_none.2]
  · rfl
  · intro e he
    have h := (List.mem_filter.1 he).2
    rw [Bool.not_eq_true'] at h
    rw [h]
    decide

end

/-- Settles O55: each message by what its service does, once the port and its stream let it through. -/
theorem routeReceives : Obligations.RouteReceives := by
  intro s port peer colour seq k join b r a q
  refine ⟨fun hl hu => ?_, fun hl hu hb => ⟨fun x hx => ?_, fun hx => ?_⟩, fun hl hu => ?_, fun m hu hm hp => ?_, fun hl hu hb => ?_,
    fun hl hu hb hc => ⟨fun hx => ?_, fun x t hx ha ht => ?_⟩, fun hl hu => ?_, fun hu => ?_, fun n x hu hx hbr => ?_, fun n x hu hx => ?_⟩
  · intro s1 hb ha hr x d he hf
    have hexec {t : State} (h : s1.landBale b = t) : exec (.baleReceive b) s = .next t :=
      onPort_of_served hl hu hb ((serveBale_of_ready ha hr).trans (congrArg _ h))
    exact ⟨fun ht hd => hexec (landBale_of_mapped he hf ht hd), fun ht => hexec (landBale_of_unmapped he hf ht)⟩
  · obtain ⟨es, ws, hc, hi, hmem⟩ := serveCommand_of_mapped
      ((received_translate (s := s) r.port ((s.translate r.port r.peer r.colour).getD 0) r.seq ⟨r.peer, r.colour⟩ r.peer r.colour).trans hx)
    exact ⟨_, es, ws, onPort_of_served hl hu hb rfl, hc, hi, hmem⟩
  · refine onPort_of_served hl hu hb (congrArg some ?_)
    rw [State.serveCommand, received_translate, hx]
    rfl
  · intro s1
    refine ⟨fun j hj => ?_, fun hj => ?_⟩
    · refine (onPort_of_unseen hl hu).trans (congrArg _ ?_)
      dsimp only
      rw [show State.peerRuns _ _ = some j from hj]
    · refine (onPort_of_unseen hl hu).trans (congrArg _ ?_)
      dsimp only
      rw [show State.peerRuns _ _ = none from hj]
  · show execRemoteCancelAckReceive _ s = _
    rw [execRemoteCancelAckReceive, once_of_unseen hu]
    rw [show tget (s.received _ _).cmds k = some m from hm]
    dsimp only
    rw [hp, if_pos (by decide)]
  · intro s1 n c l st hn ha he
    exact onPort_of_served hl hu hb (serveAccess_of_done hn ha he)
  · refine onPort_of_served hl hu hb ?_
    rw [serveAccess_of_unmapped hc ((received_translate ..).trans hx), hx]
    rfl
  · refine onPort_of_served hl hu hb ?_
    rw [show (s.translate a.port a.peer a.colour).getD 0 = x by rw [hx]; rfl]
    rw [serveAccess_of_mapped hc ((received_translate ..).trans hx) (received_awaits ha), ht]
  · refine ⟨_, onPort_of_unseen hl hu, translate_of_filtered (x := ⟨peer, colour⟩)
      (s := (s.arrived port ((s.translate port peer colour).getD 0)).received ⟨peer, colour⟩ seq) ?_⟩
    dsimp only
    rw [send_port_xlate]
    unfold State.port
    rw [record_route]
    exact congrArg Port.xlate (modPort_port ..)
  · show execDepartureNoticeAckReceive _ seq s = _
    rw [execDepartureNoticeAckReceive, once_of_unseen hu]
  · intro s1
    refine ⟨fun hn => ?_, fun hn => ?_⟩
    · show execPodBarrierArrivalReceive _ seq join s = _
      rw [execPodBarrierArrivalReceive, once_of_unseen hu]
      rw [show tfind (s.received _ _).bars _ = some (n, x) from hx]
      dsimp only
      rw [hbr, if_neg Bool.false_ne_true, if_pos hn]
      rfl
    · show execPodBarrierArrivalReceive _ seq join s = _
      rw [execPodBarrierArrivalReceive, once_of_unseen hu]
      rw [show tfind (s.received _ _).bars _ = some (n, x) from hx]
      dsimp only
      rw [hbr, if_neg Bool.false_ne_true, if_neg (Nat.not_lt.2 hn)]
      rfl
  · intro s1 p
    refine ⟨fun hn => ?_, fun hn => ?_⟩
    · show execPodCollectiveContributionReceive q s = _
      rw [execPodCollectiveContributionReceive, once_of_unseen hu]
      rw [show tfind (s.received _ _).clxs _ = some (n, x) from hx]
      dsimp only
      rw [ClxSlot.join_, hn, if_neg Bool.false_ne_true]
      rfl
    · show execPodCollectiveContributionReceive q s = _
      rw [execPodCollectiveContributionReceive, once_of_unseen hu]
      rw [show tfind (s.received _ _).clxs _ = some (n, x) from hx]
      dsimp only
      rw [ClxSlot.join_, hn, if_pos rfl]
      rfl

end Sys2Proof.Machine

/-! SUPPORT. The Route's links: retrains, training, ports that go down, and duplicates (R363, R364, R457–R459). -/

namespace Sys2Proof.Machine

section
variable {s : State}

theorem reroute_port (n : Nat) : s.reroute.port n = s.port n := rfl

theorem linkNote_port (n : Nat) : s.linkNote.port n = s.port n := by
  unfold State.port State.linkNote
  rw [record_route]

/-- A port that begins to retrain. -/
theorem beginRetrain_port (n : Nat) : (s.beginRetrain n).port n = { s.port n with fails := 0, retrain := some (s.now (13 + n)) } := by
  rw [State.beginRetrain, linkNote_port, modPort_port]

theorem beginRetrain_seq (n : Nat) : s.mgmt.seq < (s.beginRetrain n).mgmt.seq :=
  record_seq (s := s.modPort n fun p => { p with fails := 0, retrain := some (s.now (13 + n)) }) _ _

/-- A port that goes down. -/
theorem portDown_port (n : Nat) :
    (s.portDown n).port n = { s.port n with up := false, retrain := none, fails := 0, key := none } := by
  unfold State.portDown
  dsimp only
  rw [reroute_port]
  show (State.linkNote _).port n = _
  rw [linkNote_port, modPort_port]

/-- A port that comes up. -/
theorem portUp_port (n peer : Nat) (key : BitVec 256) (signed sealedKey : BitVec 4096) :
    (s.portUp n peer key signed sealedKey).port n =
      { s.port n with up := true, retrain := none, fails := 0, peer := some peer, key := some key, signed := signed,
                      sealedKey := sealedKey, tx := 0, rx := 0 } := by
  have h := modPort_port s n fun p => { p with
    up := true, retrain := none, fails := 0, peer := some peer, key := some key, signed := signed, sealedKey := sealedKey, tx := 0, rx := 0 }
  unfold State.portUp
  dsimp only
  rw [reroute_port]
  exact h

/-- The number after the one received is the stream's next. -/
theorem unseen_received (x : PeerStream) (seq n : Nat) : (s.received x seq).unseen x n = decide (seq < n) := by
  unfold State.unseen State.received
  rw [tget_tput]
  rfl

end

/-- Settles O56: the links' events by what they leave of their port; duplicates by the stream's number. -/
theorem links : Obligations.Links := by
  intro s port peer colour m
  refine ⟨fun hl => ⟨fun hn => ?_, fun hn => ?_⟩, fun hp hl => ⟨fun ht => ?_, fun ht hup => ?_⟩, fun t hr ht => ?_, fun hr hup hx => ?_,
    fun at_ => ?_, fun old ho => ?_, fun k join seq x b r a q w => ?_⟩
  · show execFlitTagFail port colour s = _
    rw [execFlitTagFail, hl, if_neg (by decide)]
    exact if_pos hn
  · refine ⟨_, (if_neg (by rw [hl]; decide)).trans (if_neg (Nat.not_lt.2 hn)), ?_, ?_, ?_⟩
    · rw [beginRetrain_port]
    · rw [beginRetrain_port]
      rfl
    · exact beginRetrain_seq (s := (s.count colour 5 5 1).modPort port fun p => { p with tx := p.tx + 1 }) port
  · have hgo : ¬ (decide (32 ≤ port) || s.linkOpen port) = true := by
      rw [hl, decide_eq_false (Nat.not_le.2 hp)]
      decide
    refine ⟨_, (if_neg hgo).trans (if_pos ht), ?_⟩
    rw [portUp_port]
    exact ⟨rfl, fun h => if_pos h, rfl, rfl, rfl, rfl, rfl⟩
  · have hgo : ¬ (decide (32 ≤ port) || s.linkOpen port) = true := by
      rw [hl, decide_eq_false (Nat.not_le.2 hp)]
      decide
    refine ⟨_, (if_neg hgo).trans ((if_neg (by rw [ht]; decide)).trans (if_pos hup)), ?_⟩
    rw [portDown_port]
  · refine ⟨s.portDown port, ?_, by rw [portDown_port], by rw [portDown_port]⟩
    show execRetrainTimeout port s = _
    rw [execRetrainTimeout, hr]
    exact if_pos ht
  · refine ⟨s.beginRetrain port, ?_, by rw [beginRetrain_port]⟩
    show execRetrainTimeout port s = _
    rw [execRetrainTimeout, hr]
    exact if_pos ⟨hup, hx⟩
  · intro mask hm hgone hports hdown ht hcmds hconvoys
    show execUnreachableTimeout peer s = _
    unfold execUnreachableTimeout
    dsimp only
    rw [hdown, if_neg]
    · rw [hcmds]
      show Host.Outcome.next _ = _
      simp only [List.foldl_nil, hconvoys]
    · rw [decide_eq_false (show ¬ (tget s.route.routem peer).getD 0 = 0 from hm), show s.upPorts ((tget s.route.routem peer).getD 0) = [] from hports,
        decide_eq_false (show ¬ s.now (13 + ((some at_).getD _).1) < ((some at_).getD _).2 + 2 ^ 26 from Nat.not_lt.2 ht),
        show s.route.gone.contains peer = false by simpa using hgone]
      decide
  · show execRoutemSwitch peer colour s = _
    rw [execRoutemSwitch, ho]
  · refine ⟨fun hl hu => onPort_of_seen hl hu, fun hl hu => ⟨onPort_of_seen hl hu, onPort_of_seen hl hu⟩, fun hl hu => onPort_of_seen hl hu,
      fun hl hu => onPort_of_seen hl hu, fun hl hu => onPort_of_seen hl hu, fun hu => ⟨?_, ?_, ?_⟩, fun hu => ?_, fun n => unseen_received x seq n⟩
    · exact congrArg _ (once_of_seen hu)
    · exact congrArg _ (once_of_seen hu)
    · exact congrArg _ (once_of_seen hu)
    · exact congrArg _ (once_of_seen hu)

end Sys2Proof.Machine

/-! SUPPORT. The memory system's own steps (R111–R120, R324, R334, R356, R396). -/

namespace Sys2Proof.Machine

theorem idleFor_of {s : State} {g n : Nat} {l : Option Nat} (hl : l = some n) (hg : g < 86) (ha : (s.bankSet g).alloc = true)
    (hw : (s.bankSet g).waking = none) (ht : (s.bankSet g).last + n ≤ s.now bankDomain) : s.idleFor g l = true := by
  rw [hl, State.idleFor, decide_eq_true hg, ha, hw, decide_eq_true ht]
  rfl

/-- Settles O57: each step by its own condition. -/
theorem memorySteps : Obligations.MemorySteps := by
  intro s g line die page num val ns
  refine ⟨fun n hs hn hg ha hw ht => ?_, fun n hs hn hg ha hw ht => ?_, fun t hw ht => ?_, fun x t hx hl hp hd ht => ?_, rfl,
    fun hd ht hr => ?_, fun hz => if_pos hz, rfl, fun hg hn hs hns hb => ?_, fun n => ⟨fun h => ?_, fun h => ?_⟩, rfl, rfl,
    fun hg => if_pos hg, fun hg => if_pos hg⟩
  · exact if_pos (by rw [decide_eq_true hs, idleFor_of hn hg ha hw ht]; rfl)
  · exact if_pos (by rw [decide_eq_true hs, idleFor_of hn hg ha hw ht]; rfl)
  · show execBankSetWakeDone g s = _
    rw [execBankSetWakeDone, hw]
    exact if_pos ht
  · refine if_pos (List.any_eq_true.2 ⟨x, hx, ?_⟩)
    rw [hd, hl]
    simp [hp, ht]
  · refine (if_neg ?_).trans ?_
    · exact fun h => h.elim (Nat.not_le.2 hd) (Nat.not_lt.2 ht)
    · rw [hr]
      rfl
  · subst hns
    refine (if_neg ?_).trans ?_
    · exact fun h => h.elim (Nat.not_le.2 hg) fun h => h.elim (Nat.not_le.2 hn) (Nat.not_le.2 hs)
    · rw [hb]
      rfl
  · show execMscMaskWrite num val s = _
    rw [execMscMaskWrite, h]
  · show execMscMaskWrite num val s = _
    rw [execMscMaskWrite, h]

end Sys2Proof.Machine

/-! SUPPORT. What the PCIe port does while its link is up in service mode (R140, R346, R347, R350–R355, R361, R454, R461). -/

namespace Sys2Proof.Machine

section
variable {s t : State}

/-! ## The order of the port (R140) -/

/-- What holds back an access of the host at the port: any earlier one. -/
theorem blocks_of_hostKey {e i : Held} (hi : heldKey i = some hostKey) (hb : ∀ m, i ≠ .bale m) :
    e.blocks i = (heldKey e == some hostKey) := by
  unfold Held.blocks
  split
  · exact absurd rfl (hb _)
  · cases hi
  · rw [hi]
    rfl

theorem behind_of_waiting {i : Held} (hi : heldKey i = some hostKey) (hb : ∀ m, i ≠ .bale m) (h : ∃ e ∈ s.held, heldKey e = some hostKey) :
    s.behind i = true := by
  obtain ⟨e, he, hk⟩ := h
  exact List.any_eq_true.2 ⟨e, he, by rw [blocks_of_hostKey hi hb, hk]; rfl⟩

theorem not_behind_of_none {i : Held} (hi : heldKey i = some hostKey) (hb : ∀ m, i ≠ .bale m) (h : ∀ e ∈ s.held, heldKey e ≠ some hostKey) :
    s.behind i = false :=
  List.any_eq_false.2 fun e he => by rw [blocks_of_hostKey hi hb]; simpa using h e he

theorem atPort_of_behind {i : Held} {serve : State → Option State} {wake : State → State} (hb : s.behind i = true) :
    s.atPort i serve wake = { s with held := s.held ++ [i] } := by rw [State.atPort, if_pos hb]

theorem atPort_of_waits {i : Held} {serve : State → Option State} {wake : State → State} (hb : s.behind i = false)
    (hs : serve s = none) : s.atPort i serve wake = { wake s with held := s.held ++ [i] } := by
  rw [State.atPort, if_neg (by rw [hb]; decide), hs]

/-- An access of the host that nothing of the port is ahead of is served. -/
theorem atPort_of_first {i : Held} {serve : State → Option State} {wake : State → State} (hi : heldKey i = some hostKey)
    (hb : ∀ m, i ≠ .bale m) (h : ∀ e ∈ s.held, heldKey e ≠ some hostKey) (hs : serve s = some t) : s.atPort i serve wake = t :=
  atPort_of_served (not_behind_of_none hi hb h) hs

theorem atHost_of_first {i : Held} {serve : State → Option State} (hi : heldKey i = some hostKey) (hb : ∀ m, i ≠ .bale m)
    (h : ∀ e ∈ s.held, heldKey e ≠ some hostKey) (hs : serve s = some t) : s.atHost i serve = .next t :=
  congrArg _ (atPort_of_first hi hb h hs)

theorem atHost_of_waits {i : Held} {serve : State → Option State} (hi : heldKey i = some hostKey) (hb : ∀ m, i ≠ .bale m)
    (h : ∀ e ∈ s.held, heldKey e ≠ some hostKey) (hs : serve s = none) : s.atHost i serve = .next { s with held := s.held ++ [i] } :=
  congrArg _ (atPort_of_waits (not_behind_of_none hi hb h) hs)

theorem barOpen_of_service (hl : s.host.linkUp = true) (hm : s.host.mode = 0) (w : Bool) (off : Nat) : s.barOpen w off = true := by
  rw [State.barOpen, hl, hm]
  rfl

/-! ## BAR0 (R350–R354) -/

theorem fwqRange_of_below {off n : Nat} (h : off < 0x130_0000) : s.fwqRange off n = [] := if_neg fun h' => absurd h'.1 (Nat.not_le.2 h)

theorem regSpace_lt {off : Nat} (h : regSpace off = true) : off < 0x110_1000 := by
  rcases (Bool.or_eq_true ..).mp h with h | h
  · exact (of_decide_eq_true h).trans (by decide)
  · exact (of_decide_eq_true h).2

theorem not_regSpace_of_le {off : Nat} (h : 0x110_1000 ≤ off) : regSpace off = false :=
  Bool.eq_false_iff.2 fun h' => absurd (regSpace_lt h') (Nat.not_lt.2 h)

theorem serveRead_of_awake {off n : Nat} (h : s.awaits (s.fwqRange off n) [] = none) :
    s.serveRead off n = some ((s.barRead off n).1.answer (s.barRead off n).2) := by
  rw [State.serveRead, h]
  rfl

theorem serveWrite_of_register {off : Nat} {bs : List Byte} (he : touchesExtinv off bs.length = false) (hr : regSpace off = true) :
    s.serveWrite off bs = some ((pieces 8 off bs).foldl (fun s p =>
      if regSpace p.1 then s.regPut p.1 (BitVec.ofNat 64 (mergeNat 8 (s.barWord p.1).2.toNat p.2.1 p.2.2)) else s) s) := by
  rw [State.serveWrite, he, fwqRange_of_below ((regSpace_lt hr).trans (by decide)), awaits_nil, Bool.false_and, if_neg (by decide), if_pos hr]

theorem serveWrite_of_queue {off : Nat} {bs : List Byte} (hlo : 0x130_0000 ≤ off) (hhi : off + bs.length ≤ 0x130_1040)
    (ha : s.awaits [] (s.fwqRange off bs.length) = none) :
    s.serveWrite off bs = some ((s.passWr 0 none (s.host.fwq + (off - 0x130_0000)) bs.length).wrBytes
      (s.host.fwq + (off - 0x130_0000)) bs) := by
  have he : touchesExtinv off bs.length = false := by
    unfold touchesExtinv meets
    rw [decide_eq_false (by omega)]
    rfl
  rw [State.serveWrite, he, ha, Bool.false_and, if_neg (by decide), if_neg (by rw [not_regSpace_of_le (by omega)]; decide), if_neg (by omega),
    if_pos ⟨hlo, hhi⟩]

theorem serveRegister_of_register {off : Nat} {v : DWord} (hr : regSpace off = true) (ho : off % 8 = 0)
    (he : touchesExtinv off 8 = false) : s.serveRegister off v = some (s.regPut off v) := by
  rw [State.serveRegister, hr, decide_eq_true ho, he]
  rfl

theorem serveRegister_of_routem {off : Nat} {v : DWord} (hlo : 0x150_0000 ≤ off) (hhi : off < 0x150_1000) (ho : off % 4 = 0) :
    s.serveRegister off v = some (s.writeRoutem ((off - 0x150_0000) / 4) (v.setWidth 32)) := by
  rw [State.serveRegister, not_regSpace_of_le (by omega), Bool.false_and, if_neg Bool.false_ne_true, if_pos ⟨hlo, hhi, ho⟩]

/-! ## Apertures (R352, R353) -/

section
variable {m : ApMsg} {a c : Nat}

/-- An aperture access that reaches bytes which the host may reach. -/
theorem apOk_of_reached {n : Nat} (hm : s.host.mode = 0) (hap : m.ap < 4) (hr : ((tget s.host.hap m.ap).getD 0 : DWord).getLsbD 12 = true)
    (hx : s.apRange m = (a, c, n)) (hoff : m.off + n ≤ 2 ^ 34) (hb : ∀ j < n, s.apByte c m.write.isSome (a + j) = true) : s.apOk m = true := by
  rw [State.apOk, hx, hr, decide_eq_true hap, decide_eq_true hoff, hm]
  exact List.all_eq_true.2 fun j hj => hb j (List.mem_range.1 hj)

theorem apOk_of_refused {n : Nat} (hx : s.apRange m = (a, c, n)) (hb : ∃ j < n, s.apByte c m.write.isSome (a + j) = false) :
    s.apOk m = false := by
  obtain ⟨j, hj, hf⟩ := hb
  rw [State.apOk, hx]
  rw [show ((List.range n).all fun i => s.apByte c m.write.isSome (a + i)) = false from
    List.all_eq_false.2 ⟨j, List.mem_range.2 hj, by rw [hf]; decide⟩, Bool.and_false]

theorem serveAperture_write {w : List Byte} (hw : m.write = some w) (hx : s.apRange m = (a, c, w.length)) (hok : s.apOk m = true)
    (ha : s.awaits [] [(a, w.length)] = none) :
    s.serveAperture m = some ((((s.wakeRange a w.length).noteKeys c ((linesOf a w.length).filter fun l => decide (l < 0x80_0000_0000))).writeRange
      (plainAgent c) false a (w.map some) []).1.takeKeys c ((linesOf a w.length).filter fun l => decide (l < 0x80_0000_0000))) := by
  have hap : s.apAwaits m = ([], [(a, w.length)]) := by
    rw [State.apAwaits, hx, hok, hw]
    rfl
  rw [State.serveAperture, hx, hap]
  dsimp only
  rw [ha, hok, hw]
  rfl

theorem serveAperture_read {n : Nat} (hw : m.write = none) (hx : s.apRange m = (a, c, n)) (hok : s.apOk m = true)
    (ha : s.awaits [(a, n)] [] = none) :
    s.serveAperture m =
      (let x := ((s.wakeRange a n).noteKeys c ((linesOf a n).filter fun l => decide (l < 0x80_0000_0000))).readLines (plainAgent c) .rd a n
       some (x.1.answer ((x.1.bytesAt (plainAgent c) x.2 a n).map fun b => b.getD 0))) := by
  have hap : s.apAwaits m = ([(a, n)], []) := by
    rw [State.apAwaits, hx, hok, hw]
    rfl
  rw [State.serveAperture, hx, hap]
  dsimp only
  rw [ha, hok, hw]
  rfl

theorem serveAperture_refused {n : Nat} (hm : s.host.mode = 0) (hw : m.write = none) (hx : s.apRange m = (a, c, n)) (hok : s.apOk m = false) :
    s.serveAperture m = some (s.answer (refusedBytes n)) := by
  have hap : s.apAwaits m = ([], []) := by
    rw [State.apAwaits, hok]
    rfl
  rw [State.serveAperture, hx, hap]
  dsimp only
  rw [awaits_nil, hok, hw, hm]
  rfl

end
end

/-- Settles O58: each access by what serves it, once the port's order lets it through. -/
theorem hostPort : Obligations.HostPort := by
  intro s off n i vd grp spn val bs m hl hm
  have hopen := barOpen_of_service hl hm
  refine ⟨fun hw hoff => ?_, fun hoff => ?_, fun hh => ⟨fun hoff ha => ?_, fun he hr => ?_, fun hlo hhi ha => ?_, fun hvd hg hn => ?_,
    fun hr ho he => ?_, fun hlo hhi ho => ?_, fun hi => ?_, fun hb => ?_, fun hb => ?_, ⟨_, rfl, ?_⟩, fun hr => ⟨fun hnh hns => ?_, fun hhalt => ⟨?_, ?_⟩⟩,
    ?_⟩, rfl, rfl⟩
  · refine (if_neg (Nat.not_le.2 hoff)).trans ((if_pos (hopen ..)).trans (congrArg _ ?_))
    exact atPort_of_behind (behind_of_waiting rfl (by simp) hw)
  · exact (if_pos hoff).trans (if_pos hl)
  · refine (if_neg (Nat.not_le.2 hoff)).trans ((if_pos (hopen ..)).trans (congrArg _ ?_))
    exact atPort_of_first rfl (by simp) hh (serveRead_of_awake ha)
  · refine (if_neg (by rw [hopen]; decide)).trans (congrArg _ ?_)
    exact atPort_of_first rfl (by simp) hh (serveWrite_of_register he hr)
  · intro a
    refine (if_neg (by rw [hopen]; decide)).trans (congrArg _ ?_)
    exact atPort_of_first rfl (by simp) hh (serveWrite_of_queue hlo hhi ha)
  · refine (if_pos (by rw [hopen, decide_eq_true ⟨hvd, hg, hn⟩]; rfl)).trans ?_
    exact atHost_of_first rfl (by simp) hh rfl
  · refine (if_neg (by rw [hopen]; decide)).trans ?_
    exact atHost_of_first rfl (by simp) hh (serveRegister_of_register hr ho he)
  · refine (if_neg (by rw [hopen]; decide)).trans ?_
    exact atHost_of_first rfl (by simp) hh (serveRegister_of_routem hlo hhi ho)
  · refine (if_pos ⟨hi, hopen ..⟩).trans ?_
    exact atHost_of_first rfl (by simp) hh rfl
  · refine (if_neg (by rw [hopen]; decide)).trans ?_
    exact atHost_of_first rfl (by simp) hh (if_neg (by rw [hb]; decide))
  · refine (if_neg (by rw [hopen]; decide)).trans ?_
    exact atHost_of_waits rfl (by simp) hh (if_pos hb)
  · simp
  · refine atHost_of_first (i := .halt spn) rfl (by simp) hh ?_
    rw [State.serveHalt, hr, hns, State.halts, hr, hnh]
    rfl
  · refine atHost_of_first (i := .step spn) rfl (by simp) hh (congrArg some ?_)
    rw [State.steps, hr, hhalt]
    rfl
  · refine atHost_of_first (i := .run spn) rfl (by simp) hh (congrArg some ?_)
    rw [State.runs, hr, hhalt]
    rfl
  · intro r a c hbm hap hr
    have hgo {t : State} (h : s.serveAperture m = some t) : exec (.apertureAccess m) s = .next t :=
      (if_neg (by rw [hl, hm]; decide)).trans (congrArg _ (atPort_of_first rfl (by simp) hh h))
    refine ⟨fun w hw hlen hb ha => ?_, fun hw hlen hb ha => ?_, fun hw hb => ?_⟩
    · have hx : s.apRange m = (a, c, w.length) := by rw [State.apRange, hw]
      exact hgo (serveAperture_write hw hx (apOk_of_reached hm hap hr hx hlen (by rw [hw]; exact hb)) ha)
    · have hx : s.apRange m = (a, c, m.n) := by rw [State.apRange, hw]
      exact hgo (serveAperture_read hw hx (apOk_of_reached hm hap hr hx hlen (by rw [hw]; exact hb)) ha)
    · have hx : s.apRange m = (a, c, m.n) := by rw [State.apRange, hw]
      exact hgo (serveAperture_refused hm hw hx (apOk_of_refused hx (by rw [hw]; exact hb)))

end Sys2Proof.Machine

/-! SUPPORT. What every operation on the state keeps: no event joins the agenda, and the store keeps its canonical form (R52); and, where an
operation does not touch them, the generations, the mode, the spare cores, the convoys' SPs and the worlds' requests. One rule for each
operation, in the order of the model. -/

namespace Sys2Proof.Machine

/-! ## The relation -/

/-- The parts that cold reset, world requests, a thermal stop and the failure of a core alone change. -/
def State.marks (s : State) : Tbl (BitVec 8) × BitVec 2 × (Nat → Bool) := (s.gens, s.host.mode, fun c => (s.core c).spare)
/-- The SP of each convoy. -/
def State.spns (s : State) (c : Nat) : Option Nat := (tget s.convoys c).map (·.spn)
/-- The request that each world carries out, and the packages that hold its capabilities. -/
def State.duty (s : State) (c : Nat) : Option (Option WReq × List Nat) := (tget s.worlds c).map fun w => (w.waiting, w.exports)
/-- The one world there is, with its VD and mode; none where there is not just one. -/
def lone : Tbl World → Option (Nat × Nat × WorldMode)
  | [x] => some (x.1, x.2.vd, x.2.mode)
  | _ => none
/-- What worlds keep while none is formed, changed by a request or ended. -/
def State.duties (s : State) : (Nat → Option (Option WReq × List Nat)) × Option (Nat × Nat × WorldMode) := (s.duty, lone s.worlds)
/-- The parts that `Keeps` speaks of, but for convoys and worlds. -/
def State.base (s : State) : List Instr × Tbl Byte × Tbl Unit × Tbl (BitVec 8) × BitVec 2 × (Nat → Bool) := (s.ev, s.mem, s.tags, s.marks)

/-- What stays as it was from a state `s0` on: the agenda, the canonical form of the store, and, where P, Q or R holds, the marks, the
convoys' SPs or the worlds' duties. -/
structure Keeps (P Q R : Prop) (s0 s : State) : Prop where
  agenda : ∀ e ∈ s.ev, e ∈ s0.ev
  canonical : s0.storeWf = true → s.storeWf = true
  marks : P → s.marks = s0.marks
  spns : Q → s.spns = s0.spns
  duties : R → s.duties = s0.duties

variable {P Q R N : Prop} {s0 s t : State}

theorem storeWf_of_tags_filter {q : Nat × Unit → Bool} (h : s.storeWf = true) (hm : t.mem = s.mem) (ht : t.tags = s.tags.filter q) :
    t.storeWf = true := by
  rw [storeWf_iff] at h ⊢
  obtain ⟨hmem, hrise, hgran⟩ := h
  rw [hm, ht]
  exact ⟨hmem, rises_filter q hrise, fun x hx => hgran x (List.mem_of_mem_filter hx)⟩

namespace Keeps

theorem refl (s : State) : Keeps P Q R s s := ⟨fun _ h => h, fun h => h, fun _ => rfl, fun _ => rfl, fun _ => rfl⟩

theorem trans {u : State} (h : Keeps P Q R s0 t) (h' : Keeps P Q R t u) : Keeps P Q R s0 u where
  agenda e he := h.agenda e (h'.agenda e he)
  canonical hs := h'.canonical (h.canonical hs)
  marks p := (h'.marks p).trans (h.marks p)
  spns q := (h'.spns q).trans (h.spns q)
  duties r := (h'.duties r).trans (h.duties r)

/-- The change of a part that `Keeps` does not speak of. -/
theorem of_base (h : Keeps P Q R s0 s) (e : t.base = s.base) (q : Q → t.spns = s.spns) (r : R → t.duties = s.duties) :
    Keeps P Q R s0 t := by
  obtain ⟨hev, e⟩ := Prod.mk.inj e
  obtain ⟨hmem, e⟩ := Prod.mk.inj e
  obtain ⟨htags, hmarks⟩ := Prod.mk.inj e
  refine h.trans ⟨fun _ he => hev ▸ he, fun hs => ?_, fun _ => hmarks, q, r⟩
  rw [storeWf_congr hmem htags]
  exact hs

theorem same (h : Keeps P Q R s0 s) (e : t.base = s.base) (hc : t.convoys = s.convoys) (hw : t.worlds = s.worlds) : Keeps P Q R s0 t :=
  h.of_base e (fun _ => by unfold State.spns; rw [hc]) fun _ => by unfold State.duties State.duty; rw [hw]

/-- A change of parts that `Keeps` does not speak of. -/
theorem parts {turn cur free ids clk mhz fibres serais outside wgs launches cmds sps bars clxs egens rev msc hbm route host mgmt anvil held own}
    (h : Keeps P Q R s0 s) (hm : host.mode = s.host.mode := by rfl) :
    Keeps P Q R s0 ⟨s.ev, turn, cur, free, ids, clk, mhz, s.mem, s.tags, fibres, s.convoys, serais, outside, wgs, launches, cmds, sps, s.cores,
      bars, clxs, s.worlds, s.gens, egens, rev, msc, hbm, route, host, mgmt, anvil, held, own⟩ :=
  h.same (by unfold State.base State.marks; rw [hm]; rfl) rfl rfl

/-- A change of convoys, and of parts that `Keeps` does not speak of. -/
theorem convoys {turn cur free ids clk mhz fibres convoys serais outside wgs launches cmds sps bars clxs egens rev msc hbm route host mgmt anvil
    held own} (h : Keeps P False R s0 s) (hm : host.mode = s.host.mode := by rfl) :
    Keeps P False R s0 ⟨s.ev, turn, cur, free, ids, clk, mhz, s.mem, s.tags, fibres, convoys, serais, outside, wgs, launches, cmds, sps, s.cores,
      bars, clxs, s.worlds, s.gens, egens, rev, msc, hbm, route, host, mgmt, anvil, held, own⟩ :=
  h.of_base (by unfold State.base State.marks; rw [hm]; rfl) False.elim fun _ => rfl

/-- A change of worlds, and of parts that `Keeps` does not speak of. -/
theorem worlds {turn cur free ids clk mhz fibres serais outside wgs launches cmds sps bars clxs worlds egens rev msc hbm route host mgmt anvil
    held own} (h : Keeps P Q False s0 s) (hm : host.mode = s.host.mode := by rfl) :
    Keeps P Q False s0 ⟨s.ev, turn, cur, free, ids, clk, mhz, s.mem, s.tags, fibres, s.convoys, serais, outside, wgs, launches, cmds, sps, s.cores,
      bars, clxs, worlds, s.gens, egens, rev, msc, hbm, route, host, mgmt, anvil, held, own⟩ :=
  h.of_base (by unfold State.base State.marks; rw [hm]; rfl) (fun _ => rfl) False.elim

/-- A change of the store that keeps its form. -/
theorem stored (h : Keeps P Q R s0 s) (hw : s.storeWf = true → t.storeWf = true) (he : t.ev = s.ev) (hm : t.marks = s.marks)
    (hc : t.convoys = s.convoys) (hd : t.worlds = s.worlds) : Keeps P Q R s0 t :=
  h.trans ⟨fun _ h => he ▸ h, hw, fun _ => hm, fun _ => by unfold State.spns; rw [hc], fun _ => by unfold State.duties State.duty; rw [hd]⟩

/-- A change of the store that keeps its form, and of whatever P, Q and R leave out. -/
theorem restored (h : Keeps P Q R s0 s) (hw : s.storeWf = true → t.storeWf = true) (he : t.ev = s.ev) (hm : P → t.marks = s.marks)
    (hc : Q → t.spns = s.spns) (hd : R → t.duties = s.duties) : Keeps P Q R s0 t :=
  h.trans ⟨fun _ h => he ▸ h, hw, hm, hc, hd⟩

/-- A state with an empty agenda and a canonical store. -/
theorem emptied (he : t.ev = []) (hw : s0.storeWf = true → t.storeWf = true) : Keeps False False False s0 t :=
  ⟨fun _ h => (List.not_mem_nil (he ▸ h)).elim, hw, False.elim, False.elim, False.elim⟩

/-- A change of the marks, and of parts that `Keeps` does not speak of. -/
theorem marked {turn cur free ids clk mhz fibres serais outside wgs launches cmds sps cores bars clxs gens egens rev msc hbm route host mgmt anvil
    held own} (h : Keeps False Q R s0 s) :
    Keeps False Q R s0 ⟨s.ev, turn, cur, free, ids, clk, mhz, s.mem, s.tags, fibres, s.convoys, serais, outside, wgs, launches, cmds, sps, cores,
      bars, clxs, s.worlds, gens, egens, rev, msc, hbm, route, host, mgmt, anvil, held, own⟩ :=
  h.restored (fun hs => hs) rfl False.elim (fun _ => rfl) fun _ => rfl

/-- A change of the marks and of worlds, and of parts that `Keeps` does not speak of. -/
theorem settled {turn cur free ids clk mhz fibres serais outside wgs launches cmds sps cores bars clxs worlds gens egens rev msc hbm route host mgmt
    anvil held own} (h : Keeps False Q False s0 s) :
    Keeps False Q False s0 ⟨s.ev, turn, cur, free, ids, clk, mhz, s.mem, s.tags, fibres, s.convoys, serais, outside, wgs, launches, cmds, sps,
      cores, bars, clxs, worlds, gens, egens, rev, msc, hbm, route, host, mgmt, anvil, held, own⟩ :=
  h.restored (fun hs => hs) rfl False.elim (fun _ => rfl) False.elim

theorem duty (h : Keeps P Q True s0 s) (c : Nat) : s.duty c = s0.duty c := congrFun (congrArg Prod.fst (h.duties trivial)) c

theorem lone_eq (h : Keeps P Q True s0 s) : lone s.worlds = lone s0.worlds := congrArg Prod.snd (h.duties trivial)

theorem foldl {α : Type} {f : State → α → State} {l : List α} (h : Keeps P Q R s0 s)
    (hf : ∀ s x, Keeps P Q R s0 s → Keeps P Q R s0 (f s x)) : Keeps P Q R s0 (l.foldl f s) :=
  List.foldlRecOn (motive := Keeps P Q R s0) l f h fun s h x _ => hf s x h

theorem foldl_fst {α β : Type} {f : State × β → α → State × β} {l : List α} {b : β} (h : Keeps P Q R s0 s)
    (hf : ∀ p x, Keeps P Q R s0 p.1 → Keeps P Q R s0 (f p x).1) : Keeps P Q R s0 (l.foldl f (s, b)).1 :=
  List.foldlRecOn (motive := fun p => Keeps P Q R s0 p.1) l f h fun p h x _ => hf p x h

theorem foldl_by {α β : Type} {π : β → State} {f : β → α → β} {l : List α} {b : β} (h : Keeps P Q R s0 (π b))
    (hf : ∀ b x, Keeps P Q R s0 (π b) → Keeps P Q R s0 (π (f b x))) : Keeps P Q R s0 (π (l.foldl f b)) :=
  List.foldlRecOn (motive := fun b => Keeps P Q R s0 (π b)) l f h fun b h x _ => hf b x h

theorem of_fst {β : Type} {p : State × β} {x : β} (h : Keeps P Q R s0 p.1) (e : p = (t, x)) : Keeps P Q R s0 t := by
  subst e
  exact h

theorem of_snd {β : Type} {p : β × State} {x : β} (h : Keeps P Q R s0 p.2) (e : p = (x, t)) : Keeps P Q R s0 t := by
  subst e
  exact h

theorem ite {c : Prop} [Decidable c] (hs : Keeps P Q R s0 s) (ht : Keeps P Q R s0 t) : Keeps P Q R s0 (if c then s else t) := by
  split
  · exact hs
  · exact ht

/-- The changes of convoys that leave each on its SP. -/
theorem spns_map {f : Nat × Convoy → Nat × Convoy} (hf : ∀ x, (f x).1 = x.1 ∧ (f x).2.spn = x.2.spn) (l : Tbl Convoy) (c : Nat) :
    (tget (l.map f) c).map (·.spn) = (tget l c).map (·.spn) := by
  induction l with
  | nil => rfl
  | cons x l ih =>
    rw [List.map_cons, tget_cons, tget_cons, (hf x).1]
    split
    · exact congrArg some (hf x).2
    · exact ih

theorem spns_tmod {c : Nat} {f : Convoy → Convoy} {l : Tbl Convoy} (hf : ∀ v, (f v).spn = v.spn) :
    (fun i => (tget (tmod l c f) i).map (·.spn)) = fun i => (tget l i).map (·.spn) := by
  funext i
  by_cases hi : i = c
  · subst hi
    rw [tget_tmod]
    cases tget l i with
    | none => rfl
    | some v => exact congrArg some (hf v)
  · rw [tget_tmod_ne f hi]

theorem lone_tmod {c : Nat} {f : World → World} {l : Tbl World} (hf : ∀ w, (f w).vd = w.vd ∧ (f w).mode = w.mode := by
      exact fun _ => ⟨rfl, rfl⟩) : lone (tmod l c f) = lone l := by
  match l with
  | [] => rfl
  | [x] =>
    unfold tmod
    rw [tget_cons]
    split
    next v h =>
      split at h
      next hk =>
        obtain rfl := Option.some.inj h
        unfold tput
        rw [if_neg (hk ▸ Nat.lt_irrefl _), if_pos hk]
        exact congrArg some (Prod.ext hk (Prod.ext (hf x.2).1 (hf x.2).2))
      · exact nomatch h
    · rfl
  | x :: y :: r =>
    unfold tmod
    split
    · unfold tput
      split
      · rfl
      · split
        · rfl
        · unfold tput
          split
          · rfl
          · split
            · rfl
            · cases r with
              | nil => rfl
              | cons z r => rfl
    · rfl

/-- The changes of worlds that leave each one's request and exports. -/
theorem duty_tmod {c : Nat} {f : World → World} {l : Tbl World} (hf : ∀ w, (f w).waiting = w.waiting ∧ (f w).exports = w.exports := by
      exact fun _ => ⟨rfl, rfl⟩) :
    (fun i => (tget (tmod l c f) i).map fun w => (w.waiting, w.exports)) = fun i => (tget l i).map fun w => (w.waiting, w.exports) := by
  funext i
  by_cases hi : i = c
  · subst hi
    rw [tget_tmod]
    cases tget l i with
    | none => rfl
    | some w => exact congrArg some (Prod.ext (hf w).1 (hf w).2)
  · rw [tget_tmod_ne f hi]

theorem core_spare_map {f : Nat × Core → Nat × Core} (hf : ∀ x, (f x).1 = x.1 ∧ (f x).2.spare = x.2.spare) (l : Tbl Core) (c : Nat) :
    ((tget (l.map f) c).getD {}).spare = ((tget l c).getD {}).spare := by
  induction l with
  | nil => rfl
  | cons x l ih =>
    rw [List.map_cons, tget_cons, tget_cons, (hf x).1]
    split
    · exact (hf x).2
    · exact ih

/-- A change of every core that leaves which are spares, and of convoys and parts that `Keeps` does not speak of. -/
theorem cores {f : Nat × Core → Nat × Core} {turn cur free ids clk mhz fibres convoys serais outside wgs launches cmds sps bars clxs egens rev
    msc hbm route host mgmt anvil held own} (h : Keeps P False R s0 s)
    (hf : ∀ x, (f x).1 = x.1 ∧ (f x).2.spare = x.2.spare := by exact fun _ => ⟨rfl, rfl⟩) (hm : host.mode = s.host.mode := by rfl) :
    Keeps P False R s0 ⟨s.ev, turn, cur, free, ids, clk, mhz, s.mem, s.tags, fibres, convoys, serais, outside, wgs, launches, cmds, sps,
      s.cores.map f, bars, clxs, s.worlds, s.gens, egens, rev, msc, hbm, route, host, mgmt, anvil, held, own⟩ := by
  refine h.of_base ?_ False.elim fun _ => rfl
  unfold State.base State.marks State.core
  dsimp only
  rw [hm, show (fun c => ((tget (s.cores.map f) c).getD {}).spare) = fun c => ((tget s.cores c).getD {}).spare from
    funext (core_spare_map hf s.cores)]

theorem core_spare_modCore {n : Nat} {f : Core → Core} (hf : ∀ k, (f k).spare = k.spare) (c : Nat) :
    ((s.modCore n f).core c).spare = (s.core c).spare := by
  by_cases hc : c = n
  · subst hc
    unfold State.core State.modCore
    rw [tget_tput]
    exact hf _
  · unfold State.core State.modCore
    rw [tget_tput_ne hc]

end Keeps

/-- Every state that an optional answer holds keeps what `Keeps` says. -/
def KeepsIn {α : Type} (P Q R : Prop) (s0 : State) (π : α → State) (o : Option α) : Prop := ∀ x, o = some x → Keeps P Q R s0 (π x)

namespace KeepsIn

variable {α : Type} {π : α → State} {o : Option α}

theorem none : KeepsIn P Q R s0 π none := fun _ e => nomatch e

theorem some {x : α} (h : Keeps P Q R s0 (π x)) : KeepsIn P Q R s0 π (some x) := fun _ e => Option.some.inj e ▸ h

theorem map {β : Type} {f : β → α} {o : Option β} (h : ∀ x, Keeps P Q R s0 (π (f x))) : KeepsIn P Q R s0 π (o.map f) := by
  rintro x e
  obtain ⟨y, -, rfl⟩ := Option.map_eq_some_iff.mp e
  exact h y

theorem map_of {β : Type} {σ : β → State} {f : β → α} {o : Option β} (ho : KeepsIn P Q R s0 σ o)
    (hf : ∀ x, Keeps P Q R s0 (σ x) → Keeps P Q R s0 (π (f x))) : KeepsIn P Q R s0 π (o.map f) := by
  rintro x e
  obtain ⟨y, ho', rfl⟩ := Option.map_eq_some_iff.mp e
  exact hf y (ho y ho')

theorem bind {f : State → Option α} {o : Option State} (ho : KeepsIn P Q R s0 (fun t => t) o)
    (hf : ∀ t, Keeps P Q R s0 t → KeepsIn P Q R s0 π (f t)) : KeepsIn P Q R s0 π (o.bind f) := by
  cases o with
  | none => exact none
  | some t => exact hf t (ho t rfl)

theorem bind_any {β : Type} {f : β → Option α} {o : Option β} (hf : ∀ b, KeepsIn P Q R s0 π (f b)) : KeepsIn P Q R s0 π (o.bind f) := by
  cases o with
  | none => exact none
  | some b => exact hf b

theorem findSome {β : Type} {f : β → Option α} {l : List β} (hf : ∀ b, KeepsIn P Q R s0 π (f b)) : KeepsIn P Q R s0 π (l.findSome? f) := by
  intro x e
  obtain ⟨b, -, hb⟩ := List.exists_of_findSome?_eq_some e
  exact hf b x hb

theorem getD {o : Option State} (ho : KeepsIn P Q R s0 (fun s => s) o) (h : Keeps P Q R s0 s) : Keeps P Q R s0 (o.getD s) := by
  cases o with
  | none => exact h
  | some t => exact ho t rfl

end KeepsIn

/-- Whether a convoy is chosen that can issue. -/
def State.issuing (s : State) : Prop := ∃ c v, s.cur = some c ∧ tget s.convoys c = some v

theorem not_issuing_of_cur (e : s.cur = none) : ¬ s.issuing := by
  rintro ⟨c, v, hc, -⟩
  rw [e] at hc
  exact nomatch hc

theorem not_issuing_of_get {c : Nat} (e : s.cur = some c) (e' : tget s.convoys c = none) : ¬ s.issuing := by
  rintro ⟨c', v, hc, hv⟩
  rw [e] at hc
  rw [← Option.some.inj hc, e'] at hv
  exact nomatch hv

/-- A result that is a next state which keeps what `Keeps` says; a fault under `N` alone. -/
def Runs (N : Prop) (s0 : State) : Result → Prop
  | .next t => Keeps False False False s0 t
  | .fault _ => N
  | .refused _ => False

theorem Runs.word {i : Instr} {r : Result} (h : Runs (¬ s.issuing) s0 r) (e : needsConvoy i = true) :
    Runs (needsConvoy i = true ∧ ¬ s.issuing) s0 r := by
  cases r with
  | next t => exact h
  | fault f => exact ⟨e, h⟩
  | refused f => exact h

theorem Keeps.next (h : Keeps False False False s0 t) : Runs N s0 (.next t) := h

end Sys2Proof.Machine

/-! SUPPORT. What each operation keeps: the store, reports, the undo log, messages, matrices, commands. -/

namespace Sys2Proof.Machine

variable {P Q R N : Prop} {s0 s t : State}

namespace Keeps

-- many short proofs: one after another, so that they do not each take a thread and its stack
set_option Elab.async false

/-! ## The store -/

theorem wr8 {a : Addr} {b : Byte} (h : Keeps P Q R s0 s) : Keeps P Q R s0 (s.wr8 a b) :=
  h.stored (storeWf_wr8 b) rfl rfl rfl rfl

theorem wrRaw {a : Addr} {bs : List Byte} (h : Keeps P Q R s0 s) : Keeps P Q R s0 (s.wrRaw a bs) := by
  induction bs generalizing a s with
  | nil => exact h
  | cons b bs ih => exact ih h.wr8

theorem setTag {a : Addr} {t : Bool} (h : Keeps P Q R s0 s) : Keeps P Q R s0 (s.setTag a t) :=
  h.stored (storeWf_setTag t) rfl rfl rfl rfl

theorem clearTags {a : Addr} {n : Nat} (h : Keeps P Q R s0 s) : Keeps P Q R s0 (s.clearTags a n) := h.foldl fun _ _ h => h.setTag

theorem wrBytes {a : Addr} {bs : List Byte} (h : Keeps P Q R s0 s) : Keeps P Q R s0 (s.wrBytes a bs) := h.wrRaw.clearTags

theorem wrNat {a : Addr} {n v : Nat} (h : Keeps P Q R s0 s) : Keeps P Q R s0 (s.wrNat a n v) := h.wrBytes

theorem wr32 {a : Addr} {v : Word} (h : Keeps P Q R s0 s) : Keeps P Q R s0 (s.wr32 a v) := h.wrNat

theorem wrCap {a : Addr} {c : Cap} (h : Keeps P Q R s0 s) : Keeps P Q R s0 (s.wrCap a c) := h.wrRaw.setTag

theorem bump (h : Keeps P Q R s0 s) : Keeps P Q R s0 s.bump := h.parts

theorem nextId (h : Keeps P Q R s0 s) : Keeps P Q R s0 s.nextId := h.parts

/-! ## Flags -/

theorem setFlags {c : Nat} {fl : BitVec 8} (h : Keeps P Q R s0 s) : Keeps P Q R s0 (s.setFlags c fl) :=
  h.of_base rfl (fun _ => spns_tmod fun _ => rfl) fun _ => rfl

theorem engineFlags {fibres : List Nat} {fl : BitVec 8} (h : Keeps P Q R s0 s) : Keeps P Q R s0 (s.engineFlags fibres fl) :=
  h.of_base rfl (fun _ => funext (spns_map (fun x => by split <;> exact ⟨rfl, rfl⟩) _)) fun _ => rfl

/-! ## Operands -/

theorem putConvoy {c : Nat} {v : Convoy} (h : Keeps P False R s0 s) : Keeps P False R s0 (s.putConvoy c v) := h.convoys

theorem modConvoy {c : Nat} {f : Convoy → Convoy} (h : Keeps P False R s0 s) : Keeps P False R s0 (s.modConvoy c f) := h.convoys

theorem modFibre {i : Nat} {f : Fibre → Fibre} (h : Keeps P Q R s0 s) : Keeps P Q R s0 (s.modFibre i f) := h.parts

theorem modWg {w : Nat} {f : Wg → Wg} (h : Keeps P Q R s0 s) : Keeps P Q R s0 (s.modWg w f) := h.parts

theorem modSp {n : Nat} {f : Sp → Sp} (h : Keeps P Q R s0 s) : Keeps P Q R s0 (s.modSp n f) := h.parts

/-- A change of a core that leaves whether it is a spare. -/
theorem modCore {n : Nat} {f : Core → Core} (h : Keeps P Q R s0 s) (hf : ∀ k, (f k).spare = k.spare) : Keeps P Q R s0 (s.modCore n f) := by
  refine h.of_base ?_ (fun _ => rfl) fun _ => rfl
  unfold State.base State.marks
  rw [show (fun c => ((s.modCore n f).core c).spare) = fun c => (s.core c).spare from funext fun c => core_spare_modCore hf c]
  rfl

theorem modCmd {k : Nat} {f : Cmd → Cmd} (h : Keeps P Q R s0 s) : Keeps P Q R s0 (s.modCmd k f) := h.parts

theorem wrV {f : Fibre} {n : Nat} {v : Word} (h : Keeps P Q R s0 s) : Keeps P Q R s0 (s.wrV f n v) := h.wr32

theorem wrV64 {f : Fibre} {n : Nat} {v : DWord} (h : Keeps P Q R s0 s) : Keeps P Q R s0 (s.wrV64 f n v) := h.wrV.wrV

theorem wrK {f : Fibre} {n : Nat} {k : Cap} (h : Keeps P Q R s0 s) : Keeps P Q R s0 (s.wrK f n k) := h.wrCap

theorem modU {c : Nat} {f : Unif → Unif} (h : Keeps P False R s0 s) : Keeps P False R s0 (s.modU c f) := h.modConvoy

theorem wrS {c n : Nat} {v : Word} (h : Keeps P False R s0 s) : Keeps P False R s0 (s.wrS c n v) := h.modU

theorem wrKs {c n : Nat} {k : Cap} (h : Keeps P False R s0 s) : Keeps P False R s0 (s.wrKs c n k) := h.modU

theorem wrQ {c : Nat} {n : BitVec 2} {v : Bool} (h : Keeps P False R s0 s) : Keeps P False R s0 (s.wrQ c n v) := h.modU

theorem wrP {i : Nat} {p : BitVec 3} {v : Bool} (h : Keeps P Q R s0 s) : Keeps P Q R s0 (s.wrP i p v) := h.modFibre

theorem dst {c : Nat} {l : Ln} {w64 : Bool} {d : VDst} {x : DWord} (h : Keeps P False R s0 s) : Keeps P False R s0 (s.dst c l w64 d x) := by
  unfold State.dst
  split
  · split
    · exact h.wrV64
    · exact h.wrV
  · exact h.modConvoy

theorem markLatch {c : Nat} {d : VDst} (h : Keeps P False R s0 s) : Keeps P False R s0 (s.markLatch c d) := by
  unfold State.markLatch
  split
  · exact h
  · exact h.modConvoy

theorem dsts {c : Nat} {w64 : Bool} {d : VDst} {r : List (Ln × DWord)} (h : Keeps P False R s0 s) : Keeps P False R s0 (s.dsts c w64 d r) :=
  h.markLatch.foldl fun _ _ h => h.dst

/-! ## Accesses to the memory system -/

theorem rekey {colour : Nat} {a p : Addr} (h : Keeps P Q R s0 s) : Keeps P Q R s0 (s.rekey colour a p) := by
  unfold State.rekey
  dsimp only
  split
  · exact h
  · exact h.wrRaw.parts

theorem putByteFor {colour : Nat} {a p : Addr} {x : Byte} (h : Keeps P Q R s0 s) : Keeps P Q R s0 (s.putByteFor colour a p x) := by
  unfold State.putByteFor
  split
  · exact h.rekey.wr8
  · exact h.wr8

theorem count {colour group n by_ : Nat} (h : Keeps P Q R s0 s) : Keeps P Q R s0 (s.count colour group n by_) := h.parts

theorem monitorHit {slice : Nat} {vd : Option Nat} (h : Keeps P Q R s0 s) : Keeps P Q R s0 (s.monitorHit slice vd) := h.parts

theorem mendLines {ls : List Addr} (h : Keeps P Q R s0 s) : Keeps P Q R s0 (s.mendLines ls) := h.parts

theorem modBank {g : Nat} {f : BankSet → BankSet} (h : Keeps P Q R s0 s) : Keeps P Q R s0 (s.modBank g f) := h.parts

theorem reach {line : Addr} (h : Keeps P Q R s0 s) : Keeps P Q R s0 (s.reach line) := h.modBank

theorem linesBack {ls : List Addr} (h : Keeps P Q R s0 s) : Keeps P Q R s0 (s.linesBack ls) := h.mendLines.foldl fun _ _ h => h.reach

theorem copyLine {src dst : Addr} (h : Keeps P Q R s0 s) : Keeps P Q R s0 (s.copyLine src dst) := h.foldl fun _ _ h => h.wrCap

theorem unkey {line : Addr} (h : Keeps P Q R s0 s) : Keeps P Q R s0 (s.unkey line) := h.parts

theorem dropLine {line : Addr} (h : Keeps P Q R s0 s) : Keeps P Q R s0 (s.dropLine line) := h.parts

theorem meetLine {colour : Nat} {line : Addr} (h : Keeps P Q R s0 s) : Keeps P Q R s0 (s.meetLine colour line).1 := by
  unfold State.meetLine
  dsimp only
  split
  · exact h.parts.count
  · exact h.parts.count
  · split
    · exact h
    · split
      · exact h.copyLine.mendLines.unkey.count
      · exact h.parts.count
  · exact h

theorem wrHome {a : Addr} {bs : List Byte} (h : Keeps P Q R s0 s) : Keeps P Q R s0 (s.wrHome a bs) := by
  unfold State.wrHome
  refine (h.foldl fun _ _ h => ?_).clearTags
  split
  · exact h
  · exact h.putByteFor

theorem wrKept {a : Addr} {bs : List Byte} (h : Keeps P Q R s0 s) : Keeps P Q R s0 (s.wrKept a bs) := by
  unfold State.wrKept
  split
  · exact h
  · exact h.wrRaw

theorem storeKept {a : Addr} {bs : List Byte} (h : Keeps P Q R s0 s) : Keeps P Q R s0 (s.storeKept a bs) := by
  unfold State.storeKept
  split
  · exact h
  · exact h.wrBytes

theorem touchMsc {colour : Nat} {t : Traffic} {line : Addr} (h : Keeps P Q R s0 s) : Keeps P Q R s0 (s.touchMsc colour t line) := by
  unfold State.touchMsc
  dsimp only
  split
  · exact h.parts.monitorHit
  · split
    · exact h.parts.linesBack
    · exact h.parts.linesBack

theorem writeBack {p drop : MscLine → Bool} (h : Keeps P Q R s0 s) : Keeps P Q R s0 (s.writeBack p drop) := h.linesBack.parts

theorem countWake {g : Nat} {st : BitVec 2} (h : Keeps P Q R s0 s) : Keeps P Q R s0 (s.countWake g st) := by
  unfold State.countWake
  split
  · exact h
  · exact h.foldl fun _ _ h => h.count

theorem touchBank {wg : Option Nat} {line : Addr} (h : Keeps P Q R s0 s) : Keeps P Q R s0 (s.touchBank wg line) := by
  unfold State.touchBank
  dsimp only
  split
  · exact h.reach.modWg
  · exact h.reach

theorem note {r : Rec} {tenant : Bool} (h : Keeps P Q R s0 s) : Keeps P Q R s0 (s.note r tenant) := h.parts

theorem touchRow {colour : Nat} {line : Addr} (h : Keeps P Q R s0 s) : Keeps P Q R s0 (s.touchRow colour line) := h.parts

theorem touchLine {colour : Nat} {wg : Option Nat} {t : Traffic} {line : Addr} (h : Keeps P Q R s0 s) :
    Keeps P Q R s0 (s.touchLine colour wg t line) := by
  unfold State.touchLine
  split
  · exact h.touchMsc.touchBank.touchRow
  · exact h.touchMsc

theorem wake {gs : List Nat} (h : Keeps P Q R s0 s) : Keeps P Q R s0 (s.wake gs) := h.foldl fun _ _ h => h.modBank

theorem fillPages {colour : Nat} {ps : List Nat} (h : Keeps P Q R s0 s) : Keeps P Q R s0 (s.fillPages colour ps) :=
  h.foldl fun _ _ h => h.count.parts

theorem noteWritten {colour a n : Nat} (h : Keeps P Q R s0 s) : Keeps P Q R s0 (s.noteWritten colour a n) := by
  unfold State.noteWritten
  split
  · exact h
  · exact h.of_base rfl (fun _ => rfl) fun _ => Prod.ext duty_tmod lone_tmod

theorem drainSp {p : Nat} (h : Keeps P Q R s0 s) : Keeps P Q R s0 (s.drainSp p) := by
  unfold State.drainSp
  split
  · exact h
  · exact h.modSp

theorem drainCore {core : Nat} (h : Keeps P Q R s0 s) : Keeps P Q R s0 (s.drainCore core) := h.foldl fun _ _ h => h.drainSp

theorem drainAt {who : Option Nat} {a n : Nat} (h : Keeps P Q R s0 s) : Keeps P Q R s0 (s.drainAt who a n) := by
  unfold State.drainAt
  split
  · exact h.drainCore
  · exact h

theorem settleAt {a n : Nat} (h : Keeps P Q R s0 s) : Keeps P Q R s0 (s.settleAt a n) := by
  unfold State.settleAt
  dsimp only
  split
  · exact h.drainAt.parts
  · exact h.drainAt
  · exact h.drainAt
  · exact h.drainAt
  · exact h.drainAt
  · exact h.drainAt
  · exact h.drainAt

theorem drainTilesOf {core : Nat} {p : TileBuf → Bool} (h : Keeps P Q R s0 s) : Keeps P Q R s0 (s.drainTilesOf core p) := h.parts

theorem extTouch {colour : Nat} {write : Bool} {a : Addr} (h : Keeps P Q R s0 s) : Keeps P Q R s0 (s.extTouch colour write a) := by
  unfold State.extTouch
  split
  · exact h
  · split
    · exact h
    · exact h.parts

theorem passLine {colour : Nat} {wg : Option Nat} {t : Traffic} {whole : Bool} {line : Addr} (h : Keeps P Q R s0 s) :
    Keeps P Q R s0 (s.passLine colour wg t whole line) := by
  unfold State.passLine
  dsimp only
  split
  · exact h.touchLine
  · split
    · exact h.touchLine.mendLines.unkey
    · split
      · refine Keeps.note ?_
        split
        · exact h.touchLine.meetLine
        · exact h.touchLine.meetLine.dropLine
      · split
        · exact h.touchLine.meetLine
        · exact h.touchLine.meetLine.dropLine

theorem passage {colour : Nat} {wg : Option Nat} {t : Traffic} {a n : Nat} (h : Keeps P Q R s0 s) : Keeps P Q R s0 (s.passage colour wg t a n) := by
  unfold State.passage
  dsimp only
  split
  · refine h.foldl fun _ _ h => Keeps.extTouch ?_
    split
    · exact h.passLine
    · exact h
  · refine h.foldl fun _ _ h => Keeps.extTouch ?_
    split
    · exact h.passLine
    · exact h
  · refine h.foldl fun _ _ h => Keeps.extTouch ?_
    split
    · exact h.passLine
    · exact h
  · exact h
  · exact h
  · exact h
  · exact h

theorem passRd {colour : Nat} {wg : Option Nat} {a n : Nat} (h : Keeps P Q R s0 s) : Keeps P Q R s0 (s.passRd colour wg a n) := h.passage

theorem passWr {colour : Nat} {wg : Option Nat} {a n : Nat} (h : Keeps P Q R s0 s) : Keeps P Q R s0 (s.passWr colour wg a n) :=
  h.fillPages.noteWritten.passage

theorem wakeSp {p : Nat} (h : Keeps P Q R s0 s) : Keeps P Q R s0 (s.wakeSp p) := by
  unfold State.wakeSp
  split
  · exact h
  · exact h.modSp

theorem wakeFor {a : Addr} (h : Keeps P Q R s0 s) : Keeps P Q R s0 (s.wakeFor a) := by
  unfold State.wakeFor
  split
  · exact h.wakeSp
  · exact h

theorem wakeRange {a n : Nat} (h : Keeps P Q R s0 s) : Keeps P Q R s0 (s.wakeRange a n) := by
  unfold State.wakeRange
  split
  · exact h
  · exact h.foldl fun _ _ h => h.wakeFor

theorem bus32 {colour : Nat} {a : Addr} {v : Word} (h : Keeps P Q R s0 s) : Keeps P Q R s0 (s.bus32 colour a v).1 := by
  unfold State.bus32
  split
  · exact h.wakeRange.settleAt.passWr.wrHome
  · exact h

theorem raise {v : Nat} (h : Keeps P Q R s0 s) : Keeps P Q R s0 (s.raise v) := by
  unfold State.raise
  split
  · exact h.parts
  · exact h

theorem keepPosted {rs : List (Addr × Nat)} {p : Posted} (h : Keeps P Q R s0 s) : Keeps P Q R s0 (s.keepPosted rs p) := h.wake.parts

theorem post32 {colour : Nat} {a : Addr} {v : Word} {vector : Option Nat} (h : Keeps P Q R s0 s) : Keeps P Q R s0 (s.post32 colour a v vector) := by
  unfold State.post32
  split
  · exact h.keepPosted
  · dsimp only
    split
    · split
      · exact h.bus32.raise
      · exact h.bus32
    · exact h.bus32

/-! ## Records -/

theorem putQword {b i v : Nat} (h : Keeps P Q R s0 s) : Keeps P Q R s0 (s.putQword b i v) := h.wrHome

theorem qerr {b cause slot : Nat} (h : Keeps P Q R s0 s) : Keeps P Q R s0 (s.qerr b cause slot) := h.putQword

theorem qfree {b : Addr} (h : Keeps P Q R s0 s) : Keeps P Q R s0 (s.qfree b) := h.putQword

theorem wrCaps {a : Addr} {ks : List Cap} (h : Keeps P Q R s0 s) : Keeps P Q R s0 (s.wrCaps a ks) := by
  induction ks generalizing a s with
  | nil => exact h
  | cons k ks ih =>
    refine ih ?_
    split
    · exact h.wrHome.setTag
    · exact h.wrHome

theorem qreserve {b n : Nat} (h : Keeps P Q R s0 s) : Keeps P Q R s0 (s.qreserve b n).2 := by
  unfold State.qreserve
  dsimp only
  split
  · exact h.putQword
  · exact h.putQword.wrCaps

theorem qfill {b start n : Nat} {slots : List Cap} (h : Keeps P Q R s0 s) : Keeps P Q R s0 (s.qfill b start n slots) := h.wrCaps

theorem qpublish {b start n : Nat} (h : Keeps P Q R s0 s) : Keeps P Q R s0 (s.qpublish b start n) := h.putQword.qfree

theorem qsettle (h : Keeps P Q R s0 s) : Keeps P Q R s0 s.qsettle := by
  unfold State.qsettle
  refine h.foldl fun _ _ h => ?_
  split
  · exact h.qpublish.parts
  · exact h

theorem lose {colour : Nat} (h : Keeps P Q R s0 s) : Keeps P Q R s0 (s.lose colour) := h.parts

theorem pushOne {colour b : Nat} {w : BitVec 512} (h : Keeps P Q R s0 s) : Keeps P Q R s0 (s.pushOne colour b w) := by
  unfold State.pushOne
  split
  · dsimp only
    split
    · exact (h.passWr.passWr.qreserve.of_snd ‹_›).qfill.qpublish
    · exact (h.passWr.passWr.qreserve.of_snd ‹_›).qfill.parts

theorem deliver {colour : Nat} {r : Rec} {gen : BitVec 8} {seq : Nat} (h : Keeps P Q R s0 s) : Keeps P Q R s0 (s.deliver colour r gen seq).1 := by
  unfold State.deliver
  split
  · exact h.lose
  · exact h.lose
  · exact h.passWr.qerr.lose
  · dsimp only
    split
    · exact h.keepPosted
    · exact h.pushOne.parts

theorem nextSeq (h : Keeps P Q R s0 s) : Keeps P Q R s0 s.nextSeq := h.parts

theorem record {r : Rec} {tenant : Bool} (h : Keeps P Q R s0 s) : Keeps P Q R s0 (s.record r tenant) := by
  unfold State.record
  dsimp only
  split
  · split
    · split
      · exact h.nextSeq.deliver.deliver.nextSeq.deliver
      · exact h.nextSeq.deliver.deliver
    · split
      · exact h.nextSeq.deliver.deliver.nextSeq.deliver
      · exact h.nextSeq.deliver.deliver
  · exact h.nextSeq.deliver

theorem setAcprog {spn t : Nat} {w : DWord} (h : Keeps P Q R s0 s) : Keeps P Q R s0 (s.setAcprog spn t w) := h.modSp

theorem countInc {fs : List Nat} {x : Cls} (h : Keeps P Q R s0 s) : Keeps P Q R s0 (s.countInc fs x) := h.foldl fun _ _ h => h.modFibre

theorem countDec {fs : List Nat} {x : Cls} (h : Keeps P Q R s0 s) : Keeps P Q R s0 (s.countDec fs x) := h.foldl fun _ _ h => h.modFibre

theorem refusalBit {fs : List Nat} {x : Cls} {on : Bool} (h : Keeps P Q R s0 s) : Keeps P Q R s0 (s.refusalBit fs x on) :=
  h.foldl fun _ _ h => h.modFibre

theorem modPort {n : Nat} {f : Port → Port} (h : Keeps P Q R s0 s) : Keeps P Q R s0 (s.modPort n f) := h.parts

theorem arrived {port colour : Nat} (h : Keeps P Q R s0 s) : Keeps P Q R s0 (s.arrived port colour) := h.count.modPort

theorem received {x : PeerStream} {seq : Nat} (h : Keeps P Q R s0 s) : Keeps P Q R s0 (s.received x seq) := h.parts

theorem once {x : PeerStream} {seq : Nat} {go : State → State} (h : Keeps P Q R s0 s) (hgo : ∀ t, Keeps P Q R s0 t → Keeps P Q R s0 (go t)) :
    Keeps P Q R s0 (s.once x seq go) := by
  unfold State.once
  split
  · exact hgo _ h.received
  · exact h

theorem onPort {port colour : Nat} {x : PeerStream} {seq : Nat} {go : State → State} (h : Keeps False False False s0 s)
    (hgo : ∀ t, Keeps False False False s0 t → Keeps False False False s0 (go t)) : Runs N s0 (s.onPort port colour x seq go) := by
  unfold State.onPort
  split
  · exact (h.arrived.once hgo).next
  · exact h.next

theorem send {m : OutMsg} (h : Keeps P Q R s0 s) : Keeps P Q R s0 (s.send m) := by
  unfold State.send
  split
  · exact h
  · exact h.count.parts

theorem sendPod {m : Nat → OutMsg} (h : Keeps P Q R s0 s) : Keeps P Q R s0 (s.sendPod m) := h.foldl fun _ _ h => h.send

/-! ## The undo log -/

theorem logLine {a : Addr} (h : Keeps P Q R s0 s) : Keeps P Q R s0 (s.logLine a) := by
  unfold State.logLine
  split
  · split
    · exact h.modSp
    · exact h
  · exact h

theorem logWrite {a n : Nat} (h : Keeps P Q R s0 s) : Keeps P Q R s0 (s.logWrite a n) := h.foldl fun _ _ h => h.logLine

theorem store {a : Addr} {bs : List Byte} (h : Keeps P Q R s0 s) : Keeps P Q R s0 (s.store a bs) := h.logWrite.wrBytes

theorem storeCap {a : Addr} {k : Cap} (h : Keeps P Q R s0 s) : Keeps P Q R s0 (s.storeCap a k) := h.logWrite.wrCap

theorem drainSome (h : Keeps P Q R s0 s) : Keeps P Q R s0 s.drainSome := h.foldl fun _ _ h => h.modSp

theorem queueWrite {spn who a n : Nat} (h : Keeps P Q R s0 s) : Keeps P Q R s0 (s.queueWrite spn who a n) := by
  unfold State.queueWrite
  split
  · exact h
  · exact h.modSp

theorem storeBy {spn who a : Nat} {bs : List Byte} (h : Keeps P Q R s0 s) : Keeps P Q R s0 (s.storeBy spn who a bs) := h.drainAt.queueWrite.store

theorem storeCapBy {spn who a : Nat} {k : Cap} (h : Keeps P Q R s0 s) : Keeps P Q R s0 (s.storeCapBy spn who a k) :=
  h.drainAt.queueWrite.storeCap

theorem keepLogs {t : State} (h : Keeps P Q R s0 s) (_ : Keeps P Q R s0 t) : Keeps P Q R s0 (s.keepLogs t) := h.parts

theorem freeLogs (h : Keeps P Q R s0 s) : Keeps P Q R s0 s.freeLogs := h.parts

theorem holdLog {c pos : Nat} (h : Keeps P False R s0 s) : Keeps P False R s0 (s.holdLog c pos) := h.modConvoy

theorem logEvent {i : Nat} {result : List DWord} {wrote : List (Addr × Nat × DWord)} (h : Keeps P Q R s0 s) :
    Keeps P Q R s0 (s.logEvent i result wrote) := by
  unfold State.logEvent
  split
  · exact h
  · exact h.modSp.modFibre

theorem logPop {i : Nat} {slots : List (BitVec 128 × Bool)} (h : Keeps P Q R s0 s) : Keeps P Q R s0 (s.logPop i slots) := by
  unfold State.logPop
  split
  · exact h
  · exact h.modSp.modFibre

theorem replayEvent {i : Nat} {e : LogEvent} (h : Keeps P Q R s0 s) : Keeps P Q R s0 (s.replayEvent i e) := by
  unfold State.replayEvent
  split
  · exact h
  · dsimp only
    refine Keeps.modFibre ?_
    split
    · exact (h.foldl fun _ _ h => h.drainAt.store).modSp
    · exact h

theorem firmwarePass {write : Bool} {key n : Nat} (h : Keeps P Q R s0 s) : Keeps P Q R s0 (s.firmwarePass write key n) := by
  unfold State.firmwarePass
  split
  · exact h
  · exact h.passage

theorem logTraffic (h : Keeps P Q R s0 s) : Keeps P Q R s0 s.logTraffic := h.foldl fun _ _ h => h.firmwarePass.modSp

theorem temperPoint {p : Nat} (h : Keeps P False R s0 s) : Keeps P False R s0 (s.temperPoint p) := h.firmwarePass.modSp.convoys

theorem temperEntry {p w : Nat} (h : Keeps P False R s0 s) : Keeps P False R s0 (s.temperEntry p w) := by
  unfold State.temperEntry
  split
  · exact h.modWg.temperPoint
  · exact h.modSp

/-! ## Messages -/

theorem lineRec {ag : Agent} {line : Addr} {recov : BitVec 4} {e : LineErr} {done : Nat} {tenant : Bool} (h : Keeps P Q R s0 s) :
    Keeps P Q R s0 (s.lineRec ag line recov e done tenant) :=
  h.record

theorem writeNotes (h : Keeps P Q R s0 s) : Keeps P Q R s0 s.writeNotes := h.parts.foldl fun _ _ h => h.record

theorem linkRec {colour : Nat} {addr : Addr} (h : Keeps P Q R s0 s) : Keeps P Q R s0 (s.linkRec colour addr) := h.record

theorem markPages {a n : Nat} (h : Keeps P Q R s0 s) : Keeps P Q R s0 (s.markPages a n) :=
  h.stored (fun hs => storeWf_filter (fun x => !inRanges [(a, n)] x.1) (fun x => !inRanges [(a, n)] x.1) hs) rfl rfl rfl rfl

theorem awaits {rd wr : List (Addr × Nat)} (h : Keeps P Q R s0 s) : KeepsIn P Q R s0 (fun x => x) (s.awaits rd wr) := by
  unfold State.awaits
  dsimp only
  split
  · exact KeepsIn.none
  · exact KeepsIn.some h.wake.parts

theorem readLine {ag : Agent} {done : Nat} {line : Addr} (h : Keeps P Q R s0 s) : Keeps P Q R s0 (s.readLine ag done line).1 := by
  unfold State.readLine
  split
  · split
    · exact h.linkRec
    · split
      · exact h.linkRec
      · exact h
  · dsimp only
    split
    · exact h.meetLine.lineRec
    · exact h.meetLine

theorem writeLine {ag : Agent} {done : Nat} {line : Addr} {full hit : Bool} (h : Keeps P Q R s0 s) :
    Keeps P Q R s0 (s.writeLine ag done line full hit).1 := by
  unfold State.writeLine
  split
  · exact h
  · split
    · exact h.mendLines.unkey
    · split
      · exact h
      · split
        · exact h.readLine
        · exact h

theorem strike {line : Addr} (h : Keeps P Q R s0 s) : Keeps P Q R s0 (s.strike line) := by
  unfold State.strike
  split
  · exact h
  · split
    · exact h.dropLine
    · split
      · exact h.copyLine
      · exact h.dropLine.parts
    · exact h.dropLine.parts

theorem failLines {l : List LineFail} (h : Keeps P Q R s0 s) : Keeps P Q R s0 (s.failLines l) := by
  unfold State.failLines
  refine h.foldl fun _ _ h => ?_
  split
  · exact h.strike
  · split
    · exact h.parts
    · exact h.parts

theorem wakeAll {rs : List (Addr × Addr × Bool)} (h : Keeps P Q R s0 s) : Keeps P Q R s0 (s.wakeAll rs) := h.foldl fun _ _ h => h.wakeRange

theorem extentRec {ag : Agent} {cause : Nat} {a : Addr} (h : Keeps P Q R s0 s) : Keeps P Q R s0 (s.extentRec ag cause a) := by
  unfold State.extentRec
  dsimp only
  split
  · exact h
  · split
    · split
      · exact h.record
      · exact h
    · split
      · exact h.record
      · exact h
    · exact h
    · exact h
    · exact h
    · exact h
    · exact h

theorem readLines {ag : Agent} {t : Traffic} {a n : Nat} (h : Keeps P Q R s0 s) : Keeps P Q R s0 (s.readLines ag t a n).1 := by
  unfold State.readLines
  split
  · exact h
  · exact h
  · exact h
  · exact h
  · refine h.foldl_fst fun _ _ h => ?_
    dsimp only
    refine Keeps.count ?_
    split
    · split
      · split
        · exact h.touchLine.extTouch
        · exact h.touchLine.extTouch.dropLine
      · split
        · exact h.extTouch
        · exact h.extTouch.dropLine
    · split
      · split
        · exact h.touchLine.extTouch.readLine
        · exact h.touchLine.extTouch.readLine.dropLine
      · split
        · exact h.extTouch.readLine
        · exact h.extTouch.readLine.dropLine

theorem putBytes {colour : Nat} {dropped : List Addr} {a : Addr} {bs : List (Option Byte)} (h : Keeps P Q R s0 s) :
    Keeps P Q R s0 (s.putBytes colour dropped a bs) := by
  induction bs generalizing a s with
  | nil => exact h
  | cons x bs ih =>
    cases x with
    | none => exact ih h
    | some x =>
      refine ih ?_
      split
      · exact h
      · split
        · exact h.putByteFor
        · exact h

theorem writeLines {ag : Agent} {a : Addr} {bs : List (Option Byte)} (h : Keeps P Q R s0 s) : Keeps P Q R s0 (s.writeLines ag a bs).1 := by
  unfold State.writeLines
  dsimp only
  split
  · exact h
  · exact h
  · exact h
  · exact h
  · exact h.foldl fun _ _ h => h.extTouch
  · refine h.foldl_fst fun _ _ h => Keeps.count ?_
    split
    · exact h.touchLine.extTouch.writeLine
    · exact h.touchLine.extTouch.writeLine.dropLine

theorem putTags {a n : Nat} {tags : List Nat} (h : Keeps P Q R s0 s) : Keeps P Q R s0 (s.putTags a n tags) := by
  unfold State.putTags
  refine h.clearTags.foldl fun _ _ h => ?_
  split
  · exact h.setTag
  · exact h

theorem writeRange {ag : Agent} {twin : Bool} {a : Addr} {bs : List (Option Byte)} {tags : List Nat} (h : Keeps P Q R s0 s) :
    Keeps P Q R s0 (s.writeRange ag twin a bs tags).1 := by
  unfold State.writeRange
  dsimp only
  split
  · exact h
  · split
    · exact h.settleAt.fillPages.noteWritten.writeLines.logWrite.putBytes.putTags.fillPages.noteWritten.writeLines.putBytes.putTags
    · exact h.settleAt.fillPages.noteWritten.writeLines.logWrite.putBytes.putTags

theorem readElem {ag : Agent} {e : Elem} (h : Keeps P Q R s0 s) : Keeps P Q R s0 (s.readElem ag e).1 := by
  unfold State.readElem
  split
  · exact h
  · exact h.readLines

theorem moveElems {ag : Agent} {twin : Bool} {els : List Elem} (h : Keeps P Q R s0 s) : Keeps P Q R s0 (s.moveElems ag twin els).1 :=
  Keeps.foldl_fst (h.foldl_fst fun _ _ h => h.readElem) fun _ _ h => h.writeRange

theorem readWord {ag : Agent} {t : Traffic} {a n : Nat} (h : Keeps P Q R s0 s) : Keeps P Q R s0 (s.readWord ag t a n).1 := by
  unfold State.readWord
  dsimp only
  split
  · exact h.readLines
  · exact h.readLines

theorem writeWord {colour : Nat} {twin : Bool} {a : Addr} {bs : List Byte} (h : Keeps P Q R s0 s) :
    Keeps P Q R s0 (s.writeWord colour twin a bs) := by
  unfold State.writeWord
  dsimp only
  split
  · exact h.settleAt.logWrite.fillPages.noteWritten.putBytes.clearTags.passage.fillPages.noteWritten.putBytes.clearTags
  · exact h.settleAt.logWrite.fillPages.noteWritten.putBytes.clearTags

/-! ## Matrices -/

theorem mapTile {spn t : Nat} {places : List (Nat × Nat)} {f : Nat → Nat → Word × BitVec 8} (h : Keeps P Q R s0 s) :
    Keeps P Q R s0 (s.mapTile spn t places f).1 :=
  h.foldl_fst fun _ _ h => h.wr32

theorem bufferTile {old : State} {spn t cmd : Nat} {fibres : List Nat} (h : Keeps P Q R s0 s) (_ : Keeps P Q R s0 old) :
    Keeps P Q R s0 (s.bufferTile old spn t cmd fibres) := by
  unfold State.bufferTile
  dsimp only
  split
  · exact h
  · exact h.modSp

theorem invTile {spn t : Nat} (h : Keeps P Q R s0 s) : Keeps P Q R s0 (s.invTile spn t) := h.setAcprog

theorem astRows {rd : State} {spn : Nat} {d : Cap} {t : Nat} {p : List Word} {fmt : AstFmt} {start stop : Nat} (h : Keeps P Q R s0 s)
    (_ : Keeps P Q R s0 rd) : Keeps P Q R s0 (s.astRows rd spn d t p fmt start stop).1 := by
  unfold State.astRows
  exact h.foldl_fst fun _ _ h => h.store

theorem performed {core : Nat} (h : Keeps P Q R s0 s) : Keeps P Q R s0 (s.performed core) := h.foldl fun _ _ h => h.wrRaw

theorem drainDest {spn : Nat} {op : CmdOp} (h : Keeps P Q R s0 s) : Keeps P Q R s0 (s.drainDest spn op) := by
  unfold State.drainDest
  split
  · exact h.foldl fun _ _ h => h.drainAt
  · split
    · exact h.drainAt
    · exact h

theorem runMatrix {rd : State} {spn : Nat} {op : CmdOp} {start stop : Nat} (h : Keeps P Q R s0 s) (hrd : Keeps P Q R s0 rd) :
    Keeps P Q R s0 (s.runMatrix rd spn op start stop).1 := by
  unfold State.runMatrix
  split
  · exact h.mapTile
  · exact h.mapTile
  · exact h.mapTile
  · exact h.mapTile
  · exact h.astRows hrd
  · exact h.mapTile
  · exact h.mapTile
  · exact h

theorem doMatrix {spn own : Nat} {r : BitVec 16} {q : Nat} {op : CmdOp} {cmd : Nat} {fibres : List Nat} {upto : Option (Nat → Nat)}
    (h : Keeps P Q R s0 s) : Keeps P Q R s0 (s.doMatrix spn own r q op cmd fibres upto).1 := by
  unfold State.doMatrix
  split
  · exact h
  · dsimp only
    split
    · exact h
    · dsimp only
      refine Keeps.setAcprog ?_
      split
      · exact (h.drainDest.runMatrix h.drainDest.performed).bufferTile h.drainDest
      · exact h.drainDest.runMatrix h.drainDest.performed
    · dsimp only
      refine Keeps.setAcprog ?_
      split
      · exact (h.drainDest.runMatrix h.drainDest.performed).bufferTile h.drainDest
      · exact h.drainDest.runMatrix h.drainDest.performed

/-! ## Commands -/

theorem noRoute {colour q : Nat} (h : Keeps P Q R s0 s) : Keeps P Q R s0 (s.noRoute colour q) := by
  unfold State.noRoute
  split
  · exact h.record
  · exact h

theorem putStatus {colour a status : Nat} {resume : Option Nat} (h : Keeps P Q R s0 s) : Keeps P Q R s0 (s.putStatus colour a status resume) := by
  unfold State.putStatus
  dsimp only
  split
  · exact h.drainAt.passWr.logWrite.wrKept.wrKept
  · exact h.drainAt.passWr.logWrite.wrKept

theorem blockStatus {colour a status : Nat} {resume : Option Nat} (h : Keeps P Q R s0 s) :
    Keeps P Q R s0 (s.blockStatus colour a status resume) := by
  unfold State.blockStatus
  split
  · exact h.putStatus
  · exact h.keepPosted

theorem takeEntries {k : Nat} (h : Keeps P Q R s0 s) : Keeps P Q R s0 (s.takeEntries k) := by
  unfold State.takeEntries
  split
  · exact h
  · refine h.foldl fun _ _ h => ?_
    split
    · exact h.modCmd
    · exact h

theorem holdEntries {k : Nat} {es : List Entry} (h : Keeps P Q R s0 s) : Keeps P Q R s0 (s.holdEntries k es) := h.modCmd.takeEntries

theorem settleCmd {k : Nat} (h : Keeps P Q R s0 s) : Keeps P Q R s0 (s.settleCmd k) := by
  unfold State.settleCmd
  split
  · exact h
  · split
    · exact h
    · dsimp only
      split
      · split
        · exact h.countDec.refusalBit.modCmd
        · exact h.countDec.parts
      · refine Keeps.modCmd ?_
        split
        · exact h.countDec.refusalBit
        · exact h.countDec

theorem settleCmds (h : Keeps P Q R s0 s) : Keeps P Q R s0 s.settleCmds := h.foldl fun _ _ h => h.settleCmd

theorem writeSlot {m shown : Cmd} (h : Keeps P Q R s0 s) : Keeps P Q R s0 (s.writeSlot m shown) := by
  unfold State.writeSlot
  split
  · exact h.modCore fun _ => rfl
  · exact h

theorem finish {k status : Nat} {cause : Option (Nat × Addr)} (h : Keeps P Q R s0 s) : Keeps P Q R s0 (s.finish k status cause) := by
  unfold State.finish
  split
  · exact h
  · dsimp only
    refine (Keeps.parts ?_).count.settleCmds
    split
    · exact h.writeSlot.send
    · exact h.writeSlot

theorem finishBlock {k : Nat} {a : Addr} {status : Nat} (h : Keeps P Q R s0 s) : Keeps P Q R s0 (s.finishBlock k a status) :=
  h.blockStatus.finish

theorem refuseCmd {k : Nat} {m : Cmd} {cause : Nat} {addr : Addr} (h : Keeps P Q R s0 s) : Keeps P Q R s0 (s.refuseCmd k m cause addr) := by
  unfold State.refuseCmd
  split
  · dsimp only
    split
    · exact h.record.finish
    · exact h.record.finishBlock
  · exact h.finish

end Keeps

end Sys2Proof.Machine

/-! SUPPORT. What each operation keeps: performed commands, rows and slots, issue, local memory and control. -/

namespace Sys2Proof.Machine

variable {P Q R N : Prop} {s0 s t : State}

namespace Keeps

-- many short proofs: one after another, so that they do not each take a thread and its stack
set_option Elab.async false

/-! ## What a command does -/

theorem touchSets {wg : Option Nat} {l : List (Addr × Nat)} (h : Keeps P Q R s0 s) : Keeps P Q R s0 (s.touchSets wg l) :=
  h.foldl fun _ _ h => h.touchBank

theorem doMove {ag : Agent} {m : Cmd} {op : CmdOp} {stop : Nat} (h : Keeps P Q R s0 s) :
    KeepsIn P Q R s0 (fun x => x.s) (s.doMove ag m op stop) := by
  unfold State.doMove
  dsimp only
  split
  · refine KeepsIn.some ?_
    dsimp only
    split
    · exact h.touchSets.moveElems.keepLogs h
    · exact h.touchSets.moveElems
  · exact KeepsIn.none

theorem doWb {colour : Nat} {k : Cap} {off len : Nat} {inv : Bool} (h : Keeps P Q R s0 s) : Keeps P Q R s0 (s.doWb colour k off len inv) :=
  h.writeBack

theorem peekLines {ag : Agent} {done a n : Nat} (h : Keeps P Q R s0 s) : Keeps P Q R s0 (s.peekLines ag done a n).1 := by
  unfold State.peekLines
  refine h.foldl_fst fun _ _ h => ?_
  dsimp only
  refine (Keeps.touchBank ?_).touchRow.readLine.count
  split
  · exact h.touchMsc
  · exact h

theorem nmcTarget {ag : Agent} {done line : Nat} (h : Keeps P Q R s0 s) : Keeps P Q R s0 (s.nmcTarget ag done line).1 := by
  unfold State.nmcTarget
  dsimp only
  split
  · exact h
  · split
    · exact h.copyLine.unkey
    · exact h.readLine
  · exact h.readLine

theorem updateLine {ag : Agent} {twin : Bool} {line i : Nat} {alpha beta : Word} {fn : NmcFn} {operands : State → State × Option (List Word)}
    (h : Keeps P Q R s0 s) (hoperands : ∀ t, Keeps P Q R s0 t → Keeps P Q R s0 (operands t).1) :
    Keeps P Q R s0 (s.updateLine ag twin line i alpha beta fn operands).1 := by
  unfold State.updateLine
  extract_lets x y
  have hy : Keeps P Q R s0 y.1 := hoperands _ h.touchBank.touchRow.count.nmcTarget
  split
  · extract_lets ws bs put s1 s2 s3
    have hput {t : State} (a : Addr) (ht : Keeps P Q R s0 t) : Keeps P Q R s0 (put t a) :=
      ht.fillPages.noteWritten.writeLine.putBytes.clearTags
    have h1 : Keeps P Q R s0 s1 := hput _ hy
    have h2 : Keeps P Q R s0 s2 := (hput _ h1).ite h1
    have h3 : Keeps P Q R s0 s3 := by
      dsimp only [s3]
      split
      · exact h2.lineRec.count
      · exact h2
    exact h3.count
  · exact hy

theorem nmcOperands {ag : Agent} {g : Cap} {soff : Nat} {fn : NmcFn} {i : Nat} (h : Keeps P Q R s0 s) :
    Keeps P Q R s0 (s.nmcOperands ag g soff fn i).1 := by
  unfold State.nmcOperands
  split
  · exact h.peekLines
  · exact h

theorem nmcLine {ag : Agent} {t g : Cap} {soff doff : Nat} {alpha beta : Word} {fn : NmcFn} {i : Nat} (h : Keeps P Q R s0 s) :
    Keeps P Q R s0 (s.nmcLine ag t g soff doff alpha beta fn i).1 :=
  h.updateLine (fun _ h => h.nmcOperands)

theorem nmcFlush {t : Cap} {doff len : Nat} (h : Keeps P Q R s0 s) : Keeps P Q R s0 (s.nmcFlush t doff len) := h.writeBack

theorem doNmc {ag : Agent} {r stop : Nat} {t g : Cap} {soff doff len : Nat} {alpha beta : Word} {fn : NmcFn} (h : Keeps P Q R s0 s) :
    Keeps P Q R s0 (s.doNmc ag r stop t g soff doff len alpha beta fn).s :=
  Keeps.foldl_by (π := Done.s) h fun _ _ h => h.nmcLine

theorem logAt {spn w : Nat} {k : EventKey} {result : List DWord} {wrote : List (Addr × Nat × DWord)} (h : Keeps P Q R s0 s) :
    Keeps P Q R s0 (s.logAt spn w k result wrote) :=
  h.modSp

theorem rmw {ag : Agent} {twin : Bool} {a n : Nat} {f : DWord → DWord} (h : Keeps P Q R s0 s) : Keeps P Q R s0 (s.rmw ag twin a n f).1 := by
  unfold State.rmw
  dsimp only
  split
  · exact h.drainAt.readWord.writeWord
  · exact h.drainAt.readWord

theorem gatmResult {l : GatmLane} {w64 : Bool} {d : VDst} {x : DWord} (h : Keeps P Q R s0 s) : Keeps P Q R s0 (s.gatmResult l w64 d x) := by
  unfold State.gatmResult
  split
  · split
    · exact h.wrV64
    · exact h.wrV
  · exact h

theorem doGatm {ag : Agent} {spn w : Nat} {k : Cap} {fn : AtomFn} {w64 u : Bool} {d : VDst} {ls : List GatmLane} {ks : List EventKey}
    (h : Keeps P Q R s0 s) : Keeps P Q R s0 (s.doGatm ag spn w k fn w64 u d ls ks).s := by
  induction ls generalizing s ks with
  | nil => exact h
  | cons l ls ih =>
    refine ih ?_
    cases ks with
    | nil => exact h.rmw.gatmResult
    | cons y ks => exact h.rmw.gatmResult.logAt

theorem doSig {ag : Agent} {spn w : Nat} {k : Cap} {off : Nat} {v : Word} {add : Bool} {ks : List EventKey} (h : Keeps P Q R s0 s) :
    Keeps P Q R s0 (s.doSig ag spn w k off v add ks).s := by
  unfold State.doSig
  dsimp only
  refine Keeps.foldl ?_ fun _ _ h => h.logAt
  split
  · exact h.rmw
  · exact h.writeRange

theorem clxJoin {ag : Agent} {k : Nat} {m : Cmd} {src : Cap} {soff len : Nat} {arg0 : Word} {fn : ClxFn} {i32 : Bool} (h : Keeps P Q R s0 s) :
    KeepsIn P Q R s0 (fun x => x) (s.clxJoin ag k m src soff len arg0 fn i32) := by
  unfold State.clxJoin
  split
  · exact KeepsIn.some h
  · dsimp only
    split
    · exact KeepsIn.some h.parts
    · split
      · exact KeepsIn.some h
      · split
        · exact KeepsIn.none
        · refine KeepsIn.some ?_
          split
          · exact h.readLines.parts.modCmd.sendPod
          · exact h.readLines.parts.modCmd

theorem doClx {ag : Agent} {k : Nat} {m : Cmd} {dst : Cap} {doff len : Nat} {arg0 : Word} {fn : ClxFn} {i32 : Bool} {r stop : Nat}
    (h : Keeps P Q R s0 s) : KeepsIn P Q R s0 (fun x => x.s) (s.doClx ag k m dst doff len arg0 fn i32 r stop) := by
  unfold State.doClx
  split
  · exact KeepsIn.some h
  · dsimp only
    split
    · exact KeepsIn.none
    · split
      · exact KeepsIn.some h.parts
      · split
        · exact KeepsIn.some h
        · split
          · split
            · refine KeepsIn.some ?_
              dsimp only
              split
              · exact h.writeRange.parts
              · exact h.writeRange
            · exact KeepsIn.none
          · split
            · refine KeepsIn.some ?_
              dsimp only
              split
              · exact h.writeRange.parts
              · exact h.writeRange
            · exact KeepsIn.none

theorem markExport {colour q : Nat} (h : Keeps P Q False s0 s) : Keeps P Q False s0 (s.markExport colour q) := h.worlds

theorem claimEnd {m : Cmd} {op : CmdOp} (h : Keeps P Q R s0 s) : Keeps P Q R s0 (s.claimEnd m op) := by
  unfold State.claimEnd
  split
  · exact h
  · exact h.foldl fun _ _ h => h.send

theorem sendCopy {ag : Agent} {k q : Nat} {dst : Cap} {doff a n : Nat} {keep : Bool} {lost : List Addr} (h : Keeps P Q False s0 s) :
    Keeps P Q False s0 (s.sendCopy ag k q dst doff a n keep lost) := by
  unfold State.sendCopy
  dsimp only
  refine (h.foldl fun _ _ h => ?_).foldl fun _ _ h => ?_
  · split
    · exact h
    · exact h.send
  · split
    · exact h.send.count.markExport
    · exact h

theorem peerCopy {ag : Agent} {k : Nat} {m : Cmd} {q : Nat} {dst src : Cap} {soff doff len : Nat} (h : Keeps P Q False s0 s) :
    KeepsIn P Q False s0 (fun x => x.s) (s.peerCopy ag k m q dst src soff doff len) := by
  unfold State.peerCopy
  split
  · exact KeepsIn.some h
  · split
    · exact KeepsIn.some h
    · split
      · dsimp only
        split
        · exact KeepsIn.some h.send.writeRange
        · exact KeepsIn.none
      · exact KeepsIn.some h.readLines.sendCopy

theorem peerAtomic {ag : Agent} {k spn w q : Nat} {cap : Cap} {msgs : List RemoteAcc} {lanes : List GatmLane} {w64 : Bool} {d : VDst}
    {ks : List EventKey} (h : Keeps P Q R s0 s) : Keeps P Q R s0 (s.peerAtomic ag k spn w q cap msgs lanes w64 d ks).s := by
  unfold State.peerAtomic
  split
  · exact h
  · exact ((h.foldl fun _ _ h => h.send).foldl fun _ _ h => h.gatmResult).foldl fun _ _ h => h.logAt

theorem peerElems {ag : Agent} {k q : Nat} {dst : Cap} {els : List Elem} (h : Keeps P Q False s0 s) :
    KeepsIn P Q False s0 (fun x => x.s) (s.peerElems ag k q dst els) := by
  unfold State.peerElems
  split
  · exact KeepsIn.some h
  · dsimp only
    refine KeepsIn.some (h.foldl_fst fun _ _ h => ?_)
    split
    · exact h
    · exact h.readLines.sendCopy

theorem peerUpdates {ag : Agent} {k q : Nat} {t g : Cap} {soff doff r stop len : Nat} {alpha beta : Word} {fn : NmcFn} (h : Keeps P Q R s0 s) :
    Keeps P Q R s0 (s.peerUpdates ag k q t g soff doff r stop len alpha beta fn).s := by
  unfold State.peerUpdates
  split
  · exact h
  · dsimp only
    refine h.foldl_fst fun _ _ h => ?_
    split
    · exact h.nmcOperands.send
    · exact h.nmcOperands

theorem answered {st : Nat} (h : Keeps P Q R s0 s) : Keeps P Q R s0 (s.answered st).s := h

theorem doSnap {ag : Agent} {m : Cmd} {dst : Cap} {doff stop : Nat} {bs : List (Option Byte)} {tags : List Nat} (h : Keeps P Q R s0 s) :
    KeepsIn P Q R s0 (fun x => x.s) (s.doSnap ag m dst doff stop bs tags) := by
  unfold State.doSnap
  dsimp only
  split
  · exact KeepsIn.some h.writeRange
  · exact KeepsIn.none

theorem doCopy {ag : Agent} {m : Cmd} {op : CmdOp} {stop : Nat} (h : Keeps P Q R s0 s) :
    KeepsIn P Q R s0 (fun x => x.s) (s.doCopy ag m op stop) := by
  unfold State.doCopy
  split
  · exact h.doSnap
  · exact h.doMove

theorem perform {k : Nat} {m : Cmd} {op : CmdOp} (h : Keeps P Q False s0 s) : KeepsIn P Q False s0 (fun x => x.s) (s.perform k m op) := by
  unfold State.perform
  dsimp only
  split
  · exact KeepsIn.none
  · split
    · exact h.claimEnd.peerCopy
    · split
      · exact KeepsIn.some h.claimEnd
      · exact KeepsIn.some h.claimEnd.peerAtomic
    · split
      · exact KeepsIn.some h.claimEnd
      · exact KeepsIn.some h.claimEnd.peerAtomic
    · exact KeepsIn.map fun _ => h.claimEnd.answered
    · exact KeepsIn.some h.claimEnd
    · exact KeepsIn.some h.claimEnd
    · exact h.claimEnd.doCopy
    · exact h.claimEnd.doMove
    · exact h.claimEnd.peerElems
    · exact h.claimEnd.peerElems
    · exact h.claimEnd.doMove
    · exact h.claimEnd.doMove
    · exact KeepsIn.some h.claimEnd.doWb
    · exact KeepsIn.some h.claimEnd.peerUpdates
    · split
      · exact KeepsIn.none
      · exact KeepsIn.some (h.claimEnd.doNmc.foldl fun _ _ h => h.logAt)
    · split
      · exact KeepsIn.some h.claimEnd
      · split
        · exact KeepsIn.some h.claimEnd.doGatm
        · exact KeepsIn.none
    · split
      · exact KeepsIn.some h.claimEnd
      · split
        · exact KeepsIn.some h.claimEnd.doSig
        · exact KeepsIn.none
    · exact h.claimEnd.doClx
    · split
      · exact KeepsIn.some h.claimEnd.doMatrix
      · exact KeepsIn.none
    · exact KeepsIn.some h.claimEnd.doMatrix

theorem partway {k : Nat} {m : Cmd} {op : CmdOp} {g : Grain} {pick : Nat → Nat} (h : Keeps P Q False s0 s) :
    Keeps P Q False s0 (s.partway k m op g pick).s := by
  unfold State.partway
  extract_lets ag stay took move
  have htook (n : Nat) {o : Option Done} (ho : KeepsIn P Q False s0 (fun d => d.s) o) : Keeps P Q False s0 (took n o).s := by
    cases o with
    | none => exact h
    | some d =>
      dsimp only [took]
      split
      · exact ho d rfl
      · exact h
  have hmove (n : Nat) : Keeps P Q False s0 (move n).s := by
    dsimp only [move]
    split
    · exact htook n h.claimEnd.peerCopy
    · exact htook n h.claimEnd.peerElems
    · exact htook n h.claimEnd.peerElems
    · exact htook n h.doCopy
  have hflags {t : State} {fl : BitVec 8} (ht : Keeps P Q False s0 t) : Keeps P Q False s0 (if fl = 0 then t else t.engineFlags m.fibres fl) :=
    ht.ite ht.engineFlags
  split
  · exact h
  · split
    · exact hmove _
    · exact hmove _
    · exact hmove _
    · exact hmove _
    · exact h.doWb
    · dsimp only
      split
      next d e =>
        split
        · exact hflags (h.doClx d e)
        · exact h
      · exact h
    · dsimp only
      split
      · exact htook _ (KeepsIn.some h.claimEnd.peerUpdates)
      · split
        · exact h
        · exact hflags h.doNmc
    · exact h
    · exact h
    · exact h
    · exact h
    · extract_lets room x y
      split
      · exact hflags h.doMatrix
      · exact h

theorem snapshot {m : Cmd} {op : CmdOp} (h : Keeps P Q R s0 s) : Keeps P Q R s0 (s.snapshot m op).1 := by
  unfold State.snapshot
  split
  · exact h.readElem
  · exact h

/-! ## Rows and slots -/

theorem zeroRange {a n : Nat} (h : Keeps P Q R s0 s) : Keeps P Q R s0 (s.zeroRange a n) :=
  h.stored (fun hs => storeWf_filter (fun x => !inRanges [(a, n)] x.1) (fun x => !inRanges [(a, n)] x.1) hs) rfl rfl rfl rfl

theorem zeroRows {spn lane row n : Nat} (h : Keeps P Q R s0 s) : Keeps P Q R s0 (s.zeroRows spn lane row n) := h.zeroRange

theorem rewindow {i : Nat} (h : Keeps P Q R s0 s) : Keeps P Q R s0 (s.rewindow i) := by
  unfold State.rewindow
  split
  · exact h
  · split
    · exact h.modFibre
    · exact h.zeroRows.modFibre

/-! ## Convoys and launches -/

theorem arrive {i : Nat} {arrived : Int} (h : Keeps P Q R s0 s) : Keeps P Q R s0 (s.arrive i arrived) := by
  unfold State.arrive
  split
  · exact h
  · dsimp only
    split
    · exact h.parts
    · split
      · exact h.parts
      · exact h.parts

theorem spill {v : Convoy} {i : Nat} {pc : Addr} (h : Keeps P Q R s0 s) : Keeps P Q R s0 (s.spill v i pc) := h.modFibre.arrive

theorem staleTiles {spn w : Nat} {r : BitVec 16} (h : Keeps P Q R s0 s) : Keeps P Q R s0 (s.staleTiles spn w r) := by
  unfold State.staleTiles
  split
  · exact h
  · refine h.foldl fun _ _ h => ?_
    dsimp only
    split
    · exact h.setAcprog
    · exact h

theorem enterRegion {i : Nat} {hdr : Addr} (h : Keeps P Q R s0 s) : Keeps P Q R s0 (s.enterRegion i hdr) := by
  unfold State.enterRegion
  split
  · exact h
  · exact h.modFibre.modWg.staleTiles

theorem convoyRegion {c : Nat} {hdr : Addr} (h : Keeps P False R s0 s) : Keeps P False R s0 (s.convoyRegion c hdr) := by
  unfold State.convoyRegion
  split
  · exact h
  · exact (h.foldl fun _ _ h => h.enterRegion.modFibre).modConvoy

theorem imagesDec {fs : List Nat} {x : Cls} (h : Keeps P Q R s0 s) : Keeps P Q R s0 (s.imagesDec fs x) := h.parts

theorem dropCmd {k : Nat} {m : Cmd} (h : Keeps P Q R s0 s) : Keeps P Q R s0 (s.dropCmd k m) :=
  (h.parts.foldl fun _ _ h => h.modFibre).countDec.imagesDec.count.settleCmds

theorem stopCmd {k : Nat} {m : Cmd} {units : Nat} (h : Keeps P Q R s0 s) : Keeps P Q R s0 (s.stopCmd k m units) := by
  unfold State.stopCmd
  dsimp only
  split
  · split
    · exact h.dropCmd.blockStatus
    · exact h.dropCmd
  · exact h.dropCmd.writeSlot

theorem cancel {k : Nat} (h : Keeps P Q False s0 s) : Keeps P Q False s0 (s.cancel k) := by
  unfold State.cancel
  split
  · exact h
  · split
    · exact h.parts.send
    · dsimp only
      refine Keeps.stopCmd ?_
      split
      · exact h.partway
      · exact h

theorem cutRegion {c : Nat} (h : Keeps P False False s0 s) : Keeps P False False s0 (s.cutRegion c) := by
  unfold State.cutRegion
  split
  · exact h
  · exact ((h.foldl fun _ _ h => h.cancel).foldl fun _ _ h => h.rewindow.modFibre).putConvoy

theorem disperse {c : Nat} (h : Keeps P False R s0 s) : Keeps P False R s0 (s.disperse c) := by
  unfold State.disperse
  split
  · exact h
  · exact (h.foldl fun _ _ h => h.spill).modConvoy

theorem cutBack {c : Nat} (h : Keeps P False False s0 s) : Keeps P False False s0 (s.cutBack c) := h.cutRegion.disperse

theorem completion {l : Launch} {base : Word} (h : Keeps P Q R s0 s) : Keeps P Q R s0 (s.completion l base) := by
  unfold State.completion
  split
  · dsimp only
    split
    · exact h
    · split
      · exact h.post32.post32
      · exact h.post32
  · exact h

theorem freeSlots {l : Nat} (h : Keeps P Q R s0 s) : Keeps P Q R s0 (s.freeSlots l) := h.parts

theorem leaveSps {ps : List Nat} (h : Keeps P Q R s0 s) : Keeps P Q R s0 (s.leaveSps ps) := h.foldl fun _ _ h => h.modSp

theorem drainEnded {ps : List Nat} (h : Keeps P Q R s0 s) : Keeps P Q R s0 (s.drainEnded ps) := h.foldl fun _ _ h => h.modSp

theorem dropWg {w : Nat} (h : Keeps P Q R s0 s) : Keeps P Q R s0 (s.dropWg w) := h.leaveSps.drainEnded.parts

theorem releaseBar {slot w : Option Nat} (h : Keeps P False R s0 s) : Keeps P False R s0 (s.releaseBar slot w) := h.convoys

theorem settleSlot {k w : Nat} (h : Keeps P False R s0 s) : Keeps P False R s0 (s.settleSlot k w) := by
  unfold State.settleSlot
  split
  · exact h
  · split
    · exact h
    · dsimp only
      split
      · refine Keeps.parts ?_
        split
        · exact h.sendPod
        · exact h
      · refine (Keeps.parts ?_).releaseBar
        split
        · exact h.sendPod
        · exact h

theorem settleBar {w : Nat} (h : Keeps P False R s0 s) : Keeps P False R s0 (s.settleBar w) := by
  unfold State.settleBar
  dsimp only
  refine Keeps.foldl ?_ fun _ _ h => h.settleSlot
  split
  · exact h.modWg.releaseBar
  · exact h

theorem wakeFrames (h : Keeps P False R s0 s) : Keeps P False R s0 s.wakeFrames := h.convoys

theorem freeFibres {ids : List Nat} (h : Keeps P False R s0 s) : Keeps P False R s0 (s.freeFibres ids) := by
  unfold State.freeFibres
  refine (h.foldl fun _ _ h => ?_).wakeFrames
  split
  · exact h
  · exact h.parts.modSp

theorem endFibres {c : Nat} {ids : List Nat} (h : Keeps P False R s0 s) : Keeps P False R s0 (s.endFibres c ids) := h.freeFibres.modConvoy

theorem dropEmpty {c : Nat} (h : Keeps P False R s0 s) : Keeps P False R s0 (s.dropEmpty c) := by
  unfold State.dropEmpty
  split
  · split
    · exact h.convoys
    · exact h
  · exact h

theorem endConvoy {c : Nat} (h : Keeps P False R s0 s) : Keeps P False R s0 (s.endConvoy c) := by
  unfold State.endConvoy
  split
  · exact h.endFibres.dropEmpty
  · exact h

theorem endAll {ws : List Nat} (h : Keeps P False R s0 s) : Keeps P False R s0 (s.endAll ws) := h.freeFibres.cores

theorem breakSlots {l : Nat} (h : Keeps P Q R s0 s) : Keeps P Q R s0 (s.breakSlots l) := h.parts

theorem settleAbort {l : Nat} (h : Keeps P False R s0 s) : Keeps P False R s0 (s.settleAbort l) := by
  unfold State.settleAbort
  split
  · exact h
  · split
    · exact h
    · split
      · exact h
      · exact (h.endAll.drainEnded.breakSlots.completion.foldl fun _ _ h => h.dropWg).freeSlots.parts.foldl fun _ _ h => h.record

theorem abortLaunch {l cls : Nat} {recs : List Rec} (h : Keeps P Q R s0 s) : Keeps P Q R s0 (s.abortLaunch l cls recs) := by
  unfold State.abortLaunch
  split
  · exact h.foldl fun _ _ h => h.record
  · exact h.parts

theorem release {p : Nat} {ids : List Nat} {scope : Scope} (h : Keeps P Q R s0 s) : Keeps P Q R s0 (s.release p ids scope) := by
  unfold State.release
  dsimp only
  split
  · exact h.modSp.drainTilesOf
  · exact h.modSp

theorem releaseAll {v : Convoy} {scope : Scope} (h : Keeps P Q R s0 s) : Keeps P Q R s0 (s.releaseAll v scope) := h.release

theorem observe {v : Convoy} {x : Cls} {n : Nat} (h : Keeps P Q R s0 s) : Keeps P Q R s0 (s.observe v x n) := by
  unfold State.observe
  split
  · exact h.foldl fun _ _ h => h.modFibre
  · exact h

theorem deliverReport {c : Nat} (h : Keeps P False R s0 s) : Keeps P False R s0 (s.deliverReport c) := by
  unfold State.deliverReport
  split
  · exact h
  · split
    · exact h
    · split
      · exact h
      · exact h.releaseAll.modConvoy.record

theorem trap {c : Nat} {t : TrapInfo} (h : Keeps P False False s0 s) : Keeps P False False s0 (s.trap c t) := by
  unfold State.trap
  split
  · exact h
  · split
    · exact h
    · dsimp only
      split
      · exact (h.cutRegion.foldl fun _ _ h => h.modFibre).modConvoy.deliverReport
      · exact h.abortLaunch.endConvoy.settleAbort

theorem illegal {c sub pos : Nat} (h : Keeps P False False s0 s) : Keeps P False False s0 (s.illegal c sub pos) := h.trap

theorem refusal {c cause pos : Nat} {addr : Addr} {count : Nat} (h : Keeps P False False s0 s) :
    Keeps P False False s0 (s.refusal c cause pos addr count) := by
  unfold State.refusal
  dsimp only
  refine Keeps.trap ?_
  split
  · exact h.extentRec
  · exact h

theorem noteHalt {spn : Nat} (h : Keeps P Q R s0 s) : Keeps P Q R s0 (s.noteHalt spn) := h.parts

theorem noteRun {spn : Nat} (h : Keeps P False R s0 s) : Keeps P False R s0 (s.noteRun spn) := h.convoys

theorem halt {c code pos : Nat} (h : Keeps P False R s0 s) : Keeps P False R s0 (s.halt c code pos) := by
  unfold State.halt
  split
  · exact h
  · split
    · exact h
    · exact h.modConvoy.modSp.noteHalt.record

theorem issued {c : Nat} (h : Keeps P False R s0 s) : Keeps P False R s0 (s.issued c) := by
  unfold State.issued
  split
  · exact h.bump
  · exact h.putConvoy.count.bump

theorem advance {c n : Nat} (h : Keeps P False R s0 s) : Keeps P False R s0 (s.advance c n) := h.modConvoy.issued

theorem hold {c : Nat} {w : Wait} (h : Keeps P False R s0 s) : Keeps P False R s0 (s.hold c w) := h.modConvoy

theorem issue {c : Ctl} {regs : List RegUse} {lat : List (BitVec 2)} {k : Nat → Convoy → List Ln → State} (h : Keeps False False False s0 s)
    (hk : ∀ i v act, Keeps False False False s0 (k i v act)) : Runs (¬ s.issuing) s0 (Machine.issue s c regs lat k) := by
  unfold Machine.issue
  split
  · exact not_issuing_of_cur ‹_›
  · split
    · exact not_issuing_of_get ‹_› ‹_›
    · dsimp only
      split
      · exact h.illegal.next
      · split
        · exact h.illegal.next
        · split
          · exact h.hold.next
          · exact (hk _ _ _).next

theorem issueWide {k : Nat → Convoy → List Ln → State} (h : Keeps False False False s0 s)
    (hk : ∀ n v act, Keeps False False False s0 (k n v act)) : Runs (¬s.issuing) s0 (issueWide s k) :=
  h.issue (fun _ _ _ => hk _ _ _)

theorem compute {c : Ctl} {regs : List RegUse} {lat : List (BitVec 2)} {wd : Bool} {d : VDst} {words : Nat}
    {f : Convoy → List Ln → Ln → DWord × BitVec 8} (h : Keeps False False False s0 s) : Runs (¬s.issuing) s0 (compute s c regs lat wd d words f) :=
  h.issue (fun _ _ _ => h.dsts.setFlags.advance)

theorem computeP {c : Ctl} {regs : List RegUse} {lat : List (BitVec 2)} {p : BitVec 3} {words : Nat} {f : Convoy → Ln → Bool × BitVec 8}
    (h : Keeps False False False s0 s) : Runs (¬s.issuing) s0 (computeP s c regs lat p words f) :=
  h.issue (fun _ _ _ => (h.foldl fun _ _ h1 => h1.wrP).setFlags.advance)

/-! ## Issue -/

theorem takeRefusals {v : Convoy} {x : Cls} (h : Keeps P Q R s0 s) : Keeps P Q R s0 (s.takeRefusals v x) := h.parts

theorem engref {c : Nat} {v : Convoy} {x : Cls} (h : Keeps P False False s0 s) : Keeps P False False s0 (s.engref c v x) := by
  unfold State.engref
  dsimp only
  split
  · refine Keeps.trap ?_
    split
    · exact h.refusalBit.takeRefusals
    · exact h.refusalBit
  · exact h.refusalBit.trap

theorem setTemper {v : Convoy} {on : Bool} (h : Keeps P Q R s0 s) : Keeps P Q R s0 (s.setTemper v on) := h.foldl fun _ _ h => h.modFibre

theorem regionEntry {c : Nat} (h : Keeps P False R s0 s) : Keeps P False R s0 (s.regionEntry c) := by
  unfold State.regionEntry
  split
  · exact h
  · dsimp only
    split
    · exact h.convoyRegion.setTemper.temperEntry
    · exact h.convoyRegion.setTemper

theorem endRegion {c n : Nat} (h : Keeps P False R s0 s) : Keeps P False R s0 (s.endRegion c n) := by
  unfold State.endRegion
  dsimp only
  split
  · exact h.advance
  · exact h.advance.convoyRegion.setTemper

theorem issueEnd {c : Ctl} {regs : List RegUse} {lat : List (BitVec 2)} {n : Nat} {k : Nat → Convoy → List Ln → State}
    (h : Keeps False False False s0 s) (hk : ∀ i v act, Keeps False False False s0 (k i v act)) :
    Runs (¬ s.issuing) s0 (Machine.issueEnd s c regs lat n k) := by
  unfold Machine.issueEnd
  split
  · exact not_issuing_of_cur ‹_›
  · split
    · exact not_issuing_of_get ‹_› ‹_›
    · split
      · exact h.trap.next
      · refine h.issue (fun _ _ _ => ?_)
        split
        · exact h.engref
        · exact hk _ _ _

theorem chosen {c : Nat} {v : Convoy} (h : Keeps P False R s0 s) : Keeps P False R s0 (s.chosen c v) := h.modSp.convoys

theorem settleStep {spn : Nat} (h : Keeps P False R s0 s) : Keeps P False R s0 (s.settleStep spn) := by
  unfold State.settleStep
  split
  · split
    · split
      · exact h.halt
      · exact h
    · exact h.modSp
  · exact h

theorem afterStep {_c spn : Nat} (h : Keeps P False R s0 s) : Keeps P False R s0 (s.afterStep _c spn) := h.settleStep

theorem restamp (h : Keeps P False R s0 s) : Keeps P False R s0 s.restamp := h.convoys

theorem countTime (h : Keeps P Q R s0 s) : Keeps P Q R s0 s.countTime := by
  unfold State.countTime
  dsimp only
  refine (h.foldl fun _ _ h => h.foldl fun _ _ h1 => ?_).parts
  split
  · exact h1.count
  · exact h1

theorem tick (h : Keeps P False R s0 s) : Keeps P False R s0 s.tick := by
  unfold State.tick
  dsimp only
  split
  · split
    · exact h.parts.countTime.restamp.drainSome.logTraffic.bump
    · exact h.parts.countTime.restamp.drainSome.logTraffic.bump.qsettle
  · split
    · exact h.parts.countTime.restamp.drainSome.logTraffic.writeNotes.bump
    · exact h.parts.countTime.restamp.drainSome.logTraffic.writeNotes.bump.qsettle

/-! ## Local memory -/

theorem refuse {c code pos : Nat} {addr : Addr} {count : Nat} (h : Keeps P False False s0 s) :
    Keeps P False False s0 (s.refuse c code pos addr count) :=
  h.trap

theorem localAccess {i : Nat} {v : Convoy} {r : List LaneAcc} {n : Nat} {w : Bool} {events : Nat} {k : State} (h : Keeps P False False s0 s)
    (hk : Keeps P False False s0 k) : Keeps P False False s0 (localAccess s i v r n w events k) := by
  unfold Machine.localAccess
  split
  · exact h.refuse
  · split
    · exact h.hold
    · split
      · exact h.holdLog
      · exact hk.wakeAll

theorem ldInto {c : Nat} {x : LaneAcc} {sz : Sz} {sx : Bool} {d : VDst} (h : Keeps P False R s0 s) : Keeps P False R s0 (s.ldInto c x sz sx d) := by
  unfold State.ldInto
  split
  · exact h.wrBytes
  · exact h.dst

theorem execLd {o : LdOp} (h : Keeps False False False s0 s) : Runs (¬s.issuing) s0 (execLd o s) := by
  unfold Machine.execLd
  dsimp only
  exact h.issue (fun _ _ _ => h.localAccess (h.markLatch.foldl fun _ _ h1 => h1.ldInto).advance)

theorem execSt {o : StOp} (h : Keeps False False False s0 s) : Runs (¬s.issuing) s0 (execSt o s) := by
  unfold Machine.execSt
  dsimp only
  exact h.issue (fun _ _ _ => h.localAccess (h.foldl fun _ _ h1 => h1.storeBy).advance)

theorem execLdk {o : LdkOp} (h : Keeps False False False s0 s) : Runs (¬s.issuing) s0 (execLdk o s) := by
  unfold Machine.execLdk
  refine h.issue (fun _ _ _ => h.localAccess (h.foldl fun _ _ h1 => ?_).advance)
  split
  · exact h1.wrKs
  · exact h1.wrK

theorem execStk {o : StkOp} (h : Keeps False False False s0 s) : Runs (¬s.issuing) s0 (execStk o s) :=
  h.issue (fun _ _ _ => h.localAccess (h.foldl fun _ _ h1 => h1.storeCapBy).advance)

theorem atomLane {c : Nat} {x : LaneAcc} {fn : AtomFn} {w64 u : Bool} {d : VDst} {a b : DWord} (h : Keeps P False R s0 s) :
    Keeps P False R s0 (s.atomLane c x fn w64 u d a b) := by
  unfold State.atomLane
  dsimp only
  split
  · exact h.release.drainAt.replayEvent.dst
  · exact h.release.drainAt.store.logEvent.dst

theorem localAtomic {o : AtomOp} {fn : AtomFn} (h : Keeps False False False s0 s) : Runs (¬s.issuing) s0 (localAtomic s o fn) :=
  h.issueEnd (fun _ _ _ => h.localAccess (h.markLatch.foldl fun _ _ h1 => h1.atomLane).endRegion)

theorem execAadd {o : AtomOp} (h : Keeps False False False s0 s) : Runs (¬s.issuing) s0 (execAadd o s) := h.localAtomic

theorem execAmin {o : AtomOp} (h : Keeps False False False s0 s) : Runs (¬s.issuing) s0 (execAmin o s) := h.localAtomic

theorem execAmax {o : AtomOp} (h : Keeps False False False s0 s) : Runs (¬s.issuing) s0 (execAmax o s) := h.localAtomic

theorem execAand {o : AtomOp} (h : Keeps False False False s0 s) : Runs (¬s.issuing) s0 (execAand o s) := h.localAtomic

theorem execAor {o : AtomOp} (h : Keeps False False False s0 s) : Runs (¬s.issuing) s0 (execAor o s) := h.localAtomic

theorem execAxor {o : AtomOp} (h : Keeps False False False s0 s) : Runs (¬s.issuing) s0 (execAxor o s) := h.localAtomic

theorem execAxch {o : AtomOp} (h : Keeps False False False s0 s) : Runs (¬s.issuing) s0 (execAxch o s) := h.localAtomic

theorem execAcas {o : AtomOp} (h : Keeps False False False s0 s) : Runs (¬s.issuing) s0 (execAcas o s) := h.localAtomic

theorem execFenceOp {o : FenceOp} (h : Keeps False False False s0 s) : Runs (¬s.issuing) s0 (execFenceOp o s) := by
  unfold Machine.execFenceOp
  refine h.issue (fun _ _ _ => ?_)
  split
  · exact h.advance
  · exact h.release.hold

theorem execFenceDone {c : Nat} (h : Keeps False False False s0 s) : Runs N s0 (execFenceDone c s) := by
  unfold Machine.execFenceDone
  split
  · exact h.next
  · split
    · exact h.advance.next
    · exact h.next

theorem execLocalAccessResume {c : Nat} (h : Keeps False False False s0 s) : Runs N s0 (execLocalAccessResume c s) := by
  unfold Machine.execLocalAccessResume
  split
  · exact h.next
  · split
    · split
      · exact h.next
      · exact h.hold.next
    · exact h.next

/-! ## Control -/

theorem resolve {c : Nat} {ts : List (Ln × Addr)} (h : Keeps P False R s0 s) : Keeps P False R s0 (s.resolve c ts) := by
  unfold State.resolve
  split
  · exact h
  · dsimp only
    split
    · exact (h.foldl fun _ _ h => h.spill).count
    · exact (h.foldl fun _ _ h => h.spill).count.putConvoy
    · exact ((h.foldl fun _ _ h => h.spill).count.putConvoy.foldl fun _ _ h => h.nextId.putConvoy).count

theorem stackTrap {c sub pos : Nat} (h : Keeps P False False s0 s) : Keeps P False False s0 (s.stackTrap c sub pos) := h.trap

theorem callTo {c : Nat} {v : Convoy} {act : List (Ln × Addr)} (h : Keeps P False False s0 s) : Keeps P False False s0 (s.callTo c v act) := by
  unfold State.callTo
  split
  · exact h.stackTrap
  · dsimp only
    split
    · exact h.hold.modConvoy
    · exact (h.modSp.foldl fun _ _ h => h.modFibre).issued.resolve

theorem execBra {o : BraOp} (h : Keeps False False False s0 s) : Runs (¬s.issuing) s0 (execBra o s) :=
  h.issueWide (fun _ _ _ => h.modConvoy.issued)

theorem execBrc {o : BrOp} (h : Keeps False False False s0 s) : Runs (¬s.issuing) s0 (execBrc o s) := h.issue (fun _ _ _ => h.issued.resolve)

theorem execCallOp {o : BrOp} (h : Keeps False False False s0 s) : Runs (¬s.issuing) s0 (execCallOp o s) := h.issue (fun _ _ _ => h.callTo)

theorem brxForm {o : BrxOp} {k : State → Nat → Convoy → List (Ln × Addr) → State} (h : Keeps False False False s0 s)
    (hk : ∀ t n v ls, Keeps False False False s0 t → Keeps False False False s0 (k t n v ls)) : Runs (¬s.issuing) s0 (brxForm s o k) := by
  unfold Machine.brxForm
  refine h.issue (fun _ _ _ => ?_)
  split
  · exact h
  · split
    · exact h.trap
    · exact hk _ _ _ _ h.modWg

theorem execBrx {o : BrxOp} (h : Keeps False False False s0 s) : Runs (¬s.issuing) s0 (execBrx o s) :=
  h.brxForm (fun _ _ _ _ h => h.issued.resolve)

theorem execCalli {o : BrxOp} (h : Keeps False False False s0 s) : Runs (¬s.issuing) s0 (execCalli o s) := h.brxForm (fun _ _ _ _ h => h.callTo)

theorem execRet {c : Ctl} (h : Keeps False False False s0 s) : Runs (¬s.issuing) s0 (execRet c s) := by
  unfold Machine.execRet
  refine h.issue (fun _ _ _ => ?_)
  split
  · exact h.stackTrap
  · exact (h.foldl fun _ _ h => h.modFibre.modSp).wakeFrames.issued.resolve

theorem execReturnFrameTimeout {c : Nat} (h : Keeps False False False s0 s) : Runs N s0 (execReturnFrameTimeout c s) := by
  unfold Machine.execReturnFrameTimeout
  split
  · exact h.next
  · split
    · split
      · exact h.hold.next
      · split
        · exact h.stackTrap.next
        · exact h.next
    · exact h.next

theorem execRegionOp {o : RegionOp} (h : Keeps False False False s0 s) : Runs (¬s.issuing) s0 (execRegionOp o s) := h.compute

theorem orEngref {c : Nat} {v : Convoy} {k : State} (h : Keeps P False False s0 s) (hk : Keeps P False False s0 k) :
    Keeps P False False s0 (s.orEngref c v k) := by
  unfold State.orEngref
  split
  · exact h.engref
  · exact hk

theorem execYieldOp {_c : Ctl} (h : Keeps False False False s0 s) : Runs (¬s.issuing) s0 (execYieldOp _c s) :=
  h.issueWide (fun _ _ _ => h.orEngref h.modConvoy.issued.count)

theorem execFuse {_c : Ctl} (h : Keeps False False False s0 s) : Runs (¬s.issuing) s0 (execFuse _c s) :=
  h.issueWide (fun _ _ _ => h.orEngref (h.foldl fun _ _ h1 => h1.spill).count.count.bump.convoys)

theorem execEndOp {c : Ctl} (h : Keeps False False False s0 s) : Runs (¬s.issuing) s0 (execEndOp c s) := by
  unfold Machine.execEndOp
  refine h.issue (fun _ _ _ => h.orEngref ?_)
  dsimp only
  split
  · exact h.modConvoy.issued.endFibres.dropEmpty.settleBar.settleAbort
  · exact h.modConvoy.issued.endFibres.dropEmpty.settleBar

theorem execUnassignedOpcodeIssue {w : DWord} (h : Keeps False False False s0 s) :
    Runs (¬ s.issuing) s0 (Machine.execUnassignedOpcodeIssue w s) := by
  unfold Machine.execUnassignedOpcodeIssue
  split
  · exact not_issuing_of_cur ‹_›
  · exact h.illegal.next

theorem execNopOp {c : Ctl} (h : Keeps False False False s0 s) : Runs (¬s.issuing) s0 (execNopOp c s) := h.issue (fun _ _ _ => h.advance)

theorem execTrapOp {o : TrapOp} (h : Keeps False False False s0 s) : Runs (¬s.issuing) s0 (execTrapOp o s) := by
  unfold Machine.execTrapOp
  refine h.issue (fun _ _ _ => ?_)
  split
  · exact h.advance
  · split
    · exact h.trap
    · split
      · exact h.halt
      · exact h.advance

theorem growFibre {i n : Nat} (h : Keeps P Q R s0 s) : Keeps P Q R s0 (s.growFibre i n) := by
  unfold State.growFibre
  split
  · exact h
  · exact h.zeroRows.modFibre

theorem growAll {n : Nat} {is : List Nat} (h : Keeps P Q R s0 s) : Keeps P Q R s0 (s.growAll n is).1 := by
  induction is generalizing s with
  | nil => exact h
  | cons i is ih =>
    unfold State.growAll
    split
    · exact ih h.growFibre
    · exact ih h

theorem joinGrow {core c : Nat} {l : List Nat} (h : Keeps P Q R s0 s) : Keeps P Q R s0 (s.joinGrow core c l) := h.modCore fun _ => rfl

theorem execGrow {o : GrowOp} (h : Keeps False False False s0 s) : Runs (¬s.issuing) s0 (execGrow o s) := by
  unfold Machine.execGrow
  dsimp only
  refine h.issue (fun _ _ _ => ?_)
  split
  · exact h.trap
  · split
    · exact h.growAll.advance
    · split
      · exact h.hold
      · exact h.growAll.joinGrow.hold

theorem execShrink {o : GrowOp} (h : Keeps False False False s0 s) : Runs (¬s.issuing) s0 (execShrink o s) := by
  unfold Machine.execShrink
  dsimp only
  refine h.issue (fun _ _ _ => ?_)
  split
  · exact h.illegal
  · exact (h.foldl fun _ _ h => h.modFibre).advance

theorem spawnOne {v : Convoy} {x : Nat × Nat × Word} {rows : Nat} {target : Addr} (h : Keeps P Q R s0 s) :
    KeepsIn P Q R s0 (fun x => x) (s.spawnOne v x rows target) := by
  unfold State.spawnOne
  split
  · exact KeepsIn.some h
  · split
    · exact KeepsIn.none
    · exact KeepsIn.some h.zeroRows.nextId.parts.wrV.arrive

theorem spawnAll {v : Convoy} {rows : Nat} {target : Addr} {rs : List (Nat × Nat × Word)} (h : Keeps P Q R s0 s) :
    Keeps P Q R s0 (s.spawnAll v rows target rs).1 := by
  induction rs generalizing s with
  | nil => exact h
  | cons r rs ih =>
    unfold State.spawnAll
    split
    · exact ih (h.spawnOne _ ‹_›)
    · exact ih h

theorem execSpawn {o : SpawnOp} (h : Keeps False False False s0 s) : Runs (¬s.issuing) s0 (execSpawn o s) := by
  unfold Machine.execSpawn
  dsimp only
  refine h.issue (fun _ _ _ => ?_)
  split
  · exact h.trap
  · split
    · exact h.spawnAll.advance
    · exact h.spawnAll.joinGrow.hold

theorem grantOne {x : Nat × Nat} (h : Keeps P False R s0 s) : KeepsIn P False R s0 (fun x => x) (s.grantOne x) := by
  unfold State.grantOne
  split
  · exact KeepsIn.some h
  · split
    · exact KeepsIn.none
    · split
      · split
        · exact KeepsIn.some h
        · split
          · dsimp only
            refine KeepsIn.some ?_
            split
            · exact h.growFibre.advance
            · exact h.growFibre.hold
          · exact KeepsIn.none
      · split
        · exact KeepsIn.some h
        · split
          · exact KeepsIn.none
          · dsimp only
            refine KeepsIn.some ?_
            split
            · exact (h.spawnOne _ ‹_›).advance
            · exact (h.spawnOne _ ‹_›).hold
      · exact KeepsIn.some h

theorem grantAll {rs : List (Nat × Nat)} (h : Keeps P False R s0 s) : Keeps P False R s0 (s.grantAll rs).1 := by
  induction rs generalizing s with
  | nil => exact h
  | cons r rs ih =>
    unfold State.grantAll
    split
    · exact ih (h.grantOne _ ‹_›)
    · exact ih h

theorem execGrowGrant {core : Nat} (h : Keeps False False False s0 s) : Runs N s0 (Machine.execGrowGrant core s) := by
  unfold Machine.execGrowGrant
  dsimp only
  split
  · exact h.next
  · exact Keeps.next (Keeps.modCore h.grantAll fun _ => rfl)

theorem waitBar {c : Nat} {v : Convoy} {scope : Scope} {slot : Option Nat} {phase : Nat} (h : Keeps P False R s0 s) :
    Keeps P False R s0 (s.waitBar c v scope slot phase) :=
  h.releaseAll.issued.hold.settleBar

theorem arriveWide {c : Nat} {v : Convoy} {k : Nat} {b : BarSlot} (h : Keeps P False R s0 s) : Keeps P False R s0 (s.arriveWide c v k b) := by
  unfold State.arriveWide
  dsimp only
  split
  · split
    · exact (h.foldl fun _ _ h => h.replayEvent).modConvoy.issued
    · exact (h.foldl fun _ _ h => h.replayEvent).waitBar
  · split
    · exact h.holdLog
    · exact (h.foldl fun _ _ h => h.logEvent).waitBar

theorem barBroken {c : Nat} (h : Keeps P False False s0 s) : Keeps P False False s0 (s.barBroken c) := h.trap

theorem execBar {o : BarOp} (h : Keeps False False False s0 s) : Runs (¬s.issuing) s0 (execBar o s) := by
  unfold Machine.execBar
  refine h.issueWide (fun _ _ _ => ?_)
  split
  · exact h.releaseAll.modConvoy.issued
  · exact h.waitBar
  · split
    · exact h.illegal
    · split
      · exact h.barBroken
      · exact h.arriveWide

end Keeps

end Sys2Proof.Machine

/-! SUPPORT. What each operation keeps: engines, queues, the system registers and recovery. -/

namespace Sys2Proof.Machine

variable {P Q R N : Prop} {s0 s t : State}

namespace Keeps

-- many short proofs: one after another, so that they do not each take a thread and its stack
set_option Elab.async false

/-! ## Engine commands -/

theorem noEvents {x1 : Convoy} {x2 : List Ln} {op : CmdOp} (h : Keeps P Q R s0 s) : KeepsIn P Q R s0 (fun x => x.1) (noEvents s x1 x2 op) :=
  KeepsIn.some h

theorem takeKey {i : Nat} (h : Keeps P Q R s0 s) : Keeps P Q R s0 (s.takeKey i).1 := by
  unfold State.takeKey
  split
  · exact h
  · exact h.modFibre

theorem wideEvent {skip : CmdOp} {v : Convoy} {x3 : List Ln} {op : CmdOp} (h : Keeps P Q R s0 s) :
    KeepsIn P Q R s0 (fun x => x.1) (wideEvent skip s v x3 op) := by
  unfold Machine.wideEvent
  dsimp only
  split
  · exact KeepsIn.some (h.foldl fun _ _ h => h.replayEvent)
  · split
    · exact KeepsIn.some (h.foldl_fst fun _ _ h => h.takeKey)
    · exact KeepsIn.none

theorem blockEvents {v : Convoy} {ls : List Ln} {op : CmdOp} (h : Keeps P Q R s0 s) : KeepsIn P Q R s0 (fun x => x.1) (blockEvents s v ls op) := by
  unfold Machine.blockEvents
  split
  · split
    · exact h.wideEvent
    · exact KeepsIn.some h
  · exact KeepsIn.some h

theorem settleWrites {v : Convoy} {es : List Entry} (h : Keeps P Q R s0 s) : Keeps P Q R s0 (s.settleWrites v es) := by
  unfold State.settleWrites
  dsimp only
  split
  · exact h.releaseAll
  · exact h

theorem opRelease {v : Convoy} {op : CmdOp} (h : Keeps P Q R s0 s) : Keeps P Q R s0 (s.opRelease v op) := by
  unfold State.opRelease
  split
  · exact h.releaseAll
  · exact h

theorem noteClx {v : Convoy} {op : CmdOp} (h : Keeps P Q R s0 s) : Keeps P Q R s0 (s.noteClx v op) := by
  unfold State.noteClx
  split
  · exact h.foldl fun _ _ h => h.modFibre
  · exact h

theorem noteMatrix {v : Convoy} {k : Nat} (h : Keeps P Q R s0 s) : Keeps P Q R s0 (s.noteMatrix v k) := h.foldl fun _ _ h => h.modFibre

theorem accepted {i : Nat} {v : Convoy} {m : Cmd} (h : Keeps P False R s0 s) : Keeps P False R s0 (s.accepted i v m) := by
  unfold State.accepted
  dsimp only
  split
  · exact h.nextId.parts.countInc.settleWrites.opRelease.modU.noteMatrix
  · exact h.nextId.parts.countInc.settleWrites.opRelease.noteClx

theorem issueEngine {c : Ctl} {cls : Cls} {slot ends : Bool} {regs : List RegUse} {lat : List (BitVec 2)} {n : Nat}
    {op : State → Convoy → List Ln → CmdOp} {ev : State → Convoy → List Ln → CmdOp → Looked} (h : Keeps False False False s0 s)
    (hev : ∀ t v act o, Keeps False False False s0 t → KeepsIn False False False s0 (fun x => x.1) (ev t v act o)) :
    Runs (¬ s.issuing) s0 (Machine.issueEngine s c cls slot ends regs lat n op ev) := by
  unfold Machine.issueEngine
  extract_lets go
  have hgo (i v act) : Keeps False False False s0 (go i v act) := by
    dsimp only [go]
    split
    · exact h.illegal
    · split
      · exact h.hold
      · split
        · exact h.hold
        · split
          · exact h.holdLog
          next s1 o1 keys e =>
            have h1 : Keeps False False False s0 s1 := hev s v act _ h _ e
            split
            · exact h1.accepted.endRegion
            · exact h1.accepted.advance
  split
  · exact h.issueEnd hgo
  · exact h.issue hgo

theorem execIssueCounterRoom {c : Nat} (h : Keeps False False False s0 s) : Runs N s0 (execIssueCounterRoom c s) := by
  unfold Machine.execIssueCounterRoom
  split
  · exact h.next
  · split
    · split
      · exact h.next
      · exact h.hold.next
    · exact h.next

theorem execEngineAccept {c : Nat} (h : Keeps False False False s0 s) : Runs N s0 (execEngineAccept c s) := by
  unfold Machine.execEngineAccept
  split
  · exact h.next
  · split
    · split
      · exact h.hold.next
      · exact h.next
    · exact h.next

theorem malformCmd {k : Nat} {m : Cmd} (h : Keeps P False R s0 s) : Keeps P False R s0 (s.malformCmd k m) := by
  unfold State.malformCmd
  split
  · exact h.record.finishBlock
  · dsimp only
    split
    · refine (Keeps.modWg ?_).finish.abortLaunch.settleAbort
      split
      · exact h.invTile
      · exact h
    · refine (Keeps.modWg ?_).finish.record
      split
      · exact h.invTile
      · exact h

theorem freshTile {m : Cmd} {op : CmdOp} (h : Keeps P Q R s0 s) : Keeps P Q R s0 (s.freshTile m op) := by
  unfold State.freshTile
  split
  · exact h
  · dsimp only
    split
    · exact h.setAcprog
    · exact h
    · exact h

theorem opAwaits {m : Cmd} {op : CmdOp} (h : Keeps P Q R s0 s) : KeepsIn P Q R s0 (fun x => x) (s.opAwaits m op) := h.awaits

theorem runOp {k : Nat} {m : Cmd} {op : CmdOp} (h : Keeps P Q R s0 s) : Keeps P Q R s0 (s.runOp k m op) := by
  unfold State.runOp
  dsimp only
  split
  · exact h.awaits _ ‹_›
  · split
    · split
      · exact h
      · exact ((h.clxJoin _ ‹_›).foldl fun _ _ h => h.wakeRange).freshTile.modCmd
    · exact (h.nmcFlush.foldl fun _ _ h => h.wakeRange).freshTile.modCmd
    · exact (h.foldl fun _ _ h => h.wakeRange).freshTile.modCmd

theorem startOp {k : Nat} {m : Cmd} {op : CmdOp} (h : Keeps P False R s0 s) : Keeps P False R s0 (s.startOp k m op) := by
  unfold State.startOp
  split
  · exact h.runOp
  · split
    · exact h.malformCmd
    · dsimp only
      refine (Keeps.extentRec ?_).refuseCmd
      split
      · split
        · exact h.noRoute
        · exact h
      · exact h

theorem startInner {k : Nat} {m : Cmd} {op : CmdOp} (h : Keeps P False R s0 s) : Keeps P False R s0 (s.startInner k m op) := by
  unfold State.startInner
  dsimp only
  split
  · exact h.parts.holdEntries
  · split
    · exact h.parts.holdEntries
    · exact h.parts.holdEntries.startOp

theorem waitOn {k : Nat} {m : Cmd} {only : Bool} (h : Keeps P Q R s0 s) : Keeps P Q R s0 (s.waitOn k m only) := h.modCmd

theorem takeBlock {k : Nat} {m : Cmd} {b : Cap} {loc : Option Cap} (h : Keeps P False R s0 s) : Keeps P False R s0 (s.takeBlock k m b loc) := by
  unfold State.takeBlock
  dsimp only
  split
  · exact h.modCmd.waitOn
  · split
    · exact h.finishBlock
    · split
      · exact h.blockStatus.record.finishBlock
      · split
        · refine Keeps.startInner ?_
          split
          · exact h.blockStatus.release
          · exact h.blockStatus
        · exact h.blockStatus.malformCmd

theorem startBlock {k : Nat} {m : Cmd} {b : Cap} {loc : Option Cap} (h : Keeps P False R s0 s) : Keeps P False R s0 (s.startBlock k m b loc) := by
  unfold State.startBlock
  split
  · dsimp only
    refine Keeps.refuseCmd ?_
    split
    · split
      · exact h.noRoute
      · exact h
    · exact h
  · split
    · split
      · exact h.awaits _ ‹_›
      · dsimp only
        split
        · exact h.readLines.takeBlock
        · exact h.readLines.finish
    · exact h.send.modCmd

theorem startStage {k : Nat} {m : Cmd} {list : Cap} {idx : Nat} {back : Bool} (h : Keeps P False R s0 s) :
    Keeps P False R s0 (s.startStage k m list idx back) := by
  unfold State.startStage
  split
  · split
    · exact h.malformCmd
    · exact h.extentRec.refuseCmd
  · split
    · exact h.awaits _ ‹_›
    · dsimp only
      split
      · exact h.readLines.startInner
      · exact h.readLines.finish

theorem endHalted {k : Nat} {m : Cmd} (h : Keeps P Q R s0 s) : Keeps P Q R s0 (s.endHalted k m) := by
  unfold State.endHalted
  dsimp only
  split
  · split
    · refine Keeps.finishBlock ?_
      split
      · exact h.invTile
      · exact h
    · refine Keeps.finish ?_
      split
      · exact h.invTile
      · exact h
  · refine Keeps.finish ?_
    split
    · exact h.invTile
    · exact h

theorem execCommandBegin {k : Nat} (h : Keeps False False False s0 s) : Runs N s0 (execCommandBegin k s) := by
  unfold Machine.execCommandBegin
  dsimp only
  split
  · exact h.takeEntries.next
  · split
    · exact h.next
    · split
      · exact h.takeEntries.endHalted.next
      · split
        · exact h.takeEntries.next
        · split
          · exact h.takeEntries.startBlock.next
          · exact h.takeEntries.startStage.next
          · exact h.takeEntries.startOp.next
          · exact h.takeEntries.startOp.next

theorem execBlockTakeRetry {k : Nat} (h : Keeps False False False s0 s) : Runs N s0 (execBlockTakeRetry k s) := by
  unfold Machine.execBlockTakeRetry
  split
  · exact h.next
  · split
    · split
      · exact h.next
      · exact h.takeBlock.next
    · exact h.next

theorem refuseRemote {k : Nat} {m : Cmd} {q c : Nat} {a : Addr} (h : Keeps P Q R s0 s) : Keeps P Q R s0 (s.refuseRemote k m q c a) :=
  h.send.record.finish

/-- The state after a completion comes from the one in which the command was performed. -/
theorem complete {k : Nat} {m : Cmd} {d : Done} (h : Keeps P Q R s0 d.s) : Keeps P Q R s0 (s.complete k m d) := by
  unfold State.complete
  extract_lets st a b
  have ha : Keeps P Q R s0 a := h.ite h.engineFlags
  have hb : Keeps P Q R s0 b := ha.drainTilesOf.ite ha
  split
  · split
    · split
      · exact hb.finish
      · exact hb.refuseCmd
    · exact hb.refuseCmd
  · split
    · refine (Keeps.foldl ?_ fun _ _ h => h.logAt).finishBlock
      split
      · exact hb.drainAt.passWr.logWrite.storeKept
      · exact hb
    · exact hb.finish

theorem keepSource {k : Nat} {m : Cmd} {op : CmdOp} (h : Keeps P Q R s0 s) : Keeps P Q R s0 (s.keepSource k m op).1 := by
  unfold State.keepSource
  split
  · exact h.snapshot.modCmd
  · exact h

theorem chunk {k : Nat} {m0 : Cmd} {op : CmdOp} (h : Keeps P Q False s0 s) : Keeps P Q False s0 (s.chunk k m0 op) := by
  unfold State.chunk
  split
  · dsimp only
    split
    · exact h.keepSource.of_fst ‹_›
    · split
      · exact (h.keepSource.of_fst ‹_›).partway.modCmd.blockStatus
      · exact (h.keepSource.of_fst ‹_›).partway.modCmd

theorem completeCmd {k : Nat} {x : Cls} {fails : List LineFail} (h : Keeps False False False s0 s) : Runs N s0 (completeCmd k x fails s) := by
  unfold Machine.completeCmd
  split
  · exact h.next
  · split
    · exact h.next
    · dsimp only
      split
      · exact (h.failLines.opAwaits _ ‹_›).next
      · split
        · exact h.failLines.chunk.next
        · split
          · exact h.waitOn.next
          · exact (h.failLines.perform _ ‹_›).complete.next

theorem execCopyComplete {k : Nat} {fails : List LineFail} (h : Keeps False False False s0 s) : Runs N s0 (execCopyComplete k fails s) :=
  h.completeCmd

theorem execGatherScatterComplete {k : Nat} {fails : List LineFail} (h : Keeps False False False s0 s) :
    Runs N s0 (execGatherScatterComplete k fails s) :=
  h.completeCmd

theorem execMatrixComplete {k : Nat} (h : Keeps False False False s0 s) : Runs N s0 (execMatrixComplete k s) := h.completeCmd

theorem execCollectiveComplete {k : Nat} (h : Keeps False False False s0 s) : Runs N s0 (execCollectiveComplete k s) := h.completeCmd

theorem execNearMemoryComplete {k : Nat} {fails : List LineFail} (h : Keeps False False False s0 s) :
    Runs N s0 (execNearMemoryComplete k fails s) :=
  h.completeCmd

theorem execAtomicSignalComplete {k : Nat} (h : Keeps False False False s0 s) : Runs N s0 (execAtomicSignalComplete k s) := h.completeCmd

theorem execCpy {o : CpyOp} (h : Keeps False False False s0 s) : Runs (¬s.issuing) s0 (execCpy o s) :=
  h.issueEngine (fun _ _ _ _ h => h.noEvents)

theorem execCpyCmd {o : CpyCmdOp} (h : Keeps False False False s0 s) : Runs (¬s.issuing) s0 (execCpyCmd o s) :=
  h.issueEngine (fun _ _ _ _ h => h.blockEvents)

theorem execGat {o : GsOp} (h : Keeps False False False s0 s) : Runs (¬s.issuing) s0 (execGat o s) := h.issueEngine (fun _ _ _ _ h => h.noEvents)

theorem execSct {o : GsOp} (h : Keeps False False False s0 s) : Runs (¬s.issuing) s0 (execSct o s) := h.issueEngine (fun _ _ _ _ h => h.noEvents)

theorem mmaForm {o : MmaOp} {fmt : MxFmt} (h : Keeps False False False s0 s) : Runs (¬s.issuing) s0 (mmaForm s o fmt) :=
  h.issueEngine (fun _ _ _ _ h => h.noEvents)

theorem execMmaE4m3 {o : MmaOp} (h : Keeps False False False s0 s) : Runs (¬s.issuing) s0 (execMmaE4m3 o s) := h.mmaForm

theorem execMmaE5m2 {o : MmaOp} (h : Keeps False False False s0 s) : Runs (¬s.issuing) s0 (execMmaE5m2 o s) := h.mmaForm

theorem execMmaE2m1 {o : MmaOp} (h : Keeps False False False s0 s) : Runs (¬s.issuing) s0 (execMmaE2m1 o s) := h.mmaForm

theorem execMmaBf16 {o : MmaOp} (h : Keeps False False False s0 s) : Runs (¬s.issuing) s0 (execMmaBf16 o s) := h.mmaForm

theorem execMmaI8 {o : MmaOp} (h : Keeps False False False s0 s) : Runs (¬s.issuing) s0 (execMmaI8 o s) := h.mmaForm

theorem execMmaT8 {o : MmaOp} (h : Keeps False False False s0 s) : Runs (¬s.issuing) s0 (execMmaT8 o s) := h.mmaForm

theorem mmacForm {o : MmacOp} {fmt : MxFmt} (h : Keeps False False False s0 s) : Runs (¬s.issuing) s0 (mmacForm s o fmt) :=
  h.issueEngine (fun _ _ _ _ h => h.noEvents)

theorem execMmacE4m3 {o : MmacOp} (h : Keeps False False False s0 s) : Runs (¬s.issuing) s0 (execMmacE4m3 o s) := h.mmacForm

theorem execMmacE5m2 {o : MmacOp} (h : Keeps False False False s0 s) : Runs (¬s.issuing) s0 (execMmacE5m2 o s) := h.mmacForm

theorem execMmacE2m1 {o : MmacOp} (h : Keeps False False False s0 s) : Runs (¬s.issuing) s0 (execMmacE2m1 o s) := h.mmacForm

theorem execMmacBf16 {o : MmacOp} (h : Keeps False False False s0 s) : Runs (¬s.issuing) s0 (execMmacBf16 o s) := h.mmacForm

theorem execMmacI8 {o : MmacOp} (h : Keeps False False False s0 s) : Runs (¬s.issuing) s0 (execMmacI8 o s) := h.mmacForm

theorem execMmacT8 {o : MmacOp} (h : Keeps False False False s0 s) : Runs (¬s.issuing) s0 (execMmacT8 o s) := h.mmacForm

theorem execAclr {o : AclrOp} (h : Keeps False False False s0 s) : Runs (¬s.issuing) s0 (execAclr o s) :=
  h.issueEngine (fun _ _ _ _ h => h.noEvents)

theorem execAld {o : AldOp} (h : Keeps False False False s0 s) : Runs (¬s.issuing) s0 (execAld o s) :=
  h.issueEngine (fun _ _ _ _ h => h.noEvents)

theorem execAst {o : AstOp} (h : Keeps False False False s0 s) : Runs (¬s.issuing) s0 (execAst o s) :=
  h.issueEngine (fun _ _ _ _ h => h.noEvents)

theorem execSacc {o : SaccOp} (h : Keeps False False False s0 s) : Runs (¬s.issuing) s0 (execSacc o s) :=
  h.issueEngine (fun _ _ _ _ h => h.noEvents)

theorem execSaccV {o : SaccVOp} (h : Keeps False False False s0 s) : Runs (¬s.issuing) s0 (execSaccV o s) :=
  h.issueEngine (fun _ _ _ _ h => h.noEvents)

theorem execClx {o : ClxOp} (h : Keeps False False False s0 s) : Runs (¬s.issuing) s0 (execClx o s) :=
  h.issueEngine (fun _ _ _ _ h => h.noEvents)

theorem execNmc {o : NmcOp} (h : Keeps False False False s0 s) : Runs (¬s.issuing) s0 (execNmc o s) :=
  h.issueEngine (fun _ _ _ _ h => h.wideEvent)

theorem gatmEvents {w64 : Bool} {d : VDst} {v : Convoy} {act : List Ln} {op : CmdOp} (h : Keeps P Q R s0 s) :
    KeepsIn P Q R s0 (fun x => x.1) (gatmEvents w64 d s v act op) := by
  unfold Machine.gatmEvents
  split
  · split
    · exact KeepsIn.none
    · dsimp only
      refine KeepsIn.some (h.foldl_fst fun _ _ h => ?_)
      split
      · exact h.replayEvent.gatmResult
      · exact h.takeKey
  · exact KeepsIn.some h

theorem execGatm {o : GatmOp} (h : Keeps False False False s0 s) : Runs (¬s.issuing) s0 (execGatm o s) :=
  h.issueEngine (fun _ _ _ _ h => h.gatmEvents)

theorem execSig {o : SigOp} (h : Keeps False False False s0 s) : Runs (¬s.issuing) s0 (execSig o s) := by
  unfold Machine.execSig
  dsimp only
  exact h.issueEngine (fun _ _ _ _ h => h.wideEvent)

theorem execStage {o : StageOp} (h : Keeps False False False s0 s) : Runs (¬s.issuing) s0 (execStage o s) :=
  h.issueEngine (fun _ _ _ _ h => h.noEvents)

theorem execWb {o : WbOp} (h : Keeps False False False s0 s) : Runs (¬s.issuing) s0 (execWb o s) := h.issueEngine (fun _ _ _ _ h => h.noEvents)

theorem holdOrStop {c : Nat} {v : Convoy} {w : Wait} (h : Keeps P False R s0 s) : Keeps P False R s0 (s.holdOrStop c v w) := by
  unfold State.holdOrStop
  split
  · exact h.hold
  · exact h.hold

theorem execWsig {o : WsigOp} (h : Keeps False False False s0 s) : Runs (¬s.issuing) s0 (execWsig o s) := by
  unfold Machine.execWsig
  dsimp only
  refine h.issue (fun _ _ _ => ?_)
  split
  · exact h.refusal
  · split
    · exact h.trap
    · exact h.holdOrStop

theorem endWsig {c : Nat} {w : WsigWait} {met : Bool} (h : Keeps P False R s0 s) : Keeps P False R s0 (s.endWsig c w met) := h.wrQ.advance

theorem execWsigReread {c : Nat} (h : Keeps False False False s0 s) : Runs N s0 (execWsigReread c s) := by
  unfold Machine.execWsigReread
  split
  · exact h.next
  · split
    · split
      · dsimp only
        split
        · exact h.next
        · split
          · exact h.send.refusal.next
          · split
            · split
              · exact h.send.endWsig.next
              · exact h.next
            · split
              · exact h.send.endWsig.next
              · exact h.next
      · split
        · exact (h.awaits _ ‹_›).next
        · dsimp only
          split
          · exact h.settleWrites.readWord.endWsig.next
          · split
            · exact h.next
            · exact h.settleWrites.readWord.next
    · exact h.next

theorem execWsigTimeout {c : Nat} (h : Keeps False False False s0 s) : Runs N s0 (execWsigTimeout c s) := by
  unfold Machine.execWsigTimeout
  split
  · exact h.next
  · split
    · split
      · exact h.endWsig.next
      · exact h.next
    · exact h.next

theorem endWaitc {c : Nat} {v : Convoy} {x : Cls} {n : Nat} (h : Keeps P False False s0 s) : Keeps P False False s0 (s.endWaitc c v x n) := by
  unfold State.endWaitc
  split
  · exact h.engref
  · exact h.observe.advance

theorem execWaitc {o : WaitcOp} (h : Keeps False False False s0 s) : Runs (¬s.issuing) s0 (execWaitc o s) := by
  unfold Machine.execWaitc
  refine h.issue (fun _ _ _ => ?_)
  split
  · exact h.advance
  · split
    · exact h.endWaitc
    · exact h.holdOrStop

theorem execWaitcRelease {c : Nat} (h : Keeps False False False s0 s) : Runs N s0 (execWaitcRelease c s) := by
  unfold Machine.execWaitcRelease
  split
  · exact h.next
  · split
    · split
      · exact h.hold.endWaitc.next
      · exact h.next
    · exact h.next

theorem modPass {n : Nat} {f : Pass → Pass} (h : Keeps P Q R s0 s) : Keeps P Q R s0 (s.modPass n f) := h.parts

theorem beginPass {n : Nat} (h : Keeps P Q R s0 s) : Keeps P Q R s0 (s.beginPass n) := by
  unfold State.beginPass
  split
  · exact h
  · dsimp only
    split
    · exact h
    · exact (h.foldl fun _ _ h => h.send.count).modPass

theorem joinPass {die : Nat} (h : Keeps P Q R s0 s) : Keeps P Q R s0 (s.joinPass die).2 := by
  unfold State.joinPass
  split
  · exact h
  · exact h.parts

theorem addEntry {e : RevEntry} (h : Keeps P Q R s0 s) : Keeps P Q R s0 (s.addEntry e) := h.parts

theorem execRevoke {o : RevokeOp} (h : Keeps False False False s0 s) : Runs (¬s.issuing) s0 (execRevoke o s) := by
  unfold Machine.execRevoke
  refine h.issue (fun _ _ _ => ?_)
  dsimp only
  split
  · exact h.refusal
  · exact h.refusal
  · split
    · exact h.hold
    · refine (Keeps.wrS ?_).advance
      split
      · exact h.joinPass.addEntry.modPass.beginPass
      · exact h.joinPass.addEntry.modPass

/-! ## Queues -/

theorem onQueue {ag : Agent} {a n : Nat} {f : State → State} (h : Keeps P Q R s0 s) (hf : ∀ t, Keeps P Q R s0 t → Keeps P Q R s0 (f t)) :
    Keeps P Q R s0 (s.onQueue ag a n f) :=
  hf _ h.drainAt.wakeRange.fillPages.noteWritten.readLines.logWrite

theorem onHeader {ag : Agent} {k : Cap} {f : State → State} (h : Keeps P Q R s0 s) (hf : ∀ t, Keeps P Q R s0 t → Keeps P Q R s0 (f t)) :
    Keeps P Q R s0 (s.onHeader ag k f) :=
  h.onQueue hf

theorem headerFault {ag : Agent} {source : BitVec 8} {b : Addr} (h : Keeps P Q R s0 s) : Keeps P Q R s0 (s.headerFault ag source b) :=
  (h.onQueue (fun _ h => h.qerr)).record

theorem headerTrap {c : Nat} {v : Convoy} {b : Addr} (h : Keeps P False False s0 s) : Keeps P False False s0 (s.headerTrap c v b) :=
  h.headerFault.refusal

theorem meetHeader {v : Convoy} {b : Addr} (h : Keeps P Q R s0 s) : Keeps P Q R s0 (s.meetHeader v b) := h.readLines

theorem setQ {c : Nat} {q : Option (BitVec 2)} {v : Bool} (h : Keeps P False R s0 s) : Keeps P False R s0 (s.setQ c q v) := by
  unfold State.setQ
  split
  · exact h.wrQ
  · exact h

theorem logWide {v : Convoy} {ok : Bool} (h : Keeps P Q R s0 s) : Keeps P Q R s0 (s.logWide v ok) := h.foldl fun _ _ h => h.logEvent

theorem endPush {c : Nat} {v : Convoy} {w : QueueWait} {ok : Bool} (h : Keeps P False R s0 s) : Keeps P False R s0 (s.endPush c v w ok) :=
  h.logWide.setQ.endRegion

theorem tryPublish {c : Nat} {v : Convoy} {w : QueueWait} {start : Nat} (h : Keeps P False R s0 s) :
    Keeps P False R s0 (s.tryPublish c v w start) := by
  unfold State.tryPublish
  split
  · exact (h.releaseAll.onHeader (fun _ h => h.qpublish)).endPush
  · exact h.hold

theorem headRecord {a n : Nat} {launch : Bool} (h : Keeps P Q R s0 s) : Keeps P Q R s0 (s.headRecord a n launch) := by
  unfold State.headRecord
  dsimp only
  split
  · split
    · exact h
    · exact h.wrHome
  · split
    · exact h
    · exact h.wrHome

theorem reservePush {c : Nat} {v : Convoy} {w : QueueWait} (h : Keeps P False R s0 s) : Keeps P False R s0 (s.reservePush c v w) :=
  ((h.releaseAll.wakeRange.onQueue (fun _ h => h.qreserve)).moveElems.onQueue (fun _ h => h.headRecord)).tryPublish

theorem tryPush {c : Nat} {v : Convoy} {w : QueueWait} (h : Keeps P False False s0 s) : Keeps P False False s0 (s.tryPush c v w) := by
  unfold State.tryPush
  dsimp only
  split
  · split
    · exact h.refusal
    · exact h.refusal
  · exact h.refusal
  · exact h.refusal
  · split
    · split
      · exact h.meetHeader.endPush
      · exact h.holdLog
    · split
      · exact h.headerTrap
      · split
        · exact (h.awaits _ ‹_›).holdOrStop
        · split
          · split
            · exact h.holdLog
            · split
              · exact (h.onHeader (fun _ h => h.qerr)).endPush
              · split
                · split
                  · exact h.endPush
                  · exact h.holdOrStop
                · split
                  · exact h.refusal
                  · exact h.reservePush
          · split
            · exact h.holdLog
            · split
              · exact (h.onHeader (fun _ h => h.qerr)).endPush
              · split
                · split
                  · exact h.endPush
                  · exact h.holdOrStop
                · split
                  · exact h.refusal
                  · exact h.reservePush

theorem noteExports {colour p : Nat} {r : List (BitVec 128 × Bool)} (h : Keeps P Q False s0 s) : Keeps P Q False s0 (s.noteExports colour p r) :=
  h.foldl fun _ _ h => h.count.markExport

theorem forwardQueue {c : Nat} {v : Convoy} {k : Cap} {q : Nat} {acc : RemoteAcc} {w : RemoteWait} (h : Keeps P False R s0 s) :
    Keeps P False R s0 (s.forwardQueue c v k q acc w) :=
  h.send.hold

theorem remotePush {c : Nat} {v : Convoy} {w : QueueWait} {p : Nat} (h : Keeps P False False s0 s) :
    Keeps P False False s0 (s.remotePush c v w p) := by
  unfold State.remotePush
  dsimp only
  split
  · split
    · exact h.noRoute.refusal
    · exact h.noRoute.endPush
  · split
    · exact h.refusal
    · exact h.refusal
  · exact h.refusal
  · exact h.refusal
  · split
    · exact (h.awaits _ ‹_›).hold
    · split
      · exact h.holdLog
      · exact h.releaseAll.readLines.noteExports.forwardQueue

theorem pushForm {c : Ctl} {w : Convoy → QueueWait} {n : Nat} (h : Keeps False False False s0 s) : Runs (¬s.issuing) s0 (pushForm s c w n) := by
  unfold Machine.pushForm
  refine h.issueEnd (fun _ _ _ => ?_)
  dsimp only
  split
  · exact (h.foldl fun _ _ h => h.replayEvent).setQ.endRegion
  · split
    · exact h.hold
    · split
      · exact h.remotePush
      · exact h.tryPush

theorem execQpush {o : QpushOp} (h : Keeps False False False s0 s) : Runs (¬s.issuing) s0 (execQpush o s) := h.pushForm

theorem execLaunchOp {o : LaunchOp} (h : Keeps False False False s0 s) : Runs (¬s.issuing) s0 (execLaunchOp o s) := h.pushForm

theorem execQpushRetry {c : Nat} (h : Keeps False False False s0 s) : Runs N s0 (execQpushRetry c s) := by
  unfold Machine.execQpushRetry
  split
  · exact h.next
  · split
    · split
      · split
        · exact h.tryPublish.next
        · exact h.next
      · split
        · exact h.next
        · exact h.tryPush.next
      · exact h.next
    · exact h.next

theorem qrelease {b start n : Nat} (h : Keeps P Q R s0 s) : Keeps P Q R s0 (s.qrelease b start n) := h.putQword.qfree

theorem endEmpty {c : Nat} {v : Convoy} {q : Option (BitVec 2)} {words : Nat} (h : Keeps P False R s0 s) :
    Keeps P False R s0 (s.endEmpty c v q words) :=
  (h.foldl fun _ _ h => h.modFibre).setQ.advance

theorem endPop {c : Nat} {v : Convoy} {q : Option (BitVec 2)} {words : Nat} {slots : List (BitVec 128 × Bool)} (h : Keeps P False R s0 s) :
    Keeps P False R s0 (s.endPop c v q words slots) :=
  (h.foldl fun _ _ h => h.logPop).setQ.advance

theorem putRecord {ag : Agent} {k : Cap} {off : Nat} {slots : List (BitVec 128 × Bool)} (h : Keeps P Q R s0 s) :
    Keeps P Q R s0 (s.putRecord ag k off slots) :=
  h.writeRange

theorem takeRecord {c : Nat} {v : Convoy} {w : QueueWait} {start : Nat} (h : Keeps P False False s0 s) :
    Keeps P False False s0 (s.takeRecord c v w start) := by
  unfold State.takeRecord
  dsimp only
  split
  · exact (h.onHeader (fun _ h => h.qrelease)).refusal
  · exact (h.wakeRange.moveElems.onHeader (fun _ h => h.qrelease)).endPop

theorem reservePop {v : Convoy} {w : QueueWait} {start k : Nat} (h : Keeps P Q R s0 s) : Keeps P Q R s0 (s.reservePop v w start k) :=
  h.onHeader (fun _ h => h.putQword)

theorem tryPop {c : Nat} {v : Convoy} {w : QueueWait} {fuel : Nat} (h : Keeps P False False s0 s) :
    Keeps P False False s0 (State.tryPop c v w fuel s) := by
  induction fuel generalizing s with
  | zero => exact h.holdOrStop
  | succ fuel ih =>
    unfold State.tryPop
    dsimp only
    split
    · exact h.refusal
    · split
      · exact h.meetHeader.endEmpty
      · split
        · exact h.headerTrap
        · split
          · split
            · exact h.endEmpty
            · exact h.holdOrStop
          · split
            · exact (h.awaits _ ‹_›).holdOrStop
            · split
              · exact h.refusal
              · split
                · exact h.holdLog
                · split
                  · split
                    · exact h.hold
                    · split
                      · exact h.reservePop.takeRecord
                      · exact h.reservePop.hold
                  · split
                    · exact ih ((h.ite (h.onHeader fun _ h => h.qerr)).reservePop.onHeader fun _ h => h.qrelease)
                    · exact (h.ite (h.onHeader fun _ h => h.qerr)).reservePop.hold

theorem replayPop {c : Nat} {v : Convoy} {w : QueueWait} {slots : List (BitVec 128 × Bool)} (h : Keeps P False False s0 s) :
    Keeps P False False s0 (s.replayPop c v w slots) := by
  unfold State.replayPop
  split
  · exact h.refusal
  · exact (h.putRecord.foldl fun _ _ h => h.modFibre).setQ.advance

theorem execQpop {o : QpopOp} (h : Keeps False False False s0 s) : Runs (¬s.issuing) s0 (execQpop o s) := by
  unfold Machine.execQpop
  refine h.issue (fun _ _ _ => ?_)
  dsimp only
  split
  · exact h.replayPop
  · split
    · exact h.tryPop
    · split
      · exact h.noRoute.endEmpty
      · exact h.refusal
      · split
        · exact h.holdLog
        · exact h.forwardQueue

theorem execQpopRetry {c : Nat} (h : Keeps False False False s0 s) : Runs N s0 (execQpopRetry c s) := by
  unfold Machine.execQpopRetry
  split
  · exact h.next
  · split
    · split
      · split
        · exact h.next
        · split
          · exact h.takeRecord.next
          · exact (h.onHeader (fun _ h => h.qrelease)).tryPop.next
      · split
        · exact h.next
        · exact h.tryPop.next
      · exact h.next
    · exact h.next

theorem execQslots {o : QslotsOp} (h : Keeps False False False s0 s) : Runs (¬s.issuing) s0 (execQslots o s) := by
  unfold Machine.execQslots
  refine h.issue (fun _ _ _ => ?_)
  dsimp only
  split
  · exact h.noRoute.wrS.advance
  · exact h.refusal
  · exact h.forwardQueue
  · split
    · exact (h.awaits _ ‹_›).hold
    · split
      · exact h.meetHeader.wrS.advance
      · split
        · exact h.headerTrap
        · exact h.readLines.wrS.advance

theorem takeAck {c : Nat} {v : Convoy} {w : RemoteWait} {a : QueueAck} (h : Keeps P False False s0 s) :
    Keeps P False False s0 (s.takeAck c v w a) := by
  unfold State.takeAck
  dsimp only
  split
  · exact h.refusal
  · split
    · exact h.wrS.advance
    · split
      · exact h.endEmpty
      · split
        · exact h.refusal
        · exact h.putRecord.endPop
    · split
      · exact h.refusal
      · exact h.logWide.setQ.endRegion

theorem execForwardedQueueAckReceive {c : Nat} {a : QueueAckMsg} (h : Keeps False False False s0 s) :
    Runs N s0 (execForwardedQueueAckReceive c a s) := by
  unfold Machine.execForwardedQueueAckReceive
  refine (h.once (fun _ h => ?_)).next
  split
  · exact h
  · split
    · exact h.takeAck
    · exact h

/-! ## System registers -/

theorem setAlloc {g : Nat} {on : Bool} (h : Keeps P Q R s0 s) : Keeps P Q R s0 (s.setAlloc g on) := by
  unfold State.setAlloc
  dsimp only
  split
  · exact h.markPages.modBank.wake
  · split
    · exact h.writeBack.parts.modBank
    · exact h

theorem setPmap {g : Nat} {v : Word} (h : Keeps P Q R s0 s) : Keeps P Q R s0 (s.setPmap g v) := h.modBank.setAlloc

theorem setBwphase {w : Nat} {v : BitVec 3} (h : Keeps P Q R s0 s) : Keeps P Q R s0 (s.setBwphase w v) := by
  unfold State.setBwphase
  split
  · exact h
  · exact h.modWg.wake.modWg

theorem reclaim {vd : Nat} (h : Keeps P Q R s0 s) : Keeps P Q R s0 (s.reclaim vd) := h.writeBack

theorem endReclaim (h : Keeps P Q R s0 s) : Keeps P Q R s0 s.endReclaim := by
  unfold State.endReclaim
  split
  · exact h.reclaim.parts
  · exact h

theorem setRecl {v : Word} (h : Keeps P Q R s0 s) : Keeps P Q R s0 (s.setRecl v) := h.endReclaim.parts

theorem setMonS {m : Nat} {v : Word} (h : Keeps P Q R s0 s) : Keeps P Q R s0 (s.setMonS m v) := h.parts

theorem modWorld {c : Nat} {f : World → World} (h : Keeps P Q False s0 s) : Keeps P Q False s0 (s.modWorld c f) := h.worlds

theorem deny {c group : Nat} (h : Keeps P Q False s0 s) : Keeps P Q False s0 (s.deny c group) := by
  unfold State.deny
  dsimp only
  split
  · exact h.modWorld.pushOne
  · exact h.modWorld
  · exact h.modWorld
  · exact h.modWorld

theorem denyFor {r : SysReg} (h : Keeps P Q False s0 s) : Keeps P Q False s0 (s.denyFor r) := by
  have hm (o : Option Nat) : Keeps P Q False s0 (o.elim s fun c => s.deny c 2) := by
    cases o with
    | none => exact h
    | some c => exact h.deny
  unfold State.denyFor
  split
  · exact hm _
  · exact hm _
  · exact h

theorem writeSys {spn : Nat} {v : Word} {x3 : SysReg} (h : Keeps P Q R s0 s) : Keeps P Q R s0 (s.writeSys spn v x3) := by
  unfold State.writeSys
  split
  · exact h.modSp
  · exact h.setPmap
  · exact h.modCore fun _ => rfl
  · exact h.setRecl
  · exact h.setMonS
  · exact h
  · exact h.parts
  · exact h.parts
  · exact h.parts
  · exact h
  · exact h
  · exact h
  · exact h
  · exact h
  · exact h
  · exact h
  · exact h
  · exact h
  · exact h
  · exact h

theorem privTrap {c sub pos : Nat} (h : Keeps P False False s0 s) : Keeps P False False s0 (s.privTrap c sub pos) := h.trap

theorem execSysrd {o : SysrdOp} (h : Keeps False False False s0 s) : Runs (¬s.issuing) s0 (execSysrd o s) := by
  unfold Machine.execSysrd
  refine h.issue (fun _ _ _ => ?_)
  dsimp only
  split
  · exact h.markLatch.advance
  · split
    · exact h.privTrap
    · exact h.denyFor.dsts.advance
    · exact h.privTrap

theorem execSyswr {o : SyswrOp} (h : Keeps False False False s0 s) : Runs (¬s.issuing) s0 (execSyswr o s) := by
  unfold Machine.execSyswr
  dsimp only
  refine h.issue (fun _ _ _ => ?_)
  split
  · exact h.advance
  · split
    · exact h.privTrap
    · exact h.modConvoy.advance
    · exact h.setBwphase.advance
    · exact h.writeSys.advance
    · exact h.privTrap

/-! ## Recovery -/

theorem unload {w : Nat} (h : Keeps P False R s0 s) : Keeps P False R s0 (s.unload w) := h.freeFibres.cores

theorem takeHalts {w : Nat} {sps : List Nat} (h : Keeps P Q R s0 s) : Keeps P Q R s0 (s.takeHalts w sps) := h.modWg.parts

theorem saveWg {w : Nat} (h : Keeps P False R s0 s) : Keeps P False R s0 (s.saveWg w) := by
  unfold State.saveWg
  split
  · exact h
  · dsimp only
    split
    · refine h.firmwarePass.unload.leaveSps.modWg.takeHalts.foldl fun _ _ h => ?_
      split
      · exact h
      · exact h.temperPoint
    · exact h.firmwarePass.unload.leaveSps.modWg.takeHalts

theorem sealBanks {w : Nat} (h : Keeps P Q R s0 s) : Keeps P Q R s0 (s.sealBanks w) := h.modWg

theorem arriveAll {w : Nat} {waited : Tbl Nat} (h : Keeps P Q R s0 s) : Keeps P Q R s0 (s.arriveAll w waited) := h.foldl fun _ _ h => h.arrive

theorem recountFrames {p : Nat} (h : Keeps P Q R s0 s) : Keeps P Q R s0 (s.recountFrames p) := h.modSp

theorem putImage {rs : List (Addr × Nat)} {bytes : Tbl Byte} {tags : Tbl Unit} (h : Keeps P Q R s0 s) :
    Keeps P Q R s0 (s.putImage rs bytes tags) := by
  unfold State.putImage
  dsimp only
  refine ((h.foldl fun _ _ h => h.zeroRange).foldl fun _ _ h => h.wr8).foldl fun _ _ h => ?_
  split
  · exact h
  · exact h.setTag

theorem loadBanks {w : Nat} {old sps : List Nat} {l : List BankImage} (h : Keeps P Q R s0 s) : Keeps P Q R s0 (s.loadBanks w old sps l) := by
  unfold State.loadBanks
  dsimp only
  refine h.foldl fun _ _ h => ?_
  split
  · exact h.putImage.parts
  · exact h

theorem loadWg {w : Nat} {sps : List Nat} (h : Keeps P False R s0 s) : Keeps P False R s0 (s.loadWg w sps) := by
  unfold State.loadWg
  split
  · exact h
  · dsimp only
    refine ((Keeps.loadBanks ?_).foldl fun _ _ h => h.recountFrames.modSp.temperPoint).foldl fun _ _ h => h.modSp
    split
    · exact ((h.firmwarePass.putImage.foldl fun _ _ h => h.setAcprog).parts.foldl fun _ _ h => h.putConvoy).nextId.modWg.arriveAll
    · exact ((h.firmwarePass.putImage.foldl fun _ _ h => h.setAcprog).parts.foldl fun _ _ h => h.putConvoy).nextId.modWg

theorem stopSp {p : Nat} {source : BitVec 8} (h : Keeps P Q False s0 s) : Keeps P Q False s0 (s.stopSp p source) := by
  unfold State.stopSp
  dsimp only
  exact (h.foldl fun _ _ h => h.cancel).modSp

theorem undoLines {p : Nat} (h : Keeps P Q R s0 s) : Keeps P Q R s0 (s.undoLines p) := by
  unfold State.undoLines
  dsimp only
  refine (h.foldl fun _ _ h => h.wrRaw.clearTags.foldl fun _ _ h1 => ?_).parts.modSp
  split
  · exact h1
  · exact h1.setTag

theorem refusalsAgain {before : Nat} {ids : List Nat} (h : Keeps P Q R s0 s) : Keeps P Q R s0 (s.refusalsAgain before ids) := by
  unfold State.refusalsAgain
  refine h.foldl fun _ _ h => ?_
  split
  · exact h.refusalBit
  · exact h

theorem runAgain {w before : Nat} (h : Keeps P Q R s0 s) : Keeps P Q R s0 (s.runAgain w before) := by
  unfold State.runAgain
  dsimp only
  split
  · exact h.modWg.modWg.parts
  · exact h.modWg

theorem rollbackSp {p : Nat} (h : Keeps P False False s0 s) : Keeps P False False s0 (s.rollbackSp p) := by
  unfold State.rollbackSp
  split
  · exact h.modSp
  · extract_lets ws a s1 gone fs rs s2 old fibres s3 vs s3b s3c s4 back
    have ha : Keeps P False False s0 a := h.firmwarePass.firmwarePass
    have h1 : Keeps P False False s0 s1 := ha.undoLines.ite ha
    have h2 : Keeps P False False s0 s2 := h1.putImage
    have h3 : Keeps P False False s0 s3 := h2.cores
    have h3b : Keeps P False False s0 s3b := h3.refusalsAgain.foldl fun _ _ h => h.rewindow
    have h3c : Keeps P False False s0 s3c := h3b.foldl fun _ _ h => h.runAgain
    have h4 : Keeps P False False s0 s4 := h3c.foldl fun _ _ h => h.putConvoy.cutBack
    exact Keeps.recountFrames (Keeps.modSp (h4.foldl fun _ _ h => h.foldl fun _ _ h => h.arrive))

theorem discardTraps {sps : List Nat} (h : Keeps P False R s0 s) : Keeps P False R s0 (s.discardTraps sps) := h.convoys

theorem noteSoft {core item : Nat} {sps : List Nat} (h : Keeps P Q R s0 s) : Keeps P Q R s0 (s.noteSoft core item sps) := by
  have h1 := h.foldl (l := sps) fun _ p h => h.modSp (n := p) (f := fun q => { q with rolls := q.rolls + 1 })
  unfold State.noteSoft
  dsimp only
  split
  · exact Keeps.modCore (Keeps.modCore h1 fun _ => rfl) fun _ => rfl
  · exact Keeps.modCore h1 fun _ => rfl

theorem execSoftError {spn : Nat} {e : ErrorMsg} (h : Keeps False False False s0 s) : Runs N s0 (execSoftError spn e s) := by
  unfold Machine.execSoftError
  dsimp only
  split
  · exact h.modSp.next
  · split
    · exact h.next
    · split
      · split
        · split
          · exact h.record.next
          · split
            · exact h.next
            · exact ((h.foldl fun _ _ h => h.rollbackSp).foldl fun _ _ h => h.modSp).record.next
        · split
          · exact h.noteSoft.record.next
          · split
            · exact h.noteSoft.next
            · exact ((h.noteSoft.foldl fun _ _ h => h.rollbackSp).foldl fun _ _ h => h.modSp).record.next
      · split
        · split
          · exact (h.foldl fun _ _ h => h.stopSp).discardTraps.record.next
          · split
            · exact (h.foldl fun _ _ h => h.stopSp).discardTraps.next
            · exact (((h.foldl fun _ _ h => h.stopSp).discardTraps.foldl fun _ _ h => h.rollbackSp).foldl fun _ _ h => h.modSp).record.next
        · split
          · exact (h.noteSoft.foldl fun _ _ h => h.stopSp).discardTraps.record.next
          · split
            · exact (h.noteSoft.foldl fun _ _ h => h.stopSp).discardTraps.next
            · exact (((h.noteSoft.foldl fun _ _ h => h.stopSp).discardTraps.foldl fun _ _ h => h.rollbackSp).foldl fun _ _ h => h.modSp).record.next

theorem execReplayWaitExpiry {c : Nat} (h : Keeps False False False s0 s) : Runs N s0 (execReplayWaitExpiry c s) := by
  unfold Machine.execReplayWaitExpiry
  split
  · exact h.next
  · split
    · dsimp only
      split
      · exact h.deliverReport.hold.disperse.count.next
      · exact h.deliverReport.next
    · exact h.next

theorem lateTrap {c : Nat} {v : Convoy} (h : Keeps P False False s0 s) : Keeps P False False s0 (s.lateTrap c v) := by
  unfold State.lateTrap
  split
  · exact h
  · dsimp only
    split
    · exact h.foldl fun _ _ h => h.stopCmd
    · exact (h.foldl fun _ _ h => h.stopCmd).trap

theorem execLogfullExpiry {c : Nat} (h : Keeps False False False s0 s) : Runs N s0 (execLogfullExpiry c s) := by
  unfold Machine.execLogfullExpiry
  split
  · exact h.next
  · split
    · split
      · exact h.trap.next
      · exact h.next
    · split
      · exact h.lateTrap.next
      · exact h.next

end Keeps

end Sys2Proof.Machine

/-! SUPPORT. What each operation keeps: serais and clauses, waybills, the Anvil and placement. -/

namespace Sys2Proof.Machine

variable {P Q R N : Prop} {s0 s t : State}

namespace Keeps

-- many short proofs: one after another, so that they do not each take a thread and its stack
set_option Elab.async false

/-! ## Serais and clauses -/

theorem markEntered {g : Wg} (h : Keeps P Q R s0 s) : Keeps P Q R s0 (s.markEntered g) := h.parts

theorem beginClause {c : Nat} {v : Convoy} {hd : Header} (h : Keeps P False R s0 s) : Keeps P False R s0 (s.beginClause c v hd) :=
  (h.foldl fun _ _ h => h.modFibre).modConvoy

theorem observeHeader {v : Convoy} {hd : Header} (h : Keeps P Q R s0 s) : Keeps P Q R s0 (s.observeHeader v hd) := by
  unfold State.observeHeader
  dsimp only
  split
  · refine Keeps.observe ?_
    split
    · exact h.observe
    · exact h
  · split
    · exact h.observe
    · exact h

theorem startClause {c : Nat} {v : Convoy} {hd : Header} (h : Keeps P False False s0 s) : Keeps P False False s0 (s.startClause c v hd) := by
  unfold State.startClause
  dsimp only
  split
  · exact h
  · split
    · exact h.observeHeader.engref
    · split
      · split
        · exact h.observeHeader.regionEntry.beginClause
        · exact h.observeHeader.regionEntry
      · split
        · exact h.observeHeader.beginClause
        · exact h.observeHeader

theorem settleHalt {spn : Nat} (h : Keeps P False R s0 s) : Keeps P False R s0 (s.settleHalt spn) := by
  unfold State.settleHalt
  split
  · exact h.modSp.noteHalt.convoys
  · exact h

theorem haltAt {c : Nat} {v : Convoy} {g : Wg} (h : Keeps P False R s0 s) : Keeps P False R s0 (s.haltAt c v g) := h.hold.record.settleHalt

theorem endAborted {c : Nat} {v : Convoy} (h : Keeps False False False s0 s) : Runs N s0 (s.endAborted c v) := by
  unfold State.endAborted
  split
  · split
    · exact h.hold.settleAbort.next
    · exact h.next
  · exact h.next

theorem execClauseWaitMet {c : Nat} (h : Keeps False False False s0 s) : Runs N s0 (execClauseWaitMet c s) := by
  unfold Machine.execClauseWaitMet
  split
  · exact h.next
  · split
    · split
      · exact h.endConvoy.next
      · split
        · exact h.endAborted
        · split
          · exact h.haltAt.next
          · split
            · exact h.trap.next
            · split
              · exact h.next
              · split
                · exact (h.awaits _ ‹_›).next
                · exact h.markEntered.passRd.startClause.next
    · split
      · split
        · exact h.barBroken.next
        · exact h.next
      · exact h.next
    · exact h.endAborted
    · split
      · exact h.endAborted
      · exact h.next
    · exact h.endAborted
    · exact h.endAborted
    · exact h.next

theorem execConvoyAged {c : Nat} (h : Keeps False False False s0 s) : Runs N s0 (execConvoyAged c s) := by
  unfold Machine.execConvoyAged
  split
  · exact h.next
  · split
    · exact h.modConvoy.next
    · exact h.next

theorem letIn {spn : Nat} (h : Keeps P Q R s0 s) : Keeps P Q R s0 (s.letIn spn) := by
  unfold State.letIn
  refine h.foldl fun _ _ h => ?_
  dsimp only
  split
  · split
    · exact h.parts.arrive
    · exact h
  · split
    · exact h.parts.arrive
    · exact h

theorem launchSerai {x : Serai} (h : Keeps P False R s0 s) : Keeps P False R s0 (s.launchSerai x) := by
  unfold State.launchSerai
  dsimp only
  split
  · exact h
  · exact h.nextId.convoys.letIn.count

theorem seraiLaunch {k : SeraiKey} {cond : Serai → Bool} (h : Keeps False False False s0 s) : Runs N s0 (seraiLaunch s k cond) := by
  unfold Machine.seraiLaunch
  split
  · split
    · exact h.launchSerai.next
    · exact h.next
  · exact h.next

theorem execSeraiLaunchFull {k : SeraiKey} (h : Keeps False False False s0 s) : Runs N s0 (execSeraiLaunchFull k s) := h.seraiLaunch

theorem execSeraiTimer {k : SeraiKey} (h : Keeps False False False s0 s) : Runs N s0 (execSeraiTimer k s) := h.seraiLaunch

theorem execSeraiLaunchDrained {k : SeraiKey} (h : Keeps False False False s0 s) : Runs N s0 (execSeraiLaunchDrained k s) := h.seraiLaunch

theorem execSeraiLaunchCapacity {spn : Nat} (h : Keeps False False False s0 s) : Runs N s0 (execSeraiLaunchCapacity spn s) := by
  unfold Machine.execSeraiLaunchCapacity
  dsimp only
  split
  · split
    · exact h.letIn.next
    · exact h.next
  · split
    · exact h.next
    · split
      · exact h.letIn.next
      · split
        · exact h.launchSerai.next
        · exact h.next

theorem requeue {w l : Nat} (h : Keeps P Q R s0 s) : Keeps P Q R s0 (s.requeue w l) := h.parts

theorem evict {w : Nat} {g : Wg} (h : Keeps P False False s0 s) : Keeps P False False s0 (s.evict w g) := by
  unfold State.evict
  dsimp only
  exact ((h.foldl fun _ _ h => h.cutBack).foldl fun _ _ h => h.modConvoy).saveWg.modWg.requeue.record

theorem growTraps {w : Nat} (h : Keeps P False False s0 s) : Keeps P False False s0 (s.growTraps w) := h.foldl fun _ _ h => h.trap

theorem execGrowDeadlockEvict {core : Nat} (h : Keeps False False False s0 s) : Runs N s0 (execGrowDeadlockEvict core s) := by
  unfold Machine.execGrowDeadlockEvict
  dsimp only
  split
  · split
    · exact h.next
    · split
      · exact h.growTraps.next
      · split
        · exact h.next
        · exact h.evict.next
  · exact h.next

/-! ## Waybills -/

theorem putBinding {i : Nat} {b : Binding} (h : Keeps P Q R s0 s) : Keeps P Q R s0 (s.putBinding i b) := h.parts

theorem wbrej {colour cause : Nat} {addr : Addr} (h : Keeps P Q R s0 s) : Keeps P Q R s0 (s.wbrej colour cause addr) := h.record

theorem consume {b : Addr} {start n : Nat} (h : Keeps P Q R s0 s) : Keeps P Q R s0 (s.consume b start n) := h.putQword.qrelease

theorem joinSlots {l colour : Nat} {rs : List BarReq} (h : Keeps P Q R s0 s) : Keeps P Q R s0 (s.joinSlots l colour rs) := by
  unfold State.joinSlots
  refine h.foldl fun _ _ h => ?_
  split
  · split
    · exact h.parts
    · exact h.parts
  · exact h

theorem newLaunch {i : Nat} {b : Binding} {g : List Cap} {hs : List (Nat × Nat × Nat)} (h : Keeps P Q R s0 s) :
    Keeps P Q R s0 (s.newLaunch i b g hs) :=
  h.nextId.parts.joinSlots

theorem unbind {i : Nat} {b : Binding} (h : Keeps P Q R s0 s) : Keeps P Q R s0 (s.unbind i b) := h.putBinding.record

theorem popBound {i : Nat} {b : Binding} (h : Keeps P Q R s0 s) : Keeps P Q R s0 (s.popBound i b) := by
  unfold State.popBound
  dsimp only
  split
  · exact h.passRd.unbind
  · split
    · exact (h.passRd.onQueue (fun _ h => h.qerr.consume)).wbrej
    · split
      · exact h.passRd.onQueue (fun _ h => h.consume)
      · split
        · exact (h.passRd.onQueue (fun _ h => h.qerr.consume)).wbrej
        · split
          · exact (h.passRd.onQueue (fun _ h => h.qerr.consume)).wbrej
          · exact (h.passRd.onQueue (fun _ h => h.consume)).passRd.newLaunch

theorem execWaybillPop {die : Nat} (h : Keeps False False False s0 s) : Runs N s0 (Machine.execWaybillPop die s) := by
  unfold Machine.execWaybillPop
  split
  · exact h.next
  · extract_lets b _ s1
    have h1 : Keeps False False False s0 s1 := h.parts
    split
    · exact h1.unbind.next
    · split
      · exact h1.unbind.next
      · split
        · exact (h1.awaits _ ‹_›).marked.next
        · exact h1.popBound.next

/-! ## The Anvil -/

theorem enterDie {die : Nat} {x : AnvilImage} (h : Keeps P Q R s0 s) : Keeps P Q R s0 (s.enterDie die x) := by
  unfold State.enterDie
  split
  · exact h.parts
  · exact h

theorem answerCode {l die : Nat} {c : CodeState} {loops : List (Addr × Addr × Nat)} (h : Keeps P Q R s0 s) :
    Keeps P Q R s0 (s.answerCode l die c loops) :=
  h.parts

theorem anvilLook {l die : Nat} {la : Launch} (h : Keeps P Q R s0 s) : Keeps P Q R s0 (s.anvilLook l die la) := by
  unfold State.anvilLook
  split
  · exact h
  · split
    · exact h.answerCode
    · split
      · exact h.answerCode
      · split
        · dsimp only
          split
          · exact h.firmwarePass.answerCode
          · exact h.firmwarePass.enterDie.answerCode
        · exact h.answerCode

theorem abandonKey {l die : Nat} {la : Launch} (h : Keeps P Q R s0 s) : Keeps P Q R s0 (s.abandonKey l die la) := by
  unfold State.abandonKey
  dsimp only
  refine Keeps.answerCode ?_
  split
  · exact h
  · split
    · exact h.parts.firmwarePass
    · exact h

theorem finishImage {l die : Nat} {x : AnvilImage} (h : Keeps P Q R s0 s) : Keeps P Q R s0 (s.finishImage l die x) := by
  unfold State.finishImage
  split
  · exact h.parts.firmwarePass.enterDie.answerCode
  · exact h.answerCode

theorem execAnvilSpecialiseDone {l die : Nat} (h : Keeps False False False s0 s) : Runs N s0 (execAnvilSpecialiseDone l die s) := by
  unfold Machine.execAnvilSpecialiseDone
  split
  · exact h.next
  · split
    · split
      · exact h.finishImage.next
      · exact h.abandonKey.next
    · exact h.next

theorem execAnvilBudgetExpiry {l die : Nat} (h : Keeps False False False s0 s) : Runs N s0 (execAnvilBudgetExpiry l die s) := by
  unfold Machine.execAnvilBudgetExpiry
  split
  · exact h.next
  · split
    · exact h.abandonKey.next
    · exact h.next

/-! ## Placement and residency -/

theorem takeSlot {l core colour : Nat} {r : BarReq} (h : Keeps P Q R s0 s) : KeepsIn P Q R s0 (fun x => x) (s.takeSlot l core colour r) := by
  unfold State.takeSlot
  dsimp only
  split
  · split
    · exact KeepsIn.none
    · split
      · exact KeepsIn.some h.parts
      · exact KeepsIn.some h.parts
  · split
    · exact KeepsIn.none
    · split
      · exact KeepsIn.some h.nextId.parts
      · exact KeepsIn.some h.nextId.parts

theorem takeSlots {l core : Nat} {la : Launch} (h : Keeps P Q R s0 s) : KeepsIn P Q R s0 (fun x => x) (s.takeSlots l core la) := by
  unfold State.takeSlots
  split
  · exact List.foldlRecOn (motive := KeepsIn P Q R s0 fun x => x) _ _ (KeepsIn.some h) fun _ ho _ _ => KeepsIn.bind ho fun _ h => h.takeSlot
  · split
    · exact KeepsIn.some h
    · exact KeepsIn.none

theorem findPlace {cores : List Nat} {l : Nat} {la : Launch} (h : Keeps P Q R s0 s) : KeepsIn P Q R s0 (fun x => x.2) (s.findPlace cores l la) :=
  KeepsIn.findSome fun _ => KeepsIn.bind_any fun _ => h.takeSlots.map_of fun _ h => h

theorem addFibres {l : List Fibre} (h : Keeps P Q R s0 s) : Keeps P Q R s0 (s.addFibres l) := h.foldl fun _ _ h => h.zeroRows.parts

theorem stageOps {w : Nat} {g : Wg} {la : Launch} {back : Bool} (h : Keeps P Q R s0 s) : Keeps P Q R s0 (s.stageOps w g la back) :=
  h.foldl fun _ _ h => h.nextId.parts.takeEntries

theorem wakeSources {w : Nat} {la : Launch} (h : Keeps P Q R s0 s) : Keeps P Q R s0 (s.wakeSources w la) := h.wake.modWg

theorem placeOn {l : Nat} {la : Launch} {sps : List Nat} (h : Keeps P False R s0 s) : Keeps P False R s0 (s.placeOn l la sps) := by
  unfold State.placeOn
  dsimp only
  split
  · exact (h.nextId.parts.addFibres.foldl fun _ _ h => h.modSp).anvilLook.extentRec.abortLaunch.settleAbort
  · exact (h.nextId.parts.addFibres.foldl fun _ _ h => h.modSp).anvilLook.wakeSources.stageOps

theorem placeMany {l n c : Nat} (h : Keeps P False R s0 s) : Keeps P False R s0 (s.placeMany l n c).1 := by
  induction n generalizing s c with
  | zero => exact h
  | succ n ih =>
    unfold State.placeMany
    split
    · exact h
    · split
      · exact h
      · exact ih (Keeps.placeOn (h.findPlace _ ‹_›))

theorem placeAll {l : Nat} {la : Launch} {core : Nat} (h : Keeps P False R s0 s) :
    KeepsIn P False R s0 (fun x => x) (s.placeAll l la core) := by
  unfold State.placeAll
  split
  · exact KeepsIn.none
  · have h1 := h.findPlace _ ‹_›
    dsimp only
    split
    · exact KeepsIn.some (Keeps.placeMany (Keeps.placeOn h1))
    · exact KeepsIn.none

theorem tryPlace {l : Nat} {la : Launch} (h : Keeps P False R s0 s) : KeepsIn P False R s0 (fun x => x) (s.tryPlace l la) := by
  unfold State.tryPlace
  split
  · exact KeepsIn.none
  · split
    · split
      · exact KeepsIn.none
      · exact KeepsIn.findSome fun _ => h.placeAll
    · dsimp only
      split
      · exact KeepsIn.some h.placeMany
      · exact KeepsIn.none

theorem execPlacement {l : Nat} (h : Keeps False False False s0 s) : Runs N s0 (execPlacement l s) := by
  unfold Machine.execPlacement
  split
  · exact h.next
  · split
    · exact h.next
    · split
      · exact (h.tryPlace _ ‹_›).next
      · exact h.next

theorem execStagingComplete {w : Nat} (h : Keeps False False False s0 s) : Runs N s0 (execStagingComplete w s) := by
  unfold Machine.execStagingComplete
  split
  · exact h.next
  · split
    · exact h.next
    · split
      · exact h.next
      · split
        · exact h.settleAbort.next
        · split
          · exact h.abortLaunch.settleAbort.next
          · split
            · exact h.modWg.arriveAll.next
            · exact h.modWg.arriveAll.next
            · exact h.next
            · exact h.anvilLook.next

theorem execWorkgroupComplete {w : Nat} (h : Keeps False False False s0 s) : Runs N s0 (execWorkgroupComplete w s) := by
  unfold Machine.execWorkgroupComplete
  split
  · exact h.next
  · split
    · exact h.next
    · split
      · exact h.settleAbort.next
      · dsimp only
        split
        · split
          · exact h.next
          · exact h.drainEnded.modWg.stageOps.next
        · split
          · exact h.next
          · exact h.drainEnded.modWg.stageOps.next
        · split
          · exact h.next
          · exact h.drainEnded.modWg.stageOps.next

theorem endLaunch {l : Nat} (h : Keeps P Q R s0 s) : Keeps P Q R s0 (s.endLaunch l) := by
  unfold State.endLaunch
  split
  · exact h
  · split
    · exact h
    · exact h.completion.freeSlots.parts

theorem execWbackComplete {w : Nat} (h : Keeps False False False s0 s) : Runs N s0 (execWbackComplete w s) := by
  unfold Machine.execWbackComplete
  split
  · exact h.next
  · split
    · exact h.next
    · split
      · exact h.next
      · exact (h.foldl fun _ _ h => h.record).dropWg.parts.endLaunch.next

theorem execDeadlineExpiry {l : Nat} (h : Keeps False False False s0 s) : Runs N s0 (execDeadlineExpiry l s) := by
  unfold Machine.execDeadlineExpiry
  split
  · exact h.next
  · split
    · exact h.parts.next
    · exact h.next

theorem yieldConvoy {c : Nat} {v : Convoy} (h : Keeps P False R s0 s) : Keeps P False R s0 (s.yieldConvoy c v) := by
  unfold State.yieldConvoy
  dsimp only
  split
  · exact h.modConvoy.hold
  · exact h.modConvoy.hold
  · split
    · exact h.modConvoy.hold
    · exact h.modConvoy
  · exact Keeps.hold (Keeps.modCore (h.modConvoy.foldl fun _ _ h => h.modFibre) fun _ => rfl)
  · exact h.modConvoy

theorem raiseYield {w : Nat} {g : Wg} (h : Keeps P False R s0 s) : Keeps P False R s0 (s.raiseYield w g) :=
  (h.foldl fun _ _ h => h.yieldConvoy).modWg

theorem askYield {w : Nat} {g : Wg} (h : Keeps P False R s0 s) : Keeps P False R s0 (s.askYield w g) := by
  unfold State.askYield
  split
  · exact h.modWg
  · split
    · exact h.raiseYield
    · exact h

theorem execYieldRequest {l : Nat} (h : Keeps False False False s0 s) : Runs N s0 (execYieldRequest l s) := by
  unfold Machine.execYieldRequest
  split
  · exact h.next
  · dsimp only
    split
    · exact h.next
    · split
      · exact h.askYield.next
      · exact h.next

theorem execYieldDeadlineExpiry {w : Nat} (h : Keeps False False False s0 s) : Runs N s0 (execYieldDeadlineExpiry w s) := by
  unfold Machine.execYieldDeadlineExpiry
  split
  · exact h.next
  · split
    · dsimp only
      split
      · exact (h.foldl fun _ _ h => h.cutBack.hold).next
      · exact h.next
    · exact h.next

theorem execWorkgroupSaveDone {w : Nat} (h : Keeps False False False s0 s) : Runs N s0 (execWorkgroupSaveDone w s) := by
  unfold Machine.execWorkgroupSaveDone
  split
  · exact h.next
  · split
    · split
      · exact h.saveWg.requeue.next
      · exact h.next
    · exact h.next

theorem execWorkgroupRestore {w : Nat} (h : Keeps False False False s0 s) : Runs N s0 (execWorkgroupRestore w s) := by
  unfold Machine.execWorkgroupRestore
  split
  · exact h.next
  · split
    · exact h.next
    · dsimp only
      split
      · exact h.next
      · split
        · exact h.next
        · exact h.loadWg.parts.next

theorem beginMove {w : Nat} {g : Wg} (h : Keeps P Q False s0 s) : Keeps P Q False s0 (s.beginMove w g) := by
  unfold State.beginMove
  split
  · exact (h.foldl fun _ _ h => h.stopSp).modWg
  · exact h.modWg

theorem execMigrationStart {w : Nat} (h : Keeps False False False s0 s) : Runs N s0 (execMigrationStart w s) := by
  unfold Machine.execMigrationStart
  split
  · exact h.next
  · split
    · exact h.beginMove.next
    · exact h.next

theorem execMigrationRetry {w : Nat} (h : Keeps False False False s0 s) : Runs N s0 (execMigrationRetry w s) := by
  unfold Machine.execMigrationRetry
  split
  · exact h.next
  · split
    · exact h.next
    · split
      · exact h.beginMove.next
      · exact h.next

theorem saveRolled {w : Nat} (h : Keeps P False R s0 s) : Keeps P False R s0 (s.saveRolled w) := h.saveWg.sealBanks

theorem moveTo {w : Nat} {t : List Nat} (h : Keeps P False R s0 s) : Keeps P False R s0 (s.moveTo w t) := by
  unfold State.moveTo
  split
  · exact h
  · split
    · exact h.modWg.loadWg
    · exact h.requeue

theorem execMigrationComplete {w : Nat} (h : Keeps False False False s0 s) : Runs N s0 (execMigrationComplete w s) := by
  unfold Machine.execMigrationComplete
  split
  · exact h.next
  · split
    · split
      · exact h.next
      · exact (h.foldl fun _ _ h => h.rollbackSp).saveRolled.moveTo.next
    · exact h.next

theorem hardRec {core colour : Nat} {recov : BitVec 4} (h : Keeps P Q R s0 s) : Keeps P Q R s0 (s.hardRec core colour recov) := h.record

theorem hardRecs {core : Nat} (h : Keeps P Q R s0 s) : Keeps P Q R s0 (s.hardRecs core) := by
  unfold State.hardRecs
  split
  · exact h.hardRec
  · exact h.foldl fun _ _ h => h.hardRec

theorem moveOff {core w : Nat} (h : Keeps P False R s0 s) : Keeps P False R s0 (s.moveOff core w) := by
  unfold State.moveOff
  split
  · exact h
  · dsimp only
    split
    · exact h.saveRolled.loadWg.hardRec
    · exact h.saveRolled.requeue.hardRec

/-- A change of a core, in what may change the spares. -/
theorem respared {n : Nat} {f : Core → Core} (h : Keeps False Q R s0 s) : Keeps False Q R s0 (s.modCore n f) := h.marked

theorem execHardFailure {core : Nat} (h : Keeps False False False s0 s) : Runs N s0 (Machine.execHardFailure core s) := by
  unfold Machine.execHardFailure
  extract_lets sps k s1 s2 used
  have h1 : Keeps False False False s0 s1 := Keeps.modCore (h.foldl fun _ _ h => h.ite h.stopSp) fun _ => rfl
  have h2 : Keeps False False False s0 s2 := h1.foldl fun _ _ h => h.rollbackSp.modSp
  split
  · exact h.next
  · split
    · exact h1.next
    · split
      · exact h2.respared.hardRecs.next
      · exact Keeps.next (Keeps.modCore (h2.foldl fun _ _ h => h.moveOff) fun _ => rfl)

end Keeps

end Sys2Proof.Machine

/-! SUPPORT. What each operation keeps: worlds, sweeps, Route links and the memory system. -/

namespace Sys2Proof.Machine

variable {P Q R N : Prop} {s0 s t : State}

namespace Keeps

-- many short proofs: one after another, so that they do not each take a thread and its stack
set_option Elab.async false

/-! ## Worlds -/

theorem fwWrite {colour : Nat} {a : Addr} {bs : List Byte} (h : Keeps P Q R s0 s) : Keeps P Q R s0 (s.fwWrite colour a bs) := h.passWr.wrHome

theorem fwCap {colour : Nat} {a : Addr} {k : Cap} (h : Keeps P Q R s0 s) : Keeps P Q R s0 (s.fwCap colour a k) := h.passWr.wrCap

theorem popReq {r : WReq} (h : Keeps P Q R s0 s) : Keeps P Q R s0 (s.popReq r) := by
  unfold State.popReq
  split
  · exact h.passRd.passWr.consume
  · exact h

theorem wstat {r : WReq} {v : Word} (h : Keeps P Q R s0 s) : Keeps P Q R s0 (s.wstat r v) := by
  unfold State.wstat
  split
  · exact h.post32
  · exact h

theorem refuseReq {r : WReq} {code : Nat} (h : Keeps P Q R s0 s) : Keeps P Q R s0 (s.refuseReq r code) := h.wstat.record

theorem readBlk {r : WReq} {n : Nat} (h : Keeps P Q R s0 s) : Keeps P Q R s0 (s.readBlk r n) := by
  unfold State.readBlk
  split
  · exact h.passRd
  · exact h

theorem excludeWindows (h : Keeps P Q R s0 s) : Keeps P Q R s0 s.excludeWindows := h.parts

theorem useNonce {r : WReq} {code : Nat} (h : Keeps P Q R s0 s) : Keeps P Q R s0 (s.useNonce r code) := by
  unfold State.useNonce
  split
  · exact h.parts
  · exact h

theorem reqAwaits {r : WReq} (h : Keeps P Q R s0 s) : KeepsIn P Q R s0 (fun x => x) (s.reqAwaits r) := by
  unfold State.reqAwaits
  split
  · exact h.awaits
  · exact KeepsIn.none

theorem takeReq {r : WReq} {op : Nat} {k : State → State} (h : Keeps False False False s0 s)
    (hk : ∀ t, Keeps False False False s0 t → Keeps False False False s0 (k t)) : Runs N s0 (takeReq r op s k) := by
  unfold Machine.takeReq
  dsimp only
  split
  · split
    · exact h.next
    · split
      · exact (h.reqAwaits _ ‹_›).next
      · split
        · refine (Keeps.useNonce ?_).refuseReq.next
          split
          · exact h.popReq.readBlk.excludeWindows
          · exact h.popReq.readBlk
        · refine (hk _ ?_).next
          split
          · exact h.popReq.readBlk.excludeWindows
          · exact h.popReq.readBlk
  · split
    · exact h.next
    · split
      · exact (h.reqAwaits _ ‹_›).next
      · split
        · refine (Keeps.useNonce ?_).refuseReq.next
          split
          · exact h.popReq.readBlk.excludeWindows
          · exact h.popReq.readBlk
        · refine (hk _ ?_).next
          split
          · exact h.popReq.readBlk.excludeWindows
          · exact h.popReq.readBlk

theorem doneReq {r : WReq} (h : Keeps P Q False s0 s) : Keeps P Q False s0 (s.doneReq r) := h.modWorld.wstat

theorem writeRoots {c : Nat} {w : World} (h : Keeps P Q R s0 s) : Keeps P Q R s0 (s.writeRoots c w) := (h.fwCap.foldl fun _ _ h => h.fwCap).fwCap

theorem zeroCounters {c : Nat} (h : Keeps P Q R s0 s) : Keeps P Q R s0 (s.zeroCounters c) := h.parts

theorem newWorld {r : WReq} {mode : WorldMode} (h : Keeps False Q False s0 s) : Keeps False Q False s0 (s.newWorld r mode) :=
  Keeps.writeRoots (Keeps.parts (Keeps.zeroCounters h.settled))

theorem execFormReq {r : WReq} (h : Keeps False False False s0 s) : Runs N s0 (execFormReq r s) := by
  unfold Machine.execFormReq
  split
  · split
    · exact h.modWorld.doneReq.next
    · exact h.next
  · refine h.takeReq (fun _ h => ?_)
    split
    · exact h.newWorld.modWorld
    · exact h.newWorld.doneReq

theorem execGrantReq {r : WReq} (h : Keeps False False False s0 s) : Runs N s0 (execGrantReq r s) :=
  h.takeReq (fun _ h => (h.foldl fun _ _ h1 => h1.modSp).doneReq)

theorem quenchBank {core b : Nat} (h : Keeps P Q R s0 s) : Keeps P Q R s0 (s.quenchBank core b) := h.zeroRange.parts

theorem setFence {core b f : Nat} (h : Keeps P Q R s0 s) : Keeps P Q R s0 (s.setFence core b f) := h.modCore fun _ => rfl

theorem execFenceRequest {r : WReq} (h : Keeps False False False s0 s) : Runs N s0 (execFenceRequest r s) := by
  unfold Machine.execFenceRequest
  refine h.takeReq (fun _ h => (h.foldl fun _ _ h1 => ?_).doneReq)
  split
  · exact h1.setFence
  · exact h1.quenchBank.setFence

theorem quenchSp {p : Nat} (h : Keeps P Q R s0 s) : Keeps P Q R s0 (s.quenchSp p) := (h.foldl fun _ _ h => h.zeroRange).modSp

theorem freeSps {ps : List Nat} (h : Keeps P Q R s0 s) : Keeps P Q R s0 (s.freeSps ps) :=
  h.foldl fun _ _ h => (h.quenchSp.foldl fun _ _ h1 => h1.quenchBank.setFence).modSp

theorem stopSps {ps : List Nat} (h : Keeps P Q False s0 s) : Keeps P Q False s0 (s.stopSps ps) := by
  unfold State.stopSps
  refine h.foldl fun _ _ h => ?_
  split
  · exact h
  · exact h.stopSp

theorem saveSps {ps : List Nat} (h : Keeps P False False s0 s) : Keeps P False False s0 (s.saveSps ps) := by
  unfold State.saveSps
  dsimp only
  refine ((h.foldl fun _ _ h => h.rollbackSp.modSp).foldl fun _ _ h => ?_).foldl fun _ _ h => h.sealBanks
  split
  · exact h.saveRolled.requeue
  · exact h

theorem execReleaseReq {r : WReq} (h : Keeps False False False s0 s) : Runs N s0 (execReleaseReq r s) := by
  unfold Machine.execReleaseReq
  dsimp only
  split
  · split
    · exact h.saveSps.freeSps.doneReq.next
    · exact h.next
  · refine h.takeReq (fun _ h => ?_)
    split
    · exact h.stopSps.modWorld.saveSps.freeSps.doneReq
    · exact h.stopSps.modWorld

theorem flushPool {c : Nat} (h : Keeps P Q R s0 s) : Keeps P Q R s0 (s.flushPool c) := h.writeBack

theorem dirtyReport {r : WReq} {n : Nat} (h : Keeps P Q False s0 s) : Keeps P Q False s0 (s.dirtyReport r n) := by
  unfold State.dirtyReport
  split
  · exact h
  · exact h.fwWrite.modWorld

theorem releaseHalts {c : Nat} (h : Keeps P False R s0 s) : Keeps P False R s0 (s.releaseHalts c) :=
  (h.foldl fun _ _ h => h.modSp).convoys.foldl fun _ _ h => h.noteRun

theorem endLaunches {c : Nat} (h : Keeps P Q R s0 s) : Keeps P Q R s0 (s.endLaunches c) := by
  unfold State.endLaunches
  refine h.foldl fun _ _ h => (Keeps.foldl ?_ fun _ _ h1 => h1.dropWg).freeSlots.parts
  split
  · refine (Keeps.foldl ?_ fun _ _ h => h.record).wbrej
    split
    · exact h.breakSlots
    · exact h
  · refine (Keeps.foldl ?_ fun _ _ h => h.record).completion.record
    split
    · exact h.breakSlots
    · exact h

theorem beginStop {r : WReq} (h : Keeps P Q False s0 s) : Keeps P Q False s0 (s.beginStop r) := h.stopSps.modWorld

theorem endStop {r : WReq} {n : Nat} (h : Keeps P False False s0 s) : Keeps P False False s0 (s.endStop r n) := by
  unfold State.endStop
  dsimp only
  refine (Keeps.wstat ?_).modWorld
  split
  · refine Keeps.flushPool ?_
    split
    · exact h.saveSps
    · exact h.saveSps.endLaunches
  · refine (Keeps.flushPool ?_).dirtyReport
    split
    · exact h.saveSps
    · exact h.saveSps.endLaunches

theorem execStopReq {r : WReq} (h : Keeps False False False s0 s) : Runs N s0 (execStopReq r s) := by
  unfold Machine.execStopReq
  dsimp only
  split
  · split
    · split
      · exact h.endStop.modWorld.next
      · exact h.next
    · exact h.next
  · refine h.takeReq (fun _ h => ?_)
    split
    · exact h.beginStop.endStop.modWorld
    · exact h.beginStop

theorem eraseKey {c : Nat} (h : Keeps P Q R s0 s) : Keeps P Q R s0 (s.eraseKey c) := by
  unfold State.eraseKey
  split
  · exact h
  · exact (h.foldl fun _ _ h => h.markPages).parts

theorem noticeAll {c : Nat} {m : Nat → OutMsg} (h : Keeps P Q False s0 s) : Keeps P Q False s0 (s.noticeAll c m) :=
  (h.foldl fun _ _ h => h.send).modWorld

theorem retagBindings {c : Nat} (h : Keeps P Q R s0 s) : Keeps P Q R s0 (s.retagBindings c) := h.parts

theorem advanceGen {r : WReq} (h : Keeps False Q False s0 s) : Keeps False Q False s0 (s.advanceGen r) := by
  unfold State.advanceGen
  split
  · exact h
  · extract_lets c g s1 s2
    have h1 : Keeps False Q False s0 s1 := h.marked
    have h2 : Keeps False Q False s0 s2 := h1.eraseKey.ite h1
    exact h2.modWorld.writeRoots.retagBindings

theorem execResetReq {r : WReq} (h : Keeps False False False s0 s) : Runs N s0 (execResetReq r s) := by
  unfold Machine.execResetReq
  dsimp only
  split
  · split
    · split
      · split
        · split
          · exact h.endStop.noticeAll.count.advanceGen.doneReq.next
          · exact h.endStop.noticeAll.count.next
        · exact h.endStop.noticeAll.count.next
      · exact h.next
    · split
      · split
        · exact h.advanceGen.doneReq.next
        · exact h.next
      · exact h.next
  · refine h.takeReq (fun _ h => ?_)
    split
    · split
      · split
        · exact h.releaseHalts.beginStop.endStop.noticeAll.count.advanceGen.doneReq
        · exact h.releaseHalts.beginStop.endStop.noticeAll.count
      · exact h.releaseHalts.beginStop.endStop.noticeAll.count
    · exact h.releaseHalts.beginStop

theorem departQuench {c : Nat} (h : Keeps P Q R s0 s) : Keeps P Q R s0 (s.departQuench c) := h.freeSps.parts

theorem freePeer {c q : Nat} (h : Keeps P Q False s0 s) : Keeps P Q False s0 (s.freePeer c q) := h.modWorld.parts.record

theorem freeGone {c : Nat} (h : Keeps P Q False s0 s) : Keeps P Q False s0 (s.freeGone c) := by
  unfold State.freeGone
  split
  · exact h
  · exact h.foldl fun _ _ h => h.freePeer

theorem endDepart {r : WReq} (h : Keeps False Q False s0 s) : Keeps False Q False s0 (s.endDepart r) := Keeps.wstat h.settled

theorem execDepartReq {r : WReq} (h : Keeps False False False s0 s) : Runs N s0 (execDepartReq r s) := by
  unfold Machine.execDepartReq
  dsimp only
  split
  · split
    · split
      · split
        · split
          · exact h.endStop.modWorld.departQuench.eraseKey.noticeAll.modWorld.freeGone.endDepart.next
          · exact h.endStop.modWorld.departQuench.eraseKey.noticeAll.modWorld.freeGone.next
        · exact h.endStop.modWorld.departQuench.eraseKey.noticeAll.modWorld.freeGone.next
      · exact h.next
    · split
      · split
        · exact h.freeGone.endDepart.next
        · exact h.freeGone.next
      · exact h.freeGone.next
  · refine h.takeReq (fun _ h => ?_)
    split
    · split
      · split
        · exact h.releaseHalts.beginStop.endStop.modWorld.departQuench.eraseKey.noticeAll.modWorld.freeGone.endDepart
        · exact h.releaseHalts.beginStop.endStop.modWorld.departQuench.eraseKey.noticeAll.modWorld.freeGone
      · exact h.releaseHalts.beginStop.endStop.modWorld.departQuench.eraseKey.noticeAll.modWorld.freeGone
    · exact h.releaseHalts.beginStop

theorem freePeers {old : State} {s : State} (h : Keeps P Q False s0 old) (hs : Keeps P Q False s0 s) : Keeps P Q False s0 (old.freePeers s) := by
  unfold State.freePeers
  refine hs.foldl fun _ _ h => ?_
  split
  · exact h.freePeer
  · exact h

theorem execRouteReq {r : WReq} (h : Keeps False False False s0 s) : Runs N s0 (execRouteReq r s) := by
  unfold Machine.execRouteReq
  dsimp only
  split
  · exact h.next
  · exact h.takeReq (fun _ h => (h.freePeers h.parts).doneReq)

theorem openWindow {r : WReq} (h : Keeps P Q False s0 s) : Keeps P Q False s0 (s.openWindow r) := h.modWorld.parts

theorem closeWindow {r : WReq} (h : Keeps P Q False s0 s) : Keeps P Q False s0 (s.closeWindow r) := by
  unfold State.closeWindow
  split
  · exact h
  · exact h.modWorld.parts.wstat

theorem execUnlockReq {r : WReq} (h : Keeps False False False s0 s) : Runs N s0 (execUnlockReq r s) := by
  unfold Machine.execUnlockReq
  split
  · exact h.closeWindow.next
  · exact h.takeReq (fun _ h => h.openWindow)

theorem execRelockReq {r : WReq} (h : Keeps False False False s0 s) : Runs N s0 (execRelockReq r s) := by
  unfold Machine.execRelockReq
  refine h.takeReq (fun _ h => (Keeps.foldl ?_ fun _ _ h1 => h1.releaseHalts).doneReq)
  split
  · exact h.parts
  · exact h

theorem execAttestReq {r : WReq} (h : Keeps False False False s0 s) : Runs N s0 (execAttestReq r s) := by
  unfold Machine.execAttestReq
  refine h.takeReq (fun _ h => ?_)
  split
  · exact h
  · exact h.fwWrite.doneReq

theorem execNonceReq {r : WReq} (h : Keeps False False False s0 s) : Runs N s0 (execNonceReq r s) :=
  h.takeReq (fun _ h => h.bump.parts.fwWrite.doneReq)

theorem execImageReq {r : WReq} (h : Keeps False False False s0 s) : Runs N s0 (execImageReq r s) := by
  unfold Machine.execImageReq
  refine h.takeReq (fun _ h => ?_)
  split
  · exact h
  · exact h.bump.fwWrite.doneReq

theorem execModeReq {r : WReq} (h : Keeps False False False s0 s) : Runs N s0 (Machine.execModeReq r s) :=
  h.takeReq fun _ h => Keeps.doneReq h.marked

theorem execConsentReq {r : WReq} (h : Keeps False False False s0 s) : Runs N s0 (execConsentReq r s) :=
  h.takeReq (fun _ h => h.modWorld.doneReq)

theorem execWithdrawReq {r : WReq} (h : Keeps False False False s0 s) : Runs N s0 (execWithdrawReq r s) :=
  h.takeReq (fun _ h => h.modWorld.releaseHalts.doneReq)

/-! ## Sweeps -/

theorem sweepDieOf {die : Nat} {es : List RevEntry} (h : Keeps P False R s0 s) : Keeps P False R s0 (s.sweepDieOf die es) :=
  (h.foldl fun _ _ h => h.drainSp).restored (fun hs => storeWf_of_tags_filter hs rfl rfl) rfl (fun _ => rfl) False.elim fun _ => rfl

theorem execSweepBeginTimer {n : Nat} (h : Keeps False False False s0 s) : Runs N s0 (execSweepBeginTimer n s) := by
  unfold Machine.execSweepBeginTimer
  split
  · exact h.next
  · split
    · exact h.beginPass.next
    · exact h.next

theorem execSweepEngineFinish {die n : Nat} (h : Keeps False False False s0 s) : Runs N s0 (execSweepEngineFinish die n s) := by
  unfold Machine.execSweepEngineFinish
  split
  · exact h.next
  · split
    · exact h.sweepDieOf.modPass.next
    · exact h.next

theorem sweepSig {x : Cap × Nat} {n : Nat} (h : Keeps P Q R s0 s) : Keeps P Q R s0 (s.sweepSig x n) := by
  unfold State.sweepSig
  dsimp only
  split
  · exact h.send
  · split
    · exact h.logWrite.post32.post32
    · exact h.logWrite.post32

theorem execPassClose (h : Keeps False False False s0 s) : Runs N s0 (execPassClose s) := by
  unfold Machine.execPassClose
  split
  · exact h.next
  · split
    · exact h.next
    · dsimp only
      refine (Keeps.convoys ?_).next
      split
      · exact (h.parts.foldl fun _ _ h => h.sweepSig).send
      · exact h.parts.foldl fun _ _ h => h.sweepSig

theorem execPassOpenTimer {n : Nat} (h : Keeps False False False s0 s) : Runs N s0 (execPassOpenTimer n s) := by
  unfold Machine.execPassOpenTimer
  split
  · exact h.next
  · split
    · exact h.modPass.record.next
    · exact h.next

theorem openRecall {m : RecallMsg} (h : Keeps P Q R s0 s) : Keeps P Q R s0 (s.openRecall m) := h.parts.foldl fun _ _ h => h.addEntry

theorem execRecallReceive {m : RecallMsg} (h : Keeps False False False s0 s) : Runs N s0 (execRecallReceive m s) := by
  unfold Machine.execRecallReceive
  refine h.onPort (fun _ h => ?_)
  split
  · exact h.parts
  · exact h.openRecall

theorem execRecallAckReceive {m : Arrival} {n : Nat} (h : Keeps False False False s0 s) : Runs N s0 (execRecallAckReceive m n s) := by
  unfold Machine.execRecallAckReceive
  refine (h.once (fun _ h => ?_)).next
  split
  · exact h.modPass
  · exact h.modWorld

/-! ## Route links -/

theorem putGranule {colour a : Addr} {k : Cap} (h : Keeps P Q R s0 s) : Keeps P Q R s0 (s.putGranule colour a k) :=
  h.wakeRange.logWrite.passWr.wrCaps

theorem baleRef (h : Keeps P Q R s0 s) : Keeps P Q R s0 s.baleRef := h.record

theorem landBale {m : BaleMsg} (h : Keeps P Q R s0 s) : Keeps P Q R s0 (s.landBale m) := by
  unfold State.landBale
  dsimp only
  split
  · exact h
  · split
    · refine Keeps.baleRef ?_
      split
      · exact h.putGranule
      · exact h
    · refine Keeps.count ?_
      split
      · exact h.putGranule
      · exact h

theorem atPort {i : Held} {serve : State → Option State} {wake : State → State} (h : Keeps P Q R s0 s)
    (hserve : ∀ t, Keeps P Q R s0 t → KeepsIn P Q R s0 (fun x => x) (serve t)) (hwake : ∀ t, Keeps P Q R s0 t → Keeps P Q R s0 (wake t)) :
    Keeps P Q R s0 (s.atPort i serve wake) := by
  unfold State.atPort
  split
  · exact h.parts
  · split
    · exact hserve _ h _ ‹_›
    · exact (hwake _ h).parts

theorem wakeRanges {rd wr : List (Addr × Nat)} (h : Keeps P Q R s0 s) : Keeps P Q R s0 (s.wakeRanges rd wr) := h.awaits.getD h

theorem serveBale {m : BaleMsg} (h : Keeps P Q R s0 s) : KeepsIn P Q R s0 (fun x => x) (s.serveBale m) := by
  unfold State.serveBale
  split
  · exact KeepsIn.none
  · exact KeepsIn.some h.landBale

theorem execBaleReceive {m : BaleMsg} (h : Keeps False False False s0 s) : Runs N s0 (execBaleReceive m s) :=
  h.onPort (fun _ h => h.atPort (fun _ h1 => h1.serveBale) (fun _ h1 => h1.wakeRanges))

theorem serveCommand {m : RemoteCmdMsg} (h : Keeps P Q R s0 s) : Keeps P Q R s0 (s.serveCommand m) := by
  unfold State.serveCommand
  split
  · exact h.send
  · exact h.nextId.parts.takeEntries

theorem execRemoteCommandReceive {m : RemoteCmdMsg} (h : Keeps False False False s0 s) : Runs N s0 (execRemoteCommandReceive m s) :=
  h.onPort (fun _ h => h.atPort (fun _ h1 => KeepsIn.some h1.serveCommand) (fun _ h1 => h1))

theorem dropHeld {m : RemoteCmdMsg} (h : Keeps P Q R s0 s) : Keeps P Q R s0 (s.dropHeld m) := h.parts

theorem execRemoteCancelReceive {m : RemoteCmdMsg} (h : Keeps False False False s0 s) : Runs N s0 (execRemoteCancelReceive m s) := by
  unfold Machine.execRemoteCancelReceive
  refine h.onPort (fun _ h => Keeps.send ?_)
  split
  · exact h.dropHeld.cancel
  · exact h.dropHeld

theorem execRemoteCancelAckReceive {a : CancelAck} (h : Keeps False False False s0 s) : Runs N s0 (execRemoteCancelAckReceive a s) := by
  unfold Machine.execRemoteCancelAckReceive
  refine (h.once (fun _ h => ?_)).next
  split
  · exact h
  · split
    · exact h.dropCmd
    · exact h

theorem reply {m : RemoteAccMsg} {status : Nat} {bytes : List Byte} (h : Keeps P Q R s0 s) : Keeps P Q R s0 (s.reply m status bytes) := h.send

theorem noteSlots {m : RemoteAccMsg} {l : List (BitVec 128 × Bool)} (h : Keeps P Q R s0 s) : Keeps P Q R s0 (s.noteSlots m l) := by
  unfold State.noteSlots
  refine h.foldl fun _ _ h => ?_
  split
  · exact h.count
  · exact h.baleRef

theorem peerPush {x : Nat} {m : RemoteAccMsg} {slots : List (BitVec 128 × Bool)} {nb : Bool} (h : Keeps P Q R s0 s) :
    KeepsIn P Q R s0 (fun x => x) (s.peerPush x m slots nb) := by
  unfold State.peerPush
  dsimp only
  split
  · exact KeepsIn.some h.reply
  · split
    · exact KeepsIn.some h.readLines.reply
    · split
      · exact KeepsIn.some h.headerFault.reply
      · split
        · exact KeepsIn.some (h.onHeader (fun _ h => h.qerr)).reply
        · split
          · split
            · exact KeepsIn.some h.reply
            · exact KeepsIn.none
          · split
            · exact KeepsIn.some h.reply
            · split
              · exact KeepsIn.none
              · exact KeepsIn.some (((h.onQueue (fun _ h => h.qreserve)).onQueue (fun _ h => h.qfill)).noteSlots.onHeader (fun _ h => h.qpublish)).reply

theorem peerPop {x : Nat} {m : RemoteAccMsg} {nb : Bool} {fuel : Nat} (h : Keeps P Q R s0 s) :
    KeepsIn P Q R s0 (fun x => x) (State.peerPop x m nb fuel s) := by
  induction fuel generalizing s with
  | zero => exact KeepsIn.none
  | succ fuel ih =>
    unfold State.peerPop
    extract_lets k b hd ag f a free r
    have hfree (n : Nat) {t : State} (ht : Keeps P Q R s0 t) : Keeps P Q R s0 (free n t) := ht.onHeader fun _ h => h.consume
    split
    · exact KeepsIn.some h.reply
    · split
      · exact KeepsIn.some h.readLines.reply
      · split
        · exact KeepsIn.some h.headerFault.reply
        · split
          · split
            · exact KeepsIn.some h.reply
            · exact KeepsIn.none
          · split
            · exact KeepsIn.none
            · split
              · exact ih (hfree _ (h.onHeader fun _ h => h.qerr))
              · split
                · exact ih (hfree _ h)
                · split
                  · exact KeepsIn.some h.reply
                  · exact KeepsIn.some (Keeps.reply (hfree _ h.readLines))

theorem endAccess {ag : Agent} {k : Cap} {w : Reach} {m : RemoteAccMsg} {refuse : State → Nat → Addr → State} (h : Keeps P Q R s0 s)
    (hrefuse : ∀ t n x, Keeps P Q R s0 t → Keeps P Q R s0 (refuse t n x)) : KeepsIn P Q R s0 (fun x => x) (s.endAccess ag k w m refuse) := by
  unfold State.endAccess
  dsimp only
  split
  · split
    · exact KeepsIn.some (hrefuse _ _ _ h.extentRec)
    · split
      · exact KeepsIn.some (hrefuse _ _ _ h)
      · split
        · exact KeepsIn.none
        · exact KeepsIn.some h.readLines.reply
  · split
    · exact KeepsIn.some (hrefuse _ _ _ h.extentRec)
    · split
      · exact KeepsIn.some (hrefuse _ _ _ h)
      · split
        · exact KeepsIn.none
        · exact KeepsIn.some h.writeRange.reply
  · split
    · exact KeepsIn.some (hrefuse _ _ _ h.extentRec)
    · split
      · split
        · exact KeepsIn.some (hrefuse _ _ _ h)
        · split
          · exact KeepsIn.none
          · exact KeepsIn.some h.rmw.reply
      · split
        · exact KeepsIn.some (hrefuse _ _ _ h)
        · split
          · exact KeepsIn.none
          · exact KeepsIn.some h.rmw.reply
  · split
    · exact KeepsIn.some (hrefuse _ _ _ h.extentRec)
    · split
      · exact KeepsIn.some (hrefuse _ _ _ h)
      · split
        · exact KeepsIn.none
        · exact KeepsIn.some (h.nmcFlush.updateLine (fun _ h => h)).reply
  · exact KeepsIn.none
  · exact KeepsIn.none
  · exact KeepsIn.none
  · exact KeepsIn.none
  · exact KeepsIn.none

theorem peerAccess {x : Nat} {m : RemoteAccMsg} (h : Keeps P Q R s0 s) : KeepsIn P Q R s0 (fun x => x) (s.peerAccess x m) := by
  unfold State.peerAccess
  split
  · exact h.endAccess (fun _ _ _ h => h.reply)
  · exact h.endAccess (fun _ _ _ h => h.reply)
  · exact h.endAccess (fun _ _ _ h => h.reply)
  · exact KeepsIn.some h.reply
  · exact KeepsIn.some h.reply
  · exact KeepsIn.some h.reply
  · exact h.peerPush
  · exact h.peerPop
  · dsimp only
    split
    · exact KeepsIn.some h.reply
    · split
      · exact KeepsIn.some h.readLines.reply
      · split
        · exact KeepsIn.some h.headerFault.reply
        · exact KeepsIn.some h.reply

theorem accessHere {k : Nat} {m : RemoteAccMsg} (h : Keeps P Q R s0 s) : KeepsIn P Q R s0 (fun x => x) (s.localAccess k m) := by
  unfold State.localAccess
  split
  · exact KeepsIn.some h
  · split
    · split
      · exact KeepsIn.some h.refuseRemote
      · exact KeepsIn.some h
    · exact KeepsIn.some h.modCmd
    · exact h.wakeRange.endAccess (fun _ _ _ h => h.refuseRemote)

theorem serveAccess {m : RemoteAccMsg} (h : Keeps P Q R s0 s) : KeepsIn P Q R s0 (fun x => x) (s.serveAccess m) := by
  unfold State.serveAccess
  dsimp only
  split
  · split
    · exact h.accessHere
    · exact KeepsIn.none
  · exact KeepsIn.some h.reply
  · split
    · exact h.peerAccess
    · exact KeepsIn.none

theorem execRemoteAccessReceive {m : RemoteAccMsg} (h : Keeps False False False s0 s) : Runs N s0 (execRemoteAccessReceive m s) :=
  h.onPort (fun _ h => h.atPort (fun _ h1 => h1.serveAccess) (fun _ h1 => h1.wakeRanges))

theorem execDepartureNoticeReceive {port : Nat} {x : PeerStream} {seq : Nat} (h : Keeps False False False s0 s) :
    Runs N s0 (execDepartureNoticeReceive port x seq s) :=
  h.onPort (fun _ h => h.modPort.record.send)

theorem execDepartureNoticeAckReceive {x : PeerStream} {seq : Nat} (h : Keeps False False False s0 s) :
    Runs N s0 (execDepartureNoticeAckReceive x seq s) :=
  (h.once (fun _ h => h.modWorld)).next

theorem execPodBarrierArrivalReceive {x : PeerStream} {seq join : Nat} (h : Keeps False False False s0 s) :
    Runs N s0 (execPodBarrierArrivalReceive x seq join s) := by
  unfold Machine.execPodBarrierArrivalReceive
  refine (h.once (fun _ h => ?_)).next
  split
  · exact h
  · split
    · exact h
    · split
      · exact h.parts
      · exact h.parts.releaseBar

theorem execPodCollectiveContributionReceive {m : PodClxMsg} (h : Keeps False False False s0 s) :
    Runs N s0 (execPodCollectiveContributionReceive m s) := by
  unfold Machine.execPodCollectiveContributionReceive
  refine (h.once (fun _ h => ?_)).next
  split
  · exact h
  · exact h.parts

theorem linkNote (h : Keeps P Q R s0 s) : Keeps P Q R s0 s.linkNote := h.record

theorem reroute (h : Keeps P Q R s0 s) : Keeps P Q R s0 s.reroute := h.parts

theorem portDown {port : Nat} (h : Keeps P Q R s0 s) : Keeps P Q R s0 (s.portDown port) := h.modPort.linkNote.parts.reroute

theorem portUp {port peer : Nat} {key : BitVec 256} {signed sealedKey : BitVec 4096} (h : Keeps P Q R s0 s) :
    Keeps P Q R s0 (s.portUp port peer key signed sealedKey) :=
  h.modPort.parts.reroute

theorem beginRetrain {port : Nat} (h : Keeps P Q R s0 s) : Keeps P Q R s0 (s.beginRetrain port) := h.modPort.linkNote

theorem execFlitTagFail {port colour : Nat} (h : Keeps False False False s0 s) : Runs N s0 (execFlitTagFail port colour s) := by
  unfold Machine.execFlitTagFail
  split
  · exact h.next
  · dsimp only
    split
    · exact h.count.modPort.modPort.next
    · exact h.count.modPort.beginRetrain.next

theorem execLinkTraining {port peer : Nat} {m : TrainMsg} (h : Keeps False False False s0 s) : Runs N s0 (execLinkTraining port peer m s) := by
  unfold Machine.execLinkTraining
  split
  · exact h.next
  · split
    · exact h.bump.portUp.next
    · split
      · exact h.bump.portDown.next
      · exact h.bump.next

theorem execRetrainTimeout {port : Nat} (h : Keeps False False False s0 s) : Runs N s0 (execRetrainTimeout port s) := by
  unfold Machine.execRetrainTimeout
  split
  · split
    · exact h.portDown.next
    · exact h.next
  · split
    · exact h.beginRetrain.next
    · exact h.next

theorem strand {k : Nat} {m : Cmd} {q : Nat} (h : Keeps P Q R s0 s) : Keeps P Q R s0 (s.strand k m q) := by
  unfold State.strand
  dsimp only
  split
  · exact h
  · split
    · split
      · exact h.record.finish
      · exact h.refuseCmd
    · exact h.record.dropCmd
    · exact h
    · exact h
    · exact h
    · exact h

theorem strandWait {c : Nat} {v : Convoy} {q : Nat} (h : Keeps P False False s0 s) : Keeps P False False s0 (s.strandWait c v q) := by
  unfold State.strandWait
  split
  · split
    · exact h.takeAck
    · exact h
  · exact h

theorem execUnreachableTimeout {peer : Nat} (h : Keeps False False False s0 s) : Runs N s0 (execUnreachableTimeout peer s) := by
  unfold Machine.execUnreachableTimeout
  dsimp only
  split
  · exact h.next
  · exact ((h.parts.foldl fun _ _ h => h.strand).foldl fun _ _ h => h.strandWait).parts.next

theorem execRoutemSwitch {peer colour : Nat} (h : Keeps False False False s0 s) : Runs N s0 (execRoutemSwitch peer colour s) := by
  unfold Machine.execRoutemSwitch
  split
  · exact h.next
  · exact h.parts.reroute.next

theorem refuseTraffic {q : Nat} (h : Keeps P False False s0 s) : Keeps P False False s0 (s.refuseTraffic q) := by
  unfold State.refuseTraffic
  dsimp only
  refine ((h.foldl fun _ _ h => ?_).foldl fun _ _ h => ?_).parts
  · split
    · exact h.noRoute.strand
    · exact h
  · split
    · exact h.strandWait
    · exact h

theorem writeRoutem {q : Nat} {v : Word} (h : Keeps P False False s0 s) : Keeps P False False s0 (s.writeRoutem q v) := by
  unfold State.writeRoutem
  dsimp only
  refine (Keeps.parts ?_).reroute
  split
  · exact h.parts.refuseTraffic
  · exact h

/-! ## The memory system -/

theorem execBankSetIdleP1 {g : Nat} (h : Keeps False False False s0 s) : Runs N s0 (execBankSetIdleP1 g s) := by
  unfold Machine.execBankSetIdleP1
  split
  · exact h.modBank.next
  · exact h.next

theorem execBankSetIdleP2 {g : Nat} (h : Keeps False False False s0 s) : Runs N s0 (execBankSetIdleP2 g s) := by
  unfold Machine.execBankSetIdleP2
  split
  · exact h.modBank.next
  · exact h.next

theorem settlePosted {g : Nat} (h : Keeps P Q R s0 s) : Keeps P Q R s0 (s.settlePosted g) := by
  unfold State.settlePosted
  dsimp only
  refine h.parts.foldl fun _ _ h => ?_
  split
  · exact h.post32
  · exact h.blockStatus
  · split
    · exact h.deliver.record
    · exact h.deliver

theorem execBankSetWakeDone {g : Nat} (h : Keeps False False False s0 s) : Runs N s0 (execBankSetWakeDone g s) := by
  unfold Machine.execBankSetWakeDone
  split
  · exact h.next
  · split
    · exact h.modBank.countWake.settlePosted.next
    · exact h.next

theorem execPmapAllocWrite {g : Nat} {val : Word} (h : Keeps False False False s0 s) : Runs N s0 (execPmapAllocWrite g val s) := by
  unfold Machine.execPmapAllocWrite
  split
  · exact h.setPmap.next
  · exact h.next

theorem execPoolDirtyTimeout {line : Nat} (h : Keeps False False False s0 s) : Runs N s0 (execPoolDirtyTimeout line s) := by
  unfold Machine.execPoolDirtyTimeout
  dsimp only
  split
  · exact h.writeBack.next
  · exact h.next

theorem execBackInvalidateSnoop {line : Nat} (h : Keeps False False False s0 s) : Runs N s0 (execBackInvalidateSnoop line s) := h.writeBack.next

theorem execThrottlePeriodEnd {die : Nat} (h : Keeps False False False s0 s) : Runs N s0 (execThrottlePeriodEnd die s) := by
  unfold Machine.execThrottlePeriodEnd
  split
  · exact h.next
  · exact h.parts.next

theorem execPageZeroFillDone {page : Nat} (h : Keeps False False False s0 s) : Runs N s0 (execPageZeroFillDone page s) := by
  unfold Machine.execPageZeroFillDone
  split
  · exact h.fillPages.next
  · exact h.next

theorem execScrubPage {_page : Nat} (h : Keeps False False False s0 s) : Runs N s0 (execScrubPage _page s) := h.next

theorem execMscMaskWrite {num : Nat} {val : Word} (h : Keeps False False False s0 s) : Runs N s0 (execMscMaskWrite num val s) := by
  unfold Machine.execMscMaskWrite
  split
  · exact h.writeSys.next
  · exact h.writeSys.next
  · exact h.next

theorem execMscreclWrite {val : Word} (h : Keeps False False False s0 s) : Runs N s0 (execMscreclWrite val s) := h.setRecl.next

theorem execMscreclDone (h : Keeps False False False s0 s) : Runs N s0 (execMscreclDone s) := h.endReclaim.next

theorem execMscMonitorEnable {m : Nat} {val : Word} (h : Keeps False False False s0 s) : Runs N s0 (execMscMonitorEnable m val s) := by
  unfold Machine.execMscMonitorEnable
  split
  · exact h.setMonS.next
  · exact h.next

theorem spareLine {l : Addr} (h : Keeps P Q R s0 s) : Keeps P Q R s0 (s.spareLine l) := by
  unfold State.spareLine
  split
  · exact h
  · split
    · exact h.copyLine.parts.record
    · exact h.parts

theorem execPseudoChannelSpare {stack ch : Nat} {unreadable : List Nat} (h : Keeps False False False s0 s) :
    Runs N s0 (execPseudoChannelSpare stack ch unreadable s) := by
  unfold Machine.execPseudoChannelSpare
  split
  · exact h.next
  · exact (h.foldl fun _ _ h => h.spareLine).parts.record.next

theorem execSpClockGate {spn : Nat} (h : Keeps False False False s0 s) : Runs N s0 (execSpClockGate spn s) := by
  unfold Machine.execSpClockGate
  split
  · exact h.modSp.next
  · exact h.next

theorem execSpRetention {spn : Nat} (h : Keeps False False False s0 s) : Runs N s0 (execSpRetention spn s) := by
  unfold Machine.execSpRetention
  split
  · split
    · exact (h.foldl fun _ _ h => h.zeroRange).modSp.next
    · exact h.next
  · split
    · exact h.modSp.next
    · exact h.next

theorem execClockChange {die mhz : Nat} (h : Keeps False False False s0 s) : Runs N s0 (execClockChange die mhz s) := by
  unfold Machine.execClockChange
  split
  · exact h.parts.next
  · exact h.next

theorem thermalBegin {c : Nat} (h : Keeps P False False s0 s) : Keeps P False False s0 (s.thermalBegin c) :=
  h.releaseHalts.stopSps.modWorld.parts

theorem thermalEnd {c : Nat} (h : Keeps P False False s0 s) : Keeps P False False s0 (s.thermalEnd c) := by
  unfold State.thermalEnd
  dsimp only
  refine Keeps.parts ?_
  split
  · split
    · refine Keeps.wstat ?_
      split
      · split
        · refine Keeps.flushPool ?_
          split
          · split
            · exact h.saveSps.endLaunches
            · exact h.saveSps
          · split
            · exact h.saveSps.endLaunches
            · exact h.saveSps
        · refine (Keeps.flushPool ?_).dirtyReport
          split
          · split
            · exact h.saveSps.endLaunches
            · exact h.saveSps
          · split
            · exact h.saveSps.endLaunches
            · exact h.saveSps
      · split
        · split
          · refine Keeps.flushPool ?_
            split
            · split
              · exact h.saveSps.endLaunches
              · exact h.saveSps
            · split
              · exact h.saveSps.endLaunches
              · exact h.saveSps
          · refine (Keeps.flushPool ?_).dirtyReport
            split
            · split
              · exact h.saveSps.endLaunches
              · exact h.saveSps
            · split
              · exact h.saveSps.endLaunches
              · exact h.saveSps
        · split
          · refine Keeps.flushPool ?_
            split
            · split
              · exact h.saveSps.endLaunches
              · exact h.saveSps
            · split
              · exact h.saveSps.endLaunches
              · exact h.saveSps
          · refine (Keeps.flushPool ?_).dirtyReport
            split
            · split
              · exact h.saveSps.endLaunches
              · exact h.saveSps
            · split
              · exact h.saveSps.endLaunches
              · exact h.saveSps
    · refine Keeps.flushPool ?_
      split
      · split
        · exact h.saveSps.endLaunches
        · exact h.saveSps
      · split
        · exact h.saveSps.endLaunches
        · exact h.saveSps
  · refine Keeps.flushPool ?_
    split
    · split
      · exact h.saveSps.endLaunches
      · exact h.saveSps
    · split
      · exact h.saveSps.endLaunches
      · exact h.saveSps

theorem powerOff (h : Keeps False False False s0 s) : Keeps False False False s0 s.powerOff :=
  emptied rfl fun hs => storeWf_filter (fun x => !(onchip x.1).isSome) (fun x => !(onchip x.1).isSome) (h.canonical hs)

theorem thermalSettle (h : Keeps False False False s0 s) : Keeps False False False s0 s.thermalSettle := by
  unfold State.thermalSettle
  split
  · exact h.record.powerOff
  · exact h

theorem execThermalStop {_die : Nat} (h : Keeps False False False s0 s) : Runs N s0 (execThermalStop _die s) := by
  unfold Machine.execThermalStop
  dsimp only
  refine (Keeps.foldl ?_ fun _ _ h => ?_).thermalSettle.next
  · split
    · exact h
    · exact h.parts.foldl fun _ _ h => h.thermalBegin
  · split
    · exact h.thermalEnd
    · exact h

theorem execStopTimeout {colour : Nat} (h : Keeps False False False s0 s) : Runs N s0 (execStopTimeout colour s) := by
  unfold Machine.execStopTimeout
  split
  · exact h.next
  · split
    · exact h.parts.thermalSettle.next
    · exact h.next

end Keeps

end Sys2Proof.Machine

/-! SUPPORT. What each operation keeps: the host port, boot, and the instructions that compute. -/

namespace Sys2Proof.Machine

variable {P Q R N : Prop} {s0 s t : State}

namespace Keeps

-- many short proofs: one after another, so that they do not each take a thread and its stack
set_option Elab.async false

/-! ## The host port -/

theorem answer {bs : List Byte} (h : Keeps P Q R s0 s) : Keeps P Q R s0 (s.answer bs) := h.parts

theorem readCounter {vd group n : Nat} (h : Keeps P Q False s0 s) : Keeps P Q False s0 (s.readCounter vd group n).1 := by
  unfold State.readCounter
  split
  · exact h
  · split
    · exact h
    · exact h.deny

theorem atHost {i : Held} {serve : State → Option State} (h : Keeps False False False s0 s)
    (hserve : ∀ t, Keeps False False False s0 t → KeepsIn False False False s0 (fun x => x) (serve t)) : Runs N s0 (s.atHost i serve) :=
  (h.atPort hserve (fun _ h => h)).next

theorem execCounterRead {vd group n : Nat} (h : Keeps False False False s0 s) : Runs N s0 (execCounterRead vd group n s) := by
  unfold Machine.execCounterRead
  split
  · exact h.atHost (fun _ h => KeepsIn.some h.readCounter.answer)
  · split
    · exact h.answer.next
    · exact h.next

theorem hostSys {spn num : Nat} (h : Keeps P Q False s0 s) : Keeps P Q False s0 (s.hostSys spn num).1 := by
  unfold State.hostSys
  split
  · exact h
  · split
    · exact h
    · split
      · exact h
      · exact h
      · dsimp only
        refine Keeps.denyFor ?_
        split
        · exact h.wakeSp
        · exact h

theorem hostSysWrite {spn num : Nat} {v : Word} (h : Keeps P False R s0 s) : Keeps P False R s0 (s.hostSysWrite spn num v) := by
  unfold State.hostSysWrite
  split
  · exact h
  · split
    · split
      · split
        · exact h.wakeSp.modConvoy
        · exact h
      · exact h
    · split
      · split
        · exact h.wakeSp.setBwphase
        · exact h
      · exact h
    · split
      · exact h.wakeSp.setAcprog
      · exact h
    · split
      · exact h
      · exact h.writeSys
    · split
      · exact h.writeSys
      · exact h

theorem execBindRequest {i : Nat} (h : Keeps False False False s0 s) : Runs N s0 (execBindRequest i s) := by
  unfold Machine.execBindRequest
  split
  · exact h.atHost (fun _ h => KeepsIn.some h.putBinding)
  · exact h.next

theorem bindWrite {i o : Nat} {bs : List Byte} (h : Keeps P Q R s0 s) : Keeps P Q R s0 (s.bindWrite i o bs) := by
  unfold State.bindWrite
  dsimp only
  split
  · exact h.putBinding
  · exact h.putBinding

theorem startExtinv {v : DWord} (h : Keeps P Q R s0 s) : Keeps P Q R s0 (s.startExtinv v) := h.parts

theorem serveExtinv {v : DWord} (h : Keeps P Q R s0 s) : KeepsIn P Q R s0 (fun x => x) (s.serveExtinv v) := by
  unfold State.serveExtinv
  split
  · exact KeepsIn.none
  · exact KeepsIn.some h.startExtinv

theorem execExtinvWrite {val : DWord} (h : Keeps False False False s0 s) : Runs N s0 (execExtinvWrite val s) := by
  unfold Machine.execExtinvWrite
  split
  · exact h.next
  · exact h.atHost (fun _ h => h.serveExtinv)

theorem execExtinvDone (h : Keeps False False False s0 s) : Runs N s0 (execExtinvDone s) := h.parts.next

theorem halts {spn : Nat} (h : Keeps P False R s0 s) : Keeps P False R s0 (s.halts spn) := by
  unfold State.halts
  split
  · exact h.modSp.settleHalt
  · exact h

theorem serveHalt {spn : Nat} (h : Keeps P False R s0 s) : KeepsIn P False R s0 (fun x => x) (s.serveHalt spn) := by
  unfold State.serveHalt
  split
  · exact KeepsIn.none
  · exact KeepsIn.some h.halts

theorem postHalt {spn : Nat} (h : Keeps P False R s0 s) : Keeps P False R s0 (s.postHalt spn) := h.serveHalt.getD h.parts

theorem steps {spn : Nat} (h : Keeps P Q R s0 s) : Keeps P Q R s0 (s.steps spn) := by
  unfold State.steps
  split
  · exact h.modSp
  · exact h

theorem runs {spn : Nat} (h : Keeps P False R s0 s) : Keeps P False R s0 (s.runs spn) := by
  unfold State.runs
  split
  · exact h.modSp.noteRun
  · exact h

theorem execDbgctlHalt {spn : Nat} (h : Keeps False False False s0 s) : Runs N s0 (execDbgctlHalt spn s) := h.atHost (fun _ h => h.serveHalt)

theorem execDbgctlStep {spn : Nat} (h : Keeps False False False s0 s) : Runs N s0 (execDbgctlStep spn s) :=
  h.atHost (fun _ h => KeepsIn.some h.steps)

theorem execDbgctlRun {spn : Nat} (h : Keeps False False False s0 s) : Runs N s0 (execDbgctlRun spn s) :=
  h.atHost (fun _ h => KeepsIn.some h.runs)

theorem haltGoesOn {spn : Nat} (h : Keeps False False False s0 s) : Runs N s0 (haltGoesOn spn s) := h.settleHalt.next

theorem barWord {off : Nat} (h : Keeps P Q False s0 s) : Keeps P Q False s0 (s.barWord off).1 := by
  unfold State.barWord
  split
  · dsimp only
    exact h.hostSys
  · split
    · exact h.readCounter
    · split
      · dsimp only
        exact h
      · split
        · dsimp only
          exact h
        · split
          · dsimp only
            exact h.passRd
          · split
            · dsimp only
              exact h
            · split
              · dsimp only
                exact h
              · split
                · dsimp only
                  exact h
                · dsimp only
                  exact h

theorem barRead {off n : Nat} (h : Keeps P Q False s0 s) : Keeps P Q False s0 (s.barRead off n).1 := h.foldl_fst fun _ _ h => h.barWord

theorem serveRead {off n : Nat} (h : Keeps P Q False s0 s) : KeepsIn P Q False s0 (fun x => x) (s.serveRead off n) := by
  unfold State.serveRead
  split
  · exact KeepsIn.none
  · exact KeepsIn.some h.barRead.answer

theorem configRead {a n : Nat} (h : Keeps P Q R s0 s) : Keeps P Q R s0 (s.configRead a n) := h.answer

theorem execHostReadReceive {off n : Nat} (h : Keeps False False False s0 s) : Runs N s0 (execHostReadReceive off n s) := by
  unfold Machine.execHostReadReceive
  split
  · split
    · exact h.configRead.next
    · exact h.next
  · split
    · exact (h.atPort (fun _ h => h.serveRead) (fun _ h => h.wakeRanges)).next
    · split
      · exact h.answer.next
      · exact h.next

theorem regPut {off : Nat} {v : DWord} (h : Keeps P False R s0 s) : Keeps P False R s0 (s.regPut off v) := by
  unfold State.regPut
  split
  · exact h.hostSysWrite
  · dsimp only
    split
    · exact h.parts
    · split
      · exact h.parts
      · split
        · exact h.parts
        · split
          · exact h.startExtinv
          · split
            · split
              · refine Keeps.runs ?_
                split
                · refine Keeps.steps ?_
                  split
                  · exact h.postHalt
                  · exact h
                · split
                  · exact h.postHalt
                  · exact h
              · split
                · refine Keeps.steps ?_
                  split
                  · exact h.postHalt
                  · exact h
                · split
                  · exact h.postHalt
                  · exact h
            · exact h

theorem serveRegister {off : Nat} {v : DWord} (h : Keeps P False False s0 s) : KeepsIn P False False s0 (fun x => x) (s.serveRegister off v) := by
  unfold State.serveRegister
  split
  · split
    · exact KeepsIn.none
    · exact KeepsIn.some h.regPut
  · split
    · exact KeepsIn.some h.writeRoutem
    · exact KeepsIn.some h

theorem execRegisterWrite {off : Nat} {val : DWord} (h : Keeps False False False s0 s) : Runs N s0 (execRegisterWrite off val s) := by
  unfold Machine.execRegisterWrite
  split
  · exact h.next
  · exact h.atHost (fun _ h => h.serveRegister)

theorem serveWrite {off : Nat} {bytes : List Byte} (h : Keeps P False False s0 s) :
    KeepsIn P False False s0 (fun x => x) (s.serveWrite off bytes) := by
  unfold State.serveWrite
  split
  · exact KeepsIn.none
  · split
    · refine KeepsIn.some (h.foldl fun _ _ h => ?_)
      split
      · exact h.regPut
      · exact h
    · split
      · exact KeepsIn.some (h.foldl fun _ _ h => h.bindWrite)
      · split
        · exact KeepsIn.some h.passWr.wrBytes
        · split
          · exact KeepsIn.some (h.foldl fun _ _ h => h.writeRoutem)
          · exact KeepsIn.some h

theorem execHostWriteReceive {off : Nat} {bytes : List Byte} (h : Keeps False False False s0 s) : Runs N s0 (execHostWriteReceive off bytes s) := by
  unfold Machine.execHostWriteReceive
  split
  · exact h.next
  · exact (h.atPort (fun _ h => h.serveWrite) (fun _ h => h.wakeRanges)).next

theorem noteKeys {c : Nat} {ls : List Addr} (h : Keeps P Q R s0 s) : Keeps P Q R s0 (s.noteKeys c ls) := by
  unfold State.noteKeys
  refine h.foldl fun _ _ h => ?_
  split
  · split
    · exact h
    · exact h.parts
  · exact h

theorem takeKeys {c : Nat} {ls : List Addr} (h : Keeps P Q R s0 s) : Keeps P Q R s0 (s.takeKeys c ls) := by
  unfold State.takeKeys
  refine h.foldl fun _ _ h => ?_
  split
  · exact h
  · exact h.parts

theorem serveAperture {m : ApMsg} (h : Keeps P Q R s0 s) : KeepsIn P Q R s0 (fun x => x) (s.serveAperture m) := by
  unfold State.serveAperture
  split
  · dsimp only
    split
    · exact KeepsIn.none
    · split
      · exact KeepsIn.some h
      · exact KeepsIn.some h.answer
      · exact KeepsIn.some h.wakeRange.noteKeys.writeRange.takeKeys
      · exact KeepsIn.some h.wakeRange.noteKeys.readLines.answer

theorem execApertureAccess {m : ApMsg} (h : Keeps False False False s0 s) : Runs N s0 (execApertureAccess m s) := by
  unfold Machine.execApertureAccess
  split
  · exact h.next
  · exact (h.atPort (fun _ h => h.serveAperture) (fun _ h => h.wakeRanges)).next

theorem execPcieLinkDown (h : Keeps False False False s0 s) : Runs N s0 (execPcieLinkDown s) := h.parts.next

theorem execPcieLinkUp (h : Keeps False False False s0 s) : Runs N s0 (execPcieLinkUp s) := h.parts.next

/-! ## Boot -/

theorem cold {b : BootCfg} : Keeps False False False s0 (s.cold b) := emptied rfl fun _ => rfl

theorem replace {b : BootCfg} (h : Keeps False Q R s0 s) : Keeps False Q R s0 (s.replace b) := h.marked

theorem openSet {g : Nat} (h : Keeps P Q R s0 s) : Keeps P Q R s0 (s.openSet g) := by
  unfold State.openSet
  split
  · exact h
  · exact h.setAlloc.modBank

theorem formHyp {b : BootCfg} (h : Keeps P Q False s0 s) : Keeps P Q False s0 (s.formHyp b) :=
  (h.foldl fun _ _ h => h.openSet).worlds.writeRoots.fwCap

theorem execColdReset {b : BootCfg} (_ : Keeps False False False s0 s) : Runs N s0 (Machine.execColdReset b s) := by
  unfold Machine.execColdReset
  extract_lets c _ _ t1 t2
  have hc : Keeps False False False s0 c := cold
  split
  · have h1 : Keeps False False False s0 t1 := Keeps.formHyp (Keeps.parts hc.replace)
    exact (Keeps.marked (s := t2) h1.putQword).next
  · exact hc.marked.next

/-! ## Capability instructions -/

theorem capForm {c : Ctl} {uf : Bool} {d : BitVec 6} {regs : List RegUse} {lat : List (BitVec 2)} {n : Nat} {f : Convoy → Ln → Cap}
    (h : Keeps False False False s0 s) : Runs (¬s.issuing) s0 (capForm s c uf d regs lat n f) := by
  unfold Machine.capForm
  refine h.issue (fun _ _ _ => (h.foldl fun _ _ h1 => ?_).advance)
  split
  · exact h1.wrKs
  · exact h1.wrK

theorem execCsub {o : CsubOp} (h : Keeps False False False s0 s) : Runs (¬s.issuing) s0 (execCsub o s) := h.capForm

theorem execCperm {o : CapVOp} (h : Keeps False False False s0 s) : Runs (¬s.issuing) s0 (execCperm o s) := h.capForm

theorem execCseal {o : CsealOp} (h : Keeps False False False s0 s) : Runs (¬s.issuing) s0 (execCseal o s) := h.capForm

theorem execCunseal {o : CunsealOp} (h : Keeps False False False s0 s) : Runs (¬s.issuing) s0 (execCunseal o s) := h.capForm

theorem execCbale {o : CapVOp} (h : Keeps False False False s0 s) : Runs (¬s.issuing) s0 (execCbale o s) := h.capForm

theorem execCnull {o : CnullOp} (h : Keeps False False False s0 s) : Runs (¬s.issuing) s0 (execCnull o s) := h.capForm

theorem execCtest {o : CtestOp} (h : Keeps False False False s0 s) : Runs (¬s.issuing) s0 (execCtest o s) := by
  unfold Machine.execCtest
  refine h.issue (fun _ _ _ => Keeps.advance ?_)
  split
  · exact h.foldl fun _ _ h => h.wrQ
  · exact h.foldl fun _ _ h => h.wrP

theorem execCget {o : CgetOp} (h : Keeps False False False s0 s) : Runs (¬s.issuing) s0 (execCget o s) := by
  unfold Machine.execCget
  dsimp only
  split
  · exact h.issue (fun _ _ _ => h.dsts.advance)
  · exact h.issue (fun _ _ _ => (h.foldl fun _ _ h1 => h1.modU).advance)

theorem storeCaps {spn who a : Nat} {ks : List Cap} (h : Keeps P Q R s0 s) : Keeps P Q R s0 (s.storeCaps spn who a ks) := by
  induction ks generalizing s a with
  | nil => exact h
  | cons k ks ih => exact ih h.storeCapBy

theorem delegLane {t : State} {s : State} {c : Nat} {v : Convoy} {o : CdelegOp} {x : LaneAcc} (h : Keeps P False R s0 t)
    (_ : Keeps P False R s0 s) : Keeps P False R s0 (t.delegLane s c v o x) := by
  unfold State.delegLane
  dsimp only
  split
  · refine Keeps.wrKs ?_
    split
    · exact h.storeCaps
    · exact h
  · refine Keeps.wrK ?_
    split
    · exact h.storeCaps
    · exact h

theorem execCdeleg {o : CdelegOp} (h : Keeps False False False s0 s) : Runs (¬s.issuing) s0 (execCdeleg o s) := by
  unfold Machine.execCdeleg
  dsimp only
  exact h.issue (fun _ _ _ => h.localAccess (h.foldl fun _ _ h1 => h1.delegLane h).advance)

/-! ## Floating point -/

theorem fpBin {o : FBin} {f : Word → Word → Word × BitVec 8} (h : Keeps False False False s0 s) : Runs (¬s.issuing) s0 (fpBin s o f) := h.compute

theorem fpTri {o : FTri} {f : Word → Word → Word → Word × BitVec 8} (h : Keeps False False False s0 s) : Runs (¬s.issuing) s0 (fpTri s o f) :=
  h.compute

theorem fpUn {o : FUn} {f : Word → Word × BitVec 8} (h : Keeps False False False s0 s) : Runs (¬s.issuing) s0 (fpUn s o f) := h.compute

theorem fpCmp {o : FCmp} {f : Word → Word → Bool × BitVec 8} (h : Keeps False False False s0 s) : Runs (¬s.issuing) s0 (fpCmp s o f) :=
  h.computeP

theorem hBin {o : HBin} {g : FV → FV → FV} (h : Keeps False False False s0 s) : Runs (¬s.issuing) s0 (hBin s o g) := h.compute

theorem execFadd {o : FBin} (h : Keeps False False False s0 s) : Runs (¬s.issuing) s0 (execFadd o s) := h.fpBin

theorem execFsub {o : FBin} (h : Keeps False False False s0 s) : Runs (¬s.issuing) s0 (execFsub o s) := h.fpBin

theorem execFmul {o : FBin} (h : Keeps False False False s0 s) : Runs (¬s.issuing) s0 (execFmul o s) := h.fpBin

theorem execFfma {o : FTri} (h : Keeps False False False s0 s) : Runs (¬s.issuing) s0 (execFfma o s) := h.fpTri

theorem execFmin {o : FBin} (h : Keeps False False False s0 s) : Runs (¬s.issuing) s0 (execFmin o s) := h.fpBin

theorem execFmax {o : FBin} (h : Keeps False False False s0 s) : Runs (¬s.issuing) s0 (execFmax o s) := h.fpBin

theorem execFcmp {o : FCmp} (h : Keeps False False False s0 s) : Runs (¬s.issuing) s0 (execFcmp o s) := h.fpCmp

theorem execFclass {o : FUn} (h : Keeps False False False s0 s) : Runs (¬s.issuing) s0 (execFclass o s) := h.fpUn

theorem execFfloor {o : FUn} (h : Keeps False False False s0 s) : Runs (¬s.issuing) s0 (execFfloor o s) := h.fpUn

theorem execFceil {o : FUn} (h : Keeps False False False s0 s) : Runs (¬s.issuing) s0 (execFceil o s) := h.fpUn

theorem execFtrunc {o : FUn} (h : Keeps False False False s0 s) : Runs (¬s.issuing) s0 (execFtrunc o s) := h.fpUn

theorem execFrint {o : FUn} (h : Keeps False False False s0 s) : Runs (¬s.issuing) s0 (execFrint o s) := h.fpUn

theorem execFscale {o : FBin} (h : Keeps False False False s0 s) : Runs (¬s.issuing) s0 (execFscale o s) := h.fpBin

theorem execFrcp {o : FUn} (h : Keeps False False False s0 s) : Runs (¬s.issuing) s0 (execFrcp o s) := h.fpUn

theorem execFrsq {o : FUn} (h : Keeps False False False s0 s) : Runs (¬s.issuing) s0 (execFrsq o s) := h.fpUn

theorem execFsqrt {o : FUn} (h : Keeps False False False s0 s) : Runs (¬s.issuing) s0 (execFsqrt o s) := h.fpUn

theorem execFex2 {o : FUn} (h : Keeps False False False s0 s) : Runs (¬s.issuing) s0 (execFex2 o s) := h.fpUn

theorem execFlg2 {o : FUn} (h : Keeps False False False s0 s) : Runs (¬s.issuing) s0 (execFlg2 o s) := h.fpUn

theorem execFsin {o : FUn} (h : Keeps False False False s0 s) : Runs (¬s.issuing) s0 (execFsin o s) := h.fpUn

theorem execFcos {o : FUn} (h : Keeps False False False s0 s) : Runs (¬s.issuing) s0 (execFcos o s) := h.fpUn

theorem execFtanh {o : FUn} (h : Keeps False False False s0 s) : Runs (¬s.issuing) s0 (execFtanh o s) := h.fpUn

theorem execHadd2 {o : HBin} (h : Keeps False False False s0 s) : Runs (¬s.issuing) s0 (execHadd2 o s) := h.hBin

theorem execHmul2 {o : HBin} (h : Keeps False False False s0 s) : Runs (¬s.issuing) s0 (execHmul2 o s) := h.hBin

theorem execHfma2 {o : HTri} (h : Keeps False False False s0 s) : Runs (¬s.issuing) s0 (execHfma2 o s) := h.compute

/-! ## Conversions -/

theorem execCvt {o : CvtOp} (h : Keeps False False False s0 s) : Runs (¬s.issuing) s0 (execCvt o s) := h.compute

theorem quantise {o : QntOp} {q : QFmt} (h : Keeps False False False s0 s) : Runs (¬s.issuing) s0 (quantise s o q) := h.compute

theorem execQntE4m3 {o : QntOp} (h : Keeps False False False s0 s) : Runs (¬s.issuing) s0 (execQntE4m3 o s) := h.quantise

theorem execQntE5m2 {o : QntOp} (h : Keeps False False False s0 s) : Runs (¬s.issuing) s0 (execQntE5m2 o s) := h.quantise

theorem execQntE2m1 {o : QntOp} (h : Keeps False False False s0 s) : Runs (¬s.issuing) s0 (execQntE2m1 o s) := h.quantise

theorem execQntI8 {o : QntOp} (h : Keeps False False False s0 s) : Runs (¬s.issuing) s0 (execQntI8 o s) := h.quantise

theorem execQntT2 {o : QntOp} (h : Keeps False False False s0 s) : Runs (¬s.issuing) s0 (execQntT2 o s) := h.quantise

theorem execDqnt {o : DqntOp} (h : Keeps False False False s0 s) : Runs (¬s.issuing) s0 (execDqnt o s) := h.compute

/-! ## Cross-lane forms -/

theorem orHeld {i : Nat} {v : Convoy} {rs : List (Addr × Addr × Bool)} {k : State} (h : Keeps P False R s0 s) (hk : Keeps P False R s0 k) :
    Keeps P False R s0 (s.orHeld i v rs k) := by
  unfold State.orHeld
  split
  · exact h.hold
  · exact hk

theorem execShfl {o : ShflOp} (h : Keeps False False False s0 s) : Runs (¬s.issuing) s0 (execShfl o s) :=
  h.issue (fun _ _ _ => h.orHeld h.dsts.advance)

theorem execBallot {o : BallotOp} (h : Keeps False False False s0 s) : Runs (¬s.issuing) s0 (execBallot o s) := h.compute

theorem execVote {o : VoteOp} (h : Keeps False False False s0 s) : Runs (¬s.issuing) s0 (execVote o s) := h.issue (fun _ _ _ => h.wrQ.advance)

theorem execBcast {o : BcastOp} (h : Keeps False False False s0 s) : Runs (¬s.issuing) s0 (execBcast o s) := by
  unfold Machine.execBcast
  refine h.issue (fun _ _ _ => ?_)
  dsimp only
  split
  · split
    · exact h.wrS.advance
    · exact h.advance
  · exact h.orHeld h.wrS.advance

theorem execRed {o : RedOp} (h : Keeps False False False s0 s) : Runs (¬s.issuing) s0 (execRed o s) :=
  h.issue (fun _ _ _ => h.dsts.setFlags.advance)

theorem execScan {o : RedOp} (h : Keeps False False False s0 s) : Runs (¬s.issuing) s0 (execScan o s) :=
  h.issue (fun _ _ _ => h.dsts.setFlags.advance)

theorem cmpstWords {c : Nat} {v : Convoy} {k : Cap} {o : Nat} {xs : List (Nat × Word)} {i : Nat} (h : Keeps P False False s0 s) :
    Keeps P False False s0 (s.cmpstWords c v k o xs i).1 := by
  induction xs generalizing s i with
  | nil => exact h
  | cons x xs ih =>
    unfold State.cmpstWords
    dsimp only
    split
    · exact ih h.storeBy
    · exact h.refuse
    · exact h.refuse

theorem execCmpst {o : CmpstOp} (h : Keeps False False False s0 s) : Runs (¬s.issuing) s0 (execCmpst o s) := by
  unfold Machine.execCmpst
  dsimp only
  refine h.issue (fun _ _ _ => ?_)
  split
  · exact h.hold
  · split
    · exact h.holdLog
    · split
      · exact h.cmpstWords.wrS.advance.wakeAll
      · exact h.cmpstWords

theorem execExpld {o : ExpldOp} (h : Keeps False False False s0 s) : Runs (¬s.issuing) s0 (execExpld o s) := by
  unfold Machine.execExpld
  refine h.issue (fun _ _ _ => ?_)
  dsimp only
  split
  · exact h.advance
  · split
    · exact h.refuse
    · split
      · exact h.hold
      · exact h.dsts.advance.wakeAll

/-! ## Integer forms -/

theorem intBin {o : IBin} {w64 wb : Bool} {f : DWord → DWord → DWord} (h : Keeps False False False s0 s) :
    Runs (¬s.issuing) s0 (intBin s o w64 wb f) :=
  h.compute

theorem intUn {o : IUn} {w64 wd : Bool} {f : DWord → DWord} (h : Keeps False False False s0 s) : Runs (¬s.issuing) s0 (intUn s o w64 wd f) :=
  h.compute

theorem intMad {o : IMad} {w64 : Bool} (h : Keeps False False False s0 s) : Runs (¬s.issuing) s0 (intMad s o w64) := h.compute

theorem intField {o : IBf} {w64 : Bool} {f : DWord → DWord → Nat → Nat → DWord} (h : Keeps False False False s0 s) :
    Runs (¬s.issuing) s0 (intField s o w64 f) :=
  h.compute

theorem intSel {o : ISel} {w64 : Bool} (h : Keeps False False False s0 s) : Runs (¬s.issuing) s0 (intSel s o w64) := h.compute

theorem intCmp {o : ICmp} {w64 : Bool} (h : Keeps False False False s0 s) : Runs (¬s.issuing) s0 (intCmp s o w64) := h.computeP

theorem intMovi {o : IMovi} {w64 : Bool} (h : Keeps False False False s0 s) : Runs (¬s.issuing) s0 (intMovi s o w64) := h.compute

theorem execIadd {o : IBin} (h : Keeps False False False s0 s) : Runs (¬s.issuing) s0 (execIadd o s) := h.intBin

theorem execIadd64 {o : IBin} (h : Keeps False False False s0 s) : Runs (¬s.issuing) s0 (execIadd64 o s) := h.intBin

theorem execIsub {o : IBin} (h : Keeps False False False s0 s) : Runs (¬s.issuing) s0 (execIsub o s) := h.intBin

theorem execIsub64 {o : IBin} (h : Keeps False False False s0 s) : Runs (¬s.issuing) s0 (execIsub64 o s) := h.intBin

theorem execImul {o : IBin} (h : Keeps False False False s0 s) : Runs (¬s.issuing) s0 (execImul o s) := h.intBin

theorem execImul64 {o : IBin} (h : Keeps False False False s0 s) : Runs (¬s.issuing) s0 (execImul64 o s) := h.intBin

theorem execImulh {o : IBin} (h : Keeps False False False s0 s) : Runs (¬s.issuing) s0 (execImulh o s) := h.intBin

theorem execImulh64 {o : IBin} (h : Keeps False False False s0 s) : Runs (¬s.issuing) s0 (execImulh64 o s) := h.intBin

theorem execImad {o : IMad} (h : Keeps False False False s0 s) : Runs (¬s.issuing) s0 (execImad o s) := h.intMad

theorem execImad64 {o : IMad} (h : Keeps False False False s0 s) : Runs (¬s.issuing) s0 (execImad64 o s) := h.intMad

theorem execIdiv {o : IBin} (h : Keeps False False False s0 s) : Runs (¬s.issuing) s0 (execIdiv o s) := h.intBin

theorem execIdiv64 {o : IBin} (h : Keeps False False False s0 s) : Runs (¬s.issuing) s0 (execIdiv64 o s) := h.intBin

theorem execIrem {o : IBin} (h : Keeps False False False s0 s) : Runs (¬s.issuing) s0 (execIrem o s) := h.intBin

theorem execIrem64 {o : IBin} (h : Keeps False False False s0 s) : Runs (¬s.issuing) s0 (execIrem64 o s) := h.intBin

theorem execIabs {o : IUn} (h : Keeps False False False s0 s) : Runs (¬s.issuing) s0 (execIabs o s) := h.intUn

theorem execIabs64 {o : IUn} (h : Keeps False False False s0 s) : Runs (¬s.issuing) s0 (execIabs64 o s) := h.intUn

theorem execIneg {o : IUn} (h : Keeps False False False s0 s) : Runs (¬s.issuing) s0 (execIneg o s) := h.intUn

theorem execIneg64 {o : IUn} (h : Keeps False False False s0 s) : Runs (¬s.issuing) s0 (execIneg64 o s) := h.intUn

theorem execImin {o : IBin} (h : Keeps False False False s0 s) : Runs (¬s.issuing) s0 (execImin o s) := h.intBin

theorem execImin64 {o : IBin} (h : Keeps False False False s0 s) : Runs (¬s.issuing) s0 (execImin64 o s) := h.intBin

theorem execImax {o : IBin} (h : Keeps False False False s0 s) : Runs (¬s.issuing) s0 (execImax o s) := h.intBin

theorem execImax64 {o : IBin} (h : Keeps False False False s0 s) : Runs (¬s.issuing) s0 (execImax64 o s) := h.intBin

theorem execAndOp {o : IBin} (h : Keeps False False False s0 s) : Runs (¬s.issuing) s0 (execAndOp o s) := h.intBin

theorem execAndOp64 {o : IBin} (h : Keeps False False False s0 s) : Runs (¬s.issuing) s0 (execAndOp64 o s) := h.intBin

theorem execOrOp {o : IBin} (h : Keeps False False False s0 s) : Runs (¬s.issuing) s0 (execOrOp o s) := h.intBin

theorem execOrOp64 {o : IBin} (h : Keeps False False False s0 s) : Runs (¬s.issuing) s0 (execOrOp64 o s) := h.intBin

theorem execXorOp {o : IBin} (h : Keeps False False False s0 s) : Runs (¬s.issuing) s0 (execXorOp o s) := h.intBin

theorem execXorOp64 {o : IBin} (h : Keeps False False False s0 s) : Runs (¬s.issuing) s0 (execXorOp64 o s) := h.intBin

theorem execAndn {o : IBin} (h : Keeps False False False s0 s) : Runs (¬s.issuing) s0 (execAndn o s) := h.intBin

theorem execAndn64 {o : IBin} (h : Keeps False False False s0 s) : Runs (¬s.issuing) s0 (execAndn64 o s) := h.intBin

theorem execNotOp {o : IUn} (h : Keeps False False False s0 s) : Runs (¬s.issuing) s0 (execNotOp o s) := h.intUn

theorem execNotOp64 {o : IUn} (h : Keeps False False False s0 s) : Runs (¬s.issuing) s0 (execNotOp64 o s) := h.intUn

theorem execShl {o : IBin} (h : Keeps False False False s0 s) : Runs (¬s.issuing) s0 (execShl o s) := h.intBin

theorem execShl64 {o : IBin} (h : Keeps False False False s0 s) : Runs (¬s.issuing) s0 (execShl64 o s) := h.intBin

theorem execShr {o : IBin} (h : Keeps False False False s0 s) : Runs (¬s.issuing) s0 (execShr o s) := h.intBin

theorem execShr64 {o : IBin} (h : Keeps False False False s0 s) : Runs (¬s.issuing) s0 (execShr64 o s) := h.intBin

theorem execSar {o : IBin} (h : Keeps False False False s0 s) : Runs (¬s.issuing) s0 (execSar o s) := h.intBin

theorem execSar64 {o : IBin} (h : Keeps False False False s0 s) : Runs (¬s.issuing) s0 (execSar64 o s) := h.intBin

theorem execRol {o : IBin} (h : Keeps False False False s0 s) : Runs (¬s.issuing) s0 (execRol o s) := h.intBin

theorem execRol64 {o : IBin} (h : Keeps False False False s0 s) : Runs (¬s.issuing) s0 (execRol64 o s) := h.intBin

theorem execPopc {o : IUn} (h : Keeps False False False s0 s) : Runs (¬s.issuing) s0 (execPopc o s) := h.intUn

theorem execPopc64 {o : IUn} (h : Keeps False False False s0 s) : Runs (¬s.issuing) s0 (execPopc64 o s) := h.intUn

theorem execClz {o : IUn} (h : Keeps False False False s0 s) : Runs (¬s.issuing) s0 (execClz o s) := h.intUn

theorem execClz64 {o : IUn} (h : Keeps False False False s0 s) : Runs (¬s.issuing) s0 (execClz64 o s) := h.intUn

theorem execCtz {o : IUn} (h : Keeps False False False s0 s) : Runs (¬s.issuing) s0 (execCtz o s) := h.intUn

theorem execCtz64 {o : IUn} (h : Keeps False False False s0 s) : Runs (¬s.issuing) s0 (execCtz64 o s) := h.intUn

theorem execBrev {o : IUn} (h : Keeps False False False s0 s) : Runs (¬s.issuing) s0 (execBrev o s) := h.intUn

theorem execBrev64 {o : IUn} (h : Keeps False False False s0 s) : Runs (¬s.issuing) s0 (execBrev64 o s) := h.intUn

theorem execBfx {o : IBf} (h : Keeps False False False s0 s) : Runs (¬s.issuing) s0 (execBfx o s) := h.intField

theorem execBfx64 {o : IBf} (h : Keeps False False False s0 s) : Runs (¬s.issuing) s0 (execBfx64 o s) := h.intField

theorem execBfi {o : IBf} (h : Keeps False False False s0 s) : Runs (¬s.issuing) s0 (execBfi o s) := h.intField

theorem execBfi64 {o : IBf} (h : Keeps False False False s0 s) : Runs (¬s.issuing) s0 (execBfi64 o s) := h.intField

theorem execSelOp {o : ISel} (h : Keeps False False False s0 s) : Runs (¬s.issuing) s0 (execSelOp o s) := h.intSel

theorem execSelOp64 {o : ISel} (h : Keeps False False False s0 s) : Runs (¬s.issuing) s0 (execSelOp64 o s) := h.intSel

theorem execIcmp {o : ICmp} (h : Keeps False False False s0 s) : Runs (¬s.issuing) s0 (execIcmp o s) := h.intCmp

theorem execIcmp64 {o : ICmp} (h : Keeps False False False s0 s) : Runs (¬s.issuing) s0 (execIcmp64 o s) := h.intCmp

theorem execMovOp {o : IUn} (h : Keeps False False False s0 s) : Runs (¬s.issuing) s0 (execMovOp o s) := h.intUn

theorem execMovOp64 {o : IUn} (h : Keeps False False False s0 s) : Runs (¬s.issuing) s0 (execMovOp64 o s) := h.intUn

theorem execMovi {o : IMovi} (h : Keeps False False False s0 s) : Runs (¬s.issuing) s0 (execMovi o s) := h.intMovi

theorem execMovi64 {o : IMovi} (h : Keeps False False False s0 s) : Runs (¬s.issuing) s0 (execMovi64 o s) := h.intMovi

/-! ## Loop nests -/

theorem execLnest {o : LnestOp} (h : Keeps False False False s0 s) : Runs (¬s.issuing) s0 (execLnest o s) := by
  unfold Machine.execLnest
  refine h.issueWide (fun _ _ _ => ?_)
  dsimp only
  split
  · exact h.refuse
  · split
    · split
      · split
        · exact h.hold
        · split
          · exact h.holdLog
          · split
            · exact h.storeBy.setFlags.wakeAll.modConvoy.issued
            · exact h.storeBy.setFlags.wakeAll.modConvoy.advance
      · split
        · exact h.hold
        · split
          · exact h.holdLog
          · split
            · exact h.storeBy.setFlags.wakeAll.modConvoy.issued
            · exact h.storeBy.setFlags.wakeAll.modConvoy.advance
    · split
      · split
        · exact h.hold
        · split
          · exact h.holdLog
          · split
            · exact h.storeBy.setFlags.wakeAll.modConvoy.issued
            · exact h.storeBy.setFlags.wakeAll.modConvoy.advance
      · split
        · exact h.hold
        · split
          · exact h.holdLog
          · split
            · exact h.storeBy.setFlags.wakeAll.modConvoy.issued
            · exact h.storeBy.setFlags.wakeAll.modConvoy.advance

theorem execRepOp {o : RepOp} (h : Keeps False False False s0 s) : Runs (¬s.issuing) s0 (execRepOp o s) := by
  unfold Machine.execRepOp
  refine h.issueWide (fun _ _ _ => ?_)
  split
  · split
    · exact h.illegal
    · exact h.modConvoy.issued
  · exact h.trap

end Keeps

end Sys2Proof.Machine

/-! SUPPORT. Every step keeps the canonical form of the store (R52) and stops nothing. -/

namespace Sys2Proof.Machine

variable {P Q R N : Prop} {s0 s t : State}

namespace Keeps

-- as in the files before this one
set_option Elab.async false

/-! ## Every instruction, every event, and what a port serves -/

/-- Every instruction and every event; a word stops nothing while a convoy is chosen. -/
theorem exec {i : Instr} (h : Keeps False False False s0 s) : Runs (needsConvoy i = true ∧ ¬ s.issuing) s0 (Machine.exec i s) := by
  unfold Machine.exec
  split
  · exact h.execIadd.word rfl
  · exact h.execIadd64.word rfl
  · exact h.execIsub.word rfl
  · exact h.execIsub64.word rfl
  · exact h.execImul.word rfl
  · exact h.execImul64.word rfl
  · exact h.execImulh.word rfl
  · exact h.execImulh64.word rfl
  · exact h.execImad.word rfl
  · exact h.execImad64.word rfl
  · exact h.execIdiv.word rfl
  · exact h.execIdiv64.word rfl
  · exact h.execIrem.word rfl
  · exact h.execIrem64.word rfl
  · exact h.execIabs.word rfl
  · exact h.execIabs64.word rfl
  · exact h.execIneg.word rfl
  · exact h.execIneg64.word rfl
  · exact h.execImin.word rfl
  · exact h.execImin64.word rfl
  · exact h.execImax.word rfl
  · exact h.execImax64.word rfl
  · exact h.execAndOp.word rfl
  · exact h.execAndOp64.word rfl
  · exact h.execOrOp.word rfl
  · exact h.execOrOp64.word rfl
  · exact h.execXorOp.word rfl
  · exact h.execXorOp64.word rfl
  · exact h.execAndn.word rfl
  · exact h.execAndn64.word rfl
  · exact h.execNotOp.word rfl
  · exact h.execNotOp64.word rfl
  · exact h.execShl.word rfl
  · exact h.execShl64.word rfl
  · exact h.execShr.word rfl
  · exact h.execShr64.word rfl
  · exact h.execSar.word rfl
  · exact h.execSar64.word rfl
  · exact h.execRol.word rfl
  · exact h.execRol64.word rfl
  · exact h.execPopc.word rfl
  · exact h.execPopc64.word rfl
  · exact h.execClz.word rfl
  · exact h.execClz64.word rfl
  · exact h.execCtz.word rfl
  · exact h.execCtz64.word rfl
  · exact h.execBrev.word rfl
  · exact h.execBrev64.word rfl
  · exact h.execBfx.word rfl
  · exact h.execBfx64.word rfl
  · exact h.execBfi.word rfl
  · exact h.execBfi64.word rfl
  · exact h.execSelOp.word rfl
  · exact h.execSelOp64.word rfl
  · exact h.execIcmp.word rfl
  · exact h.execIcmp64.word rfl
  · exact h.execMovOp.word rfl
  · exact h.execMovOp64.word rfl
  · exact h.execMovi.word rfl
  · exact h.execMovi64.word rfl
  · exact h.execFadd.word rfl
  · exact h.execFsub.word rfl
  · exact h.execFmul.word rfl
  · exact h.execFfma.word rfl
  · exact h.execFmin.word rfl
  · exact h.execFmax.word rfl
  · exact h.execFcmp.word rfl
  · exact h.execFclass.word rfl
  · exact h.execFfloor.word rfl
  · exact h.execFceil.word rfl
  · exact h.execFtrunc.word rfl
  · exact h.execFrint.word rfl
  · exact h.execFscale.word rfl
  · exact h.execFrcp.word rfl
  · exact h.execFrsq.word rfl
  · exact h.execFsqrt.word rfl
  · exact h.execFex2.word rfl
  · exact h.execFlg2.word rfl
  · exact h.execFsin.word rfl
  · exact h.execFcos.word rfl
  · exact h.execFtanh.word rfl
  · exact h.execHadd2.word rfl
  · exact h.execHmul2.word rfl
  · exact h.execHfma2.word rfl
  · exact h.execCvt.word rfl
  · exact h.execQntE4m3.word rfl
  · exact h.execQntE5m2.word rfl
  · exact h.execQntE2m1.word rfl
  · exact h.execQntI8.word rfl
  · exact h.execQntT2.word rfl
  · exact h.execDqnt.word rfl
  · exact h.execSacc.word rfl
  · exact h.execSaccV.word rfl
  · exact h.execShfl.word rfl
  · exact h.execBallot.word rfl
  · exact h.execVote.word rfl
  · exact h.execBcast.word rfl
  · exact h.execRed.word rfl
  · exact h.execScan.word rfl
  · exact h.execCmpst.word rfl
  · exact h.execExpld.word rfl
  · exact h.execLd.word rfl
  · exact h.execSt.word rfl
  · exact h.execLdk.word rfl
  · exact h.execStk.word rfl
  · exact h.execAadd.word rfl
  · exact h.execAmin.word rfl
  · exact h.execAmax.word rfl
  · exact h.execAand.word rfl
  · exact h.execAor.word rfl
  · exact h.execAxor.word rfl
  · exact h.execAxch.word rfl
  · exact h.execAcas.word rfl
  · exact h.execFenceOp.word rfl
  · exact h.execCsub.word rfl
  · exact h.execCperm.word rfl
  · exact h.execCseal.word rfl
  · exact h.execCunseal.word rfl
  · exact h.execCbale.word rfl
  · exact h.execCtest.word rfl
  · exact h.execCget.word rfl
  · exact h.execCnull.word rfl
  · exact h.execCdeleg.word rfl
  · exact h.execCpy.word rfl
  · exact h.execCpyCmd.word rfl
  · exact h.execGat.word rfl
  · exact h.execSct.word rfl
  · exact h.execMmaE4m3.word rfl
  · exact h.execMmaE5m2.word rfl
  · exact h.execMmaE2m1.word rfl
  · exact h.execMmaBf16.word rfl
  · exact h.execMmaI8.word rfl
  · exact h.execMmaT8.word rfl
  · exact h.execMmacE4m3.word rfl
  · exact h.execMmacE5m2.word rfl
  · exact h.execMmacE2m1.word rfl
  · exact h.execMmacBf16.word rfl
  · exact h.execMmacI8.word rfl
  · exact h.execMmacT8.word rfl
  · exact h.execAclr.word rfl
  · exact h.execAld.word rfl
  · exact h.execAst.word rfl
  · exact h.execClx.word rfl
  · exact h.execNmc.word rfl
  · exact h.execGatm.word rfl
  · exact h.execSig.word rfl
  · exact h.execWsig.word rfl
  · exact h.execWaitc.word rfl
  · exact h.execRevoke.word rfl
  · exact h.execStage.word rfl
  · exact h.execWb.word rfl
  · exact h.execBra.word rfl
  · exact h.execBrc.word rfl
  · exact h.execBrx.word rfl
  · exact h.execCallOp.word rfl
  · exact h.execCalli.word rfl
  · exact h.execRet.word rfl
  · exact h.execRegionOp.word rfl
  · exact h.execYieldOp.word rfl
  · exact h.execFuse.word rfl
  · exact h.execSpawn.word rfl
  · exact h.execEndOp.word rfl
  · exact h.execBar.word rfl
  · exact h.execGrow.word rfl
  · exact h.execShrink.word rfl
  · exact h.execLaunchOp.word rfl
  · exact h.execQpush.word rfl
  · exact h.execQpop.word rfl
  · exact h.execQslots.word rfl
  · exact h.execLnest.word rfl
  · exact h.execRepOp.word rfl
  · exact h.execNopOp.word rfl
  · exact h.execTrapOp.word rfl
  · exact h.execSysrd.word rfl
  · exact h.execSyswr.word rfl
  · exact h.execUnassignedOpcodeIssue.word rfl
  · exact h.execClauseWaitMet
  · exact h.execSeraiLaunchFull
  · exact h.execSeraiTimer
  · exact h.execSeraiLaunchDrained
  · exact h.execSeraiLaunchCapacity
  · exact h.execConvoyAged
  · exact h.execIssueCounterRoom
  · exact h.execLocalAccessResume
  · exact h.execEngineAccept
  · exact h.execCommandBegin
  · exact h.execBlockTakeRetry
  · exact h.execCopyComplete
  · exact h.execGatherScatterComplete
  · exact h.execMatrixComplete
  · exact h.execCollectiveComplete
  · exact h.execNearMemoryComplete
  · exact h.execAtomicSignalComplete
  · exact h.execWsigReread
  · exact h.execWsigTimeout
  · exact h.execWaitcRelease
  · exact h.execFenceDone
  · exact h.execQpushRetry
  · exact h.execQpopRetry
  · exact h.execGrowGrant
  · exact h.execGrowDeadlockEvict
  · exact h.execReturnFrameTimeout
  · exact h.execReplayWaitExpiry
  · exact h.execWaybillPop
  · exact h.execAnvilSpecialiseDone
  · exact h.execAnvilBudgetExpiry
  · exact h.execPlacement
  · exact h.execStagingComplete
  · exact h.execWorkgroupComplete
  · exact h.execWbackComplete
  · exact h.execDeadlineExpiry
  · exact h.execYieldRequest
  · exact h.execYieldDeadlineExpiry
  · exact h.execWorkgroupSaveDone
  · exact h.execWorkgroupRestore
  · exact h.execMigrationStart
  · exact h.execMigrationRetry
  · exact h.execMigrationComplete
  · exact h.execLogfullExpiry
  · exact h.execSoftError
  · exact h.execHardFailure
  · exact h.execPseudoChannelSpare
  · exact h.execSweepBeginTimer
  · exact h.execSweepEngineFinish
  · exact h.execPassClose
  · exact h.execRecallReceive
  · exact h.execRecallAckReceive
  · exact h.execPassOpenTimer
  · exact h.execBaleReceive
  · exact h.execRemoteCommandReceive
  · exact h.execRemoteAccessReceive
  · exact h.execDepartureNoticeReceive
  · exact h.execFlitTagFail
  · exact h.execLinkTraining
  · exact h.execRetrainTimeout
  · exact h.execUnreachableTimeout
  · exact h.execRoutemSwitch
  · exact h.execBankSetIdleP1
  · exact h.execBankSetIdleP2
  · exact h.execBankSetWakeDone
  · exact h.execPoolDirtyTimeout
  · exact h.execBackInvalidateSnoop
  · exact h.execThrottlePeriodEnd
  · exact h.execPageZeroFillDone
  · exact h.execScrubPage
  · exact h.execHostWriteReceive
  · exact h.execHostReadReceive
  · exact h.execApertureAccess
  · exact h.execCounterRead
  · exact h.execRegisterWrite
  · exact h.execBindRequest
  · exact h.execExtinvWrite
  · exact h.execExtinvDone
  · exact h.execMscMaskWrite
  · exact h.execMscreclWrite
  · exact h.execMscreclDone
  · exact h.execMscMonitorEnable
  · exact h.execPmapAllocWrite
  · exact h.execDbgctlHalt
  · exact h.execDbgctlStep
  · exact h.execDbgctlRun
  · exact h.execFormReq
  · exact h.execGrantReq
  · exact h.execFenceRequest
  · exact h.execReleaseReq
  · exact h.execStopReq
  · exact h.execResetReq
  · exact h.execDepartReq
  · exact h.execRouteReq
  · exact h.execUnlockReq
  · exact h.execRelockReq
  · exact h.execAttestReq
  · exact h.execNonceReq
  · exact h.execImageReq
  · exact h.execModeReq
  · exact h.execConsentReq
  · exact h.execWithdrawReq
  · exact h.execColdReset
  · exact h.execClockChange
  · exact h.execThermalStop
  · exact h.execStopTimeout
  · exact h.execSpClockGate
  · exact h.execSpRetention
  · exact h.execPcieLinkDown
  · exact h.execPcieLinkUp
  · exact h.execForwardedQueueAckReceive
  · exact h.execDepartureNoticeAckReceive
  · exact h.execRemoteCancelReceive
  · exact h.execRemoteCancelAckReceive
  · exact h.execPodBarrierArrivalReceive
  · exact h.execPodCollectiveContributionReceive

theorem stepEnds {p : Nat} (h : Keeps False False False s0 s) : Runs N s0 (stepEnds p s) := h.settleStep.next

theorem serveHeld {hd : Held} (h : Keeps P False False s0 s) : KeepsIn P False False s0 (fun x => x) (serveHeld hd s) := by
  unfold Machine.serveHeld
  split
  · split
    · exact KeepsIn.none
    · exact KeepsIn.some h.openRecall
  · exact h.serveBale
  · exact KeepsIn.some h.serveCommand
  · exact h.serveAccess
  · exact h.serveRead
  · exact h.serveWrite
  · exact h.serveRegister
  · exact h.serveExtinv
  · exact KeepsIn.some h.putBinding
  · exact KeepsIn.some h.readCounter.answer
  · exact h.serveAperture
  · exact h.serveHalt
  · exact KeepsIn.some h.steps
  · exact KeepsIn.some h.runs

theorem heldRetry {hd : Held} (h : Keeps False False False s0 s) : Runs N s0 (heldRetry hd s) := by
  unfold Machine.heldRetry
  split
  · exact h.next
  · split
    · exact (h.parts.serveHeld _ ‹_›).next
    · exact h.next

end Keeps

/-! ## The steps of the package's own units (log entry 3) -/

/-- Steps that stop nothing, whatever the state. -/
def Safe (l : List OwnStep) : Prop := ∀ f ∈ l, ∀ s, Runs False s (f s)

namespace Safe

variable {l l' : List OwnStep}

theorem nil : Safe [] := fun _ h => nomatch h

theorem cons {f : OwnStep} (hf : ∀ s, Runs False s (f s)) (hl : Safe l) : Safe (f :: l) := List.forall_mem_cons.mpr ⟨hf, hl⟩

theorem one {f : OwnStep} (hf : ∀ s, Runs False s (f s)) : Safe [f] := cons hf nil

theorem append (hl : Safe l) (hl' : Safe l') : Safe (l ++ l') := List.forall_mem_append.mpr ⟨hl, hl'⟩

theorem flatMap {α : Type} {g : α → List OwnStep} {l : List α} (hg : ∀ x, Safe (g x)) : Safe (l.flatMap g) := by
  intro f hf
  obtain ⟨x, -, hx⟩ := List.mem_flatMap.mp hf
  exact hg x f hx

theorem map {α : Type} {g : α → OwnStep} {l : List α} (hg : ∀ x s, Runs False s (g x s)) : Safe (l.map g) := by
  intro f hf
  obtain ⟨x, -, rfl⟩ := List.mem_map.mp hf
  exact hg x

theorem ite {c : Prop} [Decidable c] (hl : Safe l) : Safe (if c then l else []) := by
  split
  · exact hl
  · exact nil

theorem heldStep {c : Nat} {v : Convoy} : Safe (heldStep c v) := by
  have hrows : Safe [execGrowGrant (coreOf v.spn), execGrowDeadlockEvict (coreOf v.spn)] :=
    cons (fun s => (Keeps.refl s).execGrowGrant) <| one fun s => (Keeps.refl s).execGrowDeadlockEvict
  unfold Machine.heldStep
  split
  · exact nil
  · exact nil
  · exact one fun s => (Keeps.refl s).execIssueCounterRoom
  · exact one fun s => (Keeps.refl s).execLocalAccessResume
  · exact one fun s => (Keeps.refl s).execEngineAccept
  · exact cons (fun s => (Keeps.refl s).execWsigReread) <| one fun s => (Keeps.refl s).execWsigTimeout
  · exact one fun s => (Keeps.refl s).execWaitcRelease
  · exact one fun s => (Keeps.refl s).execFenceDone
  · split
    · exact one fun s => (Keeps.refl s).execQpushRetry
    · exact one fun s => (Keeps.refl s).execQpopRetry
  · exact nil
  · exact nil
  · exact hrows
  · exact hrows
  · exact one fun s => (Keeps.refl s).execReturnFrameTimeout
  · exact one fun s => (Keeps.refl s).execReplayWaitExpiry
  · exact nil
  · exact nil
  · exact nil
  · exact nil
  · exact nil

theorem cmdStep {k : Nat} {m : Cmd} : Safe (cmdStep k m) := by
  unfold Machine.cmdStep
  split
  · exact one fun s => (Keeps.refl s).execCommandBegin
  · exact one fun s => (Keeps.refl s).execBlockTakeRetry
  · split
    · exact one fun s => (Keeps.refl s).execCopyComplete
    · exact one fun s => (Keeps.refl s).execGatherScatterComplete
    · exact one fun s => (Keeps.refl s).execMatrixComplete
    · exact one fun s => (Keeps.refl s).execCollectiveComplete
    · exact one fun s => (Keeps.refl s).execNearMemoryComplete
    · exact one fun s => (Keeps.refl s).execAtomicSignalComplete
  · exact nil
  · exact nil
  · exact nil

theorem seraiSteps {x : Serai} : Safe (seraiSteps x) :=
  cons (fun s => (Keeps.refl s).execSeraiLaunchFull) <| cons (fun s => (Keeps.refl s).execSeraiTimer) <|
    cons (fun s => (Keeps.refl s).execSeraiLaunchDrained) <| one fun s => (Keeps.refl s).execSeraiLaunchCapacity

theorem wgSteps {w : Nat} : Safe (wgSteps w) :=
  cons (fun s => (Keeps.refl s).execStagingComplete) <| cons (fun s => (Keeps.refl s).execWorkgroupComplete) <|
    cons (fun s => (Keeps.refl s).execWbackComplete) <| cons (fun s => (Keeps.refl s).execYieldDeadlineExpiry) <|
    cons (fun s => (Keeps.refl s).execWorkgroupSaveDone) <| cons (fun s => (Keeps.refl s).execWorkgroupRestore) <|
    cons (fun s => (Keeps.refl s).execMigrationRetry) <| one fun s => (Keeps.refl s).execMigrationComplete

theorem launchSteps {l : Nat} : Safe (launchSteps l) :=
  (flatMap fun _ => cons (fun s => (Keeps.refl s).execAnvilSpecialiseDone) <| one fun s => (Keeps.refl s).execAnvilBudgetExpiry).append <|
    cons (fun s => (Keeps.refl s).execPlacement) <| cons (fun s => (Keeps.refl s).execDeadlineExpiry) <|
    one fun s => (Keeps.refl s).execYieldRequest

theorem passSteps {n : Nat} : Safe (passSteps n) :=
  ((one fun s => (Keeps.refl s).execSweepBeginTimer).append <| map fun _ s => (Keeps.refl s).execSweepEngineFinish).append <|
    one fun s => (Keeps.refl s).execPassOpenTimer

theorem spSteps {p : Nat} {x : Sp} : Safe (spSteps p x) := by
  unfold Machine.spSteps
  refine ((append ?_ (ite (one fun s => (Keeps.refl s).haltGoesOn))).append (ite (one fun s => (Keeps.refl s).stepEnds))).append <|
    cons (fun s => (Keeps.refl s).execSpClockGate) <| one fun s => (Keeps.refl s).execSpRetention
  split
  · split
    · exact nil
    · exact one fun s => (Keeps.refl s).execSoftError
  · exact nil

theorem reqSteps {r : WReq} : Safe (reqSteps r) :=
  cons (fun s => (Keeps.refl s).execFormReq) <| cons (fun s => (Keeps.refl s).execGrantReq) <|
    cons (fun s => (Keeps.refl s).execFenceRequest) <| cons (fun s => (Keeps.refl s).execReleaseReq) <|
    cons (fun s => (Keeps.refl s).execStopReq) <| cons (fun s => (Keeps.refl s).execResetReq) <|
    cons (fun s => (Keeps.refl s).execDepartReq) <| cons (fun s => (Keeps.refl s).execRouteReq) <|
    cons (fun s => (Keeps.refl s).execUnlockReq) <| cons (fun s => (Keeps.refl s).execRelockReq) <|
    cons (fun s => (Keeps.refl s).execAttestReq) <| cons (fun s => (Keeps.refl s).execNonceReq) <|
    cons (fun s => (Keeps.refl s).execImageReq) <| cons (fun s => (Keeps.refl s).execModeReq) <|
    cons (fun s => (Keeps.refl s).execConsentReq) <| one fun s => (Keeps.refl s).execWithdrawReq

theorem pending : Safe s.pending := by
  have hclose : Safe [execPassClose, execExtinvDone, execMscreclDone] :=
    cons (fun s => (Keeps.refl s).execPassClose) <| cons (fun s => (Keeps.refl s).execExtinvDone) <| one fun s => (Keeps.refl s).execMscreclDone
  have hcmds : Safe (s.cmds.flatMap fun x => Machine.cmdStep x.1 x.2) := flatMap fun _ => cmdStep
  unfold State.pending
  refine hcmds.append (map fun _ s => (Keeps.refl s).heldRetry) |>.append (flatMap fun _ => heldStep) |>.append
    (flatMap fun _ => cons (fun s => (Keeps.refl s).execConvoyAged) <| one fun s => (Keeps.refl s).execLogfullExpiry) |>.append
    (flatMap fun _ => seraiSteps) |>.append (flatMap fun _ => wgSteps) |>.append (flatMap fun _ => launchSteps) |>.append
    (map fun _ s => (Keeps.refl s).execWaybillPop) |>.append (flatMap fun _ => reqSteps) |>.append (flatMap fun _ => passSteps) |>.append
    hclose |>.append (map fun _ s => (Keeps.refl s).execBankSetWakeDone) |>.append
    (map fun _ s => (Keeps.refl s).execPageZeroFillDone) |>.append (map fun _ s => (Keeps.refl s).execHardFailure) |>.append
    (ite <| one fun s => (Keeps.refl s).execThermalStop) |>.append (map fun _ s => (Keeps.refl s).execStopTimeout) |>.append
    (map fun _ s => (Keeps.refl s).execRetrainTimeout) |>.append (map fun _ s => (Keeps.refl s).execUnreachableTimeout) |>.append
    (map fun _ s => (Keeps.refl s).execPoolDirtyTimeout) |>.append (map fun _ s => (Keeps.refl s).execThrottlePeriodEnd) |>.append
    (flatMap fun _ => spSteps) |>.append
    (flatMap fun _ => cons (fun s => (Keeps.refl s).execBankSetIdleP1) <| one fun s => (Keeps.refl s).execBankSetIdleP2)

end Safe

/-- A step that is due is one of those that may be. -/
theorem mem_pending_of_due {f : OwnStep} (h : s.due = some f) : f ∈ s.pending := by
  have hf := List.mem_of_find?_eq_some h
  rw [List.mem_append] at hf
  exact hf.elim List.mem_of_mem_drop List.mem_of_mem_take

/-! ## The issue of a chosen convoy (R304) -/

theorem mem_of_firstOf {l : List (Nat × Convoy)} {x : Nat × Convoy} (h : s.firstOf l = some x) : x ∈ l := by
  induction l generalizing x with
  | nil => exact nomatch h
  | cons y r ih =>
    unfold State.firstOf at h
    split at h
    · exact Option.some.inj h ▸ List.mem_cons_self
    next z hz =>
      split at h
      · exact Option.some.inj h ▸ List.mem_cons_of_mem y (ih hz)
      · exact Option.some.inj h ▸ List.mem_cons_self

theorem mem_of_walk1 {l : List (Nat × Convoy)} {x : Nat × Convoy} (h : s.walk1 l = some x) : x ∈ l := by
  unfold State.walk1 at h
  split at h
  next y hy => exact Option.some.inj h ▸ List.mem_of_mem_filter (mem_of_firstOf hy)
  · exact mem_of_firstOf h

/-- What is chosen is a convoy. -/
theorem mem_convoys_of_pick {x : Nat × Convoy} (h : s.pick = some x) : x ∈ s.convoys := by
  unfold State.pick at h
  split at h
  next y hy => exact Option.some.inj h ▸ List.mem_of_mem_filter (mem_of_walk1 hy)
  · split at h
    · exact nomatch h
    · exact List.mem_of_mem_filter (mem_of_walk1 h)

theorem tget_of_mem {α : Type} {l : Tbl α} {x : Nat × α} (h : x ∈ l) : ∃ v, tget l x.1 = some v := by
  induction l with
  | nil => exact nomatch h
  | cons y l ih =>
    rw [tget_cons]
    split
    · exact ⟨_, rfl⟩
    next hne =>
      rcases List.mem_cons.mp h with rfl | h
      · exact absurd rfl hne
      · exact ih h

theorem issuing_chosen {c : Nat} {v : Convoy} (h : (c, v) ∈ s.convoys) : (s.chosen c v).issuing := by
  obtain ⟨w, hw⟩ := tget_of_mem h
  exact ⟨c, _, rfl, (tget_tmod ..).trans (congrArg _ hw)⟩

/-! ## The step -/

namespace Runs

theorem trans {r : Result} (h : Keeps False False False s0 s) (hr : Runs N s r) : Runs N s0 r := by
  cases r with
  | next t => exact Keeps.trans h hr
  | fault f => exact hr
  | refused f => exact hr

theorem imp {N' : Prop} {r : Result} (hr : Runs N s r) (hn : N → N') : Runs N' s r := by
  cases r with
  | next t => exact hr
  | fault f => exact hn hr
  | refused f => exact hr

theorem afterIssue {c p : Nat} {r : Result} (hr : Runs N s0 r) : Runs N s0 (afterIssue c p r) := by
  cases r with
  | next t => exact Keeps.afterStep hr
  | fault f => exact hr
  | refused f => exact hr

/-- A convoy that is there issues without a stop. -/
theorem issueStep {c : Nat} {v : Convoy} (h : s.issuing) : Runs False s (issueStep s c v) := by
  have hex (i : Instr) : Runs False s (exec i s) := (Keeps.refl s).exec.imp fun hn => hn.2 h
  unfold Machine.issueStep
  split
  · split
    · exact afterIssue (hex _)
    · exact (Keeps.refl s).trap.next
  · exact hex _

theorem issueOne {r : Result} (e : issueOne s = some r) : Runs False s r := by
  obtain ⟨x, hx, rfl⟩ := Option.map_eq_some_iff.mp e
  exact (issueStep (issuing_chosen (mem_convoys_of_pick hx))).trans (Keeps.refl s).chosen

theorem ownOne {r : Result} (e : ownOne s = some r) : Runs False s r := by
  obtain ⟨f, hf, rfl⟩ := Option.map_eq_some_iff.mp e
  exact (Safe.pending f (mem_pending_of_due hf) _).trans (Keeps.refl s).parts

theorem of_orElse {a b : Option Result} {r : Result} (ha : ∀ r, a = some r → Runs N s r) (hb : ∀ r, b = some r → Runs N s r)
    (e : (a <|> b) = some r) : Runs N s r := by
  cases a with
  | none => exact hb r e
  | some x => exact ha r e

/-- A step answers a state that keeps what `Keeps` says, but for a word on the agenda. -/
theorem step : Runs (∃ e ∈ s.ev, needsConvoy e = true) s (step s) := by
  have ht : Keeps False False False s s.tick := (Keeps.refl s).tick
  unfold Machine.step
  dsimp only
  split
  next e rest he =>
    have hu : Keeps False False False s { s.tick with ev := rest } :=
      ⟨fun x hx => he ▸ List.mem_cons_of_mem e hx, ht.canonical, False.elim, False.elim, False.elim⟩
    exact hu.exec.imp fun hn => ⟨e, he ▸ List.mem_cons_self, hn.1⟩
  · cases ho : (if s.own then Machine.ownOne s.tick <|> Machine.issueOne s.tick else Machine.issueOne s.tick <|> Machine.ownOne s.tick) with
    | none => exact ht.next
    | some r =>
      have hr : Runs False s.tick r := by
        split at ho
        · exact of_orElse (fun _ => ownOne) (fun _ => issueOne) ho
        · exact of_orElse (fun _ => issueOne) (fun _ => ownOne) ho
      exact (hr.trans ht).imp False.elim

end Runs

theorem eventsOnly_iff : s.eventsOnly = true ↔ ∀ e ∈ s.ev, needsConvoy e = false := by
  unfold State.eventsOnly
  rw [List.all_eq_true]
  exact forall₂_congr fun e _ => by rw [Bool.not_eq_true']

/-- Settles O34: every instruction and every event answers a next state, a word because a convoy is chosen when one issues, and none
adds to the agenda. -/
theorem stepNeverStops : Obligations.StepNeverStops := by
  intro s h
  have hs := eventsOnly_iff.mp h
  have hr : Runs False s (step s) := Runs.step.imp fun ⟨e, he, hn⟩ => Bool.false_ne_true ((hs e he).symm.trans hn)
  cases e : step s with
  | next t =>
    rw [e] at hr
    exact ⟨t, rfl, eventsOnly_iff.mpr fun x hx => hs x (Keeps.agenda hr x hx)⟩
  | fault f => exact (e ▸ hr : Runs False s (.fault f)).elim
  | refused f => exact (e ▸ hr : Runs False s (.refused f)).elim

/-- Settles O33: every operation of the model that writes the store does it byte by byte and tag by tag, which keeps its form, or takes
entries out. -/
theorem stepKeepsStore : Obligations.StepKeepsStore := by
  intro s t hw e
  have hr : Runs _ s (.next t) := e ▸ Runs.step
  exact Keeps.canonical hr hw

end Sys2Proof.Machine

/-! SUPPORT. A trap that replays cuts its convoy back to the start of its region and holds it there (R95, R382, R383). -/

namespace Sys2Proof.Machine

variable {s t : State} {c : Nat} {v : Convoy}

/-- At the start of a region, outside a clause, with nothing in force. -/
structure Convoy.AtRegion (a : Addr) (spn : Nat) (w : Convoy) : Prop where
  hdr : w.hdr = a
  wi : w.wi = 0
  inCl : w.inCl = false
  rep : w.rep = none
  mxseq : w.u.mxseq = 0
  spn : w.spn = spn

/-- A convoy whose SP no operation between changes is still there, on its SP. -/
theorem tget_convoys_of_spns (h : Keeps False True False s t) (hv : tget s.convoys c = some v) :
    ∃ w, tget t.convoys c = some w ∧ w.spn = v.spn := by
  have e : (tget t.convoys c).map (·.spn) = (tget s.convoys c).map (·.spn) := congrFun (h.spns trivial) c
  rw [hv] at e
  exact Option.map_eq_some_iff.mp e

theorem cutRegion_convoy {l : Ln} {r : List Ln} (hv : tget s.convoys c = some v) (hl : s.lanes v = l :: r) :
    ∃ w, tget (s.cutRegion c).convoys c = some w ∧ w.AtRegion l.f.regpc v.spn := by
  unfold State.cutRegion
  split
  next e => exact nomatch hv.symm.trans e
  next v' e =>
  obtain rfl := Option.some.inj (hv.symm.trans e)
  extract_lets ls cmds s1 v1 s2
  have h1 : Keeps False True False s s1 := (Keeps.refl s).foldl fun _ _ h => h.cancel
  obtain ⟨w, hw, hspn⟩ := tget_convoys_of_spns h1 hv
  have hv1 : v1.spn = v.spn := by
    dsimp only [v1]
    rw [hw]
    exact hspn
  have hls : ls.head? = some l := congrArg List.head? hl
  refine ⟨_, tget_tput, ?_⟩
  rw [hls]
  exact ⟨rfl, rfl, rfl, rfl, rfl, hv1⟩

theorem modConvoy_convoy {f : Convoy → Convoy} (hv : tget s.convoys c = some v) : tget (s.modConvoy c f).convoys c = some (f v) :=
  (tget_tmod f).trans (congrArg (Option.map f) hv)

theorem convoys_foldl_modFibre {f : Ln → Fibre → Fibre} (ls : List Ln) :
    (ls.foldl (fun s l => s.modFibre l.id (f l)) s).convoys = s.convoys :=
  List.foldlRecOn (motive := fun t : State => t.convoys = s.convoys) ls _ rfl fun _ h _ _ => h

theorem convoys_releaseAll (v : Convoy) (sc : Scope) : (s.releaseAll v sc).convoys = s.convoys := by
  obtain ⟨⟨p, h⟩, -⟩ := spsOnly_releaseAll s v sc
  rw [h]

theorem convoys_record (r : Rec) (tenant : Bool) : (s.record r tenant).convoys = s.convoys := by
  obtain ⟨q, ⟨m, g, ws, ms, b, h, p, n, sp, e⟩, -⟩ := record_ex s r tenant
  rw [e]

/-- The report of a trap, delivered or kept, changes no more of the convoy than that it holds none. -/
theorem deliverReport_convoy (hv : tget s.convoys c = some v) :
    ∃ r, tget (s.deliverReport c).convoys c = some { v with report := r } := by
  unfold State.deliverReport
  rw [hv]
  dsimp only
  split
  next hr => exact ⟨v.report, hv⟩
  · split
    · exact ⟨v.report, hv⟩
    · refine ⟨none, ?_⟩
      rw [convoys_record]
      unfold State.modConvoy
      rw [convoys_releaseAll]
      exact modConvoy_convoy hv

/-- A trap that replays, while no fibre has replayed three times (R382). -/
theorem trap_of_replay {g : Wg} {x : TrapInfo} (hv : tget s.convoys c = some v) (hg : tget s.wgs v.wg = some g) (hx : x.replay = true)
    (hk : ∀ m ∈ s.lanes v, m.f.replay < 3) :
    ∃ rec, s.trap c x = ((((s.lanes v).foldl (fun s l => s.modFibre l.id fun f => { f with replay := f.replay + 1 }) (s.cutRegion c)).modConvoy c
      fun v' => { v' with
        wait := .replay (s.now (dieOf v'.spn) + replayWait (((s.lanes v).map fun m => m.f.replay).foldl max 0 + 1))
        report := rec }).deliverReport c) := by
  have hall : (s.lanes v).all (fun l => decide (l.f.replay < 3)) = true := List.all_eq_true.mpr fun m hm => decide_eq_true (hk m hm)
  unfold State.trap
  rw [hv]
  dsimp only
  rw [hg]
  dsimp only
  rw [hx, hall]
  exact ⟨_, if_pos rfl⟩

/-- Settles O42: the cancellations of the cut leave the convoy on its SP, whose clock the wait is counted by. -/
theorem trapReplays : Obligations.TrapReplays := by
  intro s c v g x l r hv hg hl hx hk
  obtain ⟨rec, e⟩ := trap_of_replay hv hg hx hk
  obtain ⟨w, hw, hhdr, hwi, hin, hrep, hmx, hspn⟩ := cutRegion_convoy hv hl
  rw [← convoys_foldl_modFibre (s := s.cutRegion c) (f := fun l f => { f with replay := f.replay + 1 }) (s.lanes v)] at hw
  obtain ⟨r', hr'⟩ := deliverReport_convoy (modConvoy_convoy hw)
  rw [e]
  refine ⟨_, hr', hhdr, hwi, hin, hrep, hmx, ?_⟩
  dsimp only
  rw [hspn]
  rfl

end Sys2Proof.Machine

/-! SUPPORT. Migration, soft errors, and the failure of a core (R312, R392–R395). -/

namespace Sys2Proof.Machine

variable {s t : State} {c n : Nat}

/-! ## SPs and cores, read after a change -/

theorem sp_modSp (f : Sp → Sp) : (s.modSp n f).sp n = f (s.sp n) := by
  unfold State.sp State.modSp
  dsimp only
  rw [tget_tput]
  rfl

theorem sp_modSp_ne {p : Nat} (f : Sp → Sp) (h : p ≠ n) : (s.modSp n f).sp p = s.sp p := by
  unfold State.sp State.modSp
  dsimp only
  rw [tget_tput_ne h]

theorem core_modCore (f : Core → Core) : (s.modCore n f).core n = f (s.core n) := by
  unfold State.core State.modCore
  dsimp only
  rw [tget_tput]
  rfl

theorem sp_foldl_modSp_of_notMem {f : Sp → Sp} {ps : List Nat} {p : Nat} (h : p ∉ ps) :
    (ps.foldl (fun s p => s.modSp p f) s).sp p = s.sp p := by
  induction ps generalizing s with
  | nil => rfl
  | cons q ps ih =>
    rw [List.mem_cons, not_or] at h
    exact (ih h.2).trans (sp_modSp_ne f h.1)

theorem sp_foldl_modSp {f : Sp → Sp} {ps : List Nat} {p : Nat} (hd : ps.Nodup) (h : p ∈ ps) :
    (ps.foldl (fun s p => s.modSp p f) s).sp p = f (s.sp p) := by
  induction ps generalizing s with
  | nil => exact nomatch h
  | cons q ps ih =>
    obtain ⟨hq, hd⟩ := List.nodup_cons.mp hd
    rcases List.mem_cons.mp h with rfl | h
    · exact (sp_foldl_modSp_of_notMem hq).trans (sp_modSp f)
    · exact (ih hd h).trans (congrArg f (sp_modSp_ne f (ne_of_mem_of_not_mem h hq)))

theorem hold_foldl_modSp {f : Sp → Sp} (hf : ∀ q, (f q).hold = q.hold) (ps : List Nat) (p : Nat) :
    ((ps.foldl (fun s p => s.modSp p f) s).sp p).hold = (s.sp p).hold := by
  refine List.foldlRecOn (motive := fun t : State => (t.sp p).hold = (s.sp p).hold) ps _ rfl fun t h q _ => ?_
  by_cases hp : p = q
  · subst hp
    exact (congrArg Sp.hold (sp_modSp f)).trans ((hf _).trans h)
  · exact (congrArg Sp.hold (sp_modSp_ne f hp)).trans h

/-! ## Soft errors (R392–R394) -/

/-- The count of a soft error holds no SP. -/
theorem noteSoft_hold (core item : Nat) (ps : List Nat) (p : Nat) : ((s.noteSoft core item ps).sp p).hold = (s.sp p).hold := by
  have h := hold_foldl_modSp (s := s) (f := fun q => { q with rolls := q.rolls + 1 }) (fun _ => rfl) ps p
  unfold State.noteSoft
  dsimp only
  split
  · exact h
  · exact h

/-- The third error in an item within 2^30 cycles, or at one temper point, makes the core fail. -/
theorem noteSoft_failing {core item : Nat} {ps : List Nat} (hd : ps.Nodup)
    (h : 2 ≤ ((s.core core).softs.filter fun e => decide (s.now (core / 16) < e.2 + 2 ^ 30)).countP (fun e => e.1 == item) ∨
      ∃ p ∈ ps, 2 ≤ (s.sp p).rolls) : ((s.noteSoft core item ps).core core).failing = true := by
  unfold State.noteSoft
  dsimp only
  rw [if_pos]
  · exact congrArg Core.failing (core_modCore _)
  · rcases h with h | ⟨p, hp, h⟩
    · refine Or.inl ?_
      rw [List.countP_cons_of_pos (p := fun e : Nat × Nat => e.1 == item) (beq_self_eq_true item)]
      exact Nat.succ_le_succ h
    · refine Or.inr (List.any_eq_true.mpr ⟨p, hp, decide_eq_true ?_⟩)
      have hr := congrArg Sp.rolls (sp_foldl_modSp (s := s) (f := fun q => { q with rolls := q.rolls + 1 }) hd hp)
      exact (Nat.succ_le_succ h).trans_eq hr.symm

/-- A soft error on SPs that are held, whose commands have ended. -/
theorem softError_of_held {p item : Nat} {src h : BitVec 8} (hne : h ≠ 0) (hh : (s.sp p).hold = some h)
    (hq : (if src = 0 then s else s.noteSoft (coreOf p) item (s.ownedOn (coreOf p) (s.sp p).owner)).quietSps
      (s.ownedOn (coreOf p) (s.sp p).owner) = true) :
    execSoftError p { item := item, source := src } s =
      .next (((s.ownedOn (coreOf p) (s.sp p).owner).foldl (fun s p => s.modSp p fun q => { q with hold := none })
        ((s.ownedOn (coreOf p) (s.sp p).owner).foldl (fun s p => s.rollbackSp p)
          (if src = 0 then s else s.noteSoft (coreOf p) item (s.ownedOn (coreOf p) (s.sp p).owner)))).record
            { source := h, cls := 0x11, colour := (s.sp p).owner, recov := 0x2, spn := p } false) := by
  have hs0 : ((if src = 0 then s else s.noteSoft (coreOf p) item (s.ownedOn (coreOf p) (s.sp p).owner)).sp p).hold = some h := by
    split
    · exact hh
    · exact (noteSoft_hold ..).trans hh
  have hsome : (s.sp p).hold.isSome = true := by rw [hh]; rfl
  have hnone : (s.sp p).hold.isNone = false := by rw [hh]; rfl
  unfold execSoftError
  dsimp only
  rw [if_neg Bool.false_ne_true, if_pos hsome, hs0, hnone, if_neg fun hn => Bool.false_ne_true hn.2]
  refine (if_neg hne).trans ?_
  rw [hq]
  exact if_neg Bool.false_ne_true

/-! ## A core that fails (R395) -/

theorem foldl_stopSp_of_held {ps : List Nat} {src : BitVec 8} (h : ∀ p ∈ ps, (s.sp p).hold.isSome = true) :
    ps.foldl (fun s p => if (s.sp p).hold.isSome then s else s.stopSp p src) s = s := by
  induction ps with
  | nil => rfl
  | cons p ps ih =>
    obtain ⟨hp, hps⟩ := List.forall_mem_cons.mp h
    rw [List.foldl_cons, if_pos hp]
    exact ih hps

/-- The failure of a core whose SPs are held already, in terms of whether a spare of its die is used. -/
theorem hardFailure_of_held {core : Nat} {used : Bool} (hc : core < 64) (hd : (s.core core).dead = false)
    (hh : ∀ p ∈ (List.range 4).map (fun i => 4 * core + i), (s.sp p).hold.isSome = true)
    (hq : s.quietSps ((List.range 4).map fun i => 4 * core + i) = true)
    (hu : ((List.range 16).any fun i => (s.core (core / 16 * 16 + i)).spare) = used) :
    execHardFailure core s =
      let sps := (List.range 4).map fun i => 4 * core + i
      let s2 := sps.foldl (fun s p => (s.rollbackSp p).modSp p fun q => { q with hold := none })
        (s.modCore core fun c => { c with failing := true })
      if !used then .next ((s2.modCore core fun c => { c with spare := true, failing := false, softs := [] }).hardRecs core)
      else .next (((s2.wgsOn sps).foldl (fun s w => s.moveOff core w) s2).modCore core fun c => { c with dead := true, failing := false }) := by
  have hguard : ¬ (decide (64 ≤ core) || (s.core core).dead) = true := by
    rw [hd, Bool.or_false, decide_eq_true_eq]
    exact Nat.not_le.mpr hc
  have hq' : (s.modCore core fun c => { c with failing := true }).quietSps ((List.range 4).map fun i => 4 * core + i) = true := hq
  unfold execHardFailure
  dsimp only
  rw [if_neg hguard, foldl_stopSp_of_held hh, hq', Bool.not_true, if_neg Bool.false_ne_true, hu]

/-- Settles O52: each step under its guards; the count of a soft error leaves what holds the SPs, and SPs held already are not stopped
again. -/
theorem movesAndFailures : Obligations.MovesAndFailures := by
  intro s w spn core item src h g
  refine ⟨fun hm hp hn => ?_, fun t hm ht hor => ?_, fun t hg hph hq => ?_, fun hne hh hq => softError_of_held hne hh hq, rfl,
    fun ps hd h => noteSoft_failing hd h, fun hc hd hh hq => ⟨fun hu => ?_, fun i hi hu => ?_⟩⟩
  · show execMigrationStart w s = _
    unfold execMigrationStart
    rw [hm]
    exact if_pos ⟨hp, by rw [hn]; rfl⟩
  · show execMigrationRetry w s = _
    unfold execMigrationRetry
    rw [hm]
    dsimp only
    rw [ht]
    exact if_pos hor
  · show execMigrationComplete w s = _
    unfold execMigrationComplete
    rw [hg]
    dsimp only
    rw [hph]
    dsimp only
    rw [hq]
    exact if_neg Bool.false_ne_true
  · refine hardFailure_of_held (used := false) hc hd hh hq (List.any_eq_false.mpr fun i hi => ?_)
    rw [hu i (List.mem_range.mp hi)]
    exact Bool.false_ne_true
  · exact hardFailure_of_held (used := true) hc hd hh hq (List.any_eq_true.mpr ⟨i, List.mem_range.mpr hi, hu⟩)

end Sys2Proof.Machine

/-! SUPPORT. World requests: each at the head of its queue, and the last steps of those that wait (R316–R331, R339–R347). -/

namespace Sys2Proof.Machine

variable {s t : State} {r : WReq} {c : Nat}

/-! ## A request that no refusal code meets is taken (R315, R449) -/

theorem takeReq_of_accepted {op : Nat} {k : State → State} (ho : reqOp r = op) (hh : s.atHead r = true) (ha : s.reqAwaits r = none)
    (hc : s.reqCode r = none) :
    takeReq r op s k = .next (k (if reqOp r = 1 ∧ reqArg0 r % 2 = 1 then ((s.popReq r).readBlk r ((reqBlkLen s r).getD 0)).excludeWindows
      else (s.popReq r).readBlk r ((reqBlkLen s r).getD 0))) := by
  have hg : ¬ (!(reqOp r == op || (op == 1 && !(if r.svc.isSome then svcOps else fwOps).contains (reqOp r))) || !s.atHead r) = true := by
    rw [hh, ho, beq_self_eq_true, Bool.true_or]
    decide
  unfold takeReq
  dsimp only
  rw [if_neg hg, ha, hc]

/-- A request other than FORM meets no acceptance window. -/
theorem takeReq_of_ne_form {op : Nat} {k : State → State} (ho : reqOp r = op) (h1 : op ≠ 1) (hh : s.atHead r = true)
    (ha : s.reqAwaits r = none) (hc : s.reqCode r = none) :
    takeReq r op s k = .next (k ((s.popReq r).readBlk r ((reqBlkLen s r).getD 0))) := by
  rw [takeReq_of_accepted ho hh ha hc, if_neg fun h => h1 (ho.symm.trans h.1)]

/-! ## What serving a request leaves -/

theorem served_fwWrite (s : State) (x : Nat) (a : Addr) (bs : List Byte) : Served s (s.fwWrite x a bs) :=
  served_trans (served_passWr s x a bs.length) (served_wrHome _ _ _)

theorem served_consume (s : State) (b start n : Nat) : Served s (s.consume b start n) :=
  served_trans (served_putQword s _ _ _) (served_trans (served_putQword _ _ _ _) (served_putQword _ _ _ _))

theorem served_popReq (s : State) (r : WReq) : Served s (s.popReq r) := by
  unfold State.popReq
  split
  · exact served_trans (served_passage s _ _ _ _) (served_trans (served_passWr _ _ _ _) (served_consume _ _ _ _))
  · exact served_refl s

theorem served_readBlk (s : State) (r : WReq) (n : Nat) : Served s (s.readBlk r n) := served_ite (served_passage s _ _ _ _) (served_refl s)

theorem served_free (h : Served s t) : t.free = s.free := by
  obtain ⟨m, g, ws, ms, b, x, p, n, q, rfl⟩ := h
  rfl

theorem served_token (h : Served s t) : t.mgmt.token = s.mgmt.token := by
  obtain ⟨m, g, ws, ms, b, x, p, n, q, rfl⟩ := h
  rfl

theorem served_nonce (h : Served s t) : t.mgmt.nonce = s.mgmt.nonce := by
  obtain ⟨m, g, ws, ms, b, x, p, n, q, rfl⟩ := h
  rfl

theorem served_windows (h : Served s t) : t.mgmt.windows = s.mgmt.windows := by
  obtain ⟨m, g, ws, ms, b, x, p, n, q, rfl⟩ := h
  rfl

theorem served_doneReq (s : State) (r : WReq) : Served s (s.doneReq r) :=
  served_trans (⟨s.mem, s.tags, _, s.msc, s.hbm, s.host, s.mgmt.pubs, s.mgmt.notes, s.sps, rfl⟩) (served_wstat _ r 1)

theorem releaseHalts_mgmt (s : State) (c : Nat) : (s.releaseHalts c).mgmt = s.mgmt := by
  unfold State.releaseHalts
  dsimp only
  refine List.foldlRecOn (motive := fun t : State => t.mgmt = s.mgmt) _ _ ?_ fun t h p _ => h
  exact List.foldlRecOn (motive := fun t : State => t.mgmt = s.mgmt) _ _ rfl fun t h p _ => h

/-- RELOCK ends the token, and releases the halts it allowed. -/
theorem relock_token (s : State) (r : WReq) :
    ((((({ s with mgmt := { s.mgmt with token := none } } : State).worlds.filter fun w => w.2.mode == .standard).foldl
      (fun s w => s.releaseHalts w.1)
      (if s.mgmt.token.isSome then { s with mgmt := { s.mgmt with token := none } } else s)).doneReq r)).mgmt.token = none := by
  refine (served_token (served_doneReq _ r)).trans ?_
  refine List.foldlRecOn (motive := fun t : State => t.mgmt.token = none) _ _ ?_ fun t h w _ =>
    (congrArg Mgmt.token (releaseHalts_mgmt t w.1)).trans h
  cases h : s.mgmt.token with
  | none => exact h
  | some x => rfl

/-- ROUTE waits for no command where there is none. -/
theorem routeReq_of_idle (hcmds : s.cmds = []) (ho : reqOp r = 8) (hh : s.atHead r = true) (ha : s.reqAwaits r = none)
    (hc : s.reqCode r = none) :
    let t := (s.popReq r).readBlk r ((reqBlkLen s r).getD 0)
    execRouteReq r s = .next ((State.freePeers t { t with
      route := ((List.range (leNat (s.fwRead (reqBlk r) 2))).map fun i => t.routeEntry r i).foldl (fun x e => x.put e) t.route }).doneReq r) := by
  have hbusy (w q : Nat) : s.peerBusy w q = false := by
    unfold State.peerBusy
    rw [hcmds]
    rfl
  have hwaits (f : Nat × World → Nat → Bool) :
      (s.worlds.any fun w => (w.2.exports ++ w.2.awaits).any fun q => f w q && s.peerBusy w.1 q) = false := by
    refine List.any_eq_false.mpr fun w _ => Bool.not_eq_true _ ▸ List.any_eq_false.mpr fun q _ => ?_
    rw [hbusy, Bool.and_false]
    exact Bool.false_ne_true
  unfold execRouteReq
  dsimp only
  rw [hwaits fun w q => _, Bool.and_false, if_neg Bool.false_ne_true]
  exact takeReq_of_ne_form ho (by decide) hh ha hc

/-! ## What a world holds of its requests -/

theorem duty_modWorld {f : World → World} {g : Option WReq × List Nat → Option WReq × List Nat}
    (hf : ∀ w, ((f w).waiting, (f w).exports) = g (w.waiting, w.exports)) : (s.modWorld c f).duty c = (s.duty c).map g := by
  unfold State.duty State.modWorld
  dsimp only
  rw [tget_tmod]
  cases tget s.worlds c with
  | none => rfl
  | some w => exact congrArg some (hf w)

theorem duty_of_get {w : World} (h : tget s.worlds c = some w) : s.duty c = some (w.waiting, w.exports) := by
  unfold State.duty
  rw [h]
  rfl

theorem under_spec {op : Nat} {w : World} (h : s.under op r = some w) :
    reqOp r = op ∧ w.waiting = some r ∧ tget s.worlds (reqColour r) = some w := by
  unfold State.under at h
  split at h
  next x hx =>
    split at h
    next hc =>
      obtain rfl := Option.some.inj h
      exact ⟨hc.1, hc.2, hx⟩
    · exact nomatch h
  · exact nomatch h

theorem under_waiting {op : Nat} {w : World} (h : s.under op r = some w) : s.duty (reqColour r) = some (some r, w.exports) := by
  obtain ⟨-, hwait, hget⟩ := under_spec h
  rw [duty_of_get hget, hwait]

theorem gen_of_marks (h : t.marks = s.marks) (c : Nat) : t.gen c = s.gen c := by
  have e : t.gens = s.gens := congrArg Prod.fst h
  unfold State.gen
  rw [e]

/-! ## The generation advances (R328, R329) -/

/-- The advance of RESET, and the end of its request. -/
theorem advanceGen_spec {op : Nat} {w : World} (h : s.under op r = some w) :
    ((s.advanceGen r).doneReq r).gen (reqColour r) = s.gen (reqColour r) + 1 ∧
      ((s.advanceGen r).doneReq r).duty (reqColour r) = some (none, []) := by
  obtain ⟨-, -, hget⟩ := under_spec h
  unfold State.advanceGen
  rw [show s.reqWorld r = some w from hget]
  generalize hc : reqColour r = c
  dsimp only
  generalize h1 : ({ s with gens := tput s.gens c (s.gen c + 1) } : State) = s1
  generalize h2 : (if s.gen c + 1 = (tget s.egens c).getD 0 ∨ reqArg0 r % 2 = 1 then s1.eraseKey c else s1) = s2
  generalize h3 : (s2.modWorld c fun w => { w with exports := [], consent := none }) = s3
  have hgen1 : s1.gen c = s.gen c + 1 := by
    rw [← h1]
    unfold State.gen
    rw [tget_tput]
    rfl
  have k2 : Keeps True True True s1 s2 := h2 ▸ (Keeps.refl s1).eraseKey.ite (Keeps.refl s1)
  have k3 : Keeps True True False s1 s3 := h3 ▸ Keeps.modWorld ⟨k2.agenda, k2.canonical, k2.marks, k2.spns, False.elim⟩
  have k5 : Keeps True True True s3 ((s3.writeRoots c w).retagBindings c) := (Keeps.refl s3).writeRoots.retagBindings
  generalize ((s3.writeRoots c w).retagBindings c) = s5 at k5
  have k6 : Keeps True True False s5 (s5.doneReq r) := (Keeps.refl s5).doneReq
  refine ⟨(gen_of_marks ((k6.marks trivial).trans ((k5.marks trivial).trans (k3.marks trivial))) c).trans hgen1, ?_⟩
  have d1 : s1.duty c = some (some r, w.exports) := h1 ▸ hc ▸ under_waiting h
  have d3 : s3.duty c = some (some r, []) := by
    rw [← h3, duty_modWorld (g := fun d => (d.1, [])) fun _ => rfl, k2.duty c, d1]
    rfl
  have d5 : s5.duty c = some (some r, []) := (k5.duty c).trans d3
  have d6 : (s5.modWorld c fun w => { w with waiting := if w.waiting = some r then none else w.waiting }).duty c = some (none, []) := by
    rw [duty_modWorld (g := fun d => (if d.1 = some r then none else d.1, d.2)) fun _ => rfl, d5]
    exact congrArg some (Prod.ext (if_pos rfl) rfl)
  unfold State.doneReq
  rw [hc]
  have k7 := (Keeps.refl (P := True) (Q := True) (R := True)
    (s5.modWorld c fun w => { w with waiting := if w.waiting = some r then none else w.waiting })).wstat (r := r) (v := 1)
  exact (k7.duty c).trans d6

/-- The end of a departure frees the colour. -/
theorem endDepart_spec (s : State) (r : WReq) :
    (s.endDepart r).gen (reqColour r) = s.gen (reqColour r) + 1 ∧ tget (s.endDepart r).worlds (reqColour r) = none := by
  unfold State.endDepart
  dsimp only
  generalize h1 : ({ s with gens := tput s.gens (reqColour r) (s.gen (reqColour r) + 1), worlds := tdel s.worlds (reqColour r) } : State) = s1
  have hgen1 : s1.gen (reqColour r) = s.gen (reqColour r) + 1 := by
    rw [← h1]
    unfold State.gen
    rw [tget_tput]
    rfl
  have d1 : s1.duty (reqColour r) = none := by
    rw [← h1]
    unfold State.duty
    rw [tget_tdel]
    rfl
  have k : Keeps True True True s1 (s1.wstat r 1) := (Keeps.refl s1).wstat
  exact ⟨(gen_of_marks (k.marks trivial) _).trans hgen1, Option.map_eq_none_iff.mp ((k.duty _).trans d1)⟩

theorem freeGone_of_none_awaited {w : World} (h : tget s.worlds c = some w) (hw : w.awaits = []) : s.freeGone c = s := by
  unfold State.freeGone
  rw [h]
  dsimp only
  rw [hw]
  rfl

/-- The acceptance window ends in one status word. -/
theorem closeWindow_spec {n : BitVec 512} {x : Word} {met : Bool} (h : tget s.mgmt.windows (reqColour r) = some (n, x, met)) :
    ∃ t u, s.closeWindow r = u ∧ u = State.wstat t r (if met then 3 else 1) ∧ u.mgmt.token = some x ∧
      (s.mgmt.nonce = some n → u.mgmt.nonce = none) ∧ tget u.mgmt.windows (reqColour r) = none := by
  unfold State.closeWindow
  rw [h]
  have hs (t : State) := served_wstat t r (if met then 3 else 1)
  refine ⟨_, _, rfl, rfl, (served_token (hs _)).trans rfl, fun hn => (served_nonce (hs _)).trans (if_pos hn), ?_⟩
  rw [served_windows (hs _)]
  exact tget_tdel

/-- Settles O59: each request taken as its operation says; the last steps by what advancing the generation, and freeing the colour, leave
of the world. -/
theorem worldRequests : Obligations.WorldRequests := by
  refine ⟨fun s r hh ha hc hu _ _ => ?_, fun s r w hu hm => ?_, fun s r w n x met hu hw => ?_, fun s r w hu hstop haw => ?_⟩
  · have htake {op : Nat} {k : State → State} (ho : reqOp r = op) (h1 : op ≠ 1) := takeReq_of_ne_form (k := k) ho h1 hh ha hc
    have hnone {op : Nat} (ho : reqOp r = op) : s.under op r = none := ho ▸ hu
    have hserved : Served s ((s.popReq r).readBlk r ((reqBlkLen s r).getD 0)) := served_trans (served_popReq s r) (served_readBlk _ r _)
    refine ⟨fun ho => ?_, fun ho => ?_, fun ho => ?_, fun ho => ?_, fun ho => ⟨fun hq => ?_, fun hq => ?_⟩, fun ho hq => ?_, fun ho hq => ?_,
      fun ho hcmds => routeReq_of_idle hcmds ho hh ha hc, fun ho => ?_, fun ho => ?_, fun w ho hw => ?_, fun ho => ?_, fun w ho hw => ?_,
      fun ho => ?_, fun ho => ?_, fun ho => ?_⟩
    · show execFormReq r s = _
      unfold execFormReq
      rw [hnone ho]
      refine (takeReq_of_accepted ho hh ha hc).trans (congrArg _ ?_)
      by_cases hp : reqArg0 r % 2 = 1
      · rw [if_pos hp, if_pos hp, if_pos ⟨ho, hp⟩]
      · rw [if_neg hp, if_neg hp, if_neg fun h => hp h.2]
    · exact (htake ho (by decide) : execGrantReq r s = _)
    · exact (htake ho (by decide) : execFenceRequest r s = _)
    · show execReleaseReq r s = _
      unfold execReleaseReq
      rw [hnone ho]
      exact htake ho (by decide)
    · show execStopReq r s = _
      unfold execStopReq
      rw [hnone ho]
      exact (htake ho (by decide)).trans (congrArg _ (if_neg (Bool.not_eq_true _ ▸ hq)))
    · show execStopReq r s = _
      unfold execStopReq
      rw [hnone ho]
      exact (htake ho (by decide)).trans (congrArg _ (if_pos hq))
    · show execResetReq r s = _
      unfold execResetReq
      rw [hnone ho]
      exact (htake ho (by decide)).trans (congrArg _ (if_neg (Bool.not_eq_true _ ▸ hq)))
    · show execDepartReq r s = _
      unfold execDepartReq
      rw [hnone ho]
      exact (htake ho (by decide)).trans (congrArg _ (if_neg (Bool.not_eq_true _ ▸ hq)))
    · show execUnlockReq r s = _
      unfold execUnlockReq
      rw [hnone ho]
      exact htake ho (by decide)
    · exact ⟨_, (htake ho (by decide) : execRelockReq r s = _), relock_token _ r⟩
    · refine (htake ho (by decide) : execAttestReq r s = _).trans ?_
      dsimp only
      rw [hw]
    · refine ⟨_, (htake ho (by decide) : execNonceReq r s = _), ?_, ?_⟩
      · exact (served_nonce (served_trans (served_fwWrite _ _ _ _) (served_doneReq _ r))).trans rfl
      · exact (served_free (served_trans (served_fwWrite _ _ _ _) (served_doneReq _ r))).trans (congrArg (· + 1) (served_free hserved))
    · refine (htake ho (by decide) : execImageReq r s = _).trans ?_
      dsimp only
      rw [hw]
    · refine ⟨_, (htake ho (by decide) : execModeReq r s = _), ?_⟩
      have hk := (Keeps.refl (P := True) (Q := True) (R := False) { (s.popReq r).readBlk r ((reqBlkLen s r).getD 0) with
        host := { ((s.popReq r).readBlk r ((reqBlkLen s r).getD 0)).host with mode := BitVec.ofNat 2 (reqArg0 r) } }).doneReq (r := r)
      exact congrArg (fun m => m.2.1) (hk.marks trivial)
    · exact (htake ho (by decide) : execConsentReq r s = _)
    · exact (htake ho (by decide) : execWithdrawReq r s = _)
  · show execFormReq r s = _
    unfold execFormReq
    rw [hu]
    dsimp only
    rw [hm]
    rfl
  · obtain ⟨t, u, hclose, h⟩ := closeWindow_spec hw
    refine ⟨t, u, ?_, h⟩
    show execUnlockReq r s = _
    unfold execUnlockReq
    rw [hu]
    exact congrArg _ (hclose.trans h.1)
  · refine ⟨fun ho => ?_, fun ho => ?_⟩
    · obtain ⟨hgen, hdut⟩ := advanceGen_spec hu
      obtain ⟨-, -, hget⟩ := under_spec hu
      refine ⟨_, ?_, hgen, fun x hx => ?_⟩
      · show execResetReq r s = _
        unfold execResetReq
        rw [ho] at hu
        rw [hu]
        dsimp only
        rw [hstop, hget]
        dsimp only
        rw [haw]
        rfl
      · exact Prod.mk.inj (Option.some.inj ((duty_of_get hx).symm.trans hdut))
    · obtain ⟨hgen, hgone⟩ := endDepart_spec s r
      obtain ⟨-, -, hget⟩ := under_spec hu
      refine ⟨_, ?_, hgen, hgone⟩
      show execDepartReq r s = _
      unfold execDepartReq
      rw [ho] at hu
      rw [hu]
      dsimp only
      rw [hstop, freeGone_of_none_awaited hget haw, hget]
      dsimp only
      rw [haw]
      rfl

end Sys2Proof.Machine

/-! SUPPORT. Cold reset, power and thermal stops (R319, R366, R367, R370, R462, R463, R471). -/

namespace Sys2Proof.Machine

variable {s t : State} {b : BootCfg}

/-! ## The firmware image (R367, R462) -/

/-- An image that is accepted is at least of the fused security version. -/
theorem svn_of_bootImage {x : BootImage} {m : Word} (h : bootImage b m = .ok x) : m ≤ x.svn := by
  unfold bootImage at h
  dsimp only at h
  split at h
  next y hy =>
    obtain rfl := Except.ok.inj h
    have hn : (imageCause y m).isNone = true := List.find?_some (p := fun x => (imageCause x m).isNone) hy
    unfold imageCause at hn
    split at hn
    · exact nomatch hn
    · split at hn
      · exact nomatch hn
      · split at hn
        · exact nomatch hn
        next hlt => exact BitVec.not_lt.mp hlt
  · exact nomatch h

theorem bootFail_of_cause {x : BootImage} {c : BitVec 4} (hf : b.fuses = true) (hb : b.slots = [some x, none])
    (hc : imageCause x s.mgmt.minSvn = some c) : s.bootFail b = some (c, 2) := by
  have hi : bootImage b s.mgmt.minSvn = .error c := by
    unfold bootImage
    rw [hb]
    show (match List.find? (fun x => (imageCause x s.mgmt.minSvn).isNone) [x] with
      | some x => Except.ok x
      | none => .error (((imageCause x s.mgmt.minSvn)).getD 0x1)) = _
    rw [List.find?_cons_of_neg (by rw [hc]; exact Bool.false_ne_true), List.find?_nil, hc]
    rfl
  unfold State.bootFail
  rw [hf, hi]
  rfl

/-! ## The hypervisor's world (R366) -/

theorem served_fwCap (s : State) (x : Nat) (a : Addr) (k : Cap) : Served s (s.fwCap x a k) := by
  refine served_trans (served_passWr s x a 16) (?_ : Served (s.passWr x none a 16) (State.wrCap _ a k))
  unfold State.wrCap
  rw [wrRaw_eq]
  exact served_mem _ _ _

theorem served_writeRoots (s : State) (c : Nat) (w : World) : Served s (s.writeRoots c w) :=
  served_trans (served_fwCap s _ _ _) (served_trans (served_foldl (fun s _ => served_fwCap s _ _ _) _ _) (served_fwCap _ _ _ _))

theorem served_modBank (s : State) (g : Nat) (f : BankSet → BankSet) : Served s (s.modBank g f) := served_hbm s _

theorem served_markPages (s : State) (a n : Nat) : Served s (s.markPages a n) := served_trans (served_mem s _ _) (served_hbm _ _)

theorem served_wake (s : State) (gs : List Nat) : Served s (s.wake gs) := served_foldl (fun s g => served_modBank s g _) gs s

theorem served_openSet (s : State) (g : Nat) : Served s (s.openSet g) := by
  refine served_ite (served_refl s) (served_trans (t := s.setAlloc g true) ?_ (served_modBank _ _ _))
  unfold State.setAlloc
  dsimp only
  split
  · exact served_trans (served_markPages s _ _) (served_trans (served_modBank _ _ _) (served_wake _ _))
  · split
    next h => exact absurd h (by rw [Bool.not_true, Bool.false_and, Bool.false_and]; exact Bool.false_ne_true)
    · exact served_refl s

theorem lone_spec {l : Tbl World} {c v : Nat} {m : WorldMode} (h : lone l = some (c, v, m)) : ∃ w, l = [(c, w)] ∧ w.vd = v ∧ w.mode = m := by
  unfold lone at h
  split at h
  next x =>
    obtain ⟨h1, h2⟩ := Prod.mk.inj (Option.some.inj h)
    exact ⟨x.2, congrArg (fun n => [(n, x.2)]) h1, Prod.mk.inj h2⟩
  · exact nomatch h

/-- The hypervisor's world is the one there is, with its roots, before anything is formed. -/
theorem formHyp_eq (s : State) (b : BootCfg) : ∃ s1 w k, Served s s1 ∧ w.vd = 0 ∧ w.mode = .standard ∧ s.formHyp b =
    (({ s1 with worlds := [(hypColour b, w)], mgmt := { s1.mgmt with hyp := hypColour b } } : State).writeRoots (hypColour b) w).fwCap
      (hypColour b) w.ctab k :=
  ⟨_, { vd := 0, ranges := hypRanges b, ctab := hypCtab b, allow := 0xFFFFFFFFFFFFFFFF }, _, served_foldl served_openSet _ s, rfl, rfl, rfl⟩

/-- The formation of the hypervisor's world. -/
theorem formHyp_spec (s : State) (b : BootCfg) : lone (s.formHyp b).worlds = some (hypColour b, 0, .standard) ∧
    ∃ t, Served s t ∧ Served { t with mgmt := { t.mgmt with hyp := hypColour b } } (s.formHyp b) := by
  obtain ⟨s1, w, k, h1, hvd, hmode, e⟩ := formHyp_eq s b
  rw [e]
  generalize hs3 : ({ s1 with worlds := [(hypColour b, w)], mgmt := { s1.mgmt with hyp := hypColour b } } : State) = s3
  have hk : Keeps True True True s3 ((s3.writeRoots (hypColour b) w).fwCap (hypColour b) w.ctab k) := (Keeps.refl s3).writeRoots.fwCap
  have hw : lone s3.worlds = some (hypColour b, 0, .standard) := by
    rw [← hs3, ← hvd, ← hmode]
    rfl
  refine ⟨hk.lone_eq.trans hw, s1, h1, served_trans ?_ (served_trans (served_writeRoots s3 _ w) (served_fwCap _ _ _ _))⟩
  rw [← hs3]
  exact ⟨s1.mem, s1.tags, _, s1.msc, s1.hbm, s1.host, s1.mgmt.pubs, s1.mgmt.notes, s1.sps, rfl⟩

/-! ## Cold reset (R366, R370) -/

/-- What the package's own traffic leaves of the parts that a boot sets. -/
theorem served_boot (h : Served s t) :
    t.route = s.route ∧ t.convoys = s.convoys ∧ t.wgs = s.wgs ∧ t.cmds = s.cmds ∧ t.mgmt.hyp = s.mgmt.hyp := by
  obtain ⟨m, g, ws, ms, b, x, p, n, q, rfl⟩ := h
  exact ⟨rfl, rfl, rfl, rfl, rfl⟩

/-- The state in which a boot that passes forms the hypervisor's world. -/
def State.replaced (s : State) (b : BootCfg) : State :=
  { (s.cold b).replace b with hbm := { ((s.cold b).replace b).hbm with sets := bootSets b } }
/-- The hypervisor's world formed, and its queue cleared. -/
def State.formed (s : State) (b : BootCfg) : State := ((s.replaced b).formHyp b).putQword (queuePlace b) 0 64

theorem formed_spec (s : State) (b : BootCfg) : (s.formed b).route.pkg = b.pkg.toNat ∧ (s.formed b).convoys = [] ∧ (s.formed b).wgs = [] ∧
    (s.formed b).cmds = [] ∧ (s.formed b).mgmt.hyp = hypColour b ∧ lone (s.formed b).worlds = some (hypColour b, 0, .standard) := by
  obtain ⟨hlone, t, h1, h2⟩ := formHyp_spec (s.replaced b) b
  have hk : Keeps True True True ((s.replaced b).formHyp b) (s.formed b) := (Keeps.refl _).putQword
  obtain ⟨hr1, hc1, hw1, hm1, -⟩ := served_boot h1
  obtain ⟨hr2, hc2, hw2, hm2, hh2⟩ := served_boot (served_trans h2 (served_putQword _ (queuePlace b) 0 64))
  exact ⟨congrArg Route.pkg (hr2.trans hr1), hc2.trans hc1, hw2.trans hw1, hm2.trans hm1, hh2, hk.lone_eq.trans hlone⟩

/-- The host's side once a boot has passed. -/
def State.bootHost (s : State) (b : BootCfg) : HostSide := { s.host with mode := 0, bootstat := 7, fwq := queuePlace b, booted := true }
/-- The management controller once a boot has passed. -/
def State.bootMgmt (s : State) (x : BootImage) : Mgmt :=
  { s.mgmt with svn := x.svn, minSvn := x.svn, measured := Config.sha512 (signedBytes x ++ [Config.anvRev]) }

theorem hyp_of_measured (m : Mgmt) (v w : Word) (d : BitVec 512) : ({ m with svn := v, minSvn := w, measured := d } : Mgmt).hyp = m.hyp := rfl

/-- A boot that passes every phase. -/
theorem coldReset_of_passed {x : BootImage} (hf : s.bootFail b = none) (hi : bootImage b s.mgmt.minSvn = .ok x) :
    execColdReset b s = .next { s.formed b with host := (s.formed b).bootHost b, mgmt := (s.formed b).bootMgmt x } := by
  unfold execColdReset
  rw [hf, hi]
  rfl

/-- What a boot that has passed leaves, read off the state it formed and the parts it set. -/
theorem passed_fields {r : Result} {u : State} {h : HostSide} {m : Mgmt} {svn minSvn : Word} {c pkg : Nat} {q : Addr}
    (e : r = .next { u with host := h, mgmt := m }) (hh : h.mode = 0 ∧ h.bootstat = 7 ∧ h.booted = true ∧ h.fwq = q)
    (hm : m.hyp = c ∧ m.svn = svn ∧ m.minSvn = svn) (hle : minSvn ≤ svn)
    (hu : u.route.pkg = pkg ∧ u.convoys = [] ∧ u.wgs = [] ∧ u.cmds = [] ∧ lone u.worlds = some (c, 0, .standard)) :
    ∃ t, r = .next t ∧ t.host.mode = 0 ∧ t.host.bootstat = 7 ∧ t.host.booted = true ∧ t.host.fwq = q ∧ t.mgmt.hyp = c ∧ t.mgmt.svn = svn ∧
      t.mgmt.minSvn = svn ∧ minSvn ≤ svn ∧ t.route.pkg = pkg ∧ t.convoys = [] ∧ t.wgs = [] ∧ t.cmds = [] ∧
      (∃ w, t.worlds = [(c, w)] ∧ w.vd = 0 ∧ w.mode = .standard) := by
  obtain ⟨hmode, hstat, hboot, hfwq⟩ := hh
  obtain ⟨hhyp, hsvn, hmin⟩ := hm
  obtain ⟨hpkg, hcv, hwg, hcmd, hlone⟩ := hu
  exact ⟨_, e, hmode, hstat, hboot, hfwq, hhyp, hsvn, hmin, hle, hpkg, hcv, hwg, hcmd, lone_spec hlone⟩

/-- A boot that a phase stops. -/
theorem coldReset_of_failed {f : BitVec 4 × BitVec 4} (hf : s.bootFail b = some f) :
    execColdReset b s = .next { s.cold b with
      host := { (s.cold b).host with mode := 3, bootstat := f.1.setWidth 32 <<< 4 ||| f.2.setWidth 32 } } := by
  unfold execColdReset
  rw [hf]
  rfl

/-! ## Power (R319, R463) -/

theorem sp_foldl_zeroRange (l : List (Addr × Nat)) (p : Nat) : (l.foldl (fun s r => s.zeroRange r.1 r.2) s).sp p = s.sp p :=
  List.foldlRecOn (motive := fun t : State => t.sp p = s.sp p) l _ rfl fun _ h _ _ => h

/-- From retention an SP is left as it is, or put off where it may be. -/
theorem spRetention_of_retained {p : Nat} (h : (s.sp p).power = .retention) :
    ∃ t, execSpRetention p s = .next t ∧
      (t = s ∨ ((t.sp p).power = .off ∧ (t.sp p).owner = (s.sp p).owner ∧ s.mayPutOff p = true)) := by
  unfold execSpRetention
  rw [if_pos (beq_iff_eq.mpr h)]
  split
  next hoff =>
    refine ⟨_, rfl, Or.inr ⟨?_, ?_, (Bool.and_eq_true_iff.mp hoff).1⟩⟩
    · exact congrArg Sp.power (sp_modSp _)
    · rw [sp_modSp]
      have h := congrArg Sp.owner (sp_foldl_zeroRange (s := s) (spRanges p) p)
      exact h
  · exact ⟨s, rfl, Or.inl rfl⟩

/-- The end of a thermal stop where nothing is left to stop. -/
theorem thermalSettle_of_none {f : State → Nat → State} (ht : s.mgmt.thermal = true) (hs : s.mgmt.stops = []) :
    ((s.mgmt.stops.map (·.1)).foldl f s).thermalSettle = (s.record { source := 0x09, cls := 0x36, colour := 0, recov := 0 } false).powerOff := by
  rw [hs]
  exact if_pos (by rw [List.map_nil, List.foldl_nil, ht, hs]; rfl)

/-- A thermal stop where there is no world. -/
theorem thermalStop_of_no_world {die : Nat} (hw : s.worlds = []) (hs : s.mgmt.stops = []) (ht : s.mgmt.thermal = false) :
    execThermalStop die s = .next (({ s with mgmt := { s.mgmt with thermal := true } } : State).record
      { source := 0x09, cls := 0x36, colour := 0, recov := 0 } false).powerOff := by
  unfold execThermalStop
  rw [ht, hw]
  exact congrArg _ (thermalSettle_of_none (s := { s with worlds := [], mgmt := { s.mgmt with thermal := true } }) rfl hs)

/-- Cutting the power loses no number of a record. -/
theorem record_powerOff_seq (s : State) (r : Rec) (tenant : Bool) : s.mgmt.seq < (s.record r tenant).powerOff.mgmt.seq := by
  obtain ⟨q, h, hlt⟩ := record_ex s r tenant
  have e : (s.record r tenant).mgmt.seq = q := served_seq h
  exact hlt.trans_eq e.symm

/-- Settles O60: a boot by its phases, the hypervisor's world being the only one that is formed; power and clocks under their guards. -/
theorem resetAndPower : Obligations.ResetAndPower := by
  intro s b die mhz p colour
  refine ⟨fun x hf hi => ?_, fun f hf => ⟨_, coldReset_of_failed hf, rfl, rfl, rfl, rfl, rfl⟩,
    fun x hfuses hslots hc => bootFail_of_cause hfuses hslots hc, fun hd h0 hm => if_pos ⟨hd, h0, hm⟩, fun hon hready hidle => ?_,
    fun hpow hocc hfree => ?_, fun h => spRetention_of_retained h, fun hw hs ht => ?_, fun x hx hle => ?_⟩
  · obtain ⟨hpkg, hcv, hwg, hcmd, hhyp, hlone⟩ := formed_spec s b
    have hm : ((s.formed b).bootMgmt x).hyp = hypColour b := (hyp_of_measured (s.formed b).mgmt x.svn x.svn _).trans hhyp
    exact passed_fields (coldReset_of_passed hf hi) ⟨rfl, rfl, rfl, rfl⟩ ⟨hm, rfl, rfl⟩ (svn_of_bootImage hi) ⟨hpkg, hcv, hwg, hcmd, hlone⟩
  · exact if_pos (by rw [hon, hready, decide_eq_true hidle]; rfl)
  · show execSpRetention p s = _
    unfold execSpRetention
    rw [if_neg (by rcases hpow with h | h <;> rw [h] <;> decide), if_pos]
    rw [hocc, decide_eq_true hfree]
    rcases hpow with h | h <;> rw [h] <;> rfl
  · exact ⟨_, thermalStop_of_no_world (die := die) hw hs ht, rfl, rfl, rfl, rfl,
      record_powerOff_seq { s with mgmt := { s.mgmt with thermal := true } } _ _⟩
  · show execStopTimeout colour s = _
    unfold execStopTimeout
    rw [hx]
    exact if_pos hle

end Sys2Proof.Machine
